-- ==== Sys2Proof/Word.lean ====
section
/-!
DEFINITION. The word types of the JX-2304 and the plainest arithmetic on them.
-/

namespace Sys2Proof

/-- One byte: the location of spec/04 R49. -/
abbrev Byte := BitVec 8

/-- A 64-bit register or memory word (spec/03 R30, spec/10 R171). -/
abbrev Word := BitVec 64

/-- A 96-bit instruction word (spec/10 R161, R167). -/
abbrev InstrWord := BitVec 96

/-- 64 bytes, byte 0 in the low bits: a fetch line (spec/10 R161) or a stamped line (spec/05 R74). -/
abbrev Line := BitVec 512

end Sys2Proof
end

