-- ==== Sys2Proof/Machine/Sparse.lean ====
section
/-!
DEFINITION. Sparse tables: lists of key and value pairs in one canonical form (keys strictly rising, no entry equal to
the default), and the bit-field helpers that every other file uses.
-/

namespace Sys2Proof

/-- A table from numbers to values; an unlisted key reads as the table's default. -/
abbrev Sparse (α : Type) := List (Nat × α)

/-- What key `i` reads as, with default `d`. -/
def Sparse.get {α : Type} (d : α) : Sparse α → Nat → α
  | [], _ => d
  | (k, v) :: r, i => if k = i then v else Sparse.get d r i

/-- Insert a pair before the first larger key. -/
def Sparse.insertSorted {α : Type} (k : Nat) (v : α) : Sparse α → Sparse α
  | [] => [(k, v)]
  | (j, u) :: r => if k < j then (k, v) :: (j, u) :: r else (j, u) :: Sparse.insertSorted k v r

/-- The table without key `k`. -/
def Sparse.erase {α : Type} (k : Nat) : Sparse α → Sparse α
  | [] => []
  | (j, u) :: r => if j = k then Sparse.erase k r else (j, u) :: Sparse.erase k r

/-- Write key `k`; the default is never listed. -/
def Sparse.set {α : Type} [DecidableEq α] (d : α) (m : Sparse α) (k : Nat) (v : α) : Sparse α :=
  if v = d then Sparse.erase k m else Sparse.insertSorted k v (Sparse.erase k m)

/-- Write every key from `a` to `a + n - 1`. -/
def Sparse.setRange {α : Type} [DecidableEq α] (d : α) (m : Sparse α) (a : Nat) (v : α) : Nat → Sparse α
  | 0 => m
  | n + 1 => Sparse.setRange d (Sparse.set d m (a + n) v) a v n

/-- Drop every key from `a` to `b - 1`: they read as the default again. -/
def Sparse.clearRange {α : Type} (m : Sparse α) (a b : Nat) : Sparse α :=
  m.filter fun e => e.1 < a || b ≤ e.1

/-- Keys rise strictly, all above `lo`, and no entry is the default. -/
def Sparse.wfFrom {α : Type} [DecidableEq α] (d : α) : Nat → Sparse α → Bool
  | _, [] => true
  | lo, (k, v) :: r => decide (lo ≤ k) && decide (v ≠ d) && Sparse.wfFrom d (k + 1) r

/-- The canonical form. -/
def Sparse.wf {α : Type} [DecidableEq α] (d : α) (m : Sparse α) : Bool := Sparse.wfFrom d 0 m

/-- Bits `hi` to `lo` of a word, as a number. -/
def field {w : Nat} (x : BitVec w) (hi lo : Nat) : Nat := (x.toNat / 2 ^ lo) % 2 ^ (hi + 1 - lo)

/-- Bit `i` of a word. -/
def bit {w : Nat} (x : BitVec w) (i : Nat) : Bool := x.getLsbD i

/-- `x` with bits `hi` to `lo` replaced by the low bits of `v`. -/
def setField (x : Word) (hi lo : Nat) (v : Nat) : Word :=
  let n := hi + 1 - lo
  let old := (x.toNat / 2 ^ lo) % 2 ^ n
  BitVec.ofNat 64 (x.toNat - old * 2 ^ lo + (v % 2 ^ n) * 2 ^ lo)

/-- Sign extension of an n-bit number held in a Nat. -/
def sgn (n : Nat) (v : Nat) : Int := if v % 2 ^ n < 2 ^ (n - 1) then (v % 2 ^ n : Nat) else (v % 2 ^ n : Nat) - (2 ^ n : Nat)

/-- The n-bit pattern of an integer. -/
def wrap (n : Nat) (i : Int) : Nat := (i % (2 ^ n : Nat)).toNat

/-- Sign extension to 64 bits. -/
def sext64 (n : Nat) (v : Nat) : Word := BitVec.ofNat 64 (wrap 64 (sgn n v))

/-- The parity of the low `n` bits. -/
def parity (x : Nat) : Nat → Bool
  | 0 => false
  | n + 1 => xor (x.testBit n) (parity x n)

/-- Little-endian bytes of a number, lowest address first (spec/06 R112). -/
def bytesOf (v : Nat) : Nat → List Byte
  | 0 => []
  | n + 1 => BitVec.ofNat 8 v :: bytesOf (v / 256) n

/-- The number that little-endian bytes hold. -/
def ofBytes : List Byte → Nat
  | [] => 0
  | b :: r => b.toNat + 256 * ofBytes r

/-- The first entry that satisfies a test, with its position. -/
def findIdx {α : Type} (p : α → Bool) : List α → Option (Nat × α)
  | [] => none
  | x :: r => if p x then some (0, x) else (findIdx p r).map fun y => (y.1 + 1, y.2)

/-- The list without its first entry that satisfies a test. -/
def eraseFirst {α : Type} (p : α → Bool) : List α → List α
  | [] => []
  | x :: r => if p x then r else x :: eraseFirst p r

/-- The list with its first entry that satisfies a test changed. -/
def modifyFirst {α : Type} (p : α → Bool) (g : α → α) : List α → List α
  | [] => []
  | x :: r => if p x then g x :: r else x :: modifyFirst p g r

/-- The numbers from 0 to n − 1 in order. -/
def upto : Nat → List Nat
  | 0 => []
  | n + 1 => upto n ++ [n]

end Sys2Proof
end

