-- ==== Sys2Proof/Machine/Flags.lean ====
section
/-!
DEFINITION. The sticky flags (spec/11 Table 5) and every rule that sets them: rounding once, overflow and underflow,
invalid operations, saturation, integer division by zero, the accumulator drain (spec/11 R183 to R190).
-/

namespace Sys2Proof.Machine

/-! Flags are the bits of spec/11 Table 5. -/

def flNV : Nat := 1
def flDZ : Nat := 2
def flOF : Nat := 4
def flUF : Nat := 8
def flNX : Nat := 16
def flIDZ : Nat := 32
def flIOV : Nat := 64
def flQS : Nat := 128

/-- A flag when a condition holds. -/
def flagIf (b : Bool) (fl : Nat) : Nat := if b then fl else 0

/-- Flags merge by OR (spec/11 R188). -/
def orF (a b : Nat) : Nat := Nat.lor a b

/-- The drain flag: |v| > 2^46 (spec/11 R190). -/
def drainFlag (v : Int) : Nat := flagIf (v > 2 ^ 46 || v < -(2 ^ 46)) flIOV

/-- The rounding modes of spec/11 Table 3. -/
def rmRNE : Nat := 0
def rmRTZ : Nat := 1
def rmRUP : Nat := 2
def rmRDN : Nat := 3

/-- Whether a magnitude with quotient `n` and a discarded part is rounded up: `half` compares the discarded part with one
half (0 below, 1 equal, 2 above); it is nonzero (spec/11 Table 3). -/
def roundsUp (rm : Nat) (neg : Bool) (n : Nat) (half : Nat) : Bool :=
  if rm = rmRNE then half = 2 || (half = 1 && n % 2 = 1)
  else if rm = rmRTZ then false
  else if rm = rmRUP then !neg
  else neg

/-- num / den rounded to an integer magnitude, and whether it was inexact. -/
def roundRat (rm : Nat) (neg : Bool) (num den : Nat) : Nat × Bool :=
  let n := num / den
  let r := num % den
  if r = 0 then (n, false)
  else
    let half := if 2 * r < den then 0 else if 2 * r = den then 1 else 2
    (if roundsUp rm neg n half then n + 1 else n, true)

/-- Clamp to the range of an integer type of b bits: the value and whether it was clamped (spec/11 Table 1). -/
def clampInt (signed : Bool) (b : Nat) (v : Int) : Int × Bool :=
  let lo : Int := if signed then -(2 ^ (b - 1) : Nat) else 0
  let hi : Int := if signed then (2 ^ (b - 1) : Nat) - 1 else (2 ^ b : Nat) - 1
  if v < lo then (lo, true) else if v > hi then (hi, true) else (v, false)

end Sys2Proof.Machine
end

