-- ==== Sys2Proof/Config.lean ====
section
/-!
DEFINITION. What the spec leaves to an implementation or leaves open: uninterpreted constants. None has a body,
so nothing can be proved about a value of one; the assumption log names each.
-/

namespace Sys2Proof

/-- The choice among moves, stale lines or translations that the spec does not order (log 1). -/
opaque Config.choice : Nat → Nat

/-- A 64-bit value that the spec leaves open, fresh for each argument (log 5). -/
opaque Config.freeWord : Nat → BitVec 64

/-- The path number that the hash of a line address gives towards a destination (spec/20 R367, spec/04 R68; log 6). -/
opaque Config.pathHash : Nat → Nat → Nat

/-- Whether an SM2 signature is valid: key, signed bytes, signature (spec/20 R372, R375; log 7). -/
opaque Config.sm2Valid : BitVec 512 → List (BitVec 8) → List (BitVec 8) → Bool

/-- The device's SM2 signature over bytes (spec/20 R375; log 7). -/
opaque Config.sm2Sign : List (BitVec 8) → List (BitVec 8)

/-- The key with which the boot ROM verifies the acorn (spec/20 R375; log 7). -/
opaque Config.bootKey : BitVec 512

/-- The bytes of an owner certificate: serial number, the session's key, lease, validity (spec/20 R372; log 28). -/
opaque Config.certificateBytes : Nat → BitVec 512 → Nat → Nat → Nat → List (BitVec 8)

/-- The bytes of a handover to a session and of a renewal with a lease (spec/20 R371; log 28). -/
opaque Config.handoverBytes : Nat → List (BitVec 8)
opaque Config.renewalBytes : Nat → List (BitVec 8)

/-- The bytes of an attestation report: nonce, the digests of acorn, supervisor and owner slot, the fenced tiles, the husks as
tenant, origin and shape (spec/20 R375; log 28). -/
opaque Config.reportBytes : List (BitVec 8) → BitVec 256 → BitVec 256 → BitVec 256 → List Nat →
  List (Nat × Nat × Nat × Nat × Nat) → List (BitVec 8)

/-- The device serial number (spec/20 R372; log 3). -/
opaque Config.serialNumber : Nat

end Sys2Proof
end

