-- ==== Sys2Proof/Syntax.lean ====
section
/-!
DEFINITION. The syntax of the JX-2304: the fields of an instruction word (spec/10 R167), the operands of the
machine's events, and `Instr`, one constructor for each row of spec/opcode_table.json.
-/

namespace Sys2Proof

/-- The element types of spec/10 Table 7, in the order of their codes 0x0 to 0xF. -/
inductive Ty where
  | i8 | n8 | i16 | n16 | i32 | n32 | i64 | n64 | f16 | bf16 | f32 | f64 | e4m3 | e5m2 | i4 | n4
  deriving DecidableEq, Repr

/-- The fields of an instruction word (spec/10 R167, Table 5) less its major. A field outside its
instruction's table is kept as it stands: it faults ILLEG only when the guard is true (R169, R170). -/
structure Fields where
  minor : BitVec 4
  stall : BitVec 4
  neg   : Bool
  pred  : BitVec 3
  setc  : BitVec 3
  wait  : BitVec 6
  scope : BitVec 3
  ty    : Ty
  dest  : BitVec 8
  a     : BitVec 8
  b     : BitVec 8
  c     : BitVec 8
  imm   : BitVec 28
  deriving DecidableEq, Repr

/-- The trap causes of spec/18 Table 1 (R332), and ECCU, which kills the husk. -/
inductive Cause where
  | illeg | badtgt | ipar | stall | priv | tretout | badstat | brkpt
  | huskbnd | region | align | istore | farpage | window | boostwr | eccu
  | stale | wstop | stawr | scaleseq | mchk | mbusy | arith | fwddiv | masklong | btbl | pairfail
  | trap (code : BitVec 8)
  deriving DecidableEq, Repr

/-- The atomic operations of spec/06 Table 11 (R123). -/
inductive AmoOp where
  | add | min | max | minn | maxn | and | or | xor | swap | cas
  deriving DecidableEq, Repr

/-- The variants of LDA (spec/05 R76). -/
inductive LdaVariant where
  | w | t | n
  deriving DecidableEq, Repr

/-- What a memory access does at its home (spec/06 R107 to R124, spec/05 R90 to R92). `n` counts bytes. -/
inductive MemOp where
  | load (n : Nat)
  | loadBlock (words : Nat)
  | store (n : Nat) (v : Word)
  | storeBlock (ws : List Word)
  | engine (ws : List Word)
  | amo (op : AmoOp) (n : Nat) (v cmp : Word)
  | ldf (n : Nat)
  | ldfe (n : Nat)
  | stf (n : Nat) (v : Word)
  | stef (n : Nat) (v : Word)
  | setf
  | sete
  | lda (v : LdaVariant) (thr : BitVec 32) (scope : Nat)
  | sta (line : Line) (age : BitVec 32)
  | ageq
  deriving DecidableEq, Repr

/-- What a home answers (spec/06 R102, spec/05 R77): data words with an age, done, parked, refused for want of
room (spec/04 R59), a fault, or the fault report of a discarded flag (spec/26 R396). -/
inductive Answer where
  | data (ws : List Word) (age : BitVec 32)
  | done
  | parked
  | full
  | fault (c : Cause)
  | dropped (c : Cause) (addr : Word)
  deriving DecidableEq, Repr

/-- An arriving access: a packet of the network, or word `j` of the copy a BTE channel is running (spec/07 R138). -/
inductive Arrival where
  | pkt (k : Nat)
  | copy (ch j : Nat)
  deriving DecidableEq, Repr

/-- An answer that reaches a core: a packet of this package's network, or the answer of another package to the
request `tag` of core `t` (spec/02 R16, R17). -/
inductive Reply where
  | pkt (k : Nat)
  | remote (t tag : Nat) (ans : Answer)
  | copyIn (ch j : Nat) (ans : Answer)
  deriving DecidableEq, Repr

/-- What the acorn brings at boot (spec/20 R375). -/
structure BootImage where
  acorn     : List Byte
  signature : List Byte
  failing   : List Nat
  col0 : Nat
  row0 : Nat
  width : Nat
  height : Nat
  svec  : Word
  lines : List Line
  supervisor : List Byte
  cxlFrames : Nat
  deriving DecidableEq, Repr

/-- An owner certificate as a control session presents it (spec/20 R372). -/
structure Certificate where
  session : Nat
  rootKey : BitVec 512
  serial  : Nat
  key     : BitVec 512
  lease   : Nat
  validFrom : Nat
  validTo : Nat
  signature : List Byte
  nonce   : List Byte
  nonceSignature : List Byte
  deriving DecidableEq, Repr

/-- A signed message of the owner: a handover names another control session, a renewal a new lease (spec/20 R371). -/
structure OwnerMessage where
  session : Nat
  target  : Nat
  lease   : Nat
  signature : List Byte
  deriving DecidableEq, Repr

/-- A control session asks for a session to be bound to a tenant (spec/20 R370). -/
structure BindRequest where
  asker   : Nat
  session : Nat
  deriving DecidableEq, Repr

/-- A host access through a window (spec/02 R27, R397): `data` is what a write brings. -/
structure HostAccess where
  session : Nat
  tenant  : Nat
  window  : Nat
  offset  : Nat
  len     : Nat
  data    : List Byte
  deriving DecidableEq, Repr

/-- A host atomic (spec/02 R29). -/
structure HostAtomicReq where
  session : Nat
  tenant  : Nat
  window  : Nat
  offset  : Nat
  op      : AmoOp
  n       : Nat
  v       : Word
  cmp     : Word
  deriving DecidableEq, Repr

/-- A launch submitted by a tenant session (spec/20 R373). -/
structure HostSubmit where
  session : Nat
  tenant  : Nat
  queue   : Nat
  window  : Nat
  offset  : Nat
  deriving DecidableEq, Repr

/-- An Evoken object with its requester (spec/21 R392). -/
structure ObjectFile where
  session : Nat
  tenant  : Nat
  lines   : List Line
  data    : List Byte
  deriving DecidableEq, Repr

/-- What another package sends to this one's gateway (spec/02 R16, R18, R19, spec/05 R80, R85). -/
inductive GatewayKind where
  | access (x y off : Nat) (op : MemOp)
  | flag (x y off : Nat) (n : Nat) (v : Word) (carried : List Nat)
  | multicast (group off : Nat) (op : MemOp) (strong : Bool)
  | mirror (group off : Nat) (line : Line) (age : BitVec 32) (boost : Bool)
  | stop (group : Nat)
  deriving DecidableEq, Repr

/-- A request at the gateway: who sent it, its tag, the path it was first sent on, how many ordered flags its source had sent
here before it (spec/04 R69), whether its task was in tenant mode (spec/03 R44) and whether it had an active BBEGIN (spec/06
R100). -/
structure GatewayReq where
  chip   : Nat
  tenant : Nat
  core   : Nat
  tag    : Nat
  path   : Nat
  epoch  : Nat
  user   : Bool
  boost  : Bool
  kind   : GatewayKind
  deriving DecidableEq, Repr

/-- One constructor for each row of spec/opcode_table.json. The constructors with `Fields` are instructions; the others
are the events of the machine (spec/95). An event without operands concerns the core `State.cur`, or the packet or record
`State.sel`, that the step has chosen. -/
inductive Instr where
  | boot (b : BootImage)
  | linkFailure (port : Nat) (chips : List Nat)
  | backgroundScrub (word : Nat)
  | ownerCertificate (m : Certificate)
  | ownershipHandover (m : OwnerMessage)
  | leaseRenewal (m : OwnerMessage)
  | tenantSessionBind (b : BindRequest) (tenant : Nat)
  | hostRead (r : HostAccess)
  | hostWrite (r : HostAccess)
  | hostAtomic (r : HostAtomicReq)
  | hostLaunchSubmit (r : HostSubmit)
  | objectLoad (o : ObjectFile)
  | attestationReport (session : Nat) (nonce : List Byte)
  | farStoreArrival (a : Arrival)
  | queuePortPush (port : Nat)
  | queuePortPop (port : Nat)
  | lateFaultReport (r : Reply)
  | remoteAccessArrival (a : Arrival)
  | routerAtomicMerge (k1 k2 : Nat)
  | loadReply (r : Reply)
  | acknowledgementArrival (r : Reply)
  | gatewayAccess (g : GatewayReq)
  | tstatWrite (v : Word)
  | stickyWrite (v : Word)
  | nop (f : Fields)
  | add (f : Fields)
  | addi (f : Fields)
  | sub (f : Fields)
  | mul (f : Fields)
  | mulh (f : Fields)
  | mulhn (f : Fields)
  | div (f : Fields)
  | divn (f : Fields)
  | rem (f : Fields)
  | remn (f : Fields)
  | and (f : Fields)
  | or (f : Fields)
  | xor (f : Fields)
  | andn (f : Fields)
  | shl (f : Fields)
  | shr (f : Fields)
  | sar (f : Fields)
  | rol (f : Fields)
  | clz (f : Fields)
  | ctz (f : Fields)
  | popc (f : Fields)
  | min (f : Fields)
  | max (f : Fields)
  | minn (f : Fields)
  | maxn (f : Fields)
  | sext (f : Fields)
  | zext (f : Fields)
  | bfx (f : Fields)
  | bfxn (f : Fields)
  | bfi (f : Fields)
  | sel (f : Fields)
  | mov (f : Fields)
  | movi (f : Fields)
  | movh (f : Fields)
  | movhTop (f : Fields)
  | cmp (f : Fields)
  | cmpi (f : Fields)
  | pset (f : Fields)
  | plog (f : Fields)
  | fadd (f : Fields)
  | fsub (f : Fields)
  | fmul (f : Fields)
  | ffma (f : Fields)
  | fdiv (f : Fields)
  | fsqrt (f : Fields)
  | fmin (f : Fields)
  | fmax (f : Fields)
  | fabs (f : Fields)
  | fneg (f : Fields)
  | fcmp (f : Fields)
  | fcvt (f : Fields)
  | ftoi (f : Fields)
  | itof (f : Fields)
  | fclass (f : Fields)
  | br (f : Fields)
  | bri (f : Fields)
  | call (f : Fields)
  | calli (f : Fields)
  | ret (f : Fields)
  | loop (f : Fields)
  | bru (f : Fields)
  | done (f : Fields)
  | ifence (f : Fields)
  | vadd (f : Fields)
  | vsub (f : Fields)
  | vmul (f : Fields)
  | vfma (f : Fields)
  | vfms (f : Fields)
  | vmin (f : Fields)
  | vmax (f : Fields)
  | vabs (f : Fields)
  | vneg (f : Fields)
  | vand (f : Fields)
  | vor (f : Fields)
  | vxor (f : Fields)
  | vnot (f : Fields)
  | vshl (f : Fields)
  | vshr (f : Fields)
  | vsar (f : Fields)
  | vcmp (f : Fields)
  | vsel (f : Fields)
  | vmov (f : Fields)
  | vbcast (f : Fields)
  | vget (f : Fields)
  | vput (f : Fields)
  | vperm (f : Fields)
  | vtrn (f : Fields)
  | vredr (f : Fields)
  | vredc (f : Fields)
  | vscan (f : Fields)
  | vrcp (f : Fields)
  | vrsq (f : Fields)
  | vexp2 (f : Fields)
  | vlog2 (f : Fields)
  | vtanh (f : Fields)
  | vcvt (f : Fields)
  | vrnd (f : Fields)
  | vqblk (f : Fields)
  | vdq (f : Fields)
  | msca (f : Fields)
  | rand (f : Fields)
  | randInc (f : Fields)
  | vrand (f : Fields)
  | vrandInc (f : Fields)
  | mcfg (f : Fields)
  | mloadb (f : Fields)
  | mloadz (f : Fields)
  | mrbuf (f : Fields)
  | mrbufBc (f : Fields)
  | mgang (f : Fields)
  | mmul (f : Fields)
  | mzeroAcc (f : Fields)
  | mzeroZp (f : Fields)
  | mdrain (f : Fields)
  | mdrainp (f : Fields)
  | mchkcfg (f : Fields)
  | msave (f : Fields)
  | msaveFree (f : Fields)
  | mrestore (f : Fields)
  | mstat (f : Fields)
  | mstatClr (f : Fields)
  | ld (f : Fields)
  | st (f : Fields)
  | stOf (f : Fields)
  | ldb (f : Fields)
  | stb (f : Fields)
  | ldacq (f : Fields)
  | strel (f : Fields)
  | ldf (f : Fields)
  | ldfe (f : Fields)
  | stf (f : Fields)
  | stef (f : Fields)
  | setf (f : Fields)
  | sete (f : Fields)
  | ldaW (f : Fields)
  | ldaT (f : Fields)
  | ldaN (f : Fields)
  | sta (f : Fields)
  | stam (f : Fields)
  | setit (f : Fields)
  | advit (f : Fields)
  | endw (f : Fields)
  | endwGroup (f : Fields)
  | ageq (f : Fields)
  | stfar (f : Fields)
  | stfarB (f : Fields)
  | farreq (f : Fields)
  | aadd (f : Fields)
  | amin (f : Fields)
  | amax (f : Fields)
  | aminn (f : Fields)
  | amaxn (f : Fields)
  | aand (f : Fields)
  | aor (f : Fields)
  | axor (f : Fields)
  | aswap (f : Fields)
  | acas (f : Fields)
  | fence (f : Fields)
  | fenceAck (f : Fields)
  | send (f : Fields)
  | sendb (f : Fields)
  | spawn (f : Fields)
  | park (f : Fields)
  | wait (f : Fields)
  | yield (f : Fields)
  | wkset (f : Fields)
  | wkdec (f : Fields)
  | qbindPop (f : Fields)
  | qbindPush (f : Fields)
  | qbindNone (f : Fields)
  | hqcfg (f : Fields)
  | albind (f : Fields)
  | albindNone (f : Fields)
  | balw (f : Fields)
  | mask1 (f : Fields)
  | unmask1 (f : Fields)
  | launch (f : Fields)
  | lstat (f : Fields)
  | barw (f : Fields)
  | bara (f : Fields)
  | quant (f : Fields)
  | quantW (f : Fields)
  | bbegin (f : Fields)
  | bdecl (f : Fields)
  | bcommit (f : Fields)
  | babort (f : Fields)
  | btload (f : Fields)
  | bstat (f : Fields)
  | trap (f : Fields)
  | trapS (f : Fields)
  | tret (f : Fields)
  | tfence (f : Fields)
  | gets (f : Fields)
  | sets (f : Fields)
  | setsTvec (f : Fields)
  | setsSvec (f : Fields)
  | setsSlice (f : Fields)
  | setsCtxbase (f : Fields)
  | setsEstat (f : Fields)
  | seta (f : Fields)
  | pair (f : Fields)
  | unpair (f : Fields)
  | digest (f : Fields)
  | digestClr (f : Fields)
  | huskcfgDef (f : Fields)
  | huskcfgKill (f : Fields)
  | huskcfgFlush (f : Fields)
  | huskcfgTab (f : Fields)
  | huskcfgUndef (f : Fields)
  | brkpt (f : Fields)
  | evict (f : Fields)
  | evictRestore (f : Fields)
  | packageReset
  | freeze
  | freezeRestart
  | railThermalAlarm
  | leaseLapse
  | farreqArrival
  | requestProgramStart
  | requestProgramEnd
  | apertureRequestArrival
  | bteBackoffRetry
  | copyCompletion
  | copyFault
  | scaleDescriptorDelivery
  | wakeCounterDecrement
  | messageArrival
  | startArrival
  | spawnPodArrival
  | parkContinuationArrival
  | queueRecordArrival
  | allowanceGrantArrival
  | grantWithheldRelease
  | congestionHalving
  | niUnaidedRetry
  | podStart
  | podTake
  | level1Entry
  | timeSliceExpiry
  | trapEntry
  | atomicAtHome
  | mergedReplySplit
  | feAccessAtHome
  | stampedStoreAtHome
  | mirrorDelivery
  | ldaAtHome
  | ageqAtHome
  | stopNoticeArrival
  | ofStoreArrival
  | ofFlagApply
  | multicastDelivery
  | launchAcceptance
  | slotMapping
  | slotRotation
  | groupPlacement
  | groupRetirement
  | barrierPhaseComplete
  | quantumCountExpiry
  | deliveryWindowEnd
  | declarationAtHome
  | abortNoticeArrival
  | boostedAbort
  | undoTaskStart
  | undoFinish
  | lockReleaseAtHome
  | matrixQueuePerform
  | matrixInstructionCompletion
  | peerAddArrival
  | gangBarrierComplete
  | pairIntervalClose
  | evictStopped
  | evictDrained
  | evictSaved
  | restoreComplete
  | setaDrainComplete
  | dividerCompletion
  | reductionCompletion
  | fixedLatencyResultWrite
  | quantumMarkerArrival
  deriving DecidableEq, Repr

end Sys2Proof
end

