-- ==== Sys2Proof/Machine/Forms.lean ====
section
/-!
DEFINITION. The encoding tables of the spec: what each instruction lets every field of its word hold (spec/10 R168,
R171 to R173 and the encoding table of each chapter), its issue unit, beats and result latency (spec/10 R164, R180),
and from them the registers that it reads and writes.
-/

namespace Sys2Proof

/-- The width of an element type (spec/10 Table 7). -/
def Ty.bits : Ty → Nat
  | .i8 | .n8 | .e4m3 | .e5m2 => 8
  | .i16 | .n16 | .f16 | .bf16 => 16
  | .i32 | .n32 | .f32 => 32
  | .i64 | .n64 | .f64 => 64
  | .i4 | .n4 => 4

/-- The code of an element type (spec/10 Table 7). -/
def Ty.code : Ty → Nat
  | .i8 => 0 | .n8 => 1 | .i16 => 2 | .n16 => 3 | .i32 => 4 | .n32 => 5 | .i64 => 6 | .n64 => 7
  | .f16 => 8 | .bf16 => 9 | .f32 => 10 | .f64 => 11 | .e4m3 => 12 | .e5m2 => 13 | .i4 => 14 | .n4 => 15

/-- The element type of a code (spec/10 Table 7). -/
def Ty.ofCode (n : Nat) : Ty :=
  match n % 16 with
  | 0 => .i8 | 1 => .n8 | 2 => .i16 | 3 => .n16 | 4 => .i32 | 5 => .n32 | 6 => .i64 | 7 => .n64
  | 8 => .f16 | 9 => .bf16 | 10 => .f32 | 11 => .f64 | 12 => .e4m3 | 13 => .e5m2 | 14 => .i4 | _ => .n4

/-- A signed integer type. -/
def Ty.signed : Ty → Bool
  | .i8 | .i16 | .i32 | .i64 | .i4 => true
  | _ => false

/-- A floating type. -/
def Ty.float : Ty → Bool
  | .f16 | .bf16 | .f32 | .f64 | .e4m3 | .e5m2 => true
  | _ => false

/-- The issue units of spec/10 Table 2. -/
inductive IssueUnit where
  | scalar | float | control | block | matrix | memory | system
  deriving DecidableEq, Repr

/-- The issue unit of a major (spec/10 Table 2; R182). -/
def unitOf (major : Nat) : IssueUnit :=
  if major ≤ 0x26 then .scalar
  else if 0x30 ≤ major && major ≤ 0x3E then .float
  else if (0x40 ≤ major && major ≤ 0x48) || major == 0xBB then .control
  else if 0x50 ≤ major && major ≤ 0x76 then .block
  else if 0x80 ≤ major && major ≤ 0x8C then .matrix
  else if 0x90 ≤ major && major ≤ 0xAF then .memory
  else .system

/-- Rows of an extent: bits [64:60], height − 1 (spec/10 R167). -/
def Fields.h (f : Fields) : Nat := f.c.toNat % 32 + 1

/-- Columns of an extent: bits [67:65], width − 1 (spec/10 R167). -/
def Fields.wd (f : Fields) : Nat := f.c.toNat / 32 + 1

/-- The fourth operand of a block form, bits [75:68] (spec/10 R167). -/
def Fields.fourth (f : Fields) : Nat := f.imm.toNat % 256

/-- imm20 of a block form, bits [95:76] (spec/13 R222). -/
def Fields.imm20 (f : Fields) : Nat := f.imm.toNat / 256

/-- The w registers of an h × w block at origin n in row-major order (spec/10 R173, spec/06 R111). -/
def blockRegs (n h w : Nat) : List Nat :=
  (List.range (h * w)).map fun k => n + 8 * (k / w) + k % w

/-- The block fits: row + height ≤ 32 and column + width ≤ 8 (spec/10 R173). -/
def blockFits (n h w : Nat) : Bool := n / 8 + h ≤ 32 && n % 8 + w ≤ 8

/-- What a register field may hold (spec/10 R171 Table 6, spec/12 R199, spec/13 R222). A `run` names the w registers
that a field value stands for. -/
inductive Kind where
  | zero
  | any
  | g
  | g1
  | gc
  | gAge
  | r
  | wr
  | p
  | lit (lo hi : Nat)
  | origin
  | column0
  | extent
  | square
  | run (regs : Fields → Nat → List Nat)

/-- The value `v` of a field fits its kind; a block operand is checked against the extent of `f`. -/
def Kind.ok (k : Kind) (f : Fields) (v : Nat) : Bool :=
  match k with
  | .zero => v == 0
  | .any => true
  | .g => v ≤ 0x3F
  | .g1 => 1 ≤ v && v ≤ 0x3F
  | .gc => v ≤ 0x3E
  | .gAge => v ≤ 0x3F || v == 0x68
  | .r => v ≤ 0x6F
  | .wr => v ≤ 0x4F || (0x60 ≤ v && v ≤ 0x67) || (0x6D ≤ v && v ≤ 0x6F)
  | .p => 0x60 ≤ v && v ≤ 0x67
  | .lit lo hi => lo ≤ v && v ≤ hi
  | .origin => blockFits v f.h f.wd
  | .column0 => v % 8 == 0
  | .extent => true
  | .square => f.h == f.wd
  | .run regs => (regs f v).all (· ≤ 255)

/-- Register ids: 0x00 to 0x6F are the numbers of spec/10 Table 6, 0x100 + n is register w n. -/
def wId (n : Nat) : Nat := 0x100 + n

/-- The register ids that a field names. -/
def Kind.regs (k : Kind) (f : Fields) (v : Nat) : List Nat :=
  match k with
  | .g | .g1 | .gc | .gAge | .r | .wr | .p => [v]
  | .origin => (blockRegs v f.h f.wd).map wId
  | .column0 => (blockRegs v 1 8).map wId
  | .run regs => (regs f v).map wId
  | .zero | .any | .lit _ _ | .extent | .square => []

/-- The field names a register that level 1 does not have: g16 to g63 or a w register (spec/10 R172). -/
def Kind.level0Only (k : Kind) (v : Nat) : Bool :=
  match k with
  | .g | .g1 | .gc | .gAge | .r | .wr | .p => 0x10 ≤ v && v ≤ 0x3F
  | .origin | .column0 | .run _ => true
  | .zero | .any | .lit _ _ | .extent | .square => false

/-- The result latency of spec/10 Table 8: fixed, variable, or no result. -/
inductive Lat where
  | fixed (l : Nat)
  | variable
  | none
  deriving DecidableEq, Repr

/-- An encoding table entry. `sc` says when a scope of 0 to 4 is accepted; `block` says that bits [75:68] are a
fourth operand; `ok` holds the immediate's entry and whatever else the table says; `xr` and `xw` are registers read
and written that no field names, or that a destination field also reads; `stores` says that the destination field names a
source. -/
structure Form where
  unit   : IssueUnit := .scalar
  minor  : Nat → Bool := (· == 0)
  ty     : Ty → Bool := (· == .i8)
  sc : Fields → Bool := fun _ => false
  set7   : Bool := false
  dest   : Kind := .zero
  a      : Kind := .zero
  b      : Kind := .zero
  c      : Kind := .zero
  block  : Bool := false
  fourth : Kind := .zero
  ok     : Fields → Bool := fun f => f.imm == 0
  lat    : Lat := .fixed 1
  beats  : Fields → Nat := fun _ => 1
  xr     : Fields → List Nat := fun _ => []
  xw     : Fields → List Nat := fun _ => []
  stores : Bool := false
  lvl0   : Bool := false
  noUndo : Bool := false
  noHnd  : Bool := false
  priv   : Bool := false

/-- Every field of the word fits the table (spec/10 R168, R171, R173). -/
def Form.fieldsOk (m : Form) (f : Fields) : Bool :=
  m.minor f.minor.toNat && m.ty f.ty
    && (if m.sc f then f.scope.toNat ≤ 4 else f.scope == 0)
    && f.setc != 6 && (!m.set7 || f.setc == 7)
    && m.dest.ok f f.dest.toNat && m.a.ok f f.a.toNat && m.b.ok f f.b.toNat && m.c.ok f f.c.toNat
    && (!m.block || m.fourth.ok f f.fourth) && m.ok f

/-- The register ids that the instruction reads (its guard apart). -/
def Form.reads (m : Form) (f : Fields) : List Nat :=
  m.a.regs f f.a.toNat ++ m.b.regs f f.b.toNat ++ m.c.regs f f.c.toNat
    ++ (if m.block then m.fourth.regs f f.fourth else []) ++ (if m.stores then m.dest.regs f f.dest.toNat else []) ++ m.xr f

/-- The register ids that the instruction writes; g0 and p7 take no write. -/
def Form.writes (m : Form) (f : Fields) : List Nat :=
  ((if m.stores then [] else m.dest.regs f f.dest.toNat) ++ m.xw f).filter fun r => r != 0 && r != 0x67

/-- Some field names a register that level 1 does not have (spec/10 R172). CALL and CALLI name no register in a field
(DEDUCED, log 10). -/
def Form.level0Only (m : Form) (f : Fields) : Bool :=
  m.dest.level0Only f.dest.toNat || m.a.level0Only f.a.toNat || m.b.level0Only f.b.toNat
    || m.c.level0Only f.c.toNat || (m.block && m.fourth.level0Only f.fourth)

/-- The source fields that read registers, in the order in which queue ports are popped (spec/10 R171). -/
def Form.sources (m : Form) (f : Fields) : List Nat :=
  let one (k : Kind) (v : Nat) : List Nat := match k with
    | .r => [v]
    | _ => []
  one m.a f.a.toNat ++ one m.b f.b.toNat ++ one m.c f.c.toNat

/-! ### Type sets -/

/-- Codes 0x0 to 0x7. -/
def tyInt (t : Ty) : Bool := t.code ≤ 7
/-- Codes 0x0 to 0xB. -/
def tyArith (t : Ty) : Bool := t.code ≤ 11
/-- Codes 0x8 to 0xB. -/
def tyFloat (t : Ty) : Bool := 8 ≤ t.code && t.code ≤ 11
/-- Codes 0x0 to 0x3, 0xE and 0xF. -/
def tySmall (t : Ty) : Bool := t.code ≤ 3 || 14 ≤ t.code
/-- Codes 0x0 to 0xB, 0xE and 0xF. -/
def tyElem (t : Ty) : Bool := t.code ≤ 11 || 14 ≤ t.code
/-- Codes 0x0 to 0xD. -/
def tyMem (t : Ty) : Bool := t.code ≤ 13
/-- The signed integer codes 0x0, 0x2, 0x4, 0x6. -/
def tySigned (t : Ty) : Bool := t.code ≤ 7 && t.code % 2 == 0
/-- The unsigned integer codes 0x1, 0x3, 0x5, 0x7. -/
def tyUnsigned (t : Ty) : Bool := t.code ≤ 7 && t.code % 2 == 1

/-! ### Scalar, predicate and control forms (spec/12 R200, R208, R215) -/

/-- A PC immediate: imm28[27:13] zero and a slot of 0 to 4 (spec/12 R215). -/
def pcImm (f : Fields) : Bool := f.imm.toNat < 8192 && f.imm.toNat % 8 ≤ 4

/-- ADD, SUB, MUL, AND, OR, XOR, ANDN and their kin: three registers. -/
def formInt3 (ty : Ty → Bool) (l : Lat := .fixed 1) : Form := { ty := ty, dest := .wr, a := .r, b := .r, lat := l }

/-- CLZ, CTZ, POPC, MOV. -/
def formInt2 : Form := { ty := tyInt, dest := .wr, a := .r }

/-- ADDI. -/
def formAddi : Form := { ty := tyInt, dest := .wr, a := .r, ok := fun _ => true }

/-- SHL, SHR, SAR, ROL: minor 0 by register, minor 1 by immediate. -/
def formShift : Form :=
  { minor := (· ≤ 1), ty := tyInt, dest := .wr, a := .r, b := .r
    ok := fun f => if f.minor == 1 then f.b == 0 && f.imm.toNat < f.ty.bits else f.imm == 0 }

/-- SEXT, ZEXT. -/
def formExt : Form := { dest := .wr, a := .r, ok := fun f => f.imm.toNat ≤ 63 }

/-- BFX, BFXN; BFI reads b too. -/
def formBf (b : Kind) : Form :=
  { dest := .wr, a := .r, b := b
    ok := fun f => f.imm.toNat < 4096 && f.imm.toNat % 64 + f.imm.toNat / 64 + 1 ≤ 64 }

/-- SEL. -/
def formSel : Form := { ty := tyInt, dest := .wr, a := .r, b := .r, c := .p }

/-- MOVI. -/
def formMovi : Form := { ty := tyInt, dest := .wr, ok := fun _ => true }

/-- MOVH, with minor 0. -/
def formMovh : Form := { dest := .wr, a := .r, ok := fun _ => true }

/-- MOVH.top, minor 1. -/
def formMovhTop : Form := { minor := (· == 1), dest := .wr, a := .r, ok := fun f => f.imm.toNat < 256 }

/-- The COMB and COND of a compare, and the two destinations (spec/12 R205). -/
def cmpOk (un : Bool) (f : Fields) : Bool :=
  f.minor.toNat / 4 ≤ 2 && (un || f.minor.toNat % 4 ≤ 2) && (f.dest != f.c || f.dest == 0x67)

/-- CMP: the destinations are also read. -/
def formCmp : Form :=
  { minor := fun _ => true, ty := tyInt, dest := .p, a := .r, b := .r, c := .p
    ok := fun f => f.imm == 0 && cmpOk false f
    xr := fun f => if f.minor.toNat / 4 = 0 then [] else [f.dest.toNat]
    xw := fun f => [f.c.toNat] }

/-- CMPI. -/
def formCmpi : Form := { formCmp with b := .zero, ok := cmpOk false }

/-- FCMP. -/
def formFcmp : Form :=
  { formCmp with unit := .float, ty := tyFloat, ok := fun f => f.imm == 0 && cmpOk true f, lat := .fixed 4 }

/-- PSET. Bit 7 of imm28, which Table 1 names neither as a value nor as zero, is accepted and has no effect (spec/12 R200; DESIGN CHOICE,
log 128). -/
def formPset : Form :=
  { ok := fun f => f.imm.toNat < 32768
    xw := fun f => ((List.range 7).filter fun i => f.imm.getLsbD (8 + i)).map (0x60 + ·) }

/-- PLOG. -/
def formPlog : Form := { minor := fun _ => true, dest := .p, a := .p, b := .p }

/-- FADD, FSUB, FMUL, FDIV, FMIN, FMAX. -/
def formF3 (l : Lat) : Form := { unit := .float, ty := tyFloat, dest := .wr, a := .r, b := .r, lat := l }

/-- FFMA. -/
def formFfma : Form := { formF3 (.fixed 4) with c := .r }

/-- FSQRT, FABS, FNEG, FCLASS. -/
def formF2 (l : Lat) : Form := { unit := .float, ty := tyFloat, dest := .wr, a := .r, lat := l }

/-- FCVT, FTOI, ITOF: the minor names the other type. -/
def formConv (minor : Nat → Bool) (ty : Ty → Bool) : Form :=
  { unit := .float, minor := minor, ty := ty, dest := .wr, a := .r, lat := .fixed 4 }

/-- BR, BRU. -/
def formBr : Form := { unit := .control, set7 := true, ok := pcImm, lat := .none }

/-- BRI, RET. -/
def formBri : Form := { unit := .control, set7 := true, a := .r, lat := .none }

/-- CALL: the link g62 is written. -/
def formCall : Form := { unit := .control, ok := pcImm, xw := fun _ => [0x3E] }

/-- CALLI. -/
def formCalli : Form := { unit := .control, a := .r, xw := fun _ => [0x3E] }

/-- LOOP: the counter is read and written. -/
def formLoop : Form := { unit := .control, dest := .g1, ok := pcImm, xr := fun f => [f.dest.toNat] }

/-- DONE. -/
def formDone : Form := { unit := .control, set7 := true, lat := .none, noHnd := true }

/-- IFENCE. -/
def formIfence : Form := { unit := .control, set7 := true, lat := .none }

/-! ### Block forms (spec/13 R222) -/

/-- Beats of a block instruction: ⌈n/4⌉ (spec/10 Table 8). -/
def beats4 (f : Fields) : Nat := (f.h * f.wd + 3) / 4

/-- Beats of a block instruction of class V6: n. -/
def beats1 (f : Fields) : Nat := f.h * f.wd

/-- Class V4: n beats for f64, otherwise ⌈n/4⌉. An instruction with two types counts as f64 where its type field, the destination's, is
f64: which of the two Table 8 means is not said (spec/10 R180, spec/13 R234; DESIGN CHOICE, log 125). -/
def beatsV4 (f : Fields) : Nat := if f.ty = .f64 then beats1 f else beats4 f

/-- The base of the block forms: imm20 and the fourth operand zero, extent any. -/
def formV : Form :=
  { unit := .block, dest := .origin, a := .origin, c := .extent, block := true
    ok := fun f => f.imm20 == 0, beats := beats4 }

/-- VADD, VSUB, VMIN, VMAX: class V1 on integers, V4 on floats (the fixed latency of a float is 4). -/
def formVarith (f : Fields) : Form :=
  { formV with ty := tyArith, b := .origin, lat := .fixed (if f.ty.float then 4 else 1), beats := if f.ty.float then beatsV4 else beats4 }

/-- VABS, VNEG. -/
def formVarith2 (f : Fields) : Form := { formVarith f with b := .zero }

/-- VMUL. -/
def formVmul : Form := { formV with ty := tyArith, b := .origin, lat := .fixed 4, beats := beatsV4 }

/-- VFMA, VFMS. -/
def formVfma : Form := { formVmul with fourth := .origin }

/-- VAND, VOR, VXOR. -/
def formVlog : Form := { formV with b := .origin }

/-- VNOT, VMOV. -/
def formVmov : Form := formV

/-- VSHL, VSHR, VSAR. -/
def formVshift (f : Fields) : Form :=
  { formV with
    minor := (· ≤ 1), ty := tyInt, b := if f.minor == 1 then .zero else .origin
    ok := fun f => if f.minor == 1 then f.imm20 < f.ty.bits else f.imm20 == 0 }

/-- VCMP. -/
def formVcmp : Form :=
  { formV with
    minor := (· < 8), ty := tyArith, b := .origin
    ok := fun f => f.imm20 == 0 && (f.minor.toNat % 4 ≤ 2 || f.ty.float) }

/-- VSEL. -/
def formVsel : Form := { formV with b := .origin, fourth := .origin }

/-- One w register, or the first of a run of `n`. -/
def runOf (n : Fields → Nat) : Kind := .run fun f v => (List.range (n f)).map (v + ·)

/-- VBCAST. -/
def formVbcast : Form := { formV with ty := tyElem, a := .r }

/-- VGET. -/
def formVget : Form :=
  { formV with
    ty := tyElem, dest := .wr, a := runOf (fun _ => 1), c := .zero
    ok := fun f => f.imm20 < 64 / f.ty.bits, beats := fun _ => 1 }

/-- VPUT: the other elements of the register are read. -/
def formVput : Form :=
  { formV with
    ty := tyElem, dest := runOf (fun _ => 1), a := .zero, b := .r, c := .zero
    ok := fun f => f.imm20 < 64 / f.ty.bits, beats := fun _ => 1, xr := fun f => [wId f.dest.toNat] }

/-- VPERM. -/
def formVperm : Form := formVlog

/-- VTRN. -/
def formVtrn : Form := { formV with c := .square }

/-- VREDR: row i's result goes to N + 8i. -/
def formVredr : Form :=
  { formV with
    minor := (· ≤ 2), ty := tyArith, lat := .variable, beats := fun _ => 1
    dest := .run fun f v => (List.range f.h).map (v + 8 * ·) }

/-- VREDC: (N mod 8) + W ≤ 8. -/
def formVredc : Form :=
  { formVredr with
    dest := runOf Fields.wd, ok := fun f => f.imm20 == 0 && f.dest.toNat % 8 + f.wd ≤ 8 }

/-- VSCAN. -/
def formVscan : Form := { formVredr with dest := .origin }

/-- VRCP, VRSQ, VEXP2, VLOG2, VTANH. -/
def formVfun : Form := { formV with ty := fun t => 8 ≤ t.code && t.code ≤ 10, lat := .fixed 6, beats := beats1 }

/-- The other type that imm20[3:0] names. -/
def Fields.ty2 (f : Fields) : Ty := Ty.ofCode f.imm20

/-- VCVT: part p below the ratio of the widths (spec/13 R234). Its beats go by its destination type (log 125). -/
def formVcvt : Form :=
  { formV with
    minor := fun _ => true, ty := fun _ => true, lat := .fixed 4, beats := beatsV4
    ok := fun f => f.imm20 < 16 &&
      f.minor.toNat < max f.ty2.bits f.ty.bits / min f.ty2.bits f.ty.bits
    xr := fun f => (blockRegs f.dest.toNat f.h f.wd).map wId }

/-- VRND. -/
def formVrnd : Form := { formV with minor := (· ≤ 4), ty := tyFloat, lat := .fixed 4, beats := beatsV4 }

/-- Registers of a run of m elements of b bits (spec/13 R237). -/
def runRegs (m b : Nat) : Nat := (m * b + 63) / 64

/-- VQBLK (spec/13 R238): E elements, groups of G, descriptors of 32 bits. -/
def vqE (f : Fields) : Nat := f.h * f.wd * (64 / f.ty2.bits)
/-- The group size: 32, 64 or 128. -/
def vqG (f : Fields) : Nat := 32 * 2 ^ f.minor.toNat

/-- VQBLK takes ⌈n/4⌉ beats, from f64 too, since its destination is never f64 (DESIGN CHOICE, log 125). -/
def formVqblk : Form :=
  { formV with
    minor := (· ≤ 2), ty := tySmall, lat := .fixed 4
    dest := runOf (fun f => runRegs (vqE f) f.ty.bits)
    fourth := runOf (fun f => runRegs (vqE f / vqG f) 32)
    ok := fun f => 8 ≤ f.imm20 && f.imm20 ≤ 11 && vqE f % vqG f == 0
    xr := fun f => ((List.range (runRegs (vqE f) f.ty.bits)).map (f.dest.toNat + ·)).map wId }

/-- VDQ (spec/13 R239): E elements of the floating destination. -/
def vdE (f : Fields) : Nat := f.h * f.wd * (64 / f.ty.bits)

def formVdq : Form :=
  { formV with
    minor := (· ≤ 2), ty := tyFloat, lat := .fixed 4, beats := beatsV4
    a := runOf (fun f => runRegs (vdE f) f.ty2.bits)
    fourth := runOf (fun f => runRegs (vdE f / vqG f) 32)
    ok := fun f => (f.imm20 ≤ 3 || f.imm20 == 14 || f.imm20 == 15) && vdE f % vqG f == 0 }

/-- MSCA (spec/13 R240): the y run is read and written. -/
def formMsca : Form :=
  { formV with
    ty := fun t => t = .f32 || t = .f64, lat := .fixed 4, beats := beatsV4
    dest := runOf (fun f => runRegs f.h f.ty.bits)
    b := runOf (fun f => runRegs (f.h * f.wd) 32)
    fourth := runOf (fun f => runRegs (f.h * f.wd) 32)
    xr := fun f => ((List.range (runRegs f.h f.ty.bits)).map (f.dest.toNat + ·)).map wId }

/-- RAND: names only scalar registers. -/
def formRand : Form := { formV with dest := .wr, a := .r, b := .r, c := .zero, lat := .fixed 3, beats := fun _ => 1 }

/-- RAND.inc: the counter g[b] is written; the destination must differ from it (spec/13 R241). -/
def formRandInc : Form :=
  { formRand with
    minor := (· == 1), b := .g1, ok := fun f => f.imm20 == 0 && f.dest != f.b, xw := fun f => [f.b.toNat] }

/-- VRAND. -/
def formVrand : Form := { formV with ty := fun t => t = .n32 || t = .f32, a := .r, b := .r, lat := .fixed 4 }

/-- VRAND.inc. -/
def formVrandInc : Form := { formVrand with minor := (· == 1), b := .g1, xw := fun f => [f.b.toNat] }

/-! ### Matrix forms (spec/14 R257) -/

/-- The base of the matrix forms: not at level 1, variable latency. -/
def formM : Form := { unit := .matrix, lat := .variable, lvl0 := true }

def formMcfg : Form := { formM with a := .g }
def formMloadb : Form :=
  { formM with
    ty := tySmall, dest := .lit 0 1, a := .g, b := .g
    ok := fun f => f.imm.toNat < 65536 && f.imm.toNat % 256 + f.imm.toNat / 256 + 1 ≤ 256 }
/-- The registers of MLOADZ's run of 32-bit descriptors (spec/14 Table 4, R260). -/
def loadzRegs (f : Fields) : List Nat :=
  ((List.range (runRegs (f.imm.toNat / 2048 + 1) 32)).map (f.dest.toNat + ·)).map wId
def formMloadz : Form :=
  { formM with
    minor := (· ≤ 2), dest := .any
    a := .zero
    ok := fun f => f.imm.toNat < 131072 &&
      f.imm.toNat % 2048 + f.imm.toNat / 2048 + 1 ≤ (if f.minor == 2 then 256 else 2048) &&
      f.dest.toNat + runRegs (f.imm.toNat / 2048 + 1) 32 ≤ 256
    xr := loadzRegs, xw := loadzRegs }
def formMrbuf (m : Nat) : Form :=
  { formM with
    minor := (· == m), ty := tySmall, dest := .lit 0 31, a := .g, b := .g
    ok := fun f => f.imm.toNat < 32 && f.dest.toNat + f.imm.toNat + 1 ≤ 32 }
def formMgang : Form := formM
def formMmul : Form :=
  { formM with
    minor := fun m => m < 8 && m % 4 != 0, a := .lit 0 31
    ok := fun f => f.imm.toNat < 262144 && f.a.toNat + f.imm.toNat / 8192 + 1 ≤ 32 }
def formMzeroAcc : Form := { formM with a := .lit 0 1, ok := fun f => f.imm.toNat < 2 ^ 26 }
def formMzeroZp : Form := { formM with minor := (· == 1) }
def formMdrain : Form :=
  { formM with
    minor := (· ≤ 1), ty := (· == .i64), dest := .origin, a := .lit 0 1, c := .extent
    ok := fun f => f.imm.toNat < 8192 }
def formMdrainp : Form :=
  { formM with
    minor := (· ≤ 3), dest := .lit 0 15, a := .lit 0 1, ok := fun f => f.imm.toNat < 2 ^ 26 }
def formMchkcfg : Form := { formM with ok := fun f => f.imm.toNat < 65536 }
def formMsave (m : Nat) : Form :=
  { formM with minor := (· == m), a := .g, ok := fun f => 1 ≤ f.imm.toNat && f.imm.toNat < 16, lvl0 := false }
def formMstat (m : Nat) : Form := { formM with minor := (· == m), dest := .wr, lvl0 := false }

/-! ### Memory forms (spec/06 R106 to R127, spec/05 R89, R93, spec/07 R132, spec/03 R36) -/

def formMem : Form := { unit := .memory, lat := .variable, ok := fun _ => true }

def formLd : Form := { formMem with ty := tyMem, dest := .g, a := .g }
def formSt (m : Nat) : Form := { formMem with minor := (· == m), ty := tyMem, a := .g, b := .g }
/-- A byte offset that is a multiple of 8. -/
def immMul8 (f : Fields) : Bool := f.imm.toNat % 8 == 0
def formLdb : Form := { formMem with dest := .origin, a := .g, c := .extent, ok := immMul8 }
def formStb : Form := { formMem with a := .g, b := .origin, c := .extent, ok := immMul8 }
def formLdacq : Form := { formLd with sc := fun _ => true }
def formStrel : Form := { formSt 0 with sc := fun _ => true }
def formSetf : Form := { formMem with a := .g }
def formStfarB : Form :=
  { formMem with minor := (· == 1), a := .g, b := .origin, c := .extent, ok := fun f => immMul8 f && f.h * f.wd ≤ 8 }
def formFarreq : Form :=
  { formMem with dest := .any, a := .g, b := .g, c := .any, ok := immMul8 }
/-- Offset of a stamped access: imm28[27:16] in 64-byte units. -/
def formLda (m : Nat) : Form :=
  { formMem with
    minor := (· == m), sc := fun _ => true, dest := .column0, a := .g, b := .lit 0 0x3F, c := .lit 0xE0 0xE0
    xw := fun f => [f.b.toNat] }
def formSta : Form :=
  { formMem with
    sc := fun _ => true, stores := true, dest := .column0, a := .g, b := .gAge, c := .lit 0xE0 0xE0
    ok := fun f => f.imm.toNat % 65536 == 0 }
def formStam : Form := { formSta with ok := fun _ => true }
def formAgeq : Form :=
  { formMem with sc := fun _ => true, dest := .g, a := .g, ok := fun f => f.imm.toNat % 65536 == 0 }
/-- Minor 0: any immediate; minor 1: from g[a]. -/
def formSetit : Form :=
  { unit := .memory, minor := (· ≤ 1), set7 := true, a := .g
    ok := fun f => if f.minor == 1 then f.imm == 0 else f.a == 0
    xw := fun _ => [0x68] }
def formAdvit : Form :=
  { formSetit with
    ok := fun f => if f.minor == 1 then f.imm == 0 else f.a == 0 && f.imm.toNat < 2 ^ 27
    xr := fun _ => [0x68] }
def formEndw : Form := { formMem with ok := fun f => f.imm == 0 }
def formEndwGroup : Form := { formMem with minor := (· == 1), ok := fun f => f.imm.toNat < 65536 }
/-- The atomics (spec/06 R122): NR is minor bit 0, ACQ bit 1, REL bit 2. -/
def formAmo (ty : Ty → Bool) : Form :=
  { formMem with
    minor := (· < 8), ty := ty, a := .g, b := .g, dest := .g
    sc := fun f => f.minor.toNat / 2 != 0
    ok := fun f => !(f.minor.getLsbD 0) || (f.dest == 0 && !(f.minor.getLsbD 1)) }
def formAcas : Form :=
  { formAmo (fun t => 4 ≤ t.code && t.code ≤ 7) with c := .g, ok := fun f => !(f.minor.getLsbD 0) }
def formFence : Form := { formMem with sc := fun _ => true, set7 := true, ok := fun f => f.imm == 0 }
def formFenceAck : Form := { formMem with minor := (· == 1), set7 := true, ok := fun f => f.imm == 0 }
def formSeta : Form := { unit := .system, lat := .variable, a := .g, b := .g, ok := fun f => f.imm.toNat ≤ 31 }

/-! ### Task, group, boosted and system forms (spec/15 R274, spec/16 R309, spec/17 R323, spec/18 R345, spec/19 R363, spec/20 R378) -/

def formSys : Form := { unit := .system, lat := .variable }

def formSend : Form :=
  { formSys with minor := (· ≤ 1), a := .g, b := .origin, c := .extent, ok := fun f => pcImm f && f.h * f.wd ≤ 32, lvl0 := true }
def formSendb : Form := { formSys with minor := (· ≤ 1), a := .g, b := .g, c := .lit 0 31, ok := pcImm }
def formSpawn : Form :=
  { formSys with minor := (· ≤ 1), a := .g, b := .g, c := .any, ok := fun f => pcImm f && (f.minor == 1 || f.c == 0) }
def formPark : Form := { formSys with set7 := true, a := .g, b := .g, c := .any, lvl0 := true }
def formWait : Form := { formSys with set7 := true, c := .any, lvl0 := true }
def formYield : Form := { formSys with set7 := true, lvl0 := true }
def formWkset : Form := { formSys with a := .r, c := .any }
def formWkdec : Form := { formSys with a := .g, b := .r, c := .any }
def formQbindPop : Form := { formSys with dest := .lit 0x40 0x4F, c := .lit 0 3 }
def formQbindPush : Form := { formSys with minor := (· == 1), dest := .lit 0x40 0x4F, a := .g, c := .lit 0 3 }
def formQbindNone : Form := { formSys with minor := (· == 2), dest := .lit 0x40 0x4F }
def formHqcfg : Form := { formSys with a := .g, c := .lit 0 3 }
def formAlbind : Form := { formSys with dest := .lit 0x51 0x5F, a := .g }
def formAlbindNone : Form := { formSys with minor := (· == 1), dest := .lit 0x51 0x5F }
def formBalw : Form :=
  { unit := .control, set7 := true, lat := .none, a := .lit 0x50 0x5F, b := .any, ok := pcImm }
def formMask1 : Form := { formSys with set7 := true, lat := .none, lvl0 := true }
def formUnmask1 : Form := { formSys with set7 := true, lat := .none }
def formLaunch : Form := { formSys with dest := .g, a := .g }
def formBarw : Form := { formSys with set7 := true, lvl0 := true }
def formBara : Form := { formSys with lvl0 := true }
def formQuant (m : Nat) : Form := { formSys with minor := (· == m), lvl0 := true }
def formBbegin : Form :=
  { formSys with a := .g, b := .g, c := .any, ok := pcImm, lvl0 := true, noUndo := true }
def formBdecl : Form :=
  { formSys with
    a := .g, b := .g, c := .gc, noUndo := true, xr := fun f => if f.c = 0 then [] else [f.c.toNat + 1]
    ok := fun f => f.imm.toNat < 2 ^ 19 && f.imm.toNat % 8 ≤ 4 }
def formBcommit : Form := { formSys with noUndo := true }
def formBabort : Form := { formSys with set7 := true, noUndo := true }
def formBtload : Form := { formSys with a := .g, b := .g, ok := fun f => f.imm.toNat < 64, priv := true }
def formBstat : Form := { formSys with dest := .wr }
def formTrap (m : Nat) : Form :=
  { formSys with
    minor := (· == m), set7 := true, lat := .none, a := .g
    ok := fun f => 0x80 ≤ f.imm.toNat && f.imm.toNat ≤ 0xFF }
def formTret : Form := { formSys with set7 := true, lat := .none }
def formTfence : Form := { formSys with set7 := true, lat := .none, ok := fun f => f.imm.toNat < 256 }
def formGets : Form := { formSys with lat := .fixed 1, dest := .g, ok := fun f => f.imm.toNat < 4096 }
def formSets : Form := { formSys with lat := .fixed 1, a := .g, ok := fun f => f.imm.toNat < 4096 }
def formBrkpt : Form := { formSys with set7 := true, lat := .none, ok := fun _ => true }
def formEvict (m : Nat) : Form := { formSys with minor := (· == m), dest := .g, a := .g, b := .g, priv := true }
def formPair : Form :=
  { formSys with dest := .g, lvl0 := true, ok := fun f => 256 ≤ f.imm.toNat && f.imm.toNat ≤ 65536 }
def formUnpair : Form := formSys
def formDigest : Form := { formSys with dest := .g }
def formDigestClr : Form := { formSys with minor := (· == 1) }
def formHuskcfg (m : Nat) : Form :=
  { formSys with minor := (· == m), dest := .g, a := .g, b := if m = 0 || m = 3 then .g else .zero, priv := true }

end Sys2Proof
end

