-- ==== Sys2Proof/Machine/Float.lean ====
section
/-!
DEFINITION. Floating point: the formats of spec/11 Table 2, values as exact dyadic numbers, one rounding (spec/11 R184 to
R186), the operations of spec/12 R209 to R213, and block scales (spec/11 R191 to R194).
-/

namespace Sys2Proof.Machine

open Sys2Proof

/-- A format: exponent and fraction bits (spec/11 Table 2). -/
structure Fmt where
  e : Nat
  f : Nat
  deriving DecidableEq, Repr

def fmtOf : Ty → Fmt
  | .f16 => ⟨5, 10⟩
  | .bf16 => ⟨8, 7⟩
  | .f32 => ⟨8, 23⟩
  | .f64 => ⟨11, 52⟩
  | .e4m3 => ⟨4, 3⟩
  | .e5m2 => ⟨5, 2⟩
  | _ => ⟨11, 52⟩

def Fmt.bias (m : Fmt) : Nat := 2 ^ (m.e - 1) - 1
def Fmt.width (m : Fmt) : Nat := 1 + m.e + m.f
/-- e4m3 has no infinities (spec/11 R184). -/
def Fmt.noInf (m : Fmt) : Bool := m.e == 4
/-- The canonical NaN. -/
def Fmt.qnan (m : Fmt) : Nat :=
  if m.noInf then 0x7F else (2 ^ m.e - 1) * 2 ^ m.f + 2 ^ (m.f - 1)

/-- A floating value: a NaN, an infinity, or ± m × 2^e; zero keeps its sign. -/
inductive FV where
  | nan (signalling : Bool)
  | inf (neg : Bool)
  | fin (neg : Bool) (m : Nat) (e : Int)
  deriving DecidableEq, Repr

/-- The value of a pattern (spec/11 R184). -/
def fval (m : Fmt) (x : Nat) : FV :=
  let fr := x % 2 ^ m.f
  let ex := x / 2 ^ m.f % 2 ^ m.e
  let neg := x / 2 ^ (m.e + m.f) % 2 = 1
  if m.noInf then
    if ex = 15 ∧ fr = 7 then .nan false
    else if ex = 0 then .fin neg fr (1 - (m.bias : Int) - m.f)
    else .fin neg (2 ^ m.f + fr) ((ex : Int) - m.bias - m.f)
  else if ex = 2 ^ m.e - 1 then
    if fr = 0 then .inf neg else .nan (fr < 2 ^ (m.f - 1))
  else if ex = 0 then .fin neg fr (1 - (m.bias : Int) - m.f)
  else .fin neg (2 ^ m.f + fr) ((ex : Int) - m.bias - m.f)

/-- The sign bit of a format. -/
def Fmt.sign (m : Fmt) (neg : Bool) : Nat := if neg then 2 ^ (m.e + m.f) else 0
/-- The pattern of an infinity. -/
def Fmt.infBits (m : Fmt) (neg : Bool) : Nat := m.sign neg + (2 ^ m.e - 1) * 2 ^ m.f
/-- The pattern of the largest finite value. -/
def Fmt.maxBits (m : Fmt) (neg : Bool) : Nat :=
  m.sign neg + if m.noInf then 0x7E else (2 ^ m.e - 1) * 2 ^ m.f - 1

/-- A pattern and its flags. -/
abbrev FR := Nat × Nat

/-- The invalid result: the canonical NaN and NV. -/
def Fmt.invalid (m : Fmt) : FR := (m.qnan, flNV)
/-- The NaN result of NaN operands; NV when one signals (spec/11 R186). -/
def Fmt.nanOf (m : Fmt) (sig : Bool) : FR := (m.qnan, flagIf sig flNV)

/-- m × 2^e, m > 0, rounded to a multiple of 2^q: the multiple and whether it was inexact. -/
def roundAt (rm : Nat) (neg : Bool) (m : Nat) (e q : Int) : Nat × Bool :=
  if q ≤ e then (m * 2 ^ (e - q).toNat, false) else roundRat rm neg m (2 ^ (q - e).toNat)

/-- Round ± m × 2^e once (spec/11 R185, R186): overflow as the mode directs (e4m3 saturates), tininess after rounding. -/
def fround (f : Fmt) (rm : Nat) (neg : Bool) (m : Nat) (e : Int) : FR :=
  if m = 0 then (f.sign neg, 0)
  else
    let top : Int := e + Nat.log2 m
    let emin : Int := 1 - (f.bias : Int)
    let q : Int := max (top - f.f) (emin - f.f)
    let (n, nx) := roundAt rm neg m e q
    let (n, q) := if n = 2 ^ (f.f + 1) then (2 ^ f.f, q + 1) else (n, q)
    let free := roundAt rm neg m e (top - f.f)
    let tiny := top < emin - 1 || (top = emin - 1 && free.1 < 2 ^ (f.f + 1))
    let ex : Int := q + f.f + f.bias
    let maxEx : Int := if f.noInf then 15 else 2 ^ f.e - 2
    let ovf : Bool := n ≥ 2 ^ f.f && (ex > maxEx || (f.noInf && ex = 15 && n = 15))
    if ovf then
      let up := rm = rmRNE || (rm = rmRUP && !neg) || (rm = rmRDN && neg)
      (if f.noInf || !up then f.maxBits neg else f.infBits neg, orF flOF flNX)
    else
      let bits := if n < 2 ^ f.f then n else ex.toNat * 2 ^ f.f + (n - 2 ^ f.f)
      (f.sign neg + bits, orF (flagIf nx flNX) (flagIf (nx && tiny) flUF))

/-- A signed exact dyadic v × 2^e rounded; an exact zero takes the sign `z`. -/
def froundInt (f : Fmt) (rm : Nat) (z : Bool) (v : Int) (e : Int) : FR :=
  if v = 0 then (f.sign z, 0) else fround f rm (v < 0) v.natAbs e

/-- The signed integer of a finite value at exponent `e`, which does not exceed its own. -/
def scaled (neg : Bool) (m : Nat) (e e0 : Int) : Int :=
  let v : Int := (m * 2 ^ (e - e0).toNat : Nat)
  if neg then -v else v

/-- The sum of two finite values, exactly (spec/12 R209): the sign of an exact zero follows IEEE 754. -/
def fsum (f : Fmt) (rm : Nat) (s1 : Bool) (m1 : Nat) (e1 : Int) (s2 : Bool) (m2 : Nat) (e2 : Int) : FR :=
  let e0 := min e1 e2
  let z := if m1 = 0 && m2 = 0 && s1 = s2 then s1 else rm = rmRDN
  froundInt f rm z (scaled s1 m1 e1 e0 + scaled s2 m2 e2 e0) e0

def FV.isSig : FV → Bool
  | .nan s => s
  | _ => false
def FV.isNan : FV → Bool
  | .nan _ => true
  | _ => false
def FV.flip : FV → FV
  | .inf n => .inf (!n)
  | .fin n m e => .fin (!n) m e
  | x => x

/-- Addition. -/
def faddV (f : Fmt) (rm : Nat) (x y : FV) : FR :=
  match x, y with
  | .nan a, .nan b => f.nanOf (a || b)
  | .nan a, _ => f.nanOf a
  | _, .nan b => f.nanOf b
  | .inf a, .inf b => if a = b then (f.infBits a, 0) else f.invalid
  | .inf a, _ => (f.infBits a, 0)
  | _, .inf b => (f.infBits b, 0)
  | .fin s1 m1 e1, .fin s2 m2 e2 => fsum f rm s1 m1 e1 s2 m2 e2

/-- Multiplication. -/
def fmulV (f : Fmt) (rm : Nat) (x y : FV) : FR :=
  match x, y with
  | .nan a, .nan b => f.nanOf (a || b)
  | .nan a, _ => f.nanOf a
  | _, .nan b => f.nanOf b
  | .inf a, .inf b => (f.infBits (xor a b), 0)
  | .inf a, .fin b m _ => if m = 0 then f.invalid else (f.infBits (xor a b), 0)
  | .fin a m _, .inf b => if m = 0 then f.invalid else (f.infBits (xor a b), 0)
  | .fin s1 m1 e1, .fin s2 m2 e2 => fround f rm (xor s1 s2) (m1 * m2) (e1 + e2)

/-- Fused multiply and add: one rounding; NV for 0 × ∞ even with a quiet NaN addend (spec/12 R209). -/
def ffmaV (f : Fmt) (rm : Nat) (x y z : FV) : FR :=
  let zeroInf : Bool := match x, y with
    | .inf _, .fin _ m _ => m == 0
    | .fin _ m _, .inf _ => m == 0
    | _, _ => false
  if zeroInf then f.invalid
  else if x.isNan || y.isNan || z.isNan then f.nanOf (x.isSig || y.isSig || z.isSig)
  else match x, y, z with
    | .fin s1 m1 e1, .fin s2 m2 e2, .fin s3 m3 e3 => fsum f rm (xor s1 s2) (m1 * m2) (e1 + e2) s3 m3 e3
    | .fin _ _ _, .fin _ _ _, .inf c => (f.infBits c, 0)
    | .inf a, .inf b, .inf c | .inf a, .fin b _ _, .inf c | .fin a _ _, .inf b, .inf c =>
      if xor a b = c then (f.infBits c, 0) else f.invalid
    | .inf a, .inf b, _ | .inf a, .fin b _ _, _ | .fin a _ _, .inf b, _ => (f.infBits (xor a b), 0)
    | _, _, _ => f.invalid

/-- A quotient of positive numbers m1 × 2^e1 / (m2 × 2^e2), as a dyadic whose last bit says that the rest is nonzero. -/
def quotient (p m1 : Nat) (e1 : Int) (m2 : Nat) (e2 : Int) : Nat × Int :=
  let k := p + 3 + Nat.log2 m2
  let n := m1 * 2 ^ k
  (2 * (n / m2) + (if n % m2 = 0 then 0 else 1), e1 - e2 - k - 1)

/-- Division (spec/11 R186). -/
def fdivV (f : Fmt) (rm : Nat) (x y : FV) : FR :=
  match x, y with
  | .nan a, .nan b => f.nanOf (a || b)
  | .nan a, _ => f.nanOf a
  | _, .nan b => f.nanOf b
  | .inf _, .inf _ => f.invalid
  | .inf a, .fin b _ _ => (f.infBits (xor a b), 0)
  | .fin a _ _, .inf b => (f.sign (xor a b), 0)
  | .fin a m1 e1, .fin b m2 e2 =>
    if m2 = 0 then (if m1 = 0 then f.invalid else (f.infBits (xor a b), flDZ))
    else if m1 = 0 then (f.sign (xor a b), 0)
    else
      let (q, e) := quotient (f.f + 1) m1 e1 m2 e2
      fround f rm (xor a b) q e

/-- The integer square root by bits, from bit `i − 1` down. -/
def isqrtFrom (n r : Nat) : Nat → Nat
  | 0 => r
  | i + 1 => isqrtFrom n (if (r + 2 ^ i) * (r + 2 ^ i) ≤ n then r + 2 ^ i else r) i

def isqrt (n : Nat) : Nat := isqrtFrom n 0 (Nat.log2 n / 2 + 1)

/-- √(m × 2^e) for m > 0, as a dyadic whose last bit says that the rest is nonzero. -/
def rootOf (p m : Nat) (e : Int) : Nat × Int :=
  let odd : Bool := e % 2 != 0
  let k : Nat := 2 * (p + 3) + (if odd then 1 else 0)
  let n := m * 2 ^ k
  let r := isqrt n
  (2 * r + (if r * r = n then 0 else 1), (e - k) / 2 - 1)

/-- Square root: that of −0 is −0 (spec/12 R209). -/
def fsqrtV (f : Fmt) (rm : Nat) (x : FV) : FR :=
  match x with
  | .nan a => f.nanOf a
  | .inf a => if a then f.invalid else (f.infBits false, 0)
  | .fin a m e =>
    if m = 0 then (f.sign a, 0)
    else if a then f.invalid
    else
      let (r, e) := rootOf (f.f + 1) m e
      fround f rm false r e

/-- Comparison of two numbers that are not NaN: −1, 0 or 1. -/
def fcmpV (x y : FV) : Int :=
  let c (a b : Int) : Int := if a < b then -1 else if a = b then 0 else 1
  match x, y with
  | .inf a, .inf b => c (if a then -1 else 1) (if b then -1 else 1)
  | .inf a, _ => if a then -1 else 1
  | _, .inf b => if b then 1 else -1
  | .fin s1 m1 e1, .fin s2 m2 e2 =>
    let e0 := min e1 e2
    c (scaled s1 m1 e1 e0) (scaled s2 m2 e2 e0)
  | _, _ => 0

/-- COND on two values, and its flags: an unordered pair makes eq, lt and le false and un true; lt and le signal on any
NaN (spec/12 R211). -/
def fcond (cond : Nat) (x y : FV) : Bool × Nat :=
  let un := x.isNan || y.isNan
  let sig := x.isSig || y.isSig
  let c := fcmpV x y
  match cond with
  | 0 => (!un && c = 0, flagIf sig flNV)
  | 1 => (!un && c < 0, flagIf un flNV)
  | 2 => (!un && c ≤ 0, flagIf un flNV)
  | _ => (un, flagIf sig flNV)

def FV.neg : FV → Bool
  | .inf n => n
  | .fin n _ _ => n
  | .nan _ => false

/-- FMIN and FMAX on patterns: the operand exactly, −0 below +0, a NaN loses to a number (spec/12 R210). -/
def fminmax (f : Fmt) (isMax : Bool) (x y : Nat) : FR :=
  let a := fval f x
  let b := fval f y
  let sig := flagIf (a.isSig || b.isSig) flNV
  if a.isNan && b.isNan then (f.qnan, sig)
  else if a.isNan then (y, sig)
  else if b.isNan then (x, sig)
  else
    let c := fcmpV a b
    let less := c < 0 || (c = 0 && a.neg && !b.neg)
    (if less = isMax then y else x, 0)

/-- FABS and FNEG: the sign of a number; a NaN gives the canonical NaN (spec/12 R209). -/
def fsignOp (f : Fmt) (negate : Bool) (x : Nat) : FR :=
  match fval f x with
  | .nan s => f.nanOf s
  | _ =>
    let mag := x % 2 ^ (f.e + f.f)
    (if negate then mag + f.sign (x / 2 ^ (f.e + f.f) % 2 = 0) else mag, 0)

/-- Conversion between floating formats (spec/12 R212; e4m3 saturates, spec/11 R186). -/
def fcvtV (rm : Nat) (src dst : Fmt) (x : Nat) : FR :=
  match fval src x with
  | .nan s => dst.nanOf s
  | .inf a => if dst.noInf then (dst.maxBits a, orF flOF flNX) else (dst.infBits a, 0)
  | .fin a m e => fround dst rm a m e

/-- Conversion to an integer type (spec/11 Table 4): the b-bit pattern. -/
def ftoiV (rm : Nat) (src : Fmt) (signed : Bool) (b x : Nat) : FR :=
  match fval src x with
  | .nan _ => (0, flNV)
  | .inf a => (wrap b (clampInt signed b (if a then -(2 ^ 70 : Nat) else (2 ^ 70 : Nat))).1, flNV)
  | .fin a m e =>
    let (n, nx) := if 0 ≤ e then (m * 2 ^ e.toNat, false) else roundRat rm a m (2 ^ (-e).toNat)
    let v : Int := if a then -(n : Int) else n
    let (w, cl) := clampInt signed b v
    (wrap b w, if cl then flNV else flagIf nx flNX)

/-- Conversion from an integer (spec/12 R212). -/
def itofV (rm : Nat) (dst : Fmt) (v : Int) : FR := froundInt dst rm false v 0

/-- ITOF: under RTZ no integer overflows, so OF stays clear there (spec/12 R212); in VCVT overflow is that of spec/11 R186 (spec/13 R235).
-/
def itofScalar (rm : Nat) (dst : Fmt) (v : Int) : FR :=
  let r := itofV rm dst v
  if rm = rmRTZ && r.2 = orF flOF flNX then (r.1, flNX) else r

/-- FCLASS (spec/12 Table 7). -/
def fclassV (f : Fmt) (x : Nat) : Nat :=
  match fval f x with
  | .nan s => if s then 2 ^ 8 else 2 ^ 9
  | .inf a => if a then 1 else 2 ^ 7
  | .fin a m _ =>
    if m = 0 then (if a then 2 ^ 3 else 2 ^ 4)
    else if m < 2 ^ f.f then (if a then 2 ^ 2 else 2 ^ 5)
    else (if a then 2 ^ 1 else 2 ^ 6)

/-- Round to an integral value of the same format (spec/13 R236): zeros keep the sign, NX is never set. -/
def frndV (f : Fmt) (rm : Nat) (x : Nat) : FR :=
  match fval f x with
  | .nan s => f.nanOf s
  | .inf _ => (x, 0)
  | .fin a m e =>
    if 0 ≤ e then (x, 0)
    else
      let (n, nx) := roundRat rm a m (2 ^ (-e).toNat)
      if nx then ((fround f rmRNE a n 0).1, 0) else (x, 0)

/-! ### Block scales (spec/11 R191 to R194) -/

/-- A BS20 scale: none when reserved, else m × 2^e. -/
def bs20 (d : Nat) : Option (Nat × Int) :=
  let ex : Nat := d / 2 ^ 12 % 256
  if ex = 255 then none
  else if ex = 0 then some (0, 0)
  else some (4096 + d % 4096, (ex : Int) - 127 - 12)

/-- The zero point of a descriptor, signed whatever the element type. -/
def descZ (d : Nat) : Int := sgn 8 (d / 2 ^ 20 % 256)

/-- Quantisation of one element (spec/11 R193, spec/13 R238). -/
def quantise (rm : Nat) (src : Fmt) (signed : Bool) (b : Nat) (desc x : Nat) : FR :=
  let z := descZ desc
  let cz := clampInt signed b z
  match bs20 desc with
  | none => (wrap b cz.1, flNV)
  | some (ms, es) =>
    match fval src x with
    | .nan _ => (wrap b cz.1, flNV)
    | .inf a => (wrap b (clampInt signed b (if a then -(2 ^ 70 : Nat) else (2 ^ 70 : Nat))).1, flOF)
    | .fin a m e =>
      if ms = 0 then (wrap b cz.1, flagIf cz.2 flQS)
      else
        let k := e - es
        let (n, nx) := if 0 ≤ k then roundRat rm a (m * 2 ^ k.toNat) ms else roundRat rm a m (ms * 2 ^ (-k).toNat)
        let v : Int := (if a then -(n : Int) else n) + z
        let (w, cl) := clampInt signed b v
        (wrap b w, orF (flagIf nx flNX) (flagIf cl flQS))

/-- Dequantisation of one element (spec/11 R194, spec/13 R239); a zero is positive (DEDUCED, log 92). -/
def dequantise (rm : Nat) (dst : Fmt) (desc : Nat) (q : Int) : FR :=
  match bs20 desc with
  | none => dst.invalid
  | some (ms, es) => froundInt dst rm false ((ms : Int) * (q - descZ desc)) es

/-- One step of MSCA: y + sA × sB × p rounded once (spec/11 R196, spec/13 R240); a zero product is positive (DEDUCED,
log 92). -/
def mscaStep (rm : Nat) (f : Fmt) (y : Nat) (dA dB : Nat) (p : Int) : FR :=
  match bs20 dA, bs20 dB with
  | some (ma, ea), some (mb, eb) =>
    match fval f y with
    | .nan s => f.nanOf s
    | .inf a => (f.infBits a, 0)
    | .fin s m e =>
      let v : Int := (ma : Int) * mb * p
      fsum f rm s m e (v < 0) v.natAbs (ea + eb)
  | _, _ => f.invalid

end Sys2Proof.Machine
end

