-- ==== Sys2Proof/Machine/Hash.lean ====
section
/-!
DEFINITION. The two published functions that the spec names: the SM3 digest (spec/18 R344, spec/19 R357, spec/20 R375) and
CRC-64/ECMA-182, the fingerprint of a pair (spec/19 R358). Their definitions are the standards' (PRESUMED, log 88).
-/

namespace Sys2Proof.Machine

open Sys2Proof

/-! ### SM3 -/

/-- The eight chaining words. -/
structure Sm3 where
  a : BitVec 32
  b : BitVec 32
  c : BitVec 32
  d : BitVec 32
  e : BitVec 32
  f : BitVec 32
  g : BitVec 32
  h : BitVec 32
  deriving DecidableEq, Repr

def sm3Init : Sm3 :=
  { a := 0x7380166f, b := 0x4914b2b9, c := 0x172442d7, d := 0xda8a0600, e := 0xa96f30bc, f := 0x163138aa, g := 0xe38dee4d
    h := 0xb0fb0e4e }

/-- The two linear permutations. -/
def sm3P0 (x : BitVec 32) : BitVec 32 := x ^^^ x.rotateLeft 9 ^^^ x.rotateLeft 17
def sm3P1 (x : BitVec 32) : BitVec 32 := x ^^^ x.rotateLeft 15 ^^^ x.rotateLeft 23

/-- `n` more words of the expansion, the newest first. -/
def sm3Expand (ws : List (BitVec 32)) : Nat → List (BitVec 32)
  | 0 => ws
  | n + 1 =>
    let w (i : Nat) : BitVec 32 := ws.getD (i - 1) 0
    sm3Expand ((sm3P1 (w 16 ^^^ w 9 ^^^ (w 3).rotateLeft 15) ^^^ (w 13).rotateLeft 7 ^^^ w 6) :: ws) n

/-- Round j with its expanded words w and w'. -/
def sm3Round (v : Sm3) (j : Nat) (w w' : BitVec 32) : Sm3 :=
  let t : BitVec 32 := if j < 16 then 0x79cc4519 else 0x7a879d8a
  let ff := if j < 16 then v.a ^^^ v.b ^^^ v.c else (v.a &&& v.b) ||| (v.a &&& v.c) ||| (v.b &&& v.c)
  let gg := if j < 16 then v.e ^^^ v.f ^^^ v.g else (v.e &&& v.f) ||| (~~~v.e &&& v.g)
  let ss1 := (v.a.rotateLeft 12 + v.e + t.rotateLeft (j % 32)).rotateLeft 7
  let tt1 := ff + v.d + (ss1 ^^^ v.a.rotateLeft 12) + w'
  let tt2 := gg + v.h + ss1 + w
  { a := tt1, b := v.a, c := v.b.rotateLeft 9, d := v.c, e := sm3P0 tt2, f := v.e, g := v.f.rotateLeft 19, h := v.g }

/-- The rounds from j on over the words from w_j on. -/
def sm3Rounds (v : Sm3) (j : Nat) : List (BitVec 32) → Nat → Sm3
  | ws, n + 1 => sm3Rounds (sm3Round v j (ws.getD 0 0) (ws.getD 0 0 ^^^ ws.getD 4 0)) (j + 1) (ws.drop 1) n
  | _, 0 => v

/-- Compress one block of 16 words. -/
def sm3Block (v : Sm3) (ws : List (BitVec 32)) : Sm3 :=
  let x := sm3Rounds v 0 (sm3Expand ws.reverse 52).reverse 64
  { a := v.a ^^^ x.a, b := v.b ^^^ x.b, c := v.c ^^^ x.c, d := v.d ^^^ x.d, e := v.e ^^^ x.e, f := v.f ^^^ x.f, g := v.g ^^^ x.g
    h := v.h ^^^ x.h }

/-- Big-endian words of a byte string, `n` at most. -/
def beWords : List Byte → Nat → List (BitVec 32)
  | a :: b :: c :: d :: r, n + 1 => (a ++ b ++ c ++ d : BitVec 32) :: beWords r n
  | _, _ => []

/-- The blocks of a padded message, `n` of them. -/
def sm3Blocks (v : Sm3) (bs : List Byte) : Nat → Sm3
  | 0 => v
  | n + 1 => sm3Blocks (sm3Block v (beWords bs 16)) (bs.drop 64) n

/-- The SM3 digest of a byte string, its first byte the most significant one. -/
def sm3 (bs : List Byte) : BitVec 256 :=
  let n := bs.length
  let blocks := (n + 9 + 63) / 64
  let padded := bs ++ (0x80 : Byte) :: List.replicate (64 * blocks - n - 9) 0 ++ (bytesOf (8 * n) 8).reverse
  let v := sm3Blocks sm3Init padded blocks
  v.a ++ v.b ++ v.c ++ v.d ++ v.e ++ v.f ++ v.g ++ v.h

/-- A digest as a byte string. -/
def digestBytes (d : BitVec 256) : List Byte := (bytesOf d.toNat 32).reverse

/-! ### CRC-64/ECMA-182 -/

/-- `n` bit steps of the register: the polynomial 42F0E1EBA9EA3693, most significant bit first. -/
def crcSteps (c : BitVec 64) : Nat → BitVec 64
  | 0 => c
  | n + 1 => crcSteps (if c.msb then (c <<< 1) ^^^ 0x42f0e1eba9ea3693 else c <<< 1) n

/-- Fold bytes into the register, which starts at zero. -/
def crc64 (c : BitVec 64) : List Byte → BitVec 64
  | [] => c
  | b :: bs => crc64 (crcSteps (c ^^^ (b.setWidth 64 <<< 56)) 8) bs

/-- One step of a pair's fingerprint: a register number or an address, then the value, each in eight little-endian bytes
(DESIGN CHOICE, log 9). -/
def fingerprint (c : BitVec 64) (n : Nat) (v : BitVec 64) : BitVec 64 := crc64 c (bytesOf n 8 ++ bytesOf v.toNat 8)

end Sys2Proof.Machine
end

