-- ==== Sys2Proof/WellFormed.lean ====
section
/-!
DEFINITION. Well-formedness: the major and the encoding-table entry of every instruction, and the check of an
instruction's fields against it (spec/10 R168, R171, R173, R181). An event is well formed.
-/

namespace Sys2Proof

/-- Cores of the package: 2,304 tiles (spec/00 R3), then 256 memory cores of eight contexts (spec/07 R129). -/
def numAgents : Nat := 4352

/-- The major and the fields of an instruction's word (spec/10 R181); an event has none. -/
def Instr.word? : Instr → Option (Nat × Fields)
  | .boot _ => none
  | .linkFailure _ _ => none
  | .backgroundScrub _ => none
  | .ownerCertificate _ => none
  | .ownershipHandover _ => none
  | .leaseRenewal _ => none
  | .tenantSessionBind _ _ => none
  | .hostRead _ => none
  | .hostWrite _ => none
  | .hostAtomic _ => none
  | .hostLaunchSubmit _ => none
  | .objectLoad _ => none
  | .attestationReport _ _ => none
  | .farStoreArrival _ => none
  | .queuePortPush _ => none
  | .queuePortPop _ => none
  | .lateFaultReport _ => none
  | .remoteAccessArrival _ => none
  | .routerAtomicMerge _ _ => none
  | .loadReply _ => none
  | .acknowledgementArrival _ => none
  | .gatewayAccess _ => none
  | .tstatWrite _ => none
  | .stickyWrite _ => none
  | .nop f => some (0x00, f)
  | .add f => some (0x01, f)
  | .addi f => some (0x02, f)
  | .sub f => some (0x03, f)
  | .mul f => some (0x04, f)
  | .mulh f => some (0x05, f)
  | .mulhn f => some (0x06, f)
  | .div f => some (0x07, f)
  | .divn f => some (0x08, f)
  | .rem f => some (0x09, f)
  | .remn f => some (0x0A, f)
  | .and f => some (0x0B, f)
  | .or f => some (0x0C, f)
  | .xor f => some (0x0D, f)
  | .andn f => some (0x0E, f)
  | .shl f => some (0x0F, f)
  | .shr f => some (0x10, f)
  | .sar f => some (0x11, f)
  | .rol f => some (0x12, f)
  | .clz f => some (0x13, f)
  | .ctz f => some (0x14, f)
  | .popc f => some (0x15, f)
  | .min f => some (0x16, f)
  | .max f => some (0x17, f)
  | .minn f => some (0x18, f)
  | .maxn f => some (0x19, f)
  | .sext f => some (0x1A, f)
  | .zext f => some (0x1B, f)
  | .bfx f => some (0x1C, f)
  | .bfxn f => some (0x1D, f)
  | .bfi f => some (0x1E, f)
  | .sel f => some (0x1F, f)
  | .mov f => some (0x20, f)
  | .movi f => some (0x21, f)
  | .movh f => some (0x22, f)
  | .movhTop f => some (0x22, f)
  | .cmp f => some (0x23, f)
  | .cmpi f => some (0x24, f)
  | .pset f => some (0x25, f)
  | .plog f => some (0x26, f)
  | .fadd f => some (0x30, f)
  | .fsub f => some (0x31, f)
  | .fmul f => some (0x32, f)
  | .ffma f => some (0x33, f)
  | .fdiv f => some (0x34, f)
  | .fsqrt f => some (0x35, f)
  | .fmin f => some (0x36, f)
  | .fmax f => some (0x37, f)
  | .fabs f => some (0x38, f)
  | .fneg f => some (0x39, f)
  | .fcmp f => some (0x3A, f)
  | .fcvt f => some (0x3B, f)
  | .ftoi f => some (0x3C, f)
  | .itof f => some (0x3D, f)
  | .fclass f => some (0x3E, f)
  | .br f => some (0x40, f)
  | .bri f => some (0x41, f)
  | .call f => some (0x42, f)
  | .calli f => some (0x43, f)
  | .ret f => some (0x44, f)
  | .loop f => some (0x45, f)
  | .bru f => some (0x46, f)
  | .done f => some (0x47, f)
  | .ifence f => some (0x48, f)
  | .vadd f => some (0x50, f)
  | .vsub f => some (0x51, f)
  | .vmul f => some (0x52, f)
  | .vfma f => some (0x53, f)
  | .vfms f => some (0x54, f)
  | .vmin f => some (0x55, f)
  | .vmax f => some (0x56, f)
  | .vabs f => some (0x57, f)
  | .vneg f => some (0x58, f)
  | .vand f => some (0x59, f)
  | .vor f => some (0x5A, f)
  | .vxor f => some (0x5B, f)
  | .vnot f => some (0x5C, f)
  | .vshl f => some (0x5D, f)
  | .vshr f => some (0x5E, f)
  | .vsar f => some (0x5F, f)
  | .vcmp f => some (0x60, f)
  | .vsel f => some (0x61, f)
  | .vmov f => some (0x62, f)
  | .vbcast f => some (0x63, f)
  | .vget f => some (0x64, f)
  | .vput f => some (0x65, f)
  | .vperm f => some (0x66, f)
  | .vtrn f => some (0x67, f)
  | .vredr f => some (0x68, f)
  | .vredc f => some (0x69, f)
  | .vscan f => some (0x6A, f)
  | .vrcp f => some (0x6B, f)
  | .vrsq f => some (0x6C, f)
  | .vexp2 f => some (0x6D, f)
  | .vlog2 f => some (0x6E, f)
  | .vtanh f => some (0x6F, f)
  | .vcvt f => some (0x70, f)
  | .vrnd f => some (0x71, f)
  | .vqblk f => some (0x72, f)
  | .vdq f => some (0x73, f)
  | .msca f => some (0x74, f)
  | .rand f => some (0x75, f)
  | .randInc f => some (0x75, f)
  | .vrand f => some (0x76, f)
  | .vrandInc f => some (0x76, f)
  | .mcfg f => some (0x80, f)
  | .mloadb f => some (0x81, f)
  | .mloadz f => some (0x82, f)
  | .mrbuf f => some (0x83, f)
  | .mrbufBc f => some (0x83, f)
  | .mgang f => some (0x84, f)
  | .mmul f => some (0x85, f)
  | .mzeroAcc f => some (0x86, f)
  | .mzeroZp f => some (0x86, f)
  | .mdrain f => some (0x87, f)
  | .mdrainp f => some (0x88, f)
  | .mchkcfg f => some (0x89, f)
  | .msave f => some (0x8A, f)
  | .msaveFree f => some (0x8A, f)
  | .mrestore f => some (0x8B, f)
  | .mstat f => some (0x8C, f)
  | .mstatClr f => some (0x8C, f)
  | .ld f => some (0x90, f)
  | .st f => some (0x91, f)
  | .stOf f => some (0x91, f)
  | .ldb f => some (0x92, f)
  | .stb f => some (0x93, f)
  | .ldacq f => some (0x94, f)
  | .strel f => some (0x95, f)
  | .ldf f => some (0x96, f)
  | .ldfe f => some (0x97, f)
  | .stf f => some (0x98, f)
  | .stef f => some (0x99, f)
  | .setf f => some (0x9A, f)
  | .sete f => some (0x9B, f)
  | .ldaW f => some (0x9C, f)
  | .ldaT f => some (0x9C, f)
  | .ldaN f => some (0x9C, f)
  | .sta f => some (0x9D, f)
  | .stam f => some (0x9E, f)
  | .setit f => some (0x9F, f)
  | .advit f => some (0xA0, f)
  | .endw f => some (0xA1, f)
  | .endwGroup f => some (0xA1, f)
  | .ageq f => some (0xA2, f)
  | .stfar f => some (0xA3, f)
  | .stfarB f => some (0xA3, f)
  | .farreq f => some (0xA4, f)
  | .aadd f => some (0xA5, f)
  | .amin f => some (0xA6, f)
  | .amax f => some (0xA7, f)
  | .aminn f => some (0xA8, f)
  | .amaxn f => some (0xA9, f)
  | .aand f => some (0xAA, f)
  | .aor f => some (0xAB, f)
  | .axor f => some (0xAC, f)
  | .aswap f => some (0xAD, f)
  | .acas f => some (0xAE, f)
  | .fence f => some (0xAF, f)
  | .fenceAck f => some (0xAF, f)
  | .send f => some (0xB0, f)
  | .sendb f => some (0xB1, f)
  | .spawn f => some (0xB2, f)
  | .park f => some (0xB3, f)
  | .wait f => some (0xB4, f)
  | .yield f => some (0xB5, f)
  | .wkset f => some (0xB6, f)
  | .wkdec f => some (0xB7, f)
  | .qbindPop f => some (0xB8, f)
  | .qbindPush f => some (0xB8, f)
  | .qbindNone f => some (0xB8, f)
  | .hqcfg f => some (0xB9, f)
  | .albind f => some (0xBA, f)
  | .albindNone f => some (0xBA, f)
  | .balw f => some (0xBB, f)
  | .mask1 f => some (0xBC, f)
  | .unmask1 f => some (0xBD, f)
  | .launch f => some (0xC0, f)
  | .lstat f => some (0xC1, f)
  | .barw f => some (0xC2, f)
  | .bara f => some (0xC3, f)
  | .quant f => some (0xC4, f)
  | .quantW f => some (0xC4, f)
  | .bbegin f => some (0xC8, f)
  | .bdecl f => some (0xC9, f)
  | .bcommit f => some (0xCA, f)
  | .babort f => some (0xCB, f)
  | .btload f => some (0xCC, f)
  | .bstat f => some (0xCD, f)
  | .trap f => some (0xD0, f)
  | .trapS f => some (0xD0, f)
  | .tret f => some (0xD1, f)
  | .tfence f => some (0xD2, f)
  | .gets f => some (0xD3, f)
  | .sets f => some (0xD4, f)
  | .setsTvec f => some (0xD4, f)
  | .setsSvec f => some (0xD4, f)
  | .setsSlice f => some (0xD4, f)
  | .setsCtxbase f => some (0xD4, f)
  | .setsEstat f => some (0xD4, f)
  | .seta f => some (0xD5, f)
  | .pair f => some (0xD6, f)
  | .unpair f => some (0xD7, f)
  | .digest f => some (0xD8, f)
  | .digestClr f => some (0xD8, f)
  | .huskcfgDef f => some (0xD9, f)
  | .huskcfgKill f => some (0xD9, f)
  | .huskcfgFlush f => some (0xD9, f)
  | .huskcfgTab f => some (0xD9, f)
  | .huskcfgUndef f => some (0xD9, f)
  | .brkpt f => some (0xDA, f)
  | .evict f => some (0xDB, f)
  | .evictRestore f => some (0xDB, f)
  | .packageReset => none
  | .freeze => none
  | .freezeRestart => none
  | .railThermalAlarm => none
  | .leaseLapse => none
  | .farreqArrival => none
  | .requestProgramStart => none
  | .requestProgramEnd => none
  | .apertureRequestArrival => none
  | .bteBackoffRetry => none
  | .copyCompletion => none
  | .copyFault => none
  | .scaleDescriptorDelivery => none
  | .wakeCounterDecrement => none
  | .messageArrival => none
  | .startArrival => none
  | .spawnPodArrival => none
  | .parkContinuationArrival => none
  | .queueRecordArrival => none
  | .allowanceGrantArrival => none
  | .grantWithheldRelease => none
  | .congestionHalving => none
  | .niUnaidedRetry => none
  | .podStart => none
  | .podTake => none
  | .level1Entry => none
  | .timeSliceExpiry => none
  | .trapEntry => none
  | .atomicAtHome => none
  | .mergedReplySplit => none
  | .feAccessAtHome => none
  | .stampedStoreAtHome => none
  | .mirrorDelivery => none
  | .ldaAtHome => none
  | .ageqAtHome => none
  | .stopNoticeArrival => none
  | .ofStoreArrival => none
  | .ofFlagApply => none
  | .multicastDelivery => none
  | .launchAcceptance => none
  | .slotMapping => none
  | .slotRotation => none
  | .groupPlacement => none
  | .groupRetirement => none
  | .barrierPhaseComplete => none
  | .quantumCountExpiry => none
  | .deliveryWindowEnd => none
  | .declarationAtHome => none
  | .abortNoticeArrival => none
  | .boostedAbort => none
  | .undoTaskStart => none
  | .undoFinish => none
  | .lockReleaseAtHome => none
  | .matrixQueuePerform => none
  | .matrixInstructionCompletion => none
  | .peerAddArrival => none
  | .gangBarrierComplete => none
  | .pairIntervalClose => none
  | .evictStopped => none
  | .evictDrained => none
  | .evictSaved => none
  | .restoreComplete => none
  | .setaDrainComplete => none
  | .dividerCompletion => none
  | .reductionCompletion => none
  | .fixedLatencyResultWrite => none
  | .quantumMarkerArrival => none

/-- The encoding-table entry of an instruction; an event has none. -/
def Instr.form? : Instr → Option Form
  | .boot _ => none
  | .linkFailure _ _ => none
  | .backgroundScrub _ => none
  | .ownerCertificate _ => none
  | .ownershipHandover _ => none
  | .leaseRenewal _ => none
  | .tenantSessionBind _ _ => none
  | .hostRead _ => none
  | .hostWrite _ => none
  | .hostAtomic _ => none
  | .hostLaunchSubmit _ => none
  | .objectLoad _ => none
  | .attestationReport _ _ => none
  | .farStoreArrival _ => none
  | .queuePortPush _ => none
  | .queuePortPop _ => none
  | .lateFaultReport _ => none
  | .remoteAccessArrival _ => none
  | .routerAtomicMerge _ _ => none
  | .loadReply _ => none
  | .acknowledgementArrival _ => none
  | .gatewayAccess _ => none
  | .tstatWrite _ => none
  | .stickyWrite _ => none
  | .nop _ => some {}
  | .add _ => some (formInt3 tyInt)
  | .addi _ => some formAddi
  | .sub _ => some (formInt3 tyInt)
  | .mul _ => some (formInt3 tyInt (.fixed 3))
  | .mulh _ => some (formInt3 tySigned (.fixed 3))
  | .mulhn _ => some (formInt3 tyUnsigned (.fixed 3))
  | .div _ => some (formInt3 tySigned .variable)
  | .divn _ => some (formInt3 tyUnsigned .variable)
  | .rem _ => some (formInt3 tySigned .variable)
  | .remn _ => some (formInt3 tyUnsigned .variable)
  | .and _ => some (formInt3 tyInt)
  | .or _ => some (formInt3 tyInt)
  | .xor _ => some (formInt3 tyInt)
  | .andn _ => some (formInt3 tyInt)
  | .shl _ => some formShift
  | .shr _ => some formShift
  | .sar _ => some formShift
  | .rol _ => some formShift
  | .clz _ => some formInt2
  | .ctz _ => some formInt2
  | .popc _ => some formInt2
  | .min _ => some (formInt3 tySigned)
  | .max _ => some (formInt3 tySigned)
  | .minn _ => some (formInt3 tyUnsigned)
  | .maxn _ => some (formInt3 tyUnsigned)
  | .sext _ => some formExt
  | .zext _ => some formExt
  | .bfx _ => some (formBf .zero)
  | .bfxn _ => some (formBf .zero)
  | .bfi _ => some (formBf .r)
  | .sel _ => some formSel
  | .mov _ => some formInt2
  | .movi _ => some formMovi
  | .movh _ => some formMovh
  | .movhTop _ => some formMovhTop
  | .cmp _ => some formCmp
  | .cmpi _ => some formCmpi
  | .pset _ => some formPset
  | .plog _ => some formPlog
  | .fadd _ => some (formF3 (.fixed 4))
  | .fsub _ => some (formF3 (.fixed 4))
  | .fmul _ => some (formF3 (.fixed 4))
  | .ffma _ => some formFfma
  | .fdiv _ => some (formF3 .variable)
  | .fsqrt _ => some (formF2 .variable)
  | .fmin _ => some (formF3 (.fixed 4))
  | .fmax _ => some (formF3 (.fixed 4))
  | .fabs _ => some (formF2 (.fixed 1))
  | .fneg _ => some (formF2 (.fixed 1))
  | .fcmp _ => some formFcmp
  | .fcvt _ => some (formConv (· < 4) tyFloat)
  | .ftoi _ => some (formConv (· < 8) tyInt)
  | .itof _ => some (formConv (· < 8) tyFloat)
  | .fclass _ => some (formF2 (.fixed 1))
  | .br _ => some formBr
  | .bri _ => some formBri
  | .call _ => some formCall
  | .calli _ => some formCalli
  | .ret _ => some formBri
  | .loop _ => some formLoop
  | .bru _ => some formBr
  | .done _ => some formDone
  | .ifence _ => some formIfence
  | .vadd f => some (formVarith f)
  | .vsub f => some (formVarith f)
  | .vmul _ => some formVmul
  | .vfma _ => some formVfma
  | .vfms _ => some formVfma
  | .vmin f => some (formVarith f)
  | .vmax f => some (formVarith f)
  | .vabs f => some (formVarith2 f)
  | .vneg f => some (formVarith2 f)
  | .vand _ => some formVlog
  | .vor _ => some formVlog
  | .vxor _ => some formVlog
  | .vnot _ => some formVmov
  | .vshl f => some (formVshift f)
  | .vshr f => some (formVshift f)
  | .vsar f => some (formVshift f)
  | .vcmp _ => some formVcmp
  | .vsel _ => some formVsel
  | .vmov _ => some formVmov
  | .vbcast _ => some formVbcast
  | .vget _ => some formVget
  | .vput _ => some formVput
  | .vperm _ => some formVperm
  | .vtrn _ => some formVtrn
  | .vredr _ => some formVredr
  | .vredc _ => some formVredc
  | .vscan _ => some formVscan
  | .vrcp _ => some formVfun
  | .vrsq _ => some formVfun
  | .vexp2 _ => some formVfun
  | .vlog2 _ => some formVfun
  | .vtanh _ => some formVfun
  | .vcvt _ => some formVcvt
  | .vrnd _ => some formVrnd
  | .vqblk _ => some formVqblk
  | .vdq _ => some formVdq
  | .msca _ => some formMsca
  | .rand _ => some formRand
  | .randInc _ => some formRandInc
  | .vrand _ => some formVrand
  | .vrandInc _ => some formVrandInc
  | .mcfg _ => some formMcfg
  | .mloadb _ => some formMloadb
  | .mloadz _ => some formMloadz
  | .mrbuf _ => some (formMrbuf 0)
  | .mrbufBc _ => some (formMrbuf 1)
  | .mgang _ => some formMgang
  | .mmul _ => some formMmul
  | .mzeroAcc _ => some formMzeroAcc
  | .mzeroZp _ => some formMzeroZp
  | .mdrain _ => some formMdrain
  | .mdrainp _ => some formMdrainp
  | .mchkcfg _ => some formMchkcfg
  | .msave _ => some (formMsave 0)
  | .msaveFree _ => some (formMsave 1)
  | .mrestore _ => some (formMsave 0)
  | .mstat _ => some (formMstat 0)
  | .mstatClr _ => some (formMstat 1)
  | .ld _ => some formLd
  | .st _ => some (formSt 0)
  | .stOf _ => some (formSt 1)
  | .ldb _ => some formLdb
  | .stb _ => some formStb
  | .ldacq _ => some formLdacq
  | .strel _ => some formStrel
  | .ldf _ => some formLd
  | .ldfe _ => some formLd
  | .stf _ => some (formSt 0)
  | .stef _ => some (formSt 0)
  | .setf _ => some formSetf
  | .sete _ => some formSetf
  | .ldaW _ => some (formLda 0)
  | .ldaT _ => some (formLda 1)
  | .ldaN _ => some (formLda 2)
  | .sta _ => some formSta
  | .stam _ => some formStam
  | .setit _ => some formSetit
  | .advit _ => some formAdvit
  | .endw _ => some formEndw
  | .endwGroup _ => some formEndwGroup
  | .ageq _ => some formAgeq
  | .stfar _ => some (formSt 0)
  | .stfarB _ => some formStfarB
  | .farreq _ => some formFarreq
  | .aadd _ => some (formAmo (fun t => 4 ≤ t.code && t.code ≤ 7))
  | .amin _ => some (formAmo (fun t => t.code == 4 || t.code == 6))
  | .amax _ => some (formAmo (fun t => t.code == 4 || t.code == 6))
  | .aminn _ => some (formAmo (fun t => t.code == 5 || t.code == 7))
  | .amaxn _ => some (formAmo (fun t => t.code == 5 || t.code == 7))
  | .aand _ => some (formAmo (fun t => 4 ≤ t.code && t.code ≤ 7))
  | .aor _ => some (formAmo (fun t => 4 ≤ t.code && t.code ≤ 7))
  | .axor _ => some (formAmo (fun t => 4 ≤ t.code && t.code ≤ 7))
  | .aswap _ => some (formAmo (fun t => 4 ≤ t.code && t.code ≤ 7))
  | .acas _ => some formAcas
  | .fence _ => some formFence
  | .fenceAck _ => some formFenceAck
  | .send _ => some formSend
  | .sendb _ => some formSendb
  | .spawn _ => some formSpawn
  | .park _ => some formPark
  | .wait _ => some formWait
  | .yield _ => some formYield
  | .wkset _ => some formWkset
  | .wkdec _ => some formWkdec
  | .qbindPop _ => some formQbindPop
  | .qbindPush _ => some formQbindPush
  | .qbindNone _ => some formQbindNone
  | .hqcfg _ => some formHqcfg
  | .albind _ => some formAlbind
  | .albindNone _ => some formAlbindNone
  | .balw _ => some formBalw
  | .mask1 _ => some formMask1
  | .unmask1 _ => some formUnmask1
  | .launch _ => some formLaunch
  | .lstat _ => some formLaunch
  | .barw _ => some formBarw
  | .bara _ => some formBara
  | .quant _ => some (formQuant 0)
  | .quantW _ => some (formQuant 1)
  | .bbegin _ => some formBbegin
  | .bdecl _ => some formBdecl
  | .bcommit _ => some formBcommit
  | .babort _ => some formBabort
  | .btload _ => some formBtload
  | .bstat _ => some formBstat
  | .trap _ => some (formTrap 0)
  | .trapS _ => some (formTrap 1)
  | .tret _ => some formTret
  | .tfence _ => some formTfence
  | .gets _ => some formGets
  | .sets _ => some formSets
  | .setsTvec _ => some formSets
  | .setsSvec _ => some formSets
  | .setsSlice _ => some formSets
  | .setsCtxbase _ => some formSets
  | .setsEstat _ => some formSets
  | .seta _ => some formSeta
  | .pair _ => some formPair
  | .unpair _ => some formUnpair
  | .digest _ => some formDigest
  | .digestClr _ => some formDigestClr
  | .huskcfgDef _ => some (formHuskcfg 0)
  | .huskcfgKill _ => some (formHuskcfg 1)
  | .huskcfgFlush _ => some (formHuskcfg 2)
  | .huskcfgTab _ => some (formHuskcfg 3)
  | .huskcfgUndef _ => some (formHuskcfg 4)
  | .brkpt _ => some formBrkpt
  | .evict _ => some (formEvict 0)
  | .evictRestore _ => some (formEvict 1)
  | .packageReset => none
  | .freeze => none
  | .freezeRestart => none
  | .railThermalAlarm => none
  | .leaseLapse => none
  | .farreqArrival => none
  | .requestProgramStart => none
  | .requestProgramEnd => none
  | .apertureRequestArrival => none
  | .bteBackoffRetry => none
  | .copyCompletion => none
  | .copyFault => none
  | .scaleDescriptorDelivery => none
  | .wakeCounterDecrement => none
  | .messageArrival => none
  | .startArrival => none
  | .spawnPodArrival => none
  | .parkContinuationArrival => none
  | .queueRecordArrival => none
  | .allowanceGrantArrival => none
  | .grantWithheldRelease => none
  | .congestionHalving => none
  | .niUnaidedRetry => none
  | .podStart => none
  | .podTake => none
  | .level1Entry => none
  | .timeSliceExpiry => none
  | .trapEntry => none
  | .atomicAtHome => none
  | .mergedReplySplit => none
  | .feAccessAtHome => none
  | .stampedStoreAtHome => none
  | .mirrorDelivery => none
  | .ldaAtHome => none
  | .ageqAtHome => none
  | .stopNoticeArrival => none
  | .ofStoreArrival => none
  | .ofFlagApply => none
  | .multicastDelivery => none
  | .launchAcceptance => none
  | .slotMapping => none
  | .slotRotation => none
  | .groupPlacement => none
  | .groupRetirement => none
  | .barrierPhaseComplete => none
  | .quantumCountExpiry => none
  | .deliveryWindowEnd => none
  | .declarationAtHome => none
  | .abortNoticeArrival => none
  | .boostedAbort => none
  | .undoTaskStart => none
  | .undoFinish => none
  | .lockReleaseAtHome => none
  | .matrixQueuePerform => none
  | .matrixInstructionCompletion => none
  | .peerAddArrival => none
  | .gangBarrierComplete => none
  | .pairIntervalClose => none
  | .evictStopped => none
  | .evictDrained => none
  | .evictSaved => none
  | .restoreComplete => none
  | .setaDrainComplete => none
  | .dividerCompletion => none
  | .reductionCompletion => none
  | .fixedLatencyResultWrite => none
  | .quantumMarkerArrival => none

/-- The control number that SETS names in imm28 has a constructor of its own (spec/18 Table 4). -/
def setsSplit (f : Fields) : Bool :=
  f.imm == 0x000 || f.imm == 0x001 || f.imm == 0x003 || f.imm == 0x007 || f.imm == 0x009

/-- The constructor of a SETS is the one of its control number. -/
def Instr.setsOk : Instr → Bool
  | .sets f => !setsSplit f
  | .setsTvec f => f.imm == 0x000
  | .setsSvec f => f.imm == 0x001
  | .setsSlice f => f.imm == 0x007
  | .setsCtxbase f => f.imm == 0x009
  | .setsEstat f => f.imm == 0x003
  | _ => true

/-- The fields of an instruction fit its table. -/
def Instr.wellFormed (i : Instr) : Bool :=
  i.setsOk &&
    (match i.form?, i.word? with
      | some m, some (_, f) => m.fieldsOk f
      | _, _ => true)

end Sys2Proof
end

