-- ==== Sys2Proof/Decode.lean ====
section
/-!
DEFINITION. Decoding and encoding of instruction words and fetch lines (spec/10 R161 to R169, R181, R182). Decoding is
total; a word with an unassigned major is rejected by name. A word whose fields break its table still decodes: it
faults ILLEG at issue, and only when its guard is true (R169).
-/

namespace Sys2Proof

/-- Why a word does not decode. -/
inductive DecodeError where
  | unassigned (major : Nat)
  | short (bytes : Nat)
  deriving DecidableEq, Repr

/-- The fields of a word (spec/10 Table 5). -/
def fieldsOf (w : InstrWord) : Fields :=
  { minor := w.extractLsb' 8 4, stall := w.extractLsb' 12 4, pred := w.extractLsb' 16 3, neg := w.getLsbD 19
    setc := w.extractLsb' 20 3, wait := w.extractLsb' 23 6, scope := w.extractLsb' 29 3
    ty := Ty.ofCode (w.extractLsb' 32 4).toNat, dest := w.extractLsb' 36 8, a := w.extractLsb' 44 8
    b := w.extractLsb' 52 8, c := w.extractLsb' 60 8, imm := w.extractLsb' 68 28 }

/-- The major of a word. -/
def majorOf (w : InstrWord) : Nat := (w.extractLsb' 0 8).toNat

/-- The instruction of a major and fields (spec/10 R181); none for an unassigned major (R182). A minor that the major
does not define keeps its value, and fails its form's check. -/
def instrOf (major : Nat) (f : Fields) : Option Instr :=
  match major with
  | 0x00 => some (.nop f)
  | 0x01 => some (.add f)
  | 0x02 => some (.addi f)
  | 0x03 => some (.sub f)
  | 0x04 => some (.mul f)
  | 0x05 => some (.mulh f)
  | 0x06 => some (.mulhn f)
  | 0x07 => some (.div f)
  | 0x08 => some (.divn f)
  | 0x09 => some (.rem f)
  | 0x0A => some (.remn f)
  | 0x0B => some (.and f)
  | 0x0C => some (.or f)
  | 0x0D => some (.xor f)
  | 0x0E => some (.andn f)
  | 0x0F => some (.shl f)
  | 0x10 => some (.shr f)
  | 0x11 => some (.sar f)
  | 0x12 => some (.rol f)
  | 0x13 => some (.clz f)
  | 0x14 => some (.ctz f)
  | 0x15 => some (.popc f)
  | 0x16 => some (.min f)
  | 0x17 => some (.max f)
  | 0x18 => some (.minn f)
  | 0x19 => some (.maxn f)
  | 0x1A => some (.sext f)
  | 0x1B => some (.zext f)
  | 0x1C => some (.bfx f)
  | 0x1D => some (.bfxn f)
  | 0x1E => some (.bfi f)
  | 0x1F => some (.sel f)
  | 0x20 => some (.mov f)
  | 0x21 => some (.movi f)
  | 0x22 => some (if f.minor == 1 then .movhTop f else .movh f)
  | 0x23 => some (.cmp f)
  | 0x24 => some (.cmpi f)
  | 0x25 => some (.pset f)
  | 0x26 => some (.plog f)
  | 0x30 => some (.fadd f)
  | 0x31 => some (.fsub f)
  | 0x32 => some (.fmul f)
  | 0x33 => some (.ffma f)
  | 0x34 => some (.fdiv f)
  | 0x35 => some (.fsqrt f)
  | 0x36 => some (.fmin f)
  | 0x37 => some (.fmax f)
  | 0x38 => some (.fabs f)
  | 0x39 => some (.fneg f)
  | 0x3A => some (.fcmp f)
  | 0x3B => some (.fcvt f)
  | 0x3C => some (.ftoi f)
  | 0x3D => some (.itof f)
  | 0x3E => some (.fclass f)
  | 0x40 => some (.br f)
  | 0x41 => some (.bri f)
  | 0x42 => some (.call f)
  | 0x43 => some (.calli f)
  | 0x44 => some (.ret f)
  | 0x45 => some (.loop f)
  | 0x46 => some (.bru f)
  | 0x47 => some (.done f)
  | 0x48 => some (.ifence f)
  | 0x50 => some (.vadd f)
  | 0x51 => some (.vsub f)
  | 0x52 => some (.vmul f)
  | 0x53 => some (.vfma f)
  | 0x54 => some (.vfms f)
  | 0x55 => some (.vmin f)
  | 0x56 => some (.vmax f)
  | 0x57 => some (.vabs f)
  | 0x58 => some (.vneg f)
  | 0x59 => some (.vand f)
  | 0x5A => some (.vor f)
  | 0x5B => some (.vxor f)
  | 0x5C => some (.vnot f)
  | 0x5D => some (.vshl f)
  | 0x5E => some (.vshr f)
  | 0x5F => some (.vsar f)
  | 0x60 => some (.vcmp f)
  | 0x61 => some (.vsel f)
  | 0x62 => some (.vmov f)
  | 0x63 => some (.vbcast f)
  | 0x64 => some (.vget f)
  | 0x65 => some (.vput f)
  | 0x66 => some (.vperm f)
  | 0x67 => some (.vtrn f)
  | 0x68 => some (.vredr f)
  | 0x69 => some (.vredc f)
  | 0x6A => some (.vscan f)
  | 0x6B => some (.vrcp f)
  | 0x6C => some (.vrsq f)
  | 0x6D => some (.vexp2 f)
  | 0x6E => some (.vlog2 f)
  | 0x6F => some (.vtanh f)
  | 0x70 => some (.vcvt f)
  | 0x71 => some (.vrnd f)
  | 0x72 => some (.vqblk f)
  | 0x73 => some (.vdq f)
  | 0x74 => some (.msca f)
  | 0x75 => some (if f.minor == 1 then .randInc f else .rand f)
  | 0x76 => some (if f.minor == 1 then .vrandInc f else .vrand f)
  | 0x80 => some (.mcfg f)
  | 0x81 => some (.mloadb f)
  | 0x82 => some (.mloadz f)
  | 0x83 => some (if f.minor == 1 then .mrbufBc f else .mrbuf f)
  | 0x84 => some (.mgang f)
  | 0x85 => some (.mmul f)
  | 0x86 => some (if f.minor == 1 then .mzeroZp f else .mzeroAcc f)
  | 0x87 => some (.mdrain f)
  | 0x88 => some (.mdrainp f)
  | 0x89 => some (.mchkcfg f)
  | 0x8A => some (if f.minor == 1 then .msaveFree f else .msave f)
  | 0x8B => some (.mrestore f)
  | 0x8C => some (if f.minor == 1 then .mstatClr f else .mstat f)
  | 0x90 => some (.ld f)
  | 0x91 => some (if f.minor == 1 then .stOf f else .st f)
  | 0x92 => some (.ldb f)
  | 0x93 => some (.stb f)
  | 0x94 => some (.ldacq f)
  | 0x95 => some (.strel f)
  | 0x96 => some (.ldf f)
  | 0x97 => some (.ldfe f)
  | 0x98 => some (.stf f)
  | 0x99 => some (.stef f)
  | 0x9A => some (.setf f)
  | 0x9B => some (.sete f)
  | 0x9C => some (if f.minor == 1 then .ldaT f else if f.minor == 2 then .ldaN f else .ldaW f)
  | 0x9D => some (.sta f)
  | 0x9E => some (.stam f)
  | 0x9F => some (.setit f)
  | 0xA0 => some (.advit f)
  | 0xA1 => some (if f.minor == 1 then .endwGroup f else .endw f)
  | 0xA2 => some (.ageq f)
  | 0xA3 => some (if f.minor == 1 then .stfarB f else .stfar f)
  | 0xA4 => some (.farreq f)
  | 0xA5 => some (.aadd f)
  | 0xA6 => some (.amin f)
  | 0xA7 => some (.amax f)
  | 0xA8 => some (.aminn f)
  | 0xA9 => some (.amaxn f)
  | 0xAA => some (.aand f)
  | 0xAB => some (.aor f)
  | 0xAC => some (.axor f)
  | 0xAD => some (.aswap f)
  | 0xAE => some (.acas f)
  | 0xAF => some (if f.minor == 1 then .fenceAck f else .fence f)
  | 0xB0 => some (.send f)
  | 0xB1 => some (.sendb f)
  | 0xB2 => some (.spawn f)
  | 0xB3 => some (.park f)
  | 0xB4 => some (.wait f)
  | 0xB5 => some (.yield f)
  | 0xB6 => some (.wkset f)
  | 0xB7 => some (.wkdec f)
  | 0xB8 => some (if f.minor == 1 then .qbindPush f else if f.minor == 2 then .qbindNone f else .qbindPop f)
  | 0xB9 => some (.hqcfg f)
  | 0xBA => some (if f.minor == 1 then .albindNone f else .albind f)
  | 0xBB => some (.balw f)
  | 0xBC => some (.mask1 f)
  | 0xBD => some (.unmask1 f)
  | 0xC0 => some (.launch f)
  | 0xC1 => some (.lstat f)
  | 0xC2 => some (.barw f)
  | 0xC3 => some (.bara f)
  | 0xC4 => some (if f.minor == 1 then .quantW f else .quant f)
  | 0xC8 => some (.bbegin f)
  | 0xC9 => some (.bdecl f)
  | 0xCA => some (.bcommit f)
  | 0xCB => some (.babort f)
  | 0xCC => some (.btload f)
  | 0xCD => some (.bstat f)
  | 0xD0 => some (if f.minor == 1 then .trapS f else .trap f)
  | 0xD1 => some (.tret f)
  | 0xD2 => some (.tfence f)
  | 0xD3 => some (.gets f)
  | 0xD4 => some (if f.imm == 0x000 then .setsTvec f else if f.imm == 0x001 then .setsSvec f else if f.imm == 0x003 then .setsEstat f
      else if f.imm == 0x007 then .setsSlice f else if f.imm == 0x009 then .setsCtxbase f else .sets f)
  | 0xD5 => some (.seta f)
  | 0xD6 => some (.pair f)
  | 0xD7 => some (.unpair f)
  | 0xD8 => some (if f.minor == 1 then .digestClr f else .digest f)
  | 0xD9 => some (if f.minor == 1 then .huskcfgKill f else if f.minor == 2 then .huskcfgFlush f else if f.minor == 3 then .huskcfgTab f
      else if f.minor == 4 then .huskcfgUndef f else .huskcfgDef f)
  | 0xDA => some (.brkpt f)
  | 0xDB => some (if f.minor == 1 then .evictRestore f else .evict f)
  | _ => none

/-- Decode a word. -/
def decodeWord (w : InstrWord) : Except DecodeError Instr :=
  match instrOf (majorOf w) (fieldsOf w) with
  | some i => .ok i
  | none => .error (.unassigned (majorOf w))

/-- Decode the twelve bytes of a slot, byte 0 in the low bits (spec/10 R161). -/
def decodeBytes (bs : List Byte) : Except DecodeError Instr :=
  if bs.length < 12 then .error (.short bs.length) else decodeWord (BitVec.ofNat 96 (ofBytes (bs.take 12)))

/-- The instruction that the decoder reads from a word of the opcode table. -/
def decodeTableWord (nbits w : Nat) : Option Instr :=
  match decodeBytes (bytesOf (w % 2 ^ nbits) 12) with
  | .ok i => some i
  | .error _ => none

/-- The word of a major and fields (spec/10 Table 5). -/
def wordOf (major : Nat) (f : Fields) : InstrWord :=
  f.imm ++ f.c ++ f.b ++ f.a ++ f.dest ++ BitVec.ofNat 4 f.ty.code ++ f.scope ++ f.wait ++ f.setc
    ++ BitVec.ofBool f.neg ++ f.pred ++ f.stall ++ f.minor ++ BitVec.ofNat 8 major

/-- Encode an instruction; an event has no word. -/
def encode (i : Instr) : Option InstrWord := i.word?.map fun x => wordOf x.1 x.2

/-! ### Fetch lines -/

/-- The word of slot i (spec/10 R161). -/
def Line.slot (l : Line) (i : Nat) : InstrWord := l.extractLsb' (96 * i) 96

/-- The line word, bytes 60 to 63 (spec/10 R161). -/
def Line.lineWord (l : Line) : BitVec 32 := l.extractLsb' 480 32

/-- TGT bit i: slot i may be entered by a checked transfer (spec/10 Table 1). -/
def Line.tgt (l : Line) (i : Nat) : Bool := l.lineWord.getLsbD i

/-- PAIR bit i: slots i and i + 1 issue together (spec/10 Table 1). -/
def Line.pairBit (l : Line) (i : Nat) : Bool := i < 4 && l.lineWord.getLsbD (5 + i)

/-- LPAR and every SPAR bit match (spec/10 R162, R163 step 1). -/
def Line.parityOk (l : Line) : Bool :=
  let w := l.lineWord
  w.getLsbD 29 == parity w.toNat 29 &&
    (List.range 5).all fun i => w.getLsbD (24 + i) == parity (l.slot i).toNat 96

/-- The reserved bits of the line word are zero (spec/10 Table 1). -/
def Line.reservedOk (l : Line) : Bool :=
  l.lineWord.extractLsb' 30 2 == 0 && l.lineWord.extractLsb' 9 15 == 0

/-- The issue unit of the word in slot i. -/
def Line.unit (l : Line) (i : Nat) : IssueUnit := unitOf (majorOf (l.slot i))

/-- Registers that the instruction of a word reads, its guard predicate included. -/
def wordReads (w : InstrWord) : List Nat :=
  let f := fieldsOf w
  match instrOf (majorOf w) f with
  | some i => (match i.form? with
    | some m => (0x60 + f.pred.toNat) :: m.reads f
    | none => [])
  | none => []

/-- Registers that the instruction of a word writes. -/
def wordWrites (w : InstrWord) : List Nat :=
  let f := fieldsOf w
  match instrOf (majorOf w) f with
  | some i => (match i.form? with
    | some m => m.writes f
    | none => [])
  | none => []

/-- The rules of a pair of slots i and i + 1 (spec/10 R164). -/
def Line.pairOk (l : Line) (i : Nat) : Bool :=
  let u := l.unit i
  let v := l.unit (i + 1)
  !l.pairBit (i + 1) && u != v && u != .system && v != .system && u != .control
    && (fieldsOf (l.slot i)).stall == 0
    && (wordWrites (l.slot i)).all (fun r =>
        !(wordReads (l.slot (i + 1))).contains r && !(wordWrites (l.slot (i + 1))).contains r)
    && !l.tgt (i + 1)

/-- Step 2 of R163: the reserved bits are zero and every pair is legal. -/
def Line.shapeOk (l : Line) : Bool :=
  l.reservedOk && (List.range 4).all fun i => !l.pairBit i || l.pairOk i

/-- The line fault of an entry, if any: IPAR, then ILLEG, then BADTGT of a checked transfer (spec/10 R163). -/
def Line.entryFault (l : Line) (slot : Nat) (checked : Bool) : Option Cause :=
  if !l.parityOk then some .ipar
  else if !l.shapeOk then some .illeg
  else if checked && !l.tgt slot then some .badtgt
  else none

/-- A line of five words with TGT and PAIR fields, its parity computed (spec/10 R162). -/
def Line.build (ws : Nat → InstrWord) (tgt pair : Nat) : Line :=
  let spar := ((List.range 5).map fun i => if parity (ws i).toNat 96 then 2 ^ (24 + i) else 0).foldl (· + ·) 0
  let low := spar + (pair % 16) * 32 + tgt % 32
  let lw := if parity low 29 then low + 2 ^ 29 else low
  BitVec.ofNat 32 lw ++ ws 4 ++ ws 3 ++ ws 2 ++ ws 1 ++ ws 0

/-- The PC format: bits [63:13] zero and a slot of 0 to 4 (spec/10 R166). -/
def pcOk (pc : Word) : Bool := pc.toNat < 8192 && pc.toNat % 8 ≤ 4

/-- The PC of the slot that follows (spec/10 R166): the next slot, or slot 0 of the next line, 1,023 before 0. -/
def nextPc (pc : Word) : Word :=
  let n := pc.toNat
  if n % 8 < 4 then BitVec.ofNat 64 (n + 1) else BitVec.ofNat 64 (((n / 8 + 1) % 1024) * 8)

end Sys2Proof
end

