-- ==== Sys2Proof/Machine/State.lean ====
section
/-!
DEFINITION. The state of the JX-2304: every piece of state that the spec gives the machine, as plain data (INVENTORY.md
lists each with its rule), the fault and refusal reasons, and the state after reset. Tables are sparse lists whose
unlisted keys read as a default (Machine/Sparse.lean).
-/

namespace Sys2Proof.Machine

/-- Why a step stops with a fault: no reason at all. An access that the spec turns away raises a trap, a kill of the husk or
an answer, and the machine goes on (spec/02 R10, spec/18 R332 to R337). -/
inductive Fault where
  deriving DecidableEq, Repr

/-- Why a step is refused. -/
inductive Refusal where
  /-- Raised by an arm of `exec` for an instruction that has no meaning yet. Safe: the run ends there. -/
  | notModelled (mnemonic : String)
  /-- Raised by an event that the state does not make possible, and by an instruction when no core holds a task that
  may issue. Safe: the hardware makes no such step either. -/
  | notPending
  deriving DecidableEq, Repr

/-! ### Tasks and contexts -/

/-- Where a pending fault of a task is taken: at the next instruction boundary (spec/04 R66), where the task waits on the
counter or reads a destination of the access, or at an acknowledgement point (spec/05 R79, spec/06 R103), or at the end of
the line (STALL, spec/10 R179). -/
inductive LateAt where
  | boundary
  | use
  | lineEnd
  deriving DecidableEq, Repr

/-- A pending late fault or fault note of a task (spec/04 R66, spec/05 R79, spec/07 R140). `exact` marks an exact fault that
waits until its stream runs again (spec/06 R102, R104); `heldAt` is the instruction that an access at a wait held back. -/
structure Late where
  cause   : Cause
  addr    : Word
  fdrop   : Bool := false
  note    : Bool := false
  order   : Nat := 0
  at_     : LateAt := .boundary
  counter : Nat := 7
  dests   : List Nat := []
  exact   : Bool := false
  heldAt  : Option Word := none
  deriving DecidableEq, Repr

/-- The registers of a task (spec/03 R42, spec/15 R270, spec/18 R338). Of the model: `mid` says that the stream was left inside a
line, `waitNo` holds the phase or the window that a BARW or QUANT `.w` at that address waits for (spec/16 R307, R313). -/
structure Task where
  pc     : Word := 0
  tstat  : Word := 0
  sticky : Word := 0
  ret    : Word := 0
  it     : BitVec 32 := 0
  gid    : BitVec 32 := 0
  lid    : BitVec 32 := 0
  p      : BitVec 7 := 0
  d      : Sparse Nat := []
  g      : Sparse Word := []
  w      : Sparse Word := []
  late   : List Late := []
  mid    : Bool := false
  waitNo : Option (Word × Nat) := none
  deriving DecidableEq, Repr

/-- The boosted line of a context image (spec/17 R331), with the TAG of the launch (R315) and a number of the model for the
life that its BBEGIN began, by which a notice that comes too late is known (R320). -/
structure Boost where
  ticket  : BitVec 32 := 0
  restart : Word := 0
  aborts  : Nat := 0
  undo    : Nat := 0
  cap     : Nat := 0
  reason  : Nat := 0
  depth   : Nat := 0
  active  : Bool := false
  btry    : Bool := false
  tag     : Word := 0
  life    : Nat := 0
  deriving DecidableEq, Repr

/-- What a waiting task waits for (spec/06 R104, spec/15 R272). -/
inductive WaitOn where
  | counters (mask : BitVec 6)
  | regs (rs : List Nat)
  | acks (sys parked : Bool)
  | fence (sys parked : Bool)
  | code
  | acquire
  | accepted (tag : Nat)
  | counter (wk : Nat)
  | allowance (al units : Nat)
  | queue (slot : Nat)
  | phase (n : Nat)
  | window (n : Nat)
  | slot
  | undo
  deriving DecidableEq, Repr

/-- The states of a level-0 task that holds an image (spec/15 Table 2). -/
inductive CtxState where
  | free
  | running
  | ready
  | waiting (w : WaitOn)
  deriving DecidableEq, Repr

/-- A context image (spec/03 R42, R43); `check` says that its next fetch is checked (spec/10 R166), `waitDone` that the
counter of its WAIT has reached 0 (spec/15 R277). -/
structure Ctx where
  task  : Task := {}
  check : Bool := false
  st    : CtxState := .free
  boost : Boost := {}
  waitDone : Bool := false
  deriving DecidableEq, Repr

/-- Whose registers: a context image, the level-1 frame or the handler frame (spec/18 R336). -/
inductive Who where
  | img (i : Nat)
  | lvl1
  | hnd
  deriving DecidableEq, Repr

/-- The handler frame with its control registers (spec/18 R335, R340). -/
structure Handler where
  task   : Task
  epc    : Word
  estat  : Word
  ecause : Word
  eaddr  : Word
  hepc   : Word := 0
  of_    : Who
  deriving DecidableEq, Repr

/-- A grant of allowance units (spec/15 R292, R293): the core or package that gets it, its register (or, for another
package, the request), the units, and the tile whose NI counts them. -/
structure Grant where
  dest  : Nat
  al    : Nat
  units : Nat
  home  : Nat
  deriving DecidableEq, Repr

/-- A free pod's record (spec/15 R270): the task's registers, its LIVE mask, a checked first fetch, the grant that its start
releases (R292); `initial` marks an initial task that waits for an image (spec/09 R399) and is no pod of the pool, `sprout` a
level-0 sprout, which waits while a gang runs (spec/09 R154), `started` a pod that another core's SPAWN has brought as START (spec/08
R144). -/
structure Pod where
  task    : Task
  live    : Nat := 0
  checked : Bool := false
  grant   : Option Grant := none
  initial : Bool := false
  sprout  : Bool := false
  started : Bool := false
  deriving DecidableEq, Repr

/-- An entry of the ready list (spec/15 R269). -/
inductive Ready where
  | bound (i : Nat)
  | free (p : Pod)
  deriving DecidableEq, Repr

/-- An entry of the level-1 queue; the grant of a message waits until its sprout starts (spec/15 R269, R292). -/
structure Sprout where
  task    : Task
  live    : Nat := 0
  checked : Bool := true
  undo    : Bool := false
  grant   : Option Grant := none
  deriving DecidableEq, Repr

/-- A wake counter's pod (spec/15 R277). -/
inductive WakePod where
  | none
  | bound (i : Nat)
  | free (p : Pod)
  deriving DecidableEq, Repr

/-- A wake counter (spec/15 R277). -/
structure Wake where
  count : Nat := 0
  word  : Word := 0
  pod   : WakePod := .none
  notes : List (Cause × Word) := []
  deriving DecidableEq, Repr

/-- A hardware-queue slot with its ring (spec/15 R287, R290): the `stored` records of the ring lie in the slice, each in 64
bytes from `base`, the oldest at index `head`; `extra` holds records of an ended window for which the ring has no room yet
(spec/19 R352). -/
structure HQueue where
  en    : Bool := false
  rsize : Nat := 0
  base  : Nat := 0
  slot  : List (List Word) := []
  head  : Nat := 0
  stored : Nat := 0
  extra : List (List Word) := []
  parked : List (Nat × Nat × List Word) := []
  deriving DecidableEq, Repr

/-- A port binding (spec/15 R286). -/
inductive PortKind where
  | pop (slot cursor : Nat)
  | push (core slot : Nat) (staged : List Word) (sent : Bool)
  deriving DecidableEq, Repr

/-- A bound port; `pc` is the instruction that last wrote a word to it, `px` whether that issued under PX (spec/04 R66, R67). -/
structure Port where
  who  : Who
  kind : PortKind
  pc   : Word := 0
  px   : Bool := false
  deriving DecidableEq, Repr

/-! ### Slices -/

/-- An attribute entry (spec/03 R33). -/
structure Attr where
  base    : Nat
  len     : Nat
  span    : Nat
  stamped : Bool
  mirror  : Bool
  boost   : Bool
  feinit  : Nat
  writer  : Nat
  age0    : BitVec 32
  deriving DecidableEq, Repr

/-- A stamp side entry (spec/03 R40). -/
structure Side where
  age    : BitVec 32 := 0
  writer : Nat := 0
  mir    : Bool := false
  stop   : Bool := false
  ent    : Nat := 0
  deriving DecidableEq, Repr

/-- The SECDED condition of a slice word (spec/03 R39). -/
inductive Ecc where
  | good
  | single
  | bad
  | poisoned
  deriving DecidableEq, Repr

/-- Who asked for an access: a core of this package, or another package's core through the gateway. -/
inductive Asker where
  | core (agent tag gen : Nat)
  | remote (chip core tag : Nat)
  | channel (ch j : Nat)
  deriving DecidableEq, Repr

/-- A waiter of a home (spec/04 R59, spec/05 R78). -/
structure Waiter where
  asker : Asker
  off   : Nat
  op    : MemOp
  order : Nat
  deriving DecidableEq, Repr

/-! ### Issue and outstanding operations -/

/-- The fetch line being executed, its number, and whether its checks have been made (spec/10 R163). `checked` marks an
entry by a checked transfer. -/
structure LineBuf where
  no      : Nat
  line    : Line
  entered : Bool
  deriving DecidableEq, Repr

/-- A result that is not yet readable (spec/10 R176, R178); `mate` is what a pair's follower writes where it has other values than its
leader (spec/19 R358). -/
structure Pend where
  due    : Nat
  seq    : Nat
  writes : List (Nat × Word)
  flags  : Nat := 0
  lower  : Nat := 7
  mate   : List (Nat × Word) := []
  deriving DecidableEq, Repr

/-- Where the answer of an outstanding operation goes. -/
inductive Dst where
  | none
  | reg (r : Nat) (ty : Ty)
  | word (r : Nat)
  | block (regs : List Nat)
  | lda (regs : List Nat) (g : Nat)
  | ageq (g : Nat)
  deriving DecidableEq, Repr

/-- What kind of operation is outstanding, for the waits of spec/06 R115, R128 and spec/04 R398. -/
inductive OKind where
  | load
  | store
  | atomic
  | fullEmpty
  | delivery
  | request
  | other
  deriving DecidableEq, Repr

/-- The registers and counts as they stood before an access whose status has not arrived (spec/06 R102), and how many instructions
the quantum has counted from that access on (spec/16 R308). -/
structure Snap where
  task  : Task
  used  : Nat
  count : Nat := 0
  deriving DecidableEq, Repr

/-- An operation that has issued and not completed (spec/06 R101, R102, spec/10 R178). `use` says that its late fault waits
for the counter or a destination (spec/15 R282), `park` marks a PARK that awaits its answer (R283), `pushes` is what a
BDECL's grant pushes (spec/17 R325). Of `acks`, `far` are awaited from other packages (spec/06 R128); `bad` is the first fault
answered under PX while more answers are awaited; `flags` are later exception flags for a result that writes `sticky` (spec/11
R188). `px` says that the task had PX set as it issued (spec/04 R67), `payload` that it carries a message's payload (spec/06 R109),
`parent` names the STAM of a delivery (spec/05 R85). -/
structure Outst where
  tag     : Nat
  who     : Who
  gen     : Nat := 0
  kind    : OKind
  lower   : Nat := 7
  dst     : Dst := .none
  addr    : Word := 0
  remote  : Bool := false
  acquire : Bool := false
  status  : Bool := false
  parked  : Bool := false
  late    : Bool := false
  slow    : Bool := false
  snap    : Option Snap := Option.none
  pc      : Word := 0
  op      : Option MemOp := Option.none
  acks    : Nat := 1
  al      : Nat := 0
  units   : Nat := 0
  ctr     : Nat := 7
  group   : Option Nat := Option.none
  reissued : Bool := false
  use     : Bool := false
  park    : Bool := false
  port    : Option Nat := Option.none
  pushes  : List Word := []
  far     : Nat := 0
  bad     : Option (Cause × Word) := Option.none
  flags   : Nat := 0
  px      : Bool := false
  payload : Bool := false
  parent  : Option Nat := Option.none
  deriving DecidableEq, Repr

/-- A division held by the divider (spec/12 R202, R221), or a reduction (spec/13 R232): its number and its result writes. -/
structure Job where
  who    : Who
  tag    : Nat
  writes : List (Nat × Word)
  reads  : List Nat := []
  flags  : Nat := 0
  lower  : Nat := 7
  deriving DecidableEq, Repr

/-! ### The matrix array -/

/-- A queued matrix instruction (spec/14 R249): its operands as read at issue, `gang` while it is still to be started with
the gang (R254), `done` the descriptors that an MLOADZ has installed, `px` that it issued under PX (R252). -/
structure MQ where
  i      : Instr
  a      : Word
  b      : Word
  pc     : Word
  who    : Who
  lower  : Nat
  gang   : Bool := false
  tag    : Nat := 0
  done   : Nat := 0
  flags  : Nat := 0
  px     : Bool := false
  deriving DecidableEq, Repr

/-- The matrix array of a tile (spec/14 R244): `busy` while the head of its queue has been performed and not completed, `toTake`
the faults that contexts are still to take, each with the address of its instruction, `after` the counters on which a context takes its
own (R252),
`gangNext` the images whose next instruction is gang-issued (R254). -/
structure Matrix where
  cells  : Sparse Byte := []
  bty    : Sparse Ty := []
  zb     : Sparse Byte := []
  rb     : Sparse Byte := []
  rbty   : Sparse Ty := []
  za     : Sparse Byte := []
  acc    : Sparse (BitVec 48) := []
  gs     : Nat := 0
  eseq   : Nat := 0
  chk    : Nat := 0
  passes : Sparse Nat := []
  sq     : List (BitVec 32) := []
  queue  : List MQ := []
  busy   : Bool := false
  owner  : Option Nat := none
  lost   : BitVec 8 := 0
  frozen : Bool := false
  fpc    : Nat := 0
  disc   : Nat := 0
  fcause : Nat := 0
  fcol   : Nat := 0
  fmac   : Nat := 0
  toTake : List (Nat × Cause × Nat) := []
  after  : List (Nat × Nat) := []
  gangNext : BitVec 8 := 0
  deriving DecidableEq, Repr

/-! ### Boosted tasks -/

/-- The age of a boosted task (spec/17 R315). -/
structure Age where
  tag    : Word
  ticket : BitVec 32
  cid    : Nat
  deriving DecidableEq, Repr

/-- An entry of an abstract-lock table (spec/17 R316): its holder is the core `agent` in the boosted life `life`, and `tag` its
BDECL; `against` names the entries that a waiting declaration met, by core and `tag` (R318). -/
structure Lock where
  obj     : Nat
  kind    : Nat
  key     : Word
  agent   : Nat
  life    : Nat
  age     : Age
  tag     : Nat
  granted : Bool
  against : List (Nat × Nat) := []
  deriving DecidableEq, Repr

/-- An undo in progress: the image of the aborted task, its abort word, the entries that have not begun; `active` while an
undo task is queued or runs (spec/17 R320). -/
structure Undo where
  img    : Nat
  word   : Word
  left   : Nat
  active : Bool := false
  deriving DecidableEq, Repr

/-! ### Determinism and pair coupling -/

/-- A message in flight (spec/15 R280), with the window data of DET (spec/19 R351), and the path and epoch under which its payload
is counted (spec/04 R68). -/
structure Msg where
  off    : Nat
  words  : List Word
  handler : Word
  level  : Nat
  it     : BitVec 32
  gid    : BitVec 32
  tstat  : Word
  cid    : Nat
  al     : Nat
  units  : Nat
  path   : Nat := 0
  epoch  : Nat := 0
  det    : Bool := false
  index  : Nat := 0
  window : Nat := 0
  seqno  : Nat := 0
  agent  : Nat := 0
  tag    : Nat := 0
  deriving DecidableEq, Repr

/-- Quanta and delivery windows of a core (spec/16 R308, spec/19 R351, R352). -/
structure Det where
  count    : Nat := 0
  sent     : Nat := 0
  finished : Bool := false
  handled  : Nat := 0
  parked   : List Msg := []
  marks    : List (Nat × Nat × Nat) := []
  seqs     : Sparse Nat := []
  inWindow : Sparse Nat := []
  deriving DecidableEq, Repr

/-- The pair coupling of a leader (spec/19 R358 to R360): the image of the paired task, the fingerprints of both cores, the undo log, the
packets of each store in the remote buffer, and the checkpoint of the stream `at_`, after which operations are numbered from `base`. -/
structure Pairing where
  mate    : Nat
  img     : Nat
  k       : Nat
  count   : Nat := 0
  fp      : Word := 0
  mateFp  : Word := 0
  log     : List (Nat × Word) := []
  buf     : List (List Nat) := []
  at_     : Who
  check   : Task
  checkBoost : Boost := {}
  base    : Nat := 0
  rerun   : Bool := false
  closing : Bool := false
  deriving DecidableEq, Repr

/-- A line forwarded to a gang follower (spec/09 R152): its number and bytes, where to enter it, and the transfer that
the leader took from it; `left` says that the follower has left it, though an exact fault may still take it back into it. -/
structure FwdLine where
  no     : Nat
  line   : Line
  slot   : Nat
  taken  : Option (Nat × Word) := none
  done   : Nat := 0
  guards : List (Nat × Bool) := []
  closed : Bool := false
  left   : Bool := false
  deriving DecidableEq, Repr

/-! ### Tiles -/

/-- A tile, or a memory-core context (spec/07 R134), which uses image 0 alone. -/
structure Tile where
  attr     : Sparse (Option Attr) := []
  waiters  : List Waiter := []
  images   : Sparse Ctx := []
  gens     : Sparse Nat := []
  cur0     : Option Nat := none
  l1       : Option Sprout := none
  hnd      : Option Handler := none
  tvec     : Word := 0
  svec     : Word := 0
  slice    : Nat := 65536
  ctxbase  : Nat := 0
  used     : Nat := 0
  lim      : Nat := 0
  ready    : List Ready := []
  l1q      : List Sprout := []
  wake     : Sparse Wake := []
  al       : Sparse Nat := []
  alBind   : Sparse (Option Nat) := []
  hq       : Sparse HQueue := []
  ports    : Sparse (Option Port) := []
  occ      : Nat := 0
  withheld : List Grant := []
  cong     : Nat := 0
  halvedAt : Nat := 0
  cyc      : Nat := 0
  line     : Option LineBuf := none
  atLine   : Bool := true
  checkTo  : Bool := false
  pairNext : Bool := false
  pairBeats : Nat := 0
  stale    : List (Nat × Line) := []
  pend     : List Pend := []
  seq      : Nat := 0
  out      : List Outst := []
  sent     : Sparse Nat := []
  divider  : Option Job := none
  reduction : Option Job := none
  matrix   : Matrix := {}
  locks    : List Lock := []
  commut   : Sparse Nat := []
  abort    : Option (Nat × Nat) := none
  undo     : Option Undo := none
  phase    : Nat := 0
  det      : Det := {}
  pairing  : Option Pairing := none
  follows  : Option Nat := none
  fwd      : List FwdLine := []
  seta     : Option (Nat × Word × Word × Nat × Nat) := none
  popped   : Word := 0
  held     : Bool := false
  deriving DecidableEq, Repr

/-! ### Husks, launches, cohorts -/

/-- The states of a husk (spec/18 Table 6). -/
inductive HuskState where
  | running
  | stopping
  | draining
  | saving
  | evicted
  | restoring
  | killed
  deriving DecidableEq, Repr

/-- An accepted launch (spec/16 R297, R303): the record's place and the fields read at acceptance. -/
structure Launch where
  tile   : Nat
  off    : Nat
  serial : Nat
  entry  : Word
  arg    : Word
  gx     : Nat
  gy     : Nat
  gz     : Nat
  w      : Nat
  h      : Nat
  gwl    : Nat
  fwd    : Bool
  flags  : Nat
  qlog   : Nat
  deps   : List (Int × Int × Int)
  notify : Word
  tag    : Word
  released : List Nat := []
  started  : List Nat := []
  retired  : Nat := 0
  runningN : Nat := 0
  deriving DecidableEq, Repr

/-- An EVICT that has not finished (spec/18 R343, R350): its issuer and operation, and the pages of its record. -/
structure EvictJob where
  agent : Nat
  tag   : Nat
  keys  : List Nat
  deriving DecidableEq, Repr

/-- A husk (spec/02, spec/16 R303, R306, spec/18 R343); `digest` is that of its save record (R344), `away` says that it was killed
while it was evicted, so that it holds no cores until it is defined anew. -/
structure Husk where
  col0   : Nat
  row0   : Nat
  width  : Nat
  height : Nat
  st     : HuskState := .running
  queues : Sparse (List Launch) := []
  serial : Nat := 0
  kept   : List (Nat × Word) := []
  digest : Option (BitVec 256) := none
  job    : Option EvictJob := none
  away   : Bool := false
  deriving DecidableEq, Repr

/-- A launch slot (spec/16 R304): the husk and queue it serves. -/
structure LSlot where
  tenant   : Nat
  queue    : Nat
  draining : Bool := false
  deriving DecidableEq, Repr

/-- A placed group (spec/09 R155, spec/16 R305, R307). -/
structure Cohort where
  id     : Nat
  tenant : Nat
  slot   : Nat
  queue  : Nat
  index  : Nat
  x      : Nat
  y      : Nat
  w      : Nat
  h      : Nat
  gwl    : Nat
  fwd    : Bool
  det    : Bool
  boost  : Bool
  qlog   : Nat
  tag    : Word
  entry  : Word
  arg    : Word
  tstat  : Word
  toStart : List Nat := []
  running : List Nat := []
  phase   : Nat := 0
  deriving DecidableEq, Repr

/-! ### Tables of the package -/

/-- A peer window entry (spec/02 R16). -/
structure Peer where
  chip    : Nat
  tenant  : Nat
  husk    : Nat
  loads   : Bool
  stores  : Bool
  atomics : Bool
  deriving DecidableEq, Repr

/-- A host window (spec/02 R27). -/
structure HostWin where
  base : Word
  len  : Nat
  rd   : Bool
  wr   : Bool
  deriving DecidableEq, Repr

/-- A queued request of a memory-core context (spec/07 R133, R134). -/
structure FarReq where
  va     : Word
  param  : Word
  entry  : Nat
  wk     : Nat
  agent  : Nat
  deriving DecidableEq, Repr

/-- A memory-core context's binding (spec/07 R129). -/
structure McCtx where
  tenant : Nat
  root   : Nat
  loader : Sparse (Option Nat) := []
  queue  : List FarReq := []
  run    : Option FarReq := none
  deriving DecidableEq, Repr

/-- A copy template (spec/07 R136) with its counter, tenant and requester. -/
structure Template where
  src    : Word
  dst    : Word
  rows   : Nat
  rowlen : Nat
  sstr   : Int
  dstr   : Int
  scale  : Word
  side   : Bool
  seq0   : Nat
  wk     : Nat
  tenant : Nat
  agent  : Nat
  deriving DecidableEq, Repr

/-- A channel of a block-transfer engine (spec/07 R137 to R139, R142). Of the model: `no` numbers its copies, `again` lists the words
whose requests a link failure has sent again (spec/04 R64). -/
structure Channel where
  active : Option Template := none
  shadow : Option Template := none
  read   : List (Nat × Word) := []
  sentIn : List Nat := []
  done   : List Nat := []
  desc   : Nat := 0
  fault  : Option (Cause × Word) := none
  no     : Nat := 0
  again  : List Nat := []
  deriving DecidableEq, Repr

/-- A control or tenant session (spec/20 R370) with its certified key, and the nonce that the management controller has sent to it last
(R372). -/
structure Session where
  id     : Nat
  tenant : Option Nat := none
  key    : Option (BitVec 512) := none
  nonce  : List Byte := []
  deriving DecidableEq, Repr

/-- A declaration on its way to its home (spec/17 R325). -/
structure Decl where
  obj     : Nat
  kind    : Nat
  key     : Word
  age     : Age
  life    : Nat
  user    : Bool
  retried : Bool
  deriving DecidableEq, Repr

/-- What a packet of the package's networks carries. -/
inductive Body where
  | access (off : Nat) (op : MemOp) (user boost : Bool)
  | code (off : Nat) (line : Line)
  | farStore (tenant : Nat) (va : Word) (op : MemOp)
  | farreq (r : FarReq)
  | aperture (ch : Nat) (t : Template)
  | message (m : Msg)
  | start (cohort : Nat)
  | spawn (p : Pod) (wk : Option Nat)
  | park (p : Pod) (wk : Nat)
  | wkdec (wk : Nat) (v : Word) (note : Option (Cause × Word)) (answer : Bool)
  | record (slot port : Nat) (ws : List Word) (index : Option (Nat × Nat))
  | grant (al units : Nat)
  | flag (off n : Nat) (v : Word) (counts : List Nat) (user boost : Bool)
  | mirror (off : Nat) (line : Line) (age : BitVec 32) (boost : Bool)
  | multicast (off : Nat) (op : MemOp) (user boost strong : Bool)
  | stop (x y : Nat) (group : Option Nat)
  | launch (tile off queueHint : Nat)
  | declare (d : Decl)
  | abort (life reason : Nat) (ticket : BitVec 32)
  | unlock (agent : Nat)
  | peerAdd (mac idx : Nat) (v : BitVec 48)
  | marker (cohort n count index : Nat)
  | commut (row : Nat) (lo hi : Word)
  | reply (ans : Answer)
  deriving DecidableEq, Repr

/-- A request that a router has merged: its core, tag, epoch and operand (spec/04 R62). -/
structure Merged where
  src   : Nat
  tag   : Nat
  epoch : Nat
  v     : Word
  deriving DecidableEq, Repr

/-- A packet in flight (spec/06 R101, R102, spec/04 R51, R63 to R65). `chan` orders packets of one source and destination on one line, or
on the ordered class; `path`, `counted` and `epoch` serve the counts of spec/04 R68 and R69; `mergeable` marks an atomic without `.acq`
and `.rel`, of type `mty`, `merged` what a router has merged into it (R62), `span` the lines after the first that a block reaches. -/
structure Packet where
  id      : Nat
  src     : Nat
  dst     : Nat
  tag     : Nat
  chan    : Option Nat
  span    : Nat := 0
  body    : Body
  refused : Bool := false
  hint    : Nat := 0
  path    : Nat := 0
  counted : Bool := false
  epoch   : Nat := 0
  mergeable : Bool := false
  mty     : Nat := 0
  remote  : Option (Nat × Nat × Nat) := none
  merged  : List Merged := []
  deriving DecidableEq, Repr

/-- What has left the package towards another one (spec/20 R367); `held` and `behind` mark what its NI still holds for a
pair's interval (spec/19 R359) and behind re-issued requests (spec/04 R64); `units` are allowance units that go back to
another package, with an answer or as a withheld grant by themselves (spec/15 R292, R293). -/
structure Egress where
  chip : Nat
  src  : Nat
  tag  : Nat
  path : Nat
  addr : Word
  op   : Option MemOp
  ans  : Option Answer := none
  counts : List Nat := []
  group : Option Nat := none
  held : Bool := false
  epoch : Nat := 0
  behind : Bool := false
  units : Nat := 0
  deriving DecidableEq, Repr

/-- What a host or session receives (spec/02 R397, spec/20 R373, R375), and the alarm of R377. -/
inductive HostOut where
  | readDone (session : Nat) (data : List Byte)
  | done (session : Nat)
  | error (session : Nat)
  | atomicDone (session : Nat) (v : Word)
  | handle (session : Nat) (h : Word)
  | failed (session : Nat) (status : Word)
  | faulted (session : Nat) (c : Cause)
  | nonce (session : Nat) (bytes : List Byte)
  | report (session : Nat) (nonce : List Byte) (acorn sup slot : BitVec 256) (fenced : List Nat)
      (husks : List (Nat × Nat × Nat × Nat × Nat)) (signature : List Byte)
  | alarm
  deriving DecidableEq, Repr

/-- What the save record of a tile holds (spec/18 R344), each table from the start of the tile's own part; `poison` is the fault of each
flag's epoch towards a tile of the husk that the core has open (spec/04 R69). -/
structure SavedTile where
  old    : Nat
  rec_   : Tile
  slice  : List Host.Cell
  code   : List Host.Cell
  empt   : Sparse Bool
  ecc    : Sparse Ecc
  side   : Sparse (Option Side)
  marked : Sparse Bool
  poison : List (Nat × Cause × Word)
  deriving DecidableEq, Repr

/-- What a husk's save record means (spec/18 R344); far memory holds its bytes. -/
structure Saved where
  tenant : Nat
  tiles  : List SavedTile
  cohorts : List Cohort
  net    : List Packet
  flags  : List Packet
  groups : Sparse (Option (List (Nat × Nat × Nat)))
  peers  : Sparse (Option Peer)
  wins   : Sparse (Option HostWin)
  deriving DecidableEq, Repr

/-! ### The machine -/

/-- The state of the package; `turns` is the context of each memory core that has issued last (spec/07 R134). -/
structure State where
  mem       : List Host.Cell
  empt      : Sparse Bool
  ecc       : Sparse Ecc
  farEcc    : Sparse Ecc
  side      : Sparse (Option Side)
  marked    : Sparse Bool
  tiles     : Sparse Tile
  husks     : Sparse (Option Husk)
  slots     : Sparse (Option LSlot)
  lastDrained : Nat
  lastMapped  : Option (Nat × Nat)
  lastPlaced  : Nat
  placements  : Nat
  rotations   : Nat
  cohorts   : List Cohort
  groups    : Sparse (Option (List (Nat × Nat × Nat)))
  peers     : Sparse (Option Peer)
  hostWins  : Sparse (Option HostWin)
  mcs       : Sparse (Option McCtx)
  tlb       : Sparse (Option Nat)
  turns     : Sparse Nat
  channels  : Sparse Channel
  net       : List Packet
  egress    : List Egress
  outbox    : List HostOut
  inputs    : List Instr
  tagLog    : List (Nat × Nat × Nat × Answer)
  arrivals  : Sparse Nat
  heldFlags : List Packet
  epochs    : Sparse (Option (Cause × Word))
  fenced    : Sparse Bool
  frozen    : Bool
  alarm     : Bool
  powered   : Bool
  chip      : Nat
  linksDown : List Nat
  cxlFrames : Nat
  sessions  : List Session
  owner     : Option Nat
  ownerSlot : Option (BitVec 256)
  lease     : Nat
  acornDigest : BitVec 256
  supDigest   : BitVec 256
  saved     : List Saved
  cur       : Nat
  sel       : Nat
  schedule  : List Nat
  ticks     : Nat
  fresh     : Nat
  nextId    : Nat
  deriving DecidableEq, Repr

/-- The machine right after package reset (spec/03 R30, spec/16 R304, R305, spec/20): every slice and instruction store
zero and every word full, no husk, no launch, nothing in flight. Values that the spec does not give are those of logs 2, 3
and 4. -/
def State.reset : State :=
  { mem := [], empt := [], ecc := [], farEcc := [], side := [], marked := [], tiles := [], husks := [], slots := []
    lastDrained := 63, lastMapped := none, lastPlaced := 63, placements := 0, rotations := 0, cohorts := []
    groups := [], peers := [], hostWins := [], mcs := [], tlb := [], turns := [], channels := [], net := [], egress := []
    outbox := [], inputs := [], tagLog := [], arrivals := [], heldFlags := [], epochs := [], fenced := []
    frozen := false, alarm := false, powered := true, chip := 0, linksDown := [], cxlFrames := 0, sessions := []
    owner := none, ownerSlot := none, lease := 0, acornDigest := 0, supDigest := 0, saved := []
    cur := 0, sel := 0, schedule := [], ticks := 0, fresh := 0, nextId := 0 }

end Sys2Proof.Machine
end

