-- ==== Sys2Proof/Machine/Mem.lean ====
section
/-!
DEFINITION. The byte map, the words of a slice with their full/empty bit, SECDED condition, stamp side entry and
written-line bit, and the page tables of far memory (spec/02 R21 to R26, spec/03 R30 to R45, spec/19 R356).
-/

namespace Sys2Proof.Machine

open Sys2Proof

/-! ### The byte map -/

/-- Tiles of the package (spec/00 R3). -/
def numTiles : Nat := 2304
/-- First key of the instruction stores: the slices of 2 MiB lie below. -/
def istoreBase : Nat := 2304 * 2 ^ 21
/-- First key of the HBM channels: the instruction stores of 64 KiB lie below. -/
def hbmBase : Nat := istoreBase + 2304 * 2 ^ 16
/-- First key of the CXL tier: 256 channels of 2 GiB lie below (spec/03 R45). -/
def cxlBase : Nat := hbmBase + 256 * 2 ^ 31
/-- First key of the memory cores' instruction stores: the CXL tier of 4 TiB lies below. -/
def mcBase : Nat := cxlBase + 2 ^ 42
/-- End of the byte map. -/
def memEnd : Nat := mcBase + 256 * 2 ^ 16

/-- The key of byte `off` of the slice of tile `t`. -/
def sliceKey (t off : Nat) : Nat := t * 2 ^ 21 + off
/-- The key of byte `off` of the instruction store that agent `a` fetches from: a tile's own, or its memory core's. -/
def istoreKey (a off : Nat) : Nat :=
  if a < numTiles then istoreBase + a * 2 ^ 16 + off else mcBase + (a - numTiles) / 8 * 2 ^ 16 + off

/-- What an unlisted byte reads as (spec/03 R30 for slices and instruction stores; log 2 for far memory). -/
def memDefault : Byte := 0

/-- The canonical form of the byte memory: keys strictly rising below the end of the map, no listed zero. -/
def Memory.wf (m : List Host.Cell) : Bool := Sparse.wf memDefault m && m.all fun c => c.1 < memEnd

/-- One byte. -/
def getByte (s : State) (k : Nat) : Byte := Sparse.get memDefault s.mem k

/-- `n` bytes from key `k`. -/
def getBytes (s : State) (k : Nat) : Nat → List Byte
  | 0 => []
  | n + 1 => getByte s k :: getBytes s (k + 1) n

/-- The little-endian number of `n` bytes at key `k`. -/
def getNat (s : State) (k n : Nat) : Nat := ofBytes (getBytes s k n)

/-- Write one byte of the memory; a key outside the map changes nothing. -/
def setByteMem (m : List Host.Cell) (k : Nat) (b : Byte) : List Host.Cell :=
  if k < memEnd then Sparse.set memDefault m k b else m

/-- Write bytes from key `k` on. -/
def setBytesMem (m : List Host.Cell) (k : Nat) : List Byte → List Host.Cell
  | [] => m
  | b :: bs => setBytesMem (setByteMem m k b) (k + 1) bs

/-- Write bytes from key `k` on. -/
def setBytes (s : State) (k : Nat) (bs : List Byte) : State := { s with mem := setBytesMem s.mem k bs }

/-! ### Tiles and husks -/

/-- The record of an agent. -/
def State.tile (s : State) (t : Nat) : Tile := Sparse.get {} s.tiles t
/-- Replace the record of an agent. -/
def State.setTile (s : State) (t : Nat) (u : Tile) : State := { s with tiles := Sparse.set {} s.tiles t u }
/-- Change the record of an agent. -/
def State.modTile (s : State) (t : Nat) (g : Tile → Tile) : State := s.setTile t (g (s.tile t))

/-- A husk by its tenant identifier. -/
def State.husk (s : State) (n : Nat) : Option Husk := Sparse.get none s.husks n
def State.setHusk (s : State) (n : Nat) (h : Option Husk) : State := { s with husks := Sparse.set none s.husks n h }
def State.modHusk (s : State) (n : Nat) (g : Husk → Husk) : State :=
  match s.husk n with
  | some h => s.setHusk n (some (g h))
  | none => s

/-- Physical coordinates of a tile: x = t mod 48, y = t div 48. -/
def tileX (t : Nat) : Nat := t % 48
def tileY (t : Nat) : Nat := t / 48
/-- The tile at husk-relative (x, y) (spec/02 R11). -/
def Husk.tileAt (h : Husk) (x y : Nat) : Nat := (h.row0 + y) * 48 + h.col0 + x
/-- The tile lies in the husk's rectangle. -/
def Husk.has (h : Husk) (t : Nat) : Bool :=
  h.col0 ≤ tileX t && tileX t < h.col0 + h.width && h.row0 ≤ tileY t && tileY t < h.row0 + h.height
/-- Every tile of the husk, in row order. -/
def Husk.tiles (h : Husk) : List Nat :=
  (List.range (h.width * h.height)).map fun i => h.tileAt (i % h.width) (i / h.width)

/-- The husk holds the cores of its rectangle: not while it is evicted, nor when it was killed so (spec/18 Table 6). -/
def Husk.holds (h : Husk) : Bool := h.st != .evicted && !h.away

/-- The tenant and husk of a tile. -/
def State.huskOfTile (s : State) (t : Nat) : Option (Nat × Husk) :=
  s.husks.findSome? fun e =>
    match e.2 with
    | some h => if h.has t && h.holds then some (e.1, h) else none
    | none => none

/-- The memory-core context that an agent number names. -/
def mcOf (a : Nat) : Nat := (a - numTiles) / 8
/-- The binding of an agent that is a memory-core context. -/
def State.mc (s : State) (a : Nat) : Option McCtx := Sparse.get none s.mcs a

/-- The tenant an agent works for, with its husk. -/
def State.huskOf (s : State) (a : Nat) : Option (Nat × Husk) :=
  if a < numTiles then s.huskOfTile a
  else match s.mc a with
    | some m => (s.husk m.tenant).map fun h => (m.tenant, h)
    | none => none

/-- The tenant of an agent. -/
def State.tenantOf (s : State) (a : Nat) : Option Nat := (s.huskOf a).map (·.1)

/-- Husk-relative coordinates of a tile in the layout of cid (spec/09 R149). -/
def State.cidOf (s : State) (t : Nat) : Nat :=
  match s.huskOfTile t with
  | some (_, h) => (tileY t - h.row0) * 64 + (tileX t - h.col0)
  | none => 0

/-! ### Attributes and the context area -/

/-- The valid attribute entry that covers a byte of a slice, with its number (spec/03 R33, R34). -/
def Tile.attrAt (u : Tile) (off : Nat) : Option (Nat × Attr) :=
  u.attr.findSome? fun e =>
    match e.2 with
    | some a => if a.base ≤ off / 4096 && off / 4096 < a.base + a.len then some (e.1, a) else none
    | none => none

/-- Some byte of [off, off + n) lies in a range with a property; entries hold whole 4 KiB units. -/
def Tile.touches (u : Tile) (p : Attr → Bool) (off n : Nat) : Bool :=
  u.attr.any fun e =>
    match e.2 with
    | some a => p a && a.base * 4096 < off + n && off < (a.base + a.len) * 4096
    | none => false

/-- First byte of the context area (spec/03 R43). -/
def Tile.ctxOff (u : Tile) : Nat := u.ctxbase * 1024

/-- [off, off + n) meets the context area of 24 KiB (spec/03 R44). -/
def Tile.inCtx (u : Tile) (off n : Nat) : Bool := u.ctxOff < off + n && off < u.ctxOff + 24576

/-- Context image `i` of a tile. -/
def Tile.ctx (u : Tile) (i : Nat) : Ctx := Sparse.get {} u.images i
def Tile.setCtx (u : Tile) (i : Nat) (c : Ctx) : Tile := { u with images := Sparse.set {} u.images i c }

/-- Hardware-queue slot `q`. -/
def Tile.hqueue (u : Tile) (q : Nat) : HQueue := Sparse.get {} u.hq q
def Tile.setHq (u : Tile) (q : Nat) (x : HQueue) : Tile := { u with hq := Sparse.set {} u.hq q x }

/-- The word at byte `o` of a context image, of generation `gen` (spec/03 Tables 6 and 7, spec/17 Table 7): general registers,
w registers, the control line, the boosted line; reserved and spare bytes are zero. -/
def Ctx.word (c : Ctx) (gen o : Nat) : Word :=
  let k := c.task
  let b := c.boost
  let d (i : Nat) : Nat := Sparse.get 0 k.d i % 256
  if o = 0 then 0
  else if o < 0x200 then Sparse.get 0 k.g (o / 8)
  else if o < 0xA00 then Sparse.get 0 k.w ((o - 0x200) / 8)
  else match o with
  | 0xA00 => k.pc
  | 0xA08 => k.tstat
  | 0xA10 => k.sticky
  | 0xA18 => k.ret
  | 0xA20 => BitVec.ofNat 64 (k.it.toNat + k.p.toNat * 2 ^ 32 + d 0 * 2 ^ 48 + d 1 * 2 ^ 56)
  | 0xA28 => BitVec.ofNat 64 (d 2 + d 3 * 2 ^ 8 + d 4 * 2 ^ 16 + d 5 * 2 ^ 24 + gen * 2 ^ 32)
  | 0xA30 => BitVec.ofNat 64 (k.gid.toNat + k.lid.toNat * 2 ^ 32)
  | 0xA40 => BitVec.ofNat 64 (b.ticket.toNat + field b.restart 12 0 * 2 ^ 32 + b.aborts % 2 ^ 12 * 2 ^ 48)
  | 0xA48 => BitVec.ofNat 64 (b.undo % 2 ^ 21 + (b.cap - 1) % 2 ^ 8 * 2 ^ 32 + b.reason % 2 ^ 4 * 2 ^ 40 + b.depth % 2 ^ 9 * 2 ^ 48)
  | 0xA50 => BitVec.ofNat 64 ((if b.active then 1 else 0) + if b.btry then 2 else 0)
  | _ => 0

/-- The bits of the word at byte `o` of an image that hold a register. -/
def imageBits (o : Nat) : Word :=
  if o = 0 then 0
  else if o < 0xA00 then BitVec.allOnes 64
  else match o with
  | 0xA00 | 0xA18 | 0xA28 | 0xA30 => BitVec.allOnes 64
  | 0xA08 => 0x1F3FF0000000F
  | 0xA10 => 0xFF
  | 0xA20 => 0xFFFF007FFFFFFFFF
  | 0xA40 => 0x0FFF1FFFFFFFFFFF
  | 0xA48 => 0x01FF0FFF001FFFFF
  | 0xA50 => 3
  | _ => 0

/-! ### Words of a slice -/

/-- The key of an 8-byte word of a slice, for its F/E bit and SECDED condition. -/
def wordKey (t off : Nat) : Nat := t * 2 ^ 18 + off / 8
/-- The key of a 64-byte line of a slice, for its side entry and written-line bit. -/
def lineKey (t off : Nat) : Nat := t * 2 ^ 15 + off / 64

/-- The word's F/E bit is empty (spec/03 R38). -/
def State.isEmpty (s : State) (t off : Nat) : Bool := Sparse.get false s.empt (wordKey t off)
def State.setEmpty (s : State) (t off : Nat) (b : Bool) : State :=
  { s with empt := Sparse.set false s.empt (wordKey t off) b }

def State.eccOf (s : State) (t off : Nat) : Ecc := Sparse.get .good s.ecc (wordKey t off)
def State.setEcc (s : State) (t off : Nat) (e : Ecc) : State :=
  { s with ecc := Sparse.set .good s.ecc (wordKey t off) e }

/-- The word cannot be read: an uncorrectable error or a poison mark (spec/03 R39). -/
def State.unreadable (s : State) (t off : Nat) : Bool :=
  match s.eccOf t off with
  | .bad | .poisoned => true
  | .good | .single => false

/-- Some word of the `n` bytes at `off` cannot be read. -/
def State.consumesBad (s : State) (t off n : Nat) : Bool :=
  (List.range ((off % 8 + n + 7) / 8)).any fun i => s.unreadable t (off / 8 * 8 + 8 * i)

/-- A read corrects single-bit errors and writes the codewords back (spec/03 R39). -/
def State.correct (s : State) (t off : Nat) : Nat → State
  | 0 => s
  | n + 1 =>
    let s := if s.eccOf t (off + 8 * n) = .single then s.setEcc t (off + 8 * n) .good else s
    State.correct s t off n

/-- Mark the line as written, the context area apart (spec/19 R356). -/
def State.markLine (s : State) (t off : Nat) : State :=
  if (s.tile t).inCtx off 1 then s else { s with marked := Sparse.set false s.marked (lineKey t off) true }

/-- Mark the lines of `n` bytes, at most `fuel` of them. -/
def State.markLines (s : State) (t off n : Nat) : State :=
  (List.range ((off % 64 + n + 63) / 64)).foldl (fun s i => s.markLine t (off / 64 * 64 + 64 * i)) s

/-- Replace a whole word: a bad codeword goes, and its F/E bit, which cannot be read, is set full (spec/03 R39). R39 says so of a
poisoned word; of a word in error that no scrub has poisoned yet it does not speak, and both are treated alike (DESIGN CHOICE,
log 114). -/
def State.replaceWord (s : State) (t off : Nat) : State :=
  if s.unreadable t off then (s.setEcc t off .good).setEmpty t off false else s.setEcc t off .good

/-- Write data bytes into a slice: the words that they cover wholly are replaced. The F/E bits stay, and no line is marked. -/
def State.putData (s : State) (t off : Nat) (bs : List Byte) : State :=
  let n := bs.length
  let s := (List.range ((off % 8 + n + 7) / 8)).foldl (fun s i =>
    let w := off / 8 * 8 + 8 * i
    if off ≤ w && w + 8 ≤ off + n then s.replaceWord t w else s) s
  setBytes s (sliceKey t off) bs

/-- Write data bytes into a slice; their lines are marked as written (spec/19 R356). -/
def State.putSlice (s : State) (t off : Nat) (bs : List Byte) : State := (s.putData t off bs).markLines t off bs.length

/-- The 64-bit word at `off`. -/
def State.sliceWord (s : State) (t off : Nat) : Word := BitVec.ofNat 64 (getNat s (sliceKey t off) 8)

/-- What a load finds in the word at `off` beside the bytes of the slice: the written-back word of a held image and the bits of it
that an older register content may still show (spec/03 R43); a ring word, all of whose bits are open (spec/15 R287; log 5). A free
image is not held: its area reads as the slice's bytes (DESIGN CHOICE, log 5). The spare lines of a held image are zero (Table 6). -/
def State.openWord (s : State) (t off : Nat) : Option (Word × Word) :=
  let u := s.tile t
  let i := (off - u.ctxOff) / 3072
  let o := (off - u.ctxOff) % 3072
  if u.inCtx off 8 && (u.ctx i).st != .free then some ((u.ctx i).word (Sparse.get 0 u.gens i) o, imageBits o)
  else if u.hq.any fun e => e.2.en && e.2.base ≤ off && off < e.2.base + 64 * 32 * 2 ^ e.2.rsize then
    some (s.sliceWord t off, BitVec.allOnes 64)
  else none

/-- The stamp side entry of a line; none where the line is not stamped. -/
def State.sideOf (s : State) (t off : Nat) : Option Side := Sparse.get none s.side (lineKey t off)
def State.setSide (s : State) (t off : Nat) (e : Option Side) : State :=
  { s with side := Sparse.set none s.side (lineKey t off) e }

/-! ### Far memory -/

/-- The home memory core of a virtual address (spec/02 R21). -/
def homeMc (va : Nat) : Nat := Nat.xor (va / 2 ^ 12 % 256) (va / 2 ^ 20 % 256)

/-- The context of memory core `m` bound to a tenant: its agent number (spec/07 R129). Where several contexts of the core are bound to one
tenant, which no rule forbids, the lowest-numbered serves every access of the tenant: which one does is not said (spec/02 R22, spec/07
R129; DESIGN CHOICE, log 122). -/
def State.mcFor (s : State) (m tenant : Nat) : Option Nat :=
  (List.range 8).findSome? fun c =>
    let a := numTiles + m * 8 + c
    match s.mc a with
    | some x => if x.tenant = tenant then some a else none
    | none => none

/-- A leaf that a walk found: its key in the byte map and its permissions (spec/02 R23). -/
structure Leaf where
  key : Nat
  sa  : Bool
  wr  : Bool
  rd  : Bool
  deriving DecidableEq, Repr

/-- Walk `levels` more levels of the tenant's table of memory core m, in its own channel (spec/02 R22 to R24, R374). -/
def walk (s : State) (m va : Nat) : Nat → Nat → Option Leaf
  | _, 0 => none
  | frame, n + 1 =>
    let e := getNat s (hbmBase + m * 2 ^ 31 + frame * 4096 + 8 * (va / 2 ^ (12 + 9 * n) % 512)) 8
    let w : Word := BitVec.ofNat 64 e
    let fr := field w 51 12
    if !bit w 63 then none
    else if field w 11 0 != 0 || field w 57 52 != 0 then none
    else if n ≠ 0 then
      if field w 62 58 != 0 || fr ≥ 2 ^ 19 then none else walk s m va fr n
    else
      let tier := field w 62 61
      let perm (key : Nat) : Leaf := { key := key, sa := bit w 60, wr := bit w 59, rd := bit w 58 }
      if tier = 0 then (if fr ≥ 2 ^ 19 then none else some (perm (hbmBase + m * 2 ^ 31 + fr * 4096)))
      else if tier = 1 then (if fr ≥ 2 ^ 30 || fr ≥ s.cxlFrames then none else some (perm (cxlBase + fr * 4096)))
      else none

/-- The key of a translation in the caches: memory core, tenant, page. -/
def tlbKey (m tenant va : Nat) : Nat := (m * 256 + tenant) * 2 ^ 36 + va / 4096 % 2 ^ 36

/-- A leaf packed for the translation caches, and back. -/
def Leaf.pack (l : Leaf) : Nat := l.key * 8 + (if l.sa then 4 else 0) + (if l.wr then 2 else 0) + if l.rd then 1 else 0
def Leaf.unpack (n : Nat) : Leaf := { key := n / 8, sa := n / 4 % 2 = 1, wr := n / 2 % 2 = 1, rd := n % 2 = 1 }

/-- The next choice that the spec leaves open: the head of the schedule, else the uninterpreted choice (log 1). -/
def State.choose (s : State) : Nat × State :=
  match s.schedule with
  | c :: r => (c, { s with schedule := r })
  | [] => (Config.choice s.ticks, { s with ticks := s.ticks + 1 })

/-- A fresh free value (log 5). -/
def State.freeVal (s : State) : Word × State := (Config.freeWord s.fresh, { s with fresh := s.fresh + 1 })

/-- Translations that memory core `m` has cached. -/
def tlbOf (s : State) (m : Nat) : List (Nat × Option Nat) := s.tlb.filter fun e => e.1 / 2 ^ 44 = m

/-- Room for one more translation among the 2,048 of a memory core (spec/02 R22); which one goes is left to a choice (log 1). -/
def tlbRoom (s : State) (m : Nat) : State :=
  let es := tlbOf s m
  if es.length < 2048 then s
  else
    let (c, s) := s.choose
    match es[c % es.length]? with
    | some e => { s with tlb := Sparse.erase e.1 s.tlb }
    | none => s

/-- Translate for a tenant at its home memory core (spec/02 R22 to R26): none is FARPAGE. A cached translation that no
longer agrees with the table may be used until a flush completes (R26). -/
def translate (s : State) (tenant va : Nat) : State × Option Leaf :=
  let m := homeMc va
  match s.mcFor m tenant with
  | none => (s, none)
  | some a =>
    match s.mc a with
    | none => (s, none)
    | some x =>
      let now := walk s m va x.root 4
      let k := tlbKey m tenant va
      match Sparse.get none s.tlb k with
      | none =>
        match now with
        | some l =>
          let s := tlbRoom s m
          ({ s with tlb := Sparse.set none s.tlb k (some l.pack) }, some l)
        | none => (s, none)
      | some old =>
        if now = some (Leaf.unpack old) then (s, now)
        else
          let (c, s) := s.choose
          if c % 2 = 0 then (s, some (Leaf.unpack old))
          else ({ s with tlb := Sparse.set none s.tlb k (now.map Leaf.pack) }, now)

/-- Some far word of the `n` bytes at a key is one that its expander returns poisoned (spec/20 R374). -/
def State.farBad (s : State) (key n : Nat) : Bool :=
  (List.range ((key % 8 + n + 7) / 8)).any fun i => match Sparse.get .good s.farEcc (key / 8 + i) with
    | .bad | .poisoned => true
    | .good | .single => false

/-- Write far bytes at a translated key; a word that is covered wholly is good again. -/
def State.putFar (s : State) (key : Nat) (bs : List Byte) : State :=
  { setBytes s key bs with
    farEcc := (List.range ((key % 8 + bs.length + 7) / 8)).foldl (fun m i =>
      let w := key / 8 + i
      if key ≤ 8 * w && 8 * w + 8 ≤ key + bs.length then Sparse.set .good m w .good else m) s.farEcc }

/-- A far write of `n` bytes at a key leaves a word partly as it was, and so consumes it. -/
def State.farPartBad (s : State) (key n : Nat) : Bool :=
  (key % 8 != 0 && s.farBad key 1) || ((key + n) % 8 != 0 && s.farBad (key + n - 1) 1)

end Sys2Proof.Machine
end

