-- ==== Sys2Proof/Machine/Ops.lean ====
section
/-!
DEFINITION. The named operations over registers, tasks, packets and husks: reading and writing a register, results that
become readable, outstanding operations, setting a task aside, answering an access, tile reset and husk kill, taking a
trap and returning from one.
-/

namespace Sys2Proof.Machine

open Sys2Proof

/-! ### Whose registers -/

/-- The stream that a core runs: a handler, else a level-1 task, else its level-0 task (spec/09 R150, spec/18 R335). -/
def Tile.active (u : Tile) : Option Who :=
  if u.hnd.isSome then some .hnd
  else if u.l1.isSome then some .lvl1
  else u.cur0.map .img

/-- The registers of a stream. -/
def Tile.task (u : Tile) : Who → Task
  | .img i => (u.ctx i).task
  | .lvl1 => match u.l1 with
    | some x => x.task
    | none => {}
  | .hnd => match u.hnd with
    | some x => x.task
    | none => {}

/-- Change the registers of a stream. -/
def Tile.modTask (u : Tile) (w : Who) (g : Task → Task) : Tile :=
  match w with
  | .img i => u.setCtx i { u.ctx i with task := g (u.ctx i).task }
  | .lvl1 => match u.l1 with
    | some x => { u with l1 := some { x with task := g x.task } }
    | none => u
  | .hnd => match u.hnd with
    | some x => { u with hnd := some { x with task := g x.task } }
    | none => u

/-! ### tstat (spec/18 Table 2) -/

def Task.hnd (k : Task) : Bool := bit k.tstat 48
def Task.sup (k : Task) : Bool := bit k.tstat 47
def Task.lvl (k : Task) : Bool := bit k.tstat 46
def Task.det (k : Task) : Bool := bit k.tstat 45
def Task.bst (k : Task) : Bool := bit k.tstat 44
def Task.mwo (k : Task) : Bool := bit k.tstat 41
def Task.mcnt (k : Task) : Nat := field k.tstat 40 32
def Task.schk (k : Task) : Bool := bit k.tstat 3
def Task.px (k : Task) : Bool := bit k.tstat 2
def Task.rm (k : Task) : Nat := field k.tstat 1 0
/-- The task is a member of a forwarded gang (spec/09 Table 2). -/
def Task.fwd (k : Task) : Bool := k.lid.getLsbD 19

/-- The tstat with its masked window closed (spec/15 R285). -/
def closeWindow (x : Word) : Word := setField x 41 32 0

/-! ### Registers -/

def Task.getD (k : Task) (i : Nat) : Nat := Sparse.get 0 k.d i
def Task.setD (k : Task) (i v : Nat) : Task := { k with d := Sparse.set 0 k.d i v }
def Task.getG (k : Task) (i : Nat) : Word := if i = 0 then 0 else Sparse.get 0 k.g i
def Task.setG (k : Task) (i : Nat) (v : Word) : Task := if i = 0 then k else { k with g := Sparse.set 0 k.g i v }
def Task.getW (k : Task) (i : Nat) : Word := Sparse.get 0 k.w i
def Task.setW (k : Task) (i : Nat) (v : Word) : Task := { k with w := Sparse.set 0 k.w i v }
/-- Predicate i; p7 reads 1 (spec/10 Table 6). -/
def Task.getP (k : Task) (i : Nat) : Bool := if i = 7 then true else k.p.getLsbD i
def Task.setP (k : Task) (i : Nat) (v : Bool) : Task :=
  if i ≥ 7 then k
  else
    let m : BitVec 7 := 1#7 <<< i
    { k with p := if v then k.p ||| m else k.p &&& ~~~m }

/-- Raise counter i, which 7 does not name (spec/10 R178). -/
def Task.raise (k : Task) (i : Nat) : Task := if i < 6 then k.setD i (k.getD i + 1) else k
/-- Lower counter i. -/
def Task.lower (k : Task) (i : Nat) : Task := if i < 6 then k.setD i (k.getD i - 1) else k

/-- An allowance register (spec/15 R291). -/
def Tile.allow (u : Tile) (k : Nat) : Nat := Sparse.get 32 u.al k
def Tile.setAllow (u : Tile) (k v : Nat) : Tile := { u with al := Sparse.set 32 u.al k v }

/-- A register of a stream by its id, queue ports apart (spec/10 Table 6; spec/09 R149). A pair's follower reads the
leader's cid (spec/19 R358). -/
def readReg (s : State) (t : Nat) (w : Who) (r : Nat) : Word :=
  let u := s.tile t
  let k := u.task w
  if r ≤ 0x3F then k.getG r
  else if 0x50 ≤ r && r ≤ 0x5F then BitVec.ofNat 64 (u.allow (r - 0x50))
  else if 0x60 ≤ r && r ≤ 0x67 then (if k.getP (r - 0x60) then 1 else 0)
  else if r = 0x68 then k.it.setWidth 64
  else if r = 0x69 then BitVec.ofNat 64 (s.cidOf (match u.follows with | some l => l | none => t))
  else if r = 0x6A then k.gid.setWidth 64
  else if r = 0x6B then k.lid.setWidth 64
  else if r = 0x6C then BitVec.ofNat 64 u.cyc
  else if r = 0x6D then k.ret
  else if r = 0x6E then k.tstat
  else if r = 0x6F then k.sticky
  else if 0x100 ≤ r then k.getW (r - 0x100)
  else 0

/-- Write a register of a task by its id (spec/10 Table 6, spec/11 R187, spec/18 R338): g0 and p7 ignore writes, tstat
takes RM, PX and SCHK alone, sticky its eight flags, the read-only registers nothing. -/
def writeTask (k : Task) (r : Nat) (v : Word) : Task :=
  if r ≤ 0x3F then k.setG r v
  else if 0x60 ≤ r && r ≤ 0x67 then k.setP (r - 0x60) (bit v 0)
  else if r = 0x68 then { k with it := v.setWidth 32 }
  else if r = 0x6D then { k with ret := v }
  else if r = 0x6E then { k with tstat := setField k.tstat 3 0 (field v 3 0) }
  else if r = 0x6F then { k with sticky := v &&& 0xFF }
  else if 0x100 ≤ r then k.setW (r - 0x100) v
  else k

def writeTaskAll (k : Task) : List (Nat × Word) → Task
  | [] => k
  | (r, v) :: ws => writeTaskAll (writeTask k r v) ws

/-- Merge flags into sticky by OR (spec/11 R188). -/
def Task.orFlags (k : Task) (fl : Nat) : Task := { k with sticky := k.sticky ||| BitVec.ofNat 64 (fl % 256) }

/-- One result: its writes, flags and counter. An instruction that writes sticky and raises a flag itself writes first and then merges its
flags: R188 does not say which comes first (DESIGN CHOICE, log 126). -/
def Task.result (k : Task) (ws : List (Nat × Word)) (fl lower : Nat) : Task :=
  ((writeTaskAll k ws).orFlags fl).lower lower

/-! ### Results of a stream -/

/-- An operation's place in the order of issue: that of its STAM for a delivery (spec/05 R85). -/
def Outst.order (o : Outst) : Nat := o.parent.getD o.tag

/-- Change a stream's registers, and the registers kept for a restart by every access younger than operation `tag`
(spec/06 R102) and by the checkpoint of a pair (spec/19 R359): the result of an operation that they follow is kept. -/
def Tile.apply (u : Tile) (w : Who) (tag : Nat) (g : Task → Task) : Tile :=
  let u := u.modTask w g
  let pr := u.pairing.map fun (p : Pairing) => if p.at_ = w && tag < p.base then { p with check := g p.check } else p
  let out := u.out.map fun (o : Outst) =>
    if o.who = w && tag < o.order then { o with snap := o.snap.map fun x => { x with task := g x.task } } else o
  { u with pairing := pr, out := out }

/-- Fold a register result or a store into the fingerprints of a pair: the follower executes the same instructions on the same values
(spec/19 R358, R359), and where it does not, its fingerprint differs at the close (log 25). -/
def Tile.foldFp (u : Tile) (n : Nat) (v : Word) : Tile :=
  { u with pairing := u.pairing.map fun p => { p with fp := fingerprint p.fp n v, mateFp := fingerprint p.mateFp n v } }

def Tile.foldAll (u : Tile) : List (Nat × Word) → Tile
  | [] => u
  | (r, v) :: ws => Tile.foldAll (u.foldFp r v) ws

/-- The port write of a result: a word for a push port (spec/15 R288). -/
def Tile.portWrites (u : Tile) : List (Nat × Word) → Tile
  | [] => u
  | (r, v) :: ws =>
    let u := if 0x40 ≤ r && r ≤ 0x4F then
        { u with ports := u.ports.map fun e =>
            if e.1 = r - 0x40 then (e.1, match e.2 with
              | some p => some (match p.kind with
                | .push c q st b => { p with kind := .push c q (st ++ [v]) b }
                | .pop _ _ => p)
              | none => none) else e }
      else u
    Tile.portWrites u ws

/-- The registers that an answer writes. -/
def Dst.regs : Dst → List Nat
  | .none => []
  | .reg r _ | .word r | .ageq r => if r = 0 then [] else [r]
  | .block rs => rs.map wId
  | .lda rs g => if g = 0 then rs.map wId else g :: rs.map wId

/-- The registers that a queued matrix instruction will write (spec/14 R249). -/
def MQ.writes (q : MQ) : List Nat :=
  match q.i with
  | .mdrain f => (blockRegs f.dest.toNat f.h f.wd).map wId
  | .mloadz f => loadzRegs f
  | .mstat f | .mstatClr f => if f.dest = 0 || f.dest = 0x67 then [] else [f.dest.toNat]
  | _ => []

/-- Flags that operation `tag` raises are added after the write of `sticky` by an earlier instruction that has not been made yet:
that write replaces the flags raised before it and loses none raised later (spec/11 R188). -/
def Tile.passFlags (u : Tile) (w : Who) (tag fl : Nat) : Tile :=
  if fl = 0 then u
  else
    let hits (ws : List (Nat × Word)) : Bool := ws.any fun x => x.1 = 0x6F
    let job (j : Job) : Job := if j.who = w && j.tag < tag && hits j.writes then { j with flags := Nat.lor j.flags fl } else j
    { u with
      pend := u.pend.map fun p => if u.active = some w && p.seq < tag && hits p.writes then { p with flags := Nat.lor p.flags fl } else p
      out := u.out.map fun o => if o.who = w && o.tag < tag && o.dst.regs.contains 0x6F then { o with flags := Nat.lor o.flags fl } else o
      divider := u.divider.map job, reduction := u.reduction.map job
      matrix := { u.matrix with queue := u.matrix.queue.map fun q =>
        if q.who = w && q.tag < tag && q.writes.contains 0x6F then { q with flags := Nat.lor q.flags fl } else q } }

/-- The result of operation `tag` of a stream: its writes, flags and counter, in one step (spec/11 R188, spec/10 R176 to R178). -/
def Tile.deliver (u : Tile) (w : Who) (tag : Nat) (ws : List (Nat × Word)) (fl lower : Nat) : Tile :=
  ((((u.apply w tag fun k => k.result ws fl lower).passFlags w tag fl).portWrites ws).foldAll ws)

/-- What a pair's follower folds where it writes other values than its leader (spec/19 R358). -/
def Tile.foldMate (u : Tile) (fp : Word) (ws : List (Nat × Word)) : Tile :=
  if ws.isEmpty then u
  else { u with pairing := u.pairing.map fun p => { p with mateFp := ws.foldl (fun a e => fingerprint a e.1 e.2) fp } }

/-- Write one pending result (spec/10 R176 to R178). -/
def Tile.commit (u : Tile) (w : Who) (p : Pend) : Tile :=
  (u.deliver w p.seq p.writes p.flags p.lower).foldMate ((u.pairing.map (·.mateFp)).getD 0) p.mate

/-- The result of a division or a reduction. -/
def Tile.finishJob (u : Tile) (j : Job) : Tile := u.deliver j.who j.tag j.writes j.flags j.lower

def Tile.commitAll (u : Tile) (w : Who) : List Pend → Tile
  | [] => u
  | p :: ps => Tile.commitAll (u.commit w p) w ps

/-- Finish a reduction at once: it has issued, so it writes its results before its task stops (spec/13 R224). -/
def Tile.finishReduction (u : Tile) : Tile :=
  match u.reduction with
  | some j => { u with reduction := none }.finishJob j
  | none => u

/-- Every result of the running stream is written (spec/13 R224, spec/25 R394). -/
def Tile.flush (u : Tile) : Tile :=
  match u.active with
  | some w => ({ u with pend := [] }.commitAll w u.pend).finishReduction
  | none => u

/-- A register as a block beat at cycle `c` reads it: a result readable by then counts (spec/10 R176). -/
def readAt (s : State) (t : Nat) (w : Who) (r c : Nat) : Word :=
  match (s.tile t).pend.find? fun p => p.due ≤ c && p.writes.any fun x => x.1 = r with
  | some p => (match p.writes.find? fun x => x.1 = r with
    | some x => x.2
    | none => 0)
  | none => readReg s t w r

/-! ### Packets -/

/-- The bytes that an operation touches. -/
def opLen : MemOp → Nat
  | .load n | .store n _ | .ldf n | .ldfe n | .stf n _ | .stef n _ => n
  | .amo _ n _ _ => n / 8
  | .loadBlock n => 8 * n
  | .storeBlock ws => 8 * ws.length
  | .engine ws => 8 * ws.length
  | .setf | .sete => 8
  | .lda _ _ _ | .sta _ _ | .ageq => 64

/-- The operation modifies its home: it carries a tag that is logged (spec/04 R63) and is counted (spec/06 R109). -/
def opModifies (op : MemOp) : Bool :=
  match op with
  | .load _ | .loadBlock _ | .ldf _ | .lda _ _ _ | .ageq => false
  | _ => true

/-- Where packets to a memory core, a channel, the group scheduler go. -/
def mcDst (m : Nat) : Nat := numTiles + m * 8
def chDst (c : Nat) : Nat := 5000 + c
def schedDst : Nat := 6000
/-- The numbers under which the counts of spec/04 R68 know another package. -/
def chipDst (chip : Nat) : Nat := 10000 + chip

/-- Append a packet. -/
def State.send (s : State) (p : Packet) : State :=
  { s with net := s.net ++ [{ p with id := s.nextId }], nextId := s.nextId + 1 }

/-- A packet on the line channel `line` or, with none, on no channel. -/
def mkPacket (src dst tag : Nat) (chan : Option Nat) (body : Body) : Packet :=
  { id := 0, src := src, dst := dst, tag := tag, chan := chan, body := body }

/-- The channel of a line, and the ordered class (spec/04 R51, R65). -/
def lineChan (off : Nat) : Option Nat := some (1 + off / 64)
def orderedChan : Option Nat := some 0

/-- Answer an access: to a core of this package, to another package, or to no one (a channel sees its word done). -/
def State.answer (s : State) (home : Nat) (q : Asker) (a : Answer) : State :=
  match q with
  | .core g tag _ => s.send (mkPacket home g tag none (.reply a))
  | .remote chip core tag =>
    { s with egress := s.egress ++ [{ chip := chip, src := core, tag := tag, path := 0, addr := 0, op := none, ans := some a }] }
  | .channel ch _ =>
    match a with
    | .fault c =>
      let x := Sparse.get {} s.channels ch
      { s with channels := Sparse.set {} s.channels ch { x with fault := some (x.fault.getD (c, 0)) } }
    | _ => s

def State.drop (s : State) (k : Nat) : State := { s with net := s.net.filter fun p => p.id != k }
def State.packet (s : State) (k : Nat) : Option Packet := s.net.find? fun p => p.id = k
/-- Mark a packet refused: its NI retries it unaided (spec/04 R59, spec/15 R269). -/
def State.refuse (s : State) (k hint : Nat) : State :=
  { s with net := modifyFirst (fun p => p.id = k) (fun p => { p with refused := true, hint := hint }) s.net }

/-- The lines after the first one that `n` bytes at `off` reach. -/
def lineSpan (off n : Nat) : Nat := (off % 64 + n - 1) / 64

/-- The bytes of its home's slice that a packet's access, flag or delivery touches: offset and number. -/
def Body.bytes : Body → Option (Nat × Nat)
  | .access off op _ _ | .multicast off op _ _ _ => some (off, opLen op)
  | .flag off n _ _ _ _ => some (off, n)
  | .mirror off _ _ _ => some (off, 64)
  | _ => none

/-- `n` bytes at `a` and `m` bytes at `b` have a word in common. -/
def wordsMeet (a n b m : Nat) : Bool := a / 8 ≤ (b + m - 1) / 8 && b / 8 ≤ (a + n - 1) / 8

/-- The packet touches a word of the bytes [off, off + n). -/
def Packet.touches (p : Packet) (off n : Nat) : Bool := p.body.bytes.any fun e => wordsMeet e.1 e.2 off n

/-- The channels of two packets meet: the ordered class, or a common line (spec/04 R51, R65). -/
def Packet.meets (p q : Packet) : Bool :=
  match p.chan, q.chan with
  | some a, some b => a ≤ b + q.span && b ≤ a + p.span
  | _, _ => false

/-- No earlier packet of the same source and destination whose channel meets it is still in flight (spec/04 R51, R65). -/
def deliverable (net : List Packet) (k : Nat) : Bool :=
  match net.find? fun p => p.id = k with
  | none => false
  | some p => (net.takeWhile fun q => q.id != k).all fun q =>
      !((q.src = p.src || q.merged.any fun m => m.src = p.src) && q.dst = p.dst && q.meets p)

/-! ### Pods and waiting tasks -/

/-- Records of the pod pool in use (spec/15 R269). -/
def Tile.poolUsed (u : Tile) : Nat :=
  (u.ready.filter fun e => match e with
    | .free p => !p.initial
    | .bound _ => false).length
  + (u.wake.filter fun e => match e.2.pod with
    | .free _ => true
    | _ => false).length
  + (u.l1q.filter fun x => !x.undo).length

/-- An outstanding operation holds a release or `FENCE.S` (spec/06 R115, R128, spec/04 R398): `sys` says whether the
reach takes in other packages, else it is enough that no more answers than those of other packages are awaited; `parked` says
whether a full/empty access parked at its home counts. -/
def Outst.holdsAcks (o : Outst) (sys parked : Bool) : Bool :=
  match o.kind with
  | .load => true
  | .store | .atomic | .delivery => sys || (!o.remote && o.far < o.acks)
  | .fullEmpty => (sys || !o.remote) && (parked || !o.parked)
  | .request => parked && !o.parked
  | .other => false

/-- The stream still owes the acknowledgements that the wait is for. -/
def Tile.owes (u : Tile) (w : Who) (sys parked : Bool) : Bool :=
  u.out.any (fun o => o.who = w && o.holdsAcks sys parked)
    || u.matrix.queue.any (fun q => q.who = w && match q.i with
      | .mrbuf _ | .mrbufBc _ | .mloadb _ | .mrestore _ | .msave _ | .msaveFree _ => true
      | _ => false)

/-- Registers with a pending write: fixed latency, outstanding, divider, reduction, matrix queue. -/
def Tile.pendingRegs (u : Tile) (w : Who) : List Nat :=
  (if u.active = some w then (u.pend.map fun p => p.writes.map (·.1)).flatten else [])
    ++ ((u.out.filter (·.who = w)).map fun o => o.dst.regs).flatten
    ++ (match u.divider with
      | some j => if j.who = w then j.writes.map (·.1) else []
      | none => [])
    ++ (match u.reduction with
      | some j => if j.who = w then j.writes.map (·.1) else []
      | none => [])
    ++ ((u.matrix.queue.filter (·.who = w)).map MQ.writes).flatten

/-- The registers that variable-latency operations will write (spec/06 R104). -/
def Tile.awaitedRegs (u : Tile) (w : Who) : List Nat :=
  ((u.out.filter (·.who = w)).map fun o => o.dst.regs).flatten

/-- The stream still awaits the acknowledgement of a store of its own to an instruction store (spec/12 R220). -/
def Tile.owesCode (u : Tile) (w : Who) : Bool := u.out.any fun o => o.who = w && field o.addr 63 56 == 0x02 && o.kind == .store

/-- Every counter of a mask reads zero (spec/10 R178). -/
def Task.maskClear (k : Task) (m : BitVec 6) : Bool := (List.range 6).all fun i => !(m.getLsbD i) || k.getD i == 0

/-- The wait of a set-aside task is over (spec/15 Table 2), or a pending fault is taken where it waits (spec/05 R79). Counters of
the scheduler ready their pods themselves. -/
def waitOver (s : State) (t i : Nat) (x : WaitOn) : Bool :=
  let u := s.tile t
  let k := (u.ctx i).task
  match x with
  | .counters m => k.maskClear m || k.late.any fun l => l.at_ = .use && l.counter < 6 && m.getLsbD l.counter
  | .regs rs => !(rs.any (u.pendingRegs (.img i)).contains) || k.late.any fun l => l.at_ = .use && l.dests.any rs.contains
  | .acks sys parked | .fence sys parked => !(u.owes (.img i) sys parked) || !k.late.isEmpty
  | .code => !(u.owesCode (.img i))
  | .acquire => !(u.out.any fun o => o.who = .img i && o.acquire)
  | .accepted tag => !(u.out.any fun o => o.tag = tag)
  | .counter _ => false
  | .allowance al n => n ≤ u.allow al
  | .queue q => !(u.hqueue q).slot.isEmpty
  | .phase n => s.cohorts.any fun (c : Cohort) => n ≤ c.phase && (match s.husk c.tenant with
      | some h => h.col0 + c.x ≤ tileX t && tileX t < h.col0 + c.x + c.w && h.row0 + c.y ≤ tileY t && tileY t < h.row0 + c.y + c.h
      | none => false)
  | .window n => n < u.det.handled
  | .undo => false
  | .slot => !((List.range 8).any fun j => (u.ctx j).boost.active) && u.undo.isNone

/-- Move every task whose wait is over to the ready list, in image order (spec/06 R104, spec/15 R272). -/
def wakeWaiting (s : State) (t : Nat) : State :=
  (List.range 8).foldl (fun s i =>
    match (s.tile t).ctx i with
    | { st := .waiting x, .. } =>
      if waitOver s t i x then
        s.modTile t fun u => { u.setCtx i { u.ctx i with st := .ready } with ready := u.ready ++ [.bound i] }
      else s
    | _ => s) s

/-- The first member of a pair has been performed and keeps the issue for its beats, whatever its second member does (spec/10 R175). -/
def Tile.payPair (u : Tile) : Tile := { u with cyc := u.cyc + if u.pairNext then u.pairBeats else 0, pairBeats := 0 }

/-- An instruction that leaves the stream with `stall` cycles of its own takes the issue for its cycle, or for the beats of the pair that
it ends (spec/10 R175). -/
def Tile.payIssue (u : Tile) (stall : Nat) : Tile :=
  { u with cyc := u.cyc + max 1 (if u.pairNext then u.pairBeats else 1) + stall, pairNext := false, pairBeats := 0 }

/-- Set the running level-0 task aside: its results are written, its image keeps its registers (spec/15 R272). -/
def setAside (s : State) (t : Nat) (st : CtxState) : State :=
  s.modTile t fun u =>
    match u.cur0 with
    | some i =>
      let inside := !u.atLine
      let u := (if u.active = some (.img i) then u.flush else u).payPair
      let c := u.ctx i
      let u := { u.setCtx i { c with st := st, check := c.check || u.checkTo, task := { c.task with mid := inside } } with
        cur0 := none, line := none, pairNext := false, atLine := true, checkTo := false, held := false }
      if st = .ready then { u with ready := u.ready ++ [.bound i] } else u
    | none => u

/-- Record a late fault or note of a stream, with the instruction at which the stream is held. -/
def addLate (s : State) (t : Nat) (w : Who) (l : Late) : State :=
  s.modTile t fun u => u.modTask w fun k =>
    { k with late := k.late ++ [{ l with heldAt := if u.active = some w && !u.held then none else some k.pc }] }

/-! ### Counts of ordered flags (spec/04 R68, R69, spec/26 R395, R396) -/

/-- The path of a request's line towards a destination (spec/04 R68, spec/20 R367). -/
def pathOf (dst line : Nat) : Nat := Config.pathHash dst line % 8

/-- Sources of other packages, and the package as a destination, in the counts. -/
def remoteSrc (chip core : Nat) : Nat := 2 ^ 20 + chip * 2 ^ 16 + core
def packageDst : Nat := 65535

/-- A tile of husk `n` as the home that another package's request names, whatever tile of the package it is at the time; `n` is 256 where
the request reaches no husk. -/
def homeKey (n x y : Nat) : Nat := 2 ^ 20 + n * 2 ^ 12 + y % 64 * 64 + x % 64

/-- The arrival count key of a source, a destination and a path. -/
def countKey (src dst path : Nat) : Nat := (src * 2 ^ 16 + dst) * 8 + path % 8
/-- The key of an epoch: how many flags the source had sent to the destination before. -/
def epochKey (src dst epoch : Nat) : Nat := (src * 2 ^ 16 + dst) * 2 ^ 16 + epoch % 2 ^ 16

/-- Count a request that was performed or refused; a refused one poisons its epoch. -/
def State.countArrival (s : State) (src dst path epoch : Nat) (bad : Option (Cause × Word)) : State :=
  let k := countKey src dst path
  let s := { s with arrivals := Sparse.set 0 s.arrivals k ((Sparse.get 0 s.arrivals k + 1) % 2 ^ 16) }
  let e := epochKey src dst epoch
  match bad with
  | some x => if (Sparse.get none s.epochs e).isSome then s else { s with epochs := Sparse.set none s.epochs e (some x) }
  | none => s

/-- The counts of a tile's own traffic restart with it; those towards and from other packages run on (log 16). -/
def State.dropCounts (s : State) (t : Nat) : State :=
  { s with
    arrivals := s.arrivals.filter fun e => e.1 / 2 ^ 19 != t && (2 ^ 20 ≤ e.1 / 2 ^ 19 || e.1 / 8 % 2 ^ 16 != t)
    epochs := s.epochs.filter fun e => e.1 / 2 ^ 32 != t && (2 ^ 20 ≤ e.1 / 2 ^ 32 || e.1 / 2 ^ 16 % 2 ^ 16 != t) }

/-- The source and the destination of a packet in the counts of spec/04 R68. -/
def Packet.countSrc (p : Packet) : Nat :=
  match p.remote with
  | some (chip, core, _) => remoteSrc chip core
  | none => p.src
def Packet.countDst (p : Packet) : Nat := if p.remote.isSome then packageDst else p.dst

/-- The home that a tile is to other packages. -/
def State.homeName (s : State) (t : Nat) : Nat :=
  match s.huskOfTile t with
  | some (n, h) => homeKey n (tileX t - h.col0) (tileY t - h.row0)
  | none => t

/-- Keep the tag of a modifying request of another package with its answer: the last 256 of each source at a home
(spec/04 R63). -/
def logTag (s : State) (src home tag : Nat) (a : Answer) : State :=
  let same (e : Nat × Nat × Nat × Answer) : Bool := e.1 = src && e.2.1 = home
  let log := if 256 ≤ (s.tagLog.filter same).length then eraseFirst same s.tagLog else s.tagLog
  { s with tagLog := log ++ [(src, home, tag, a)] }

/-- The last thing that has left carries `n` allowance units back. -/
def withUnits (s : State) (n : Nat) : State :=
  { s with egress := match s.egress.reverse with
      | e :: r => ({ e with units := n } :: r).reverse
      | [] => [] }

/-- The region 0x01 address of a byte of this package's tile (x, y) of a husk. -/
def State.outsideAddr (s : State) (x y off : Nat) : Word :=
  BitVec.ofNat 64 (2 ^ 56 + s.chip * 2 ^ 33 + y % 64 * 2 ^ 27 + x % 64 * 2 ^ 21 + off % 2 ^ 21)

/-- What a flag that is refused for `a` is answered: in a poisoned epoch it is discarded, with the fault of the epoch (spec/04 R69,
spec/26 R396). -/
def State.flagAnswer (s : State) (key : Nat) (a : Answer) : Answer :=
  match Sparse.get none s.epochs key with
  | some (c, b) => .dropped c b
  | none => a

/-! ### Tile reset and husk kill -/

/-- The record of a tile after a tile reset (spec/03 R30): svec, slice and ctxbase stay; `cyc` restarts. The number of the
next operation runs on, so that an answer in flight finds no operation, and so do the counts towards other packages
(log 16). -/
def Tile.afterReset (u : Tile) : Tile :=
  { svec := u.svec, slice := u.slice, ctxbase := u.ctxbase, seq := u.seq
    sent := u.sent.filter fun e => chipDst 0 * 8 ≤ e.1 }

/-- Tile reset (spec/03 R30). -/
def resetTile (s : State) (t : Nat) : State :=
  let s := (s.setTile t (s.tile t).afterReset).dropCounts t
  { s with
    mem := Sparse.clearRange (Sparse.clearRange s.mem (sliceKey t 0) (sliceKey (t + 1) 0)) (istoreKey t 0) (istoreKey t 0 + 65536)
    empt := Sparse.clearRange s.empt (wordKey t 0) (wordKey (t + 1) 0)
    ecc := Sparse.clearRange s.ecc (wordKey t 0) (wordKey (t + 1) 0)
    side := Sparse.clearRange s.side (lineKey t 0) (lineKey (t + 1) 0)
    marked := Sparse.clearRange s.marked (lineKey t 0) (lineKey (t + 1) 0)
    heldFlags := s.heldFlags.filter fun f => f.dst != t }

/-- Husk reset: a tile reset of every tile of the husk (spec/03 R30). -/
def resetHusk (s : State) (h : Husk) : State := h.tiles.foldl resetTile s

/-- The final status of an abandoned or finished launch (spec/16 Table 6). -/
def statusWord (state reason retired : Nat) : Word :=
  BitVec.ofNat 64 (state * 2 ^ 60 + reason * 2 ^ 56 + retired % 2 ^ 21)

/-- Keep the status of the 64 most recently finished launches of a husk (spec/16 R306). -/
def Husk.keep (h : Husk) (serial : Nat) (w : Word) : Husk :=
  { h with kept := ((serial, w) :: (h.kept.filter fun e => e.1 != serial)).take 64 }

/-- A queued or live launch is abandoned: the state KILLED (spec/16 R306, R311). -/
def Husk.abandon (h : Husk) : Husk :=
  let ls := (h.queues.map (·.2)).flatten
  ls.foldl (fun h l => h.keep l.serial (statusWord 5 0 l.retired)) { h with queues := [] }

/-- Waiters that outsiders had parked at a killed husk's tiles complete with WSTOP (spec/05 R82). -/
def stopOutsiders (s : State) (t : Nat) : State :=
  (s.tile t).waiters.foldl (fun s w => match w.asker with
    | .remote _ _ _ => s.answer t w.asker (.fault .wstop)
    | _ => s) s

/-- What a request of another package is about: the offset at its home, and whether it is a delivery to a group, whose tag is kept though
it is not counted. -/
def Body.request : Body → Nat × Bool
  | .access off _ _ _ => (off, false)
  | .multicast off _ _ _ _ | .mirror off _ _ _ => (off, true)
  | .stop _ _ _ => (0, true)
  | _ => (0, false)

/-- An ordered flag of another package. -/
def Packet.outsideFlag (p : Packet) : Bool := p.remote.isSome && match p.body with
  | .flag _ _ _ _ _ _ => true
  | _ => false

/-- A flag of another package whose husk on `tiles` has been killed waits at the package, which refuses it once its counts have been
reached (spec/04 R68, R69, spec/26 R396; log 62). The husk is `n`, `origin` the tile at its origin. -/
def Packet.toPackage (n origin : Nat) (tiles : List Nat) (p : Packet) : Packet :=
  if p.outsideFlag && tiles.contains p.dst
  then { p with dst := homeKey n (tileX p.dst - tileX origin) (tileY p.dst - tileY origin), chan := none, refused := false } else p

/-- A request of another package, no flag, that finds its husk killed: WINDOW, which counts and poisons its epoch as a refusal at the
gateway does (spec/04 R69, spec/26 R395). Its tag is kept (R63) and its allowance unit goes back (spec/15 R292). `origin` is the tile at
the origin of the husk, `n`. -/
def refuseOutsider (s : State) (n origin : Nat) (p : Packet) : State :=
  match p.remote with
  | none => s
  | some (chip, core, tag) =>
    if p.outsideFlag then s
    else
      let (off, group) := p.body.request
      let (x, y) := (tileX p.dst - tileX origin, tileY p.dst - tileY origin)
      let src := remoteSrc chip core
      let a : Answer := .fault .window
      let bad := (Cause.window, s.outsideAddr x y off)
      let s := if p.counted then s.countArrival src packageDst p.path p.epoch (some bad) else s
      let s := if p.counted || group then logTag s src (homeKey n x y) tag a else s
      let s := s.answer p.dst (.remote chip core tag) a
      if p.counted then withUnits s 1 else s

/-- A count of what has been sent falls by one. -/
def Tile.sentLess (u : Tile) (k : Nat) : Tile := { u with sent := Sparse.set 0 u.sent k ((Sparse.get 0 u.sent k + 2 ^ 16 - 1) % 2 ^ 16) }

/-- What an NI still held for another package and drops has not been sent: its count, and the epoch that a flag had begun, are taken back
(spec/04 R68, spec/26 R395, R396). -/
def Tile.unsend (u : Tile) (e : Egress) : Tile :=
  if e.group.isSome || !(e.op.any opModifies) then u
  else
    let u := u.sentLess (chipDst e.chip * 8 + e.path)
    if e.counts.isEmpty then u else u.sentLess (2 ^ 24 + chipDst e.chip)

/-- Kill a husk (spec/18 Table 6, spec/05 R82, spec/16 R306, spec/19 R361): routers closed, cores stopped, launches
abandoned, copies and request programs abandoned (spec/07 R141), tiles reset; the husk stays defined and fenced. What had
left for other places is performed there; what its NIs still held (a pair's interval, a back-off, a re-issue's followers) does not
leave, and was not sent. -/
def killHusk (s : State) (n : Nat) : State :=
  match s.husk n with
  | none => s
  | some h =>
    let tiles := if h.holds then h.tiles else []
    let s := tiles.foldl stopOutsiders s
    let away := Packet.toPackage n (h.tileAt 0 0) tiles
    let s := s.net.foldl (fun s p => if tiles.contains p.dst then refuseOutsider s n (h.tileAt 0 0) p else s) s
    let s := (s.saved.filter fun x => x.tenant = n).foldl (fun s x =>
      let s := (x.tiles.map fun y => y.rec_.waiters).flatten.foldl (fun s w => s.answer packageDst w.asker (.fault .wstop)) s
      let old := x.tiles.map (·.old)
      let s := x.net.foldl (fun s p => refuseOutsider s n (old.headD 0) p) s
      let away := Packet.toPackage n (old.headD 0) old
      { s with
        net := s.net ++ (x.net.filter Packet.outsideFlag).map away
        heldFlags := s.heldFlags ++ (x.flags.filter Packet.outsideFlag).map away }) s
    let s := match h.job with
      | some j => s.send (mkPacket schedDst j.agent j.tag none (.reply (.data [2] 0)))
      | none => s
    let buffered := (tiles.map fun t => match (s.tile t).pairing with
      | some p => p.buf.flatten
      | none => []).flatten
    let kept (e : Egress) : Bool := e.held || e.behind
    let s := (s.egress.filter fun e => kept e && tiles.contains e.src).foldl (fun s e => s.modTile e.src fun u => u.unsend e) s
    let s := { s with
      heldFlags := s.heldFlags.map away
      net := (s.net.map away).filter fun p => !(tiles.contains p.dst) && !(tiles.contains p.src && (p.dst = schedDst || p.refused
        || buffered.contains p.id || (match p.body with
          | .farreq _ | .aperture _ _ => true
          | _ => false)))
      egress := s.egress.filter fun e => !(kept e && (tiles.contains e.src || s.channels.any fun c =>
        e.src = chDst c.1 && c.2.active.any fun x => x.tenant = n))
      cohorts := s.cohorts.filter fun c => c.tenant != n
      slots := s.slots.filter fun e => match e.2 with
        | some x => x.tenant != n
        | none => false
      saved := s.saved.filter fun x => x.tenant != n
      channels := s.channels.map fun e =>
        let next := e.2.shadow.filter fun x => x.tenant != n
        (e.1, if e.2.active.any fun x => x.tenant = n then ({ active := next, no := e.2.no + 1 } : Channel)
          else { e.2 with shadow := next })
      mcs := s.mcs.map fun e => (e.1, e.2.map fun x => if x.tenant = n then { x with queue := [], run := none } else x)
      tiles := s.tiles.map fun e =>
        if numTiles ≤ e.1 && (match s.mc e.1 with
          | some x => x.tenant = n
          | none => false) then (e.1, ({ seq := e.2.seq } : Tile)) else e }
    let s := if h.holds then resetHusk s h else s
    s.setHusk n (some { h.abandon with st := .killed, digest := none, job := none, away := !h.holds })

/-- A consumed uncorrectable word kills the husk of the tile (spec/03 R39, spec/19 R361). -/
def eccuKill (s : State) (t : Nat) : State :=
  match s.huskOfTile t with
  | some (n, _) => killHusk s n
  | none => s

/-! ### The checkpoint of a pair (spec/19 R359) -/

/-- At an agreed point the pair's checkpoint is that of the stream that the core runs; the follower holds a copy of the
paired context. -/
def recheck (s : State) (t : Nat) : State :=
  let u := s.tile t
  match u.pairing, u.active with
  | some p, some w =>
    let i := match w with
      | .img i => i
      | _ => p.img
    let s := s.setTile t { u with
      pairing := some { p with
        at_ := w, check := { u.task w with mid := !u.atLine }, checkBoost := (u.ctx i).boost, base := u.seq } }
    s.modTile p.mate fun v => v.setCtx 0 (u.ctx p.img)
  | _, _ => s

/-! ### Traps -/

/-- The code of a cause (spec/18 Table 1). -/
def causeCode : Cause → Nat
  | .illeg => 0x01 | .badtgt => 0x02 | .ipar => 0x03 | .stall => 0x04 | .priv => 0x05 | .tretout => 0x06
  | .badstat => 0x07 | .brkpt => 0x08 | .huskbnd => 0x10 | .region => 0x11 | .align => 0x12 | .istore => 0x13
  | .farpage => 0x14 | .window => 0x15 | .boostwr => 0x16 | .eccu => 0x17 | .stale => 0x20 | .wstop => 0x21
  | .stawr => 0x22 | .scaleseq => 0x28 | .mchk => 0x29 | .mbusy => 0x2A | .arith => 0x30 | .fwddiv => 0x38
  | .masklong => 0x39 | .btbl => 0x40 | .pairfail => 0x48 | .trap c => c.toNat

/-- The value of EADDR that the spec leaves open: for a cause without an address or argument (spec/18 R335; log 5). -/
def Tile.openAddr (u : Tile) (t : Nat) : Word := Config.freeWord (2 ^ 65 + u.seq * 2 ^ 12 + t)

/-- A cause for which R335 names no content of EADDR. -/
def causeOpen : Cause → Bool
  | .illeg | .ipar | .tretout | .badstat | .mbusy | .fwddiv | .masklong | .pairfail => true
  | _ => false

/-- Route S of spec/18 Table 1. -/
def causeRouteS : Cause → Bool
  | .ipar | .mchk | .btbl | .pairfail => true
  | _ => false

/-- ECAUSE (spec/18 Table 3). -/
def ecauseWord (c : Cause) (late fdrop note supr nest : Bool) : Word :=
  BitVec.ofNat 64 (causeCode c + (if nest then 2 ^ 8 else 0) + (if supr then 2 ^ 12 else 0) + (if note then 2 ^ 13 else 0)
    + (if fdrop then 2 ^ 14 else 0) + if late then 2 ^ 15 else 0)

/-- The stream that leaves at `epc`, standing at `pc`, leaves its line in the middle. -/
def Tile.leavesLine (u : Tile) (pc epc : Word) : Bool := if epc = pc then !u.atLine else epc.toNat / 8 = pc.toNat / 8

/-- Taking a trap: entry of a handler, nested entry, or kill of the husk (spec/18 R333, R335, R337). `epc` is the saved
PC, `supRoute` asks for the supervisor vector beside the cause's own route (TRAP.s). R335 gives no gid and no lid of a handler: it
reads the interrupted task's gid and a lid of 0 (DESIGN CHOICE, log 79). -/
def takeTrap (s : State) (t : Nat) (c : Cause) (epc addr : Word) (late fdrop note supRoute : Bool) : State :=
  let u := s.tile t
  let eaddr := if causeOpen c then u.openAddr t else addr
  match u.active with
  | none => s
  | some .hnd =>
    match u.hnd with
    | none => s
    | some h =>
      let vec := if bit h.ecause 12 then u.svec else u.tvec
      if bit h.ecause 8 || !bit vec 63 then eccuKill s t
      else
        let ec := setField (setField h.ecause 7 0 (causeCode c)) 8 8 1
        let inside := u.leavesLine h.task.pc epc
        let u := u.flush.payPair
        match u.hnd with
        | none => s
        | some h =>
          let k := { ((h.task.setG 1 ec).setG 2 eaddr) with pc := vec &&& 0x1FFF, mid := inside }
          recheck (s.setTile t { u with
            hnd := some { h with ecause := ec, eaddr := eaddr, hepc := epc, task := k }, seq := u.seq + 1
            line := none, pairNext := false, atLine := true, checkTo := false, held := false }) t
  | some w =>
    let k := u.task w
    let supr := causeRouteS c || supRoute || k.sup || !bit u.tvec 63
    let vec := if supr then u.svec else u.tvec
    if !bit vec 63 then eccuKill s t
    else
      let inside := u.leavesLine k.pc epc
      let u := u.flush.payPair.modTask w fun k => { k with pc := epc, tstat := closeWindow k.tstat, mid := inside }
      let k := u.task w
      let ec := ecauseWord c late fdrop note supr false
      let hk : Task :=
        { pc := vec &&& 0x1FFF, it := k.it, gid := k.gid, lid := 0
          tstat := BitVec.ofNat 64 (2 ^ 48 + (if supr then 2 ^ 47 else 0) + 2 ^ 46 + (if k.det then 2 ^ 45 else 0)
            + if k.bst then 2 ^ 44 else 0)
          g := (({} : Task).setG 1 ec |>.setG 2 eaddr).g }
      recheck (s.setTile t { u with
        hnd := some { task := hk, epc := epc, estat := k.tstat, ecause := ec, eaddr := eaddr, of_ := w }, seq := u.seq + 1
        line := none, pairNext := false, atLine := true, checkTo := false, held := false }) t

/-- The reserved bits of tstat (spec/18 Table 2). -/
def tstatReserved (x : Word) : Bool := field x 63 49 != 0 || field x 43 42 != 0 || field x 31 4 != 0

/-- Return from a handler (spec/18 R347): the interrupted context takes ESTAT whole as its tstat (DEDUCED, log 103) and resumes at EPC,
still inside its line if it left it there. -/
def returnTrap (s : State) (t : Nat) : State :=
  let u := s.tile t
  match u.hnd with
  | none => s
  | some h =>
    let u := u.flush
    let k := u.task h.of_
    let u := { u with
      hnd := none, line := none, pairNext := false, checkTo := false, held := false
      atLine := !(k.mid && h.epc.toNat / 8 = k.pc.toNat / 8) }
    recheck (s.setTile t (u.modTask h.of_ fun k => { k with pc := h.epc, tstat := h.estat })) t

/-- A nested handler goes on at HEPC (spec/18 R347). -/
def continueHandler (s : State) (t : Nat) : State :=
  recheck (s.modTile t fun u =>
    let u := u.flush
    match u.hnd with
    | none => u
    | some h => { u with
        hnd := some { h with ecause := setField h.ecause 8 8 0, task := { h.task with pc := h.hepc } }
        line := none, pairNext := false, atLine := !h.task.mid, checkTo := false, held := false }) t

/-! ### Completions -/

/-- Extension of a loaded value into 64 bits (spec/06 Table 1). -/
def extendLoad (ty : Ty) (v : Nat) : Word :=
  if ty.signed then sext64 ty.bits v else BitVec.ofNat 64 (v % 2 ^ ty.bits)

/-- The register writes of an answer's data. -/
def Dst.writes (d : Dst) (ws : List Word) (age : BitVec 32) : List (Nat × Word) :=
  let v : Word := match ws with
    | x :: _ => x
    | [] => 0
  match d with
  | .none => []
  | .reg r ty => [(r, extendLoad ty v.toNat)]
  | .word r => [(r, v)]
  | .block rs => (rs.map wId).zip ws
  | .lda rs g => (rs.map wId).zip ws ++ [(g, age.setWidth 64)]
  | .ageq g => [(g, v)]

/-- The record of a push port has been answered: the port takes the next one (spec/15 R288). -/
def Tile.portDone (u : Tile) (n : Option Nat) : Tile :=
  match n with
  | none => u
  | some n => { u with ports := u.ports.map fun e =>
      if e.1 = n then (e.1, e.2.map fun p => match p.kind with
        | .push c q st _ => { p with kind := .push c q st false }
        | .pop _ _ => p) else e }

/-- An outstanding operation is over: its writes are made, its counter lowered (spec/06 R101). -/
def finishOut (s : State) (t : Nat) (o : Outst) (ws : List (Nat × Word)) : State :=
  let s := s.modTile t fun u =>
    ({ u with out := u.out.filter fun x => x.tag != o.tag }.deliver o.who o.tag ws o.flags o.lower).portDone o.port
  wakeWaiting s t

/-- A stream that is put back into line `no` has not left it: neither a gang's member the line at the head of its buffer, nor its leader the
line that it has forwarded last (spec/06 R102, spec/09 R152). -/
def Tile.reopen (u : Tile) (no : Nat) : Tile :=
  match u.fwd with
  | x :: r => if x.no = no then { u with fwd := { x with left := false, closed := false } :: r } else u
  | [] => u

/-- The younger operations of the line are forgotten, and the registers and counts put back as they were before operation `o`: their
results and faults are discarded (spec/06 R102). -/
def Tile.dropYounger (u : Tile) (o : Outst) : Tile :=
  let older (j : Job) : Bool := j.who != o.who || j.tag < o.order
  let u := if (u.task o.who).fwd && u.cur0.map .img = some o.who then u.reopen (o.pc.toNat / 8) else u
  let u := { u with
    out := u.out.filter fun x => x.who != o.who || x.order < o.order
    pend := if u.active = some o.who then u.pend.filter fun p => p.seq < o.order else u.pend
    divider := u.divider.filter older, reduction := u.reduction.filter older }
  match o.snap with
  | some x =>
    let u := u.modTask o.who fun k => { x.task with late := k.late.filter fun l => l.note || l.exact || l.order < o.order }
    { u with used := if u.active = some o.who then x.used else u.used, det := { u.det with count := u.det.count - x.count } }
  | none => u.modTask o.who fun k => { k with pc := o.pc }

/-- A status fault of a region 0x00 access is exact: the registers of its line are put back, younger operations of the
line are forgotten, and the trap is taken at the access (spec/06 R102, spec/05 R77, R393). -/
def exactFault (s : State) (t : Nat) (o : Outst) (c : Cause) (fdrop : Bool) : State :=
  let s := s.modTile t fun u => { u.dropYounger o with atLine := u.atLine && o.pc = (u.task o.who).pc || o.pc.toNat % 8 = 0 }
  takeTrap s t c o.pc o.addr false fdrop false false

/-- An exact fault that cannot be taken yet, since its stream does not run or its pair's interval is open: the stream stands at
the access again, and takes the fault before anything else (spec/06 R102, R104, spec/04 R67, spec/19 R358). -/
def deferExact (s : State) (t : Nat) (o : Outst) (c : Cause) (fdrop : Bool) : State :=
  let inside := o.pc.toNat % 8 != 0
  s.modTile t fun u =>
    let u := (u.dropYounger o).modTask o.who fun k =>
      { k with mid := inside, late := k.late ++ [{ cause := c, addr := o.addr, fdrop := fdrop, exact := true }] }
    if u.active = some o.who then
      { u with line := none, pairNext := false, checkTo := false, held := false, atLine := !inside
               pairing := u.pairing.map fun p => { p with closing := true } }
    else match o.who with
    | .img i => (match (u.ctx i).st with
      | .waiting _ => { u.setCtx i { u.ctx i with st := .ready } with ready := u.ready ++ [.bound i] }
      | _ => u)
    | _ => u

end Sys2Proof.Machine
end

