-- ==== Sys2Proof/Machine/Access.lean ====
section
/-!
DEFINITION. Memory accesses: the issue-time checks of an address (spec/02 R9 to R12, spec/06 R98, R99) and what an access
does at its home slice (spec/03 R35 to R40, spec/04 R59 to R61, spec/05 R75 to R78, R85, spec/06 R100, R107 to R124).
-/

namespace Sys2Proof.Machine

open Sys2Proof

/-- Why an instruction does not complete: a trap (with a saved PC of its own where the cause asks for one, and the supervisor vector for
TRAP.s), the refusal of a counted access to the own slice on `path`, which may be a flag (spec/04 R69), a hold, a pair's interval to close
first (spec/19 R358), the kill of the husk for a consumed error (spec/03 R39). -/
inductive Stop where
  | trap (c : Cause) (addr : Word) (epc : Option Word) (sup : Bool)
  | turnedAway (c : Cause) (addr : Word) (path : Nat) (flag : Bool)
  | hold (w : Option WaitOn)
  | close
  | kill
  deriving DecidableEq, Repr

/-- An exact trap with a faulting address. -/
def trapAt {α : Type} (c : Cause) (addr : Word) : Except Stop α := .error (.trap c addr none false)

/-- Raise a trap unless a condition holds. -/
def need (b : Bool) (c : Cause) (addr : Word) : Except Stop Unit := if b then .ok () else trapAt c addr

/-! ### Address checks -/

/-- The access kinds of spec/02 R10: what a region accepts depends on them (spec/06 Table 2); `sliceOnly` is that of the rows of
MLOADB and MRBUF, for which every other region is REGION (spec/14 R259). -/
inductive AKind where
  | load
  | store (wide : Bool)
  | storeOf
  | storeBlock (words : Nat)
  | release (wide : Bool)
  | fullEmpty
  | atomic
  | stamped
  | farStore
  | farReq
  | localOnly
  | sliceOnly
  deriving DecidableEq, Repr

/-- What an address names. -/
inductive Target where
  | sram (t off : Nat)
  | remote (chip x y off : Nat)
  | code (t off : Nat)
  | aperture (ch : Nat)
  | far (va : Nat)
  | mcast (group off : Nat)
  deriving DecidableEq, Repr

/-- The region code of an address (spec/02 R9). -/
def regionOf (a : Word) : Nat := field a 63 56

/-- The must-be-zero bits of an address's region are clear (spec/02 Table 1). -/
def mustBeZero (a : Word) : Bool :=
  match regionOf a with
  | 0x00 => field a 55 33 == 0
  | 0x01 => field a 55 45 == 0
  | 0x02 => field a 55 28 == 0
  | 0x03 => field a 55 14 == 0 && field a 3 0 == 0
  | 0x10 => field a 55 48 == 0
  | 0x20 => field a 55 32 == 0
  | _ => false

/-- Step 3 of spec/02 R10: the fault of a kind that the region does not accept (spec/06 Table 2). -/
def kindFault (k : AKind) (a : Word) : Option Cause :=
  match regionOf a, k with
  | 0x00, .farStore | 0x00, .farReq => some .region
  | 0x00, _ => none
  | 0x01, .load | 0x01, .store _ | 0x01, .storeOf | 0x01, .storeBlock _ | 0x01, .release _ | 0x01, .atomic
  | 0x01, .stamped => none
  | 0x01, _ => some .region
  | 0x02, .storeBlock n => if n = 8 then none else some .istore
  | 0x02, .sliceOnly => some .region
  | 0x02, _ => some .istore
  | 0x03, .store w => if w then none else some .region
  | 0x03, _ => some .region
  | 0x10, .farStore | 0x10, .farReq => none
  | 0x10, _ => some .region
  | 0x20, .store _ | 0x20, .storeBlock _ | 0x20, .release _ => none
  | 0x20, _ => some .region
  | _, _ => some .region

/-- The group table's entry of a tenant's group (spec/02 R18). -/
def State.groupEntry (s : State) (tenant g : Nat) : Option (List (Nat × Nat × Nat)) := Sparse.get none s.groups (g * 256 + tenant)
/-- The group is bound to the tenant, be it without members. -/
def State.groupBound (s : State) (tenant g : Nat) : Bool := (s.groupEntry tenant g).isSome
/-- The husk has a tile at the member's coordinates. An entry outlives a husk of another shape: a member that the present shape does not
take in is no tile of the husk and is left out, since R18 names tiles of the member's husk alone (DESIGN CHOICE, log 115). -/
def Husk.hasMember (h : Husk) (m : Nat × Nat × Nat) : Bool := m.1 < h.width && m.2.1 < h.height
/-- The members that the entry names and the husk has: husk-relative tile and base. -/
def State.groupOf (s : State) (tenant g : Nat) : List (Nat × Nat × Nat) :=
  match s.husk tenant with
  | some h => ((s.groupEntry tenant g).getD []).filter h.hasMember
  | none => []

/-- The checks of spec/02 R10 in their order, steps 1 to 5, for agent `a`. `aligned` is the instruction's own alignment
condition. -/
def checkAddr (s : State) (a : Nat) (k : AKind) (addr : Word) (aligned : Bool) : Except Stop Target := do
  let r := regionOf addr
  need (r == 0x00 || r == 0x01 || r == 0x02 || r == 0x03 || r == 0x10 || r == 0x20) .region addr
  need (mustBeZero addr) .region addr
  match kindFault k addr with
  | some c => trapAt c addr
  | none =>
    match s.huskOf a with
    | none => trapAt .huskbnd addr
    | some (n, h) =>
      match r with
      | 0x00 =>
        let x := field addr 26 21
        let y := field addr 32 27
        need (x < h.width && y < h.height) .huskbnd addr
        need aligned .align addr
        .ok (.sram (h.tileAt x y) (field addr 20 0))
      | 0x01 =>
        need (field addr 44 33 != s.chip) .region addr
        need aligned .align addr
        .ok (.remote (field addr 44 33) (field addr 26 21) (field addr 32 27) (field addr 20 0))
      | 0x02 =>
        let x := field addr 21 16
        let y := field addr 27 22
        need (x < h.width && y < h.height) .huskbnd addr
        need (field addr 5 0 == 0) .istore addr
        .ok (.code (h.tileAt x y) (field addr 15 0))
      | 0x03 =>
        need (field addr 13 8 ≤ 47) .region addr
        need aligned .align addr
        .ok (.aperture (field addr 13 8 * 16 + field addr 7 4))
      | 0x10 =>
        need aligned .align addr
        .ok (.far (field addr 47 0))
      | _ =>
        need (s.groupBound n (field addr 31 16)) .window addr
        need aligned .align addr
        .ok (.mcast (field addr 31 16) (field addr 15 0))

/-! ### At the home -/

/-- Serial comparison: age a is at least age b (spec/05 R73). -/
def ageAtLeast (a b : BitVec 32) : Bool := (a - b).toNat < 2 ^ 31

/-- The new value of an atomic (spec/06 Table 11). -/
def amoNew (op : AmoOp) (n : Nat) (o v c : Nat) : Nat :=
  let m := 2 ^ n
  match op with
  | .add => (o + v) % m
  | .min => if sgn n o ≤ sgn n v then o else v % m
  | .max => if sgn n o ≥ sgn n v then o else v % m
  | .minn => min o (v % m)
  | .maxn => max o (v % m)
  | .and => Nat.land o (v % m)
  | .or => Nat.lor o (v % m)
  | .xor => Nat.xor o (v % m)
  | .swap => v % m
  | .cas => if o = c % m then v % m else o

/-- Plain loads and LDF, which stamped and BOOST ranges let pass, and the stamped accesses' own tests (spec/06 R100). -/
def opReadsOnly : MemOp → Bool
  | .load _ | .loadBlock _ | .ldf _ | .lda _ _ _ | .ageq => true
  | _ => false

/-- The words of a list as bytes. -/
def wordsBytes (ws : List Word) : List Byte := (ws.map fun w => bytesOf w.toNat 8).flatten

/-- A read of `n` bytes of a slice. A word of a held image is that of the image, or shows free values at the places of its
registers, which may not have been written back (spec/03 R43); a ring word is free (spec/15 R287; log 5). -/
def readSlice (s : State) (t off n : Nat) : State × Nat :=
  match s.openWord t (off / 8 * 8) with
  | some (v, m) =>
    let (c, s) := s.choose
    let (x, s) := s.freeVal
    (s, (if c % 2 = 0 then v else (v &&& ~~~m) ||| (x &&& m)).toNat / 2 ^ (8 * (off % 8)) % 2 ^ (8 * n))
  | none => (s, getNat s (sliceKey t off) n)

/-- `n` words of a slice. -/
def readWords (s : State) (t off : Nat) : Nat → State × List Word
  | 0 => (s, [])
  | n + 1 =>
    let (s, v) := readSlice s t off 8
    let (s, r) := readWords s t (off + 8) n
    (s, BitVec.ofNat 64 v :: r)

/-- The condition of a waiting access holds (spec/06 Table 7, spec/05 R78), and what it answers: its effect in one step. -/
def waiterStep (s : State) (t : Nat) (w : Waiter) : Option (State × Answer) :=
  match w.op with
  | .ldf n =>
    if s.isEmpty t w.off then none
    else let (s, v) := readSlice s t w.off n; some (s, .data [BitVec.ofNat 64 v] 0)
  | .ldfe n =>
    if s.isEmpty t w.off then none
    else let (s, v) := readSlice s t w.off n; some (s.setEmpty t w.off true, .data [BitVec.ofNat 64 v] 0)
  | .stef n v =>
    if s.isEmpty t w.off then
      some ((s.putSlice t w.off (bytesOf v.toNat n)).setEmpty t w.off false, .done)
    else none
  | .lda .w thr _ =>
    match s.sideOf t w.off with
    | none => some (s, .fault .wstop)
    | some e =>
      if ageAtLeast e.age thr then
        let (s, ws) := readWords s t w.off 8
        some (s, .data ws e.age)
      else if e.stop then some (s, .fault .wstop)
      else none
  | _ => none

/-- The operation reads its old word or F/E bit, and so consumes it (spec/03 R39). -/
def opConsumes : MemOp → Bool
  | .load _ | .loadBlock _ | .ldf _ | .ldfe _ | .stef _ _ | .setf | .sete | .amo _ _ _ _ | .lda _ _ _ => true
  | .store n _ | .stf n _ => n < 8
  | .storeBlock _ | .engine _ | .sta _ _ | .ageq => false

/-- The access consumes a word in error. An LDA reads the data of its line only where the line is stamped; one that then parks or is
answered STALE counts as consuming it too (DESIGN CHOICE, log 80). -/
def consumesHere (s : State) (t off : Nat) (op : MemOp) : Bool :=
  match op with
  | .lda _ _ _ => (s.sideOf t off).isSome && s.consumesBad t off 64
  | _ => (opConsumes op) && s.consumesBad t off (opLen op)

/-- Single-bit errors of the words that an access consumes are corrected and written back (spec/03 R39). -/
def correctFor (s : State) (t off : Nat) (op : MemOp) : State :=
  if opConsumes op then s.correct t (off / 8 * 8) ((off % 8 + opLen op + 7) / 8) else s

/-- The first waiter among `ws`, in parking order, on the bytes [lo, hi) whose condition holds completes; if it consumes a word in
error, the husk is killed (spec/03 R39), and an outsider is answered WINDOW (spec/06 Table 3). -/
def retestOne (s : State) (t lo hi : Nat) : List Waiter → Option State
  | [] => none
  | w :: ws =>
    if lo < w.off + 1 && w.off < hi then
      match waiterStep (correctFor s t w.off w.op) t w with
      | some (s', a) =>
        let bad := consumesHere s t w.off w.op
        let s' := s'.modTile t fun u => { u with waiters := eraseFirst (fun x => x.order = w.order) u.waiters }
        let s' := match w.asker with
          | .core g _ _ => if opModifies w.op then s'.countArrival g t (pathOf t (w.off / 64)) 0 none else s'
          | _ => s'
        some (if bad then
            eccuKill (match w.asker with
              | .remote _ _ _ => s'.answer t w.asker (.fault .window)
              | _ => s') t
          else s'.answer t w.asker a)
      | none => retestOne s t lo hi ws
    else retestOne s t lo hi ws

/-- Retest until no waiter on the bytes completes (spec/06 R118, spec/05 R78, spec/03 R37). -/
def retest (s : State) (t lo hi : Nat) : Nat → State
  | 0 => s
  | n + 1 =>
    match retestOne s t lo hi (s.tile t).waiters with
    | some s' => retest s' t lo hi n
    | none => s

/-- Retest the waiters of the bytes [lo, hi) of a slice. -/
def State.retestAt (s : State) (t lo hi : Nat) : State :=
  if (s.tile t).waiters.isEmpty then s else retest s t lo hi 65

/-- Park a waiting access, or say that the table is full (spec/04 R59). -/
def parkAt (s : State) (t off : Nat) (op : MemOp) (q : Asker) : State × Answer :=
  if 64 ≤ (s.tile t).waiters.length then (s, .full)
  else
    let w : Waiter := { asker := q, off := off, op := op, order := s.nextId }
    ({ s with nextId := s.nextId + 1 }.modTile t fun u => { u with waiters := u.waiters ++ [w] }, .parked)

/-- The test of a range before anything is performed: for a stamped store STAWR on a line that is not stamped, then BOOST where the range
has both (spec/03 R35, spec/05 R75); else STAMPED, then BOOST (spec/06 R100). `xy` is the issuing core's husk-relative coordinates. -/
def rangeFault (s : State) (t off : Nat) (op : MemOp) (active : Bool) (xy : Option Nat) : Option Cause :=
  let u := s.tile t
  let boosted := !active && u.touches (·.boost) off (opLen op)
  match op with
  | .sta _ age =>
    match s.sideOf t off with
      | none => some .stawr
      | some e =>
        if boosted then some .boostwr
        else if e.mir || xy != some e.writer || !ageAtLeast age e.age then some .stawr else none
  | _ =>
    if (opReadsOnly op) then none
    else if u.touches (·.stamped) off (opLen op) then some .stawr
    else if boosted then some .boostwr
    else none

/-- The F/E bits of `n` words from `off` on become full. -/
def fillWords (s : State) (t off : Nat) : Nat → State
  | 0 => s
  | n + 1 => fillWords (s.setEmpty t off false) t (off + 8) n

/-- What an access does at the slice of tile t once its range lets it (spec/06 R107 to R124, spec/05 R75 to R78, R92), at once also where
an LDA.w is parked (DESIGN CHOICE, log 106). A plain store or an MSAVE that sets a poisoned empty word full (spec/03 R39) retests no waiter:
R118 says that a plain ST retests none, and that every change of an F/E bit retests (DESIGN CHOICE, log 114). -/
def effectAt (s : State) (t off : Nat) (op : MemOp) (q : Asker) : State × Answer :=
  match op with
  | .load n => let (s, v) := readSlice s t off n; (s, .data [BitVec.ofNat 64 v] 0)
  | .loadBlock n => let (s, ws) := readWords s t off n; (s, .data ws 0)
  | .store n v => (s.putSlice t off (bytesOf v.toNat n), .done)
  | .storeBlock ws => (s.putSlice t off (wordsBytes ws), .done)
  | .engine ws =>
    ((fillWords (s.putSlice t off (wordsBytes ws)) t off ws.length).retestAt t (off / 8 * 8) (off / 8 * 8 + 8 * ws.length), .done)
  | .amo op n v c =>
    let (s, o) := readSlice s t off (n / 8)
    (s.putSlice t off (bytesOf (amoNew op n o v.toNat c.toNat) (n / 8)), .data [BitVec.ofNat 64 o] 0)
  | .ldf n =>
    if s.isEmpty t off then parkAt s t off op q
    else let (s, v) := readSlice s t off n; (s, .data [BitVec.ofNat 64 v] 0)
  | .ldfe n =>
    if s.isEmpty t off then parkAt s t off op q
    else
      let (s, v) := readSlice s t off n
      ((s.setEmpty t off true).retestAt t (off / 8 * 8) (off / 8 * 8 + 8), .data [BitVec.ofNat 64 v] 0)
  | .stf n v =>
    (((s.putSlice t off (bytesOf v.toNat n)).setEmpty t off false).retestAt t (off / 8 * 8) (off / 8 * 8 + 8), .done)
  | .stef n v =>
    if s.isEmpty t off then
      (((s.putSlice t off (bytesOf v.toNat n)).setEmpty t off false).retestAt t (off / 8 * 8) (off / 8 * 8 + 8), .done)
    else parkAt s t off op q
  | .setf => ((s.setEmpty t off false).retestAt t (off / 8 * 8) (off / 8 * 8 + 8), .done)
  | .sete => ((s.setEmpty t off true).retestAt t (off / 8 * 8) (off / 8 * 8 + 8), .done)
  | .lda v thr _ =>
    match s.sideOf t off with
    | none => (s, .fault .wstop)
    | some e =>
      let (s', ws) := readWords s t off 8
      if ageAtLeast e.age thr then (s', .data ws e.age)
      else match v with
        | .n => (s', .data ws e.age)
        | .w => if e.stop then (s, .fault .wstop) else parkAt s t off op q
        | .t => if e.stop then (s, .fault .wstop) else (s, .fault .stale)
  | .sta line age =>
    match s.sideOf t off with
    | none => (s, .fault .stawr)
    | some e =>
      let s := s.putSlice t off (bytesOf line.toNat 64)
      ((s.setSide t off (some { e with age := age, stop := false })).retestAt t off (off + 64), .done)
  | .ageq =>
    match s.sideOf t off with
    | none => (s, .fault .wstop)
    | some e =>
      (s, .data [BitVec.ofNat 64 ((if e.mir then 2 ^ 33 else 0) + (if e.stop then 2 ^ 32 else 0) + e.age.toNat)] 0)

/-- An access at its home slice: step 6 of spec/02 R10, the range tests, consumed errors (spec/03 R39), the effect. -/
def performAt (s : State) (t off : Nat) (op : MemOp) (q : Asker) (user active : Bool) (xy : Option Nat) : State × Answer :=
  if user && (s.tile t).inCtx off (opLen op) then (s, .fault .priv)
  else match rangeFault s t off op active xy with
    | some c => (s, .fault c)
    | none =>
      if consumesHere s t off op then (eccuKill s t, .fault .eccu)
      else
        effectAt (correctFor s t off op) t off op q

/-- An answer to another package: an error or context-area refusal there is WINDOW (spec/03 R44, spec/06 Table 3). -/
def remoteAnswer (a : Answer) : Answer :=
  match a with
  | .fault .eccu | .fault .priv => .fault .window
  | x => x

end Sys2Proof.Machine
end

