-- ==== Sys2Proof/Machine/Issue.lean ====
section
/-!
DEFINITION. Issuing an instruction (spec/10 R169 to R180): holds, guard, field and level checks, operand reads with queue
pops, results with their latency, retirement, and what becomes of a trap or a hold. Every meaning is a body handed to
`issue`.
-/

namespace Sys2Proof.Machine

open Sys2Proof

/-- What a body gets: the core, the stream, the fields, the source values in the order a, b, c, the operation's number, the
instruction's PC and the rounding mode it reads. -/
structure In where
  t   : Nat
  w   : Who
  f   : Fields
  a   : Word
  b   : Word
  c   : Word
  seq : Nat
  pc  : Word
  rm  : Nat

/-- Where the stream goes after the instruction: on to the next slot; to a target, with the line fetched for its check; or
the stream has ended or been set aside by the body. -/
inductive After where
  | next
  | jump (target : Word) (line : Option LineBuf)
  | gone
  deriving DecidableEq, Repr

/-- A body's outcome. -/
abbrev Body.Out := Except Stop (State × After)

/-- The body went through; the next slot follows. -/
def goOn (s : State) : Except Stop (State × After) := .ok (s, .next)

/-! ### Ready pods -/

/-- A context image is free (spec/09 R146); a memory-core context has image 0 alone. -/
def Tile.freeImage (u : Tile) : Option Nat := (List.range 8).find? fun i => (u.ctx i).st = .free

/-- A member of a forwarded gang holds an image of the core. -/
def Tile.gangHere (u : Tile) : Bool := (List.range 8).any fun i => (u.ctx i).st != .free && (u.ctx i).task.fwd

/-- A pod that waits for the gang's DONE: a level-0 sprout (spec/09 R154), also one that came before the gang's START, of which R154 does
not speak (DESIGN CHOICE, log 105). -/
def Tile.waitsGang (u : Tile) (e : Ready) : Bool :=
  match e with
  | .free p => p.sprout && u.gangHere
  | .bound _ => false

/-- The entries of the ready list, 64 at most (spec/15 R269); what has become ready behind them waits in its order for room in the list
(log 55). -/
def Tile.readyList (u : Tile) : List Ready := u.ready.take 64

/-- The entry of the ready list that the core would start: the head; while a free pod there finds every image held, the
first bound pod behind it (spec/15 R269). A sprout that waits for a gang is passed over by later pods, whenever it came: R154 does not
say (DESIGN CHOICE, log 105). -/
def Tile.startable (u : Tile) : Option (Nat × Ready) :=
  findIdx (fun e => match e with
    | .bound _ => true
    | .free _ => u.freeImage.isSome && !u.waitsGang e) u.readyList

/-- Another pod is ready (spec/15 R272, spec/18 R341), whether or not an image is free for it. -/
def Tile.otherReady (u : Tile) : Bool := u.readyList.any fun e => !u.waitsGang e

/-! ### Queue ports (spec/15 R286 to R290) -/

def Tile.port (u : Tile) (n : Nat) : Option Port := Sparse.get none u.ports n
def Tile.setPort (u : Tile) (n : Nat) (p : Option Port) : Tile := { u with ports := Sparse.set none u.ports n p }

/-- Records that the ring has room for, and the place in the slice of the one behind `k` others (spec/15 R287). -/
def HQueue.ringSize (q : HQueue) : Nat := 32 * 2 ^ q.rsize
def HQueue.recOff (q : HQueue) (k : Nat) : Nat := q.base + 64 * ((q.head + k) % q.ringSize)

/-- The oldest record of a ring moves to its slot; none where a word of it is in error, which kills the husk (spec/03 R39). -/
def takeRing (s : State) (t slot : Nat) : Option State :=
  let q := (s.tile t).hqueue slot
  let off := q.recOff 0
  if s.consumesBad t off 64 then none
  else
    let ws := (List.range 8).map fun i => s.sliceWord t (off + 8 * i)
    some ((s.correct t off 8).modTile t fun u =>
      u.setHq slot { q with slot := q.slot ++ [ws], head := (q.head + 1) % q.ringSize, stored := q.stored - 1 })

/-- `n` records move from the ring head to the slot tail. -/
def moveRing (s : State) (t slot : Nat) : Nat → Option State
  | 0 => some s
  | n + 1 => match takeRing s t slot with
    | some s => moveRing s t slot n
    | none => none

/-- Place a record: to the slot while the ring is empty and the slot below 32, else to the ring's tail in the slice, whose lines are
not marked (spec/15 Table 5, spec/19 R356); none when both are full. -/
def placeRec (s : State) (t slot : Nat) (ws : List Word) : Option State :=
  let q := (s.tile t).hqueue slot
  if q.stored = 0 && q.slot.length < 32 then some (s.modTile t fun u => u.setHq slot { q with slot := q.slot ++ [ws] })
  else if q.stored < q.ringSize then
    some ((s.putData t (q.recOff q.stored) (wordsBytes ws)).modTile t fun u => u.setHq slot { q with stored := q.stored + 1 })
  else none

/-- Records of an ended window are placed as room appears, in their order (spec/19 R352). -/
def drainExtra (s : State) (t slot : Nat) : List (List Word) → State
  | [] => s.modTile t fun u => u.setHq slot { u.hqueue slot with extra := [] }
  | r :: rs => match placeRec s t slot r with
    | some s => drainExtra s t slot rs
    | none => s.modTile t fun u => u.setHq slot { u.hqueue slot with extra := r :: rs }

/-- Once the slot is below 8, records move from the ring until it holds 32 (spec/15 Table 5). -/
def refillSlot (s : State) (t slot : Nat) : Option State :=
  let q := (s.tile t).hqueue slot
  (if q.slot.length < 8 then moveRing s t slot (min (32 - q.slot.length) q.stored) else some s).map fun s =>
    drainExtra s t slot q.extra

/-- The head record of a slot is gone. -/
def dropHead (s : State) (t slot : Nat) : Option State :=
  refillSlot (s.modTile t fun u => u.setHq slot { u.hqueue slot with slot := (u.hqueue slot).slot.drop 1 }) t slot

/-- The port is bound for popping, or for pushing, by this stream (spec/15 R286). -/
def Tile.popBound (u : Tile) (w : Who) (n : Nat) : Bool := (u.port n).any fun p => p.who = w && match p.kind with
  | .pop _ _ => true
  | .push _ _ _ _ => false
def Tile.pushBound (u : Tile) (w : Who) (n : Nat) : Bool := (u.port n).any fun p => p.who = w && match p.kind with
  | .push _ _ _ _ => true
  | .pop _ _ => false

/-- Pop one word from port `n` for a stream (spec/15 R289): ILLEG without a pop binding of this context, a hold on an empty
slot. Each port has its own cursor (DESIGN CHOICE, log 96). -/
def popPort (s : State) (t : Nat) (w : Who) (n : Nat) : Except Stop (State × Word) :=
  let u := s.tile t
  match u.port n with
  | some p =>
    match p.kind with
    | .pop q cur =>
      if p.who != w then trapAt .illeg 0
      else
        match (u.hqueue q).slot with
        | [] => .error (.hold (some (.queue q)))
        | r :: _ =>
          let v : Word := r.getD cur 0
          let s := s.setTile t ({ u with popped := v }.setPort n (some { p with kind := .pop q ((cur + 1) % 8) }))
          if cur = 7 then
            match dropHead s t q with
            | some s => .ok (s, v)
            | none => .error .kill
          else .ok (s, v)
    | .push _ _ _ _ => trapAt .illeg 0
  | none => trapAt .illeg 0

/-- The value of a source field: a queue port pops, a register is read, a literal or block origin gives its number. -/
def readSrc (s : State) (t : Nat) (w : Who) (k : Kind) (v : Nat) : Except Stop (State × Word) :=
  match k with
  | .r => if 0x40 ≤ v && v ≤ 0x4F then popPort s t w (v - 0x40) else .ok (s, readReg s t w v)
  | .g | .g1 | .gc | .gAge | .p => .ok (s, readReg s t w v)
  | _ => .ok (s, BitVec.ofNat 64 v)

/-- A destination that is a queue port: it needs a push binding of this context, and holds while its record has not been
accepted (spec/15 R288). -/
def checkPush (u : Tile) (w : Who) (r : Nat) : Except Stop Unit :=
  if 0x40 ≤ r && r ≤ 0x4F then
    match u.port (r - 0x40) with
    | some { who := x, kind := .push _ _ st sent, .. } =>
      if x != w then trapAt .illeg 0
      else if sent || 8 ≤ st.length then .error (.hold none)
      else .ok ()
    | _ => trapAt .illeg 0
  else .ok ()

/-! ### Results -/

/-- Writes that take effect: g0 and p7 ignore theirs (spec/10 Table 6). -/
def realWrites (ws : List (Nat × Word)) : List (Nat × Word) := ws.filter fun e => e.1 != 0 && e.1 != 0x67

/-- A result of the instruction: `l` cycles from now its writes become readable, its flags merge, its counter falls. -/
def emit (s : State) (x : In) (l : Nat) (writes : List (Nat × Word)) (flags : Nat) : State :=
  s.modTile x.t fun u =>
    let p : Pend := { due := u.cyc + l, seq := x.seq, writes := realWrites writes, flags := flags, lower := x.f.setc.toNat }
    { u.modTask x.w (·.raise x.f.setc.toNat) with pend := u.pend ++ [p] }

/-- The results of a block instruction, beat by beat: `due` is the cycle in which the words of the beat become readable;
flags and counter go with the last (spec/10 R176, R178, spec/11 R188). -/
def emitBeats (s : State) (x : In) (parts : List (Nat × List (Nat × Word))) (flags : Nat) : State :=
  s.modTile x.t fun u =>
    let n := parts.length
    let ps := (List.range n).zip parts |>.map fun e =>
      ({ due := e.2.1, seq := x.seq, writes := realWrites e.2.2
         flags := if e.1 + 1 = n then flags else 0, lower := if e.1 + 1 = n then x.f.setc.toNat else 7 } : Pend)
    { u.modTask x.w (·.raise x.f.setc.toNat) with pend := u.pend ++ ps }

/-- Enter a variable-latency operation: its counter is raised; the registers as they stand are kept where its status, or under PX its
acknowledgement, may still ask for a restart (spec/06 R102, spec/04 R67). -/
def addOut (s : State) (x : In) (o : Outst) : State :=
  s.modTile x.t fun u =>
    let px := (u.task x.w).px
    let snap := if o.status || px then some { task := u.task x.w, used := u.used : Snap } else none
    let o := { o with tag := x.seq, who := x.w, lower := x.f.setc.toNat, ctr := x.f.setc.toNat, pc := x.pc, snap := snap, px := px
                      gen := match x.w with
                        | .img i => Sparse.get 0 u.gens i
                        | _ => 0 }
    { u.modTask x.w (·.raise x.f.setc.toNat) with out := u.out ++ [o] }

/-! ### Holds and traps -/

/-- A wait on the operation parks the task: an access that is not the own slice's, or a full/empty access or LDA.w that has parked; no
other access of the own slice does so, be it a flag that is held or a request that waits for room there (spec/06 R104). Accesses that the
rule's list leaves out and that no own slice answers (STFAR, stores to regions 0x02, 0x03 and 0x20) park it (DESIGN CHOICE, log 53). -/
def Outst.parksTask (o : Outst) : Bool := o.slow || (o.parked && o.kind != .store)

/-- The wait is on such an operation, a wait for acknowledgements too (spec/06 R104). -/
def Tile.slowWait (u : Tile) (w : Who) (x : WaitOn) : Bool :=
  match x with
  | .counters m => u.out.any fun o => o.who = w && o.lower < 6 && m.getLsbD o.lower && o.parksTask
  | .regs rs => u.out.any fun o => o.who = w && o.parksTask && o.dst.regs.any rs.contains
  | .acks sys parked => u.out.any fun o => o.who = w && o.parksTask && o.holdsAcks sys parked
  | _ => true

/-- The core may take a trap of this stream now: statuses of older accesses have arrived (spec/06 R102) and the matrix
instructions of the stream are settled (spec/14 R253). -/
def Tile.settled (u : Tile) (w : Who) : Bool :=
  !(u.out.any fun o => o.who = w && o.status) && !(u.matrix.queue.any fun q => q.who = w)

/-- Close a pair's interval before a trap entry (spec/19 R358). -/
def Tile.wantClose (u : Tile) : Tile := { u with pairing := u.pairing.map fun p => { p with closing := true } }

/-- The interval of a pair has begun, or is closing. -/
def Tile.pairOpen (u : Tile) : Bool := u.pairing.any fun p => p.count != 0 || p.closing

/-- A matrix instruction of the stream is still queued. -/
def Tile.matrixBusy (u : Tile) (w : Who) : Bool := u.matrix.queue.any fun q => q.who = w

/-- A held task waits a cycle in place, or is set aside where it may park and another pod is ready (spec/06 R104,
spec/15 R272); a level-1 task, a handler and a forwarded-gang member stay in place. A pair's interval closes first
(spec/19 R358; log 24), and so does one whose remote buffer holds what the task may wait for (R359; log 24). A BARW keeps the phase
that it waits for (spec/16 R307). -/
def holdTask (s : State) (t : Nat) (w : Who) (x : Option WaitOn) : State :=
  let u := s.tile t
  let stay := s.modTile t fun u =>
    { (if u.pairing.any fun p => p.buf != [] then u.wantClose else u) with cyc := u.cyc + 1, held := true }
  let s := match x with
    | some (.phase n) => s.modTile t fun u => u.modTask w fun k => { k with waitNo := some (k.pc, n) }
    | _ => s
  match x, w with
  | some x, .img i =>
    if u.active = some (.img i) && u.otherReady && !u.matrixBusy w && !(u.task w).fwd && u.slowWait w x && t < numTiles
    then (if u.pairOpen then stay.modTile t Tile.wantClose else setAside s t (.waiting x))
    else stay
  | _, _ => stay

/-- A memory-core program that faults ends (spec/07 R134): its fault is kept as a late fault of image 0, which the event of
its end turns into a note. -/
def endProgram (s : State) (t : Nat) (c : Cause) (addr : Word) : State :=
  s.modTile t fun u =>
    let u := u.flush
    { u.setCtx 0 { u.ctx 0 with st := .ready, task := { (u.ctx 0).task with late := [{ cause := c, addr := addr, note := true }] } }
      with cur0 := none, line := none }

/-- A follower leaves the forwarded line at the head of its buffer: the line goes as the next one is entered, since an exact fault may
still take the follower back into it (spec/06 R102, spec/09 R152). -/
def Tile.leftFwd (u : Tile) : Tile :=
  match u.fwd with
  | x :: r => { u with fwd := { x with left := true } :: r }
  | [] => u

/-- A follower whose leader took a transfer at the slot of `pc`, or stood at the line's end there, leaves the forwarded line. -/
def Tile.leaveFwd (u : Tile) (pc : Word) : Tile :=
  match u.fwd with
  | x :: _ => if pc.toNat % 8 = 4 || x.taken.any fun y => y.1 = pc.toNat % 8 then u.leftFwd else u
  | [] => u

/-- Take an exact trap of the instruction at `pc`, once the statuses of older accesses are in; a memory-core program ends then, its
writes acknowledged (spec/07 R134, spec/04 R58). FWDDIV leaves the forwarded line where its saved PC does, the leader's way. -/
def trapNow (s : State) (t : Nat) (w : Who) (c : Cause) (addr epc : Word) (late fdrop note sup : Bool) : State :=
    let u := s.tile t
    if !u.settled w then s.modTile t fun u => { u with cyc := u.cyc + 1 }
    else if numTiles ≤ t then endProgram s t c addr
    else if u.pairOpen then s.modTile t fun u => { u.wantClose with cyc := u.cyc + 1 }
    else
      let s := if c == .fwddiv then s.modTile t fun u => u.leaveFwd (u.task w).pc else s
      takeTrap s t c epc addr late fdrop note sup

/-- The epoch number of the next request to a destination: flags sent there so far (spec/04 R69). -/
def Tile.epochTo (u : Tile) (dst : Nat) : Nat := Sparse.get 0 u.sent (2 ^ 24 + dst)

/-- Count a request sent to `dst` on a path. -/
def Tile.countSent (u : Tile) (dst path : Nat) : Tile :=
  { u with sent := Sparse.set 0 u.sent (dst * 8 + path) ((Sparse.get 0 u.sent (dst * 8 + path) + 1) % 2 ^ 16) }

/-- A flag is sent: the next epoch begins. -/
def Tile.nextEpoch (u : Tile) (dst : Nat) : Tile :=
  { u with sent := Sparse.set 0 u.sent (2 ^ 24 + dst) ((u.epochTo dst + 1) % 2 ^ 16) }

/-- The own slice has refused a counted access: it counts as sent and as arrived, and poisons its epoch, or as a flag ends it (spec/04 R69,
spec/26 R395; log 62), as its trap is taken. -/
def countRefused (s : State) (t : Nat) (c : Cause) (addr : Word) (path : Nat) (flag : Bool) : State :=
  let s' := s.modTile t fun u => if flag then (u.countSent t path).nextEpoch t else u.countSent t path
  s'.countArrival t t path ((s.tile t).epochTo t) (if flag then none else some (c, addr))

/-- The outcome of a stopped instruction. -/
def settle (s : State) (t : Nat) (w : Who) (pc : Word) (x : Stop) : Host.Outcome State Fault Refusal :=
  match x with
  | .trap c addr epc sup => .next (trapNow s t w c addr (epc.getD pc) false false false sup)
  | .turnedAway c addr path flag =>
    let u := s.tile t
    .next (trapNow (if u.settled w && !u.pairOpen then countRefused s t c addr path flag else s) t w c addr pc false false false false)
  | .hold h => .next (holdTask s t w h)
  | .kill => .next (eccuKill s t)
  | .close => .next (s.modTile t fun u => { u.wantClose with cyc := u.cyc + 1 })

/-! ### Late faults -/

/-- The instruction is an acknowledgement point (spec/04 R66): STREL, a releasing atomic, FENCE.ack, a BTE aperture store,
LAUNCH, DONE; PARK takes late faults as DONE does (spec/15 R283). -/
def ackPoint (i : Instr) (base : Word) : Bool :=
  match i with
  | .strel _ | .fenceAck _ | .launch _ | .done _ | .park _ => true
  | .st f => regionOf (base + f.imm.signExtend 64) == 0x03
  | .aadd f | .amin f | .amax f | .aminn f | .amaxn f | .aand f | .aor f | .axor f | .aswap f | .acas f => f.minor.getLsbD 2
  | _ => false

/-- The instruction waits for acknowledgements and takes a fault that is reported while it waits (spec/06 R128, spec/16 R312,
spec/17 R326, spec/07 R133, spec/15 R279, spec/14 R254, spec/19 R364). -/
def waitPoint (i : Instr) : Bool :=
  match i with
  | .fence _ | .bara _ | .bcommit _ | .farreq _ | .wkdec _ | .mgang _ | .park _ | .digest _ | .digestClr _
  | .huskcfgDef _ | .huskcfgKill _ | .huskcfgFlush _ | .huskcfgTab _ | .huskcfgUndef _ => true
  | _ => false

/-- The store's own fault, of which the task has a flag's report with FDROP too: it is taken before that one (spec/26 R396). -/
def Task.ownOf (k : Task) (l : Late) : Bool :=
  k.late.any fun d => d.fdrop && l.order < d.order && d.cause == l.cause && d.addr = l.addr

/-- The pending late fault that is taken at this instruction, the earliest issued first (spec/04 R66, spec/05 R79). `ack` says that
the instruction is an acknowledgement point, `wait` that it has waited for acknowledgements and took the fault meanwhile. -/
def lateHere (k : Task) (ls : List Late) (atLine : Bool) (mask : BitVec 6) (reads : List Nat) (ack wait : Bool) : Option Late :=
  (k.late.filter fun l => ls.contains l && match l.at_ with
    | .boundary => true
    | .use => (l.counter < 6 && mask.getLsbD l.counter) || ack || l.dests.any reads.contains || (wait && l.heldAt = some k.pc) || k.ownOf l
    | .lineEnd => atLine).foldl (fun acc l => match acc with
      | none => some l
      | some m => if l.order < m.order then some l else some m) none

/-- Take a pending late fault or note at the next instruction (spec/04 R66, spec/07 R140): it is no longer pending. An exact one
that had to wait for its stream is exact still. -/
def takeLate (s : State) (t : Nat) (w : Who) (l : Late) : State :=
  let u := s.tile t
  if !u.settled w then s.modTile t fun u => { u with cyc := u.cyc + 1 }
  else if numTiles ≤ t then endProgram s t l.cause l.addr
  else if u.pairOpen then s.modTile t fun u => { u.wantClose with cyc := u.cyc + 1 }
  else
    let s := s.modTile t fun u => u.modTask w fun k => { k with late := eraseFirst (· == l) k.late }
    takeTrap s t l.cause ((s.tile t).task w).pc l.addr (!l.note && l.at_ != .lineEnd && !l.exact) l.fdrop l.note false

/-- The instruction is a matrix instruction at which the owner takes an array fault (spec/14 R252). -/
def matrixTakes (i : Instr) : Bool :=
  match i with
  | .mcfg _ | .mloadb _ | .mloadz _ | .mrbuf _ | .mrbufBc _ | .mgang _ | .mmul _ | .mzeroAcc _ | .mzeroZp _ | .mdrain _
  | .mdrainp _ | .mchkcfg _ => true
  | _ => false

/-- The array fault that the owner takes here, with the PC of X: at a wait on the counter of the faulting or a later matrix
instruction, at a matrix instruction, at an acknowledgement point, whose guards hold (`takes`, spec/14 R252). -/
def arrayFault (u : Tile) (w : Who) (mask : BitVec 6) (takes : Bool) : Option (Cause × Nat) :=
  match w with
  | .img j => match u.matrix.toTake.find? fun e => e.1 = j with
    | some (_, c, pc) => if takes || u.matrix.after.any fun d => d.1 = j && d.2 < 6 && mask.getLsbD d.2 then some (c, pc) else none
    | none => none
  | _ => none

/-- The array fault of a context is no longer pending (spec/14 R252). -/
def Matrix.taken (m : Matrix) (i : Nat) : Matrix :=
  { m with toTake := m.toTake.filter fun e => e.1 != i, after := m.after.filter fun e => e.1 != i }

/-- What is pending of the matrix array for a stream is forgotten. -/
def Tile.forgetArray (u : Tile) (w : Who) : Tile :=
  match w with
  | .img i => { u with matrix := u.matrix.taken i }
  | _ => u

/-- Take an array fault: the faulting address is the PC of X, and the fault is no longer pending (spec/14 R252). -/
def takeArrayFault (s : State) (t : Nat) (w : Who) (c : Cause × Nat) (pc : Word) : State :=
  let u := s.tile t
  if !u.settled w then s.modTile t fun u => { u with cyc := u.cyc + 1 }
  else if u.pairOpen then s.modTile t fun u => { u.wantClose with cyc := u.cyc + 1 }
  else takeTrap (s.modTile t fun u => u.forgetArray w) t c.1 pc (BitVec.ofNat 64 c.2) true false false false

/-! ### Retirement -/

/-- The gid of a cohort's group (spec/09 Table 2). -/
def Cohort.gid (c : Cohort) : Nat := c.slot * 2 ^ 20 + c.index

/-- The cohort that a tile is placed for (spec/09 R155). -/
def State.cohortOf (s : State) (t : Nat) : Option Cohort :=
  s.cohorts.find? fun c =>
    match s.husk c.tenant with
    | some h => tileX t ≥ h.col0 + c.x && tileX t < h.col0 + c.x + c.w && tileY t ≥ h.row0 + c.y && tileY t < h.row0 + c.y + c.h
    | none => false

/-- Count a retired instruction: the slice of a level-0 task (spec/18 R341), its masked window (spec/15 R285), the quantum
of a DET group (spec/16 R308), for which an access that may still restart its line keeps what has been counted since, the interval of a
pair (spec/19 R358). -/
def countRetired (s : State) (t : Nat) (w : Who) (wasOpen : Bool) : State :=
  let det := match s.cohortOf t, w with
    | some c, .img _ => c.det && ((s.tile t).task w).gid.toNat = c.gid
    | _, _ => false
  s.modTile t fun u =>
    let u := match w with
      | .img _ => if u.hnd.isNone && u.l1.isNone then { u with used := u.used + 1 } else u
      | _ => u
    let u := if wasOpen then u.modTask w fun k =>
        if k.mwo then { k with tstat := setField k.tstat 40 32 (k.mcnt + 1) } else k else u
    let u := if det && !u.det.finished then { u with
        det := { u.det with count := u.det.count + 1 }
        out := u.out.map fun o => if o.who = w then { o with snap := o.snap.map fun y => { y with count := y.count + 1 } } else o } else u
    { u with pairing := u.pairing.map fun p =>
        { p with count := p.count + 1, closing := p.closing || p.k ≤ p.count + 1 } }

/-- The stream is that of a follower in a forwarded gang (spec/09 R152). -/
def Tile.following (u : Tile) (w : Who) : Bool :=
  match w with
  | .img _ => (u.task w).fwd && field (u.task w).lid 15 12 != 0
  | _ => false

/-- The stream leaves its line: a follower so leaves the forwarded one. -/
def Tile.leaveLine (u : Tile) (w : Who) : Tile := if u.following w then u.leftFwd else u

/-- Move on: the PC, the line, the cycle of the next issue (spec/10 R175), the pair. -/
def advance (s : State) (t : Nat) (w : Who) (f : Fields) (beats : Nat) (a : After) : State :=
  s.modTile t fun u =>
    let pc := (u.task w).pc
    let slot := pc.toNat % 8
    let first := !u.pairNext && match u.line, a with
      | some lb, .next => lb.no = pc.toNat / 8 && lb.line.pairBit slot
      | _, _ => false
    let b := if u.pairNext then max beats u.pairBeats else beats
    let u := if first then { u with pairNext := true, pairBeats := beats }
      else { u with pairNext := false, pairBeats := 0, cyc := u.cyc + b + f.stall.toNat }
    let u := { u with held := false }
    match a with
    | .gone => u
    | .next =>
      let u := u.modTask w fun k => { k with pc := nextPc k.pc, waitNo := none }
      if slot = 4 then { u.leaveLine w with line := none, atLine := true, checkTo := false } else { u with atLine := false }
    | .jump tgt lb => { (u.modTask w fun k => { k with pc := tgt, waitNo := none }).leaveLine w with line := lb, atLine := true, checkTo := false }

/-- The leader of a forwarded gang tells its members what it did with a slot (spec/09 R153): `taken` is the transfer. Its
own record of the line is the last one it forwarded. -/
def tellFollowers (s : State) (t : Nat) (w : Who) (slot : Nat) (guard : Bool) (a : After) : State :=
  let k := (s.tile t).task w
  let gm := field k.lid 15 12
  let gw := 2 ^ field k.lid 18 16
  match w with
  | .img _ =>
    if k.fwd && gm = 0 then
      (List.range gw).foldl (fun s j => s.modTile (t + j) fun u =>
        { u with fwd := match u.fwd.reverse with
          | [] => []
          | x :: r => ({ x with done := slot + 1, guards := x.guards ++ [(slot, guard)]
                                taken := (match a with
                                  | .jump tgt _ => some (slot, tgt)
                                  | _ => x.taken)
                                closed := x.closed || slot = 4 || (match a with
                                  | .next => false
                                  | _ => true) } :: r).reverse }) s
    else s
  | _ => s

/-- Retire an instruction. -/
def retire (s : State) (t : Nat) (w : Who) (f : Fields) (beats : Nat) (wasOpen guard : Bool) (a : After) : State :=
  match a with
  | .gone => s
  | _ =>
    let slot := ((s.tile t).task w).pc.toNat % 8
    let s := tellFollowers s t w slot guard a
    advance (countRetired s t w wasOpen) t w f beats a

/-! ### Memory-core programs -/

/-- What a memory-core program may use (spec/07 R130). -/
def mcAllows (i : Instr) (m : Form) (f : Fields) : Bool :=
  (match i with
    | .bru _ => false
    | .ld _ | .st _ | .stOf _ | .ldb _ | .stb _ | .ldacq _ | .strel _ | .stf _ | .aadd _ | .amin _ | .amax _ | .aminn _ | .amaxn _
    | .aand _ | .aor _ | .axor _ | .aswap _ | .acas _ | .fence _ | .fenceAck _ => true
    | _ => m.unit = .scalar || (match i with
      | .br _ | .bri _ | .call _ | .calli _ | .ret _ | .loop _ | .done _ | .ifence _ => true
      | _ => false))
  && (m.reads f ++ m.writes f).all fun r => r ≤ 0x3F || (0x60 ≤ r && r ≤ 0x67) || (0x100 ≤ r && r < 0x120)

/-! ### Issue -/

/-- The instruction may issue while a status of its line is outstanding: it changes registers alone, or is a plain load
(spec/06 R102; DEDUCED, log 11). -/
def statusFree (i : Instr) (m : Form) (f : Fields) : Bool :=
  match i with
  | .ld _ | .ldb _ | .setit _ | .advit _ => true
  | .done _ | .ifence _ => false
  | _ => (m.unit = .scalar || m.unit = .float || m.unit = .block || m.unit = .control)
      && !((m.sources f ++ [f.dest.toNat]).any fun r => 0x40 ≤ r && r ≤ 0x4F)

/-- An access of the task that an unreturned acquire holds (spec/06 R114, spec/17 R322, spec/14 R250). -/
def acquireHolds (i : Instr) (m : Form) : Bool :=
  match i with
  | .setit _ | .advit _ | .fence _ | .fenceAck _ => false
  | .send _ | .sendb _ | .launch _ | .bdecl _ | .mloadb _ | .mrbuf _ | .mrbufBc _ | .mrestore _ | .msave _ | .msaveFree _ => true
  | _ => m.unit = .memory

/-- The operation can still fault after its line: its fault is late-detected, or it is an LDA.w that parks (spec/04 R67,
spec/05 R79). -/
def Outst.canFail (o : Outst) : Bool :=
  o.late || o.group.isSome || match o.op with
    | some (.lda .w _ _) => true
    | _ => false

/-- A word that an instruction under PX has written is on its way to a push port, or completes a record that has not gone out yet
(spec/15 R288). -/
def Tile.pushDue (u : Tile) (w : Who) : Bool :=
  let pend := u.pendingRegs w
  u.ports.any fun e => e.2.any fun p => p.who = w && ((u.task w).px || p.px) && match p.kind with
    | .push _ _ st sent => (8 ≤ st.length && !sent) || pend.contains (0x40 + e.1)
    | .pop _ _ => false

/-- Under PX the next instruction waits until what can still fault has been acknowledged, a record that it completes for a push port
with it, and until the matrix instruction before it has completed (spec/04 R67, spec/14 R252, spec/15 R288); and so it does behind an
instruction that issued under PX, though PX has been cleared since. -/
def Tile.pxHolds (u : Tile) (w : Who) : Bool :=
  let px := (u.task w).px
  u.out.any (fun o => o.who = w && (px || o.px) && o.canFail) || u.matrix.queue.any (fun q => q.who = w && (px || q.px)) || u.pushDue w

/-- The stream is held: where it stands, or inside a line that it has come back to under PX and may not enter yet (spec/09 R150,
spec/05 R79). -/
def Tile.halted (u : Tile) : Bool := u.held || (u.line.isNone && u.active.any u.pxHolds)

/-- Predicates and registers that the instruction and its guard read. -/
def allReads (m : Form) (f : Fields) : List Nat :=
  (if f.pred = 7 then [] else [0x60 + f.pred.toNat]) ++ m.reads f

/-- The registers that decide on a use of an access: all that is read, or the guard alone of a guard-false instruction. -/
def usedReads (m : Form) (f : Fields) (guard : Bool) : List Nat :=
  if guard then allReads m f else if f.pred = 7 then [] else [0x60 + f.pred.toNat]

/-- The beat that covers block word k, of `beats` beats over `n` words (spec/10 R180). -/
def beatOf (n beats k : Nat) : Nat := if beats = n then k else k / 4

/-- The block word with which register `j` of the run in operand `o` is first read, for STALL: VQBLK and VDQ read a descriptor with the
first word of its group, VDQ an element and MSCA a term with the destination word or block word that it serves; a register that serves
several beats is read anew in each of them (DEDUCED, log 13). -/
def runFirst (i : Instr) (f : Fields) (o j : Nat) : Nat :=
  match i, o with
  | .vqblk _, 3 => 2 * j * vqG f / (64 / f.ty2.bits)
  | .vdq _, 3 => 2 * j * vqG f / (64 / f.ty.bits)
  | .vdq _, 0 => j * (64 / f.ty2.bits) / (64 / f.ty.bits)
  | .msca _, _ => 2 * j
  | _, _ => 0

/-- The registers that an instruction reads, guard and queue ports apart, each with the first beat that reads it (spec/10 R176;
VPERM and VTRN read in their last beat, R229, R230). -/
def readBeats (i : Instr) (m : Form) (f : Fields) : List (Nat × Nat) :=
  let bt := m.beats f
  let at_ (k : Nat) : Nat := match i with
    | .vperm _ | .vtrn _ => bt - 1
    | _ => min (beatOf (f.h * f.wd) bt k) (bt - 1)
  let one (o : Nat) (k : Kind) (v : Nat) : List (Nat × Nat) := match k with
    | .origin => (List.range (f.h * f.wd)).zip (blockRegs v f.h f.wd) |>.map fun e => (wId e.2, at_ e.1)
    | .run regs => (List.range (regs f v).length).zip (regs f v) |>.map fun e => (wId e.2, at_ (runFirst i f o e.1))
    | k => (k.regs f v).map fun r => (r, 0)
  one 0 m.a f.a.toNat ++ one 1 m.b f.b.toNat ++ one 2 m.c f.c.toNat ++ (if m.block then one 3 m.fourth f.fourth else [])
    ++ (if m.stores then one 4 m.dest f.dest.toNat else []) ++ (m.xr f).map fun r => (r, 0)

/-- A register still has a pending write in cycle `c`. -/
def Tile.pendingAt (u : Tile) (w : Who) (c r : Nat) : Bool :=
  ({ u with pend := u.pend.filter fun p => c < p.due }.pendingRegs w).contains r

/-- Under SCHK the guard's predicate still has a pending write (spec/10 R179). Where the guard comes out false that raises no STALL: R105
and R170 say that such an instruction raises no fault, and R179 makes no difference (DESIGN CHOICE, log 116). -/
def Tile.guardStalls (u : Tile) (w : Who) (f : Fields) : Bool :=
  (u.task w).schk && f.pred != 7 && u.pendingAt w u.cyc (0x60 + f.pred.toNat)

/-- The registers of its live mask, which a SPAWN reads too (spec/15 R282). -/
def Tile.maskReads (u : Tile) (w : Who) (i : Instr) : List Nat :=
  match i with
  | .spawn f => (List.range 32).filter fun r => ((u.task w).getG f.b.toNat).getLsbD r
  | _ => []

/-- The eighth word for a push port of the stream is the instruction's result: it waits as a STREL at `.husk` (spec/15 R288). -/
def Tile.completesRecord (u : Tile) (w : Who) (m : Form) (f : Fields) : Bool :=
  match m.dest with
  | .wr => 0x40 ≤ f.dest.toNat && f.dest.toNat ≤ 0x4F && (u.port (f.dest.toNat - 0x40)).any fun p => p.who = w && match p.kind with
    | .push _ _ st _ => st.length = 7
    | .pop _ _ => false
  | _ => false

/-- Under SCHK the instruction reads a register, predicate or guard that still has a pending write when it reads it
(spec/10 R179). -/
def Tile.stalls (u : Tile) (w : Who) (i : Instr) (m : Form) (f : Fields) : Bool :=
  u.guardStalls w f || (u.task w).schk && ((readBeats i m f).any (fun e => u.pendingAt w (u.cyc + e.2) e.1)
    || (u.maskReads w i).any (u.pendingAt w u.cyc))

/-- The wait mask that is tested before the instruction issues: both masks of a pair (spec/10 R165). -/
def waitMaskOf (u : Tile) (w : Who) (f : Fields) : BitVec 6 :=
  let slot := (u.task w).pc.toNat % 8
  match u.line with
  | some lb => if !u.pairNext && lb.no = (u.task w).pc.toNat / 8 && lb.line.pairBit slot
      then f.wait ||| (fieldsOf (lb.line.slot (slot + 1))).wait else if u.pairNext then 0 else f.wait
  | none => f.wait

/-- The guard (spec/10 R170). -/
def guardOf (k : Task) (f : Fields) : Bool := xor (k.getP f.pred.toNat) f.neg

/-- A transfer that the leader of a forwarded gang governs (spec/09 R153); BALW and IFENCE are taken with it (log 14). -/
def governed (i : Instr) : Bool :=
  match i with
  | .br _ | .bri _ | .call _ | .calli _ | .ret _ | .loop _ | .bru _ | .done _ | .ifence _ | .balw _ => true
  | _ => false

/-- The guard that decides: a follower of a forwarded gang takes the leader's at a transfer, and runs a BRU when either
holds so that it can compare; none while the leader has not come there. A slot that the leader has passed without a decision, since its
handler's return has skipped it (spec/18 R347), is no transfer. A BARW or QUANT `.w` that waits has issued, its guard read
(spec/16 R307, R313). -/
def guardOfStream (u : Tile) (w : Who) (i : Instr) (f : Fields) : Option Bool :=
  let k := u.task w
  if k.waitNo.any fun e => e.1 = k.pc then some true
  else if u.following w && governed i then
    match u.fwd with
    | [] => none
    | x :: r => match x.guards.find? fun g => g.1 = k.pc.toNat % 8 with
      | some g => some (match i with
        | .bru _ => g.2 || guardOf k f
        | _ => g.2)
      | none => if k.pc.toNat % 8 < x.done || !r.isEmpty then some false else none
  else some (guardOf k f)

/-- An instruction before which a pair's interval closes (spec/19 R358). R358 does not name BARA among them: it does not close the
interval at once, and does so where it has to wait for stores of the remote buffer (DESIGN CHOICE, log 24). -/
def pairCloses (i : Instr) (base : Word) : Bool :=
  match i with
  | .strel _ | .fence _ | .fenceAck _ | .send _ | .sendb _ | .wkdec _ | .park _ | .launch _ | .unpair _ | .done _ => true
  | .st f => regionOf (base + f.imm.signExtend 64) == 0x03
  | .aadd f | .amin f | .amax f | .aminn f | .amaxn f | .aand f | .aor f | .axor f | .aswap f | .acas f => f.minor.getLsbD 2
  | _ => false

/-- Steps 3 to 5 of spec/10 R169, with the bindings of queue ports (R171, spec/15 R286). -/
def decodeChecks (s : State) (t : Nat) (w : Who) (i : Instr) (m : Form) (f : Fields) : Except Stop Unit := do
  let u := s.tile t
  let k := u.task w
  need (i.setsOk && m.fieldsOk f) .illeg 0
  if numTiles ≤ t then need (mcAllows i m f) .illeg 0
  need ((m.sources f).all fun r => r < 0x40 || 0x4F < r || u.popBound w (r - 0x40)) .illeg 0
  need (match m.dest with
    | .wr => f.dest.toNat < 0x40 || 0x4F < f.dest.toNat || u.pushBound w (f.dest.toNat - 0x40)
    | _ => true) .illeg 0
  match w with
  | .img _ => .ok ()
  | _ => need (!m.level0Only f && !m.lvl0) .illeg 0
  need (!(m.noUndo && (match w, u.l1 with
    | .lvl1, some x => x.undo
    | _, _ => false))) .illeg 0
  need (!(m.noHnd && k.hnd)) .illeg 0
  need (!m.priv || k.sup) .priv (u.openAddr t)

/-- An instruction with which a member of a forwarded gang may leave its line: the line is left at every member once the statuses of its
accesses are in (spec/06 R102, spec/09 R153). -/
def leavesGangLine (k : Task) (w : Who) (i : Instr) : Bool :=
  (match w with
    | .img _ => k.fwd
    | _ => false) && (governed i || k.pc.toNat % 8 = 4)

/-- What holds an instruction whose guard is true before its body (spec/10 R177, R178, spec/06 R101, R102, R104, R114,
spec/13 R232, spec/11 R188, spec/12 R214). A memory-core program stops at a fault of the instruction itself, so nothing passes an
access of it (spec/07 R134). -/
def issueHolds (s : State) (t : Nat) (w : Who) (i : Instr) (m : Form) (f : Fields) : Except Stop Unit := do
  let u := s.tile t
  let k := u.task w
  let pend := u.pendingRegs w
  let wr := m.writes f
  let awaits := u.out.any fun o => o.who = w && o.status
  if awaits && (!statusFree i m f || numTiles ≤ t || pend.contains 0x6F) then .error (.hold none)
  if f.setc.toNat < 6 && 255 ≤ k.getD f.setc.toNat then .error (.hold none)
  if wr.any pend.contains then .error (.hold (some (.regs wr)))
  if acquireHolds i m && (u.out.any (fun o => o.who = w && o.acquire) || u.matrix.queue.any fun q => q.who = w && (match q.i with
      | .mgang _ => true
      | _ => false)) then .error (.hold none)
  match u.reduction with
  | some j => if j.who = w && wr.any j.reads.contains then .error (.hold none)
  | none => .ok ()
  let sticky := (m.reads f ++ wr).contains 0x6F || (match i with
    | .tfence _ => true
    | _ => false)
  if sticky && (!u.pend.isEmpty || (u.divider.any fun j => j.who = w) || (u.reduction.any fun j => j.who = w)
      || u.matrixBusy w) then .error (.hold none)
  if (u.divider.any fun j => j.who = w && j.writes.any fun x => x.1 = 0x6E)
      || (u.awaitedRegs w).contains 0x6E || u.matrix.queue.any (fun q => q.who = w && q.writes.contains 0x6E) then .error (.hold none)
  if u.ports.any (fun e => e.2.any fun p => p.who = w && (match p.kind with
      | .push _ _ st sent => 8 ≤ st.length && !sent
      | .pop _ _ => false)) then .error (.hold none)
  checkPush u w (match m.dest with
    | .wr => f.dest.toNat
    | _ => 0)
  if u.completesRecord w m f && u.owes w true false then .error (.hold (some (.acks true false)))

/-- The rounding mode that an instruction reads: an earlier write of tstat counts at once (spec/12 R214), and for the second member of a
pair whose first writes tstat too, though the two issue as one, of which R214 does not speak (DESIGN CHOICE, log 127). -/
def roundingOf (u : Tile) (w : Who) : Nat :=
  match u.pend.find? fun p => p.writes.any fun x => x.1 = 0x6E with
  | some p => (match p.writes.find? fun x => x.1 = 0x6E with
    | some x => field x.2 1 0
    | none => 0)
  | none => (u.task w).rm

/-- The push port of a destination notes the instruction of task `k` that writes to it (spec/04 R66, R67, spec/15 R288). -/
def Tile.notePort (u : Tile) (m : Form) (f : Fields) (k : Task) : Tile :=
  match m.dest with
  | .wr => if 0x40 ≤ f.dest.toNat && f.dest.toNat ≤ 0x4F then
      { u with ports := u.ports.map fun e =>
          if e.1 = f.dest.toNat - 0x40 then (e.1, e.2.map fun p => { p with pc := k.pc, px := k.px }) else e }
    else u
  | _ => u

/-- The sources are read in the order a, b, c (spec/10 R169), and the operation gets its number. -/
def operands (m : Form) (f : Fields) (t : Nat) (w : Who) (s : State) : Except Stop (State × In) := do
  let (s1, a) ← readSrc s t w m.a f.a.toNat
  let (s2, b) ← readSrc s1 t w m.b f.b.toNat
  let (s3, c) ← readSrc s2 t w m.c f.c.toNat
  let u := s3.tile t
  .ok (s3.modTile t fun u => { u.notePort m f (u.task w) with seq := u.seq + 1 },
    { t := t, w := w, f := f, a := a, b := b, c := c, seq := u.seq, pc := (u.task w).pc, rm := roundingOf u w })

/-- A guard-true instruction past its checks: operands, body, retirement. -/
def runBody (m : Form) (f : Fields) (body : In → State → Except Stop (State × After)) (t : Nat) (w : Who) (s : State) :
    Except Stop State := do
  let (s1, x) ← operands m f t w s
  let (s2, r) ← body x s1
  .ok (retire s2 t w f (m.beats f) ((s1.tile t).task w).mwo true r)

/-- The late fault that stream `w` takes at instruction `i`, whose guard came out as `guard`. -/
def lateAtIssue (s : State) (t : Nat) (w : Who) (i : Instr) (m : Form) (f : Fields) (guard : Bool) : Option Late :=
  let u := s.tile t
  let k := u.task w
  lateHere k k.late u.atLine (waitMaskOf u w f) (usedReads m f guard ++ if guard then u.maskReads w i else [])
    (guard && ackPoint i (readReg s t w f.a.toNat)) (guard && (waitPoint i || u.completesRecord w m f))

/-- The array fault that it takes there. -/
def arrayAtIssue (s : State) (t : Nat) (w : Who) (i : Instr) (f : Fields) (guard : Bool) : Option (Cause × Nat) :=
  arrayFault (s.tile t) w (waitMaskOf (s.tile t) w f) (guard && (matrixTakes i || ackPoint i (readReg s t w f.a.toNat)))

/-- A STALL of the instruction at `pc` is pending for the end of its line, where none was before (spec/10 R179). -/
def addStall (s : State) (t : Nat) (w : Who) (pc : Word) : State :=
  s.modTile t fun u => u.modTask w fun k =>
    { k with late := if k.late.any (fun l => l.at_ = .lineEnd) then k.late
        else k.late ++ [{ cause := .stall, addr := pc, at_ := .lineEnd, order := u.seq }] }

/-- Issue one instruction of the stream that core `s.cur` runs (spec/10 R169). Under PX what may still fault comes before everything, an
older late fault too, so that its own fault is taken at it (spec/04 R67, spec/05 R79). -/
def issue (i : Instr) (m : Form) (f : Fields) (body : In → State → Except Stop (State × After)) (s : State) :
    Host.Outcome State Fault Refusal :=
  let t := s.cur
  let u := s.tile t
  match u.active with
  | none => .refused .notPending
  | some w =>
    let k := u.task w
    let mask := waitMaskOf u w f
    let decided := guardOfStream u w i f
    let guard := decided.getD false
    if u.pxHolds w then .next (holdTask s t w none)
    else match lateAtIssue s t w i m f guard with
    | some l => .next (takeLate s t w l)
    | none =>
      match arrayAtIssue s t w i f guard with
      | some c => .next (takeArrayFault s t w c k.pc)
      | none =>
        if !k.maskClear mask then .next (holdTask s t w (some (.counters mask)))
        else if k.mwo && 256 ≤ k.mcnt then .next (trapNow s t w .masklong 0 k.pc false false false false)
        else if decided.isNone || (leavesGangLine k w i && u.out.any fun o => o.who = w && o.status) then .next (holdTask s t w none)
        else if guard && pairCloses i (readReg s t w f.a.toNat) && u.pairOpen then
          .next (s.modTile t fun u => { u.wantClose with cyc := u.cyc + 1 })
        else if !guard then .next (retire s t w f 1 k.mwo false .next)
        else
          let stalls := u.stalls w i m f
          match (do
            decodeChecks s t w i m f
            issueHolds s t w i m f
            if stalls && k.px then trapAt .stall k.pc
            runBody m f body t w (if stalls then addStall s t w k.pc else s) : Except Stop State) with
          | .ok s' => .next s'
          | .error e => settle s t w k.pc e

end Sys2Proof.Machine
end

