-- ==== Sys2Proof/Machine/Operands.lean ====
section
/-!
DEFINITION. Operand forms: scalar operands and results of a type (spec/12 R198), elements of block words (spec/10 R174,
R176), runs of elements (spec/13 R237), and the beats in which a block instruction reads its words and writes its results
(spec/10 R176, R180).
-/

namespace Sys2Proof.Machine

open Sys2Proof

/-! ### Scalars -/

/-- The low n bits of a source, n the width of the type (spec/12 R198). -/
def In.av (x : In) : Nat := x.a.toNat % 2 ^ x.f.ty.bits
def In.bv (x : In) : Nat := x.b.toNat % 2 ^ x.f.ty.bits
def In.cv (x : In) : Nat := x.c.toNat % 2 ^ x.f.ty.bits
/-- I = sext64(imm28)[n − 1:0] (spec/12 R201). -/
def In.iv (x : In) : Nat := (x.f.imm.signExtend 64).toNat % 2 ^ x.f.ty.bits

/-- The immediate as a signed offset (spec/06 R96). -/
def In.immS (x : In) : Word := x.f.imm.signExtend 64

/-- A 64-bit result in the destination, readable `l` cycles after the issue. -/
def resultW (x : In) (s : State) (l : Nat) (v : Word) (fl : Nat) : State := emit s x l [(x.f.dest.toNat, v)] fl

/-- An n-bit result of the instruction's type, extended (spec/12 R198). -/
def resultN (x : In) (s : State) (l v fl : Nat) : State := resultW x s l (extendLoad x.f.ty v) fl

/-! ### Elements -/

/-- Elements of b bits in a register (spec/10 R174). -/
def perReg (b : Nat) : Nat := 64 / b
/-- Element j of a register. -/
def element (v : Word) (b j : Nat) : Nat := v.toNat / 2 ^ (j * b) % 2 ^ b
/-- A register from its elements, element 0 lowest. -/
def packElements (b : Nat) (es : List Nat) : Word :=
  BitVec.ofNat 64 ((List.range es.length).zip es |>.foldl (fun n e => n + e.2 % 2 ^ b * 2 ^ (e.1 * b)) 0)
/-- A register with element j replaced. -/
def setElement (v : Word) (b j e : Nat) : Word := setField v (j * b + b - 1) (j * b) e

/-- Every element of one, two or three registers through an operation that answers a value and flags. -/
def map1 (b : Nat) (g : Nat → FR) (v : Word) : Word × Nat :=
  let rs := (List.range (perReg b)).map fun j => g (element v b j)
  (packElements b (rs.map (·.1)), rs.foldl (fun n r => orF n r.2) 0)
def map2 (b : Nat) (g : Nat → Nat → FR) (v u : Word) : Word × Nat :=
  let rs := (List.range (perReg b)).map fun j => g (element v b j) (element u b j)
  (packElements b (rs.map (·.1)), rs.foldl (fun n r => orF n r.2) 0)
def map3 (b : Nat) (g : Nat → Nat → Nat → FR) (v u w : Word) : Word × Nat :=
  let rs := (List.range (perReg b)).map fun j => g (element v b j) (element u b j) (element w b j)
  (packElements b (rs.map (·.1)), rs.foldl (fun n r => orF n r.2) 0)

/-! ### Beats (spec/10 R176, R180) -/

/-- Block word k of an operand as its beat reads it. -/
def blockWord (s : State) (x : In) (origin beats k : Nat) : Word :=
  let n := x.f.h * x.f.wd
  readAt s x.t x.w (wId (origin + 8 * (k / x.f.wd) + k % x.f.wd)) ((s.tile x.t).cyc + beatOf n beats k)

/-- Block word k as read in the instruction's last beat. -/
def blockWordLast (s : State) (x : In) (origin beats k : Nat) : Word :=
  readAt s x.t x.w (wId (origin + 8 * (k / x.f.wd) + k % x.f.wd)) ((s.tile x.t).cyc + beats - 1)

/-- Results per block word in row-major order become readable with their beats, at latency `l`; with the last one where the
destination shares a register with a source (`shared`). -/
def blockResult (s : State) (x : In) (beats l : Nat) (shared : Bool) (vals : List (Nat × Word)) (fl : Nat) : State :=
  let n := vals.length
  let c := (s.tile x.t).cyc
  let parts := (List.range beats).map fun k =>
    (c + (if shared then beats - 1 else k) + l,
      ((List.range n).zip vals |>.filter fun e => beatOf n beats e.1 = k).map (·.2))
  emitBeats s x parts fl

/-- Some destination register is a source register. -/
def sharesRegs (ds ss : List Nat) : Bool := ds.any ss.contains

/-- A block instruction word by word: `g k` is the value of destination word k and its flags. -/
def blockMap (s : State) (x : In) (beats l : Nat) (sources : List Nat) (g : Nat → Word × Nat) : State :=
  let ds := blockRegs x.f.dest.toNat x.f.h x.f.wd
  let rs := (List.range ds.length).map g
  let shared := sharesRegs ds (sources.map fun o => blockRegs o x.f.h x.f.wd).flatten
  blockResult s x beats l shared ((ds.map wId).zip (rs.map (·.1))) (rs.foldl (fun n r => orF n r.2) 0)

/-! ### Runs (spec/13 R237) -/

/-- Register `r` of a run as the beat at offset `d` reads it. -/
def runWord (s : State) (x : In) (r d : Nat) : Word := readAt s x.t x.w (wId r) ((s.tile x.t).cyc + d)

/-- Element i of a run at register `r`, read in the beat at offset `d`. -/
def runElement (s : State) (x : In) (r b i d : Nat) : Nat := element (runWord s x (r + i / perReg b) d) b (i % perReg b)

/-- The register writes of a run of elements; bits of the last register that hold no element keep their value. -/
def runWrites (s : State) (x : In) (r b : Nat) (es : List Nat) (d : Nat) : List (Nat × Word) :=
  (List.range (runRegs es.length b)).map fun k =>
    let part := (es.drop (k * perReg b)).take (perReg b)
    let old := (runWord s x (r + k) d).toNat
    let keep := old / 2 ^ (part.length * b) * 2 ^ (part.length * b)
    (wId (r + k), BitVec.ofNat 64 (keep + (packElements b part).toNat))

end Sys2Proof.Machine
end

