-- ==== Sys2Proof/Machine/Scalar.lean ====
section
/-!
DEFINITION. The integer, bit-field, compare and predicate instructions (spec/12 R201 to R207).
-/

namespace Sys2Proof.Machine

open Sys2Proof

/-- An instruction whose result is a function of A, B and the width. -/
def intOp (g : Nat → Nat → Nat → Nat) (l : Nat) (x : In) (s : State) : Body.Out :=
  goOn (resultN x s l (g x.f.ty.bits x.av x.bv) 0)

/-- The shift amount: B mod n, or imm28 (spec/12 R201). -/
def In.shift (x : In) : Nat := if x.f.minor = 1 then x.f.imm.toNat else x.bv % x.f.ty.bits

/-- Shift an n-bit value right with copies of its sign (spec/12 Table 2). -/
def sarN (n a k : Nat) : Nat := wrap n (sgn n a / (2 ^ k : Nat))

/-- The upper half of a product (spec/12 Table 2). -/
def mulHigh (signed : Bool) (n a b : Nat) : Nat :=
  if signed then wrap n (sgn n a * sgn n b / (2 ^ n : Nat)) else a * b / 2 ^ n

/-- Zeros above the highest set bit. -/
def clzN (n a : Nat) : Nat := if a = 0 then n else n - 1 - Nat.log2 a

/-- Zeros below the lowest set bit, of at most n. -/
def ctzN (a : Nat) : Nat → Nat
  | 0 => 0
  | n + 1 => if a % 2 = 1 then 0 else 1 + ctzN (a / 2) n

/-- Set bits among the low n. -/
def popcN (a : Nat) : Nat → Nat
  | 0 => 0
  | n + 1 => a % 2 + popcN (a / 2) n

/-- NOP: no effect; its counter completes with zero latency (spec/12 R201). -/
def execNop (f : Fields) (s : State) : Host.Outcome State Fault Refusal :=
  issue (.nop f) {} f (fun _ s => goOn s) s

def execAdd (f : Fields) (s : State) : Host.Outcome State Fault Refusal :=
  issue (.add f) (formInt3 tyInt) f (intOp (fun n a b => (a + b) % 2 ^ n) 1) s

def execAddi (f : Fields) (s : State) : Host.Outcome State Fault Refusal :=
  issue (.addi f) formAddi f (fun x s => goOn (resultN x s 1 ((x.av + x.iv) % 2 ^ x.f.ty.bits) 0)) s

def execSub (f : Fields) (s : State) : Host.Outcome State Fault Refusal :=
  issue (.sub f) (formInt3 tyInt) f (intOp (fun n a b => (a + (2 ^ n - b)) % 2 ^ n) 1) s

def execMul (f : Fields) (s : State) : Host.Outcome State Fault Refusal :=
  issue (.mul f) (formInt3 tyInt (.fixed 3)) f (intOp (fun n a b => a * b % 2 ^ n) 3) s

def execMulh (f : Fields) (s : State) : Host.Outcome State Fault Refusal :=
  issue (.mulh f) (formInt3 tySigned (.fixed 3)) f (intOp (mulHigh true) 3) s

def execMulhn (f : Fields) (s : State) : Host.Outcome State Fault Refusal :=
  issue (.mulhn f) (formInt3 tyUnsigned (.fixed 3)) f (intOp (mulHigh false) 3) s

/-! ### Division (spec/12 R202) -/

/-- Quotient, remainder and flags. -/
def divide (signed : Bool) (n a b : Nat) : Nat × Nat × Nat :=
  if b = 0 then (2 ^ n - 1, a, flIDZ)
  else if signed then
    let q := Int.tdiv (sgn n a) (sgn n b)
    (wrap n q, wrap n (sgn n a - q * sgn n b), 0)
  else (a / b, a % b, 0)

/-- Hand an operation to the divider, which holds no other one. -/
def startDivider (x : In) (s : State) (v : Word) (fl : Nat) : Body.Out :=
  if (s.tile x.t).divider.isSome then .error (.hold none)
  else goOn (s.modTile x.t fun u =>
    { u.modTask x.w (·.raise x.f.setc.toNat) with
      divider := some { who := x.w, tag := x.seq, writes := realWrites [(x.f.dest.toNat, v)], flags := fl, lower := x.f.setc.toNat } })

/-- DIV, DIVN, REM, REMN. -/
def divOp (signed rem : Bool) (x : In) (s : State) : Body.Out :=
  let r := divide signed x.f.ty.bits x.av x.bv
  startDivider x s (extendLoad x.f.ty (if rem then r.2.1 else r.1)) r.2.2

def execDiv (f : Fields) (s : State) : Host.Outcome State Fault Refusal :=
  issue (.div f) (formInt3 tySigned .variable) f (divOp true false) s
def execDivn (f : Fields) (s : State) : Host.Outcome State Fault Refusal :=
  issue (.divn f) (formInt3 tyUnsigned .variable) f (divOp false false) s
def execRem (f : Fields) (s : State) : Host.Outcome State Fault Refusal :=
  issue (.rem f) (formInt3 tySigned .variable) f (divOp true true) s
def execRemn (f : Fields) (s : State) : Host.Outcome State Fault Refusal :=
  issue (.remn f) (formInt3 tyUnsigned .variable) f (divOp false true) s

/-! ### Logic, shifts, counts, minima -/

def execAnd (f : Fields) (s : State) : Host.Outcome State Fault Refusal :=
  issue (.and f) (formInt3 tyInt) f (intOp (fun _ a b => Nat.land a b) 1) s
def execOr (f : Fields) (s : State) : Host.Outcome State Fault Refusal :=
  issue (.or f) (formInt3 tyInt) f (intOp (fun _ a b => Nat.lor a b) 1) s
def execXor (f : Fields) (s : State) : Host.Outcome State Fault Refusal :=
  issue (.xor f) (formInt3 tyInt) f (intOp (fun _ a b => Nat.xor a b) 1) s
def execAndn (f : Fields) (s : State) : Host.Outcome State Fault Refusal :=
  issue (.andn f) (formInt3 tyInt) f (intOp (fun n a b => Nat.land a (2 ^ n - 1 - b)) 1) s

def execShl (f : Fields) (s : State) : Host.Outcome State Fault Refusal :=
  issue (.shl f) (formShift) f (fun x s => goOn (resultN x s 1 (x.av * 2 ^ x.shift % 2 ^ x.f.ty.bits) 0)) s
def execShr (f : Fields) (s : State) : Host.Outcome State Fault Refusal :=
  issue (.shr f) (formShift) f (fun x s => goOn (resultN x s 1 (x.av / 2 ^ x.shift) 0)) s
def execSar (f : Fields) (s : State) : Host.Outcome State Fault Refusal :=
  issue (.sar f) (formShift) f (fun x s => goOn (resultN x s 1 (sarN x.f.ty.bits x.av x.shift) 0)) s
def execRol (f : Fields) (s : State) : Host.Outcome State Fault Refusal :=
  issue (.rol f) (formShift) f (fun x s =>
    goOn (resultN x s 1 ((x.av * 2 ^ x.shift + x.av / 2 ^ (x.f.ty.bits - x.shift)) % 2 ^ x.f.ty.bits) 0)) s

def execClz (f : Fields) (s : State) : Host.Outcome State Fault Refusal :=
  issue (.clz f) formInt2 f (intOp (fun n a _ => clzN n a) 1) s
def execCtz (f : Fields) (s : State) : Host.Outcome State Fault Refusal :=
  issue (.ctz f) formInt2 f (intOp (fun n a _ => ctzN a n) 1) s
def execPopc (f : Fields) (s : State) : Host.Outcome State Fault Refusal :=
  issue (.popc f) formInt2 f (intOp (fun n a _ => popcN a n) 1) s

def execMin (f : Fields) (s : State) : Host.Outcome State Fault Refusal :=
  issue (.min f) (formInt3 tySigned) f (intOp (fun n a b => if sgn n a ≤ sgn n b then a else b) 1) s
def execMax (f : Fields) (s : State) : Host.Outcome State Fault Refusal :=
  issue (.max f) (formInt3 tySigned) f (intOp (fun n a b => if sgn n a ≤ sgn n b then b else a) 1) s
def execMinn (f : Fields) (s : State) : Host.Outcome State Fault Refusal :=
  issue (.minn f) (formInt3 tyUnsigned) f (intOp (fun _ a b => Nat.min a b) 1) s
def execMaxn (f : Fields) (s : State) : Host.Outcome State Fault Refusal :=
  issue (.maxn f) (formInt3 tyUnsigned) f (intOp (fun _ a b => Nat.max a b) 1) s

/-! ### Bit fields (spec/12 R203), moves (R204) -/

/-- Position and length of BFX, BFXN, BFI. -/
def In.pos (x : In) : Nat := x.f.imm.toNat % 64
def In.len (x : In) : Nat := x.f.imm.toNat / 64 + 1

def execSext (f : Fields) (s : State) : Host.Outcome State Fault Refusal :=
  issue (.sext f) formExt f (fun x s => goOn (resultW x s 1 (sext64 (x.f.imm.toNat + 1) x.a.toNat) 0)) s
def execZext (f : Fields) (s : State) : Host.Outcome State Fault Refusal :=
  issue (.zext f) formExt f (fun x s => goOn (resultW x s 1 (BitVec.ofNat 64 (x.a.toNat % 2 ^ (x.f.imm.toNat + 1))) 0)) s
def execBfx (f : Fields) (s : State) : Host.Outcome State Fault Refusal :=
  issue (.bfx f) (formBf .zero) f (fun x s => goOn (resultW x s 1 (sext64 x.len (x.a.toNat / 2 ^ x.pos)) 0)) s
def execBfxn (f : Fields) (s : State) : Host.Outcome State Fault Refusal :=
  issue (.bfxn f) (formBf .zero) f (fun x s =>
    goOn (resultW x s 1 (BitVec.ofNat 64 (x.a.toNat / 2 ^ x.pos % 2 ^ x.len)) 0)) s
def execBfi (f : Fields) (s : State) : Host.Outcome State Fault Refusal :=
  issue (.bfi f) (formBf .r) f (fun x s =>
    goOn (resultW x s 1 (setField x.a (x.pos + x.len - 1) x.pos x.b.toNat) 0)) s

def execSel (f : Fields) (s : State) : Host.Outcome State Fault Refusal :=
  issue (.sel f) formSel f (fun x s => goOn (resultN x s 1 (if bit x.c 0 then x.av else x.bv) 0)) s
def execMov (f : Fields) (s : State) : Host.Outcome State Fault Refusal :=
  issue (.mov f) formInt2 f (intOp (fun _ a _ => a) 1) s
def execMovi (f : Fields) (s : State) : Host.Outcome State Fault Refusal :=
  issue (.movi f) formMovi f (fun x s => goOn (resultN x s 1 x.iv 0)) s
def execMovh (f : Fields) (s : State) : Host.Outcome State Fault Refusal :=
  issue (.movh f) formMovh f (fun x s => goOn (resultW x s 1 (setField x.a 55 28 x.f.imm.toNat) 0)) s
def execMovhTop (f : Fields) (s : State) : Host.Outcome State Fault Refusal :=
  issue (.movhTop f) formMovhTop f (fun x s => goOn (resultW x s 1 (setField x.a 63 56 x.f.imm.toNat) 0)) s

/-! ### Compares and predicates (spec/12 R205, R207) -/

/-- A word from a truth value. -/
def ofB (b : Bool) : Word := if b then 1 else 0

/-- The two predicate writes of a compare; the old values are read at issue. -/
def compareWrites (x : In) (s : State) (c : Bool) : List (Nat × Word) :=
  let old (r : Nat) : Bool := bit (readReg s x.t x.w r) 0
  let comb (r : Nat) (v : Bool) : Bool :=
    match x.f.minor.toNat / 4 with
    | 0 => v
    | 1 => old r && v
    | _ => old r || v
  [(x.f.dest.toNat, ofB (comb x.f.dest.toNat c)), (x.f.c.toNat, ofB (comb x.f.c.toNat (!c)))]

/-- COND of an integer compare. -/
def intCond (x : In) (a b : Nat) : Bool :=
  let n := x.f.ty.bits
  match x.f.minor.toNat % 4 with
  | 0 => a == b
  | 1 => if x.f.ty.signed then sgn n a < sgn n b else a < b
  | _ => if x.f.ty.signed then sgn n a ≤ sgn n b else a ≤ b

def execCmp (f : Fields) (s : State) : Host.Outcome State Fault Refusal :=
  issue (.cmp f) formCmp f (fun x s => goOn (emit s x 1 (compareWrites x s (intCond x x.av x.bv)) 0)) s
def execCmpi (f : Fields) (s : State) : Host.Outcome State Fault Refusal :=
  issue (.cmpi f) formCmpi f (fun x s => goOn (emit s x 1 (compareWrites x s (intCond x x.av x.iv)) 0)) s

def execPset (f : Fields) (s : State) : Host.Outcome State Fault Refusal :=
  issue (.pset f) formPset f (fun x s =>
    goOn (emit s x 1 (((List.range 7).filter fun i => x.f.imm.getLsbD (8 + i)).map fun i =>
      (0x60 + i, ofB (x.f.imm.getLsbD i))) 0)) s
def execPlog (f : Fields) (s : State) : Host.Outcome State Fault Refusal :=
  issue (.plog f) formPlog f (fun x s =>
    goOn (resultW x s 1 (ofB (x.f.minor.getLsbD (2 * (x.a.toNat % 2) + x.b.toNat % 2))) 0)) s

/-- The divider writes its result (spec/12 R202). -/
def execDividerCompletion (s : State) : Host.Outcome State Fault Refusal :=
  let t := s.cur
  match (s.tile t).divider with
  | none => .refused .notPending
  | some j =>
    .next (wakeWaiting (s.modTile t fun u => { u with divider := none }.finishJob j) t)

end Sys2Proof.Machine
end

