-- ==== Sys2Proof/Machine/FloatOps.lean ====
section
/-!
DEFINITION. The floating instructions (spec/12 R209 to R213).
-/

namespace Sys2Proof.Machine

open Sys2Proof

/-- The value of a source in the instruction's format. -/
def In.fa (x : In) : FV := fval (fmtOf x.f.ty) x.av
def In.fb (x : In) : FV := fval (fmtOf x.f.ty) x.bv
def In.fc (x : In) : FV := fval (fmtOf x.f.ty) x.cv

/-- A floating result of latency class S4. -/
def floatRes (r : FR) (x : In) (s : State) : Body.Out := goOn (resultN x s 4 r.1 r.2)

def execFadd (f : Fields) (s : State) : Host.Outcome State Fault Refusal :=
  issue (.fadd f) (formF3 (.fixed 4)) f (fun x => floatRes (faddV (fmtOf x.f.ty) x.rm x.fa x.fb) x) s
def execFsub (f : Fields) (s : State) : Host.Outcome State Fault Refusal :=
  issue (.fsub f) (formF3 (.fixed 4)) f (fun x => floatRes (faddV (fmtOf x.f.ty) x.rm x.fa x.fb.flip) x) s
def execFmul (f : Fields) (s : State) : Host.Outcome State Fault Refusal :=
  issue (.fmul f) (formF3 (.fixed 4)) f (fun x => floatRes (fmulV (fmtOf x.f.ty) x.rm x.fa x.fb) x) s
def execFfma (f : Fields) (s : State) : Host.Outcome State Fault Refusal :=
  issue (.ffma f) formFfma f (fun x => floatRes (ffmaV (fmtOf x.f.ty) x.rm x.fa x.fb x.fc) x) s

def execFdiv (f : Fields) (s : State) : Host.Outcome State Fault Refusal :=
  issue (.fdiv f) (formF3 .variable) f (fun x s =>
    let r := fdivV (fmtOf x.f.ty) x.rm x.fa x.fb
    startDivider x s (extendLoad x.f.ty r.1) r.2) s
def execFsqrt (f : Fields) (s : State) : Host.Outcome State Fault Refusal :=
  issue (.fsqrt f) (formF2 .variable) f (fun x s =>
    let r := fsqrtV (fmtOf x.f.ty) x.rm x.fa
    startDivider x s (extendLoad x.f.ty r.1) r.2) s

def execFmin (f : Fields) (s : State) : Host.Outcome State Fault Refusal :=
  issue (.fmin f) (formF3 (.fixed 4)) f (fun x => floatRes (fminmax (fmtOf x.f.ty) false x.av x.bv) x) s
def execFmax (f : Fields) (s : State) : Host.Outcome State Fault Refusal :=
  issue (.fmax f) (formF3 (.fixed 4)) f (fun x => floatRes (fminmax (fmtOf x.f.ty) true x.av x.bv) x) s

def execFabs (f : Fields) (s : State) : Host.Outcome State Fault Refusal :=
  issue (.fabs f) (formF2 (.fixed 1)) f (fun x s =>
    let r := fsignOp (fmtOf x.f.ty) false x.av
    goOn (resultN x s 1 r.1 r.2)) s
def execFneg (f : Fields) (s : State) : Host.Outcome State Fault Refusal :=
  issue (.fneg f) (formF2 (.fixed 1)) f (fun x s =>
    let r := fsignOp (fmtOf x.f.ty) true x.av
    goOn (resultN x s 1 r.1 r.2)) s

def execFcmp (f : Fields) (s : State) : Host.Outcome State Fault Refusal :=
  issue (.fcmp f) formFcmp f (fun x s =>
    let r := fcond (x.f.minor.toNat % 4) x.fa x.fb
    goOn (emit s x 4 (compareWrites x s r.1) r.2)) s

/-- The source type that the minor of a conversion names. -/
def In.floatSrc (x : In) : Ty := Ty.ofCode (8 + x.f.minor.toNat % 4)

def execFcvt (f : Fields) (s : State) : Host.Outcome State Fault Refusal :=
  issue (.fcvt f) (formConv (· < 4) tyFloat) f (fun x =>
    floatRes (fcvtV x.rm (fmtOf x.floatSrc) (fmtOf x.f.ty) (x.a.toNat % 2 ^ x.floatSrc.bits)) x) s
def execFtoi (f : Fields) (s : State) : Host.Outcome State Fault Refusal :=
  issue (.ftoi f) (formConv (· < 8) tyInt) f (fun x =>
    let rm := if x.f.minor.getLsbD 2 then rmRTZ else x.rm
    floatRes (ftoiV rm (fmtOf x.floatSrc) x.f.ty.signed x.f.ty.bits (x.a.toNat % 2 ^ x.floatSrc.bits)) x) s
def execItof (f : Fields) (s : State) : Host.Outcome State Fault Refusal :=
  issue (.itof f) (formConv (· < 8) tyFloat) f (fun x =>
    let src := Ty.ofCode (x.f.minor.toNat % 8)
    let v : Int := if src.signed then sgn src.bits x.a.toNat else (x.a.toNat % 2 ^ src.bits : Nat)
    floatRes (itofScalar x.rm (fmtOf x.f.ty) v) x) s
def execFclass (f : Fields) (s : State) : Host.Outcome State Fault Refusal :=
  issue (.fclass f) (formF2 (.fixed 1)) f (fun x s => goOn (resultW x s 1 (BitVec.ofNat 64 (fclassV (fmtOf x.f.ty) x.av)) 0)) s

end Sys2Proof.Machine
end

