-- ==== Sys2Proof/Machine/Life.lean ====
section
/-!
DEFINITION. The life of tasks: core operands and live masks, what a new task inherits, fetching lines, waiting for
acknowledgements, ending a task (spec/09 R145 to R157, spec/15 R269 to R282, spec/17 R326, spec/19 R365, R366).
-/

namespace Sys2Proof.Machine

open Sys2Proof

/-! ### Operands of task instructions (spec/15 R275) -/

/-- The core that husk-relative coordinates name. -/
def coreOf (s : State) (a : Nat) (v : Word) : Except Stop Nat :=
  match s.huskOf a with
  | none => trapAt .huskbnd v
  | some (_, h) =>
    if field v 63 12 == 0 && field v 5 0 < h.width && field v 11 6 < h.height then .ok (h.tileAt (field v 5 0) (field v 11 6))
    else trapAt .huskbnd v

/-- Bits set among the low 32. -/
def bits32 (m : Nat) : List Nat := (List.range 32).filter m.testBit

/-- A live mask: bits [63:32] and bit 0 clear, at most 16 bits set. -/
def maskOk (v : Word) : Bool := v.toNat < 2 ^ 32 && !bit v 0 && (bits32 v.toNat).length ≤ 16

/-! ### What a task starts with -/

/-- A task of the supervisor husk, tenant 0, holds SUP (spec/18 R334). -/
def supOf (s : State) (t : Nat) : Bool := s.tenantOf t == some 0

/-- The tstat of a task that a task with status `x` creates (spec/15 R281, R282). -/
def inheritStat (x : Word) (lvl1 sup : Bool) : Word :=
  BitVec.ofNat 64 (field x 3 0 + field x 45 44 * 2 ^ 44 + (if lvl1 then 2 ^ 46 else 0) + if sup then 2 ^ 47 else 0)

/-- gid of a task of no group: NG (spec/09 R149). -/
def noGroup : BitVec 32 := 0x4000000#32

/-- lid of a task from a free pod: its core's place in the cohort of its group, or zero (spec/15 R271). -/
def lidOf (s : State) (t : Nat) (gid : BitVec 32) : BitVec 32 :=
  match s.cohortOf t with
  | some c =>
    (match s.husk c.tenant with
    | some h => if gid.toNat = c.gid
        then BitVec.ofNat 32 ((tileY t - h.row0 - c.y) * 64 + (tileX t - h.col0 - c.x)) else 0
    | none => 0)
  | none => 0

/-- The registers that a live mask names, from a task. -/
def liveRegs (k : Task) (m : Nat) : Sparse Word :=
  ((bits32 m).filter fun i => k.getG i != 0).map fun i => (i, k.getG i)

/-- A core's logical index in a cohort (spec/09 R149). -/
def Cohort.logical (c : Cohort) (h : Husk) (t : Nat) : Nat := (tileY t - h.row0 - c.y) * c.w + (tileX t - h.col0 - c.x)
/-- The member of a logical index. -/
def Cohort.member (c : Cohort) (h : Husk) (i : Nat) : Nat := h.tileAt (c.x + i % c.w) (c.y + i / c.w)
/-- Every member in logical order. -/
def Cohort.members (c : Cohort) (h : Husk) : List Nat := (List.range (c.w * c.h)).map (c.member h)

/-! ### Fetching lines (spec/03 R41, spec/04 R65) -/

/-- A line of the instruction store of agent `a`. -/
def istoreLine (s : State) (a no : Nat) : Line := BitVec.ofNat 512 (getNat s (istoreKey a (64 * (no % 1024))) 64)

/-- Fetch a line: the store's contents, or an older version that the core may still hold buffered. -/
def fetchLine (s : State) (a no : Nat) : State × Line :=
  let olds := ((s.tile a).stale.filter fun e => e.1 = no).map (·.2)
  match olds with
  | [] => (s, istoreLine s a no)
  | _ =>
    let (c, s) := s.choose
    (s, if c % (olds.length + 1) = 0 then istoreLine s a no else olds.getD (c % (olds.length + 1) - 1) 0)

/-- Every buffered line is discarded, a target line that a checked transfer has fetched and that has not been entered among them (IFENCE,
START). -/
def Tile.dropBuffered (u : Tile) : Tile := { u with stale := [], line := u.line.filter (·.entered) }

/-! ### Waiting -/

/-- Hold unless the acknowledgements are in: a release is true false, FENCE.ack true true. -/
def ackHold (s : State) (x : In) (sys parked : Bool) : Except Stop Unit :=
  if (s.tile x.t).owes x.w sys parked then .error (.hold (some (.acks sys parked))) else .ok ()

/-- The same of a FENCE, which parks its task whatever it waits for (spec/06 R104). -/
def fenceHold (s : State) (x : In) (sys parked : Bool) : Except Stop Unit :=
  if (s.tile x.t).owes x.w sys parked then .error (.hold (some (.fence sys parked))) else .ok ()

/-- What a scope comes to for a task (spec/04 R48): `.gang` without a gang is `.core`, `.cohort` without a group the next narrower. -/
def effScope (k : Task) (scope : Nat) : Nat :=
  if scope = 1 || (scope = 2 && k.gid.getLsbD 26) then (if field k.lid 18 16 = 0 then 0 else 1) else scope

/-- The scope at which the instruction orders. -/
def In.scope (x : In) (s : State) : Nat := effScope ((s.tile x.t).task x.w) x.f.scope.toNat

/-- The core is the given task's and it is a level-0 task's image. -/
def In.img (x : In) : Option Nat :=
  match x.w with
  | .img i => some i
  | _ => none

/-- A result of variable latency: it reaches the destination as an answer that the core sends itself. -/
def resultLater (x : In) (s : State) (v : Word) : Body.Out :=
  goOn ((addOut s x { tag := 0, who := x.w, kind := .other, dst := .word x.f.dest.toNat }).send
    (mkPacket x.t x.t x.seq none (.reply (.data [v] 0))))

/-! ### Ending a task -/

/-- Some task of the group is on the core in a state other than Ended (spec/09 R157). -/
def groupTaskOn (s : State) (t gid : Nat) : Bool :=
  let u := s.tile t
  u.images.any (fun e => e.2.st != .free && e.2.task.gid.toNat == gid)
    || u.l1.any (fun x => x.task.gid.toNat == gid)
    || u.l1q.any (fun x => x.task.gid.toNat == gid)
    || u.ready.any (fun e => match e with
      | .free p => p.task.gid.toNat == gid
      | .bound _ => false)
    || u.wake.any (fun e => match e.2.pod with
      | .free p => p.task.gid.toNat == gid
      | _ => false)

/-- A core of a DET group on which no task of the group remains is finished (spec/16 R308). -/
def detFinish (s : State) (t : Nat) : State :=
  match s.cohortOf t with
  | some c =>
    if c.det && !c.toStart.contains t && !groupTaskOn s t c.gid
    then s.modTile t fun u => { u with det := { u.det with finished := true } } else s
  | none => s

/-- Unbind a port: staged words go, and so does a record that has been partly popped (spec/15 R286). A record that it has sent and that has
not been accepted holds the port when it is bound anew (R288). -/
def dropPort (s : State) (t n : Nat) : State :=
  let s' := s.modTile t fun u => u.setPort n none
  match (s.tile t).port n with
  | some { kind := .pop q cur, .. } => if cur = 0 then s' else (dropHead s' t q).getD (eccuKill s' t)
  | _ => s'

/-- Unbind every port of a context. -/
def dropPorts (s : State) (t : Nat) (w : Who) : State :=
  (List.range 16).foldl (fun s n => match (s.tile t).port n with
    | some p => if p.who = w then dropPort s t n else s
    | none => s) s

/-- Drop what belongs to a context that ends: its divider job, loads without a counter. -/
def Tile.dropOf (u : Tile) (w : Who) : Tile :=
  { u with
    out := u.out.filter fun o => o.who != w
    divider := u.divider.filter fun j => j.who != w
    reduction := u.reduction.filter fun j => j.who != w }

/-- The next instruction of image i is not gang-issued (spec/14 R254). -/
def Matrix.noGang (m : Matrix) (i : Nat) : Matrix := { m with gangNext := m.gangNext &&& ~~~(1#8 <<< i) }

/-- Release the matrix array of a context (spec/14 R247); a fault of it that the context is still to take goes with the context. -/
def Tile.dropMatrix (u : Tile) (w : Who) : Tile :=
  let u := u.forgetArray w
  match w, u.matrix.owner with
  | .img i, some j => if i = j then { u with matrix := { u.matrix.noGang i with owner := none } } else u
  | _, _ => u

/-- The task ends: its image is released, or its level-1 frame, and the level-0 task below goes on where it stood, or stays held there
while another level-1 task is ready (spec/09 R146, R150, spec/15 R286). -/
def endTask (s : State) (t : Nat) (w : Who) : State :=
  let s := (dropPorts (s.modTile t Tile.flush) t w).modTile t fun u =>
    let u := (u.dropOf w).dropMatrix w
    match w with
    | .img i =>
      let mine := u.active = some w
      let v := { u.setCtx i {} with cur0 := if u.cur0 = some i then none else u.cur0, fwd := [], used := 0 }
      if mine then { v with line := none, pairNext := false, atLine := true, checkTo := false, held := false } else v
    | .lvl1 =>
      let below := u.cur0.map u.ctx
      { u with
        l1 := none, line := none, pairNext := false
        held := (below.any fun c => c.task.mid) && !u.l1q.isEmpty
        atLine := !(below.any fun c => c.task.mid), checkTo := below.any (·.check)
        undo := if u.l1.any (·.undo) then u.undo.map fun x => { x with active := false } else u.undo }
    | .hnd => u
  recheck (wakeWaiting (detFinish s t) t) t

/-- A request program has ended: its context keeps what the event of its end reads (spec/07 R134). -/
def endRequest (s : State) (t : Nat) : State :=
  s.modTile t fun u =>
    let u := u.flush
    { u.setCtx 0 { u.ctx 0 with st := .ready, task := { (u.ctx 0).task with late := [] } } with cur0 := none, line := none, atLine := true }

/-! ### The boosted slot and BCOMMIT (spec/17 R326) -/

/-- The image that holds the boosted slot. -/
def Tile.boosted (u : Tile) : Option Nat := (List.range 8).find? fun i => (u.ctx i).boost.active

/-- The homes at which a core holds locks. -/
def lockHomes (s : State) (t : Nat) : List Nat :=
  (s.tiles.filter fun e => e.2.locks.any fun l => l.agent = t).map (·.1)

/-- Release every lock of the core's boosted task under operation `tag`: one notice to each home. -/
def sendUnlocks (s : State) (t tag : Nat) : State :=
  (lockHomes s t).foldl (fun s h => s.send (mkPacket t h tag orderedChan (.unlock t))) s

/-- BCOMMIT past its wait: the locks are released, the undo stack discarded, the slot freed. -/
def commitBoost (s : State) (x : In) (i : Nat) : State :=
  let n := (lockHomes s x.t).length
  let s := if n = 0 then s else sendUnlocks (addOut s x { tag := 0, who := x.w, kind := .delivery, acks := n, slow := true }) x.t x.seq
  let s := s.modTile x.t fun u =>
    { u.setCtx i { u.ctx i with boost := { (u.ctx i).boost with active := false, depth := 0 } } with abort := none }
  wakeWaiting s x.t

/-! ### Pair coupling (spec/19 R358, R366) -/

/-- The pair ends: the follower returns to service without a DONE. -/
def endPair (s : State) (t : Nat) : State :=
  match (s.tile t).pairing with
  | none => s
  | some p =>
    let s := s.modTile p.mate fun u => { u with
      follows := none, images := [], cur0 := none
      ports := u.ports.filter fun e => !(e.2.any fun q => q.who = .img 0) }
    s.modTile t fun u => { u with pairing := none }

/-- The stream is the paired context's, or that of its handler. -/
def Tile.paired (u : Tile) (w : Who) : Bool :=
  u.pairing.any fun p => w == .img p.img || (w == .hnd && u.hnd.any fun h => h.of_ == .img p.img)

/-- Instructions of the paired context, its handler's among them, are executed by the follower too, which so changes its own core's
registers as the leader does (spec/19 R358). -/
def onMate (s : State) (t : Nat) (w : Who) (g : Tile → Tile) : State :=
  match (s.tile t).pairing with
  | none => s
  | some p => if (s.tile t).paired w then s.modTile p.mate g else s

/-- Change a register of the core, and of its follower's where the paired task does so (spec/19 R358). -/
def setCore (s : State) (x : In) (g : Tile → Tile) : State := onMate (s.modTile x.t g) x.t x.w g

/-- Change what a core holds for a context; the follower holds it for its copy, context 0 (spec/19 R358). -/
def setCoreFor (s : State) (x : In) (g : Who → Tile → Tile) : State := onMate (s.modTile x.t (g x.w)) x.t x.w (g (.img 0))

/-- The result of an instruction is `v` at the follower, whose core holds another value: `v` enters its fingerprint (spec/19 R358). -/
def mateReads (s : State) (x : In) (g : Tile → Word) : State :=
  match (s.tile x.t).pairing with
  | none => s
  | some p =>
    let v := g (s.tile p.mate)
    let read (e : Pend) : Pend := if e.writes.any fun w => w.2 != v then { e with mate := e.writes.map fun w => (w.1, v) } else e
    s.modTile x.t fun u => { u with pend := u.pend.map fun e => if u.paired x.w && e.seq = x.seq then read e else e }

end Sys2Proof.Machine
end

