-- ==== Sys2Proof/Machine/Send.lean ====
section
/-!
DEFINITION. Sending accesses: counts of ordered flags, limits of the NI, allowance units, pair coupling, and the access
itself on its own slice, to another tile, to another package, to a code line, to far memory or to a multicast group
(spec/02 R10 to R20, spec/04 R63, R68, spec/06 R101 to R103, spec/15 R292, R295, spec/19 R359).
-/

namespace Sys2Proof.Machine

open Sys2Proof

/-- The access of the task is one with an active BBEGIN, or of an undo task (spec/06 R100, spec/17 R320). -/
def Tile.activeBoost (u : Tile) (w : Who) : Bool :=
  match w with
  | .img i => (u.ctx i).boost.active
  | .lvl1 => u.l1.any (·.undo)
  | .hnd => false

/-- The homes that an address names, for the limit of 256 requests (spec/04 R63): tiles by their husk-relative coordinates, tiles of
other packages, memory cores; a multicast group has its members, and one number for those in other packages. -/
def groupHomes (s : State) (t g : Nat) : List Nat :=
  (2 ^ 61 + g) :: match s.tenantOf t with
    | some n => (s.groupOf n g).map fun m => m.2.1 * 64 + m.1
    | none => []
def homesOf (s : State) (t : Nat) (a : Word) : List Nat :=
  match regionOf a with
  | 0x00 => [field a 32 21]
  | 0x02 => [field a 27 16]
  | 0x10 => [2 ^ 60 + homeMc a.toNat]
  | 0x20 => groupHomes s t (field a 31 16)
  | _ => [a.toNat / 2 ^ 21]

/-- An outstanding operation that modifies, the payload of a message among them (spec/06 R109), and its homes: those of its address and
of its mirror deliveries. -/
def Outst.modifies (o : Outst) : Bool := o.payload || o.op.any opModifies
def Outst.homes (s : State) (t : Nat) (o : Outst) : List Nat :=
  homesOf s t o.addr ++ match o.group with
    | some g => groupHomes s t g
    | none => []

/-- The NI holds a further modifying request to these homes back: 256 are unacknowledged to one of them (spec/04 R63). -/
def homesFull (s : State) (t : Nat) (hs : List Nat) : Bool :=
  let os := ((s.tile t).out.filter Outst.modifies).map (Outst.homes s t)
  hs.any fun h => 256 ≤ (os.filter fun l => l.contains h).length

/-- The NI holds a further modifying request to an address back: 256 to one home, 16,384 counted ones to one destination
(spec/04 R63, R68). -/
def niFull (s : State) (t : Nat) (a : Word) : Bool :=
  homesFull s t (homesOf s t a) || (regionOf a == 0x01 &&
    16384 ≤ ((s.tile t).out.filter fun o => o.modifies && regionOf o.addr == 0x01 && field o.addr 44 33 = field a 44 33).length)

/-! ### Allowances (spec/15 R292, R295) -/

/-- The register bound to a destination, else al0. -/
def Tile.alFor (u : Tile) (dst : Nat) : Nat :=
  match u.alBind.find? fun e => e.2 = some dst with
  | some e => e.1
  | none => 0

/-- Units are taken at issue, or the task waits for them. -/
def takeUnits (u : Tile) (dst n : Nat) : Except Stop (Nat × Tile) :=
  let k := u.alFor dst
  if u.allow k < n then .error (.hold (some (.allowance k n))) else .ok (k, u.setAllow k (u.allow k - n))

/-! ### Pair coupling (spec/19 R358, R359) -/

/-- The operation stores data or a bit without returning a value. -/
def opStores : MemOp → Bool
  | .store _ _ | .storeBlock _ | .engine _ | .stf _ _ | .stef _ _ | .setf | .sete | .sta _ _ => true
  | _ => false

/-- The 64-bit fold of a store's data. -/
def opData : MemOp → Word
  | .store _ v | .stf _ v | .stef _ v => v
  | .amo _ _ v _ => v
  | .storeBlock ws | .engine ws => ws.foldl (fun a w => fingerprint a 0 w) 0
  | .sta l _ => ((List.range 8).map fun i => l.extractLsb' (64 * i) 64).foldl (fun a w => fingerprint a 0 w) 0
  | _ => 0

/-- The words of the slice that an operation touches. -/
def logWords (off n : Nat) : List Nat := (List.range ((off % 8 + n + 7) / 8)).map fun i => off / 8 * 8 + 8 * i

/-- A paired leader logs the old words before it stores into its own slice; a full log closes the interval. -/
def pairLog (s : State) (t off : Nat) (op : MemOp) (a : Word) : State :=
  match (s.tile t).pairing with
  | none => s
  | some p =>
    let log := p.log ++ (logWords off (opLen op)).map fun o => (o, s.sliceWord t o)
    s.modTile t fun u => { u with pairing := some { p with log := log, closing := p.closing || 256 ≤ log.length } }
      |>.foldFp a.toNat (opData op)

/-- What a paired leader does before it stores into its own slice: the old words are logged, once the log has room for them. -/
def pairOwn (s : State) (t off : Nat) (op : MemOp) (a : Word) : Except Stop State :=
  match (s.tile t).pairing with
  | none => .ok s
  | some p =>
    if !(opStores op) then .ok s
    else if 256 < p.log.length + (logWords off (opLen op)).length then .error .close
    else .ok (pairLog s t off op a)

/-- What a paired leader does with a store whose packets `ids` must wait for its interval: it takes one entry of the remote buffer.
Under PX the next instruction waits for its answer, so the interval closes (log 24). -/
def pairHold (s : State) (t : Nat) (w : Who) (ids : List Nat) (op : MemOp) (a : Word) : Except Stop State :=
  match (s.tile t).pairing with
  | none => .ok s
  | some p =>
    if 64 ≤ p.buf.length then .error .close
    else .ok (s.modTile t fun u =>
      { u with pairing := some { p with
          buf := p.buf ++ [ids], closing := p.closing || 64 ≤ p.buf.length + 1 || (u.task w).px } }
        |>.foldFp a.toNat (opData op))

/-- The access waits in a pair's remote buffer: a store, or an atomic without return, that is not to its own slice. -/
def pairWaits (op : MemOp) (dst : Dst) : Bool :=
  opStores op || (match op with
    | .amo _ _ _ _ => dst == .none
    | _ => false)

/-! ### Program order at one location (spec/04 R50, R53) -/

/-- Bytes of an A row in the row buffer (spec/14 Table 2). -/
def rowBytes (ty : Ty) : Nat := 32 * ty.bits
/-- Row i of MLOADB and MRBUF (spec/14 R259). -/
def rowAt (a stride : Word) (i : Nat) : Word := a + stride * BitVec.ofNat 64 i
/-- m of MLOADB and MRBUF. -/
def loadbRows (f : Fields) : Nat := f.imm.toNat / 256 + 1
def rbufRows (f : Fields) : Nat := f.imm.toNat + 1

/-- The slice that a checked region 0x00 address names. -/
def sliceOf (s : State) (t : Nat) (a : Word) : Nat × Nat :=
  match s.huskOfTile t with
  | some (_, h) => (h.tileAt (field a 26 21) (field a 32 27), field a 20 0)
  | none => (t, field a 20 0)

/-- The rows of MLOADB and MRBUF: tile, offset, bytes. -/
def rowRanges (s : State) (t : Nat) (a stride : Word) (m len : Nat) : List (Nat × Nat × Nat) :=
  (List.range m).map fun i => ((sliceOf s t (rowAt a stride i)).1, (sliceOf s t (rowAt a stride i)).2, len)

/-- The chosen parts of an array image: offset and bytes (spec/14 Table 5). -/
def imageParts (f : Fields) : List (Nat × Nat) :=
  (((List.range 4).zip [(0, 0x1200), (0x2000, 0x4000), (0x6000, 0x10000), (0x16000, 0x20000)]).filter fun e => f.imm.getLsbD e.1).map (·.2)
def imageRanges (t : Nat) (a : Word) (f : Fields) : List (Nat × Nat × Nat) :=
  (imageParts f).map fun e => (t, field a 20 0 + e.1, e.2)

/-- The slice bytes that a queued matrix instruction of tile `t` reads, or those that an MSAVE writes (spec/14 R250). -/
def MQ.reads (s : State) (t : Nat) (q : MQ) : List (Nat × Nat × Nat) :=
  match q.i with
  | .mloadb f => rowRanges s t q.a q.b (loadbRows f) 128
  | .mrbuf f | .mrbufBc f => rowRanges s t q.a q.b (rbufRows f) (rowBytes f.ty)
  | .mrestore f => imageRanges t q.a f
  | _ => []
def MQ.stores (t : Nat) (q : MQ) : List (Nat × Nat × Nat) :=
  match q.i with
  | .msave f | .msaveFree f => imageRanges t q.a f
  | _ => []

/-- One of the ranges has a word of the bytes [off, off + n) of tile `h`. -/
def rangesMeet (rs : List (Nat × Nat × Nat)) (h off n : Nat) : Bool :=
  rs.any fun r => r.1 = h && wordsMeet r.2.1 r.2.2 off n

/-- A queued matrix instruction of the stream still has to write the bytes, or, where the access modifies them, to read them. -/
def matrixMeets (s : State) (t : Nat) (w : Who) (h off n : Nat) (modifies : Bool) : Bool :=
  (s.tile t).matrix.queue.any fun q => q.who = w
    && (rangesMeet (q.stores t) h off n || (modifies && rangesMeet (q.reads s t) h off n))

/-- The packet carries operation `tag` of core `t`. -/
def Packet.carries (p : Packet) (t tag : Nat) : Bool := (p.src = t && p.tag = tag) || p.merged.any fun m => m.src = t && m.tag = tag

/-- A request of the stream to a line of the bytes is on its way to tile `h`, or a flag of it to a word of them is held there (spec/04 R50,
R68): the first one. -/
def onItsWay (s : State) (t : Nat) (w : Who) (h off n : Nat) : Option Packet :=
  let mine (p : Packet) : Bool := p.dst = h && (s.tile t).out.any fun o => o.who = w && p.carries t o.tag
  (s.net.find? fun p => mine p && match p.chan with
      | some c => c != 0 && c ≤ 1 + (off + n - 1) / 64 && 1 + off / 64 ≤ c + p.span
      | none => false) <|> s.heldFlags.find? fun p => mine p && p.touches off n

/-- What an access may park on: 1 while its word is empty, 2 while it is full, 3 until its line is acceptable; 0 for one that does not. -/
def parkClass : MemOp → Nat
  | .ldf _ | .ldfe _ => 1
  | .stef _ _ => 2
  | .lda .w _ _ => 3
  | _ => 0

/-- An access `q` of a task need not wait behind an earlier access `p` of it that is parked on a common word: both park on the same state
of the word, and are retested in their order (spec/06 R118); or `q` is one that never waits (spec/06 Table 7; DEDUCED, log 129), or an LDA
or AGEQ (log 106). -/
def joins (p q : MemOp) : Bool := (parkClass p != 3 && parkClass p = parkClass q) || match q with
  | .lda _ _ _ | .ageq => parkClass p = 3
  | .stf _ _ | .setf | .sete => true
  | _ => false

/-- An earlier access of the stream is parked at tile `h` on a word that `op` touches: its number. -/
def parkedBefore (s : State) (t : Nat) (w : Who) (h off : Nat) (op : MemOp) : Option Nat :=
  (s.tile h).waiters.findSome? fun y => match y.asker with
    | .core a tag _ =>
      if a = t && !(joins y.op op) && wordsMeet y.off (opLen y.op) off (opLen op) && ((s.tile t).out.any fun o => o.tag = tag && o.who = w)
      then some tag else none
    | _ => none

/-- An access takes effect after the task's earlier ones to the word (spec/04 R50, R53): behind one that is parked it does not issue, and
its task parks on that one, of which R104 does not speak (DESIGN CHOICE, log 121). -/
def behindParked (s : State) (t : Nat) (w : Who) (h off : Nat) (op : MemOp) : Except Stop Unit :=
  match parkedBefore s t w h off op with
  | some tag => .error (.hold (some (.accepted tag)))
  | none => .ok ()

/-- The same of an access to another package, whose home does not say that an access has parked: an earlier one that may (log 121). -/
def behindAway (u : Tile) (w : Who) (a : Word) (op : MemOp) : Except Stop Unit :=
  match u.out.find? fun o => o.who = w && o.remote && o.op.any fun p =>
      parkClass p != 0 && !(joins p op) && wordsMeet o.addr.toNat (opLen p) a.toNat (opLen op) with
  | some o => .error (.hold (some (.accepted o.tag)))
  | none => .ok ()

/-- A pair's interval holds the packet (spec/19 R359). -/
def Tile.pairKeeps (u : Tile) (k : Nat) : Bool := u.pairing.any fun p => p.buf.any (·.contains k)

/-- An access that is performed at once waits for the task's own earlier requests to the same line (spec/04 R50); one that a pair's
interval holds leaves with the close of the interval (spec/19 R359; log 24). -/
def ownOrder (s : State) (t : Nat) (w : Who) (h off : Nat) (op : MemOp) : Except Stop Unit :=
  if matrixMeets s t w h off (opLen op) (opModifies op) then .error (.hold none)
  else match onItsWay s t w h off (opLen op) with
    | some p => .error (if (s.tile t).pairKeeps p.id then .close else .hold none)
    | none => behindParked s t w h off op

/-- The same of an access that travels: the line keeps it behind the earlier ones; where a pair's interval holds one of those and does not
take the access itself, the interval closes first (spec/19 R359; log 24). -/
def sentOrder (s : State) (t : Nat) (w : Who) (h off : Nat) (op : MemOp) (waits : Bool) : Except Stop Unit :=
  if matrixMeets s t w h off (opLen op) (opModifies op) then .error (.hold none)
  else if !waits && (onItsWay { s with net := s.net.filter fun p => (s.tile t).pairKeeps p.id, heldFlags := [] } t w h off
      (opLen op)).isSome then .error .close
  else behindParked s t w h off op

/-! ### The access -/

/-- An access as an instruction asks for it. -/
structure Req where
  k    : AKind
  op   : MemOp
  kind : OKind
  dst  : Dst := .none
  acq  : Bool := false
  merge : Bool := false
  mty  : Nat := 0
  strong : Bool := false

/-- The outstanding operation of a request. -/
def Req.out (r : Req) (x : In) (a : Word) : Outst :=
  { tag := 0, who := x.w, kind := r.kind, dst := r.dst, addr := a, acquire := r.acq, op := some r.op }

/-- The generation that the asker carries (spec/18 R342). -/
def genOf (u : Tile) (w : Who) : Nat :=
  match w with
  | .img i => Sparse.get 0 u.gens i
  | _ => 0

/-- An atomic that returns its old value. -/
def Req.returns (r : Req) : Bool := r.dst != .none && match r.op with
  | .amo _ _ _ _ => true
  | _ => false

/-- An access to the own slice is performed at once; a full waiter table leaves it with the NI, its status outstanding (spec/04 R59,
spec/05 R77). An LDA or AGEQ of the task to a line on which an LDA.w of its own is parked is
answered at once, though the LDA.w may then return an older access's newer age (R77 and R86 do not say otherwise: DESIGN CHOICE,
log 106). -/
def accessOwn (x : In) (s : State) (r : Req) (a : Word) (off : Nat) : Body.Out := do
  ownOrder s x.t x.w x.t off r.op
  let u := s.tile x.t
  let user := !(u.task x.w).sup
  let s ← pairOwn s x.t off r.op a
  let path := pathOf x.t (off / 64)
  let counted := opModifies r.op
  let (s1, ans) := performAt s x.t off r.op (.core x.t x.seq (genOf u x.w)) user (u.activeBoost x.w) (some (s.cidOf x.t))
  let count (s : State) : State :=
    if counted then (s.modTile x.t fun u => u.countSent x.t path).countArrival x.t x.t path 0 none else s
  match ans with
  | .fault .eccu => .ok (s1, .gone)
  | .fault c => if counted then .error (.turnedAway c a path false) else trapAt c a
  | .parked =>
    let s2 := addOut s1 x { r.out x a with parked := true, slow := true }
    goOn (if counted then s2.modTile x.t fun u => u.countSent x.t path else s2)
  | .full =>
    let s2 := addOut s1 x { r.out x a with status := true }
    let s2 := if counted then s2.modTile x.t fun u => u.countSent x.t path else s2
    goOn (s2.send { mkPacket x.t x.t x.seq (lineChan off) (.access off r.op user (u.activeBoost x.w)) with
      span := lineSpan off (opLen r.op), refused := true, path := path, counted := counted, epoch := u.epochTo x.t })
  | _ => goOn ((count (addOut s1 x { r.out x a with slow := r.returns })).send (mkPacket x.t x.t x.seq none (.reply ans)))

/-- An access to another tile of the package: its status comes back (spec/06 R102). What waits in a pair's remote buffer has none,
and its fault is late (spec/19 R359; log 25). -/
def accessTile (x : In) (s : State) (r : Req) (a : Word) (h off : Nat) : Body.Out := do
  let u := s.tile x.t
  let counted := opModifies r.op
  if counted && niFull s x.t a then .error (.hold none)
  let path := pathOf h (off / 64)
  let waits := pairWaits r.op r.dst && u.pairing.isSome
  sentOrder s x.t x.w h off r.op waits
  let s := if counted then s.modTile x.t fun u => u.countSent h path else s
  let id := s.nextId
  let s := (addOut s x { r.out x a with status := !waits && h != x.t, late := waits, slow := h != x.t }).send
    { mkPacket x.t h x.seq (lineChan off) (.access off r.op (!(u.task x.w).sup) (u.activeBoost x.w)) with
      span := lineSpan off (opLen r.op), path := path, counted := counted, epoch := u.epochTo h, mergeable := r.merge, mty := r.mty }
  let s ← if waits then pairHold s x.t x.w [id] r.op a else .ok s
  goOn s

/-- The lines of `n` bytes at an address and those of `m` bytes at another meet. -/
def linesMeet (a : Word) (n : Nat) (b : Word) (m : Nat) : Bool :=
  a.toNat / 64 ≤ (b.toNat + m - 1) / 64 && b.toNat / 64 ≤ (a.toNat + n - 1) / 64

/-- Bytes of a request that has left, or is outstanding. -/
def lenOf (op : Option MemOp) : Nat := (op.map opLen).getD 1

/-- A re-issued request of the core to a line of the `n` bytes is outstanding (spec/04 R64). -/
def Tile.againOn (u : Tile) (a : Word) (n : Nat) : Bool := u.out.any fun o => o.reissued && linesMeet o.addr (lenOf o.op) a n

/-- A request that has left meets a line of the `n` bytes. -/
def Egress.meets (e : Egress) (a : Word) (n : Nat) : Bool := linesMeet e.addr (lenOf e.op) a n

/-- A new request of core `t` for `n` bytes stays behind re-issued ones to a line of it, and behind those that such ones still hold back
(spec/04 R51, R64). -/
def State.staysBehind (s : State) (t : Nat) (a : Word) (n : Nat) : Bool :=
  (s.tile t).againOn a n || s.egress.any fun e => e.src = t && e.behind && e.meets a n

/-- An access to another package: its faults are late (spec/02 R16, R17, spec/06 R103). A store or an atomic takes one
allowance unit. A block of several lines goes, and is counted, on the path of its first line: R51 fixes a path for each line, and R109
counts the block once (DESIGN CHOICE, log 117). -/
def accessRemote (x : In) (s : State) (r : Req) (a : Word) (chip : Nat) : Body.Out := do
  let u := s.tile x.t
  let counted := opModifies r.op
  if counted && niFull s x.t a then .error (.hold none)
  let (k, u1) ← if counted then takeUnits u (chipDst chip) 1 else .ok (0, u)
  let path := pathOf (chipDst chip) (a.toNat % 2 ^ 33 / 64)
  let waits := pairWaits r.op r.dst && u.pairing.isSome
  behindAway u x.w a r.op
  if !waits && s.egress.any fun e => e.src = x.t && e.held && e.meets a (opLen r.op) then .error .close
  let behind := s.staysBehind x.t a (opLen r.op)
  let s := s.setTile x.t (if counted then u1.countSent (chipDst chip) path else u1)
  let s ← if waits then pairHold s x.t x.w [2 ^ 64 + s.nextId] r.op a else .ok s
  let s := addOut s x { r.out x a with remote := true, late := true, slow := true, al := k, units := if counted then 1 else 0 }
  goOn { s with
    nextId := s.nextId + 1
    egress := s.egress ++ [{ chip := chip, src := x.t, tag := x.seq, path := path, addr := a, op := some r.op, held := waits
                             epoch := u.epochTo (chipDst chip), behind := behind }] }

/-- A region 0x02 store replaces a whole line; it travels on the ordered class (spec/02 R14, spec/04 R65). -/
def accessCode (x : In) (s : State) (r : Req) (a : Word) (h off : Nat) (ws : List Word) : Body.Out := do
  if niFull s x.t a then .error (.hold none)
  let id := s.nextId
  let s := (addOut s x { r.out x a with slow := true }).send
    (mkPacket x.t h x.seq orderedChan (.code off (BitVec.ofNat 512 (ofBytes (wordsBytes ws)))))
  let s ← pairHold s x.t x.w [id] r.op a
  goOn s

/-- A far store: its faults are late (spec/06 R120). It is done for the tenant that has sent it (spec/07 R129, R131). -/
def accessFar (x : In) (s : State) (r : Req) (a : Word) (va : Nat) : Body.Out := do
  if niFull s x.t a then .error (.hold none)
  let id := s.nextId
  let s := (addOut s x { r.out x a with late := true, slow := true }).send
    { mkPacket x.t (mcDst (homeMc va)) x.seq (lineChan va) (.farStore ((s.tenantOf x.t).getD 0) a r.op) with span := lineSpan va (opLen r.op) }
  let s ← pairHold s x.t x.w [id] r.op a
  goOn s

/-- A multicast store: one delivery to each local member, on the line that it reaches there; whether other packages hold members is left
to a choice (spec/02 R18, R19, spec/04 R51; log 15). Where a group has no members at all, the store is done at once. Neither its
deliveries nor those of an STAM are counted as requests to the members' tiles: R68 and R109 do not say (DESIGN CHOICE, log 118). -/
def accessGroup (x : In) (s : State) (r : Req) (a : Word) (g off : Nat) : Body.Out := do
  let u := s.tile x.t
  match s.huskOf x.t with
  | none => trapAt .huskbnd a
  | some (n, h) =>
    if niFull s x.t a then .error (.hold none)
    let ms := s.groupOf n g
    if ms.any fun m => matrixMeets s x.t x.w (h.tileAt m.1 m.2.1) (m.2.2 * 65536 + off) (opLen r.op) true then .error (.hold none)
    ms.forM fun m => behindParked s x.t x.w (h.tileAt m.1 m.2.1) (m.2.2 * 65536 + off) r.op
    let (c, s) := s.choose
    let away := c % 2 = 1
    let far := if away then 1 else 0
    let behind := s.staysBehind x.t a (opLen r.op)
    let s := addOut s x { r.out x a with late := true, slow := true, acks := max 1 (ms.length + far), far := far }
    let s := if ms.length + far = 0 then s.send (mkPacket x.t x.t x.seq none (.reply .done)) else s
    let id := s.nextId
    let s := ms.foldl (fun s m => s.send { mkPacket x.t (h.tileAt m.1 m.2.1) x.seq (lineChan (m.2.2 * 65536 + off))
      (.multicast (m.2.2 * 65536 + off) r.op (!(u.task x.w).sup) (u.activeBoost x.w) r.strong) with span := lineSpan off (opLen r.op) }) s
    let s ← pairHold s x.t x.w ((List.range ms.length).map (id + ·)) r.op a
    goOn (if away then { s with
        egress := s.egress ++ [{ chip := 0, src := x.t, tag := x.seq, path := 0, addr := a, op := some r.op, group := some g
                                 held := u.pairing.isSome, behind := behind }] }
      else s)

/-! ### Accesses of a memory-core program (spec/07 R130, R131) -/

/-- The word of far memory that the access consumes is poisoned: the accessing husk is killed (spec/20 R374). -/
def farKill (s : State) (tenant : Nat) : Body.Out := .ok (killHusk s tenant, .gone)

/-- What region 0x10 accepts of a memory-core program: loads, stores and atomics (spec/07 R130). -/
def mcFarOp : MemOp → Bool
  | .load _ | .loadBlock _ | .store _ _ | .storeBlock _ | .amo _ _ _ _ => true
  | _ => false

/-- An access to far memory at its own memory core, checked in the order of spec/02 R10: every byte is homed there (spec/07 R130);
translation through the context's tables, permissions of spec/02 R23. A block may pass into a second page. -/
def mcFar (x : In) (s : State) (r : Req) (a : Word) (aligned : Bool) : Body.Out := do
  let va := a.toNat % 2 ^ 48
  let last := va + opLen r.op - 1
  need (mustBeZero a && mcFarOp r.op) .region a
  need (homeMc va == mcOf x.t && homeMc last == mcOf x.t && last < 2 ^ 48) .region a
  need aligned .align a
  match s.mc x.t with
  | none => trapAt .farpage a
  | some m =>
    let (s, l1) := translate s m.tenant va
    let (s, l2) := if va / 4096 = last / 4096 then (s, l1) else translate s m.tenant last
    match l1, l2 with
    | some l1, some l2 =>
      let key (j : Nat) : Nat := if va % 4096 + j < 4096 then l1.key + va % 4096 + j else l2.key + (va % 4096 + j - 4096)
      let rd := l1.rd && l2.rd
      let wr := l1.wr && l2.wr
      let done (s : State) (ans : Answer) : Body.Out :=
        goOn ((addOut s x (r.out x a)).send (mkPacket x.t x.t x.seq none (.reply ans)))
      match r.op with
      | .load n =>
        if !rd then trapAt .farpage a
        else if s.farBad (key 0) n then farKill s m.tenant
        else done s (.data [BitVec.ofNat 64 (getNat s (key 0) n)] 0)
      | .loadBlock n =>
        if !rd then trapAt .farpage a
        else if (List.range n).any fun i => s.farBad (key (8 * i)) 8 then farKill s m.tenant
        else done s (.data ((List.range n).map fun i => BitVec.ofNat 64 (getNat s (key (8 * i)) 8)) 0)
      | .store n v =>
        if !wr then trapAt .farpage a
        else if s.farPartBad (key 0) n then farKill s m.tenant
        else done (s.putFar (key 0) (bytesOf v.toNat n)) .done
      | .storeBlock ws =>
        if !wr then trapAt .farpage a
        else done ((List.range ws.length).zip ws |>.foldl (fun s e => s.putFar (key (8 * e.1)) (bytesOf e.2.toNat 8)) s) .done
      | .amo op n v c =>
        if !(rd && wr) then trapAt .farpage a
        else if s.farBad (key 0) (n / 8) then farKill s m.tenant
        else
          let o := getNat s (key 0) (n / 8)
          done (s.putFar (key 0) (bytesOf (amoNew op n o v.toNat c.toNat) (n / 8))) (.data [BitVec.ofNat 64 o] 0)
      | _ => trapAt .region a
    | _, _ => trapAt .farpage a

/-- An engine write of a memory-core program into a slice of its tenant's husk: every word it covers becomes full (spec/07 R130,
spec/04 R60), and a fault answer ends the program (R134). A program has no mode: one of a tenant other than 0 is refused a context area
as tenant mode is, one of tenant 0 is not (spec/03 R44 names tasks only: DESIGN CHOICE, log 81). -/
def mcSlice (x : In) (s : State) (r : Req) (a : Word) (aligned : Bool) : Body.Out := do
  let op ← match r.op with
    | .store n v | .stf n v => .ok (MemOp.stf n v)
    | .storeBlock ws => .ok (.engine ws)
    | _ => trapAt .region a
  match ← checkAddr s x.t (.store true) a aligned with
  | .sram h off =>
    goOn ((addOut s x { r.out x a with op := some op, slow := true, status := true }).send
      { mkPacket x.t h x.seq (lineChan off) (.access off op (s.tenantOf x.t != some 0) false) with span := lineSpan off (opLen op) })
  | _ => trapAt .region a

/-- All checks of spec/02 R10 on an access that is to wait before it is performed, that of step 6 on the own slice with them; `counted`
says that the access modifies, so that the own slice counts its refusal (spec/04 R69). -/
def checkAll (x : In) (s : State) (k : AKind) (a : Word) (aligned : Bool) (n : Nat) (counted : Bool) : Except Stop Unit := do
  if x.t < numTiles then
    match ← checkAddr s x.t k a aligned with
    | .sram h off =>
      if h = x.t && !((s.tile x.t).task x.w).sup && (s.tile x.t).inCtx off n then
        if counted then .error (.turnedAway .priv a (pathOf x.t (off / 64)) false) else trapAt .priv a
    | _ => .ok ()

/-- The access of an instruction, whatever its region. -/
def access (x : In) (s : State) (r : Req) (a : Word) (aligned : Bool) : Body.Out := do
  if numTiles ≤ x.t then
    match regionOf a with
    | 0x10 => mcFar x s r a aligned
    | 0x00 => mcSlice x s r a aligned
    | _ => trapAt .region a
  else
    match ← checkAddr s x.t r.k a aligned with
    | .sram h off =>
      if h = x.t && !((s.tile x.t).pairing.isSome && (match r.op with
          | .amo _ _ _ _ => r.dst == .none
          | _ => false))
      then accessOwn x s r a off else accessTile x s r a h off
    | .remote chip _ _ _ => accessRemote x s r a chip
    | .code h off => (match r.op with
      | .storeBlock ws => accessCode x s r a h off ws
      | _ => trapAt .istore a)
    | .far va => accessFar x s r a va
    | .mcast g off => accessGroup x s r a g off
    | .aperture _ => trapAt .region a

end Sys2Proof.Machine
end

