-- ==== Sys2Proof/Machine/Copy.lean ====
section
/-!
DEFINITION. Block-transfer engines (spec/07 R135 to R142): the aperture store, its template, and the movements of a copy.
-/

namespace Sys2Proof.Machine

open Sys2Proof

/-! ### Templates (spec/07 R136, R137) -/

/-- A number of the template record at `k`. -/
def recNum (s : State) (k off n : Nat) : Nat := getNat s (k + off) n

/-- Row i's address of an endpoint. -/
def rowAddr (base : Word) (stride : Int) (i : Nat) : Word := base + BitVec.ofInt 64 (stride * i)

/-- The regions of an endpoint. -/
def copyRegion (s : State) (a : Word) : Bool :=
  (regionOf a == 0x00 || regionOf a == 0x01 || regionOf a == 0x10) && mustBeZero a
    && (regionOf a != 0x01 || field a 44 33 != s.chip)

/-- An SRAM row lies within one slice. -/
def rowInSlice (a : Word) (n : Nat) : Bool := regionOf a == 0x10 || a.toNat % 2 ^ 21 + n ≤ 2 ^ 21

/-- `n` bytes at an address end within far memory; the must-be-zero bits of region 0x10 lie above (spec/02 R9). -/
def rowInFar (a : Word) (n : Nat) : Bool := regionOf a != 0x10 || field a 47 0 + n ≤ 2 ^ 48

/-- A region 0x00 address lies in the husk. -/
def inHusk (h : Husk) (a : Word) : Bool := regionOf a != 0x00 || (field a 26 21 < h.width && field a 32 27 < h.height)

/-- The template at `k`, checked in the order of R137: reserved fields and regions, then alignment and bounds, then the
husk. A row that runs out of its region, or past the end of the far addresses, is one of a wrong region, REGION; R137 names both its
REGION line and its ALIGN line for such a row (DESIGN CHOICE, log 124). `a` is the aperture's address. -/
def readTemplate (s : State) (h : Husk) (k tenant agent wk : Nat) (a : Word) : Except Stop Template := do
  let src : Word := BitVec.ofNat 64 (recNum s k 0x00 8)
  let dst : Word := BitVec.ofNat 64 (recNum s k 0x08 8)
  let rows := recNum s k 0x10 4
  let len := recNum s k 0x14 4
  let ss := sgn 64 (recNum s k 0x18 8)
  let ds := sgn 64 (recNum s k 0x20 8)
  let sc : Word := BitVec.ofNat 64 (recNum s k 0x28 8)
  let fl : BitVec 32 := BitVec.ofNat 32 (recNum s k 0x30 4)
  let side := bit fl 0
  need (recNum s k 0x34 12 == 0 && field fl 31 8 == 0 && field fl 3 1 == 0) .region a
  need (1 ≤ rows && rows ≤ 65536 && 8 ≤ len && len ≤ 65536 && len % 8 == 0) .region a
  need (copyRegion s src && copyRegion s dst) .region a
  need (if side then regionOf dst == 0x00 && (regionOf sc == 0x00 || regionOf sc == 0x10) && mustBeZero sc else sc == 0) .region a
  need (!side || rowInFar sc (4 * rows)) .region a
  let is := List.range rows
  need (is.all fun i => copyRegion s (rowAddr src ss i) && regionOf (rowAddr src ss i) == regionOf src
    && copyRegion s (rowAddr dst ds i) && regionOf (rowAddr dst ds i) == regionOf dst
    && rowInFar (rowAddr src ss i) len && rowInFar (rowAddr dst ds i) len) .region a
  need (src.toNat % 8 == 0 && dst.toNat % 8 == 0 && sc.toNat % 8 == 0 && ss % 8 == 0 && ds % 8 == 0) .align a
  need (is.all fun i => rowInSlice (rowAddr src ss i) len && rowInSlice (rowAddr dst ds i) len) .align a
  need (rowInSlice sc (4 * rows)) .align a
  need (is.all fun i => inHusk h (rowAddr src ss i) && inHusk h (rowAddr dst ds i)) .huskbnd a
  need (!side || inHusk h sc) .huskbnd a
  return { src := src, dst := dst, rows := rows, rowlen := len, sstr := ss, dstr := ds, scale := sc, side := side
           seq0 := field fl 7 4, wk := wk, tenant := tenant, agent := agent }

/-- A store to region 0x03: the checks of R10, the release wait, the template, the request (spec/07 R137). -/
def apertureStore (x : In) (s : State) (a : Word) (wide : Bool) (v : Word) : Except Stop (State × After) := do
  match ← checkAddr s x.t (.store wide) a true with
  | .aperture ch =>
    ackHold s x true false
    match s.huskOf x.t with
    | none => trapAt .huskbnd a
    | some (n, h) =>
      need (field v 63 44 == 0 && field v 35 15 == 0) .region a
      let off := 64 * field v 14 0
      need (((s.tile x.t).task x.w).sup || !(s.tile x.t).inCtx off 64) .priv a
      if s.consumesBad x.t off 64 then .ok (eccuKill s x.t, .gone)
      else
        let s := s.correct x.t off 8
        let t ← readTemplate s h (sliceKey x.t off) n x.t (field v 43 36) a
        .ok ((addOut s x { tag := 0, who := x.w, kind := .store, addr := a, slow := true }).send
          (mkPacket x.t (chDst ch) x.seq none (.aperture ch t)), .next)
  | _ => trapAt .region a

/-! ### Channels (spec/07 R137 to R142) -/

def State.chan (s : State) (ch : Nat) : Channel := Sparse.get {} s.channels ch
def State.setChan (s : State) (ch : Nat) (c : Channel) : State := { s with channels := Sparse.set {} s.channels ch c }

/-- Words of a copy. -/
def Template.words (t : Template) : Nat := t.rows * (t.rowlen / 8)
/-- Row of word j. -/
def Template.row (t : Template) (j : Nat) : Nat := j / (t.rowlen / 8)
/-- Source and destination addresses of word j. -/
def Template.srcOf (t : Template) (j : Nat) : Word := rowAddr t.src t.sstr (t.row j) + BitVec.ofNat 64 (8 * (j % (t.rowlen / 8)))
def Template.dstOf (t : Template) (j : Nat) : Word := rowAddr t.dst t.dstr (t.row j) + BitVec.ofNat 64 (8 * (j % (t.rowlen / 8)))

/-- The tag of the request for word j to another package: the number of the channel's copy stands above the word's. -/
def Channel.tagOf (x : Channel) (j : Nat) : Nat := x.no * 2 ^ 32 + j

/-- Where the request for word j goes: to its source until it has been read. -/
def Channel.addrOf (x : Channel) (t : Template) (j : Nat) : Word := if x.read.any fun e => e.1 = j then t.dstOf j else t.srcOf j

/-- A new request to an address stays behind the re-issued ones of the channel to its line (spec/04 R64). -/
def Channel.staysBehind (x : Channel) (t : Template) (a : Word) : Bool := x.again.any fun k => linesMeet (x.addrOf t k) 8 a 8

/-- The NI of the engine holds a further write to the home of an address back: 256 of the copy are unacknowledged there (spec/04 R63). -/
def Channel.homeFull (x : Channel) (t : Template) (a : Word) : Bool :=
  256 ≤ (x.sentIn.filter fun k => (x.read.any fun e => e.1 = k) && (t.dstOf k).toNat / 2 ^ 21 = a.toNat / 2 ^ 21).length

/-- The request for word j leaves for another package, on the path of its line (spec/20 R367). -/
def chanSend (s : State) (ch : Nat) (t : Template) (j : Nat) (a : Word) (op : MemOp) : State :=
  let x := s.chan ch
  { s.setChan ch { x with sentIn := x.sentIn ++ [j] } with
    egress := s.egress ++ [{ chip := field a 44 33, src := chDst ch, tag := x.tagOf j
                             path := pathOf (chipDst (field a 44 33)) (a.toNat % 2 ^ 33 / 64), addr := a, op := some op
                             behind := x.staysBehind t a }] }

/-- What re-issued requests of the channel held back goes out once none of those to its line is unanswered (spec/04 R64). -/
def chanRelease (s : State) (ch : Nat) (t : Template) : State :=
  let x := s.chan ch
  let x := { x with again := x.again.filter x.sentIn.contains }
  { s.setChan ch x with
    egress := s.egress.map fun e => if e.src = chDst ch && e.behind && !x.staysBehind t e.addr then { e with behind := false } else e }

/-- The tile that a region 0x00 address names for a tenant. -/
def tileOf (s : State) (tenant : Nat) (a : Word) : Option Nat := (s.husk tenant).map fun h => h.tileAt (field a 26 21) (field a 32 27)

/-- The copy of a channel meets a fault: the first one counts (spec/07 R139). -/
def chanFault (s : State) (ch : Nat) (c : Cause) (a : Word) : State :=
  let x := s.chan ch
  s.setChan ch { x with fault := some (x.fault.getD (c, a)) }

/-- Word j has been read. -/
def chanRead (s : State) (ch j : Nat) (v : Word) : State :=
  let x := s.chan ch
  s.setChan ch { x with read := x.read ++ [(j, v)], sentIn := x.sentIn.filter (· != j) }

/-- Word j has been written. -/
def chanDone (s : State) (ch j : Nat) : State :=
  let x := s.chan ch
  s.setChan ch { x with done := x.done ++ [j], read := x.read.filter fun e => e.1 != j, sentIn := x.sentIn.filter (· != j) }

/-- Word j of the running copy takes its next movement in this package: its read, its write, or its request to another
package. None when nothing is to be done for it now. An endpoint in a context area ends the copy with PRIV, whoever asked for it: R44 names
tenant mode alone, and a copy has no mode (DESIGN CHOICE, log 49). -/
def copyMove (s : State) (ch j : Nat) (far : Bool) : Option State :=
  let x := s.chan ch
  match x.active with
  | none => none
  | some t =>
    if x.fault.isSome || t.words ≤ j || x.done.contains j || x.sentIn.contains j then none
    else
      match x.read.find? fun e => e.1 = j with
      | none =>
        if far then none
        else
          let a := t.srcOf j
          match regionOf a with
          | 0x00 =>
            match tileOf s t.tenant a with
            | none => none
            | some h =>
              let (s', ans) := performAt s h (field a 20 0) (.load 8) (.channel ch j) true false none
              match ans with
              | .data ws _ => some (chanRead s' ch j (ws.headD 0))
              | .fault .eccu => some s'
              | .fault c => some (chanFault s' ch c a)
              | _ => none
          | 0x10 =>
            match translate s t.tenant (field a 47 0) with
            | (s', some l) =>
              if !l.rd then some (chanFault s' ch .farpage a)
              else if s'.farBad (l.key + a.toNat % 4096) 8 then some (killHusk s' t.tenant)
              else some (chanRead s' ch j (BitVec.ofNat 64 (getNat s' (l.key + a.toNat % 4096) 8)))
            | (s', none) => some (chanFault s' ch .farpage a)
          | _ => some (chanSend s ch t j a (.load 8))
      | some e =>
        if t.side && x.desc ≤ t.row j then none
        else
          let a := t.dstOf j
          match regionOf a with
          | 0x00 =>
            if far then none
            else match tileOf s t.tenant a with
            | none => none
            | some h =>
              let (s', ans) := performAt s h (field a 20 0) (.engine [e.2]) (.channel ch j) true false none
              match ans with
              | .done => some (chanDone s' ch j)
              | .fault .eccu => some s'
              | .fault c => some (chanFault s' ch c a)
              | _ => none
          | 0x10 =>
            if !far then none
            else match translate s t.tenant (field a 47 0) with
            | (s', some l) => if l.wr then some (chanDone (s'.putFar (l.key + a.toNat % 4096) (bytesOf e.2.toNat 8)) ch j)
                else some (chanFault s' ch .farpage a)
            | (s', none) => some (chanFault s' ch .farpage a)
          | _ => if far || x.homeFull t a then none else some (chanSend s ch t j a (.engine [e.2]))

/-- Another package's answer to the request `tag` of a channel, for a word of its running copy. -/
def copyAnswer (s : State) (ch tag : Nat) (ans : Answer) : Option State :=
  let x := s.chan ch
  let j := tag % 2 ^ 32
  match x.active with
  | none => none
  | some t =>
    if tag != x.tagOf j || !x.sentIn.contains j then none
    else
      let wasRead := x.read.any fun e => e.1 = j
      let s' := match ans with
        | .fault c =>
          let s := chanFault s ch c (x.addrOf t j)
          some (s.setChan ch { s.chan ch with sentIn := (s.chan ch).sentIn.filter (· != j) })
        | .data ws _ => if wasRead then none else some (chanRead s ch j (ws.headD 0))
        | .done => if wasRead then some (chanDone s ch j) else none
        | _ => none
      s'.map fun s => chanRelease s ch t

/-- A request arrives at a channel: an empty shadow slot takes it, an idle channel starts it at once; else it is refused
with a back-off hint (spec/07 R137). -/
def execApertureRequestArrival (s : State) : Host.Outcome State Fault Refusal :=
  match s.packet s.sel with
  | some { src := src, tag := tag, body := .aperture ch t, refused := false, .. } =>
    let x := s.chan ch
    if x.shadow.isSome then
      let (h, s) := s.choose
      .next (s.refuse s.sel (h % 11))
    else
      let x := if x.active.isNone then { x with active := some t } else { x with shadow := some t }
      .next (((s.drop s.sel).setChan ch x).send (mkPacket (chDst ch) src tag none (.reply .done)))
  | _ => .refused .notPending

/-- After its back-off the NI sends a refused copy or far request again (spec/07 R137, R133). -/
def execBteBackoffRetry (s : State) : Host.Outcome State Fault Refusal :=
  match s.packet s.sel with
  | some { body := .aperture _ _, refused := true, .. } | some { body := .farreq _, refused := true, .. } =>
    .next { s with net := modifyFirst (fun p => p.id = s.sel) (fun p => { p with refused := false, hint := 0 }) s.net }
  | _ => .refused .notPending

/-- The channel's copy ends: the requester's wake counter is decremented and the shadow template becomes active. -/
def endCopy (s : State) (ch : Nat) (note : Option (Cause × Word)) : State :=
  let x := s.chan ch
  match x.active with
  | none => s
  | some t =>
    (s.setChan ch { active := x.shadow, no := x.no + 1 }).send (mkPacket (chDst ch) t.agent 0 none (.wkdec t.wk 0 note false))

/-- Every word has been written and acknowledged (spec/07 R138). -/
def execCopyCompletion (s : State) : Host.Outcome State Fault Refusal :=
  match (s.chan s.sel).active with
  | some t => if (s.chan s.sel).fault.isNone && (s.chan s.sel).done.length = t.words then .next (endCopy s s.sel none)
      else .refused .notPending
  | none => .refused .notPending

/-- A copy that met a fault ends with a note, once what it has sent to other packages is answered (spec/07 R139). -/
def execCopyFault (s : State) : Host.Outcome State Fault Refusal :=
  match (s.chan s.sel).active, (s.chan s.sel).fault with
  | some _, some x => if (s.chan s.sel).sentIn.isEmpty then .next (endCopy s s.sel (some x)) else .refused .notPending
  | _, _ => .refused .notPending

/-- The next group descriptor goes to the scale queue of the tile that receives its row (spec/07 R142). A fault on it, SCALESEQ among
them, is noted with the descriptor's own address: R140 names those of an endpoint and of a program alone (DESIGN CHOICE, log 110). -/
def execScaleDescriptorDelivery (s : State) : Host.Outcome State Fault Refusal :=
  let ch := s.sel
  let x := s.chan ch
  match x.active with
  | none => .refused .notPending
  | some t =>
    if !t.side || x.fault.isSome || t.rows ≤ x.desc then .refused .notPending
    else
      let a := t.scale + BitVec.ofNat 64 (4 * x.desc)
      let to_ := tileOf s t.tenant (rowAddr t.dst t.dstr x.desc)
      let deliver (s : State) (d : BitVec 32) : Host.Outcome State Fault Refusal :=
        if field d 31 28 != (t.seq0 + x.desc) % 16 then .next (chanFault s ch .scaleseq a)
        else match to_ with
          | none => .refused .notPending
          | some h =>
            if 16 ≤ (s.tile h).matrix.sq.length then .refused .notPending
            else .next ((s.modTile h fun u => { u with matrix := { u.matrix with sq := u.matrix.sq ++ [d] } }).setChan ch
              { s.chan ch with desc := x.desc + 1 })
      if regionOf a == 0x00 then
        match tileOf s t.tenant a with
        | none => .refused .notPending
        | some h =>
          let (s', ans) := performAt s h (field a 20 0) (.load 4) (.channel ch 0) true false none
          match ans with
          | .data ws _ => deliver s' ((ws.headD 0).setWidth 32)
          | .fault .eccu => .next s'
          | .fault c => .next (chanFault s' ch c a)
          | _ => .refused .notPending
      else
        match translate s t.tenant (field a 47 0) with
        | (s', some l) =>
          if !l.rd then .next (chanFault s' ch .farpage a)
          else if s'.farBad (l.key + a.toNat % 4096) 4 then .next (killHusk s' t.tenant)
          else deliver s' (BitVec.ofNat 32 (getNat s' (l.key + a.toNat % 4096) 4))
        | (s', none) => .next (chanFault s' ch .farpage a)

end Sys2Proof.Machine
end

