-- ==== Sys2Proof/Machine/MemoryOps.lean ====
section
/-!
DEFINITION. The memory instructions of spec/06: plain, block, acquire and release, full/empty accesses, atomics, FENCE.
-/

namespace Sys2Proof.Machine

open Sys2Proof

/-- The size in bytes of a scalar access (spec/06 Table 1). -/
def In.size (x : In) : Nat := x.f.ty.bits / 8
/-- addr := (g[a] + sext64(imm28)) mod 2^64 (spec/06 R96). -/
def In.addr (x : In) : Word := x.a + x.immS
/-- Natural alignment (spec/06 R98). -/
def In.aligned (x : In) : Bool := x.addr.toNat % x.size == 0
/-- The low size bytes of the data register. -/
def In.data (x : In) : Word := BitVec.ofNat 64 (x.b.toNat % 2 ^ (8 * x.size))
/-- The words of a block operand, read at issue (spec/06 R111). -/
def blockWords (s : State) (x : In) (o : Nat) : List Word :=
  (blockRegs o x.f.h x.f.wd).map fun r => readReg s x.t x.w (wId r)
/-- A block lies within its slice (spec/06 R111), and within 64 bytes in region 0x20 (R112). -/
def In.blockAligned (x : In) : Bool :=
  let a := x.addr.toNat
  let n := 8 * (x.f.h * x.f.wd)
  a % 8 == 0 && a % 2 ^ 21 + n ≤ 2 ^ 21 && (regionOf x.addr != 0x20 || a % 64 + n ≤ 64)

def execLd (f : Fields) (s : State) : Host.Outcome State Fault Refusal :=
  issue (.ld f) formLd f (fun x s =>
    access x s { k := .load, op := .load x.size, kind := .load, dst := .reg x.f.dest.toNat x.f.ty } x.addr x.aligned) s

/-- ST; a store to region 0x03 is a copy request (spec/02 R15). -/
def execSt (f : Fields) (s : State) : Host.Outcome State Fault Refusal :=
  issue (.st f) (formSt 0) f (fun x s =>
    if regionOf x.addr == 0x03 && x.t < numTiles then apertureStore x s x.addr (x.f.ty.code == 6 || x.f.ty.code == 7) x.b
    else access x s { k := .store (x.f.ty.code == 6 || x.f.ty.code == 7), op := .store x.size x.data, kind := .store }
      x.addr x.aligned) s

def execLdb (f : Fields) (s : State) : Host.Outcome State Fault Refusal :=
  issue (.ldb f) formLdb f (fun x s =>
    access x s { k := .load, op := .loadBlock (x.f.h * x.f.wd), kind := .load
                 dst := .block (blockRegs x.f.dest.toNat x.f.h x.f.wd) } x.addr x.blockAligned) s

def execStb (f : Fields) (s : State) : Host.Outcome State Fault Refusal :=
  issue (.stb f) formStb f (fun x s =>
    let ws := blockWords s x x.f.b.toNat
    access x s { k := .storeBlock ws.length, op := .storeBlock ws, kind := .store } x.addr x.blockAligned) s

def execLdacq (f : Fields) (s : State) : Host.Outcome State Fault Refusal :=
  issue (.ldacq f) formLdacq f (fun x s =>
    access x s { k := .load, op := .load x.size, kind := .load, dst := .reg x.f.dest.toNat x.f.ty, acq := true }
      x.addr x.aligned) s

/-- STREL: the checks, the release wait, then the store (spec/06 R115), which is strong at every scope (spec/04 R56). -/
def execStrel (f : Fields) (s : State) : Host.Outcome State Fault Refusal :=
  issue (.strel f) formStrel f (fun x s => do
    let wide : Bool := x.f.ty.code == 6 || x.f.ty.code == 7
    checkAll x s (.release wide) x.addr x.aligned x.size true
    ackHold s x true false
    access x s { k := .release wide, op := .store x.size x.data, kind := .store, strong := true } x.addr x.aligned) s

/-! ### Ordered flags (spec/04 R68, spec/06 R109) -/

/-- The eight counts that an OF store carries. -/
def countsTo (u : Tile) (dst : Nat) : List Nat := (List.range 8).map fun p => Sparse.get 0 u.sent (dst * 8 + p)

/-- The fault of an OF store at its home, before its counts are looked at: the context area, then the range (spec/04 R68, spec/06 R100). -/
def flagFault (s : State) (t off n : Nat) (v : Word) (user active : Bool) : Option Cause :=
  if user && (s.tile t).inCtx off n then some .priv else rangeFault s t off (.store n v) active none

/-! ### Full/empty accesses (spec/06 R117) -/

/-- A full/empty access. -/
def feAccess (x : In) (s : State) (op : MemOp) (dst : Dst) (aligned : Bool) : Body.Out :=
  access x s { k := .fullEmpty, op := op, kind := .fullEmpty, dst := dst } x.addr aligned

def execLdf (f : Fields) (s : State) : Host.Outcome State Fault Refusal :=
  issue (.ldf f) formLd f (fun x s => feAccess x s (.ldf x.size) (.reg x.f.dest.toNat x.f.ty) x.aligned) s
def execLdfe (f : Fields) (s : State) : Host.Outcome State Fault Refusal :=
  issue (.ldfe f) formLd f (fun x s => feAccess x s (.ldfe x.size) (.reg x.f.dest.toNat x.f.ty) x.aligned) s
def execStf (f : Fields) (s : State) : Host.Outcome State Fault Refusal :=
  issue (.stf f) (formSt 0) f (fun x s => feAccess x s (.stf x.size x.data) .none x.aligned) s
def execStef (f : Fields) (s : State) : Host.Outcome State Fault Refusal :=
  issue (.stef f) (formSt 0) f (fun x s => feAccess x s (.stef x.size x.data) .none x.aligned) s
def execSetf (f : Fields) (s : State) : Host.Outcome State Fault Refusal :=
  issue (.setf f) formSetf f (fun x s => feAccess x s .setf .none (x.addr.toNat % 8 == 0)) s
def execSete (f : Fields) (s : State) : Host.Outcome State Fault Refusal :=
  issue (.sete f) formSetf f (fun x s => feAccess x s .sete .none (x.addr.toNat % 8 == 0)) s

/-! ### Atomics (spec/06 R121 to R124) -/

/-- An atomic: the checks, the release wait of `.rel`, the request. -/
def amoBody (op : AmoOp) (x : In) (s : State) : Body.Out := do
  if x.f.minor.getLsbD 2 then
    checkAll x s .atomic x.addr x.aligned (x.f.ty.bits / 8) true
    ackHold s x true false
  let n := x.f.ty.bits
  let dst : Dst := if x.f.minor.getLsbD 0 then .none else .reg x.f.dest.toNat x.f.ty
  access x s { k := .atomic, op := .amo op n (BitVec.ofNat 64 x.bv) (BitVec.ofNat 64 x.cv), kind := .atomic, dst := dst
               merge := x.f.minor.toNat / 2 == 0, mty := x.f.ty.code
               acq := x.f.minor.getLsbD 1 } x.addr x.aligned

def execAadd (f : Fields) (s : State) : Host.Outcome State Fault Refusal :=
  issue (.aadd f) (formAmo fun t => 4 ≤ t.code && t.code ≤ 7) f (amoBody .add) s
def execAmin (f : Fields) (s : State) : Host.Outcome State Fault Refusal :=
  issue (.amin f) (formAmo fun t => t.code == 4 || t.code == 6) f (amoBody .min) s
def execAmax (f : Fields) (s : State) : Host.Outcome State Fault Refusal :=
  issue (.amax f) (formAmo fun t => t.code == 4 || t.code == 6) f (amoBody .max) s
def execAminn (f : Fields) (s : State) : Host.Outcome State Fault Refusal :=
  issue (.aminn f) (formAmo fun t => t.code == 5 || t.code == 7) f (amoBody .minn) s
def execAmaxn (f : Fields) (s : State) : Host.Outcome State Fault Refusal :=
  issue (.amaxn f) (formAmo fun t => t.code == 5 || t.code == 7) f (amoBody .maxn) s
def execAand (f : Fields) (s : State) : Host.Outcome State Fault Refusal :=
  issue (.aand f) (formAmo fun t => 4 ≤ t.code && t.code ≤ 7) f (amoBody .and) s
def execAor (f : Fields) (s : State) : Host.Outcome State Fault Refusal :=
  issue (.aor f) (formAmo fun t => 4 ≤ t.code && t.code ≤ 7) f (amoBody .or) s
def execAxor (f : Fields) (s : State) : Host.Outcome State Fault Refusal :=
  issue (.axor f) (formAmo fun t => 4 ≤ t.code && t.code ≤ 7) f (amoBody .xor) s
def execAswap (f : Fields) (s : State) : Host.Outcome State Fault Refusal :=
  issue (.aswap f) (formAmo fun t => 4 ≤ t.code && t.code ≤ 7) f (amoBody .swap) s
def execAcas (f : Fields) (s : State) : Host.Outcome State Fault Refusal :=
  issue (.acas f) formAcas f (amoBody .cas) s

/-! ### FENCE (spec/06 R128) -/

/-- FENCE.S: `.sys`, scope 4, reaches other packages too. -/
def execFence (f : Fields) (s : State) : Host.Outcome State Fault Refusal :=
  issue (.fence f) formFence f (fun x s => do
    fenceHold s x (x.f.scope == 4) false
    goOn s) s
def execFenceAck (f : Fields) (s : State) : Host.Outcome State Fault Refusal :=
  issue (.fenceAck f) formFenceAck f (fun x s => do
    fenceHold s x true true
    goOn s) s

end Sys2Proof.Machine
end

