-- ==== Sys2Proof/Machine/Far.lean ====
section
/-!
DEFINITION. Far requests: FARREQ, its arrival at a memory core, and the request programs (spec/07 R129 to R134).
-/

namespace Sys2Proof.Machine

open Sys2Proof

/-- FARREQ: the checks, the release wait, the request to the home memory core (spec/07 R133). -/
def execFarreq (f : Fields) (s : State) : Host.Outcome State Fault Refusal :=
  issue (.farreq f) formFarreq f (fun x s => do
    match ← checkAddr s x.t .farReq x.addr (x.addr.toNat % 8 == 0) with
    | .far va =>
      ackHold s x true false
      let s := addOut s x { tag := 0, who := x.w, kind := .request, addr := x.addr, late := true, slow := true }
      goOn (s.send (mkPacket x.t (mcDst (homeMc va)) x.seq none
        (.farreq { va := x.addr, param := x.b, entry := x.f.c.toNat, wk := x.f.dest.toNat, agent := x.t })))
    | _ => trapAt .region x.addr) s

/-- A far request at its memory core: no context, a full queue, no loader entry, or acceptance (spec/07 R133). -/
def execFarreqArrival (s : State) : Host.Outcome State Fault Refusal :=
  match s.packet s.sel with
  | some { dst := d, src := src, tag := tag, body := .farreq r, refused := false, .. } =>
    let reply (s : State) (a : Answer) : State := (s.drop s.sel).send (mkPacket d src tag none (.reply a))
    match s.tenantOf r.agent with
    | none => .next (reply s (.fault .farpage))
    | some n =>
      match s.mcFor (mcOf d) n with
      | none => .next (reply s (.fault .farpage))
      | some a =>
        match s.mc a with
        | none => .next (reply s (.fault .farpage))
        | some m =>
          if 32 ≤ m.queue.length then
            let (h, s) := s.choose
            .next (s.refuse s.sel (h % 11))
          else if (Sparse.get none m.loader r.entry).isNone then .next (reply s (.fault .window))
          else .next (reply { s with mcs := Sparse.set none s.mcs a (some { m with queue := m.queue ++ [r] }) } .done)
  | _ => .refused .notPending

/-- The registers of a request program at its start (spec/07 R134). -/
def requestTask (s : State) (entry : Nat) (r : FarReq) : Task :=
  { pc := BitVec.ofNat 64 entry
    g := ((((({} : Task).setG 1 r.va).setG 2 r.param).setG 3 (BitVec.ofNat 64 (s.cidOf r.agent))).setG 4 (BitVec.ofNat 64 r.wk)).g }

/-- The context's oldest request starts its program at the loader entry (spec/07 R134). -/
def execRequestProgramStart (s : State) : Host.Outcome State Fault Refusal :=
  let a := s.cur
  match s.mc a with
  | some ({ run := none, queue := r :: rest, .. } : McCtx) =>
    match s.mc a with
    | none => .refused .notPending
    | some m =>
      let entry := (Sparse.get none m.loader r.entry).getD 0
      let s := { s with mcs := Sparse.set none s.mcs a (some { m with run := some r, queue := rest }) }
      .next (s.modTile a fun u =>
        { u.setCtx 0 { task := requestTask s entry r, st := .running } with
          cur0 := some 0, line := none, atLine := true, checkTo := false, pairNext := false, out := [], pend := [] })
  | _ => .refused .notPending

/-- A request program that has ended, by DONE or by a fault, decrements the requester's wake counter, with a fault note where
it faulted (spec/07 R134). -/
def execRequestProgramEnd (s : State) : Host.Outcome State Fault Refusal :=
  let a := s.cur
  let u := s.tile a
  match s.mc a with
  | some m =>
    match m.run with
    | none => .refused .notPending
    | some r =>
      if u.cur0.isSome || (u.ctx 0).st != .ready then .refused .notPending
      else
        let note := (u.ctx 0).task.late.head?.map fun l => (l.cause, l.addr)
        let s := { s with mcs := Sparse.set none s.mcs a (some { m with run := none }) }
        let s := s.modTile a fun u => ({ seq := u.seq, cyc := u.cyc, stale := u.stale } : Tile)
        .next (s.send (mkPacket a r.agent 0 none (.wkdec r.wk 0 note false)))
  | none => .refused .notPending

end Sys2Proof.Machine
end

