-- ==== Sys2Proof/Machine/Stamped.lean ====
section
/-!
DEFINITION. The stamped instructions (spec/05 R89 to R95) and SETA (spec/03 R36).
-/

namespace Sys2Proof.Machine

open Sys2Proof

/-- addr := g[a] + sext(imm28[27:16]) × 64 (spec/05 R90). -/
def In.lineAddr (x : In) : Word := x.a + BitVec.ofInt 64 (64 * sgn 12 (x.f.imm.toNat / 65536))
/-- imm28[15:0]. -/
def In.low16 (x : In) : Nat := x.f.imm.toNat % 65536
/-- A line address. -/
def In.lineAligned (x : In) : Bool := x.lineAddr.toNat % 64 == 0

/-- The checks of a stamped access (spec/05 R90, R91): its alignment stands before step 6 of spec/02 R10, as spec/03 R44 says of a
misaligned access to a context area, and R90 and R91 do not (DEDUCED, log 107). -/
def lineChecks (x : In) (s : State) (counted : Bool) : Except Stop Unit :=
  checkAll x s .stamped x.lineAddr x.lineAligned 64 counted

/-- LDA: thr from `it` at issue; an acquire from scope `.gang` on (spec/05 R88, R90). -/
def ldaBody (v : LdaVariant) (x : In) (s : State) : Body.Out := do
  lineChecks x s false
  let thr := ((s.tile x.t).task x.w).it - BitVec.ofNat 32 x.low16
  access x s { k := .stamped, op := .lda v thr x.f.scope.toNat, kind := .load
               dst := .lda (blockRegs x.f.dest.toNat 1 8) x.f.b.toNat, acq := x.scope s != 0 } x.lineAddr true

def execLdaW (f : Fields) (s : State) : Host.Outcome State Fault Refusal := issue (.ldaW f) (formLda 0) f (ldaBody .w) s
def execLdaT (f : Fields) (s : State) : Host.Outcome State Fault Refusal := issue (.ldaT f) (formLda 1) f (ldaBody .t) s
def execLdaN (f : Fields) (s : State) : Host.Outcome State Fault Refusal := issue (.ldaN f) (formLda 2) f (ldaBody .n) s

/-- The line that a store takes from w[dest .. dest + 7]. -/
def lineOf (s : State) (x : In) : Line :=
  BitVec.ofNat 512 (ofBytes (wordsBytes ((blockRegs x.f.dest.toNat 1 8).map fun r => readReg s x.t x.w (wId r))))

/-- The deliveries of an STAM to the members of its group: posted stores of the task under an operation of their own, whose
faults are those of the STAM, exact if it issued under PX (spec/05 R85, R91, spec/04 R67). Those of a paired leader's own store, `held`,
wait for its interval (spec/19 R359), those to other packages behind re-issued requests to the line (spec/04 R64). -/
def deliverMirrors (s : State) (t : Nat) (o : Outst) (g : Nat) (line : Line) (age : BitVec 32) (active held : Bool) : State :=
  match s.huskOfTile t with
  | none => s
  | some (n, h) =>
    let ms := s.groupOf n g
    let (c, s) := s.choose
    let away := c % 2 = 1
    let far := if away then 1 else 0
    if ms.length + far = 0 then s
    else
      let tag := (s.tile t).seq
      let off := o.addr.toNat % 2 ^ 16
      let op : MemOp := .sta line age
      let id := s.nextId
      let held := held && (s.tile t).pairing.isSome
      let behind := s.staysBehind t o.addr 64
      let s := s.modTile t fun u => { u with
        seq := u.seq + 1
        out := u.out ++ [{ tag := tag, who := o.who, gen := o.gen, kind := .delivery, addr := o.addr, late := true, slow := true
                           pc := o.pc, op := some op, acks := ms.length + far, far := far, ctr := o.ctr, group := some g
                           px := o.px, parent := some o.order, snap := o.snap }] }
      let s := ms.foldl (fun s m => s.send (mkPacket t (h.tileAt m.1 m.2.1) tag none
        (.mirror (m.2.2 * 65536 + off) line age active))) s
      let s := if held then ((pairHold s t o.who ((List.range ms.length).map (id + ·)) op o.addr).toOption).getD s else s
      if away then { s with
        egress := s.egress ++ [{ chip := 0, src := t, tag := tag, path := 0, addr := o.addr, op := some op, group := some g, held := held
                                 behind := behind }] }
      else s

/-- The group of an STAM can be stored to: bound to the tenant, no member with 256 requests open, and room in a pair's remote buffer
(spec/05 R91, spec/04 R63, spec/19 R359). -/
def stamChecks (g : Nat) (x : In) (s : State) : Except Stop Unit := do
  match s.tenantOf x.t with
  | some n => need (s.groupBound n g) .window x.lineAddr
  | none => .ok ()
  if homesFull s x.t (groupHomes s x.t g) then .error (.hold none)
  if (s.tile x.t).pairing.any fun p => 64 ≤ p.buf.length then .error .close

/-- A stamped store; `g` is the group of an STAM. -/
def staBody (g : Option Nat) (x : In) (s : State) : Body.Out := do
  let a := x.lineAddr
  lineChecks x s true
  match g with
  | some g => stamChecks g x s
  | none => .ok ()
  if x.scope s != 0 then ackHold s x true false
  let line := lineOf s x
  let age := x.b.setWidth 32
  let own : Bool := match checkAddr s x.t .stamped a true with
    | .ok (.sram h _) => h == x.t
    | _ => false
  let (s', r) ← access x s { k := .stamped, op := .sta line age, kind := .store } a true
  match g, r with
  | some g, .next =>
    match (s'.tile x.t).out.find? fun o => o.tag = x.seq with
    | some o =>
      if own then
        .ok (deliverMirrors s' x.t o g line age ((s.tile x.t).activeBoost x.w) true, r)
      else .ok (s'.modTile x.t fun u => { u with
        out := u.out.map fun o => if o.tag = x.seq then { o with group := some g } else o }, r)
    | none => .ok (s', r)
  | _, _ => .ok (s', r)

def execSta (f : Fields) (s : State) : Host.Outcome State Fault Refusal := issue (.sta f) formSta f (staBody none) s
def execStam (f : Fields) (s : State) : Host.Outcome State Fault Refusal :=
  issue (.stam f) formStam f (fun x s => staBody (some x.low16) x s) s

def execAgeq (f : Fields) (s : State) : Host.Outcome State Fault Refusal :=
  issue (.ageq f) formAgeq f (fun x s => do
    lineChecks x s false
    access x s { k := .stamped, op := .ageq, kind := .load, dst := .ageq x.f.dest.toNat, acq := x.scope s != 0 } x.lineAddr true) s

/-- SETIT and ADVIT write `it`, readable by the next instruction (spec/05 R94). -/
def execSetit (f : Fields) (s : State) : Host.Outcome State Fault Refusal :=
  issue (.setit f) formSetit f (fun x s =>
    goOn (emit s x 1 [(0x68, if x.f.minor = 1 then x.a else x.immS)] 0)) s
def execAdvit (f : Fields) (s : State) : Host.Outcome State Fault Refusal :=
  issue (.advit f) formAdvit f (fun x s =>
    let d : Word := if x.f.minor = 1 then x.a else x.f.imm.setWidth 64
    goOn (emit s x 1 [(0x68, ((s.tile x.t).task x.w).it.setWidth 64 + d)] 0)) s

/-- ENDW: the release, then a stop notice to every tile of the husk and, with a group, to every member window
(spec/05 R80, R95). The rule names no address for its WINDOW: EADDR is the group's in region 0x20 (DESIGN CHOICE, log 108). -/
def endwBody (g : Option Nat) (x : In) (s : State) : Body.Out := do
  match s.huskOfTile x.t with
  | none => trapAt .huskbnd 0
  | some (n, h) =>
    match g with
    | some g => need (s.groupBound n g) .window (BitVec.ofNat 64 (0x20 * 2 ^ 56 + g * 65536))
    | none => .ok ()
    ackHold s x true false
    let ms := match g with
      | some g => s.groupOf n g
      | none => []
    let (c, s) := if g.isSome then s.choose else (0, s)
    let away := c % 2 = 1
    let wx := tileX x.t - h.col0
    let wy := tileY x.t - h.row0
    let far := if away then 1 else 0
    let s := addOut s x { tag := 0, who := x.w, kind := .delivery, late := g.isSome, slow := true, use := true
                          addr := BitVec.ofNat 64 (0x20 * 2 ^ 56 + g.getD 0 * 65536)
                          acks := h.tiles.length + ms.length + far, far := far }
    let s := h.tiles.foldl (fun s t => s.send (mkPacket x.t t x.seq none (.stop wx wy none))) s
    let s := ms.foldl (fun s m => s.send (mkPacket x.t (h.tileAt m.1 m.2.1) x.seq none (.stop wx wy (some m.2.2)))) s
    goOn (if away then { s with
        egress := s.egress ++ [{ chip := 0, src := x.t, tag := x.seq, path := 0, addr := 0, op := none, group := g }] }
      else s)

def execEndw (f : Fields) (s : State) : Host.Outcome State Fault Refusal := issue (.endw f) formEndw f (endwBody none) s
def execEndwGroup (f : Fields) (s : State) : Host.Outcome State Fault Refusal :=
  issue (.endwGroup f) formEndwGroup f (fun x s => endwBody (some x.low16) x s) s

/-! ### SETA (spec/03 R33 to R37) -/

/-- The attribute entry of two words. -/
def attrOf (a b : Word) : Attr :=
  { base := field a 8 0, len := field a 18 9, span := field a 21 19, stamped := bit a 22, mirror := bit a 23, boost := bit a 24
    feinit := field a 26 25, writer := field a 39 28, age0 := b.setWidth 32 }

/-- Two ranges meet. -/
def Attr.meets (a b : Attr) : Bool := a.base < b.base + b.len && b.base < a.base + a.len

/-- The checks of SETA in the order of R36. The rule does not say what EADDR holds after its HUSKBND fault: word A (DESIGN CHOICE,
log 83). -/
def setaChecks (s : State) (t e : Nat) (a b : Word) : Except Stop Unit := do
  let u := s.tile t
  let n := attrOf a b
  let others := u.attr.filterMap fun x => if x.1 = e then none else x.2
  need (field a 63 40 == 0 && field a 27 27 == 0 && field b 63 32 == 0) .illeg 0
  if n.len ≠ 0 then
    need (n.span != 7 && n.feinit != 3 && n.base + n.len ≤ 512) .illeg 0
    need (n.stamped || (!n.mirror && n.writer == 0)) .illeg 0
    need (!others.any n.meets) .illeg 0
    need (!u.inCtx (n.base * 4096) (n.len * 4096)) .illeg 0
    need (!n.stamped || ((others.filter (·.stamped)).map (·.len)).sum + n.len ≤ 256) .illeg 0
    match s.huskOfTile t with
    | some (_, h) => need (!n.stamped || (n.writer % 64 < h.width && n.writer / 64 < h.height)) .huskbnd a
    | none => .ok ()

/-- SETA waits for the drain of its ranges; one at a time. A SETA that issues while an earlier one of the tile still drains makes its
checks against the entries as they stand then, and is held: the rule does not say which entries it means (DESIGN CHOICE, log 83). -/
def execSeta (f : Fields) (s : State) : Host.Outcome State Fault Refusal :=
  issue (.seta f) formSeta f (fun x s => do
    setaChecks s x.t x.f.imm.toNat x.a x.b
    if (s.tile x.t).seta.isSome then .error (.hold none)
    let s := addOut s x { tag := 0, who := x.w, kind := .other, slow := true }
    goOn (s.modTile x.t fun u => { u with seta := some (x.f.imm.toNat, x.a, x.b, x.seq, 0) })) s

/-- Change the F/E bits of `n` words from byte `off` on. A word that is poisoned or in error keeps its condition: the rule does not say what
FEINIT does to a codeword (spec/03 R36, R39; DESIGN CHOICE, log 109). -/
def setRangeEmpty (s : State) (t off n : Nat) (b : Bool) : State :=
  { s with empt := if b then Sparse.setRange false s.empt (wordKey t off) true n
      else Sparse.clearRange s.empt (wordKey t off) (wordKey t off + n) }

/-- The effect of SETA once the drain is over (spec/03 R36, R37): side entries of the old range go, the entry is written,
F/E bits and side entries are initialised, the parked waiters of both ranges are retested. -/
def setaEffect (s : State) (t e : Nat) (a b : Word) : State :=
  let u := s.tile t
  let old := Sparse.get none u.attr e
  let n := attrOf a b
  let s := match old with
    | some o => { s with side := Sparse.clearRange s.side (lineKey t (o.base * 4096)) (lineKey t (o.base * 4096) + o.len * 64) }
    | none => s
  let s := s.modTile t fun u => { u with attr := Sparse.set none u.attr e (if n.len = 0 then none else some n) }
  let off := n.base * 4096
  let s := if n.len = 0 then s
    else if n.feinit = 1 then setRangeEmpty s t off (n.len * 512) true
    else if n.feinit = 2 then setRangeEmpty s t off (n.len * 512) false
    else s
  let s := if n.stamped && n.len != 0 then
      let e : Option Side := some { age := n.age0, writer := n.writer, mir := n.mirror, stop := false, ent := e }
      { s with side := Sparse.setRange none s.side (lineKey t off) e (n.len * 64) }
    else s
  let s := if n.len = 0 then s else s.retestAt t off (off + n.len * 4096)
  match old with
  | some o => s.retestAt t (o.base * 4096) ((o.base + o.len) * 4096)
  | none => s

/-- The drain is over: the slice performs each access as it accepts it, so none of them is left (spec/03 R37). -/
def execSetaDrainComplete (s : State) : Host.Outcome State Fault Refusal :=
  let t := s.cur
  match (s.tile t).seta with
  | none => .refused .notPending
  | some (e, a, b, tag, _) =>
    let s := setaEffect (s.modTile t fun u => { u with seta := none }) t e a b
    match (s.tile t).out.find? fun o => o.tag = tag with
    | some o => .next (finishOut s t o [])
    | none => .next s

/-! ### Far stores (spec/06 R120) -/

def execStfar (f : Fields) (s : State) : Host.Outcome State Fault Refusal :=
  issue (.stfar f) (formSt 0) f (fun x s =>
    access x s { k := .farStore, op := .store x.size x.data, kind := .store } x.addr x.aligned) s
def execStfarB (f : Fields) (s : State) : Host.Outcome State Fault Refusal :=
  issue (.stfarB f) formStfarB f (fun x s =>
    let ws := blockWords s x x.f.b.toNat
    access x s { k := .farStore, op := .storeBlock ws, kind := .store } x.addr
      (x.addr.toNat % 8 == 0 && x.addr.toNat % 64 + 8 * ws.length ≤ 64)) s

end Sys2Proof.Machine
end

