-- ==== Sys2Proof/Machine/Home.lean ====
section
/-!
DEFINITION. What arrives at a home: accesses of other cores and of other packages, atomics and their merging, ordered
flags, stamped stores, mirrors, stop notices, multicast deliveries, far stores, and the gateway (spec/02 R13 to R19,
spec/04 R59 to R69, spec/05 R75 to R85, spec/06 R102, R117 to R126).
-/

namespace Sys2Proof.Machine

open Sys2Proof

/-! ### Arrivals -/

/-- A pair's interval still holds the packet (spec/19 R359). -/
def pairHolds (s : State) (k : Nat) : Bool := s.tiles.any fun e => e.2.pairing.any fun p => p.buf.any (·.contains k)

/-- Two packets of core `t` are requests of one task. -/
def oneTask (s : State) (t : Nat) (p q : Packet) : Bool :=
  let u := s.tile t
  u.out.any fun o => p.carries t o.tag && u.out.any fun x => q.carries t x.tag && x.who = o.who

/-- A flag that the same task has sent before, to a word of the packet's, is held at its destination: the packet waits until the flag has
been applied (spec/04 R50, R53). Of another package's requests the source core is known, and not the task; one counted in the flag's own
epoch was sent before the flag, which waits for it (R68; log 82). -/
def behindFlag (s : State) (p : Packet) : Bool :=
  s.heldFlags.any fun f => f.dst = p.dst && f.id < p.id && f.countSrc = p.countSrc
    && (p.body.bytes.any fun e => f.touches e.1 e.2)
    && (if p.remote.isSome then !p.counted || p.epoch != f.epoch else oneTask s p.src f p)

/-- Packet k can arrive now. -/
def arrived (s : State) (k : Nat) : Option Packet :=
  match s.packet k with
  | some p => if p.refused || !deliverable s.net k || pairHolds s k || behindFlag s p then none else some p
  | none => none

/-- Who asked. -/
def Packet.asker (p : Packet) : Asker :=
  match p.remote with
  | some (chip, core, tag) => .remote chip core tag
  | none => .core p.src p.tag 0

/-- The address of a byte of the home's slice as the sender gave it. -/
def Packet.addrOf (s : State) (p : Packet) (off : Nat) : Word :=
  match s.huskOfTile p.dst with
  | some (_, h) =>
    BitVec.ofNat 64 ((if p.remote.isSome then 2 ^ 56 + s.chip * 2 ^ 33 else 0)
      + (tileY p.dst - h.row0) * 2 ^ 27 + (tileX p.dst - h.col0) * 2 ^ 21 + off)
  | none => 0

/-- Count what a packet brought, merged requests one by one. -/
def countPacket (s : State) (p : Packet) (bad : Option (Cause × Word)) : State :=
  if !p.counted then s
  else match p.merged with
    | [] => s.countArrival p.countSrc p.countDst p.path p.epoch bad
    | ms => ms.foldl (fun s m => s.countArrival m.src p.dst p.path m.epoch bad) s

/-- Send the answer of a packet; a merged request's answer is still to be split. -/
def replyTo (s : State) (p : Packet) (a : Answer) : State :=
  match p.remote with
  | some _ => s.answer p.dst p.asker (remoteAnswer a)
  | none => s.send { mkPacket p.dst p.src p.tag none (.reply a) with merged := p.merged }

/-- The unit of another package's store or atomic goes back with its answer, or is withheld while the NI's count exceeds 128 units:
the request itself has entered the count and left it (spec/15 R292, R293). -/
def remoteUnit (s : State) (p : Packet) : State :=
  match p.remote with
  | none => s
  | some (_, _, tag) =>
    let u := s.tile p.dst
    if 128 < u.occ then
      s.setTile p.dst { u with
        withheld := u.withheld ++ [{ dest := p.countSrc, al := tag, units := 1, home := p.dst }], cong := min 255 (u.cong + 1)
        halvedAt := if u.cong = 0 then u.cyc / 4096 else u.halvedAt }
    else withUnits s 1

/-- What the state of the home's husk does to a packet from outside: performed in RUNNING, a negative acknowledgement in
KILLED, refused otherwise (spec/02 R13, spec/18 R343). -/
def outsideState (s : State) (p : Packet) : HuskState :=
  if p.remote.isNone then .running
  else match s.huskOfTile p.dst with
    | some (_, h) => h.st
    | none => .killed

/-- Keep the tag of another package's request at the home that has performed or refused it (spec/04 R63). -/
def keepTag (s : State) (p : Packet) (a : Answer) : State :=
  match p.remote with
  | some (_, _, tag) => logTag s p.countSrc (s.homeName p.dst) tag a
  | none => s

/-- A request is answered: counted, logged, replied to, its unit given back. -/
def answered (s : State) (p : Packet) (off : Nat) (modifies : Bool) (a : Answer) : State :=
  let bad : Option (Cause × Word) := match (if p.remote.isSome then remoteAnswer a else a) with
    | .fault c => some (c, p.addrOf s off)
    | _ => none
  let s := countPacket s p bad
  let s := if modifies then keepTag s p (remoteAnswer a) else s
  let s := replyTo s p a
  if modifies then remoteUnit s p else s

/-- An access arrives at its home and is performed, parked, refused or answered with a fault. -/
def arriveAccess (s : State) (k : Nat) (sel : MemOp → Bool) : Host.Outcome State Fault Refusal :=
  match arrived s k with
  | some p =>
    match p.body with
    | .access off op user boost =>
      if !sel op then .refused .notPending
      else
        let outside := p.remote.isSome
        match outsideState s p with
        | .running =>
          let xy := if outside then none else some (s.cidOf p.src)
          let (s1, ans) := performAt (s.drop k) p.dst off op p.asker user boost xy
          match ans with
          | .full => .next (s.refuse k 0)
          | .fault .eccu => .next (if outside then answered s1 p off (opModifies op) (.fault .window) else s1)
          | .parked => .next (if outside then s1 else replyTo s1 p .parked)
          | a => .next (answered s1 p off (opModifies op) a)
        | .killed => .next (answered (s.drop k) p off (opModifies op) (.fault .window))
        | _ => .next (s.refuse k 0)
    | _ => .refused .notPending
  | none => .refused .notPending

/-- A line of code arrives: the whole line is replaced; the core may still hold the old one buffered (spec/02 R14,
spec/03 R41, spec/04 R65). -/
def arriveCode (s : State) (p : Packet) (off : Nat) (line : Line) : State :=
  let no := off / 64
  let s := s.modTile p.dst fun u => { u with stale := u.stale ++ [(no, istoreLine s p.dst no)] }
  replyTo (setBytes s (istoreKey p.dst (64 * no)) (bytesOf line.toNat 64)) p .done

/-- A row of the commutativity table: entry k2 is two bits of the first word for k2 below 32, else of the second
(spec/17 R328). -/
def Tile.setRow (u : Tile) (row : Nat) (lo hi : Word) : Tile :=
  { u with commut := (List.range 64).foldl (fun m k =>
      Sparse.set 3 m (row * 64 + k) (if k < 32 then field lo (2 * k + 1) (2 * k) else field hi (2 * (k - 32) + 1) (2 * (k - 32)))) u.commut }

def plainOp : MemOp → Bool
  | .load _ | .loadBlock _ | .store _ _ | .storeBlock _ | .engine _ => true
  | _ => false

def execRemoteAccessArrival (a : Arrival) (s : State) : Host.Outcome State Fault Refusal :=
  match a with
  | .copy ch j => (match copyMove s ch j false with
    | some s' => .next s'
    | none => .refused .notPending)
  | .pkt k =>
    match arrived s k with
    | some p => (match p.body with
      | .code off line => .next (arriveCode (s.drop k) p off line)
      | .commut row lo hi => .next (replyTo ((s.drop k).modTile p.dst fun u => u.setRow row lo hi) p .done)
      | _ => arriveAccess s k plainOp)
    | none => .refused .notPending

def execFeAccessAtHome (s : State) : Host.Outcome State Fault Refusal :=
  arriveAccess s s.sel fun op => match op with
    | .ldf _ | .ldfe _ | .stf _ _ | .stef _ _ | .setf | .sete => true
    | _ => false
def execAtomicAtHome (s : State) : Host.Outcome State Fault Refusal :=
  arriveAccess s s.sel fun op => match op with
    | .amo _ _ _ _ => true
    | _ => false
def execStampedStoreAtHome (s : State) : Host.Outcome State Fault Refusal :=
  arriveAccess s s.sel fun op => match op with
    | .sta _ _ => true
    | _ => false
def execLdaAtHome (s : State) : Host.Outcome State Fault Refusal :=
  arriveAccess s s.sel fun op => match op with
    | .lda _ _ _ => true
    | _ => false
def execAgeqAtHome (s : State) : Host.Outcome State Fault Refusal :=
  arriveAccess s s.sel fun op => match op with
    | .ageq => true
    | _ => false

/-- A far store at its home memory core, done for the tenant that has sent it (spec/06 R120, spec/07 R129, R131, spec/02 R24). -/
def execFarStoreArrival (a : Arrival) (s : State) : Host.Outcome State Fault Refusal :=
  match a with
  | .copy ch j => (match copyMove s ch j true with
    | some s' => .next s'
    | none => .refused .notPending)
  | .pkt k =>
    match arrived s k with
    | some p =>
      match p.body with
      | .farStore n va op =>
        let s := s.drop k
        match translate s n (field va 47 0) with
        | (s, some l) =>
          if !l.wr then .next (replyTo s p (.fault .farpage))
          else
            let key := l.key + va.toNat % 4096
            (match op with
            | .store m v =>
              if s.farPartBad key m then .next (killHusk s n) else .next (replyTo (s.putFar key (bytesOf v.toNat m)) p .done)
            | .storeBlock ws => .next (replyTo (s.putFar key (wordsBytes ws)) p .done)
            | _ => .refused .notPending)
        | (s, none) => .next (replyTo s p (.fault .farpage))
      | _ => .refused .notPending
    | none => .refused .notPending

/-! ### Merging of atomics (spec/04 R62, spec/06 R125) -/

/-- The requester asks for no value. -/
def Packet.noReturn (s : State) (p : Packet) : Bool :=
  match (s.tile p.src).out.find? fun o => o.tag = p.tag with
  | some o => o.dst == .none
  | none => false

/-- The participants of a request. -/
def Packet.parts (p : Packet) (v : Word) : List Merged :=
  if p.merged.isEmpty then [{ src := p.src, tag := p.tag, epoch := p.epoch, v := v }] else p.merged

/-- Two requests become one at a router: k1 has arrived first. -/
def execRouterAtomicMerge (k1 k2 : Nat) (s : State) : Host.Outcome State Fault Refusal :=
  match arrived s k1, arrived s k2 with
  | some p, some q =>
    match p.body, q.body with
    | .access off (.amo op n v c) user boost, .access off2 (.amo op2 n2 v2 c2) user2 boost2 =>
      let parts := p.parts v ++ q.parts v2
      if k1 != k2 && p.dst = q.dst && off = off2 && op == op2 && n = n2 && user == user2 && boost == boost2
          && p.mergeable && q.mergeable && p.mty = q.mty && p.remote.isNone && q.remote.isNone && op != .swap && op != .cas && c = c2
          && p.noReturn s == q.noReturn s && (p.noReturn s || op == .add) && parts.length ≤ 8
      then
        let v' : Word := BitVec.ofNat 64 (amoNew op n v.toNat v2.toNat 0)
        .next { s.drop k2 with
          net := modifyFirst (fun x => x.id = k1)
            (fun x => { x with body := .access off (.amo op n v' c) user boost, merged := parts }) (s.drop k2).net }
      else .refused .notPending
    | _, _ => .refused .notPending
  | _, _ => .refused .notPending

/-- Replies in arrival order: v, v + a1, v + a1 + a2 and so on. -/
def splitReplies (s : State) (src : Nat) (a : Answer) : List Merged → Word → State
  | [], _ => s
  | m :: ms, v =>
    let ans : Answer := match a with
      | .data _ _ => .data [v] 0
      | x => x
    splitReplies (s.send (mkPacket src m.src m.tag none (.reply ans))) src a ms (v + m.v)

def execMergedReplySplit (s : State) : Host.Outcome State Fault Refusal :=
  match arrived s s.sel with
  | some p =>
    match p.body with
    | .reply a =>
      if p.merged.isEmpty then .refused .notPending
      else
        let v : Word := match a with
          | .data ws _ => ws.headD 0
          | _ => 0
        .next (splitReplies (s.drop s.sel) p.src a p.merged v)
    | _ => .refused .notPending
  | none => .refused .notPending

/-! ### Ordered flags (spec/04 R68, R69, spec/26 R395, R396) -/

/-- Every arrival count has reached the count carried. -/
def countsReached (s : State) (p : Packet) (counts : List Nat) : Bool :=
  ((List.range 8).zip counts).all fun e =>
    (Sparse.get 0 s.arrivals (countKey p.countSrc p.countDst e.1) + 2 ^ 16 - e.2 % 2 ^ 16) % 2 ^ 16 < 2 ^ 15

/-- A flag is refused with fault `c`, or discarded where its epoch is poisoned: it counts, poisons nothing, and its tag is kept
(spec/04 R63, R69, spec/26 R395, R396; log 62). -/
def refuseFlag (s : State) (p : Packet) (c : Cause) : State :=
  let key := epochKey p.countSrc p.countDst p.epoch
  let a := s.flagAnswer key (if p.remote.isSome then remoteAnswer (.fault c) else .fault c)
  let s := countPacket { s with epochs := Sparse.set none s.epochs key none } p none
  remoteUnit (replyTo (keepTag s p a) p a) p

/-- The flag of a packet, whose counts have been reached, is discarded in a poisoned epoch, refused where its husk has been killed or its
window does not let it in, or applied as a plain store (spec/04 R68, R69). -/
def applyFlag (s : State) (p : Packet) : State :=
  match p.body with
  | .flag off n v _ user boost =>
    let key := epochKey p.countSrc p.countDst p.epoch
    match Sparse.get none s.epochs key with
    | some (c, a) => answered { s with epochs := Sparse.set none s.epochs key none } p off true (.dropped c a)
    | none =>
      if outsideState s p == .killed then refuseFlag s p .window
      else
        let (s1, ans) := performAt s p.dst off (.store n v) p.asker user boost none
        match ans with
        | .fault .eccu => if p.remote.isSome then refuseFlag s1 p .window else s1
        | .fault c => refuseFlag s1 p c
        | a => answered s1 p off true a
  | _ => s

/-- A paired leader's flag to its own slice, whose counts have been reached, is applied at once (spec/19 R359). -/
def ownFlag (s : State) (p : Packet) : Body.Out :=
  let t := applyFlag s p
  if t.husks == s.husks then goOn t else .ok (t, .gone)

/-- `ST.of` carries the counts of what was sent before it, and is counted itself; under PX the next instruction waits until it has been
applied (spec/04 R67). A later access of the task to a word of the flag waits until the flag has been applied (R50, R53; log 82), and that
of its own slice parks no wait (spec/06 R104). A paired leader's to its own slice is logged, and performed at once where its counts have
been reached, else as soon as they are (spec/19 R359; log 25). That of a memory-core program, whose earlier writes have all been
acknowledged, is an engine write as its other stores are (DEDUCED, log 113). -/
def execStOf (f : Fields) (s : State) : Host.Outcome State Fault Refusal :=
  issue (.stOf f) (formSt 1) f (fun x s => do
    let a := x.addr
    let op : MemOp := .store x.size x.data
    let u := s.tile x.t
    let user := !(u.task x.w).sup
    let active := u.activeBoost x.w
    if numTiles ≤ x.t then (if regionOf a == 0x00 then mcSlice x s { k := .storeOf, op := op, kind := .store } a x.aligned else trapAt .region a)
    else
    match ← checkAddr s x.t .storeOf a x.aligned with
    | .sram h off =>
      if niFull s x.t a then .error (.hold none)
      if matrixMeets s x.t x.w h off x.size true then .error (.hold none)
      if h = x.t && u.pairing.isSome then ownOrder s x.t x.w h off op else behindParked s x.t x.w h off op
      let path := pathOf h (off / 64)
      let poisoned := (Sparse.get none s.epochs (epochKey x.t h (u.epochTo h))).isSome
      match (if h = x.t && !poisoned then flagFault s h off x.size x.data user active else none) with
      | some c => .error (.turnedAway c a path true)
      | none =>
        let p := { mkPacket x.t h x.seq (lineChan off) (.flag off x.size x.data (countsTo u h) user active) with
          path := path, counted := true, epoch := u.epochTo h }
        let away := h != x.t
        let s := s.modTile x.t fun u => (u.countSent h path).nextEpoch h
        let id := s.nextId
        let s := addOut s x { tag := 0, who := x.w, kind := .store, addr := a, op := some op, late := true
                              status := away && u.pairing.isNone, slow := away }
        if away then goOn (← pairHold (s.send p) x.t x.w [id] op a)
        else
          let s ← pairOwn s x.t off op a
          if u.pairing.isSome && countsReached s p (countsTo u h) then ownFlag s p else goOn (s.send p)
    | .remote chip _ _ _ =>
      if niFull s x.t a then .error (.hold none)
      let (k, u1) ← takeUnits u (chipDst chip) 1
      let path := pathOf (chipDst chip) (a.toNat % 2 ^ 33 / 64)
      let behind := s.staysBehind x.t a x.size
      let s := s.setTile x.t ((u1.countSent (chipDst chip) path).nextEpoch (chipDst chip))
      let s ← pairHold s x.t x.w [2 ^ 64 + s.nextId] op a
      let s := addOut s x { tag := 0, who := x.w, kind := .store, addr := a, op := some op
                            remote := true, late := true, slow := true, al := k, units := 1 }
      goOn { s with
        nextId := s.nextId + 1
        egress := s.egress ++ [{ chip := chip, src := x.t, tag := x.seq, path := path, addr := a, op := some op
                                 counts := countsTo u (chipDst chip), held := u.pairing.isSome
                                 epoch := u.epochTo (chipDst chip), behind := behind }] }
    | _ => trapAt .region a) s

/-- The unit of another package's flag enters the NI's count while the flag is held at a tile (spec/15 R293), and leaves it. -/
def flagUnit (s : State) (p : Packet) (enters : Bool) : State :=
  if p.remote.isNone || numTiles ≤ p.dst then s else s.modTile p.dst fun u => { u with occ := if enters then u.occ + 1 else u.occ - 1 }

/-- The sender of a flag waits for its status, which the flag's own tests give at once (spec/06 R102). -/
def awaitsStatus (s : State) (p : Packet) : Bool :=
  p.remote.isNone && (s.tile p.src).out.any fun o => o.tag = p.tag && o.status

/-- An OF store at its destination: applied or discarded where its counts have been reached, else held, or refused where 16 flags are held.
One that is to fault waits for its counts as well, so that a fault of its epoch is known by then (R69, R396), unless its sender waits for
its status (R102; log 62). -/
def execOfStoreArrival (s : State) : Host.Outcome State Fault Refusal :=
  match arrived s s.sel with
  | some p =>
    match p.body with
    | .flag off n v counts user boost =>
      let s1 := s.drop s.sel
      if outsideState s p != .running && outsideState s p != .killed then .next (s.refuse s.sel 0)
      else match (if awaitsStatus s p then flagFault s p.dst off n v user boost else none) with
      | some c => .next (refuseFlag s1 p c)
      | none =>
        if countsReached s p counts then .next (applyFlag s1 p)
        else if 16 ≤ (s.heldFlags.filter fun f => f.countDst = p.countDst).length then .next (s.refuse s.sel 0)
        else
          let s2 := { s1 with heldFlags := s1.heldFlags ++ [p] }
          .next (if p.remote.isSome then flagUnit s2 p true else replyTo s2 p .parked)
    | _ => .refused .notPending
  | none => .refused .notPending

/-- A held flag whose counts have been reached; `sel` is its packet. -/
def execOfFlagApply (s : State) : Host.Outcome State Fault Refusal :=
  match s.heldFlags.find? fun f => f.id = s.sel with
  | some p =>
    match p.body with
    | .flag _ _ _ counts _ _ =>
      if countsReached s p counts then
        .next (applyFlag (flagUnit { s with heldFlags := s.heldFlags.filter fun f => f.id != s.sel } p false) p)
      else .refused .notPending
    | _ => .refused .notPending
  | none => .refused .notPending

/-! ### Deliveries to groups (spec/02 R18, R19, spec/05 R80, R85) -/

/-- A delivery to one member is done or refused, and its tag is kept there (spec/04 R63). Towards another package a refusal is
answered at once, and the last delivery here answers the rest (log 15). -/
def delivered (s : State) (p : Packet) (a : Answer) : State :=
  match p.remote with
  | none => replyTo s p a
  | some (_, _, tag) =>
    let s := logTag s p.countSrc (s.homeName p.dst) tag (remoteAnswer a)
    match a with
    | .done => if s.net.any fun q => q.remote == p.remote then s else replyTo s p .done
    | a => replyTo s p a

/-- The faults of a group delivery: a context area is a refusal of the member (log 15). -/
def groupFault (a : Answer) : Answer :=
  match a with
  | .fault .priv => .fault .window
  | x => x

/-- A multicast store at one member, taken out of the network. -/
def deliverMember (s : State) (k : Nat) : State :=
  match s.packet k with
  | some ({ body := .multicast off op user boost _, .. } : Packet) =>
    match s.packet k with
    | none => s
    | some p =>
      let s := s.drop k
      if outsideState s p == .killed then delivered s p (.fault .window)
      else
        let (s, ans) := performAt s p.dst off op p.asker user boost none
        match ans with
        | .fault .eccu => if p.remote.isSome then delivered s p (.fault .window) else s
        | a => delivered s p (groupFault a)
  | _ => s

/-- The deliveries of one strong multicast store: it is performed at all its members in one step, so that no two observers see two of
them in opposite orders (spec/04 R56). -/
def siblings (s : State) (p : Packet) : List Packet :=
  s.net.filter fun q => q.src = p.src && q.tag = p.tag && q.remote == p.remote && match q.body with
    | .multicast _ _ _ _ true => true
    | _ => false

def execMulticastDelivery (s : State) : Host.Outcome State Fault Refusal :=
  match arrived s s.sel with
  | some p =>
    match p.body with
    | .multicast _ _ _ _ strong =>
      let ps := if strong then siblings s p else [p]
      if ps.any fun q => outsideState s q != .running && outsideState s q != .killed then .next (s.refuse s.sel 0)
      else if !ps.all fun q => (arrived s q.id).isSome then .refused .notPending
      else .next (ps.foldl (fun s q => deliverMember s q.id) s)
    | _ => .refused .notPending
  | none => .refused .notPending

/-- A member applies a delivery of an STAM: the BOOST test of a stamped line first (spec/03 R35), then spec/05 R85. Of a line with BOOST
and without MIR R85 would say STAWR: R35 is followed (DESIGN CHOICE, log 39). -/
def applyMirror (s : State) (t off : Nat) (line : Line) (age : BitVec 32) (boost : Bool) : State × Answer :=
  match s.sideOf t off with
  | none => (s, .fault .stawr)
  | some e =>
    if (s.tile t).touches (·.boost) off 64 && !boost then (s, .fault .boostwr)
    else if !e.mir then (s, .fault .stawr)
    else if ageAtLeast age e.age then
      let s := s.putSlice t off (bytesOf line.toNat 64)
      ((s.setSide t off (some { e with age := age, stop := false })).retestAt t off (off + 64), .done)
    else (s, .done)

def execMirrorDelivery (s : State) : Host.Outcome State Fault Refusal :=
  match arrived s s.sel with
  | some p =>
    match p.body with
    | .mirror off line age boost =>
      let s1 := s.drop s.sel
      (match outsideState s p with
      | .running => let (s2, a) := applyMirror s1 p.dst off line age boost; .next (delivered s2 p a)
      | .killed => .next (delivered s1 p (.fault .window))
      | _ => .next (s.refuse s.sel 0))
    | _ => .refused .notPending
  | none => .refused .notPending

/-- Set STOP in the lines of a tile that a test picks, and complete their waiters (spec/05 R78, R80). -/
def stopLines (s : State) (t : Nat) (pick : Nat → Side → Bool) : State :=
  let hits := s.side.filter fun e => e.1 / 2 ^ 15 = t && (match e.2 with
    | some x => pick (e.1 % 2 ^ 15 * 64) x
    | none => false)
  let s := { s with side := s.side.map fun e => if e.1 / 2 ^ 15 = t then (e.1, e.2.map fun x =>
      if pick (e.1 % 2 ^ 15 * 64) x then { x with stop := true } else x) else e }
  hits.foldl (fun s e => s.retestAt t (e.1 % 2 ^ 15 * 64) (e.1 % 2 ^ 15 * 64 + 64)) s

/-- A stop notice at a tile: the lines of the writer, or the mirror lines of a member window. -/
def execStopNoticeArrival (s : State) : Host.Outcome State Fault Refusal :=
  match arrived s s.sel with
  | some p =>
    match p.body with
    | .stop x y g =>
      let s1 := s.drop s.sel
      (match outsideState s p with
      | .running =>
        let s2 := match g with
          | none => stopLines s1 p.dst fun _ e => e.writer = y * 64 + x
          | some base => stopLines s1 p.dst fun off e => e.mir && off / 65536 = base
        .next (delivered s2 p .done)
      | .killed => .next (delivered s1 p (.fault .window))
      | _ => .next (s.refuse s.sel 0))
    | _ => .refused .notPending
  | none => .refused .notPending

/-! ### The NI and the links -/

/-- A refused packet goes out again without the task's help (spec/04 R59, spec/15 R269). -/
def execNiUnaidedRetry (s : State) : Host.Outcome State Fault Refusal :=
  match s.packet s.sel with
  | some p =>
    (match p.body with
    | .aperture _ _ | .farreq _ => .refused .notPending
    | _ =>
      if p.refused then .next { s with net := modifyFirst (fun x => x.id = s.sel) (fun x => { x with refused := false }) s.net }
      else .refused .notPending)
  | none => .refused .notPending

/-- What has left for another package is the unanswered request of a word of the channel's copy: its read, or its write once it has been
read. -/
def Channel.unanswered (x : Channel) (e : Egress) : Bool :=
  let j := e.tag % 2 ^ 32
  e.tag = x.tagOf j && x.sentIn.contains j && (x.read.any fun y => y.1 = j) == e.op.any opModifies

/-- A link fails: what is unacknowledged towards the packages it served goes out again in its order; new requests to those
lines stay behind (spec/20 R369, spec/04 R64). The switch replicates what goes to a group, whatever the link (spec/20 R368). -/
def execLinkFailure (port : Nat) (chips : List Nat) (s : State) : Host.Outcome State Fault Refusal :=
  if s.linksDown.contains port || 35 < port then .refused .notPending
  else
    let open_ (e : Egress) : Bool := (chips.contains e.chip || e.group.isSome) && e.ans.isNone && e.units = 0 && !e.held && !e.behind
      && (if 5000 ≤ e.src && e.src < 6000 then (s.chan (e.src - 5000)).unanswered e else (s.tile e.src).out.any fun o => o.tag = e.tag)
    let again := (s.egress.filter open_).eraseDups
    .next { s with
      linksDown := s.linksDown ++ [port]
      egress := s.egress ++ again
      channels := s.channels.map fun x => (x.1, { x.2 with
        again := x.2.again ++ ((again.filter fun e => e.src = chDst x.1).map fun e => e.tag % 2 ^ 32).filter fun j => !x.2.again.contains j })
      tiles := s.tiles.map fun x => (x.1, { x.2 with
        out := x.2.out.map fun o => if again.any fun e => e.src = x.1 && e.tag = o.tag then { o with reissued := true } else o }) }

/-- Scrubbing corrects a single-bit error and marks a word with an uncorrectable one (spec/03 R39). -/
def execBackgroundScrub (word : Nat) (s : State) : Host.Outcome State Fault Refusal :=
  if numTiles * 2 ^ 18 ≤ word then .refused .notPending
  else
    match Sparse.get .good s.ecc word with
    | .single => .next { s with ecc := Sparse.set .good s.ecc word .good }
    | .bad => .next { s with ecc := Sparse.set .good s.ecc word .poisoned }
    | _ => .next s

/-! ### The gateway (spec/02 R13, R16 to R19) -/

/-- The entry that decides: the lowest one for the source chip and tenant. -/
def peerFor (s : State) (chip tenant : Nat) : Option Peer :=
  s.peers.findSome? fun e => match e.2 with
    | some p => if p.chip = chip && p.tenant = tenant then some p else none
    | none => none

/-- The entry allows the operation. -/
def Peer.allows (p : Peer) : MemOp → Bool
  | .load _ | .loadBlock _ | .lda _ _ _ | .ageq => p.loads
  | .store _ _ | .storeBlock _ | .engine _ | .sta _ _ => p.stores
  | .amo _ _ _ _ => p.atomics
  | _ => false

/-- The packet of a request that has come in. -/
def gatePacket (g : GatewayReq) (dst : Nat) (chan : Option Nat) (span : Nat) (counted : Bool) (b : Body) : Packet :=
  { mkPacket (remoteSrc g.chip g.core) dst g.tag chan b with
    span := span
    path := g.path, counted := counted, epoch := g.epoch, remote := some (g.chip, g.core, g.tag) }

/-- The home that a request of another package names, the tile at (x, y) of the husk that its peer window gives. -/
def gateName (s : State) (g : GatewayReq) (x y : Nat) : Nat := homeKey ((peerFor s g.chip g.tenant).elim 256 (·.husk)) x y

/-- A refusal at the gateway: WINDOW, counted as an arrival that poisons its epoch (spec/04 R69, spec/26 R395). -/
def gateRefuse (s : State) (g : GatewayReq) (x y off : Nat) (counted : Bool) : State :=
  let src := remoteSrc g.chip g.core
  let a : Answer := .fault .window
  let bad := (Cause.window, s.outsideAddr x y off)
  let s := if counted then logTag (s.countArrival src packageDst g.path g.epoch (some bad)) src (gateName s g x y) g.tag a else s
  let s := s.answer packageDst (.remote g.chip g.core g.tag) a
  if counted then withUnits s 1 else s

/-- The tile that the request names, or none where it is refused, or `some none` where its NI is to retry. -/
def gateTile (s : State) (g : GatewayReq) (x y : Nat) (op : MemOp) : Option (Option Nat) :=
  match peerFor s g.chip g.tenant with
  | none => none
  | some p =>
    match s.husk p.husk with
    | none => none
    | some h =>
      if !p.allows op || h.width ≤ x || h.height ≤ y || h.st == .killed then none
      else if h.st != .running then some none
      else some (some (h.tileAt x y))

/-- The members of a group in every husk of the package: the tile, its husk's state and the base (log 15). -/
def groupMembers (s : State) (g : Nat) : List (Nat × HuskState × Nat) :=
  (s.groups.map fun e =>
    if e.1 / 256 = g then
      match s.husk (e.1 % 256) with
      | some h => ((e.2.getD []).filter h.hasMember).map fun m => (h.tileAt m.1 m.2.1, h.st, m.2.2)
      | none => []
    else []).flatten

/-- The answer kept for a request at a home (spec/04 R63). -/
def loggedAt (s : State) (g : GatewayReq) (home : Nat) : Option Answer :=
  (s.tagLog.find? fun e => e.1 = remoteSrc g.chip g.core && e.2.1 = home && e.2.2.1 = g.tag).map (·.2.2.2)

/-- The answer kept for a request for one tile, whose home has performed or refused it, or for which the package has refused it before a
peer window named its husk (spec/04 R63). -/
def logged (s : State) (g : GatewayReq) (x y : Nat) : Option Answer :=
  loggedAt s g (gateName s g x y) <|> loggedAt s g (homeKey 256 x y)

/-- A group delivery of another package goes to every member here that has not had it; without a member, be the group bound here or not
(R10 and R18 count such a group as bound, and R19 speaks of no entry: DESIGN CHOICE, log 119), and for one whose husk has been killed, it
is refused, and while a member's husk is on its way out or evicted it is retried (spec/02 R13, R19, spec/18 R343). A duplicate
that every member has had is answered as they answered it. -/
def gateGroup (s : State) (g : GatewayReq) (group : Nat) (body : Nat → Body) (chan : Nat → Option Nat) (span : Nat) : State :=
  let ms := groupMembers s group
  let closed := ms.any fun m => m.2.1 == .killed
  let who : Asker := .remote g.chip g.core g.tag
  if ms.isEmpty then s.answer packageDst who (.fault .window)
  else if ms.any fun m => m.2.1 != .running && m.2.1 != .killed then s
  else
    let ms := ms.filter fun m => m.2.1 == .running
    if ms.isEmpty then s.answer packageDst who (.fault .window)
    else
      let had (m : Nat × HuskState × Nat) : Option Answer := loggedAt s g (s.homeName m.1)
      let fresh := ms.filter fun m => (had m).isNone
      if fresh.isEmpty then
        s.answer packageDst who (((ms.filterMap had).find? (· != .done)).getD (if closed then .fault .window else .done))
      else
        let s := if closed then s.answer packageDst who (.fault .window) else s
        fresh.foldl (fun s m => s.send (gatePacket g m.1 (chan m.2.2) span false (body m.2.2))) s

/-- A duplicate of a request that is on its way here, is held as a flag, or has parked at its home. -/
def underway (s : State) (g : GatewayReq) : Bool :=
  ((s.net ++ s.heldFlags).any fun p => p.remote == some (g.chip, g.core, g.tag))
    || s.tiles.any fun e => e.2.waiters.any fun w => w.asker == .remote g.chip g.core g.tag

/-- A request for one tile: refused, left to its NI's retry, a duplicate of one that has been answered, or on its way; a flag that is to
be refused waits for its counts at the package (spec/02 R13, R16, spec/04 R63, R69, spec/18 R343, spec/26 R396; log 62). -/
def gateOne (s : State) (g : GatewayReq) (x y off : Nat) (op : MemOp) (body : Body) : State :=
  match logged s g x y with
  | some a => s.answer packageDst (.remote g.chip g.core g.tag) a
  | none =>
    match gateTile s g x y op with
    | none => (match body with
      | .flag _ _ _ _ _ _ => s.send (gatePacket g (gateName s g x y) none 0 true body)
      | _ => gateRefuse s g x y off (opModifies op))
    | some none => s
    | some (some t) => s.send (gatePacket g t (lineChan off) (lineSpan off (opLen op)) (opModifies op) body)

/-- The bytes of a request lie in one slice, those of a group's in one member window (spec/02 R9, R18): no other request leaves a core. -/
def gatewayFits (g : GatewayReq) : Bool :=
  match g.kind with
  | .access _ _ off op => off + opLen op ≤ 2 ^ 21
  | .flag _ _ off n _ _ => off + n ≤ 2 ^ 21
  | .multicast _ off op _ => off + opLen op ≤ 2 ^ 16
  | .mirror _ off _ _ _ => off + 64 ≤ 2 ^ 16
  | .stop _ => true

/-- A request of another package comes in: a duplicate is not performed again (spec/04 R63). -/
def execGatewayAccess (g : GatewayReq) (s : State) : Host.Outcome State Fault Refusal :=
  if !gatewayFits g then .refused .notPending
  else if underway s g then .next s
  else
    match g.kind with
    | .access x y off op => .next (gateOne s g x y off op (.access off op g.user g.boost))
    | .flag x y off n v counts => .next (gateOne s g x y off (.store n v) (.flag off n v counts g.user g.boost))
    | .multicast group off op strong =>
      .next (gateGroup s g group (fun base => .multicast (base * 65536 + off) op g.user g.boost strong)
        (fun base => lineChan (base * 65536 + off)) (lineSpan off (opLen op)))
    | .mirror group off line age boost =>
      .next (gateGroup s g group (fun base => .mirror (base * 65536 + off) line age boost) (fun _ => none) 0)
    | .stop group => .next (gateGroup s g group (fun base => .stop 0 0 (some base)) (fun _ => none) 0)

end Sys2Proof.Machine
end

