-- ==== Sys2Proof/Machine/Reply.lean ====
section
/-!
DEFINITION. Answers that reach a core: data, acknowledgements, fault reports (spec/04 R66 to R69, spec/05 R77, R79,
spec/06 R101 to R103, spec/18 R342).
-/

namespace Sys2Proof.Machine

open Sys2Proof

/-- The answer that arrives: the state without its packet, the core, the operation's number, the answer. -/
def takeReply (s : State) (r : Reply) : Option (State × Nat × Nat × Answer) :=
  match r with
  | .pkt k =>
    match arrived s k with
    | some p => (match p.body with
      | .reply a => if p.merged.isEmpty then some (s.drop k, p.dst, p.tag, a) else none
      | _ => none)
    | none => none
  | .remote t tag a => some (s, t, tag, a)
  | .copyIn _ _ _ => none

/-- The answer comes from another package. -/
def replyAway : Reply → Bool
  | .remote _ _ _ => true
  | _ => false

/-- The operation's answer carries a generation: a load, a returning atomic, a parked access (spec/18 R342). -/
def Outst.carriesGen (o : Outst) : Bool := o.op.isSome && (o.kind == .load || o.dst != .none || o.parked)

/-- The outstanding operation that an answer is for: an answer of an old generation, or from a place that owes none, finds none and is
dropped (spec/18 R342). -/
def Tile.outFor (u : Tile) (r : Reply) (tag : Nat) : Option Outst :=
  (u.out.find? fun o => o.tag = tag).filter fun o =>
    (!o.carriesGen || o.gen = genOf u o.who) && (!(replyAway r) || o.remote || o.far != 0)

/-- What core `t` holds back goes out in its order: not what meets a line of a re-issued request, nor of an earlier one, of `kept`, that is
still held back. -/
def goOut (u : Tile) (t : Nat) (kept : List Egress) : List Egress → List Egress
  | [] => []
  | e :: r =>
    if e.src = t && e.behind then
      if u.againOn e.addr (lenOf e.op) || kept.any (·.meets e.addr (lenOf e.op)) then e :: goOut u t (e :: kept) r
      else { e with behind := false } :: goOut u t kept r
    else e :: goOut u t kept r

/-- Requests that re-issued requests to a line of theirs held back go out once none of those is left (spec/04 R64). -/
def releaseBehind (s : State) (t : Nat) (o : Outst) : State :=
  if !o.reissued then s else { s with egress := goOut (s.tile t) t [] s.egress }

/-- Units of a request to another package come back with its answer, or later, where its NI withholds them (spec/15 R292, R293;
log 61). -/
def unitsBack (s : State) (t : Nat) (o : Outst) : State :=
  if o.units = 0 then s
  else
    let (c, s) := s.choose
    if c % 2 = 0 then s.modTile t fun u => u.setAllow o.al (min 32 (u.allow o.al + o.units))
    else s.send (mkPacket (chipDst 0) t 0 none (.grant o.al o.units))

/-- One answer of an operation, `away` if from another package; the last one ends it, and its units travel back (spec/06 R101,
spec/15 R292). -/
def answerOut (s : State) (t : Nat) (o : Outst) (ws : List (Nat × Word)) (away : Bool := false) : State :=
  if 1 < o.acks then
    s.modTile t fun u => { u with out := u.out.map fun x =>
      if x.tag = o.tag then { x with acks := x.acks - 1, far := if away then x.far - 1 else x.far } else x }
  else releaseBehind (finishOut (unitsBack s t o) t o ws) t o

/-- The task of the stream has been aborted, and its undo runs (spec/17 R320). -/
def Tile.undoing (u : Tile) (w : Who) : Bool :=
  match w with
  | .img i => (u.ctx i).st == .waiting .undo
  | _ => false

/-- An operation ends in an exact fault: taken now, or first of all once its stream runs and a pair's interval has closed (spec/06
R102, spec/04 R67, spec/19 R358). A task that has been aborted does not meet it (spec/17 R320; DESIGN CHOICE,
log 100). -/
def exactOut (s : State) (t : Nat) (o : Outst) (c : Cause) (a : Word) (fdrop : Bool) : State :=
  let u := s.tile t
  let s := answerOut s t { o with acks := 1 } []
  let o := { o with addr := a }
  if u.undoing o.who then s
  else if u.active == some o.who && !u.pairOpen then exactFault s t o c fdrop
  else deferExact s t o c fdrop

/-- The answer without a fault, the last of which brings up a fault that an earlier answer under PX has reported (spec/04 R67). -/
def doneOut (s : State) (t : Nat) (o : Outst) (away : Bool) : State :=
  match o.bad with
  | some (c, a) => if 1 < o.acks then answerOut s t o [] away else exactOut s t o c a false
  | none => answerOut s t o [] away

/-- The data of a load, a returning atomic, an LDA, an AGEQ, or a status that lets the task go on. -/
def execLoadReply (r : Reply) (s : State) : Host.Outcome State Fault Refusal :=
  match takeReply s r with
  | some (s, t, tag, a) =>
    match a, (s.tile t).outFor r tag with
    | .data ws age, some o =>
      if o.dst == .none then .refused .notPending else .next (answerOut s t o (o.dst.writes ws age))
    | .parked, some _ =>
      .next (s.modTile t fun u =>
        { u with out := u.out.map fun x => if x.tag = tag then { x with status := false, parked := true } else x })
    | .data _ _, none | .parked, none => .next s
    | _, _ => .refused .notPending
  | none => .refused .notPending

/-- A PARK has been accepted: its task has ended (spec/15 R283). -/
def parkAccepted (s : State) (t : Nat) (o : Outst) : State :=
  let s := countRetired s t o.who ((s.tile t).task o.who).mwo
  endTask s t o.who

/-! ### Answers to a BDECL (spec/17 R319, R325) -/

/-- A grant pushes its entry on the undo stack, as plain stores to the own slice; where it comes after the abort, that entry is undone
with the others (spec/17 R320). -/
def grantPush (s : State) (t : Nat) (o : Outst) : State :=
  match o.who with
  | .img i =>
    let b := ((s.tile t).ctx i).boost
    let off := b.undo + 32 * b.depth
    let a : Word := BitVec.ofNat 64 (s.cidOf t * 2 ^ 21 + off)
    let s := pairLog s t off (.storeBlock o.pushes) a
    (s.putSlice t off (wordsBytes o.pushes)).modTile t fun u =>
      { u.setCtx i { u.ctx i with boost := { (u.ctx i).boost with depth := b.depth + 1, btry := false } } with
        undo := u.undo.map fun y => if y.img = i then { y with left := y.left + 1 } else y }
  | _ => s

/-- The reasons of an abort notice, which waits for the end of a masked window (spec/17 R320). -/
def isNotice (reason : Nat) : Bool := reason == 1 || reason == 3

/-- An abort of the task of image i is pending now, unless one is already, or its undo runs; a pending notice, which a masked window may
still put off, gives way to an abort of the task's own (spec/17 R320). -/
def Tile.askAbort (u : Tile) (reason ticket : Nat) : Tile :=
  if u.undo.isSome then u
  else match u.abort with
    | some (r, _) => if isNotice r && !isNotice reason then { u with abort := some (reason, ticket) } else u
    | none => { u with abort := some (reason, ticket) }

/-- An ABORT answer, with the ticket of the older task: the abort is pending (reason DECL). -/
def abortAnswer (s : State) (t : Nat) (o : Outst) (v : Word) : State :=
  match o.who with
  | .img i => s.modTile t fun u =>
      (u.setCtx i { u.ctx i with boost := { (u.ctx i).boost with btry := false } }).askAbort 2 v.toNat
  | _ => s

/-- BTBL: BTRY is set, and the fault is exact at the BDECL. -/
def tableFault (s : State) (t : Nat) (o : Outst) (a : Word) : State :=
  let s := match o.who with
    | .img i => s.modTile t fun u => u.setCtx i { u.ctx i with boost := { (u.ctx i).boost with btry := true } }
    | _ => s
  exactOut s t o .btbl a false

/-- An acknowledgement. The home of an STAM has performed it: its deliveries go out (spec/05 R85). -/
def execAcknowledgementArrival (r : Reply) (s : State) : Host.Outcome State Fault Refusal :=
  match r with
  | .copyIn ch j ans => (match copyAnswer s ch j ans with
    | some s' => .next s'
    | none => .next s)
  | _ =>
    match takeReply s r with
    | some (s, t, tag, a) =>
      match a, (s.tile t).outFor r tag with
      | .done, some o =>
        if o.park then .next (parkAccepted s t o)
        else if o.pushes != [] then .next (answerOut (grantPush s t o) t o [])
        else
          let s' := match o.group, o.op with
            | some g, some (.sta line age) =>
              if o.kind == .delivery then s else deliverMirrors s t o g line age ((s.tile t).activeBoost o.who) false
            | _, _ => s
          .next (doneOut s' t o (replyAway r))
      | .data ws _, some o =>
        if o.pushes != [] then .next (answerOut (abortAnswer s t o (ws.headD 0)) t o [])
        else if o.dst == .none then .next (answerOut s t o []) else .refused .notPending
      | .done, none => .next s
      | .data _ _, none => .next s
      | _, _ => .refused .notPending
    | none => .refused .notPending

/-- Where a late fault is taken: with the counter or a destination for loads, returning atomics, stamped accesses, ENDW and a
refused SPAWN, else at the next boundary, as that of a stamped store turned away at a gateway (spec/04 R66, spec/02 R13, R17,
spec/05 R79, R95, spec/15 R282). -/
def Outst.lateAt (o : Outst) (c : Cause) : LateAt :=
  match o.op with
  | some (.load _) | some (.loadBlock _) | some (.lda _ _ _) | some .ageq => .use
  | some (.sta _ _) => if c == .window then .boundary else .use
  | some (.amo _ _ _ _) => if o.dst == .none then .boundary else .use
  | some _ => .boundary
  | none => if o.use then .use else .boundary

/-- The pending fault that a report makes. -/
def Outst.toLate (o : Outst) (c : Cause) (a : Word) (fdrop : Bool) : Late :=
  { cause := c, addr := a, fdrop := fdrop, order := o.order, at_ := if fdrop then .boundary else o.lateAt c, counter := o.ctr
    dests := o.dst.regs }

/-- The fault is exact: a status of region 0x00, or an operation that issued under PX (spec/06 R102, spec/04 R66, R67). -/
def Outst.exact (o : Outst) : Bool := o.status || o.park || o.px

/-- The fault report can be taken in: an exact fault of the running stream waits until its matrix instructions have settled, and a
status until the older ones of its stream have come (spec/14 R253, spec/06 R102). -/
def Tile.reportReady (u : Tile) (o : Outst) : Bool :=
  !o.exact || ((u.active != some o.who || !u.matrixBusy o.who)
    && !(u.out.any fun x => x.who = o.who && x.status && x.order < o.order))

/-- A fault that is not exact stays pending; the operation is over, or awaits its other answers. -/
def lateOut (s : State) (t : Nat) (o : Outst) (c : Cause) (a : Word) (fdrop away : Bool) : State :=
  wakeWaiting (answerOut (addLate s t o.who (o.toLate c a fdrop)) t o [] away) t

/-- A fault report: the end of a request program, an exact fault, one that a task with PX meets with the last answer of the operation,
or a fault that stays pending. -/
def reportFault (s : State) (t : Nat) (o : Outst) (c : Cause) (away : Bool) : State :=
  if numTiles ≤ t then endProgram (answerOut s t o []) t c o.addr
  else if o.status || o.park then exactOut s t o c o.addr false
  else if o.exact then
    if 1 < o.acks then
      answerOut (s.modTile t fun u => { u with out := u.out.map fun x =>
        if x.tag = o.tag then { x with bad := some (x.bad.getD (c, o.addr)) } else x }) t o [] away
    else
      let (c, a) := o.bad.getD (c, o.addr)
      exactOut s t o c a false
  else lateOut s t o c o.addr false away

/-- A fault report. -/
def execLateFaultReport (r : Reply) (s : State) : Host.Outcome State Fault Refusal :=
  match takeReply s r with
  | some (s, t, tag, a) =>
    match a, (s.tile t).outFor r tag with
    | .fault c, some o => if (s.tile t).reportReady o then .next (reportFault s t o c (replyAway r)) else .refused .notPending
    | .dropped c addr, some o =>
      if !(s.tile t).reportReady o then .refused .notPending
      else if c == .btbl then .next (tableFault s t o addr)
      else if o.park || o.px then .next (exactOut s t o c addr true)
      else .next (lateOut s t o c addr true (replyAway r))
    | .fault _, none | .dropped _ _, none => .next s
    | _, _ => .refused .notPending
  | none => .refused .notPending

end Sys2Proof.Machine
end

