-- ==== Sys2Proof/Machine/Control.lean ====
section
/-!
DEFINITION. The control instructions (spec/10 R166, spec/12 R216 to R220, spec/15 R296) with the transfers of forwarded
gangs (spec/09 R153).
-/

namespace Sys2Proof.Machine

open Sys2Proof

/-- A checked transfer (spec/10 R166): the format, then the target line; a line that fails parity or shape is entered and
faults there. -/
def checkedJump (x : In) (s : State) (tgt : Word) : Except Stop (State × After) :=
  if !pcOk tgt then trapAt .badtgt tgt
  else
    let (s, l) := fetchLine s x.t (tgt.toNat / 8)
    if l.parityOk && l.shapeOk && !l.tgt (tgt.toNat % 8) then trapAt .badtgt tgt
    else .ok (s, .jump tgt (some { no := tgt.toNat / 8, line := l, entered := false }))

/-- A transfer that checks the format alone. -/
def plainJump (s : State) (tgt : Word) : Except Stop (State × After) :=
  if !pcOk tgt then trapAt .badtgt tgt else .ok (s, .jump tgt none)

/-- What the leader's forwarded line says of the slot that the follower has come to: the target that the leader took. -/
def leaderTook (s : State) (x : In) : Option Word :=
  match (s.tile x.t).fwd with
  | [] => none
  | y :: _ => match y.taken with
    | some (slot, tgt) => if slot = x.pc.toNat % 8 then some tgt else none
    | none => none

/-- Transfer: a follower goes where its leader went, every other stream runs `own`. -/
def transfer (x : In) (s : State) (own : Except Stop (State × After)) : Except Stop (State × After) :=
  if (s.tile x.t).following x.w then
    match leaderTook s x with
    | some tgt => .ok (s, .jump tgt none)
    | none => goOn s
  else own

/-- The PC immediate. -/
def In.pcImm (x : In) : Word := BitVec.ofNat 64 x.f.imm.toNat

/-- A link or counter write that goes with the transfer. -/
def withWrite (x : In) (r : Nat) (v : Word) (o : Except Stop (State × After)) : Except Stop (State × After) :=
  o.map fun p => (emit p.1 x 1 [(r, v)] 0, p.2)

def execBr (f : Fields) (s : State) : Host.Outcome State Fault Refusal :=
  issue (.br f) formBr f (fun x s => transfer x s (checkedJump x s x.pcImm)) s
def execBri (f : Fields) (s : State) : Host.Outcome State Fault Refusal :=
  issue (.bri f) formBri f (fun x s => transfer x s (checkedJump x s x.a)) s
def execCall (f : Fields) (s : State) : Host.Outcome State Fault Refusal :=
  issue (.call f) formCall f (fun x s => withWrite x 0x3E (nextPc x.pc) (transfer x s (checkedJump x s x.pcImm))) s
def execCalli (f : Fields) (s : State) : Host.Outcome State Fault Refusal :=
  issue (.calli f) formCalli f (fun x s => withWrite x 0x3E (nextPc x.pc) (transfer x s (checkedJump x s x.a))) s
def execRet (f : Fields) (s : State) : Host.Outcome State Fault Refusal :=
  issue (.ret f) formBri f (fun x s => transfer x s (plainJump s x.a)) s

/-- LOOP: each member of a forwarded gang counts its own register. -/
def execLoop (f : Fields) (s : State) : Host.Outcome State Fault Refusal :=
  issue (.loop f) formLoop f (fun x s =>
    let v := readReg s x.t x.w x.f.dest.toNat - 1
    withWrite x x.f.dest.toNat v (transfer x s (if v = 0 then goOn s else checkedJump x s x.pcImm))) s

/-- BRU: a follower whose guard differs from its leader's faults FWDDIV with the leader's target as saved PC, and with the
next slot where the leader did not take it (DESIGN CHOICE, log 91). -/
def execBru (f : Fields) (s : State) : Host.Outcome State Fault Refusal :=
  issue (.bru f) formBr f (fun x s =>
    let u := s.tile x.t
    if u.following x.w then
      let own := guardOf (u.task x.w) x.f
      let lead := match u.fwd with
        | y :: _ => y.guards.any fun g => g.1 = x.pc.toNat % 8 && g.2
        | [] => own
      if own = lead then transfer x s (goOn s)
      else .error (.trap .fwddiv 0 (some ((leaderTook s x).getD (nextPc x.pc))) false)
    else checkedJump x s x.pcImm) s

/-- BALW: a transfer when the allowance register holds enough (spec/15 R296). -/
def execBalw (f : Fields) (s : State) : Host.Outcome State Fault Refusal :=
  issue (.balw f) formBalw f (fun x s =>
    transfer x s (if x.f.b.toNat ≤ (s.tile x.t).allow (x.f.a.toNat - 0x50) then checkedJump x s x.pcImm else goOn s)) s

/-- DONE past its waits: a live boosted task commits first, as BCOMMIT does (spec/17 R326), a paired one unpairs; then the task ends. -/
def doneBody (x : In) (s : State) : Body.Out := do
  let u := s.tile x.t
  ackHold s x true true
  if !(u.task x.w).maskClear 0x3F then .error (.hold (some (.counters 0x3F)))
  if u.matrix.queue.any fun q => q.who = x.w then .error (.hold none)
  match x.img, u.boosted with
  | some i, some j => if i = j then
      if u.out.any fun o => o.who = x.w && o.acquire then .error (.hold (some .acquire))
      return ((commitBoost s x i).modTile x.t fun u => { u with cyc := u.cyc + 1 }, .gone)
  | _, _ => pure ()
  let s := tellFollowers s x.t x.w (x.pc.toNat % 8) true .gone
  let s := countRetired s x.t x.w (u.task x.w).mwo
  let s := s.modTile x.t fun u => u.payIssue x.f.stall.toNat
  if numTiles ≤ x.t then return (endRequest s x.t, .gone)
  let s := if u.pairing.any fun p => x.w = .img p.img then endPair s x.t else s
  return (endTask s x.t x.w, .gone)

def execDone (f : Fields) (s : State) : Host.Outcome State Fault Refusal := issue (.done f) formDone f doneBody s

/-- IFENCE: the region 0x02 stores are acknowledged, buffered lines are discarded, the next slot's line is fetched anew. A follower
leaves the forwarded line where its leader does, and receives the rest anew. -/
def execIfence (f : Fields) (s : State) : Host.Outcome State Fault Refusal :=
  issue (.ifence f) formIfence f (fun x s =>
    if (s.tile x.t).following x.w then transfer x s (goOn s)
    else if (s.tile x.t).owesCode x.w then .error (.hold (some .code))
    else .ok (s.modTile x.t Tile.dropBuffered, .jump (nextPc x.pc) none)) s

end Sys2Proof.Machine
end

