-- ==== Sys2Proof/Machine/Tasks.lean ====
section
/-!
DEFINITION. The task instructions: messages, SPAWN, PARK, wake counters, YIELD, queue ports and queues, allowance bindings,
masked windows (spec/15 R269 to R296).
-/

namespace Sys2Proof.Machine

open Sys2Proof

/-- Units of a payload: ⌈len / 64⌉ (spec/15 R292). -/
def unitsOf (len : Nat) : Nat := (len + 63) / 64

/-- The members of the tile's cohort. -/
def State.membersOf (s : State) (c : Cohort) : List Nat :=
  match s.husk c.tenant with
  | some h => c.members h
  | none => []

/-- The logical index of a tile in its cohort. -/
def State.indexIn (s : State) (c : Cohort) (t : Nat) : Nat :=
  match s.husk c.tenant with
  | some h => c.logical h t
  | none => 0

/-- Under DET a send of an unfinished core to a core of its cohort is tagged (spec/19 R351): index, window, sequence. -/
def detTag (s : State) (t dst : Nat) : Option (Nat × Nat × Nat) :=
  match s.cohortOf t with
  | some c =>
    let d := (s.tile t).det
    if c.det && !d.finished && (s.membersOf c).contains dst
    then some (s.indexIn c t, d.sent, Sparse.get 0 d.seqs dst) else none
  | none => none

/-- Count a tagged message. -/
def Tile.countTagged (u : Tile) (dst : Nat) : Tile :=
  { u with det := { u.det with
      seqs := Sparse.set 0 u.det.seqs dst (Sparse.get 0 u.det.seqs dst + 1)
      inWindow := Sparse.set 0 u.det.inWindow dst (Sparse.get 0 u.det.inWindow dst + 1) } }

/-! ### SEND, SENDB (spec/15 R280, R281) -/

/-- The address checks of a send. -/
def sendTarget (s : State) (x : In) (len : Nat) : Except Stop (Nat × Nat) := do
  match ← checkAddr s x.t .localOnly x.a (x.a.toNat % 8 == 0 && x.a.toNat % 2 ^ 21 + len ≤ 2 ^ 21) with
  | .sram h off =>
    need (((s.tile x.t).task x.w).sup || !(s.tile h).inCtx off len) .priv x.a
    return (h, off)
  | _ => trapAt .region x.a

/-- Send a payload: the units are taken, the message goes out; it is a counted request (spec/06 R109), which the limit of 256 to one home
holds too (spec/04 R63). It goes on no line channel: whether the write of a payload is an access of the sending task to that location, which
R50, R51 and R280 leave open, the model takes as no (DESIGN CHOICE, log 123), so that it and the task's own accesses may pass each other. -/
def sendOut (x : In) (s : State) (h off : Nat) (ws : List Word) : Body.Out := do
  if homesFull s x.t (homesOf s x.t x.a) || matrixMeets s x.t x.w h off (8 * ws.length) true then .error (.hold none)
  let n := unitsOf (8 * ws.length)
  let (k, u) ← takeUnits (s.tile x.t) h n
  let s := s.setTile x.t u
  let task := u.task x.w
  let tag := detTag s x.t h
  let path := pathOf h (off / 64)
  let lvl := x.f.minor.toNat % 2
  let m : Msg :=
    { off := off, words := ws, handler := BitVec.ofNat 64 x.f.imm.toNat, level := lvl, it := task.it, gid := task.gid
      tstat := inheritStat task.tstat (lvl == 1) (supOf s h), cid := s.cidOf x.t, al := k, units := n
      path := path, epoch := u.epochTo h, det := tag.isSome, index := (tag.map (·.1)).getD 0, window := (tag.map (·.2.1)).getD 0
      seqno := (tag.map (·.2.2)).getD 0, agent := x.t, tag := x.seq }
  let s := if tag.isSome then s.modTile x.t fun u => u.countTagged h else s
  let s := s.modTile x.t fun u => u.countSent h path
  let s := addOut s x { tag := 0, who := x.w, kind := .request, addr := x.a, late := true, slow := true, payload := true }
  goOn (s.send (mkPacket x.t h x.seq none (.message m)))

def execSend (f : Fields) (s : State) : Host.Outcome State Fault Refusal :=
  issue (.send f) formSend f (fun x s => do
    let (h, off) ← sendTarget s x (8 * (x.f.h * x.f.wd))
    sendOut x s h off (blockWords s x x.f.b.toNat)) s

/-- SENDB reads its payload from the own slice as plain loads. -/
def execSendb (f : Fields) (s : State) : Host.Outcome State Fault Refusal :=
  issue (.sendb f) formSendb f (fun x s => do
    let n := x.f.c.toNat + 1
    let (h, off) ← sendTarget s x (8 * n)
    let own := match s.huskOfTile x.t with
      | some (_, hk) => hk.tileAt (field x.b 26 21) (field x.b 32 27) == x.t
          && field x.b 26 21 < hk.width && field x.b 32 27 < hk.height
      | none => false
    need (regionOf x.b == 0x00 && mustBeZero x.b && own) .region x.b
    let src := field x.b 20 0
    need (src % 8 == 0 && src + 8 * n ≤ 2 ^ 21) .align x.b
    need (((s.tile x.t).task x.w).sup || !(s.tile x.t).inCtx src (8 * n)) .priv x.b
    ownOrder s x.t x.w x.t src (.loadBlock n)
    if s.consumesBad x.t src (8 * n) then .ok (eccuKill s x.t, .gone)
    else
      let (s, ws) := readWords (s.correct x.t src n) x.t src n
      sendOut x s h off ws) s

/-! ### SPAWN, PARK (spec/15 R282, R283) -/

def execSpawn (f : Fields) (s : State) : Host.Outcome State Fault Refusal :=
  issue (.spawn f) formSpawn f (fun x s => do
    let h ← coreOf s x.t x.a
    need (maskOk x.b) .illeg 0
    let k := (s.tile x.t).task x.w
    let p : Pod :=
      { task := { pc := BitVec.ofNat 64 x.f.imm.toNat, tstat := inheritStat k.tstat false (supOf s h), it := k.it, gid := k.gid
                  g := liveRegs k x.b.toNat }
        live := x.b.toNat, checked := true }
    let s := addOut s x { tag := 0, who := x.w, kind := .request, late := true, slow := true, use := true }
    goOn (s.send (mkPacket x.t h x.seq (if h = x.t then none else orderedChan)
      (.spawn p (if x.f.minor = 1 then some x.f.c.toNat else none))))) s

/-- PARK: its waits, those for the task's matrix instructions among them as DONE's (spec/14 R247), then the continuation goes out with
every result of fixed latency written (spec/25 R394), and the task stays until the answer (R283). A live boosted task may not PARK
(spec/17 R326). -/
def execPark (f : Fields) (s : State) : Host.Outcome State Fault Refusal :=
  issue (.park f) formPark f (fun x s => do
    let u := s.tile x.t
    let k := u.task x.w
    if u.out.any fun o => o.who = x.w && o.park then .error (.hold none)
    need (!k.fwd && !(u.activeBoost x.w)) .illeg 0
    let h ← coreOf s x.t x.a
    need (maskOk x.b) .illeg 0
    if !k.maskClear 0x3F then .error (.hold (some (.counters 0x3F)))
    ackHold s x true true
    if u.matrixBusy x.w then .error (.hold none)
    let s := s.modTile x.t Tile.flush
    let k := (s.tile x.t).task x.w
    let p : Pod :=
      { task := { pc := nextPc x.pc, tstat := closeWindow k.tstat, sticky := k.sticky, ret := k.ret, it := k.it, gid := k.gid
                  p := k.p, g := liveRegs k x.b.toNat }
        live := x.b.toNat }
    let s := addOut s x { tag := 0, who := x.w, kind := .other, slow := true, park := true }
    let s := s.send (mkPacket x.t h x.seq (if h = x.t then none else orderedChan) (.park p x.f.c.toNat))
    return (s.modTile x.t fun u => { u.payIssue x.f.stall.toNat with held := true }, .gone)) s

/-! ### Wake counters (spec/15 R277 to R279, spec/07 R140) -/

def Tile.wakeOf (u : Tile) (n : Nat) : Wake := Sparse.get {} u.wake n
def Tile.setWake (u : Tile) (n : Nat) (x : Wake) : Tile := { u with wake := Sparse.set {} u.wake n x }

/-- Pending notes of a counter as late faults of the task that it readies, the earliest first. -/
def noteLates (ns : List (Cause × Word)) : List Late :=
  ((List.range ns.length).zip ns).map fun e => { cause := e.2.1, addr := e.2.2, note := true, order := e.1 }

/-- A counter's WORD in `ret` of the task of image i is a register result of the pair that the image may be coupled in (spec/19 R358). -/
def Tile.foldRet (u : Tile) (i : Nat) (v : Word) : Tile := if u.pairing.any fun p => p.img = i then u.foldFp 0x6D v else u

/-- A counter at zero readies its pod with ret := WORD; a task that waits in place goes on at its WAIT. -/
def readyWake (u : Tile) (n : Nat) : Tile :=
  let x := u.wakeOf n
  if x.count ≠ 0 then u
  else match x.pod with
    | .none => u
    | .free p =>
      let p := { p with task := { p.task with ret := x.word, late := noteLates x.notes } }
      { u.setWake n { x with pod := .none, notes := [] } with ready := u.ready ++ [.free p] }
    | .bound i =>
      let u := u.foldRet i x.word
      let c := u.ctx i
      if c.st = .waiting (.counter n) then
        let u := (u.setWake n { x with pod := .none, notes := [] }).setCtx i
          { c with st := .ready, task := { c.task with ret := x.word, late := noteLates x.notes ++ c.task.late } }
        { u with ready := u.ready ++ [.bound i] }
      else
        (u.setWake n { x with pod := .none }).setCtx i { c with task := { c.task with ret := x.word }, waitDone := true }

/-- A decrement (R277). The fault note of one that is ignored because COUNT is 0 already is kept for the next pod or WAIT: R140 and
R277 do not say (DESIGN CHOICE, log 84). -/
def decrement (u : Tile) (n : Nat) (v : Word) (note : Option (Cause × Word)) : Tile :=
  let x := u.wakeOf n
  let x := { x with word := v, notes := x.notes ++ note.toList }
  if x.count = 0 then u.setWake n x
  else readyWake (u.setWake n { x with count := x.count - 1 }) n

/-- Attach a pod; a counter already at zero readies it at once. -/
def attach (u : Tile) (n : Nat) (p : WakePod) : Tile := readyWake (u.setWake n { u.wakeOf n with pod := p }) n

/-- A task that completes its WAIT takes the notes of its counter at the next slot. -/
def takeNotes (u : Tile) (w : Who) (n : Nat) : Tile :=
  let x := u.wakeOf n
  (u.setWake n { x with notes := [] }).modTask w fun k => { k with late := noteLates x.notes ++ k.late }

/-- The task has retired its WAIT and is set aside until its counter readies it. -/
def waitAside (s : State) (x : In) (n : Nat) : State :=
  let s := countRetired s x.t x.w ((s.tile x.t).task x.w).mwo
  let s := s.modTile x.t fun u => (u.modTask x.w fun k => { k with pc := nextPc k.pc }).payIssue x.f.stall.toNat
  setAside s x.t (.waiting (.counter n))

/-- WAIT: at zero it goes on; else the task is attached and set aside, or stays in place while no other pod is ready. -/
def execWait (f : Fields) (s : State) : Host.Outcome State Fault Refusal :=
  issue (.wait f) formWait f (fun x s => do
    let n := x.f.c.toNat
    let u := s.tile x.t
    let v := u.wakeOf n
    match x.img with
    | none => trapAt .illeg 0
    | some i =>
      let aside := u.otherReady && !(u.task x.w).fwd
      if (u.ctx i).waitDone then
        goOn (s.modTile x.t fun u => takeNotes (u.setCtx i { u.ctx i with waitDone := false }) x.w n)
      else if aside && !u.settled x.w then .error (.hold none)
      else if aside && u.pairOpen then .error .close
      else if v.pod = .bound i then
        (if aside then return (waitAside s x n, .gone) else .error (.hold none))
      else
        need (v.pod == .none) .illeg 0
        if v.count = 0 then goOn (s.modTile x.t fun u => takeNotes ((u.modTask x.w fun k => { k with ret := v.word }).foldRet i v.word) x.w n)
        else
          let s := s.modTile x.t fun u => u.setWake n { v with pod := .bound i }
          if aside then return (waitAside s x n, .gone)
          else return (s.modTile x.t fun u => { u with cyc := u.cyc + 1, held := true }, .gone)) s

def execWkset (f : Fields) (s : State) : Host.Outcome State Fault Refusal :=
  issue (.wkset f) formWkset f (fun x s => do
    let n := x.f.c.toNat
    let v := (s.tile x.t).wakeOf n
    need (v.pod == .none) .illeg 0
    goOn (emit (setCore s x fun u => u.setWake n { u.wakeOf n with count := field x.a 15 0 }) x 1 [] 0)) s

/-- WKDEC: a release, then the decrement travels to the core. -/
def execWkdec (f : Fields) (s : State) : Host.Outcome State Fault Refusal :=
  issue (.wkdec f) formWkdec f (fun x s => do
    let h ← coreOf s x.t x.a
    ackHold s x true false
    let s := addOut s x { tag := 0, who := x.w, kind := .request, slow := true }
    goOn (s.send (mkPacket x.t h x.seq orderedChan (.wkdec x.f.c.toNat x.b none true)))) s

/-- YIELD: to the tail of the ready list when another pod is ready (R284). -/
def execYield (f : Fields) (s : State) : Host.Outcome State Fault Refusal :=
  issue (.yield f) formYield f (fun x s =>
    let u := s.tile x.t
    if !(u.otherReady && !(u.task x.w).fwd) then goOn s
    else if !u.settled x.w then .error (.hold none)
    else if u.pairOpen then .error .close
    else
      let s := countRetired s x.t x.w (u.task x.w).mwo
      let s := s.modTile x.t fun u => (u.modTask x.w fun k => { k with pc := nextPc k.pc }).payIssue x.f.stall.toNat
      .ok (setAside s x.t .ready, .gone)) s

/-! ### Queue ports (spec/15 R286, R287) -/

/-- The port can be bound by this context; a rebinding acts as `.none` first. -/
def claimPort (s : State) (t : Nat) (w : Who) (n : Nat) : Except Stop State :=
  match (s.tile t).port n with
  | some p => if p.who = w then .ok (onMate (dropPort s t n) t w fun v => v.setPort n none) else trapAt .illeg 0
  | none => .ok s

def execQbindPop (f : Fields) (s : State) : Host.Outcome State Fault Refusal :=
  issue (.qbindPop f) formQbindPop f (fun x s => do
    let n := x.f.dest.toNat - 0x40
    need (((s.tile x.t).hqueue x.f.c.toNat).en) .illeg 0
    let s ← claimPort s x.t x.w n
    goOn (emit (setCoreFor s x fun w u => u.setPort n (some { who := w, kind := .pop x.f.c.toNat 0 })) x 1 [] 0)) s

/-- QBIND `.push`: a record of an earlier binding of the port that has not been accepted holds it as its own would (R288). -/
def execQbindPush (f : Fields) (s : State) : Host.Outcome State Fault Refusal :=
  issue (.qbindPush f) formQbindPush f (fun x s => do
    let n := x.f.dest.toNat - 0x40
    let h ← coreOf s x.t x.a
    let s ← claimPort s x.t x.w n
    let sent := (s.tile x.t).out.any fun o => o.port = some n
    goOn (emit (setCoreFor s x fun w u => u.setPort n (some { who := w, kind := .push h x.f.c.toNat [] sent })) x 1 [] 0)) s

def execQbindNone (f : Fields) (s : State) : Host.Outcome State Fault Refusal :=
  issue (.qbindNone f) formQbindNone f (fun x s => do
    let s ← claimPort s x.t x.w (x.f.dest.toNat - 0x40)
    goOn (emit s x 1 [] 0)) s

/-- HQCFG: the checks are made whether or not it enables the slot (R287). Records that the slot has taken for a window that has not
ended stay with it (spec/19 R352; log 18). PRIV is raised in either mode (DEDUCED, log 97). -/
def execHqcfg (f : Fields) (s : State) : Host.Outcome State Fault Refusal :=
  issue (.hqcfg f) formHqcfg f (fun x s => do
    let u := s.tile x.t
    let q := x.f.c.toNat
    let old := u.hqueue q
    let size := field x.a 31 28
    let base := 64 * field x.a 20 6
    let len := 64 * 32 * 2 ^ size
    need (old.slot.isEmpty && old.stored == 0) .illeg 0
    need (field x.a 63 32 == 0 && field x.a 27 21 == 0 && field x.a 5 1 == 0 && size ≤ 9) .illeg 0
    need (base + len ≤ 2 ^ 21) .align x.a
    need (!u.inCtx base len) .priv x.a
    goOn (emit (setCore s x fun u => u.setHq q { en := bit x.a 0, rsize := size, base := base, parked := (u.hqueue q).parked }) x 1 [] 0)) s

/-! ### Allowances (spec/15 R294) -/

/-- The destination that an address names, checked without an access. -/
def bindTarget (s : State) (x : In) : Except Stop Nat := do
  let a := x.a
  let r := regionOf a
  need (r == 0x00 || r == 0x01 || r == 0x02 || r == 0x03 || r == 0x10 || r == 0x20) .region a
  need (mustBeZero a) .region a
  need (r == 0x00 || r == 0x01) .region a
  match s.huskOf x.t with
  | none => trapAt .huskbnd a
  | some (_, h) =>
    if r == 0x00 then
      need (field a 26 21 < h.width && field a 32 27 < h.height) .huskbnd a
      return h.tileAt (field a 26 21) (field a 32 27)
    else
      need (field a 44 33 != s.chip) .region a
      return chipDst (field a 44 33)

/-- ALBIND: the address checks, the wait until every unit of the old binding has come back, then the destination's other bindings. -/
def execAlbind (f : Fields) (s : State) : Host.Outcome State Fault Refusal :=
  issue (.albind f) formAlbind f (fun x s => do
    let k := x.f.dest.toNat - 0x50
    let d ← bindTarget s x
    let u := s.tile x.t
    if u.allow k < 32 then .error (.hold none)
    need (!u.alBind.any fun e => e.1 != k && e.2 == some d) .illeg 0
    goOn (emit (setCore s x fun u => { u with alBind := Sparse.set none u.alBind k (some d) }) x 1 [] 0)) s

def execAlbindNone (f : Fields) (s : State) : Host.Outcome State Fault Refusal :=
  issue (.albindNone f) formAlbindNone f (fun x s => do
    let k := x.f.dest.toNat - 0x50
    let u := s.tile x.t
    if u.allow k < 32 then .error (.hold none)
    goOn (emit (setCore s x fun u => { u with alBind := Sparse.set none u.alBind k none }) x 1 [] 0)) s

/-! ### Masked windows (spec/15 R285) -/

def execMask1 (f : Fields) (s : State) : Host.Outcome State Fault Refusal :=
  issue (.mask1 f) formMask1 f (fun x s => do
    need (!((s.tile x.t).task x.w).mwo) .illeg 0
    goOn (s.modTile x.t fun u => u.modTask x.w fun k => { k with tstat := setField k.tstat 41 32 (2 ^ 9) })) s

def execUnmask1 (f : Fields) (s : State) : Host.Outcome State Fault Refusal :=
  issue (.unmask1 f) formUnmask1 f (fun x s =>
    goOn (s.modTile x.t fun u => u.modTask x.w fun k => { k with tstat := closeWindow k.tstat })) s

end Sys2Proof.Machine
end

