-- ==== Sys2Proof/Machine/Sched.lean ====
section
/-!
DEFINITION. The events of a core's scheduler: what arrives for it (messages, START, pods, queue records, decrements, grants),
starting and taking pods, level-1 entry, time slices, trap entry, register writes that come due (spec/15 R269 to R296,
spec/09 R144, R150 to R156, R399, spec/18 R335, R341, spec/10 R176).
-/

namespace Sys2Proof.Machine

open Sys2Proof

/-! ### Grants (spec/15 R292, R293) -/

/-- A grant goes out: to a core of the package, or to another package, for the request `al` of its core. -/
def sendGrant (s : State) (g : Grant) : State :=
  if g.dest < 2 ^ 20 then s.send (mkPacket g.home g.dest 0 none (.grant g.al g.units))
  else { s with egress := s.egress ++ [{ chip := (g.dest - 2 ^ 20) / 2 ^ 16, src := g.dest % 2 ^ 16, tag := g.al, path := 0, addr := 0
                                         op := none, units := g.units }] }

/-- A grant falls due: its units leave the count; over 128 units it is withheld. -/
def grantDue (s : State) (g : Grant) : State :=
  let s := s.modTile g.home fun u => { u with occ := u.occ - g.units }
  let u := s.tile g.home
  if 128 < u.occ then
    s.setTile g.home { u with
      withheld := u.withheld ++ [g], cong := min 255 (u.cong + 1)
      halvedAt := if u.cong = 0 then u.cyc / 4096 else u.halvedAt }
  else sendGrant s g

/-- Units enter the count of a destination. -/
def occupy (s : State) (t n : Nat) : State := s.modTile t fun u => { u with occ := u.occ + n }

/-- The grant of a message. -/
def Msg.grant (m : Msg) (home : Nat) : Grant := { dest := m.agent, al := m.al, units := m.units, home := home }

/-- Withheld grants go out in their order once the count is 128 units or less. -/
def execGrantWithheldRelease (s : State) : Host.Outcome State Fault Refusal :=
  let u := s.tile s.cur
  match u.withheld with
  | g :: r =>
    if u.occ ≤ 128 then .next (sendGrant (s.setTile s.cur { u with withheld := r }) g)
    else .refused .notPending
  | [] => .refused .notPending

def execAllowanceGrantArrival (s : State) : Host.Outcome State Fault Refusal :=
  match arrived s s.sel with
  | some p => (match p.body with
    | .grant k n => .next (wakeWaiting ((s.drop s.sel).modTile p.dst fun u => u.setAllow k (u.allow k + n)) p.dst)
    | _ => .refused .notPending)
  | none => .refused .notPending

/-- Every 4,096 cycles of the core its NI halves the congestion count (spec/16 R305). -/
def execCongestionHalving (s : State) : Host.Outcome State Fault Refusal :=
  let u := s.tile s.cur
  if u.cong ≠ 0 && u.halvedAt < u.cyc / 4096 then .next (s.setTile s.cur { u with cong := u.cong / 2, halvedAt := u.halvedAt + 1 })
  else .refused .notPending

/-! ### Messages (spec/15 R280, R281) -/

/-- The registers of a sprout. -/
def sproutTask (s : State) (t : Nat) (m : Msg) : Task :=
  { pc := m.handler, tstat := m.tstat, it := m.it, gid := m.gid
    lid := lidOf s t m.gid
    g := (((({} : Task).setG 1 (match s.huskOfTile t with
        | some (_, h) => BitVec.ofNat 64 ((tileY t - h.row0) * 2 ^ 27 + (tileX t - h.col0) * 2 ^ 21 + m.off)
        | none => 0)).setG 2 (BitVec.ofNat 64 (8 * m.words.length))).setG 3 (BitVec.ofNat 64 m.cid)).g }

/-- Write the words of a payload, each with its F/E bit full. -/
def putPayload (s : State) (t : Nat) : Nat → List Word → State
  | _, [] => s
  | off, w :: ws =>
    putPayload (((s.putSlice t off (bytesOf w.toNat 8)).setEmpty t off false).retestAt t off (off + 8)) t (off + 8) ws

/-- A payload that its destination refuses: its units go back, and it counts as an arrival that poisons its epoch (spec/04 R69). -/
def refuseMsg (s : State) (t : Nat) (m : Msg) (c : Cause) : State × Answer :=
  let a : Word := BitVec.ofNat 64 (s.cidOf t % 64 * 2 ^ 21 + s.cidOf t / 64 * 2 ^ 27 + m.off)
  ((grantDue s (m.grant t)).countArrival m.agent t m.path m.epoch (some (c, a)), .fault c)

/-- Deposit a message and queue its sprout; none where the pod pool has no record for it. A payload is refused in a STAMPED or BOOST
range whoever sent it (R280). A sprout carries g1 to g3. -/
def deposit (s : State) (t : Nat) (m : Msg) : Option (State × Answer) :=
  let u := s.tile t
  let len := 8 * m.words.length
  if u.touches (·.stamped) m.off len then some (refuseMsg s t m .stawr)
  else if u.touches (·.boost) m.off len then some (refuseMsg s t m .boostwr)
  else if 64 ≤ u.poolUsed then none
  else
    let s := (putPayload s t m.off m.words).countArrival m.agent t m.path m.epoch none
    let k := sproutTask s t m
    some (s.modTile t fun u =>
      if m.level = 1 then { u with l1q := u.l1q ++ [{ task := k, live := 0b1110, grant := some (m.grant t) }] }
      else { u with ready := u.ready ++
        [.free { task := k, live := 0b1110, checked := true, sprout := true, grant := some (m.grant t) }] }, .done)

/-- A message reaches its core. One of a DET window is parked there first (spec/19 R351); its send is then no longer waited
for (log 17). -/
def execMessageArrival (s : State) : Host.Outcome State Fault Refusal :=
  match arrived s s.sel with
  | some p =>
    match p.body with
    | .message m =>
      let t := p.dst
      let s1 := s.drop s.sel
      if (s.tile t).follows.isSome then .next (s.refuse s.sel 0)
      else if m.det && (s.cohortOf t).any (·.det) then
        if 32 ≤ (s.tile t).det.parked.length then .next (s.refuse s.sel 0)
        else
          let s2 := (occupy s1 t m.units).modTile t fun u => { u with det := { u.det with parked := u.det.parked ++ [m] } }
          .next (s2.send (mkPacket t p.src p.tag none (.reply .parked)))
      else
        (match deposit (occupy s1 t m.units) t m with
        | none => .next (s.refuse s.sel 0)
        | some (s2, a) => .next (s2.send (mkPacket t p.src p.tag none (.reply a))))
    | _ => .refused .notPending
  | none => .refused .notPending

/-! ### START, SPAWN, PARK (spec/09 R144, R156, R399, spec/15 R282, R283) -/

/-- The lid of an initial task (spec/09 R149, R151). -/
def initialLid (h : Husk) (c : Cohort) (t : Nat) : BitVec 32 :=
  let cx := tileX t - h.col0 - c.x
  let cy := tileY t - h.row0 - c.y
  BitVec.ofNat 32 ((if c.fwd then 2 ^ 19 else 0) + c.gwl * 2 ^ 16 + cx % 2 ^ c.gwl * 2 ^ 12 + cy * 64 + cx)

/-- START of a placed group: buffered lines are discarded, and the initial task takes an image or waits for one at the head of
the ready list. What a gang's member has been sent forwarded is kept: R144 does not say. A START that its core refuses has not arrived,
and discards nothing until its retry is taken in (DESIGN CHOICE, log 85). -/
def execStartArrival (s : State) : Host.Outcome State Fault Refusal :=
  match arrived s s.sel with
  | some p =>
    match p.body with
    | .start id =>
      let t := p.dst
      let s1 := (s.drop s.sel).modTile t Tile.dropBuffered
      if (s.tile t).follows.isSome then .next (s.refuse s.sel 0)
      else (match s1.cohorts.find? fun c => c.id = id with
      | none => .next s1
      | some c =>
        match s1.husk c.tenant with
        | none => .next s1
        | some h =>
          let sup : Word := if supOf s1 t then BitVec.ofNat 64 (2 ^ 47) else 0
          let k : Task :=
            { pc := c.entry, tstat := c.tstat ||| sup, gid := BitVec.ofNat 32 c.gid, lid := initialLid h c t
              g := (({} : Task).setG 1 c.arg).g }
          let s2 := { s1 with cohorts := s1.cohorts.map fun (d : Cohort) =>
            if d.id = id then { d with toStart := d.toStart.filter (· != t), running := d.running ++ [t] } else d }
          .next (s2.modTile t fun u =>
            match u.freeImage with
            | some i => { u.setCtx i { task := k, st := .ready, check := true } with ready := u.ready ++ [Ready.bound i] }
            | none => { u with ready := Ready.free { task := k, checked := true, initial := true } :: u.ready }))
    | _ => .refused .notPending
  | none => .refused .notPending

/-- A spawned pod reaches its core; from another core it comes as START, which a refusal for want of a pod record puts off as a whole
(spec/08 R144, spec/15 R269; DESIGN CHOICE, log 85). -/
def execSpawnPodArrival (s : State) : Host.Outcome State Fault Refusal :=
  match arrived s s.sel with
  | some p =>
    match p.body with
    | .spawn pod wk =>
      let t := p.dst
      let u := s.tile t
      if u.follows.isSome || 64 ≤ u.poolUsed then .next (s.refuse s.sel 0)
      else
        let s1 := s.drop s.sel
        let s1 := if p.src = t then s1 else s1.modTile t Tile.dropBuffered
        let pod := { pod with started := p.src != t }
        let reply (s : State) (a : Answer) : State := s.send (mkPacket t p.src p.tag none (.reply a))
        (match wk with
        | none => .next (reply (s1.modTile t fun u => { u with ready := u.ready ++ [.free pod] }) .done)
        | some n =>
          if (u.wakeOf n).pod != .none then .next (reply s1 (.fault .illeg))
          else .next (reply (s1.modTile t fun u => attach u n (.free pod)) .done))
    | _ => .refused .notPending
  | none => .refused .notPending

/-- The continuation of a PARK reaches its core. -/
def execParkContinuationArrival (s : State) : Host.Outcome State Fault Refusal :=
  match arrived s s.sel with
  | some p =>
    match p.body with
    | .park pod n =>
      let t := p.dst
      let u := s.tile t
      let s1 := s.drop s.sel
      let reply (s : State) (a : Answer) : State := s.send (mkPacket t p.src p.tag none (.reply a))
      if (u.wakeOf n).pod != .none then .next (reply s1 (.fault .illeg))
      else if 64 ≤ u.poolUsed then .next (s.refuse s.sel 0)
      else .next (reply (s1.modTile t fun u => attach u n (.free pod)) .done)
    | _ => .refused .notPending
  | none => .refused .notPending

/-- A decrement reaches its counter (spec/15 R277). -/
def execWakeCounterDecrement (s : State) : Host.Outcome State Fault Refusal :=
  match arrived s s.sel with
  | some p =>
    match p.body with
    | .wkdec n v note ans =>
      let s1 := (s.drop s.sel).modTile p.dst fun u => decrement u n v note
      .next (if ans then s1.send (mkPacket p.dst p.src p.tag none (.reply .done)) else s1)
    | _ => .refused .notPending
  | none => .refused .notPending

/-! ### Hardware queues (spec/15 R287 to R290) -/

/-- A record reaches its slot. Under DET it is collected until its window ends (spec/19 R352). -/
def execQueueRecordArrival (s : State) : Host.Outcome State Fault Refusal :=
  match arrived s s.sel with
  | some p =>
    match p.body with
    | .record slot _ ws index =>
      let t := p.dst
      let q := (s.tile t).hqueue slot
      let s1 := s.drop s.sel
      let reply (s : State) (a : Answer) : State := s.send (mkPacket t p.src p.tag none (.reply a))
      if !q.en then .next (reply s1 (.fault .window))
      else match index with
        | some (i, w) =>
          if 32 + q.ringSize ≤ q.slot.length + q.stored + q.extra.length + q.parked.length then .next (s.refuse s.sel 0)
          else .next (reply (s1.modTile t fun u => u.setHq slot { q with parked := q.parked ++ [(i, w, ws)] }) .done)
        | none =>
          if !q.extra.isEmpty then .next (s.refuse s.sel 0)
          else match placeRec s1 t slot ws with
          | some s2 => .next (reply (wakeWaiting s2 t) .done)
          | none => .next (s.refuse s.sel 0)
    | _ => .refused .notPending
  | none => .refused .notPending

/-- The eighth word is staged: the record leaves, as the operation of the instruction that wrote it, which has made the release wait as it
issued (R288). -/
def execQueuePortPush (port : Nat) (s : State) : Host.Outcome State Fault Refusal :=
  let t := s.cur
  let u := s.tile t
  match u.port port with
  | some p =>
    match p.kind with
    | .push core slot st false =>
      if st.length < 8 then .refused .notPending
      else
        let tag := u.seq
        let index := (detTag s t core).map fun e => (e.1, e.2.1)
        let s := s.setTile t { u.setPort port (some { p with kind := .push core slot [] true }) with
          seq := u.seq + 1
          out := u.out ++ [{ tag := tag, who := p.who, kind := .request, late := true, slow := true, port := some port
                             pc := p.pc, px := p.px }] }
        .next (s.send (mkPacket t core tag orderedChan (.record slot port st index)))
    | _ => .refused .notPending
  | none => .refused .notPending

/-- A read of a pop port by the running stream (R289); an instruction makes it as it reads its operands. -/
def execQueuePortPop (port : Nat) (s : State) : Host.Outcome State Fault Refusal :=
  let t := s.cur
  match (s.tile t).active with
  | none => .refused .notPending
  | some w =>
    match popPort s t w port with
    | .ok (s', _) => .next s'
    | .error e => settle s t w ((s.tile t).task w).pc e

/-- The length of a slice: at least 4,096; a task takes it as it is switched in (spec/18 R340, R341, R349). -/
def Tile.sliceLen (u : Tile) : Nat := max 4096 u.slice

/-! ### Starting and taking pods (spec/15 R269, R273) -/

/-- The core can start a level-0 task: none runs, no handler and no level-1 task. -/
def Tile.idle (u : Tile) : Bool := u.cur0.isNone && u.hnd.isNone && u.l1.isNone && u.follows.isNone

/-- A core without a task starts the pod at the head; one that was set aside inside a line goes on inside it. -/
def execPodStart (s : State) : Host.Outcome State Fault Refusal :=
  let t := s.cur
  let u := s.tile t
  if !u.idle then .refused .notPending
  else match u.startable with
    | none => .refused .notPending
    | some (n, e) =>
      let u := { u with
        ready := u.ready.eraseIdx n, used := 0, lim := u.sliceLen, line := none, pairNext := false, atLine := true, held := false }
      match e with
      | .bound i =>
        let c := u.ctx i
        .next (recheck (s.setTile t { u.setCtx i { c with st := .running, check := false } with
          cur0 := some i, checkTo := c.check, atLine := !(c.task.mid && c.task.pc.toNat % 8 ≠ 0) }) t)
      | .free p =>
        match u.freeImage with
        | none => .refused .notPending
        | some i =>
          let k := if p.initial then p.task else { p.task with lid := lidOf s t p.task.gid, g := liveRegs p.task p.live }
          let s := recheck (s.setTile t { u.setCtx i { task := k, st := .running } with cur0 := some i, checkTo := p.checked }) t
          .next (match p.grant with
            | some g => grantDue s g
            | none => s)

/-- The pod that a core gives up: the ready free pod of the group nearest the tail, never the head, never an initial task. -/
def givenPod (u : Tile) (gid : Nat) : Option (Nat × Pod) :=
  (List.range u.readyList.length).foldl (fun acc i =>
    match u.ready.drop i with
    | Ready.free p :: _ => if i ≠ 0 && p.task.gid.toNat = gid && !p.initial then some (i, p) else acc
    | _ => acc) none

/-- The core runs a forwarded gang's stream. -/
def Tile.runsGang (u : Tile) : Bool := u.cur0.any fun i => (u.ctx i).task.fwd

/-- A core of a cohort without a running level-0 task takes a ready free pod of another (R273), and with one that a SPAWN of another core
had brought there discards its buffered lines, since the started task fetches new (spec/08 R144; DESIGN CHOICE, log 85). A core whose gang
is set aside may give up a sprout that waits for the gang's DONE: R154 and R273 do not say (DESIGN CHOICE, log 105). -/
def execPodTake (s : State) : Host.Outcome State Fault Refusal :=
  let t := s.cur
  let u := s.tile t
  match s.cohortOf t with
  | none => .refused .notPending
  | some c =>
    if c.det || u.cur0.isSome || u.follows.isSome || !u.ready.isEmpty || u.freeImage.isNone || u.pairing.isSome || 64 ≤ u.poolUsed
    then .refused .notPending
    else
      let ms := s.membersOf c
      let i := s.indexIn c t
      let order := (List.range (ms.length - 1)).map fun j => ms.getD ((i + 1 + j) % ms.length) t
      match order.findSome? fun m =>
        let v := s.tile m
        if v.pairing.isSome || v.follows.isSome || v.runsGang then none else (givenPod v c.gid).map fun e => (m, e) with
      | none => .refused .notPending
      | some (m, n, p) =>
        .next ((s.modTile m fun v => { v with ready := v.ready.eraseIdx n }).modTile t fun u =>
          let u := if p.started then u.dropBuffered else u
          { u with ready := u.ready ++ [.free p] })

/-! ### Levels, slices, traps -/

/-- No status of the stream's line is outstanding (spec/06 R102). -/
def Tile.noStatus (u : Tile) (w : Who) : Bool := !(u.out.any fun o => o.who = w && o.status)

/-- A ready level-1 task may enter: at a line boundary or where the level-0 task is held, outside a masked window
(spec/09 R150); while an undo runs, only its own tasks (spec/17 R320). -/
def Tile.level1Ready (u : Tile) : Bool :=
  u.l1q.head?.any (fun x => x.undo || u.undo.isNone) && u.l1.isNone && u.hnd.isNone && u.follows.isNone && match u.cur0 with
    | none => true
    | some i => !(u.ctx i).task.mwo && (u.atLine || u.halted) && u.noStatus (.img i)

def execLevel1Entry (s : State) : Host.Outcome State Fault Refusal :=
  let t := s.cur
  let u := s.tile t
  if !u.level1Ready || (u.pairing.any fun p => p.closing) then .refused .notPending
  else if u.pairing.any fun p => p.count != 0 then .next (s.setTile t u.wantClose)
  else match u.l1q with
    | [] => .refused .notPending
    | x :: r =>
      let u := u.flush.payPair
      let u := match u.cur0 with
        | some i => u.setCtx i { u.ctx i with check := u.checkTo, task := { (u.ctx i).task with mid := !u.atLine } }
        | none => u
      let live := if x.undo then x.task.g else liveRegs x.task x.live
      let s := s.setTile t { u with
        l1 := some { x with task := { x.task with g := live } }, l1q := r
        line := none, pairNext := false, atLine := true, checkTo := x.checked, held := false
        undo := if x.undo then u.undo.map fun y => { y with active := true } else u.undo }
      let s := recheck s t
      .next (match x.grant with
        | some g => grantDue s g
        | none => s)

/-- The members of the forwarded gang whose leader is tile t. -/
def gangOf (s : State) (t : Nat) : List Nat :=
  match (s.tile t).cur0 with
  | some i =>
    let k := ((s.tile t).ctx i).task
    if k.fwd then (List.range (2 ^ field k.lid 18 16)).map fun j => t - field k.lid 15 12 + j else [t]
  | none => [t]

/-- The task of image i waits in place at a WAIT that has named it to its counter (spec/15 R272). -/
def Tile.attached (u : Tile) (i : Nat) : Bool := u.wake.any fun e => e.2.pod == .bound i

/-- The slice of the running level-0 task has been reached and another pod is ready, for a gang on one of its cores (spec/18 R341,
spec/09 R154, R158). A task that waits in place at a WAIT goes to its counter instead, and one whose PARK awaits its answer goes with
that (spec/15 R283). -/
def sliceDue (s : State) (t : Nat) : Bool :=
  let u := s.tile t
  match u.active with
  | some (.img i) => u.lim ≤ u.used && !(u.ctx i).task.mwo && !u.attached i && !(u.out.any fun o => o.who = .img i && o.park)
    && (gangOf s t).any fun m => (s.tile m).otherReady
  | _ => false

/-- The leader goes on in the line that it forwarded last and has not left, at whatever slot a trap or a restart has put it. -/
def Tile.resumes (u : Tile) (pc : Word) : Bool :=
  match u.fwd.reverse with
  | x :: _ => !x.closed && x.no = pc.toNat / 8
  | [] => false

/-- The stream leads a forwarded gang and stands in a line that its followers have. -/
def Tile.leads (u : Tile) (w : Who) : Bool := (u.task w).fwd && !(u.following w) && u.resumes (u.task w).pc

/-- The follower at `pc` has run every line that it has been sent; what a handler's return has taken it past counts as run (spec/18 R347).
-/
def Tile.ranOut (u : Tile) (pc : Word) : Bool :=
  match u.fwd.dropWhile (·.left) with
  | [] => true
  | [x] => x.no != pc.toNat / 8
  | _ => false

/-- The tile runs its member of the gang of group `gid` at a line boundary that is every member's: the leader has not forwarded the line
that it comes to, the followers have run all that they have been sent, and nothing issued under PX can still fault. -/
def gangAtLine (s : State) (gid : BitVec 32) (leader m : Nat) : Bool :=
  let u := s.tile m
  match u.active with
  | some (.img i) =>
    let k := (u.ctx i).task
    k.fwd && k.gid = gid && u.atLine && !u.pairNext && u.settled (.img i) && !u.pxHolds (.img i)
      && (if m = leader then !u.resumes k.pc else u.ranOut k.pc)
  | _ => false

/-- Time-slice pre-emption at a line boundary; a forwarded gang is set aside whole at one common line (spec/09 R154). -/
def execTimeSliceExpiry (s : State) : Host.Outcome State Fault Refusal :=
  let t := s.cur
  let u := s.tile t
  match u.active with
  | some (.img i) =>
    let k := (u.ctx i).task
    if !sliceDue s t || !u.atLine || u.pairNext || !u.settled (.img i) then .refused .notPending
    else if u.pairOpen then .next (s.setTile t u.wantClose)
    else if k.fwd then
      if field k.lid 15 12 = 0 && (gangOf s t).all (gangAtLine s k.gid t) then
        .next ((gangOf s t).foldl (fun s m => setAside s m .ready) s)
      else .refused .notPending
    else .next (setAside s t .ready)
  | _ => .refused .notPending

/-- The pending fault of the running stream that is taken at an instruction boundary (spec/04 R66, spec/10 R179). -/
def Tile.boundaryLate (u : Tile) (w : Who) : Option Late :=
  let k := u.task w
  lateHere k (k.late.filter fun l => l.at_ = .boundary || k.ownOf l || (l.at_ = .lineEnd && u.atLine)) u.atLine 0 [] false false

/-- A pending fault or note is entered at the instruction boundary, under PX once nothing issued before can still fault (spec/18 R335,
spec/04 R67). -/
def execTrapEntry (s : State) : Host.Outcome State Fault Refusal :=
  let t := s.cur
  let u := s.tile t
  match u.active with
  | none => .refused .notPending
  | some w =>
    if u.pairNext || u.pxHolds w then .refused .notPending
    else match u.boundaryLate w with
      | some l => .next (takeLate s t w l)
      | none => .refused .notPending

/-! ### Register writes -/

/-- A write of tstat takes RM, PX and SCHK alone (spec/18 R338). -/
def execTstatWrite (v : Word) (s : State) : Host.Outcome State Fault Refusal :=
  match (s.tile s.cur).active with
  | some w => .next (s.modTile s.cur fun u => u.modTask w fun k => writeTask k 0x6E v)
  | none => .refused .notPending

/-- What the stream has issued can still raise a flag or write `sticky` after a latency that is not fixed (spec/11 R188). -/
def Tile.flagsOpen (u : Tile) (w : Who) : Bool :=
  (u.divider.any fun j => j.who = w) || (u.reduction.any fun j => j.who = w) || u.matrixBusy w

/-- A write of sticky replaces its eight flags, after every earlier instruction that raises one (spec/11 R188). -/
def execStickyWrite (v : Word) (s : State) : Host.Outcome State Fault Refusal :=
  match (s.tile s.cur).active with
  | some w =>
    if ((s.tile s.cur).pend.any fun p => p.flags ≠ 0) || (s.tile s.cur).flagsOpen w then .refused .notPending
    else .next (s.modTile s.cur fun u => u.modTask w fun k => writeTask k 0x6F v)
  | none => .refused .notPending

/-- The first result that is due becomes readable (spec/10 R176). -/
def Tile.duePend (u : Tile) : Option Pend := u.pend.find? fun p => p.due ≤ u.cyc

def execFixedLatencyResultWrite (s : State) : Host.Outcome State Fault Refusal :=
  let u := s.tile s.cur
  match u.active, u.duePend with
  | some w, some p => .next (s.setTile s.cur ({ u with pend := eraseFirst (· == p) u.pend }.commit w p))
  | _, _ => .refused .notPending

end Sys2Proof.Machine
end

