-- ==== Sys2Proof/Machine/Sweep.lean ====
section
/-!
DEFINITION. The group scheduler: acceptance of launches, slots and their rotation, release, placement and retirement of
groups, cohort barriers (spec/16 R297 to R307, R310, R311).
-/

namespace Sys2Proof.Machine

open Sys2Proof

/-! ### Records and status words -/

/-- A number of a launch record. -/
def recField (s : State) (t off o n : Nat) : Nat := getNat s (sliceKey t (off + o)) n

/-- The scheduler writes a word of a record, its F/E bit unchanged (DEDUCED, log 99). -/
def writeRec (s : State) (t off : Nat) (v : Word) : State := s.putSlice t off (bytesOf v.toNat 8)

/-- The slot that a queue is mapped to. -/
def slotOf (s : State) (n q : Nat) : Option Nat :=
  s.slots.findSome? fun e => match e.2 with
    | some x => if x.tenant = n && x.queue = q && !x.draining then some e.1 else none
    | none => none

/-- The launches of a queue. -/
def Husk.queue (h : Husk) (q : Nat) : List Launch := Sparse.get [] h.queues q
def Husk.setQueue (h : Husk) (q : Nat) (ls : List Launch) : Husk := { h with queues := Sparse.set [] h.queues q ls }

/-- Groups of a launch. -/
def Launch.total (l : Launch) : Nat := l.gx * l.gy * l.gz

/-- The status of a live launch (spec/16 Table 6), RUNNING from its first placement on (DEDUCED, log 99). -/
def liveStatus (s : State) (n q : Nat) (l : Launch) : Word :=
  BitVec.ofNat 64 ((if l.runningN ≠ 0 || l.retired ≠ 0 then 2 else 1) * 2 ^ 60
    + (match slotOf s n q with
      | some k => 2 ^ 55 + k * 2 ^ 48
      | none => 0)
    + l.runningN % 2 ^ 12 * 2 ^ 32 + l.retired % 2 ^ 21)

/-- The scheduler updates a launch's record: STATUS and SERIAL (spec/16 R297). -/
def updateRec (s : State) (l : Launch) (status : Word) : State :=
  writeRec (writeRec s l.tile (l.off + 0x40) status) l.tile (l.off + 0x48) (BitVec.ofNat 64 l.serial)

/-- The scheduler updates the record of every launch of a queue. -/
def refresh (s : State) (n q : Nat) : State :=
  match s.husk n with
  | some h => (h.queue q).foldl (fun s l => updateRec s l (liveStatus s n q l)) s
  | none => s

/-- The scheduler updates the records of every launch of a husk. -/
def refreshAll (s : State) (n : Nat) : State := (List.range 16).foldl (fun s q => refresh s n q) s

/-! ### Release (spec/16 R299) -/

/-- The scoreboard bit of group i as it stands. -/
def Launch.bitSet (l : Launch) (s : State) (i : Nat) : Bool :=
  (getByte s (sliceKey l.tile (l.off + 0x80 + i / 8))).getLsbD (i % 8)

def Launch.xOf (l : Launch) (i : Nat) : Nat := i % l.gx
def Launch.yOf (l : Launch) (i : Nat) : Nat := i / l.gx % l.gy
def Launch.zOf (l : Launch) (i : Nat) : Nat := i / (l.gx * l.gy)

/-- The index of a group inside the grid. -/
def Launch.indexOf (l : Launch) (x y z : Int) : Option Nat :=
  if 0 ≤ x && x < l.gx && 0 ≤ y && y < l.gy && 0 ≤ z && z < l.gz
  then some (x.toNat + l.gx * (y.toNat + l.gy * z.toNat)) else none

/-- Every predecessor of group i inside the grid has retired, or its bit has been stored (DEDUCED, log 98). -/
def Launch.depsMet (l : Launch) (s : State) (i : Nat) : Bool :=
  l.deps.all fun d => match l.indexOf (l.xOf i + d.1) (l.yOf i + d.2.1) (l.zOf i + d.2.2) with
    | some j => l.bitSet s j
    | none => true

/-- Release those of `is` whose predecessors have all retired. -/
def Launch.evaluate (l : Launch) (s : State) (is : List Nat) : Launch :=
  { l with released := l.released ++ is.filter fun i => !l.released.contains i && l.depsMet s i }

/-- Change the head launch of a queue. -/
def modHead (s : State) (n q : Nat) (g : Launch → Launch) : State :=
  s.modHusk n fun h => match h.queue q with
    | l :: r => h.setQueue q (g l :: r)
    | [] => h

/-- The head launch of a queue. -/
def headOf (s : State) (n q : Nat) : Option Launch :=
  match s.husk n with
  | some h => (h.queue q).head?
  | none => none

/-- The scoreboard words that the evaluation of groups reads. -/
def Launch.reads (l : Launch) (is : List Nat) : List Nat :=
  ((is.map fun i => l.deps.filterMap fun d =>
    (l.indexOf (l.xOf i + d.1) (l.yOf i + d.2.1) (l.zOf i + d.2.2)).map fun j => l.off + 0x80 + j / 64 * 8).flatten).eraseDups

/-- The scheduler evaluates groups of a queue's head launch (R299). The words that it reads are corrected, and one that cannot be read
kills the husk (spec/03 R39). -/
def evalHead (s : State) (n q : Nat) (which : Launch → List Nat) : State :=
  match headOf s n q with
  | none => s
  | some l =>
    let is := (which l).filter fun i => !l.released.contains i
    let ws := l.reads is
    if ws.any (s.unreadable l.tile) then eccuKill s l.tile
    else modHead (ws.foldl (fun s k => s.correct l.tile k 1) s) n q fun l => l.evaluate s is

/-- Every unreleased group is evaluated. -/
def evalAll (s : State) (n q : Nat) : State := evalHead s n q fun l => List.range l.total

/-- The released and unplaced group that comes first in the order of (x, y, z). -/
def Launch.nextGroup (l : Launch) : Option Nat :=
  (l.released.filter fun i => !l.started.contains i).foldl (fun acc i => match acc with
    | none => some i
    | some j =>
      if l.xOf i < l.xOf j || (l.xOf i = l.xOf j && (l.yOf i < l.yOf j || (l.yOf i = l.yOf j && l.zOf i < l.zOf j)))
      then some i else some j) none

/-! ### Acceptance (spec/16 R310) -/

/-- A dependence vector of four bytes. -/
def depOf (w : Nat) : Int × Int × Int := (sgn 5 (w % 32), sgn 5 (w / 256 % 32), sgn 5 (w / 65536 % 32))

/-- The vector is lexicographically negative (spec/16 R298). -/
def depLegal (d : Int × Int × Int) : Bool :=
  d.1 < 0 || (d.1 = 0 && (d.2.1 < 0 || (d.2.1 = 0 && d.2.2 < 0)))

/-- The bytes of a record with n groups: header and scoreboard. -/
def recLen (n : Nat) : Nat := 128 + if 1 ≤ n && n ≤ 2 ^ 20 then (n + 511) / 512 * 64 else 0

/-- The header is malformed: BADREC. -/
def badRecord (s : State) (h : Husk) (t off : Nat) : Bool :=
  let g (o n : Nat) : Nat := recField s t off o n
  let entry : Word := BitVec.ofNat 64 (g 0 8)
  let n := g 0x10 4 * g 0x14 4 * g 0x18 4
  let shape := g 0x1C 4
  let ndep := g 0x25 1
  let deps := (List.range 4).map fun i => g (0x28 + 4 * i) 4
  let notify : Word := BitVec.ofNat 64 (g 0x38 8)
  let len := recLen n
  !pcOk entry || n = 0 || 2 ^ 20 < n || shape / 65536 != 0 || 4 < shape / 4096 % 8 || g 0x20 4 / 64 != 0
    || g 0x24 1 < 10 || 20 < g 0x24 1 || 4 < ndep || 15 < g 0x26 1 || g 0x27 1 != 0
    || deps.any (fun d => d / 32 % 8 != 0 || d / 8192 % 8 != 0 || d / 2 ^ 21 != 0
        || d % 32 = 16 || d / 256 % 32 = 16 || d / 65536 % 32 = 16)
    || (deps.drop ndep).any (· != 0)
    || field notify 62 20 != 0
    || (bit notify 63 && (h.width ≤ field notify 5 0 || h.height ≤ field notify 11 6))
    || (List.range 5).any (fun i => g (0x58 + 8 * i) 8 != 0)
    || (s.tile t).touches (fun a => a.stamped || a.boost) off len

/-- The launch that a record describes. -/
def readLaunch (s : State) (t off serial : Nat) : Launch :=
  let g (o n : Nat) : Nat := recField s t off o n
  let shape := g 0x1C 4
  { tile := t, off := off, serial := serial, entry := BitVec.ofNat 64 (g 0 8), arg := BitVec.ofNat 64 (g 8 8)
    gx := g 0x10 4, gy := g 0x14 4, gz := g 0x18 4, w := shape % 64 + 1, h := shape / 64 % 64 + 1
    gwl := shape / 4096 % 8, fwd := shape / 32768 % 2 = 1, flags := g 0x20 4, qlog := g 0x24 1
    deps := (List.range (g 0x25 1)).map fun i => depOf (g (0x28 + 4 * i) 4)
    notify := BitVec.ofNat 64 (g 0x38 8), tag := BitVec.ofNat 64 (g 0x50 8) }

/-- The shape does not fit the husk: GANGFIT (spec/16 R305, spec/09 R151). -/
def gangFit (h : Husk) (l : Launch) : Bool := l.w ≤ h.width && l.h ≤ h.height && l.w % 2 ^ l.gwl = 0

/-- The next serial: 1 to 65,535, wrapping past 0. -/
def nextSerial (n : Nat) : Nat := if 65535 ≤ n then 1 else n + 1

/-- Clear the scoreboard of an accepted launch. -/
def clearBoard (s : State) (l : Launch) : State :=
  (List.range ((recLen l.total - 128) / 8)).foldl (fun s i => writeRec s l.tile (l.off + 0x80 + 8 * i) 0) s

/-- The handle of a record (spec/16 Table 5). -/
def handleOf (rec : Word) (serial : Nat) : Word := BitVec.ofNat 64 (serial * 2 ^ 48 + field rec 32 6 * 64)

/-- The scheduler judges a record: none where its queue is full and the launch waits; else its handle. -/
def acceptLaunch (s : State) (n : Nat) (t off : Nat) (rec : Word) : Option (State × Word) :=
  match s.husk n with
  | none => some (s, handleOf rec 0)
  | some h =>
    let st := recField s t off 0x40 8 / 2 ^ 60
    if st = 1 || st = 2 then some (s, handleOf rec 0)
    else
      let serial := nextSerial h.serial
      let l := readLaunch s t off serial
      let q := recField s t off 0x26 1
      let reason : Nat := if badRecord s h t off then 1 else if l.deps.any (!depLegal ·) then 2 else if !gangFit h l then 3 else 0
      if reason = 0 && 64 ≤ (h.queue q).length then none
      else
        let s := writeRec s t (off + 0x48) (BitVec.ofNat 64 serial)
        if reason ≠ 0 then
          let w := statusWord 4 reason 0
          some ((writeRec s t (off + 0x40) w).setHusk n (some ({ h with serial := serial }.keep serial w)), handleOf rec serial)
        else
          let s := clearBoard s l
          let s := s.setHusk n (some ({ h with serial := serial }.setQueue q (h.queue q ++ [l])))
          some (refresh s n q, handleOf rec serial)

/-- A LAUNCH reaches the scheduler (spec/16 R303, R310). -/
def execLaunchAcceptance (s : State) : Host.Outcome State Fault Refusal :=
  match arrived s s.sel with
  | some p =>
    match p.body with
    | .launch t off _ =>
      (match s.huskOfTile t with
      | none => .next (s.drop s.sel)
      | some (n, h) =>
        let ra : Word := BitVec.ofNat 64 ((tileY t - h.row0) * 2 ^ 27 + (tileX t - h.col0) * 2 ^ 21 + off)
        if s.consumesBad t off 128 then .next (eccuKill (s.drop s.sel) t)
        else match acceptLaunch ((s.drop s.sel).correct t off 16) n t off ra with
          | none => .next (s.refuse s.sel 0)
          | some (s', v) => .next (s'.send (mkPacket schedDst p.src p.tag none (.reply (.data [v] 0)))))
    | _ => .refused .notPending
  | none => .refused .notPending

/-! ### Slots (spec/16 R304) -/

/-- The queue has work and its husk runs. -/
def hasWork (h : Husk) (q : Nat) : Bool := h.st == .running && !(h.queue q).isEmpty

/-- The unmapped queues with work, in the order of the pairs. -/
def unmapped (s : State) : List (Nat × Nat) :=
  (s.husks.map fun e => match e.2 with
    | some h => ((List.range 16).filter fun q => hasWork h q && (slotOf s e.1 q).isNone).map fun q => (e.1, q)
    | none => []).flatten

/-- The next unmapped queue after the one mapped last. -/
def nextUnmapped (s : State) : Option (Nat × Nat) :=
  let us := unmapped s
  match s.lastMapped with
  | none => us.head?
  | some (n, q) =>
    match us.find? fun e => n < e.1 || (n = e.1 && q < e.2) with
    | some e => some e
    | none => us.head?

/-- The free slots. -/
def freeSlots (s : State) : List Nat := (List.range 64).filter fun k => (Sparse.get none s.slots k).isNone

/-- A free slot is mapped to the next queue; which of several free slots is left to a choice (log 20). -/
def execSlotMapping (s : State) : Host.Outcome State Fault Refusal :=
  match nextUnmapped s, freeSlots s with
  | some (n, q), k0 :: ks =>
    let (c, s) := if ks.isEmpty then (0, s) else s.choose
    let k := (k0 :: ks).getD (c % (ks.length + 1)) k0
    let s := { s with
      slots := Sparse.set none s.slots k (some { tenant := n, queue := q })
      lastMapped := some (n, q) }
    .next (refresh (evalAll s n q) n q)
  | _, _ => .refused .notPending

/-- A free slot and an unmapped queue with work are there: the mapping comes before the next placement and the next rotation, so that
rotations bring every such queue to a slot (R304; DEDUCED, log 20). -/
def canMap (s : State) : Bool := (nextUnmapped s).isSome && !(freeSlots s).isEmpty

/-- Free a draining slot whose groups have all retired. -/
def freeDrained (s : State) (k : Nat) : State :=
  match Sparse.get none s.slots k with
  | some x => if x.draining && !(s.cohorts.any fun (c : Cohort) => c.slot = k && c.tenant = x.tenant && c.queue = x.queue)
      then { s with slots := Sparse.set none s.slots k none } else s
  | none => s

/-- The mapped slot that follows another one, wrapping after slot 63. -/
def mappedAfter (s : State) (k : Nat) : Option Nat :=
  ((List.range 64).map fun j => (k + 1 + j) % 64).find? fun j => match Sparse.get none s.slots j with
    | some x => !x.draining
    | none => false

/-- A rotation is due: it comes before the next placement. -/
def rotationDue (s : State) : Bool := s.rotations < s.placements / 4096

/-- After every 4,096 placements a slot is set draining if some queue with work is unmapped. -/
def execSlotRotation (s : State) : Host.Outcome State Fault Refusal :=
  if !rotationDue s || canMap s then .refused .notPending
  else
    let s := { s with rotations := s.rotations + 1 }
    if (unmapped s).isEmpty then .next s
    else match mappedAfter s s.lastDrained with
      | none => .next s
      | some k =>
        match Sparse.get none s.slots k with
        | none => .next s
        | some x =>
          let s := { s with slots := Sparse.set none s.slots k (some { x with draining := true }), lastDrained := k }
          .next (freeDrained (refresh s x.tenant x.queue) k)

/-! ### Placement (spec/16 R305, spec/09 R151, R155, R156) -/

/-- The core lies in no placed cohort. -/
def coreFree (s : State) (t : Nat) : Bool := (s.cohortOf t).isNone

/-- The cores of a rectangle of the husk. -/
def rectOf (h : Husk) (x y w ht : Nat) : List Nat := (List.range (w * ht)).map fun i => h.tileAt (x + i % w) (y + i / w)

/-- The free rectangles of a launch's shape with their congestion, in order of row and column. -/
def rectangles (s : State) (h : Husk) (l : Launch) : List (Nat × Nat × Nat) :=
  ((List.range (h.height + 1 - l.h)).map fun y =>
    (List.range (h.width + 1 - l.w)).filterMap fun x =>
      let ts := rectOf h x y l.w l.h
      if x % 2 ^ l.gwl = 0 && ts.all (coreFree s) then some (x, y, (ts.map fun t => (s.tile t).cong).sum) else none).flatten

/-- The rectangle with the least congestion, the first of several. -/
def bestRect (rs : List (Nat × Nat × Nat)) : Option (Nat × Nat) :=
  (rs.foldl (fun (acc : Option (Nat × Nat × Nat)) r => match acc with
    | none => some r
    | some b => if r.2.2 < b.2.2 then some r else some b) none).map fun r => (r.1, r.2.1)

/-- The tstat of initial tasks, SUP apart (spec/09 R156). -/
def launchStat (flags : Nat) : Word :=
  BitVec.ofNat 64 (flags / 16 % 4 + flags / 2 % 2 * 4 + flags / 4 % 2 * 8 + flags % 2 * 2 ^ 45 + flags / 8 % 2 * 2 ^ 44)

/-- What a mapped slot could place now. -/
def placeable (s : State) (k : Nat) : Option (Nat × Nat × Launch × Nat × Nat × Nat) :=
  match Sparse.get none s.slots k with
  | some x =>
    if x.draining then none
    else match headOf s x.tenant x.queue, s.husk x.tenant with
      | some l, some h =>
        if h.st != .running then none
        else match l.nextGroup, bestRect (rectangles s h l) with
          | some i, some (cx, cy) => some (x.tenant, x.queue, l, i, cx, cy)
          | _, _ => none
      | _, _ => none
  | none => none

/-- The slot whose turn it is; one whose group finds no rectangle is passed over (log 20). -/
def slotTurn (s : State) : Option Nat :=
  ((List.range 64).map fun j => (s.lastPlaced + 1 + j) % 64).find? fun k => (placeable s k).isSome

def execGroupPlacement (s : State) : Host.Outcome State Fault Refusal :=
  match slotTurn s with
  | none => .refused .notPending
  | some k =>
    if rotationDue s || canMap s then .refused .notPending
    else match placeable s k with
    | none => .refused .notPending
    | some (n, q, l, i, cx, cy) =>
      match s.husk n with
      | none => .refused .notPending
      | some h =>
        let ts := rectOf h cx cy l.w l.h
        let id := s.nextId
        let c : Cohort :=
          { id := id, tenant := n, slot := k, queue := q, index := i, x := cx, y := cy, w := l.w, h := l.h, gwl := l.gwl
            fwd := l.fwd, det := l.flags % 2 = 1, boost := l.flags / 8 % 2 = 1, qlog := l.qlog, tag := l.tag
            entry := l.entry, arg := l.arg, tstat := launchStat l.flags, toStart := ts }
        let s := { s with
          nextId := id + 1, cohorts := s.cohorts ++ [c], placements := s.placements + 1, lastPlaced := k }
        let s := modHead s n q fun l => { l with started := l.started ++ [i], runningN := l.runningN + 1 }
        let s := ts.foldl (fun s t => (s.modTile t fun u => { u with phase := 0, det := {} }).send
          (mkPacket schedDst t 0 orderedChan (.start id))) s
        .next (refresh s n q)

/-! ### Retirement (spec/09 R157, spec/05 R81, spec/16 R300, R301) -/

/-- Nothing of the group is left on its cores, what a delivery window has collected among it. -/
def groupDone (s : State) (c : Cohort) : Bool :=
  let ms := s.membersOf c
  c.toStart.isEmpty
    && ms.all (fun t => !groupTaskOn s t c.gid && (s.tile t).det.parked.isEmpty && (s.tile t).hq.all fun e => e.2.parked.isEmpty)
    && !(s.net.any fun p => ms.contains p.dst && (match p.body with
      | .message m => m.det
      | _ => false))

/-- A task of a retired group that is left elsewhere belongs to no group. -/
def Task.ungroup (k : Task) (gid : Nat) : Task := if k.gid.toNat = gid then { k with gid := noGroup, lid := 0 } else k
def Pod.ungroup (p : Pod) (gid : Nat) : Pod := { p with task := p.task.ungroup gid }
def Msg.ungroup (m : Msg) (gid : Nat) : Msg := if m.gid.toNat = gid then { m with gid := noGroup } else m
def Tile.ungroup (u : Tile) (gid : Nat) : Tile :=
  { u with
    images := u.images.map fun e => (e.1, { e.2 with task := e.2.task.ungroup gid })
    det := { u.det with parked := u.det.parked.map (·.ungroup gid) }
    l1 := u.l1.map fun x => { x with task := x.task.ungroup gid }
    l1q := u.l1q.map fun x => { x with task := x.task.ungroup gid }
    hnd := u.hnd.map fun x => { x with task := x.task.ungroup gid }
    out := u.out.map fun o => { o with snap := o.snap.map fun y => { y with task := y.task.ungroup gid } }
    pairing := u.pairing.map fun p => { p with check := p.check.ungroup gid }
    ready := u.ready.map fun e => match e with
      | .free p => .free (p.ungroup gid)
      | .bound i => .bound i
    wake := u.wake.map fun e => (e.1, { e.2 with pod := match e.2.pod with
      | .free p => .free (p.ungroup gid)
      | x => x }) }

/-- The messages and pods of a retired group in flight. -/
def Body.ungroup (b : Body) (gid : Nat) : Body :=
  match b with
  | .message m => .message (m.ungroup gid)
  | .spawn p k => .spawn (p.ungroup gid) k
  | .park p k => .park (p.ungroup gid) k
  | x => x

/-- The tiles on which tasks of the group lose it: those of its husk that belong to no other cohort of the same gid (a restored cohort
keeps the slot number that it was placed from, R306). -/
def ungroupTiles (s : State) (h : Husk) (c : Cohort) : List Nat :=
  h.tiles.filter fun t => !((s.cohortOf t).any fun d => d.id != c.id && d.tenant = c.tenant && d.gid = c.gid)

/-- The group is gone: no task, message or pod of its husk belongs to it any more. -/
def ungroupAll (s : State) (h : Husk) (c : Cohort) : State :=
  let ts := ungroupTiles s h c
  { s with
    cohorts := s.cohorts.filter fun (d : Cohort) => d.id != c.id
    tiles := s.tiles.map fun e => (e.1, if ts.contains e.1 then e.2.ungroup c.gid else e.2)
    net := s.net.map fun (p : Packet) => if ts.contains p.dst then { p with body := p.body.ungroup c.gid } else p }

/-- The stop notices of the cohort's cores. -/
def retireStops (s : State) (h : Husk) (c : Cohort) : State :=
  (c.members h).foldl (fun s m =>
    let w := (tileY m - h.row0) * 64 + (tileX m - h.col0)
    h.tiles.foldl (fun s t => stopLines s t fun _ e => e.writer = w) s) s

/-- A launch is finished: STATUS, the kept status, NOTIFY, the next launch of its queue or a free slot. -/
def finishLaunch (s : State) (n q : Nat) : State :=
  match s.husk n with
  | none => s
  | some h =>
    match h.queue q with
    | [] => s
    | l :: r =>
      let w := statusWord 3 0 l.retired
      let s := updateRec s l w
      let s := s.setHusk n (some ((h.setQueue q r).keep l.serial w))
      let ra : Word := BitVec.ofNat 64 ((tileY l.tile - h.row0) * 2 ^ 27 + (tileX l.tile - h.col0) * 2 ^ 21 + l.off)
      let s := if bit l.notify 63 then
          s.send (mkPacket schedDst (h.tileAt (field l.notify 5 0) (field l.notify 11 6)) 0 none
            (.wkdec (field l.notify 19 12) (handleOf ra l.serial) none false))
        else s
      match slotOf s n q with
      | none => s
      | some k =>
        if r.isEmpty then { s with slots := Sparse.set none s.slots k none }
        else refresh (evalAll s n q) n q

/-- A group retires; `sel` is its cohort. -/
def execGroupRetirement (s : State) : Host.Outcome State Fault Refusal :=
  match s.cohorts.find? fun (c : Cohort) => c.id = s.sel with
  | none => .refused .notPending
  | some c =>
    match s.husk c.tenant with
    | none => .refused .notPending
    | some h =>
      if !groupDone s c || h.st != .running then .refused .notPending
      else
        let s := ungroupAll (retireStops s h c) h c
        match headOf s c.tenant c.queue with
        | none => .next (freeDrained s c.slot)
        | some l =>
          let k := l.off + 0x80 + c.index / 8
          if s.consumesBad l.tile k 1 then .next (eccuKill s l.tile)
          else
          let old := (getByte s (sliceKey l.tile k)).toNat
          let s := (s.correct l.tile (k / 8 * 8) 1).putSlice l.tile k [BitVec.ofNat 8 (Nat.lor old (2 ^ (c.index % 8)))]
          let succ := l.deps.filterMap fun d =>
            l.indexOf (l.xOf c.index - d.1) (l.yOf c.index - d.2.1) (l.zOf c.index - d.2.2)
          let s := evalHead (modHead s c.tenant c.queue fun l => { l with retired := l.retired + 1, runningN := l.runningN - 1 })
            c.tenant c.queue fun _ => succ
          let s := if l.retired + 1 = l.total then finishLaunch s c.tenant c.queue else refresh s c.tenant c.queue
          .next (freeDrained s c.slot)

/-! ### The cohort barrier (spec/16 R307) -/

/-- The phase of a cohort is over: what waits for it can go on. -/
def completePhase (s : State) (c : Cohort) : State :=
  (s.membersOf c).foldl wakeWaiting { s with
    cohorts := s.cohorts.map fun (d : Cohort) => if d.id = c.id then { d with phase := d.phase + 1 } else d }

/-- The phase of a cohort completes when every core has arrived in it; `sel` is the cohort. -/
def execBarrierPhaseComplete (s : State) : Host.Outcome State Fault Refusal :=
  match s.cohorts.find? fun (c : Cohort) => c.id = s.sel with
  | none => .refused .notPending
  | some c =>
    let ms := s.membersOf c
    if !ms.isEmpty && ms.all fun t => c.phase < (s.tile t).phase then .next (completePhase s c)
    else .refused .notPending

end Sys2Proof.Machine
end

