-- ==== Sys2Proof/Machine/Groups.lean ====
section
/-!
DEFINITION. The group instructions LAUNCH, LSTAT, BARA, BARW, QUANT, and the quanta and delivery windows of DET
(spec/16 R307 to R313, spec/19 R351, R352).
-/

namespace Sys2Proof.Machine

open Sys2Proof

/-! ### LAUNCH, LSTAT (spec/16 R310, R311) -/

/-- Groups of the record's header, 0 where a size is 0 or the product too large. -/
def recGroups (s : State) (t off : Nat) : Nat :=
  let n := recField s t off 0x10 4 * recField s t off 0x14 4 * recField s t off 0x18 4
  if n ≤ 2 ^ 20 then n else 0

def execLaunch (f : Fields) (s : State) : Host.Outcome State Fault Refusal :=
  issue (.launch f) formLaunch f (fun x s => do
    match ← checkAddr s x.t .localOnly x.a (x.a.toNat % 64 == 0 && x.a.toNat % 2 ^ 21 + 128 ≤ 2 ^ 21) with
    | .sram t off =>
      if s.consumesBad t (off + 0x10) 12 then .ok (eccuKill s t, .gone)
      else
        let s := s.correct t ((off + 0x10) / 8 * 8) 2
        let len := recLen (recGroups s t off)
        need (off + len ≤ 2 ^ 21) .align x.a
        need (((s.tile x.t).task x.w).sup || !(s.tile t).inCtx off len) .priv x.a
        ackHold s x true true
        let s := addOut s x { tag := 0, who := x.w, kind := .other, dst := .word x.f.dest.toNat, slow := true }
        goOn (s.send (mkPacket x.t schedDst x.seq none (.launch t off 0)))
    | _ => trapAt .region x.a) s

/-- The place of the record that a handle names: none where it names none of the husk, or no launch, or a place in a context
area for a task in tenant mode (spec/03 R44; log 86). -/
def recPlace (s : State) (x : In) : Option (Nat × Nat) :=
  match s.huskOf x.t with
  | none => none
  | some (_, hk) =>
    let col := field x.a 26 21
    let row := field x.a 32 27
    let off := field x.a 20 6 * 64
    let t := hk.tileAt col row
    if field x.a 63 48 ≠ 0 && col < hk.width && row < hk.height && off + 128 ≤ 2 ^ 21
      && (((s.tile x.t).task x.w).sup || !(s.tile t).inCtx off 128) then some (t, off) else none

/-- The status word that a handle asks for, whose record stands at `r` (spec/16 R311). -/
def statusOf (s : State) (t : Nat) (h : Word) (r : Option (Nat × Nat)) : Word :=
  let serial := field h 63 48
  if serial = 0 then statusWord 4 4 0
  else match r.filter fun e => recField s e.1 e.2 0x48 8 % 65536 = serial with
    | some e => BitVec.ofNat 64 (recField s e.1 e.2 0x40 8)
    | none => match (s.huskOf t).bind fun e => e.2.kept.find? fun e => e.1 = serial with
      | some e => e.2
      | none => statusWord 6 0 0

/-- LSTAT; a word that reports DONE acts as an acquire, and a word of the record that cannot be read kills the husk (spec/03
R39). -/
def execLstat (f : Fields) (s : State) : Host.Outcome State Fault Refusal :=
  issue (.lstat f) formLaunch f (fun x s => do
    need (field x.a 47 33 == 0 && field x.a 5 0 == 0) .illeg 0
    let r := recPlace s x
    if r.any fun e => s.consumesBad e.1 (e.2 + 0x40) 16 then return (eccuKill s x.t, .gone)
    let s := match r with
      | some e => s.correct e.1 (e.2 + 0x40) 2
      | none => s
    let v := statusOf s x.t x.a r
    let s := addOut s x { tag := 0, who := x.w, kind := .other, dst := .word x.f.dest.toNat, slow := true
                          acquire := field v 63 60 == 3 }
    goOn (s.send (mkPacket schedDst x.t x.seq none (.reply (.data [v] 0))))) s

/-! ### The cohort barrier (spec/16 R307, R312, spec/08 R143) -/

/-- The cohort of the issuing core, if the task is one of its group. -/
def groupCohort (s : State) (x : In) : Except Stop Cohort :=
  match s.cohortOf x.t with
  | some c => if ((s.tile x.t).task x.w).gid.toNat = c.gid then .ok c else trapAt .illeg 0
  | none => trapAt .illeg 0

/-- The arrival of a core; in a cohort of one core the phase completes with it (R307). -/
def arrive (s : State) (t n : Nat) (c : Cohort) : State :=
  let s := s.modTile t fun u => { u with phase := n + 1 }
  if (s.membersOf c).length = 1 then completePhase s c else s

/-- BARA: a release, then one arrival per phase. -/
def execBara (f : Fields) (s : State) : Host.Outcome State Fault Refusal :=
  issue (.bara f) formBara f (fun x s => do
    let c ← groupCohort s x
    ackHold s x true false
    let n := (s.tile x.t).phase
    if c.phase < n then .error (.hold (some (.phase n)))
    goOn (emit (arrive s x.t n c) x 1 [] 0)) s

/-- What the task waits for at this BARW or QUANT `.w`, if it has begun to. -/
def In.waitNo (x : In) (s : State) : Option Nat :=
  ((((s.tile x.t).task x.w).waitNo).filter fun e => e.1 = x.pc).map (·.2)

/-- BARW waits for the phase of the core's latest arrival when it first issued. -/
def execBarw (f : Fields) (s : State) : Host.Outcome State Fault Refusal :=
  issue (.barw f) formBarw f (fun x s => do
    let c ← groupCohort s x
    let n := (x.waitNo s).getD (s.tile x.t).phase
    if c.phase < n then .error (.hold (some (.phase n)))
    goOn s) s

/-! ### Quanta and windows (spec/16 R308, R313, spec/19 R351, R352) -/

/-- The next quantum marker goes to every member, each with the count of messages tagged for it; the count restarts, and what an exact
fault may still take back of it is what is counted from here on (spec/06 R102). -/
def sendMarkers (s : State) (t : Nat) (c : Cohort) : State :=
  let d := (s.tile t).det
  let i := s.indexIn c t
  let s := (s.membersOf c).foldl (fun s m =>
    s.send (mkPacket t m 0 orderedChan (.marker c.id d.sent (Sparse.get 0 d.inWindow m) i))) s
  s.modTile t fun u => { u with
    det := { u.det with count := 0, sent := d.sent + 1, inWindow := [] }
    out := u.out.map fun o => { o with snap := o.snap.map fun y => { y with count := 0 } } }

/-- The DET cohort that a task's QUANT concerns: none for a group without DET, a task of no group, a finished core. -/
def quantCohort (s : State) (x : In) : Option Cohort :=
  match s.cohortOf x.t with
  | some c => if c.det && ((s.tile x.t).task x.w).gid.toNat = c.gid && !(s.tile x.t).det.finished then some c else none
  | none => none

def execQuant (f : Fields) (s : State) : Host.Outcome State Fault Refusal :=
  issue (.quant f) (formQuant 0) f (fun x s =>
    goOn (emit (match quantCohort s x with
      | some c => sendMarkers s x.t c
      | none => s) x 1 [] 0)) s

/-- QUANT.w: the marker goes out once, then the task waits until this member has handled the window. -/
def execQuantW (f : Fields) (s : State) : Host.Outcome State Fault Refusal :=
  issue (.quantW f) (formQuant 1) f (fun x s =>
    match x.waitNo s with
    | some n => if n < (s.tile x.t).det.handled then goOn (emit s x 1 [] 0) else .error (.hold (some (.window n)))
    | none =>
      match quantCohort s x with
      | none => goOn (emit s x 1 [] 0)
      | some c =>
        let n := (s.tile x.t).det.sent
        .ok ((sendMarkers s x.t c).modTile x.t fun u =>
          { u.modTask x.w fun k => { k with waitNo := some (x.pc, n) } with cyc := u.cyc + 1, held := true }, .gone)) s

/-- A status of the group's task, or what may still fault under PX, can take back instructions that the quantum has counted (spec/06
R102). -/
def countOpen (u : Tile) : Bool := u.out.any fun o => o.snap.isSome && (o.status || (o.px && o.canFail)) && match o.who with
  | .img _ => true
  | _ => false

/-- The retired count of a DET core has reached the quantum: its marker goes out before it issues again, once what is counted stands. -/
def quantumDue (s : State) (t : Nat) : Option Cohort :=
  (s.cohortOf t).filter fun c => c.det && !(s.tile t).det.finished && 2 ^ c.qlog ≤ (s.tile t).det.count

def execQuantumCountExpiry (s : State) : Host.Outcome State Fault Refusal :=
  match quantumDue s s.cur with
  | some c => if countOpen (s.tile s.cur) then .refused .notPending else .next (sendMarkers s s.cur c)
  | none => .refused .notPending

/-- A marker of a cohort that is no longer the tile's comes too late to count. -/
def execQuantumMarkerArrival (s : State) : Host.Outcome State Fault Refusal :=
  match arrived s s.sel with
  | some p => (match p.body with
    | .marker id n count i =>
      if (s.cohortOf p.dst).any fun c => c.id = id then
        .next ((s.drop s.sel).modTile p.dst fun u => { u with det := { u.det with marks := u.det.marks ++ [(n, i, count)] } })
      else .next (s.drop s.sel)
    | _ => .refused .notPending)
  | none => .refused .notPending

/-- Marker n of member m (index i) has arrived at tile t, and with it its count; a finished core counts as having sent every
later marker. -/
def markerCount (s : State) (t m i n : Nat) : Option Nat :=
  match (s.tile t).det.marks.find? fun e => e.1 = n && e.2.1 = i with
  | some e => some e.2.2
  | none =>
    let d := (s.tile m).det
    if d.finished && d.sent ≤ n then some (if d.sent = n then Sparse.get 0 d.inWindow t else 0) else none

/-- Something is there to be handled: a marker of this window or of a later one, a message or a record. -/
def windowReal (u : Tile) (n : Nat) : Bool :=
  u.det.marks.any (fun e => n ≤ e.1) || !u.det.parked.isEmpty || u.hq.any fun e => !e.2.parked.isEmpty

/-- Every marker of window n and every message that they count has arrived. -/
def windowOver (s : State) (t n : Nat) (c : Cohort) : Bool :=
  let ms := s.membersOf c
  windowReal (s.tile t) n && (List.range ms.length).all fun i =>
    match markerCount s t (ms.getD i t) i n with
    | some k => k ≤ ((s.tile t).det.parked.filter fun m => m.window = n && m.index = i).length
    | none => false

/-- Insert a message in the order of sender and sequence. -/
def insertMsg (m : Msg) : List Msg → List Msg
  | [] => [m]
  | x :: r => if m.index < x.index || (m.index = x.index && m.seqno < x.seqno) then m :: x :: r else x :: insertMsg m r

/-- Insert a record in the order of its pusher; records of one pusher stay in their order. -/
def insertRec (e : Nat × Nat × List Word) : List (Nat × Nat × List Word) → List (Nat × Nat × List Word)
  | [] => [e]
  | x :: r => if e.1 < x.1 then e :: x :: r else x :: insertRec e r

/-- The records of a slot that its window has collected are placed; what finds no room yet follows as room appears. -/
def placeWindow (s : State) (t n slot : Nat) : State :=
  let q := (s.tile t).hqueue slot
  let es := (q.parked.filter fun e => e.2.1 ≤ n).foldl (fun l e => insertRec e l) []
  let s := s.modTile t fun u => u.setHq slot { q with parked := q.parked.filter fun e => n < e.2.1 }
  drainExtra s t slot (q.extra ++ es.map (·.2.2))

/-- A message of the window is handled: deposited, its sender answered. -/
def handleMsg (s : State) (t : Nat) (m : Msg) : State :=
  match deposit s t m with
  | some (s', a) => s'.send (mkPacket t m.agent m.tag none (.reply a))
  | none => s

/-- The window ends at a member (spec/19 R352); it waits for room in the pod pool. -/
def execDeliveryWindowEnd (s : State) : Host.Outcome State Fault Refusal :=
  let t := s.cur
  match s.cohortOf t with
  | none => .refused .notPending
  | some c =>
    let u := s.tile t
    let n := u.det.handled
    let ms := (u.det.parked.filter fun m => m.window ≤ n).foldl (fun l m => insertMsg m l) []
    if !c.det || !windowOver s t n c || 64 < u.poolUsed + ms.length then .refused .notPending
    else
      let s := s.setTile t { u with
        det := { u.det with handled := n + 1, parked := u.det.parked.filter (fun m => n < m.window)
                            marks := u.det.marks.filter fun e => n < e.1 } }
      let s := (u.hq.map (·.1)).foldl (fun s k => placeWindow s t n k) s
      .next (wakeWaiting (ms.foldl (fun s m => handleMsg s t m) s) t)

end Sys2Proof.Machine
end

