-- ==== Sys2Proof/Machine/Trans.lean ====
section
/-!
DEFINITION. The functions of spec/13 R233: 1/x, 1/√x, 2^x, log2 x, tanh x, each the exact value rounded to nearest even.
The first two are exact integer computations. The others are computed in fixed point with a scale of 2^200 and an error
below `slack`; the rounding of the value less the slack and of the value plus the slack must agree, or the result is a
free value (log 12).
-/

namespace Sys2Proof.Machine

open Sys2Proof

/-- One in fixed point. -/
def fxOne : Nat := 2 ^ 200
/-- A bound on the fixed-point error of `fxExp`, `fxLn` and what follows. -/
def slack : Nat := 2 ^ 20

/-- Σ z^(2j+1)/(2j+1) from term j on, with `n` terms left; `p` is z^(2j+1). -/
def atanhSum (z2 : Nat) : Nat → Nat → Nat → Nat
  | 0, _, _ => 0
  | n + 1, p, j => p / (2 * j + 1) + atanhSum z2 n (p * z2 / fxOne) (j + 1)

/-- artanh z for 0 ≤ z ≤ 1/3. -/
def fxAtanh (z : Nat) : Nat := atanhSum (z * z / fxOne) 70 z 0

/-- ln 2 = 2 artanh (1/3). -/
def fxLn2 : Nat := 2 * fxAtanh (fxOne / 3)

/-- Σ y^j/j! from term j on; `p` is the term before. -/
def expSum (y : Nat) : Nat → Nat → Nat → Nat
  | 0, _, _ => 0
  | n + 1, p, j => p + expSum y n (p * y / fxOne / j) (j + 1)

/-- e^y for 0 ≤ y < 1. -/
def fxExp (y : Nat) : Nat := expSum y 60 fxOne 1

/-- Round a positive fixed-point value of unknown last digits, scaled by 2^k: both ends must agree. -/
def roundBoth (f : Fmt) (neg : Bool) (v : Nat) (k : Int) (key : Nat) : FR :=
  let lo := fround f rmRNE neg (2 * (v - slack) + 1) (k - 201)
  let hi := fround f rmRNE neg (2 * (v + slack) + 1) (k - 201)
  if lo = hi then lo else ((Config.freeWord (key + 2 ^ 64)).toNat % 2 ^ f.width, flNX)

/-- 1/x. -/
def vrcpV (f : Fmt) (x : Nat) : FR :=
  match fval f x with
  | .nan s => f.nanOf s
  | .inf a => (f.sign a, 0)
  | .fin a m e =>
    if m = 0 then (f.infBits a, flDZ)
    else
      let (q, e) := quotient (f.f + 1) 1 0 m e
      fround f rmRNE a q e

/-- 1/√x. -/
def vrsqV (f : Fmt) (x : Nat) : FR :=
  match fval f x with
  | .nan s => f.nanOf s
  | .inf a => if a then f.invalid else (0, 0)
  | .fin a m e =>
    if m = 0 then (f.infBits a, flDZ)
    else if a then f.invalid
    else
      let odd : Bool := e % 2 != 0
      let m := if odd then 2 * m else m
      let e := if odd then e - 1 else e
      let k := f.f + 4 + Nat.log2 m
      let r := isqrt (2 ^ (2 * k) / m)
      fround f rmRNE false (2 * r + (if r * r * m = 2 ^ (2 * k) then 0 else 1)) (-(k : Int) - e / 2 - 1)

/-- 2^x. -/
def vexp2V (f : Fmt) (x : Nat) : FR :=
  match fval f x with
  | .nan s => f.nanOf s
  | .inf a => if a then (0, 0) else (f.infBits false, 0)
  | .fin a m e =>
    if m = 0 then fround f rmRNE false 1 0
    else if 10 ≤ e + (Nat.log2 m : Int) then (if a then fround f rmRNE false 3 (-2000) else fround f rmRNE false 1 2000)
    else
      let v : Int := if a then -((m * 2 ^ (200 + e).toNat : Nat) : Int) else (m * 2 ^ (200 + e).toNat : Nat)
      let k := v / (fxOne : Int)
      let r := (v % (fxOne : Int)).toNat
      if r = 0 then fround f rmRNE false 1 k
      else roundBoth f false (fxExp (r * fxLn2 / fxOne)) k x

/-- log2 x. -/
def vlog2V (f : Fmt) (x : Nat) : FR :=
  match fval f x with
  | .nan s => f.nanOf s
  | .inf a => if a then f.invalid else (f.infBits false, 0)
  | .fin a m e =>
    if m = 0 then (f.infBits true, flDZ)
    else if a then f.invalid
    else
      let n := Nat.log2 m
      let k : Int := e + n
      let y := m * 2 ^ (200 - n)
      if m = 2 ^ n then froundInt f rmRNE false k 0
      else
        let g := 2 * fxAtanh ((y - fxOne) * fxOne / (y + fxOne)) * fxOne / fxLn2
        let v : Int := k * (fxOne : Int) + g
        roundBoth f (v < 0) v.natAbs 0 x

/-- tanh x. -/
def vtanhV (f : Fmt) (x : Nat) : FR :=
  match fval f x with
  | .nan s => f.nanOf s
  | .inf a => fround f rmRNE a 1 0
  | .fin a m e =>
    let top : Int := e + (Nat.log2 m : Int)
    if m = 0 then (f.sign a, 0)
    else if top < -13 then fround f rmRNE a (m * 2 ^ 60 - 1) (e - 60)
    else if 6 ≤ top then fround f rmRNE a (2 ^ 100 - 1) (-100)
    else
      let y := m * 2 ^ (201 + e).toNat
      let n := y / fxLn2 + 1
      let q := fxExp (n * fxLn2 - y) / 2 ^ n
      roundBoth f a ((fxOne - q) * fxOne / (fxOne + q)) 0 x

end Sys2Proof.Machine
end

