-- ==== Sys2Proof/Machine/Block.lean ====
section
/-!
DEFINITION. The block, conversion and random instructions (spec/13).
-/

namespace Sys2Proof.Machine

open Sys2Proof

/-! ### Element operations (spec/13 R225, R226) -/

/-- An element operation by type: an integer formula, or a floating operation on patterns. -/
def elem2 (ty : Ty) (gi : Nat → Nat → Nat → Nat) (gf : Fmt → Nat → Nat → FR) (a b : Nat) : FR :=
  if ty.float then gf (fmtOf ty) a b else (gi ty.bits a b, 0)

/-- The smaller or the larger of two elements (spec/13 Table 2). -/
def elemMinMax (isMax : Bool) (ty : Ty) (a b : Nat) : FR :=
  elem2 ty (fun n a b =>
    let le : Bool := if ty.signed then sgn n a ≤ sgn n b else a ≤ b
    if le = isMax then b else a) (fun m => fminmax m isMax) a b

/-- Addition of elements. -/
def elemAdd (rm : Nat) (ty : Ty) (a b : Nat) : FR :=
  elem2 ty (fun n a b => (a + b) % 2 ^ n) (fun m a b => faddV m rm (fval m a) (fval m b)) a b

/-- A two-source block instruction element by element. -/
def block2 (l beats : Nat) (g : In → Nat → Nat → FR) (x : In) (s : State) : Body.Out :=
  let a := x.f.a.toNat
  let b := x.f.b.toNat
  goOn (blockMap s x beats l [a, b] fun k =>
    map2 x.f.ty.bits (g x) (blockWord s x a beats k) (blockWord s x b beats k))

/-- A one-source block instruction element by element. -/
def block1 (l beats : Nat) (g : In → Nat → FR) (x : In) (s : State) : Body.Out :=
  let a := x.f.a.toNat
  goOn (blockMap s x beats l [a] fun k => map1 x.f.ty.bits (g x) (blockWord s x a beats k))

/-- A three-source block instruction element by element. -/
def block3 (l beats : Nat) (g : In → Nat → Nat → Nat → FR) (x : In) (s : State) : Body.Out :=
  let a := x.f.a.toNat
  let b := x.f.b.toNat
  let c := x.f.fourth
  goOn (blockMap s x beats l [a, b, c] fun k =>
    map3 x.f.ty.bits (g x) (blockWord s x a beats k) (blockWord s x b beats k) (blockWord s x c beats k))

/-- A block instruction on whole registers. -/
def blockW2 (g : Word → Word → Word) (x : In) (s : State) : Body.Out :=
  let a := x.f.a.toNat
  let b := x.f.b.toNat
  let bt := beats4 x.f
  goOn (blockMap s x bt 1 [a, b] fun k => (g (blockWord s x a bt k) (blockWord s x b bt k), 0))

def blockW1 (g : Word → Word) (x : In) (s : State) : Body.Out :=
  let a := x.f.a.toNat
  let bt := beats4 x.f
  goOn (blockMap s x bt 1 [a] fun k => (g (blockWord s x a bt k), 0))

/-- Latency and beats of the classes V1 and V4 by type (spec/10 Table 8). -/
def arithLat (f : Fields) : Nat := if f.ty.float then 4 else 1
def arithBeats (f : Fields) : Nat := if f.ty.float then beatsV4 f else beats4 f

def execVadd (f : Fields) (s : State) : Host.Outcome State Fault Refusal :=
  issue (.vadd f) (formVarith f) f (block2 (arithLat f) (arithBeats f) fun x => elemAdd x.rm x.f.ty) s
def execVsub (f : Fields) (s : State) : Host.Outcome State Fault Refusal :=
  issue (.vsub f) (formVarith f) f (block2 (arithLat f) (arithBeats f) fun x =>
    elem2 x.f.ty (fun n a b => (a + (2 ^ n - b)) % 2 ^ n) (fun m a b => faddV m x.rm (fval m a) (fval m b).flip)) s
def execVmul (f : Fields) (s : State) : Host.Outcome State Fault Refusal :=
  issue (.vmul f) formVmul f (block2 4 (beatsV4 f) fun x =>
    elem2 x.f.ty (fun n a b => a * b % 2 ^ n) (fun m a b => fmulV m x.rm (fval m a) (fval m b))) s
def execVfma (f : Fields) (s : State) : Host.Outcome State Fault Refusal :=
  issue (.vfma f) formVfma f (block3 4 (beatsV4 f) fun x a b c =>
    elem2 x.f.ty (fun n a b => (a * b + c) % 2 ^ n) (fun m a b => ffmaV m x.rm (fval m a) (fval m b) (fval m c)) a b) s
def execVfms (f : Fields) (s : State) : Host.Outcome State Fault Refusal :=
  issue (.vfms f) formVfma f (block3 4 (beatsV4 f) fun x a b c =>
    elem2 x.f.ty (fun n a b => (a * b + (2 ^ n - c)) % 2 ^ n)
      (fun m a b => ffmaV m x.rm (fval m a) (fval m b) (fval m c).flip) a b) s
def execVmin (f : Fields) (s : State) : Host.Outcome State Fault Refusal :=
  issue (.vmin f) (formVarith f) f (block2 (arithLat f) (arithBeats f) fun x => elemMinMax false x.f.ty) s
def execVmax (f : Fields) (s : State) : Host.Outcome State Fault Refusal :=
  issue (.vmax f) (formVarith f) f (block2 (arithLat f) (arithBeats f) fun x => elemMinMax true x.f.ty) s
def execVabs (f : Fields) (s : State) : Host.Outcome State Fault Refusal :=
  issue (.vabs f) (formVarith2 f) f (block1 (arithLat f) (arithBeats f) fun x a =>
    if x.f.ty.float then fsignOp (fmtOf x.f.ty) false a
    else (if x.f.ty.signed then wrap x.f.ty.bits (sgn x.f.ty.bits a).natAbs else a, 0)) s
def execVneg (f : Fields) (s : State) : Host.Outcome State Fault Refusal :=
  issue (.vneg f) (formVarith2 f) f (block1 (arithLat f) (arithBeats f) fun x a =>
    if x.f.ty.float then fsignOp (fmtOf x.f.ty) true a else ((2 ^ x.f.ty.bits - a) % 2 ^ x.f.ty.bits, 0)) s

def execVand (f : Fields) (s : State) : Host.Outcome State Fault Refusal :=
  issue (.vand f) formVlog f (blockW2 (· &&& ·)) s
def execVor (f : Fields) (s : State) : Host.Outcome State Fault Refusal :=
  issue (.vor f) formVlog f (blockW2 (· ||| ·)) s
def execVxor (f : Fields) (s : State) : Host.Outcome State Fault Refusal :=
  issue (.vxor f) formVlog f (blockW2 (· ^^^ ·)) s
def execVnot (f : Fields) (s : State) : Host.Outcome State Fault Refusal :=
  issue (.vnot f) formVmov f (blockW1 (~~~ ·)) s

/-- A block shift: by block (minor 0) or by imm20[5:0]. -/
def blockShift (g : Nat → Nat → Nat → Nat) (x : In) (s : State) : Body.Out :=
  if x.f.minor = 1 then block1 1 (beats4 x.f) (fun x a => (g x.f.ty.bits a (x.f.imm20 % 64), 0)) x s
  else block2 1 (beats4 x.f) (fun x a b => (g x.f.ty.bits a (b % x.f.ty.bits), 0)) x s

def execVshl (f : Fields) (s : State) : Host.Outcome State Fault Refusal :=
  issue (.vshl f) (formVshift f) f (blockShift fun n a k => a * 2 ^ k % 2 ^ n) s
def execVshr (f : Fields) (s : State) : Host.Outcome State Fault Refusal :=
  issue (.vshr f) (formVshift f) f (blockShift fun _ a k => a / 2 ^ k) s
def execVsar (f : Fields) (s : State) : Host.Outcome State Fault Refusal :=
  issue (.vsar f) (formVshift f) f (blockShift sarN) s

/-! ### Compare, select, moves (spec/13 R227, R228) -/

/-- One element of VCMP. -/
def vcmpElem (x : In) (a b : Nat) : FR :=
  let n := x.f.ty.bits
  let m := fmtOf x.f.ty
  let r : Bool × Nat := if x.f.ty.float then fcond (x.f.minor.toNat % 4) (fval m a) (fval m b) else (intCond x a b, 0)
  (if xor r.1 (x.f.minor.getLsbD 2) then 2 ^ n - 1 else 0, r.2)

def execVcmp (f : Fields) (s : State) : Host.Outcome State Fault Refusal :=
  issue (.vcmp f) formVcmp f (block2 1 (beats4 f) vcmpElem) s
def execVsel (f : Fields) (s : State) : Host.Outcome State Fault Refusal :=
  issue (.vsel f) formVsel f (fun x s =>
    let a := x.f.a.toNat
    let b := x.f.b.toNat
    let m := x.f.fourth
    let bt := beats4 x.f
    goOn (blockMap s x bt 1 [a, b, m] fun k =>
      let w := blockWord s x m bt k
      ((blockWord s x a bt k &&& w) ||| (blockWord s x b bt k &&& ~~~w), 0))) s
def execVmov (f : Fields) (s : State) : Host.Outcome State Fault Refusal :=
  issue (.vmov f) formVmov f (blockW1 fun v => v) s
def execVbcast (f : Fields) (s : State) : Host.Outcome State Fault Refusal :=
  issue (.vbcast f) formVbcast f (fun x s =>
    goOn (blockMap s x (beats4 x.f) 1 [] fun _ => (packElements x.f.ty.bits (List.replicate (perReg x.f.ty.bits) x.av), 0))) s
def execVget (f : Fields) (s : State) : Host.Outcome State Fault Refusal :=
  issue (.vget f) formVget f (fun x s =>
    goOn (resultN x s 1 (element (readReg s x.t x.w (wId x.f.a.toNat)) x.f.ty.bits x.f.imm20) 0)) s
def execVput (f : Fields) (s : State) : Host.Outcome State Fault Refusal :=
  issue (.vput f) formVput f (fun x s =>
    let r := wId x.f.dest.toNat
    goOn (emit s x 1 [(r, setElement (readReg s x.t x.w r) x.f.ty.bits x.f.imm20 x.bv)] 0)) s

/-! ### Permutation and transposition (spec/13 R229, R230) -/

/-- Byte `q` of row i of a block as read in the last beat. -/
def rowByte (s : State) (x : In) (o beats i q : Nat) : Nat :=
  element (blockWordLast s x o beats (i * x.f.wd + q / 8)) 8 (q % 8)

def execVperm (f : Fields) (s : State) : Host.Outcome State Fault Refusal :=
  issue (.vperm f) formVperm f (fun x s =>
    let bt := beats4 x.f
    let g (k : Nat) : Word :=
      let i := k / x.f.wd
      packElements 8 ((List.range 8).map fun t =>
        let v := rowByte s x x.f.b.toNat bt i (8 * (k % x.f.wd) + t)
        if 128 ≤ v || 8 * x.f.wd ≤ v % 128 then 0 else rowByte s x x.f.a.toNat bt i (v % 128))
    let ds := blockRegs x.f.dest.toNat x.f.h x.f.wd
    goOn (blockResult s x bt 1 true ((ds.map wId).zip ((List.range ds.length).map g)) 0)) s

def execVtrn (f : Fields) (s : State) : Host.Outcome State Fault Refusal :=
  issue (.vtrn f) formVtrn f (fun x s =>
    let bt := beats4 x.f
    let n := x.f.wd
    let ds := blockRegs x.f.dest.toNat x.f.h x.f.wd
    goOn (blockResult s x bt 1 true ((ds.map wId).zip ((List.range ds.length).map fun k =>
      blockWordLast s x x.f.a.toNat bt (k % n * n + k / n))) 0)) s

/-! ### Reductions (spec/13 R231, R232) -/

/-- The operation of a reduction's minor. -/
def redOp (x : In) (a b : Nat) : FR :=
  if x.f.minor = 0 then elemAdd x.rm x.f.ty a b else elemMinMax (x.f.minor == 2) x.f.ty a b

/-- The running values of a chain in order, and the flags of every step. -/
def chain (g : Nat → Nat → FR) : Nat → List Nat → List Nat × Nat
  | y, [] => ([y], 0)
  | y, e :: es =>
    let r := g y e
    let q := chain g r.1 es
    (y :: q.1, orF r.2 q.2)

/-- A chain over a list of elements. -/
def chainOf (g : Nat → Nat → FR) : List Nat → List Nat × Nat
  | [] => ([], 0)
  | e :: es => chain g e es

/-- Block register (i, c) of source a as at issue. -/
def srcReg (s : State) (x : In) (i c : Nat) : Word := readReg s x.t x.w (wId (x.f.a.toNat + 8 * i + c))

/-- The element stream of row i. -/
def rowStream (s : State) (x : In) (i : Nat) : List Nat :=
  let p := perReg x.f.ty.bits
  (List.range (x.f.wd * p)).map fun q => element (srcReg s x i (q / p)) x.f.ty.bits (q % p)

/-- Hand a reduction to its unit, which holds no other one. -/
def startReduction (x : In) (s : State) (ws : List (Nat × Word)) (fl : Nat) : Body.Out :=
  if (s.tile x.t).reduction.isSome then .error (.hold none)
  else goOn (s.modTile x.t fun u =>
    { u.modTask x.w (·.raise x.f.setc.toNat) with
      reduction := some { who := x.w, tag := x.seq, writes := ws, reads := (blockRegs x.f.a.toNat x.f.h x.f.wd).map wId, flags := fl,
                          lower := x.f.setc.toNat } })

/-- The registers of a list of elements. -/
def regsOf (b n : Nat) (es : List Nat) : List Word :=
  (List.range n).map fun k => packElements b ((es.drop (k * perReg b)).take (perReg b))

def execVredr (f : Fields) (s : State) : Host.Outcome State Fault Refusal :=
  issue (.vredr f) formVredr f (fun x s =>
    let rs := (List.range x.f.h).map fun i => chainOf (redOp x) (rowStream s x i)
    startReduction x s ((List.range x.f.h).zip rs |>.map fun e =>
      (wId (x.f.dest.toNat + 8 * e.1), BitVec.ofNat 64 (e.2.1.getLastD 0))) (rs.foldl (fun n r => orF n r.2) 0)) s

def execVredc (f : Fields) (s : State) : Host.Outcome State Fault Refusal :=
  issue (.vredc f) formVredc f (fun x s =>
    let b := x.f.ty.bits
    let rs := (List.range x.f.wd).map fun c => (List.range (perReg b)).map fun j =>
      chainOf (redOp x) ((List.range x.f.h).map fun i => element (srcReg s x i c) b j)
    startReduction x s ((List.range x.f.wd).zip rs |>.map fun e =>
      (wId (x.f.dest.toNat + e.1), packElements b (e.2.map fun r => r.1.getLastD 0)))
      (rs.foldl (fun n r => r.foldl (fun n q => orF n q.2) n) 0)) s

def execVscan (f : Fields) (s : State) : Host.Outcome State Fault Refusal :=
  issue (.vscan f) formVscan f (fun x s =>
    let rs := (List.range x.f.h).map fun i => chainOf (redOp x) (rowStream s x i)
    let ws := (rs.map fun r => regsOf x.f.ty.bits x.f.wd r.1).flatten
    startReduction x s (((blockRegs x.f.dest.toNat x.f.h x.f.wd).map wId).zip ws) (rs.foldl (fun n r => orF n r.2) 0)) s

/-- The reduction unit writes its results (spec/13 R232). -/
def execReductionCompletion (s : State) : Host.Outcome State Fault Refusal :=
  if (s.tile s.cur).reduction.isNone then .refused .notPending
  else .next (wakeWaiting (s.modTile s.cur fun u => u.finishReduction) s.cur)

/-! ### Functions and conversions (spec/13 R233 to R236) -/

/-- A function of class V6 on each element. -/
def blockFun (g : Fmt → Nat → FR) (x : In) (s : State) : Body.Out :=
  block1 6 (beats1 x.f) (fun x a => g (fmtOf x.f.ty) a) x s

def execVrcp (f : Fields) (s : State) : Host.Outcome State Fault Refusal := issue (.vrcp f) formVfun f (blockFun vrcpV) s
def execVrsq (f : Fields) (s : State) : Host.Outcome State Fault Refusal := issue (.vrsq f) formVfun f (blockFun vrsqV) s
def execVexp2 (f : Fields) (s : State) : Host.Outcome State Fault Refusal := issue (.vexp2 f) formVfun f (blockFun vexp2V) s
def execVlog2 (f : Fields) (s : State) : Host.Outcome State Fault Refusal := issue (.vlog2 f) formVfun f (blockFun vlog2V) s
def execVtanh (f : Fields) (s : State) : Host.Outcome State Fault Refusal := issue (.vtanh f) formVfun f (blockFun vtanhV) s

/-- The integer that an element of an integer type holds. -/
def intOf (ty : Ty) (e : Nat) : Int := if ty.signed then sgn ty.bits e else (e % 2 ^ ty.bits : Nat)

/-- cvt of spec/13 Table 6. -/
def cvt (rm : Nat) (src dst : Ty) (e : Nat) : FR :=
  if src.float then
    if dst.float then fcvtV rm (fmtOf src) (fmtOf dst) e else ftoiV rm (fmtOf src) dst.signed dst.bits e
  else if dst.float then itofV rm (fmtOf dst) (intOf src e)
  else
    let r := clampInt dst.signed dst.bits (intOf src e)
    (wrap dst.bits r.1, flagIf r.2 flQS)

/-- One destination word of VCVT from a source word and the old destination word (spec/13 R234). -/
def vcvtWord (rm : Nat) (src dst : Ty) (p : Nat) (v old : Word) : Word × Nat :=
  if dst.bits ≤ src.bits then
    let m := perReg src.bits
    (List.range m).foldl (fun acc i =>
      let r := cvt rm src dst (element v src.bits i)
      (setElement acc.1 dst.bits (p * m + i) r.1, orF acc.2 r.2)) (old, 0)
  else
    let m := perReg dst.bits
    (List.range m).foldl (fun acc i =>
      let r := cvt rm src dst (element v src.bits (p * m + i))
      (setElement acc.1 dst.bits i r.1, orF acc.2 r.2)) (old, 0)

/-- VCVT; destination elements that it leaves unchanged are sources (R223). -/
def execVcvt (f : Fields) (s : State) : Host.Outcome State Fault Refusal :=
  issue (.vcvt f) formVcvt f (fun x s =>
    let a := x.f.a.toNat
    let d := x.f.dest.toNat
    let bt := beatsV4 x.f
    let keeps := x.f.ty.bits < x.f.ty2.bits
    goOn (blockMap s x bt 4 (if keeps then [a, d] else [a]) fun k =>
      vcvtWord x.rm x.f.ty2 x.f.ty x.f.minor.toNat (blockWord s x a bt k) (blockWord s x d bt k))) s

def execVrnd (f : Fields) (s : State) : Host.Outcome State Fault Refusal :=
  issue (.vrnd f) formVrnd f (block1 4 (beatsV4 f) fun x a =>
    frndV (fmtOf x.f.ty) (if x.f.minor = 0 then x.rm else x.f.minor.toNat - 1) a) s

/-! ### Quantisation and block scales (spec/13 R238 to R240) -/

/-- Results of runs, each with its beat. -/
def runResult (s : State) (x : In) (beats l : Nat) (shared : Bool) (vals : List (Nat × Nat × Word)) (fl : Nat) : State :=
  let c := (s.tile x.t).cyc
  emitBeats s x ((List.range beats).map fun k =>
    (c + (if shared then beats - 1 else k) + l, (vals.filter fun e => e.1 = k).map (·.2))) fl

/-- VQBLK: a register of the run becomes readable with the beat of the last block word that supplies it (log 13). -/
def execVqblk (f : Fields) (s : State) : Host.Outcome State Fault Refusal :=
  issue (.vqblk f) formVqblk f (fun x s =>
    let src := x.f.ty2
    let ty := x.f.ty
    let n := x.f.h * x.f.wd
    let bt := beats4 x.f
    let E := vqE x.f
    let rs := (List.range E).map fun e =>
      let k := e / perReg src.bits
      let v := blockWord s x x.f.a.toNat bt k
      let desc := runElement s x x.f.fourth 32 (e / vqG x.f) (beatOf n bt k)
      quantise x.rm (fmtOf src) ty.signed ty.bits desc (element v src.bits (e % perReg src.bits))
    let ws := runWrites s x x.f.dest.toNat ty.bits (rs.map (·.1)) 0
    let vals := (List.range ws.length).zip ws |>.map fun e =>
      (beatOf n bt ((min E ((e.1 + 1) * perReg ty.bits) - 1) / perReg src.bits), e.2)
    let used := (blockRegs x.f.a.toNat x.f.h x.f.wd) ++ (List.range (runRegs (E / vqG x.f) 32)).map (x.f.fourth + ·)
    goOn (runResult s x bt 4 (sharesRegs ((List.range ws.length).map (x.f.dest.toNat + ·)) used) vals
      (rs.foldl (fun n r => orF n r.2) 0))) s

/-- VDQ. Each element and its descriptor are read in the beat of the word that they go into, a register that serves several beats anew in
each (DEDUCED, log 13). -/
def execVdq (f : Fields) (s : State) : Host.Outcome State Fault Refusal :=
  issue (.vdq f) formVdq f (fun x s =>
    let src := x.f.ty2
    let ty := x.f.ty
    let n := x.f.h * x.f.wd
    let bt := beatsV4 x.f
    let rs := (List.range n).map fun k =>
      let es := (List.range (perReg ty.bits)).map fun j =>
        let e := k * perReg ty.bits + j
        let d := beatOf n bt k
        dequantise x.rm (fmtOf ty) (runElement s x x.f.fourth 32 (e / vqG x.f) d)
          (intOf src (runElement s x x.f.a.toNat src.bits e d))
      (packElements ty.bits (es.map (·.1)), es.foldl (fun n r => orF n r.2) 0)
    let ds := blockRegs x.f.dest.toNat x.f.h x.f.wd
    let used := (List.range (runRegs (vdE x.f) src.bits)).map (x.f.a.toNat + ·)
      ++ (List.range (runRegs (vdE x.f / vqG x.f) 32)).map (x.f.fourth + ·)
    goOn (blockResult s x bt 4 (sharesRegs ds used) ((ds.map wId).zip (rs.map (·.1))) (rs.foldl (fun n r => orF n r.2) 0))) s

/-- The chain of row i in MSCA. -/
def mscaRow (s : State) (x : In) (i : Nat) : FR :=
  let b := x.f.ty.bits
  let n := x.f.h * x.f.wd
  let bt := beatsV4 x.f
  let y0 := runElement s x x.f.dest.toNat b i (beatOf n bt (i * x.f.wd))
  (List.range x.f.wd).foldl (fun acc k =>
    let d := i * x.f.wd + k
    let c := beatOf n bt d
    let r := mscaStep x.rm (fmtOf x.f.ty) acc.1 (runElement s x x.f.b.toNat 32 d c) (runElement s x x.f.fourth 32 d c)
      (sgn 64 (blockWord s x x.f.a.toNat bt d).toNat)
    (r.1, orF acc.2 r.2)) (y0, 0)

/-- MSCA: its y run is a source and the destination, so every result comes with the last beat (spec/10 R176). -/
def execMsca (f : Fields) (s : State) : Host.Outcome State Fault Refusal :=
  issue (.msca f) formMsca f (fun x s =>
    let bt := beatsV4 x.f
    let rs := (List.range x.f.h).map (mscaRow s x)
    let ws := runWrites s x x.f.dest.toNat x.f.ty.bits (rs.map (·.1)) (bt - 1)
    goOn (runResult s x bt 4 true (ws.map fun e => (bt - 1, e)) (rs.foldl (fun n r => orF n r.2) 0))) s

/-! ### Random numbers (spec/11 R197, spec/13 R241, R242) -/

/-- CMIX. -/
def cmix (key ctr : Nat) : Nat :=
  let x := (ctr * 0x9E3779B9 + key) % 2 ^ 32
  let x := Nat.xor x (x / 2 ^ 16)
  let x := x * 0x85EBCA6B % 2 ^ 32
  Nat.xor x (x / 2 ^ 13)

def In.key (x : In) : Nat := x.a.toNat % 2 ^ 32
def In.ctr (x : In) : Nat := x.b.toNat % 2 ^ 32

def execRand (f : Fields) (s : State) : Host.Outcome State Fault Refusal :=
  issue (.rand f) formRand f (fun x s => goOn (resultW x s 3 (BitVec.ofNat 64 (cmix x.key x.ctr)) 0)) s
def execRandInc (f : Fields) (s : State) : Host.Outcome State Fault Refusal :=
  issue (.randInc f) formRandInc f (fun x s =>
    goOn (emit s x 3 [(x.f.dest.toNat, BitVec.ofNat 64 (cmix x.key x.ctr)),
      (x.f.b.toNat, setField x.b 31 0 (x.ctr + 1))] 0)) s

/-- Word k of VRAND. -/
def vrandWord (x : In) (k : Nat) : Word :=
  packElements 32 ((List.range 2).map fun j =>
    let v := cmix x.key ((x.ctr + 2 * k + j) % 2 ^ 32)
    if x.f.ty = .f32 then (fround (fmtOf .f32) rmRNE false (v / 256) (-24)).1 else v)

/-- The block writes of VRAND, with the counter's write first. -/
def vrandBody (inc : Bool) (x : In) (s : State) : Body.Out :=
  let n := x.f.h * x.f.wd
  let bt := beatsV4 x.f
  let c := (s.tile x.t).cyc
  let ds := (blockRegs x.f.dest.toNat x.f.h x.f.wd).map wId
  let vals := (List.range n).zip ds |>.map fun e => (beatOf n bt e.1, e.2, vrandWord x e.1)
  let first := if inc then [(c + 4, [(x.f.b.toNat, setField x.b 31 0 (x.ctr + 2 * n))])] else []
  goOn (emitBeats s x (first ++ (List.range bt).map fun k => (c + k + 4, (vals.filter fun e => e.1 = k).map (·.2))) 0)

def execVrand (f : Fields) (s : State) : Host.Outcome State Fault Refusal :=
  issue (.vrand f) formVrand f (vrandBody false) s
def execVrandInc (f : Fields) (s : State) : Host.Outcome State Fault Refusal :=
  issue (.vrandInc f) formVrandInc f (vrandBody true) s

end Sys2Proof.Machine
end

