-- ==== Sys2Proof/Machine/Boosted.lean ====
section
/-!
DEFINITION. Boosted tasks: BBEGIN, BDECL, BCOMMIT, BABORT, BTLOAD, BSTAT, declarations and locks at their homes, aborts and
their undo (spec/17 R314 to R331).
-/

namespace Sys2Proof.Machine

open Sys2Proof

/-! ### The live task -/

/-- The launch's cohort of a task's group. -/
def launchCohort (s : State) (t : Nat) (gid : BitVec 32) : Option Cohort :=
  s.cohorts.find? fun (c : Cohort) => some c.tenant == s.tenantOf t && c.gid == gid.toNat

/-- The image of the issuing task if it is live (spec/17 R314): it holds the slot and no undo of it has begun. -/
def liveImage (s : State) (x : In) : Except Stop Nat :=
  match x.w with
  | .img i => if ((s.tile x.t).ctx i).boost.active && (s.tile x.t).undo.isNone then .ok i else trapAt .illeg 0
  | _ => trapAt .illeg 0

/-- The age of the core's boosted task (R315). -/
def ageOf (s : State) (t : Nat) (b : Boost) : Age := { tag := b.tag, ticket := b.ticket, cid := s.cidOf t }

/-- The smaller triple is older. -/
def Age.older (a b : Age) : Bool :=
  a.tag.toNat < b.tag.toNat || (a.tag == b.tag && (a.ticket.toNat < b.ticket.toNat || (a.ticket == b.ticket && a.cid < b.cid)))

/-! ### BBEGIN (R324) -/

/-- The checks of BBEGIN, with the offset of the undo area; PRIV in either mode (DEDUCED, log 97). -/
def bbeginChecks (s : State) (x : In) (i : Nat) : Except Stop Nat := do
  let u := s.tile x.t
  let k := u.task x.w
  need (k.bst && !k.fwd && (launchCohort s x.t k.gid).any (·.boost) && !(u.ctx i).boost.active) .illeg 0
  let a := x.b
  let own := match s.huskOfTile x.t with
    | some (_, h) => field a 26 21 < h.width && field a 32 27 < h.height && h.tileAt (field a 26 21) (field a 32 27) == x.t
    | none => false
  need (regionOf a == 0x00 && mustBeZero a && own) .region a
  let off := field a 20 0
  let len := 32 * (x.f.c.toNat + 1)
  need (off % 32 == 0 && off + len ≤ 2 ^ 21) .align a
  need (!u.inCtx off len) .priv a
  need (!u.touches (fun e => e.stamped || e.boost) off len) .illeg 0
  return off

def execBbegin (f : Fields) (s : State) : Host.Outcome State Fault Refusal :=
  issue (.bbegin f) formBbegin f (fun x s => do
    match x.img with
    | none => trapAt .illeg 0
    | some i =>
      let off ← bbeginChecks s x i
      let u := s.tile x.t
      if u.boosted.isSome || u.undo.isSome then .error (.hold (some .slot))
      let old := (u.ctx i).boost
      let b : Boost := { old with
        ticket := x.a.setWidth 32, restart := BitVec.ofNat 64 x.f.imm.toNat, undo := off, cap := x.f.c.toNat + 1, depth := 0
        active := true, btry := false, tag := (match launchCohort s x.t (u.task x.w).gid with
          | some c => c.tag
          | none => 0), life := s.nextId }
      let s := { s with nextId := s.nextId + 1 }
      goOn (emit (s.modTile x.t fun u => { u.setCtx i { u.ctx i with boost := b } with abort := none }) x 1 [] 0)) s

/-! ### BDECL (R325) -/

/-- BDECL: the checks of spec/02 R10, step 6 for the own slice at once and for another tile at its home, before that of the undo stack. -/
def execBdecl (f : Fields) (s : State) : Host.Outcome State Fault Refusal :=
  issue (.bdecl f) formBdecl f (fun x s => do
    let i ← liveImage s x
    match ← checkAddr s x.t .atomic x.a true with
    | .sram h off =>
      need (off % 8 == 0) .align x.a
      let u := s.tile x.t
      need (h != x.t || (u.task x.w).sup || !u.inCtx off 8) .priv x.a
      let b := (u.ctx i).boost
      need (b.depth < b.cap) .illeg 0
      if u.pairing.any fun p => 256 < p.log.length + 4 then .error .close
      let imm := x.f.imm.toNat
      let a2 : Word := if x.f.c = 0 then 0 else readReg s x.t x.w (x.f.c.toNat + 1)
      let a1 : Word := if x.f.c = 0 then 0 else x.c
      let d : Decl :=
        { obj := off, kind := imm / 8192 % 64, key := x.b, age := ageOf s x.t b, life := b.life
          user := !(u.task x.w).sup, retried := b.btry }
      let s := addOut s x { tag := 0, who := x.w, kind := .other, addr := x.a, acquire := true, status := true, slow := true
                            pushes := [BitVec.ofNat 64 imm, a1, a2, x.a] }
      goOn (s.send (mkPacket x.t h x.seq orderedChan (.declare d)))
    | _ => trapAt .region x.a) s

/-! ### Locks at their home (R316 to R318) -/

/-- What the tile's copy of the commutativity table says of a declaration against a held lock. -/
inductive Meets where
  | conflict
  | commute
  | unloaded
  deriving DecidableEq, Repr

/-- Table 1 of spec/17. -/
def Tile.meets (u : Tile) (kind : Nat) (key : Word) (l : Lock) : Meets :=
  match Sparse.get 3 u.commut (kind * 64 + l.kind) with
  | 0 => .conflict
  | 1 => .commute
  | 2 => if key = l.key then .conflict else .commute
  | _ => .unloaded

/-- The entries on the object that another task holds. -/
def Tile.rivals (u : Tile) (obj agent : Nat) : List Lock := u.locks.filter fun l => l.obj = obj && l.agent != agent

/-- Entries that conflict, unloaded ones among them. -/
def Tile.conflicts (u : Tile) (obj kind : Nat) (key : Word) (agent : Nat) : List Lock :=
  (u.rivals obj agent).filter fun l => u.meets kind key l != .commute

/-- Abort notices to the holders of entries; `ticket` is that of the older task. -/
def noticeAll (s : State) (home reason : Nat) (ticket : BitVec 32) (ls : List Lock) : State :=
  ls.foldl (fun s l => s.send (mkPacket home l.agent 0 orderedChan (.abort l.life reason ticket))) s

/-- The youngest of the table's holders. -/
def youngest (ls : List Lock) : Option Lock :=
  ls.foldl (fun acc l => match acc with
    | none => some l
    | some m => if Age.older m.age l.age then some l else some m) none

/-- The answer at a home whose table is full: the notices `reason` to `ls`, and the declaration comes again (R318; log 21). -/
def tableFull (s : State) (home reason : Nat) (ticket : BitVec 32) (ls : List Lock) : State :=
  (noticeAll s home reason ticket ls).refuse s.sel 0

/-- A declaration is evaluated at its home, the rows of R318 in order. A full table takes no waiting entry either (log 21). -/
def execDeclarationAtHome (s : State) : Host.Outcome State Fault Refusal :=
  match arrived s s.sel with
  | some p =>
    match p.body with
    | .declare d =>
      let t := p.dst
      let u := s.tile t
      let s1 := s.drop s.sel
      let reply (s : State) (a : Answer) : State := s.send (mkPacket t p.src p.tag none (.reply a))
      let cs := u.conflicts d.obj d.kind d.key p.src
      let older := cs.filter fun l => Age.older l.age d.age
      let younger := cs.filter fun l => !Age.older l.age d.age
      let entry (g : Bool) : Lock :=
        { obj := d.obj, kind := d.kind, key := d.key, agent := p.src, life := d.life, age := d.age, tag := p.tag, granted := g
          against := if g then [] else younger.map fun l => (l.agent, l.tag) }
      if d.user && u.inCtx d.obj 8 then .next (reply s1 (.fault .priv))
      else match (u.rivals d.obj p.src).find? fun l => !d.retried && u.meets d.kind d.key l == .unloaded with
      | some l => .next (reply s1 (.dropped .btbl (BitVec.ofNat 64 (d.kind * 64 + l.kind))))
      | none =>
        match older with
        | o :: os =>
          let (c, s2) := s1.choose
          let l := (o :: os).getD (c % (os.length + 1)) o
          .next (reply s2 (.data [l.age.ticket.setWidth 64] 0))
        | [] =>
          if !younger.isEmpty then
            if 128 ≤ u.locks.length then .next (tableFull s t 1 d.age.ticket younger)
            else
              let s2 := s1.modTile t fun u => { u with locks := u.locks ++ [entry false] }
              .next (reply (noticeAll s2 t 1 d.age.ticket younger) .parked)
          else if 128 ≤ u.locks.length then
            .next (tableFull s t 3 d.age.ticket ((youngest u.locks).toList.filter fun y => Age.older d.age y.age))
          else .next (reply (s1.modTile t fun u => { u with locks := u.locks ++ [entry true] }) .done)
    | _ => .refused .notPending
  | none => .refused .notPending

/-- The declaration waits on an entry that the table still holds. -/
def Tile.stillAgainst (u : Tile) (w : Lock) : Bool := u.locks.any fun l => w.against.contains (l.agent, l.tag)

/-- Grant every waiting declaration of a tile with none of the younger entries left that it met when it was evaluated, in the order of
the table (R318, R328). -/
def regrant (s : State) (t : Nat) : State :=
  ((s.tile t).locks.filter fun l => !l.granted).foldl (fun s w =>
    if (s.tile t).stillAgainst w then s
    else
      (s.modTile t fun u => { u with locks := u.locks.map fun l => if l = w then { l with granted := true } else l }).send
        (mkPacket t w.agent w.tag none (.reply .done))) s

/-- A release of a core's locks at one home (R322). -/
def execLockReleaseAtHome (s : State) : Host.Outcome State Fault Refusal :=
  match arrived s s.sel with
  | some p =>
    match p.body with
    | .unlock agent =>
      let t := p.dst
      let s1 := (s.drop s.sel).modTile t fun u => { u with locks := u.locks.filter fun l => l.agent != agent }
      .next ((regrant s1 t).send (mkPacket t p.src p.tag none (.reply .done)))
    | _ => .refused .notPending
  | none => .refused .notPending

/-! ### Aborts (R320) -/

/-- An abort notice at a core: it concerns the live task of its life, and is else ignored. -/
def execAbortNoticeArrival (s : State) : Host.Outcome State Fault Refusal :=
  match arrived s s.sel with
  | some p =>
    match p.body with
    | .abort life reason ticket =>
      let s1 := s.drop s.sel
      let u := s1.tile p.dst
      (match u.boosted with
      | some i =>
        if (u.ctx i).boost.life = life then .next (s1.setTile p.dst (u.askAbort reason ticket.toNat)) else .next s1
      | none => .next s1)
    | _ => .refused .notPending
  | none => .refused .notPending

/-- The access has parked at its home and can be withdrawn: a full/empty access or an LDA.w. -/
def Outst.parkedOp (o : Outst) : Bool :=
  o.parked && (match o.op with
    | some (.ldf _) | some (.ldfe _) | some (.stef _ _) | some (.lda _ _ _) => true
    | _ => false)

/-- The access of core t stands in the waiter table of a home of the package. -/
def Outst.waitsAt (o : Outst) (s : State) (t : Nat) : Bool :=
  s.tiles.any fun e => e.2.waiters.any fun w => match w.asker with
    | .core g tag _ => g = t && tag = o.tag
    | _ => false

/-- The access is still parked: what its home has performed since is not, and its answer is on its way. What another package's home has
done cannot be seen; a load parks there alone. -/
def Outst.stillParked (o : Outst) (s : State) (t : Nat) : Bool := o.parkedOp && (o.remote || o.waitsAt s t)

/-- Withdraw what a core's task has parked at waiter tables: no effect, no answer; a counted request counts as arrived. -/
def withdrawParked (s : State) (t i : Nat) : State :=
  let gone := (s.tile t).out.filter fun o => o.who = .img i && o.stillParked s t
  let mine (tag : Nat) : Bool := gone.any fun o => o.tag = tag
  let isMine (w : Waiter) : Bool := match w.asker with
    | .core g tag _ => g = t && mine tag
    | _ => false
  let s := s.tiles.foldl (fun s e =>
    (e.2.waiters.filter isMine).foldl (fun s w =>
      let s := s.modTile e.1 fun u => { u with waiters := u.waiters.filter fun x => x.order != w.order }
      if opModifies w.op then s.countArrival t e.1 (pathOf e.1 (w.off / 64)) 0 none else s) s) s
  s.modTile t fun u => { u with out := u.out.filter fun o => !mine o.tag }

/-- Withdraw the declarations that no home has granted: they register nothing, push nothing, and an answer under way to one meets
nothing. -/
def withdrawDecls (s : State) (t : Nat) : State :=
  let waiting (k : Nat) : Bool := !(s.tiles.any fun e => e.2.locks.any fun l => l.agent = t && l.tag = k && l.granted)
  let homes := (s.tiles.filter fun e => e.2.locks.any fun l => l.agent = t && !l.granted).map (·.1)
  let s := s.modTile t fun u => { u with out := u.out.filter fun o => !(o.pushes != [] && waiting o.tag) }
  let s := { s with net := s.net.filter fun p => !(p.src = t && (match p.body with
    | .declare _ => true
    | _ => false)) }
  homes.foldl (fun s h =>
    regrant (s.modTile h fun u => { u with locks := u.locks.filter fun l => !(l.agent = t && !l.granted) }) h) s

/-- The image leaves the lists that would start it. -/
def Tile.unlist (u : Tile) (i : Nat) : Tile :=
  { u with
    ready := u.ready.filter (· != .bound i)
    wake := u.wake.map fun e => (e.1, if e.2.pod = .bound i then { e.2 with pod := .none } else e.2)
    images := (u.setCtx i { u.ctx i with waitDone := false }).images }

/-- The abort of the task of image i, steps 1 and 2, and the start of the undo; an exact fault that its stream has still to take goes with
what it had issued (log 100). -/
def takeAbort (s : State) (t i reason ticket : Nat) : State :=
  let s := s.modTile t fun u => u.unlist i
  let s := if (s.tile t).cur0 = some i then setAside s t (.waiting .undo) else s
  let s := s.modTile t fun u =>
    let c := u.ctx i
    { u.setCtx i { c with
        st := .waiting .undo, task := { c.task with tstat := closeWindow c.task.tstat, waitNo := none, late := c.task.late.filter (!·.exact) }
        boost := { c.boost with aborts := min 4095 (c.boost.aborts + 1), reason := reason } } with
      abort := none
      undo := some { img := i, word := BitVec.ofNat 64 (ticket * 2 ^ 32 + reason), left := c.boost.depth } }
  withdrawParked (withdrawDecls s t) t i

/-- The pending abort stops the running task here: at a line boundary or where it is held; a notice waits for the end of a masked
window. -/
def Tile.abortStops (u : Tile) : Bool :=
  match u.abort, u.boosted with
  | some (r, _), some i =>
    u.active == some (.img i) && (u.atLine || u.halted) && !u.checkTo && ((u.ctx i).task.mwo == false || !isNotice r)
  | _, _ => false

/-- The pending abort can be taken: there, with every status in but that of the task's own declaration and its matrix instructions settled
(spec/14 R253), or at once while the task is set aside. -/
def Tile.abortReady (u : Tile) : Bool :=
  match u.abort, u.boosted with
  | some _, some i => u.undo.isNone && (u.cur0 != some i
      || (u.abortStops && !(u.out.any fun o => o.who = .img i && o.status && o.pushes == []) && !u.matrixBusy (.img i)))
  | _, _ => false

def execBoostedAbort (s : State) : Host.Outcome State Fault Refusal :=
  let t := s.cur
  let u := s.tile t
  match u.abort, u.boosted with
  | some (r, k), some i =>
    if !u.abortReady || (u.pairing.any fun p => p.closing) then .refused .notPending
    else if u.cur0 = some i && u.pairing.any (fun p => p.count != 0) then .next (s.setTile t u.wantClose)
    else .next (takeAbort s t i r k)
  | _, _ => .refused .notPending

/-- Everything that the aborted task of tile t had issued has completed, or can be withdrawn. -/
def undoQuiet (s : State) (t i : Nat) : Bool :=
  let u := s.tile t
  (u.out.all fun o => o.who != .img i || o.stillParked s t)
    && !(u.divider.any fun j => j.who = .img i) && !(u.reduction.any fun j => j.who = .img i)
    && !(u.matrix.queue.any fun q => q.who = .img i)

/-- The next undo task, from the newest entry: it goes ahead of every queued level-1 task (R320, R321).
Its LVL bit and lid are the model's (DESIGN CHOICE, log 100). -/
def execUndoTaskStart (s : State) : Host.Outcome State Fault Refusal :=
  let t := s.cur
  match (s.tile t).undo with
  | none => .refused .notPending
  | some y =>
    if y.active || y.left = 0 || !undoQuiet s t y.img then .refused .notPending
    else
      let s := withdrawParked s t y.img
      let c := (s.tile t).ctx y.img
      let off := c.boost.undo + 32 * (y.left - 1)
      if s.consumesBad t off 32 then .next (eccuKill s t)
      else
        let (s, ws) := readWords (s.correct t off 4) t off 4
        let w0 := ws.headD 0
        let k : Task :=
          { pc := w0 &&& 0x1FFF, tstat := setField c.task.tstat 46 46 1, it := c.task.it, gid := c.task.gid
            lid := lidOf s t c.task.gid
            g := ((((({} : Task).setG 1 (ws.getD 1 0)).setG 2 (ws.getD 2 0)).setG 3 (ws.getD 3 0)).setG 4
              (BitVec.ofNat 64 (field w0 18 13))).g }
        .next (s.modTile t fun u => { u with
          l1q := { task := k, undo := true } :: u.l1q, undo := some { y with left := y.left - 1, active := true } })

/-- After the last undo task: the locks are released and the task is re-queued at its restart PC (R320, steps 4 and 5). -/
def execUndoFinish (s : State) : Host.Outcome State Fault Refusal :=
  let t := s.cur
  match (s.tile t).undo with
  | none => .refused .notPending
  | some y =>
    if y.active || y.left ≠ 0 || !undoQuiet s t y.img then .refused .notPending
    else
      let s := withdrawParked s t y.img
      let n := (lockHomes s t).length
      let tag := (s.tile t).seq
      let s := if n = 0 then s else (sendUnlocks s t tag).modTile t fun u => { u with
        seq := tag + 1, out := u.out ++ [{ tag := tag, who := .img y.img, kind := .delivery, acks := n, slow := true }] }
      .next (wakeWaiting (s.modTile t fun u =>
        let c := u.ctx y.img
        { u.setCtx y.img { c with
            st := .ready, check := true
            task := { c.task with pc := c.boost.restart, d := [], ret := y.word }
            boost := { c.boost with active := false, depth := 0 } } with
          ready := u.ready ++ [.bound y.img], undo := none }) t)

/-! ### BCOMMIT, BABORT, BTLOAD, BSTAT (R326 to R329) -/

/-- BCOMMIT waits for its task's declarations (DEDUCED, log 101) and as STREL at `.husk`. -/
def execBcommit (f : Fields) (s : State) : Host.Outcome State Fault Refusal :=
  issue (.bcommit f) formBcommit f (fun x s => do
    let i ← liveImage s x
    if (s.tile x.t).out.any fun o => o.who = x.w && o.acquire then .error (.hold (some .acquire))
    ackHold s x true false
    let s' := commitBoost s x i
    goOn (if (lockHomes s x.t).isEmpty then emit s' x 1 [] 0 else s')) s

/-- BABORT: the abort SELF is pending; it is taken where R320 says, at the next fetch-line boundary or hold (R327). -/
def execBabort (f : Fields) (s : State) : Host.Outcome State Fault Refusal :=
  issue (.babort f) formBabort f (fun x s => do
    let i ← liveImage s x
    goOn (emit (s.modTile x.t fun u => u.askAbort 4 (u.ctx i).boost.ticket.toNat) x 1 [] 0)) s

/-- BTLOAD writes a row of every tile's copy; each tile acknowledges. -/
def execBtload (f : Fields) (s : State) : Host.Outcome State Fault Refusal :=
  issue (.btload f) formBtload f (fun x s =>
    match s.huskOfTile x.t with
    | none => trapAt .huskbnd 0
    | some (_, h) =>
      let s := addOut s x { tag := 0, who := x.w, kind := .other, slow := true, acks := h.tiles.length }
      goOn (h.tiles.foldl (fun s t => s.send (mkPacket x.t t x.seq orderedChan (.commut x.f.imm.toNat x.a x.b))) s)) s

/-- The boosted status word (spec/17 Table 6). -/
def boostWord (b : Boost) : Word :=
  BitVec.ofNat 64 ((if b.active then 2 ^ 63 else 0) + (if b.btry then 2 ^ 62 else 0) + b.depth % 2 ^ 9 * 2 ^ 48
    + b.reason % 16 * 2 ^ 44 + b.aborts % 2 ^ 12 * 2 ^ 32 + b.ticket.toNat)

/-- BSTAT: at level 1 the task that holds the core's slot, and the zero word while none does. -/
def execBstat (f : Fields) (s : State) : Host.Outcome State Fault Refusal :=
  issue (.bstat f) formBstat f (fun x s =>
    let u := s.tile x.t
    let b : Boost := match x.w with
      | .img i => (u.ctx i).boost
      | _ => match u.boosted with
        | some i => (u.ctx i).boost
        | none => {}
    resultLater x s (boostWord b)) s

end Sys2Proof.Machine
end

