-- ==== Sys2Proof/Machine/Matrix.lean ====
section
/-!
DEFINITION. The matrix array: its instructions, queue, ownership and faults, gang issue and peer adds (spec/14 R244 to R267).
-/

namespace Sys2Proof.Machine

open Sys2Proof

/-! ### Geometry (R245) -/

/-- Element n of packed bytes of a type, from byte key `base` on. -/
def packedAt (m : Sparse Byte) (base : Nat) (ty : Ty) (n : Nat) : Int :=
  let byte (k : Nat) : Nat := (Sparse.get 0 m (base + k)).toNat
  let v := match ty.bits with
    | 4 => byte (n / 2) / 16 ^ (n % 2) % 16
    | 8 => byte n
    | _ => byte (2 * n) + 256 * byte (2 * n + 1)
  if ty.signed then sgn ty.bits v else v

/-- Logical columns of a macro by its B type. -/
def columnsOf (ty : Ty) : Nat := 1024 / ty.bits

def Matrix.tyOfB (m : Matrix) (mac : Nat) : Ty := Sparse.get .i8 m.bty mac
def Matrix.tyOfRow (m : Matrix) (e : Nat) : Ty := Sparse.get .i8 m.rbty e
/-- Groups along K. -/
def Matrix.groupsK (m : Matrix) : Nat := 8 / 2 ^ m.gs

/-- An accumulator. -/
def Matrix.accAt (m : Matrix) (mac i : Nat) : BitVec 48 := Sparse.get 0 m.acc (mac * 8192 + i % 8192)
def Matrix.setAcc (m : Matrix) (mac i : Nat) (v : BitVec 48) : Matrix :=
  { m with acc := Sparse.set 0 m.acc (mac * 8192 + i % 8192) v }

/-- The partial sum S of R246. -/
def Matrix.partial_ (m : Matrix) (mac e g n : Nat) : Int :=
  let gw := 32 * 2 ^ m.gs
  let za := sgn 8 (Sparse.get 0 m.za (8 * e + g)).toNat
  let zb := sgn 8 (Sparse.get 0 m.zb (mac * 2048 + g * 256 + n)).toNat
  (List.range gw).foldl (fun (acc : Int) j =>
    let k := g * gw + j
    acc + (packedAt m.rb (512 * e) (m.tyOfRow e) k - za) * (packedAt m.cells (mac * 32768 + 128 * k) (m.tyOfB mac) n - zb)) 0

/-- The row pass of entry e in a macro with accumulator base x (R246). -/
def Matrix.rowPass (m : Matrix) (mac e x : Nat) (add : Bool) : Matrix :=
  let n := columnsOf (m.tyOfB mac)
  (List.range (n * m.groupsK)).foldl (fun m' q =>
    let s := BitVec.ofInt 48 (m.partial_ mac e (q / n) (q % n))
    m'.setAcc mac (x + q) (if add then m'.accAt mac (x + q) + s else s)) m

/-! ### Admission and the queue (R247 to R249) -/

/-- Admission of an instruction other than MSTAT (R247), which claims the array as it issues (DEDUCED, log 95); at level 1 nothing is
tested or claimed (R248). -/
def takeIn (u : Tile) (w : Who) (restore save : Bool) : Except Stop Tile :=
  let m := u.matrix
  match w with
  | .img i =>
    if m.lost.getLsbD i then
      if restore then .ok { u with matrix := { m with owner := some i, lost := m.lost &&& ~~~(1#8 <<< i) } } else trapAt .mbusy 0
    else if m.frozen && !restore && !save then trapAt .mbusy 0
    else match m.owner with
      | none => .ok { u with matrix := { m with owner := some i } }
      | some j => if i = j then .ok u else trapAt .mbusy 0
  | _ => .ok u

/-- The instruction is an MGANG. -/
def MQ.isGang (q : MQ) : Bool := match q.i with
  | .mgang _ => true
  | _ => false

/-- The next instruction of a level-0 stream is gang-issued: its MGANG has completed, or the last one of it in the queue is an MGANG
(R254). -/
def Matrix.gangDue (m : Matrix) (w : Who) : Bool :=
  match w with
  | .img i => m.gangNext.getLsbD i || ((m.queue.filter fun q => q.who = w).getLast?).any MQ.isGang
  | _ => false

/-- The next instruction of the stream of a completed MGANG is gang-issued, unless it stands in the rest `r` of the queue. -/
def Matrix.gangOver (m : Matrix) (w : Who) (r : List MQ) : Matrix :=
  match w with
  | .img i => if r.any fun q => q.who = w then m else { m with gangNext := m.gangNext ||| (1#8 <<< i) }
  | _ => m

/-- The stream's next instruction has been issued. -/
def Matrix.gangTaken (m : Matrix) (w : Who) : Matrix :=
  match w with
  | .img i => m.noGang i
  | _ => m

/-- The counter of a matrix instruction that follows an array fault which its context has not taken: a wait on it takes the fault (R252). -/
def Matrix.noteAfter (m : Matrix) (w : Who) (setc : Nat) : Matrix :=
  match w with
  | .img i => if m.toTake.any fun e => e.1 = i then { m with after := m.after ++ [(i, setc)] } else m
  | _ => m

/-- A matrix instruction waits for the task's own earlier requests to the bytes that it reads or writes, parked ones too (spec/04 R50, R53).
-/
def queueOrder (s : State) (t : Nat) (q : MQ) : Except Stop Unit :=
  match (q.reads s t ++ q.stores t).findSome? fun r => onItsWay s t q.who r.1 r.2.1 r.2.2 with
  | some p => .error (if (s.tile t).pairKeeps p.id then .close else .hold none)
  | none => (q.reads s t ++ q.stores t).forM fun r => behindParked s t q.who r.1 r.2.1 (.loadBlock (r.2.2 / 8))

/-- The instruction enters the queue: its counter is raised; the next one after an MGANG of its task is gang-issued (R254). -/
def enqueue (x : In) (s : State) (i : Instr) : Body.Out := do
  let u := s.tile x.t
  let m := u.matrix
  if 8 ≤ m.queue.length then .error (.hold none)
  let q : MQ := { i := i, a := x.a, b := x.b, pc := x.pc, who := x.w, lower := x.f.setc.toNat, gang := m.gangDue x.w, tag := x.seq
                  px := (u.task x.w).px }
  queueOrder s x.t q
  goOn (s.setTile x.t { u.modTask x.w (·.raise x.f.setc.toNat) with
    matrix := ({ m with queue := m.queue ++ [q] }.gangTaken x.w).noteAfter x.w x.f.setc.toNat })

/-- Admission, the instruction's own checks, the queue. -/
def matrixBody (i : Instr) (restore save : Bool) (checks : In → State → Except Stop Unit) (x : In) (s : State) : Body.Out := do
  let u ← takeIn (s.tile x.t) x.w restore save
  checks x s
  enqueue x (s.setTile x.t u) i

def noChecks (_ : In) (_ : State) : Except Stop Unit := .ok ()

/-- MCFG: bits outside [1:0] and [7:4] are zero (R258). -/
def execMcfg (f : Fields) (s : State) : Host.Outcome State Fault Refusal :=
  issue (.mcfg f) formMcfg f (matrixBody (.mcfg f) false false fun x _ =>
    need (field x.a 3 2 == 0 && field x.a 63 8 == 0) .illeg 0) s

/-- The rows of MLOADB and MRBUF are checked at issue (R259). -/
def rowChecks (m len : Nat) (x : In) (s : State) : Except Stop Unit :=
  (List.range m).foldl (fun r i => do
    r
    let a := rowAt x.a x.b i
    match ← checkAddr s x.t .sliceOnly a (a.toNat % 8 == 0 && x.b.toNat % 8 == 0 && a.toNat % 2 ^ 21 + len ≤ 2 ^ 21) with
    | .sram h off => need (((s.tile x.t).task x.w).sup || !(s.tile h).inCtx off len) .priv a
    | _ => trapAt .region a) (.ok ())

/-- m of MMUL. -/
def mulRows (f : Fields) : Nat := f.imm.toNat / 8192 + 1

def execMloadb (f : Fields) (s : State) : Host.Outcome State Fault Refusal :=
  issue (.mloadb f) formMloadb f (matrixBody (.mloadb f) false false (rowChecks (loadbRows f) 128)) s
def execMrbuf (f : Fields) (s : State) : Host.Outcome State Fault Refusal :=
  issue (.mrbuf f) (formMrbuf 0) f (matrixBody (.mrbuf f) false false (rowChecks (rbufRows f) (rowBytes f.ty))) s
def execMrbufBc (f : Fields) (s : State) : Host.Outcome State Fault Refusal :=
  issue (.mrbufBc f) (formMrbuf 1) f (matrixBody (.mrbufBc f) false false (rowChecks (rbufRows f) (rowBytes f.ty))) s
def execMloadz (f : Fields) (s : State) : Host.Outcome State Fault Refusal :=
  issue (.mloadz f) formMloadz f (matrixBody (.mloadz f) false false noChecks) s
def execMmul (f : Fields) (s : State) : Host.Outcome State Fault Refusal :=
  issue (.mmul f) formMmul f (matrixBody (.mmul f) false false noChecks) s
def execMzeroAcc (f : Fields) (s : State) : Host.Outcome State Fault Refusal :=
  issue (.mzeroAcc f) formMzeroAcc f (matrixBody (.mzeroAcc f) false false noChecks) s
def execMzeroZp (f : Fields) (s : State) : Host.Outcome State Fault Refusal :=
  issue (.mzeroZp f) formMzeroZp f (matrixBody (.mzeroZp f) false false noChecks) s
def execMdrain (f : Fields) (s : State) : Host.Outcome State Fault Refusal :=
  issue (.mdrain f) formMdrain f (matrixBody (.mdrain f) false false noChecks) s
def execMchkcfg (f : Fields) (s : State) : Host.Outcome State Fault Refusal :=
  issue (.mchkcfg f) formMchkcfg f (matrixBody (.mchkcfg f) false false noChecks) s

/-- The gang width and member number of a task (spec/09 Table 2). -/
def Task.gangWidth (k : Task) : Nat := 2 ^ field k.lid 18 16
def Task.gangMember (k : Task) : Nat := field k.lid 15 12

/-- MDRAINP: a peer of the gang, and not the issuing macro itself (R264). -/
def execMdrainp (f : Fields) (s : State) : Host.Outcome State Fault Refusal :=
  issue (.mdrainp f) formMdrainp f (matrixBody (.mdrainp f) false false fun x s =>
    let k := (s.tile x.t).task x.w
    let mac := x.f.minor.toNat / 2 % 2
    need (x.f.dest.toNat < k.gangWidth && (x.f.dest.toNat != k.gangMember || mac != x.f.a.toNat)) .illeg 0) s

/-- MGANG: earlier matrix instructions of the task complete, then the release at `.gang`; in the queue it stands at the
barrier (R254). -/
def execMgang (f : Fields) (s : State) : Host.Outcome State Fault Refusal :=
  issue (.mgang f) formMgang f (matrixBody (.mgang f) false false fun x s => do
    if (s.tile x.t).matrix.queue.any fun q => q.who = x.w then .error (.hold none)
    ackHold s x true false) s

/-- The image of MSAVE and MRESTORE (R266); PRIV in tenant mode alone (DEDUCED, log 97). -/
def imageChecks (save : Bool) (x : In) (s : State) : Except Stop Unit := do
  match ← checkAddr s x.t .localOnly x.a true with
  | .sram h off =>
    need (h == x.t) .region x.a
    need (off % 4096 == 0 && off + 0x36000 ≤ 2 ^ 21) .align x.a
    let u := s.tile x.t
    need ((u.task x.w).sup || !u.inCtx off 0x36000) .priv x.a
    let hits (p : Attr → Bool) : Bool := (imageParts x.f).any fun e => u.touches p (off + e.1) e.2
    need (!save || !hits (·.stamped)) .stawr x.a
    need (!save || u.activeBoost x.w || !hits (·.boost)) .boostwr x.a
  | _ => trapAt .region x.a

def execMsave (f : Fields) (s : State) : Host.Outcome State Fault Refusal :=
  issue (.msave f) (formMsave 0) f (matrixBody (.msave f) false true (imageChecks true)) s
def execMsaveFree (f : Fields) (s : State) : Host.Outcome State Fault Refusal :=
  issue (.msaveFree f) (formMsave 1) f (matrixBody (.msaveFree f) false true (imageChecks true)) s
def execMrestore (f : Fields) (s : State) : Host.Outcome State Fault Refusal :=
  issue (.mrestore f) (formMsave 0) f (matrixBody (.mrestore f) true false (imageChecks false)) s

/-- MSTAT issues once the task's earlier matrix instructions are over; it is never refused (R267). -/
def mstatBody (i : Instr) (x : In) (s : State) : Body.Out :=
  if (s.tile x.t).matrix.queue.any fun q => q.who = x.w then .error (.hold none) else enqueue x s i

def execMstat (f : Fields) (s : State) : Host.Outcome State Fault Refusal :=
  issue (.mstat f) (formMstat 0) f (mstatBody (.mstat f)) s
def execMstatClr (f : Fields) (s : State) : Host.Outcome State Fault Refusal :=
  issue (.mstatClr f) (formMstat 1) f (mstatBody (.mstatClr f)) s

/-! ### Performing the head of the queue -/

/-- Change the array of a tile. -/
def modMatrix (s : State) (t : Nat) (g : Matrix → Matrix) : State := s.modTile t fun u => { u with matrix := g u.matrix }

/-- Write registers for a queued instruction of a task. -/
def mqWrite (s : State) (t : Nat) (q : MQ) (ws : List (Nat × Word)) (fl : Nat) : State :=
  s.modTile t fun u => u.deliver q.who q.tag ws (Nat.lor fl q.flags) 7

/-- Read `words` 8-byte words as plain loads; none when a word is in error and the husk is killed (spec/03 R39). -/
def matrixRead (s : State) (h off words : Nat) : Option (State × List Byte) :=
  if s.consumesBad h off (8 * words) then none
  else
    let (s, ws) := readWords (s.correct h off words) h off words
    some (s, wordsBytes ws)

/-- Put bytes into a part of the array. -/
def putPart (m : Sparse Byte) (base : Nat) (bs : List Byte) : Sparse Byte :=
  ((List.range bs.length).zip bs).foldl (fun m e => Sparse.set 0 m (base + e.1) e.2) m

/-- Read m rows, all in one step (DESIGN CHOICE, log 93). -/
def readRows (s : State) (t : Nat) (a stride : Word) (len : Nat) : Nat → Option (State × List (List Byte))
  | 0 => some (s, [])
  | n + 1 =>
    match readRows s t a stride len n with
    | none => none
    | some (s, rows) =>
      let (h, off) := sliceOf s t (rowAt a stride n)
      match matrixRead s h off (len / 8) with
      | none => none
      | some (s, bs) => some (s, rows ++ [bs])

/-- Install rows in the row buffer, under the type of the instruction of this core (DESIGN CHOICE, log 94). -/
def installRows (m : Matrix) (f : Fields) (rows : List (List Byte)) : Matrix :=
  ((List.range rows.length).zip rows).foldl (fun m e =>
    { m with rb := putPart m.rb (512 * (f.dest.toNat + e.1)) e.2, rbty := Sparse.set .i8 m.rbty (f.dest.toNat + e.1) f.ty }) m

/-- An array fault at X, the head of the queue (R252): exact where X issued under PX, after the close of a pair's interval and once its
stream runs, and what other streams have queued stays; else the array freezes, later instructions are discarded and the owner is still
to take it. -/
def arrayFaultAt (s : State) (t : Nat) (q : MQ) (c : Cause) (fcol fmac : Nat) : State :=
  let u := s.tile t
  let m := u.matrix
  if q.px then
    let s := s.setTile t { u.apply q.who q.tag (·.lower q.lower) with matrix := { m with queue := m.queue.drop 1, busy := false } }
    let o : Outst := { tag := q.tag, who := q.who, kind := .other, pc := q.pc, addr := q.pc }
    if u.active == some q.who && !u.pairOpen then exactFault s t o c false else deferExact s t o c false
  else
    let late := m.queue.drop 1
    let u := m.queue.foldl (fun u x => u.apply x.who x.tag (·.lower x.lower)) u
    let m := match q.who with
      | .img i => { m with
          toTake := m.toTake ++ [(i, c, q.pc.toNat % 8192)]
          after := m.after ++ (m.queue.filter fun (x : MQ) => x.who = q.who).map fun (x : MQ) => (i, x.lower) }
      | _ => m
    wakeWaiting (s.setTile t { u with
      matrix := { m with queue := [], busy := false, frozen := true, fpc := q.pc.toNat % 8192, fcause := causeCode c, fcol := fcol
                         fmac := fmac, disc := min 15 late.length } }) t

/-- MLOADZ installs the descriptor at the head of the scale queue (R260). -/
def loadzStep (s : State) (t : Nat) (q : MQ) (f : Fields) : State :=
  let m := (s.tile t).matrix
  match m.sq with
  | [] => s
  | d :: r =>
    if field d 31 28 != m.eseq || field d 19 12 == 0xFF then arrayFaultAt s t q .scaleseq 0 0
    else
      let first := f.imm.toNat % 2048
      let z : Byte := BitVec.ofNat 8 (field d 27 20)
      let reg := wId (f.dest.toNat + q.done / 2)
      let old := ((s.tile t).task q.who).getW (f.dest.toNat + q.done / 2)
      let s := mqWrite s t q [(reg, setElement old 32 (q.done % 2) d.toNat)] 0
      let last := q.done + 1 = f.imm.toNat / 2048 + 1
      modMatrix s t fun m => { m with
        sq := r, eseq := (m.eseq + 1) % 16, busy := last
        zb := if f.minor.toNat < 2 then Sparse.set 0 m.zb (f.minor.toNat * 2048 + first + q.done) z else m.zb
        za := if f.minor.toNat < 2 then m.za else Sparse.set 0 m.za (first + q.done) z
        queue := { q with done := q.done + 1 } :: m.queue.drop 1 }

/-- Count a row pass of a macro; every c-th one has a check pass (R256). -/
def countPass (m : Matrix) (mac : Nat) : Matrix × Bool :=
  let n := Sparse.get 0 m.passes mac + 1
  if m.chk ≠ 0 && m.chk ≤ n then ({ m with passes := Sparse.set 0 m.passes mac 0 }, true)
  else ({ m with passes := Sparse.set 0 m.passes mac (n % 65536) }, false)

/-- MMUL (R261). A check pass finds a difference only where the array errs: none of them, or which macro's, is left to a choice
(log 22). -/
def mmulStep (s : State) (t : Nat) (q : MQ) (f : Fields) : State :=
  let macs := (List.range 2).filter fun j => f.minor.getLsbD j
  let rows := mulRows f
  let base := f.imm.toNat % 8192
  let m0 := (s.tile t).matrix
  let m1 := (List.range rows).foldl (fun m i => macs.foldl (fun m mac =>
    m.rowPass mac (f.a.toNat + i) ((base + i * columnsOf (m.tyOfB mac) * m.groupsK) % 8192) (f.minor.getLsbD 2)) m) m0
  let (m2, checked) := (List.range rows).foldl (fun (r : Matrix × List Nat) _ => macs.foldl (fun (r : Matrix × List Nat) mac =>
    let (m, c) := countPass r.1 mac
    (m, if c then r.2 ++ [mac] else r.2)) r) (m1, [])
  match checked with
  | [] => modMatrix s t fun _ => { m2 with busy := true }
  | _ :: _ =>
    let n := checked.length + 1
    let (c, s) := s.choose
    if c % n = 0 then modMatrix s t fun _ => { m2 with busy := true }
    else
      let mac := checked.getD (c % n - 1) 0
      arrayFaultAt (modMatrix s t fun _ => { m2 with acc := m0.acc }) t q .mchk (c / n % columnsOf (m0.tyOfB mac)) mac

/-- MDRAIN (R263, spec/11 R190). -/
def mdrainStep (s : State) (t : Nat) (q : MQ) (f : Fields) : State :=
  let m := (s.tile t).matrix
  let mac := f.a.toNat
  let start := f.imm.toNat % 8192
  let n := f.h * f.wd
  let vals := (List.range n).map fun k => (m.accAt mac (start + k)).toInt
  let fl := if vals.any fun v => v > 2 ^ 46 || v < -(2 ^ 46) then flIOV else 0
  let ws := ((blockRegs f.dest.toNat f.h f.wd).map wId).zip (vals.map fun v => BitVec.ofInt 64 v)
  let m' := if f.minor.getLsbD 0 then (List.range n).foldl (fun m k => m.setAcc mac (start + k) 0) m else m
  mqWrite (modMatrix s t fun _ => { m' with busy := true }) t q ws fl

/-- MDRAINP: the adds go to the peer; each will be acknowledged (R264). -/
def mdrainpStep (s : State) (t : Nat) (q : MQ) (f : Fields) : State :=
  let m := (s.tile t).matrix
  let k := (s.tile t).task q.who
  let mac := f.a.toNat
  let start := f.imm.toNat % 8192
  let n := f.imm.toNat / 8192 + 1
  let peer := t - k.gangMember + f.dest.toNat
  let m' := if f.minor.getLsbD 0 then (List.range n).foldl (fun m i => m.setAcc mac (start + i) 0) m else m
  let s := (modMatrix s t fun _ => { m' with busy := true }).modTile t fun u => { u with
    out := u.out ++ [{ tag := q.tag, who := q.who, kind := .other, acks := n, slow := false }] }
  (List.range n).foldl (fun s i =>
    s.send (mkPacket t peer q.tag none (.peerAdd (f.minor.toNat / 2 % 2) ((start + i) % 8192) (m.accAt mac (start + i))))) s

/-- Bytes of a part of the array. -/
def partBytes (m : Sparse Byte) (base n : Nat) : List Byte := (List.range n).map fun i => Sparse.get 0 m (base + i)

/-- The type code of a byte of the image. -/
def typeByte (b : Byte) : Ty := if b.toNat < 16 && tySmall (Ty.ofCode b.toNat) then Ty.ofCode b.toNat else .i8

/-- The configuration part below its zero points (spec/14 Table 5). -/
def configBytes (m : Matrix) : List Byte :=
  bytesOf (m.gs % 4 + m.eseq % 16 * 16) 8
    ++ [BitVec.ofNat 8 (m.tyOfB 0).code, BitVec.ofNat 8 (m.tyOfB 1).code]
    ++ bytesOf m.chk 2 ++ bytesOf (Sparse.get 0 m.passes 0) 2 ++ bytesOf (Sparse.get 0 m.passes 1) 2
    ++ (List.range 32).map (fun e => BitVec.ofNat 8 (m.tyOfRow e).code) ++ List.replicate 0xD0 0

/-- The chosen parts of an image: offset and bytes (spec/14 Table 5). -/
def imageBytes (m : Matrix) (parts : Nat) : List (Nat × List Byte) :=
  (if parts.testBit 0 then [(0, configBytes m ++ partBytes m.za 0 256 ++ partBytes m.zb 0 4096)] else [])
    ++ (if parts.testBit 1 then [(0x2000, partBytes m.rb 0 16384)] else [])
    ++ (if parts.testBit 2 then [(0x6000, partBytes m.cells 0 65536)] else [])
    ++ (if parts.testBit 3 then [(0x16000, ((List.range 16384).map fun i =>
        bytesOf (BitVec.ofInt 64 (Sparse.get 0 m.acc i).toInt).toNat 8).flatten)] else [])

/-- The first `n` words of bytes. -/
def firstWords : Nat → List Byte → List Word
  | 0, _ => []
  | n + 1, bs => BitVec.ofNat 64 (ofBytes (bs.take 8)) :: firstWords n (bs.drop 8)

/-- The words of MSAVE as a paired leader's own stores: each goes into the fingerprints, and its old word into the undo log, which takes
them all, though they may be more than 256, since an MSAVE is performed in one step; the interval closes after it (spec/19 R358, R359;
DESIGN CHOICE, log 64). -/
def pairSave (s : State) (t off : Nat) (a : Word) (parts : List (Nat × List Byte)) : State :=
  match (s.tile t).pairing with
  | none => s
  | some p =>
    let ws : List (Nat × Word) := (parts.map fun e =>
      ((List.range (e.2.length / 8)).zip (firstWords (e.2.length / 8) e.2)).map fun x => (e.1 + 8 * x.1, x.2)).flatten
    let log := p.log ++ ws.map fun (e : Nat × Word) => (off + e.1, s.sliceWord t (off + e.1))
    s.modTile t fun u =>
      { u with pairing := some { p with
          log := log, closing := p.closing || 256 ≤ log.length } }.foldAll
        (ws.map fun (e : Nat × Word) => (a.toNat + e.1, e.2))

/-- MSAVE writes its parts (R266), all in one step (DESIGN CHOICE, log 93). -/
def saveParts (s : State) (t : Nat) (a : Word) (parts : Nat) : State :=
  let off := field a 20 0
  let ps := imageBytes (s.tile t).matrix parts
  ps.foldl (fun s e => s.putSlice t (off + e.1) e.2) (pairSave s t off a ps)

/-- FROZEN and the fault fields are cleared; a fault that the executing context has not taken is cancelled (R252). -/
def Matrix.thaw (m : Matrix) (w : Who) : Matrix :=
  let m := match w with
    | .img i => m.taken i
    | _ => m
  { m with frozen := false, fpc := 0, disc := 0, fcause := 0, fcol := 0, fmac := 0 }

/-- The configuration part of an image. -/
def restoreConfig (m : Matrix) (w : Who) (bs : List Byte) : Matrix :=
  let g (i : Nat) : Nat := (bs.getD i 0).toNat
  let m := { m with
    gs := g 0 % 4, eseq := g 0 / 16 % 16
    bty := Sparse.set .i8 (Sparse.set .i8 [] 0 (typeByte (bs.getD 8 0))) 1 (typeByte (bs.getD 9 0))
    chk := g 10 + 256 * g 11
    passes := Sparse.set 0 (Sparse.set 0 [] 0 (g 12 + 256 * g 13)) 1 (g 14 + 256 * g 15)
    rbty := (List.range 32).foldl (fun r e => Sparse.set .i8 r e (typeByte (bs.getD (16 + e) 0))) []
    za := putPart [] 0 (bs.drop 0x100 |>.take 256), zb := putPart [] 0 (bs.drop 0x200 |>.take 4096) }
  m.thaw w

/-- MRESTORE reads its parts (R266), all in one step (DESIGN CHOICE, log 93); none kills the husk. -/
def restoreParts (s : State) (t off parts : Nat) (w : Who) : Option State :=
  let step (o : Option State) (bit_ base words : Nat) (g : Matrix → List Byte → Matrix) : Option State :=
    match o with
    | none => none
    | some s => if parts.testBit bit_ then
        match matrixRead s t (off + base) words with
        | none => none
        | some (s, bs) => some (modMatrix s t fun m => g m bs)
      else some s
  let o := step (some s) 0 0 0x240 fun m bs => restoreConfig m w bs
  let o := step o 1 0x2000 0x800 fun m bs => { m with rb := putPart [] 0 bs }
  let o := step o 2 0x6000 0x2000 fun m bs => { m with cells := putPart [] 0 bs }
  step o 3 0x16000 0x4000 fun m bs => { m with
    acc := (List.range 16384).foldl (fun a i => Sparse.set 0 a i (BitVec.ofNat 48 (ofBytes ((bs.drop (8 * i)).take 6)))) [] }

/-- The level-0 context that a stream concerns (R267). -/
def Tile.under (u : Tile) (w : Who) : Option Nat :=
  match w with
  | .img i => some i
  | .lvl1 => u.cur0
  | .hnd => match u.hnd with
    | some h => (match h.of_ with
      | .img i => some i
      | _ => u.cur0)
    | none => u.cur0

/-- The matrix status word (spec/14 Table 6); QD counts the other instructions of the queue (log 23). -/
def matrixStatus (u : Tile) (w : Who) : Word :=
  let m := u.matrix
  let i := u.under w
  BitVec.ofNat 64 ((if m.frozen then 2 ^ 63 else 0) + (if m.owner.isSome && m.owner == i then 2 ^ 62 else 0)
    + (if m.owner.isSome && m.owner != i then 2 ^ 61 else 0) + (if i.any m.lost.getLsbD then 2 ^ 60 else 0)
    + m.fpc % 2 ^ 13 * 2 ^ 44 + m.disc % 16 * 2 ^ 40 + m.fcause % 256 * 2 ^ 32 + m.fcol % 256 * 2 ^ 24 + m.fmac % 2 * 2 ^ 23
    + m.sq.length % 32 * 2 ^ 16 + (m.queue.length - 1) % 16 * 2 ^ 12 + m.eseq % 16 * 2 ^ 8 + m.gs % 4)

/-- Release of the array by an MSAVE `.free` (R247), as it is performed (DEDUCED, log 95). -/
def Matrix.release (m : Matrix) (w : Who) : Matrix :=
  match w, m.owner with
  | .img i, _ => { m.noGang i with owner := none }
  | _, some i => { m.noGang i with owner := none, lost := m.lost ||| (1#8 <<< i) }
  | _, none => m

/-- Perform the head of the queue of a tile; `lead` are the rows of the gang's leader for MRBUF `.bc` (R259). -/
def performAlone (s : State) (t : Nat) (lead : Option (List (List Byte))) : State :=
  let m := (s.tile t).matrix
  match m.queue with
  | [] => s
  | q :: _ =>
    let done (s : State) : State := modMatrix s t fun m => { m with busy := true }
    let rbuf (f : Fields) : State :=
      match readRows s t q.a q.b (rowBytes f.ty) (rbufRows f) with
      | none => eccuKill s t
      | some (s, rows) => done (modMatrix s t fun m => installRows m f rows)
    match q.i with
    | .mcfg _ => done (modMatrix s t fun m =>
        { m with gs := field q.a 1 0, eseq := field q.a 7 4, acc := [], zb := [], za := [], passes := [] })
    | .mloadb f =>
      (match readRows s t q.a q.b 128 (loadbRows f) with
      | none => eccuKill s t
      | some (s, rows) => done (modMatrix s t fun m =>
        let mac := f.dest.toNat
        { m with
          bty := Sparse.set .i8 m.bty mac f.ty
          cells := ((List.range rows.length).zip rows).foldl (fun c e =>
            putPart c (mac * 32768 + 128 * (f.imm.toNat % 256 + e.1)) e.2) m.cells }))
    | .mrbuf f => rbuf f
    | .mrbufBc f => (match lead with
      | some rows => done (modMatrix s t fun m => installRows m f rows)
      | none => rbuf f)
    | .mloadz f => loadzStep s t q f
    | .mmul f => mmulStep s t q f
    | .mzeroAcc f => done (modMatrix s t fun m =>
        (List.range (f.imm.toNat / 8192 + 1)).foldl (fun m i => m.setAcc f.a.toNat (f.imm.toNat % 8192 + i) 0) m)
    | .mzeroZp _ => done (modMatrix s t fun m => { m with za := [], zb := [] })
    | .mdrain f => mdrainStep s t q f
    | .mdrainp f => mdrainpStep s t q f
    | .mchkcfg f => done (modMatrix s t fun m => { m with chk := f.imm.toNat, passes := [] })
    | .msave f => done (saveParts s t q.a f.imm.toNat)
    | .msaveFree f => done (modMatrix (saveParts s t q.a f.imm.toNat) t fun m => m.release q.who)
    | .mrestore f => (match restoreParts s t (field q.a 20 0) f.imm.toNat q.who with
      | none => eccuKill s t
      | some s => done s)
    | .mstat f => done (mqWrite s t q [(f.dest.toNat, matrixStatus (s.tile t) q.who)] 0)
    | .mstatClr f => done (modMatrix (mqWrite s t q [(f.dest.toNat, matrixStatus (s.tile t) q.who)] 0) t fun m => m.thaw q.who)
    | _ => s

/-- The follower of a pair performs the paired task's matrix instructions on its own core's array: `s` is the state before the leader's has
been performed, `s'` that after it. What it reads is what the leader reads, from the leader's slice where that is its own; its results and
stores enter its fingerprint alone (spec/19 R358, R359). -/
def performMate (s s' : State) (t : Nat) (lead : Option (List (List Byte))) : State :=
  match (s.tile t).matrix.queue, (s.tile t).pairing with
  | q :: _, some p =>
    let y := (performAlone (modMatrix s t fun _ => { (s.tile p.mate).matrix with queue := [q] }) t lead).tile t
    if !((s.tile t).paired q.who) then s'
    else (s'.modTile p.mate fun v =>
      { v with matrix := { y.matrix with queue := [], busy := false, owner := none, toTake := [], after := [], gangNext := 0 } }).modTile t
        fun u => { u with pairing := u.pairing.map fun r => { r with mateFp := (y.pairing.map (·.mateFp)).getD r.mateFp } }
  | _, _ => s'

/-- Perform the head of the queue, in a pair on both cores. -/
def performHead (s : State) (t : Nat) (lead : Option (List (List Byte))) : State := performMate s (performAlone s t lead) t lead

/-- The head can be performed, whatever stream the core runs: it has not been, it is no MGANG, an MLOADZ finds a descriptor (R249). -/
def Tile.headReady (u : Tile) : Bool :=
  match u.matrix.queue with
  | [] => false
  | q :: _ => !u.matrix.busy && (match q.i with
    | .mgang _ => false
    | .mloadz _ => q.gang || !u.matrix.sq.isEmpty
    | _ => true)

/-- The tiles of the gang of the task at the head of a tile's queue, in member order (spec/09 R151). -/
def gangTiles (s : State) (t : Nat) : List Nat :=
  match (s.tile t).matrix.queue with
  | [] => []
  | q :: _ =>
    let k := (s.tile t).task q.who
    (List.range k.gangWidth).map fun j => t - k.gangMember + j

/-- The head of the queue at m is one of the gang of the task at the head of the queue at t. -/
def sameGang (s : State) (t m : Nat) : Bool :=
  match (s.tile t).matrix.queue, (s.tile m).matrix.queue with
  | q :: _, r :: _ => ((s.tile t).task q.who).gid == ((s.tile m).task r.who).gid
    && ((s.tile t).task q.who).gangWidth == ((s.tile m).task r.who).gangWidth
  | _, _ => false

/-- A gang-issued instruction that waits for its gang. -/
def Tile.gangHead (u : Tile) : Bool :=
  match u.matrix.queue with
  | q :: _ => q.gang
  | [] => false

/-- An MGANG stands at the head of the queue. -/
def Tile.atBarrier (u : Tile) : Bool :=
  match u.matrix.queue with
  | q :: _ => q.isGang
  | [] => false

/-- The gang-issued instruction at the head has been issued and can start: one that is itself an MGANG starts by standing at the barrier
(R254). -/
def Tile.gangReady (u : Tile) : Bool := u.gangHead && (u.headReady || u.atBarrier)

/-- The instruction at the head has been started with its gang. -/
def clearGang (s : State) (t : Nat) : State :=
  modMatrix s t fun m => match m.queue with
    | q :: r => { m with queue := { q with gang := false } :: r }
    | [] => m

/-- Member m starts with its gang: an MLOADZ still has its descriptors to wait for, an MGANG its barrier. -/
def gangStart (s : State) (m : Nat) (lead : Option (Fields × List (List Byte))) : State :=
  let s := clearGang s m
  match (s.tile m).matrix.queue with
  | q :: _ => (match q.i, lead with
    | .mloadz _, _ | .mgang _, _ => s
    | .mrbufBc f, some (g, rows) => performHead s m (if rbufRows f = rbufRows g then some rows else none)
    | _, _ => performHead s m none)
  | [] => s

/-- The rows that the leader broadcasts. -/
def leaderRows (s : State) (t : Nat) : Option (Fields × List (List Byte)) :=
  match (s.tile t).matrix.queue with
  | q :: _ => (match q.i with
    | .mrbufBc f => (readRows s t q.a q.b (rowBytes f.ty) (rbufRows f)).map fun r => (f, r.2)
    | _ => none)
  | [] => none

/-- The array performs the instruction at the head of its queue; a gang-issued one starts on every member together, at the
leader's event (R249, R254). -/
def execMatrixQueuePerform (s : State) : Host.Outcome State Fault Refusal :=
  let t := s.cur
  if (s.tile t).gangHead then
    let ms := gangTiles s t
    if ms.head? = some t && ms.all fun m => (s.tile m).gangReady && sameGang s t m then
      let lead := leaderRows s t
      .next ((ms.drop 1).foldl (fun s m => gangStart s m lead) (gangStart s t none))
    else .refused .notPending
  else if (s.tile t).headReady then .next (performHead s t none)
  else .refused .notPending

/-- The head of the queue has completed: it leaves the queue and lowers its counter (R249). -/
def execMatrixInstructionCompletion (s : State) : Host.Outcome State Fault Refusal :=
  let t := s.cur
  let u := s.tile t
  match u.matrix.queue with
  | [] => .refused .notPending
  | q :: r =>
    if !u.matrix.busy || u.out.any (fun o => o.tag = q.tag) then .refused .notPending
    else .next (wakeWaiting (s.setTile t ({ u with matrix := { u.matrix with queue := r, busy := false } }.apply q.who q.tag
      fun k => k.lower q.lower)) t)

/-- A peer add (R255). -/
def execPeerAddArrival (s : State) : Host.Outcome State Fault Refusal :=
  match arrived s s.sel with
  | some p =>
    match p.body with
    | .peerAdd mac i v =>
      .next ((modMatrix (s.drop s.sel) p.dst fun m => m.setAcc mac i (m.accAt mac i + v)).send
        (mkPacket p.dst p.src p.tag none (.reply .done)))
    | _ => .refused .notPending
  | none => .refused .notPending

/-- Every member of the gang has arrived: each MGANG completes, and the next instruction of each is gang-issued (R254). -/
def execGangBarrierComplete (s : State) : Host.Outcome State Fault Refusal :=
  let t := s.cur
  let ms := gangTiles s t
  if (s.tile t).atBarrier && ms.head? = some t && ms.all fun m => (s.tile m).atBarrier && sameGang s t m then
    .next (ms.foldl (fun s m =>
      let u := s.tile m
      match u.matrix.queue with
      | q :: r => wakeWaiting (s.setTile m ({ u with matrix := { u.matrix with queue := r }.gangOver q.who r }.apply q.who q.tag
          fun k => k.lower q.lower)) m
      | [] => s) s)
  else .refused .notPending

end Sys2Proof.Machine
end

