-- ==== Sys2Proof/Machine/System.lean ====
section
/-!
DEFINITION. The system instructions: traps and their return, the floating fence, control registers, EVICT, pair coupling, digests,
HUSKCFG, with the events of pairs and evictions (spec/18 R332 to R350, spec/19 R356 to R366, spec/20 R378, R379).
-/

namespace Sys2Proof.Machine

open Sys2Proof

/-! ### TRAP, BRKPT, TRET, TFENCE (spec/18 R346 to R348) -/

/-- TRAP is performed: it retires, in a forwarded gang as the leader's next slot, and then the handler is entered with the next slot as
the saved PC. -/
def trapBody (sup : Bool) (x : In) (s : State) : Body.Out :=
  let u := s.tile x.t
  if !u.settled x.w then .error (.hold none)
  else if u.pairOpen then .error .close
  else
    let s := retire s x.t x.w x.f 1 (u.task x.w).mwo true .next
    .ok (takeTrap s x.t (.trap (BitVec.ofNat 8 x.f.imm.toNat)) (nextPc x.pc) x.a false false false sup, .gone)

def execTrap (f : Fields) (s : State) : Host.Outcome State Fault Refusal := issue (.trap f) (formTrap 0) f (trapBody false) s
def execTrapS (f : Fields) (s : State) : Host.Outcome State Fault Refusal := issue (.trapS f) (formTrap 1) f (trapBody true) s

def execBrkpt (f : Fields) (s : State) : Host.Outcome State Fault Refusal :=
  issue (.brkpt f) formBrkpt f (fun x _ => trapAt .brkpt (x.f.imm.setWidth 64)) s

/-- TRET (R347). -/
def tretBody (x : In) (s : State) : Body.Out :=
  let u := s.tile x.t
  match x.w, u.hnd with
  | .hnd, some h =>
    let s' := s.modTile x.t fun u => u.payIssue x.f.stall.toNat
    if bit h.ecause 8 then
      (if pcOk h.hepc then .ok (continueHandler s' x.t, .gone) else .ok (eccuKill s x.t, .gone))
    else if tstatReserved h.estat then trapAt .badstat 0
    else if !pcOk h.epc then trapAt .badtgt h.epc
    else if u.pairOpen then .error .close
    else .ok (returnTrap s' x.t, .gone)
  | _, _ => trapAt .tretout 0

def execTret (f : Fields) (s : State) : Host.Outcome State Fault Refusal := issue (.tret f) formTret f tretBody s

def execTfence (f : Fields) (s : State) : Host.Outcome State Fault Refusal :=
  issue (.tfence f) formTfence f (fun x s =>
    let v := ((s.tile x.t).task x.w).sticky &&& BitVec.ofNat 64 (x.f.imm.toNat % 256)
    if v = 0 then goOn s else trapAt .arith v) s

/-! ### GETS, SETS (spec/18 R340, R349) -/

/-- The `sticky` of the interrupted context is reached once its earlier instructions have raised their flags (spec/11 R188). -/
def stickyHold (s : State) (x : In) (h : Handler) : Except Stop Unit :=
  if (s.tile x.t).flagsOpen h.of_ then .error (.hold none) else .ok ()

/-- The active handler, which class H asks for. -/
def handlerOf (s : State) (x : In) : Except Stop Handler :=
  match x.w, (s.tile x.t).hnd with
  | .hnd, some h => .ok h
  | _, _ => trapAt .illeg 0

/-- Supervisor mode, which class S asks for. -/
def needSup (s : State) (x : In) : Except Stop Unit :=
  need (((s.tile x.t).task x.w).sup) .priv ((s.tile x.t).openAddr x.t)

/-- A tg register that the interrupted context has. -/
def needTg (h : Handler) (n : Nat) : Except Stop Unit :=
  need (match h.of_ with
    | .img _ => true
    | _ => n < 16) .illeg 0

/-- The control register of a number, with its class check (Table 4). -/
def getControl (s : State) (x : In) (n : Nat) : Except Stop Word := do
  let u := s.tile x.t
  match n with
  | 0x000 => return u.tvec
  | 0x001 => do
    needSup s x
    return u.svec
  | 0x002 => return (← handlerOf s x).epc
  | 0x003 => return (← handlerOf s x).estat
  | 0x004 => return (← handlerOf s x).ecause
  | 0x005 => return (← handlerOf s x).eaddr
  | 0x006 => return (← handlerOf s x).hepc
  | 0x007 => do
    needSup s x
    return BitVec.ofNat 64 (max 4096 u.slice)
  | 0x008 => return BitVec.ofNat 64 (if u.cur0.isSome then u.lim - u.used else 0)
  | 0x009 => do
    needSup s x
    return BitVec.ofNat 64 (u.ctxbase * 1024)
  | 0x140 => return (u.task (← handlerOf s x).of_).p.setWidth 64
  | 0x141 => return (u.task (← handlerOf s x).of_).it.setWidth 64
  | 0x142 => return (u.task (← handlerOf s x).of_).ret
  | 0x143 => do
    let h ← handlerOf s x
    stickyHold s x h
    return (u.task h.of_).sticky
  | n => do
    need (0x100 ≤ n && n ≤ 0x13F) .illeg 0
    let h ← handlerOf s x
    needTg h (n - 0x100)
    return (u.task h.of_).getG (n - 0x100)

/-- A register of the core itself, which the follower of a pair has as its own (spec/19 R358); the others are the context's. -/
def coreControl (n : Nat) (u : Tile) : Word :=
  match n with
  | 0x000 => u.tvec
  | 0x001 => u.svec
  | 0x007 => BitVec.ofNat 64 (max 4096 u.slice)
  | _ => BitVec.ofNat 64 (u.ctxbase * 1024)

def execGets (f : Fields) (s : State) : Host.Outcome State Fault Refusal :=
  issue (.gets f) formGets f (fun x s => do
    let v ← getControl s x x.f.imm.toNat
    let n := x.f.imm.toNat
    let r := resultW x s 1 v 0
    goOn (if n == 0x000 || n == 0x001 || n == 0x007 || n == 0x009 then mateReads r x (coreControl n) else r)) s

/-- Change the active handler. -/
def modHandler (s : State) (t : Nat) (g : Handler → Handler) : State := s.modTile t fun u => { u with hnd := u.hnd.map g }

/-- The writes of SETS that have no constructor of their own; a load that is still to write the register writes over it (DESIGN
CHOICE, log 102). -/
def setControl (s : State) (x : In) (n : Nat) : Except Stop State := do
  let h ← handlerOf s x
  let to_ (g : Task → Task) : State := s.modTile x.t fun u => u.modTask h.of_ g
  match n with
  | 0x002 => return modHandler s x.t fun h => { h with epc := x.a }
  | 0x006 => return modHandler s x.t fun h => { h with hepc := x.a }
  | 0x140 => return to_ fun k => { k with p := x.a.setWidth 7 }
  | 0x141 => return to_ fun k => { k with it := x.a.setWidth 32 }
  | 0x142 => return to_ fun k => { k with ret := x.a }
  | 0x143 => do
    stickyHold s x h
    return to_ fun k => { k with sticky := x.a &&& 0xFF }
  | n => do
    need (0x100 ≤ n && n ≤ 0x13F) .illeg 0
    needTg h (n - 0x100)
    return to_ fun k => k.setG (n - 0x100) x.a

/-- SETS of the registers epc, hepc, tg, tpred, tit, tret and tsticky; every other number is read-only or unlisted. -/
def execSets (f : Fields) (s : State) : Host.Outcome State Fault Refusal :=
  issue (.sets f) formSets f (fun x s => do
    let s ← setControl s x x.f.imm.toNat
    goOn (emit s x 1 [] 0)) s

/-- A vector value: EN and a handler PC. -/
def vectorOk (v : Word) : Bool := field v 62 13 == 0 && field v 2 0 ≤ 4

def execSetsTvec (f : Fields) (s : State) : Host.Outcome State Fault Refusal :=
  issue (.setsTvec f) formSets f (fun x s => do
    need (vectorOk x.a) .illeg 0
    goOn (emit (setCore s x fun u => { u with tvec := x.a }) x 1 [] 0)) s

def execSetsSvec (f : Fields) (s : State) : Host.Outcome State Fault Refusal :=
  issue (.setsSvec f) formSets f (fun x s => do
    needSup s x
    need (vectorOk x.a) .illeg 0
    goOn (emit (setCore s x fun u => { u with svec := x.a }) x 1 [] 0)) s

def execSetsSlice (f : Fields) (s : State) : Host.Outcome State Fault Refusal :=
  issue (.setsSlice f) formSets f (fun x s => do
    needSup s x
    need (field x.a 63 21 == 0) .illeg 0
    goOn (emit (setCore s x fun u => { u with slice := x.a.toNat }) x 1 [] 0)) s

/-- SETS ctxbase: while no context of the core holds an image; the area lies in the slice and meets no attribute entry. -/
def execSetsCtxbase (f : Fields) (s : State) : Host.Outcome State Fault Refusal :=
  issue (.setsCtxbase f) formSets f (fun x s => do
    needSup s x
    let u := s.tile x.t
    need (field x.a 63 21 == 0 && field x.a 9 0 == 0) .illeg 0
    need (x.a.toNat + 24576 ≤ 2 ^ 21) .illeg 0
    need (!u.touches (fun _ => true) x.a.toNat 24576) .illeg 0
    need ((List.range 8).all fun i => (u.ctx i).st == .free) .illeg 0
    goOn (emit (s.modTile x.t fun u => { u with ctxbase := x.a.toNat / 1024 }) x 1 [] 0)) s

/-- SETS estat: in tenant mode SUP, LVL, DET and BST keep their values. -/
def execSetsEstat (f : Fields) (s : State) : Host.Outcome State Fault Refusal :=
  issue (.setsEstat f) formSets f (fun x s => do
    let h ← handlerOf s x
    let v := if h.task.sup then x.a else setField x.a 47 44 (field h.estat 47 44)
    goOn (emit (modHandler s x.t fun h => { h with estat := v }) x 1 [] 0)) s

/-! ### Pair coupling (spec/19 R358 to R360, R365, R366) -/

/-- PAIR. A HUSKBND there has no address (log 5). -/
def execPair (f : Fields) (s : State) : Host.Outcome State Fault Refusal :=
  issue (.pair f) formPair f (fun x s => do
    match x.img, s.huskOfTile x.t with
    | some i, some (_, h) =>
      let u := s.tile x.t
      let hx := tileX x.t - h.col0
      need (!(u.task x.w).fwd && !(u.ctx i).boost.active && hx % 2 == 0) .illeg 0
      need (hx + 1 < h.width) .huskbnd (u.openAddr x.t)
      let m := x.t + 1
      let v := s.tile m
      if u.pairing.isSome then resultLater x s 2
      else if v.pairing.isSome || v.follows.isSome || !v.ready.isEmpty || (List.range 8).any fun j => (v.ctx j).st != .free
      then resultLater x s 1
      else
        let (s, _) ← resultLater x s 0
        let s := countRetired s x.t x.w (u.task x.w).mwo
        let k := { (s.tile x.t).task x.w with pc := nextPc x.pc, mid := x.pc.toNat % 8 != 4 }
        let s := (s.modTile x.t fun u => { u with
          pairing := some { mate := m, img := i, k := x.f.imm.toNat, at_ := x.w, check := k, base := u.seq } }).modTile m fun v =>
            { v.setCtx 0 { u.ctx i with task := k } with follows := some x.t }
        return (advance s x.t x.w x.f 1 .next, .gone)
    | _, _ => trapAt .illeg 0) s

/-- UNPAIR: the interval has closed before it issues. -/
def execUnpair (f : Fields) (s : State) : Host.Outcome State Fault Refusal :=
  issue (.unpair f) formUnpair f (fun x s =>
    let mine := (s.tile x.t).pairing.any fun p => x.w = .img p.img
    goOn (emit (if mine then endPair s x.t else s) x 1 [] 0)) s

/-- The interval agrees: the remote buffer goes out in order, the log is cleared, both contexts are checkpointed. -/
def agreePair (s : State) (t : Nat) : State :=
  let s := s.modTile t fun u => { u with pairing := u.pairing.map fun p =>
    { p with count := 0, fp := 0, mateFp := 0, log := [], buf := [], rerun := false, closing := false } }
  recheck { s with egress := s.egress.map fun e => if e.src = t then { e with held := false } else e } t

/-- What a rolled-back interval had sent is forgotten: counts, the epochs that its flags had begun (spec/26 R396), units, operations and
the held packets. -/
def forgetInterval (s : State) (t : Nat) (p : Pairing) : State :=
  let own (q : Packet) : Bool := q.src = t && q.dst = t && q.remote.isNone && p.base ≤ q.tag && (match q.body with
    | .flag _ _ _ _ _ _ => true
    | _ => false)
  let held := (s.net.filter fun q => p.buf.flatten.contains q.id || own q) ++ s.heldFlags.filter own
  let gone := s.egress.filter fun e => e.src = t && e.held
  let s := s.modTile t fun u =>
    let u := held.foldl (fun u q => match q.body with
      | .flag _ _ _ _ _ _ => (u.sentLess (q.dst * 8 + q.path)).sentLess (2 ^ 24 + q.dst)
      | _ => if q.counted then u.sentLess (q.dst * 8 + q.path) else u) u
    let u := gone.foldl Tile.unsend u
    let lost := u.out.filter fun o => o.who = p.at_ && p.base ≤ o.tag
    let u := lost.foldl (fun u o => if o.units = 0 then u else u.setAllow o.al (min 32 (u.allow o.al + o.units))) u
    { u with
      out := u.out.filter fun o => !(o.who = p.at_ && p.base ≤ o.tag)
      reduction := u.reduction.filter fun j => !(j.who = p.at_ && p.base ≤ j.tag) }
  { s with
    net := s.net.filter fun q => !(p.buf.flatten.contains q.id || own q)
    heldFlags := s.heldFlags.filter fun q => !(own q)
    egress := s.egress.filter fun e => !(e.src = t && e.held) }

/-- The interval disagrees: the logged words are restored in reverse order, as stores, which mark their lines (R356) and leave good
codewords, and the stream resumes from its checkpoint. R360 does not say whether the read of an old word for the log consumes it, nor what
its return does to the codeword (DESIGN CHOICE, log 111). -/
def rollBack (s : State) (t : Nat) (p : Pairing) : State :=
  let s := p.log.reverse.foldl (fun s e => s.putSlice t e.1 (bytesOf e.2.toNat 8)) s
  let s := forgetInterval s t p
  s.modTile t fun u =>
    let done := match p.at_ with
      | .img i => (u.ctx i).waitDone
      | _ => false
    let u := { u.payPair with
      pend := [], line := none, pairNext := false, checkTo := false, held := false
      atLine := !(p.check.mid && p.check.pc.toNat % 8 ≠ 0) }
    let u := u.modTask p.at_ fun k =>
      { p.check with late := k.late.filter fun l => l.order < p.base, ret := if done then k.ret else p.check.ret }
    let u := match p.at_ with
      | .img i => u.setCtx i { u.ctx i with boost := p.checkBoost }
      | _ => u
    { u with pairing := some { p with count := 0, fp := 0, mateFp := 0, log := [], buf := [], rerun := true, closing := false } }

/-- The pair stands at the end of an interval with every result written: it can compare, between the two members of an instruction pair
too, the second of which may be the one that asks for the close (spec/10 R164). -/
def Tile.canClose (u : Tile) : Bool :=
  match u.pairing, u.active with
  | some p, some w => p.closing && u.settled w && u.divider.isNone && !(u.matrix.queue.any fun q => q.who = w)
  | _, _ => false

/-- The follower's fingerprint at the close: that of the same results and stores; or a free word, where an error of either core or a
value drawn from `cyc` has made them differ, which is left to a choice (log 25). -/
def mateFingerprint (s : State) (p : Pairing) : State × Word :=
  let (c, s) := s.choose
  if c % 2 = 0 then (s, p.mateFp)
  else
    let (v, s) := s.freeVal
    (s, v)

/-- The close of an interval: the two fingerprints are compared. -/
def execPairIntervalClose (s : State) : Host.Outcome State Fault Refusal :=
  let t := s.cur
  if !(s.tile t).canClose then .refused .notPending
  else
    let s := s.modTile t Tile.flush
    match (s.tile t).pairing with
    | none => .refused .notPending
    | some p =>
      let (s, m) := mateFingerprint s p
      if p.fp = m then .next (agreePair s t)
      else
        let s := rollBack s t p
        if p.rerun then .next (takeTrap (endPair s t) t .pairfail p.check.pc 0 false false false false) else .next s

/-! ### DIGEST (spec/19 R356, R357, R364) -/

/-- The marked lines of a husk: tile and byte offset. -/
def markedLines (s : State) (h : Husk) : List (Nat × Nat) :=
  (h.tiles.map fun t =>
    (s.marked.filter fun e => e.1 / 2 ^ 15 = t && e.2).map fun e => (t, e.1 % 2 ^ 15 * 64)).flatten

/-- The first eight bytes of a digest, read little-endian: its top bytes, the first one lowest. -/
def digestHead (d : BitVec 256) : Word :=
  BitVec.ofNat 64 (ofBytes ((List.range 8).map fun i => d.extractLsb' (248 - 8 * i) 8))

/-- H(A, D). -/
def lineDigest (a : Word) (bs : List Byte) : Word := digestHead (sm3 (bytesOf a.toNat 8 ++ bs))

/-- DIGEST reads the marked lines of the husk. -/
def execDigest (f : Fields) (s : State) : Host.Outcome State Fault Refusal :=
  issue (.digest f) formDigest f (fun x s => do
    ackHold s x true true
    match s.huskOfTile x.t with
    | none => trapAt .illeg 0
    | some (_, h) =>
      let ls := markedLines s h
      match ls.find? fun e => s.consumesBad e.1 e.2 64 with
      | some e => return (eccuKill s e.1, .gone)
      | none =>
        let (s, v) := ls.foldl (fun (r : State × Word) e =>
          let s := r.1.correct e.1 e.2 8
          let (s, ws) := readWords s e.1 e.2 8
          let a : Word := BitVec.ofNat 64 ((tileY e.1 - h.row0) * 2 ^ 27 + (tileX e.1 - h.col0) * 2 ^ 21 + e.2)
          (s, r.2 + lineDigest a (wordsBytes ws))) (s, 0)
        resultLater x s v) s

/-- DIGEST `.clr` clears every bitmap of the husk. -/
def execDigestClr (f : Fields) (s : State) : Host.Outcome State Fault Refusal :=
  issue (.digestClr f) formDigestClr f (fun x s => do
    ackHold s x true true
    match s.huskOfTile x.t with
    | none => trapAt .illeg 0
    | some (_, h) =>
      goOn (emit { s with marked := s.marked.filter fun e => !(h.tiles.contains (e.1 / 2 ^ 15)) } x 1 [] 0)) s

/-! ### EVICT (spec/18 R342 to R344, R350) -/

/-- Bytes of a husk's save record. -/
def Husk.recordLen (h : Husk) : Nat := 65536 + 4194304 * (h.width * h.height)

/-- Translate the pages of a record for a tenant: their keys, or none where one is not readable or writable (log 104). -/
def recordKeys (s : State) (tenant : Nat) (a : Word) (n : Nat) (write : Bool) : State × Option (List Nat) :=
  if regionOf a != 0x10 || !mustBeZero a || a.toNat % 65536 != 0 || 2 ^ 48 < field a 47 0 + n then (s, none)
  else
    (List.range (n / 4096)).foldl (fun (r : State × Option (List Nat)) i =>
      match r.2 with
      | none => r
      | some ks =>
        match translate r.1 tenant (field a 47 0 + 4096 * i) with
        | (s, some l) => (s, if (if write then l.wr else l.rd) then some (ks ++ [l.key]) else none)
        | (s, none) => (s, none)) (s, some [])

/-- The bytes of a record. -/
def recordBytes (s : State) (ks : List Nat) : List Byte := (ks.map fun k => getBytes s k 4096).flatten

/-- Write a record: the spec does not give its layout down to the byte, so its bytes are free values (log 8). -/
def writeRecord (s : State) (ks : List Nat) : State :=
  ks.foldl (fun s k =>
    { s.putFar k ((List.range 512).map fun i => bytesOf (Config.freeWord (s.fresh + i)).toNat 8).flatten with
      fresh := s.fresh + 512 }) s

/-- Some cell of the husk's rectangle is out of the mesh. -/
def leavesMesh (col row w h : Nat) : Bool := 48 < col + w || 48 < row + h

/-- The rectangle overlaps another husk that holds its cores. -/
def overlaps (s : State) (n : Nat) (h : Husk) : Bool :=
  s.husks.any fun e => e.1 != n && match e.2 with
    | some g => g.holds && g.col0 < h.col0 + h.width && h.col0 < g.col0 + g.width
        && g.row0 < h.row0 + h.height && h.row0 < g.row0 + g.height
    | none => false

/-- The rectangle contains a fenced tile. -/
def hasFenced (s : State) (h : Husk) : Bool := h.tiles.any fun t => Sparse.get false s.fenced t

/-- A result word that goes to the instruction's destination. -/
def evictWord (tiles result : Nat) : Word := BitVec.ofNat 64 (tiles * 2 ^ 32 + result)

/-- The operation of an EVICT is outstanding until its husk's job is over. -/
def startJob (s : State) (x : In) (n : Nat) (h : Husk) (st : HuskState) (ks : List Nat) : Body.Out :=
  let s := addOut s x { tag := 0, who := x.w, kind := .other, dst := .word x.f.dest.toNat, slow := true }
  goOn (s.setHusk n (some { h with st := st, job := some { agent := x.t, tag := x.seq, keys := ks } }))

def execEvict (f : Fields) (s : State) : Host.Outcome State Fault Refusal :=
  issue (.evict f) (formEvict 0) f (fun x s => do
    need (field x.a 63 8 == 0) .illeg 0
    let n := x.a.toNat
    match s.husk n, s.tenantOf x.t with
    | none, _ | _, none => resultLater x s (evictWord 0 1)
    | some h, some me =>
      if me = n || h.st != .running then resultLater x s (evictWord 0 2)
      else match recordKeys s me x.b h.recordLen true with
        | (s, none) => resultLater x s (evictWord 0 3)
        | (s, some ks) => startJob s x n h .stopping ks) s

/-- EVICT's restore form; the issuing husk consumes the record that it reads (spec/20 R374). -/
def execEvictRestore (f : Fields) (s : State) : Host.Outcome State Fault Refusal :=
  issue (.evictRestore f) (formEvict 1) f (fun x s => do
    need (field x.a 63 8 == 0) .illeg 0
    let n := x.a.toNat
    match s.husk n, s.tenantOf x.t with
    | none, _ | _, none => resultLater x s (evictWord 0 1)
    | some h, some me =>
      if me = n || h.st != .evicted then resultLater x s (evictWord 0 2)
      else match recordKeys s me x.b h.recordLen false with
        | (s, none) => resultLater x s (evictWord 0 3)
        | (s, some ks) =>
          if leavesMesh h.col0 h.row0 h.width h.height || overlaps s n h || hasFenced s h then resultLater x s (evictWord 0 4)
          else if ks.any fun k => s.farBad k 4096 then return (eccuKill s x.t, .gone)
          else if h.digest != some (sm3 (recordBytes s ks)) then resultLater x s (evictWord 0 5)
          else startJob s x n h .restoring ks) s

/-- A core has stopped: nothing runs, or its stream stands at a line boundary or is held, with its statuses in and its matrix
instructions settled; a pair's interval is closed. -/
def Tile.atStop (u : Tile) : Bool :=
  u.matrix.queue.isEmpty && !u.pairOpen && (match u.active with
    | none => true
    | some w => (u.atLine || u.halted) && u.noStatus w)

/-- STOPPING ends when every core has stopped; `sel` is the husk. A pair that has not closed its interval is asked to. -/
def execEvictStopped (s : State) : Host.Outcome State Fault Refusal :=
  match s.husk s.sel with
  | some h =>
    if h.st != .stopping then .refused .notPending
    else if h.tiles.all fun t => (s.tile t).atStop then
      .next ((h.tiles.foldl (fun s t => s.modTile t Tile.flush) s).setHusk s.sel (some { h with st := .draining }))
    else if h.tiles.any fun t => (s.tile t).pairing.any fun p => p.count != 0 && !p.closing then
      .next (h.tiles.foldl (fun s t => s.modTile t fun u =>
        if u.pairing.any fun p => p.count != 0 then u.wantClose else u) s)
    else .refused .notPending
  | none => .refused .notPending

/-- The operation may still be outstanding when a husk has drained: a load, an access that is still parked, and what waits inside the husk
for something that its stopped cores or the scheduler would have to do, and is saved with it: a declaration, a message of a window that
has parked, a request that its destination has refused (spec/18 R343). -/
def Outst.mayRemain (o : Outst) (s : State) (t : Nat) : Bool :=
  let asks := o.kind == .other || o.kind == .request
  o.kind == .load || o.stillParked s t || (asks && o.parked)
    || ((asks || o.kind == .fullEmpty) && s.net.any fun p => p.src = t && p.tag = o.tag && p.refused)

/-- Nothing is outstanding but that, for any core of the husk, its copies and its request programs, and no decrement is on its way to a
core of it (spec/18 R342, R343). -/
def huskDrained (s : State) (n : Nat) (h : Husk) : Bool :=
  h.tiles.all (fun t => ((s.tile t).out.all fun o => o.mayRemain s t) && (s.tile t).divider.isNone && (s.tile t).reduction.isNone
      && (s.tile t).seta.isNone)
    && !(s.net.any fun p => h.tiles.contains p.src && numTiles ≤ p.dst && p.dst != schedDst)
    && !(s.net.any fun p => h.tiles.contains p.dst && match p.body with
      | .wkdec _ _ _ _ => true
      | _ => false)
    && !(s.channels.any fun e => e.2.active.any (fun x => x.tenant = n) || e.2.shadow.any fun x => x.tenant = n)
    && !(s.mcs.any fun e => e.2.any fun x => x.tenant = n && (x.run.isSome || !x.queue.isEmpty))
    && !(s.husks.any fun e => e.2.any fun g => g.job.any fun j => e.1 != n && h.tiles.contains j.agent)
    && !(s.heldFlags.any fun p => h.tiles.contains p.dst && p.remote.isNone)

/-- The generations of every context increase (R342). -/
def Tile.nextGens (u : Tile) : Tile :=
  { u with gens := (List.range 8).foldl (fun g i => Sparse.set 0 g i ((Sparse.get 0 g i + 1) % 2 ^ 32)) u.gens }

/-- DRAINING ends: what the husk's own tasks have parked at its homes is dropped, the generations increase. -/
def execEvictDrained (s : State) : Host.Outcome State Fault Refusal :=
  match s.husk s.sel with
  | some h =>
    if h.st != .draining || !huskDrained s s.sel h then .refused .notPending
    else
      let s := h.tiles.foldl (fun s t => s.modTile t fun u =>
        { u.nextGens with waiters := u.waiters.filter fun w => match w.asker with
          | .remote _ _ _ => true
          | _ => false }) s
      .next (s.setHusk s.sel (some { h with st := .saving }))
  | none => .refused .notPending

/-- The part of a table from `lo` to `hi`, numbered from its start, and its return to another place. -/
def cut {α : Type} (m : Sparse α) (lo hi : Nat) : Sparse α := (m.filter fun e => lo ≤ e.1 && e.1 < hi).map fun e => (e.1 - lo, e.2)
def paste {α : Type} [DecidableEq α] (d : α) (m : Sparse α) (lo hi : Nat) (part : Sparse α) : Sparse α :=
  part.foldl (fun m e => Sparse.set d m (lo + e.1) e.2) (Sparse.clearRange m lo hi)

/-- The same of the byte memory, whose map ends at `memEnd`. -/
def pasteMem (m : List Host.Cell) (lo hi : Nat) (part : List Host.Cell) : List Host.Cell :=
  part.foldl (fun m e => setByteMem m (lo + e.1) e.2) (Sparse.clearRange m lo hi)

/-- The open epochs of a core towards its own package that a faulting store has poisoned: the destination, the cause and the address. -/
def poisonOf (s : State) (t : Nat) : List (Nat × Cause × Word) :=
  s.epochs.filterMap fun e =>
    let d := e.1 / 2 ^ 16 % 2 ^ 16
    if e.1 / 2 ^ 32 = t && e.1 % 2 ^ 16 = (s.tile t).epochTo d then e.2.map fun y => (d, y.1, y.2) else none

/-- What is saved of a tile. -/
def saveTile (s : State) (t : Nat) : SavedTile :=
  { old := t, rec_ := s.tile t
    slice := cut s.mem (sliceKey t 0) (sliceKey (t + 1) 0), code := cut s.mem (istoreKey t 0) (istoreKey t 0 + 65536)
    empt := cut s.empt (wordKey t 0) (wordKey (t + 1) 0), ecc := cut s.ecc (wordKey t 0) (wordKey (t + 1) 0)
    side := cut s.side (lineKey t 0) (lineKey (t + 1) 0), marked := cut s.marked (lineKey t 0) (lineKey (t + 1) 0)
    poison := poisonOf s t }

/-- A packet that the restore's re-issue replaces: a load or an access of a full/empty word, or an answer to one. -/
def replaced (s : State) (p : Packet) : Bool :=
  let again (t tag : Nat) : Bool := (s.tile t).out.any fun o => o.tag = tag && o.op.isSome && (o.kind == .load || o.parkedOp)
  p.remote.isNone && (match p.body with
    | .access _ _ _ _ => again p.src p.tag
    | .reply _ => again p.dst p.tag
    | _ => false)

/-- SAVING ends: the record is written and the cores are free. -/
def execEvictSaved (s : State) : Host.Outcome State Fault Refusal :=
  match s.husk s.sel with
  | some h =>
    match h.job with
    | some j =>
      if h.st != .saving then .refused .notPending
      else
        let n := s.sel
        let inside (p : Packet) : Bool := h.tiles.contains p.dst || (h.tiles.contains p.src && p.dst = schedDst)
        let x : Saved :=
          { tenant := n, tiles := h.tiles.map (saveTile s), cohorts := s.cohorts.filter fun (c : Cohort) => c.tenant = n
            net := s.net.filter fun (p : Packet) => inside p && !replaced s p
            flags := s.heldFlags.filter fun (p : Packet) => h.tiles.contains p.dst
            groups := s.groups.filter fun e => e.1 % 256 = n
            peers := s.peers.filter fun e => e.2.any fun (p : Peer) => p.husk = n
            wins := s.hostWins.filter fun e => e.1 / 16 = n }
        let s := writeRecord s j.keys
        let digest := sm3 (recordBytes s j.keys)
        let s := { s with
          saved := s.saved ++ [x], cohorts := s.cohorts.filter fun (c : Cohort) => c.tenant != n
          net := s.net.filter fun (p : Packet) => !inside p
          slots := s.slots.filter fun e => match e.2 with
            | some y => y.tenant != n
            | none => false }
        let s := resetHusk s h
        .next ((s.setHusk n (some { h with st := .evicted, digest := some digest, job := none })).send
          (mkPacket schedDst j.agent j.tag none (.reply (.data [evictWord (h.width * h.height) 0] 0))))
    | none => .refused .notPending
  | none => .refused .notPending

/-! ### Restore -/

/-- The number of a tile after the move: `at_` lists the saved tiles' old and new numbers. -/
def moved (at_ : List (Nat × Nat)) (t : Nat) : Nat :=
  match at_.find? fun e => e.1 = t with
  | some e => e.2
  | none => t

def Grant.move (at_ : List (Nat × Nat)) (g : Grant) : Grant := { g with dest := moved at_ g.dest, home := moved at_ g.home }
def Msg.move (at_ : List (Nat × Nat)) (m : Msg) : Msg := { m with agent := moved at_ m.agent }
def moveKeys {α : Type} [DecidableEq α] (d : α) (at_ : List (Nat × Nat)) (m : Sparse α) : Sparse α :=
  m.foldl (fun r e => Sparse.set d r (moved at_ e.1) e.2) []

/-- The record of a tile with every tile number moved; its `cyc` and its counts towards other packages are those of the core it comes
to. The line that a stream stands in is fetched anew as it resumes (spec/10 R163). -/
def Tile.move (at_ : List (Nat × Nat)) (here : Tile) (u : Tile) : Tile :=
  let pod (p : Pod) : Pod := { p with grant := p.grant.map (Grant.move at_) }
  let sprout (x : Sprout) : Sprout := { x with grant := x.grant.map (Grant.move at_) }
  { u with
    svec := here.svec, cyc := here.cyc, halvedAt := here.cyc / 4096, seq := max u.seq here.seq, held := false
    sent := here.sent, line := none
    l1 := u.l1.map sprout, l1q := u.l1q.map sprout
    ready := u.ready.map fun e => match e with
      | .free p => .free (pod p)
      | .bound i => .bound i
    withheld := u.withheld.map (Grant.move at_)
    alBind := u.alBind.map fun e => (e.1, e.2.map (moved at_))
    ports := u.ports.map fun e => (e.1, e.2.map fun p => { p with kind := match p.kind with
      | .push core q st b => .push (moved at_ core) q st b
      | k => k })
    locks := u.locks.map fun l => { l with agent := moved at_ l.agent, against := l.against.map fun e => (moved at_ e.1, e.2) }
    det := { u.det with parked := u.det.parked.map (Msg.move at_), seqs := moveKeys 0 at_ u.det.seqs
                        inWindow := moveKeys 0 at_ u.det.inWindow }
    pairing := u.pairing.map fun p => { p with mate := moved at_ p.mate }
    follows := u.follows.map (moved at_) }

def Packet.move (at_ : List (Nat × Nat)) (p : Packet) : Packet :=
  { p with
    src := if p.remote.isSome then p.src else moved at_ p.src, dst := moved at_ p.dst
    body := match p.body with
      | .message m => .message (m.move at_)
      | .launch t off h => .launch (moved at_ t) off h
      | .unlock a => .unlock (moved at_ a)
      | b => b }

/-- Put a saved tile at its new place. Its counts of flags start anew (log 67), and what has poisoned an open epoch has poisoned the first
one (spec/26 R396). -/
def restoreTile (s : State) (at_ : List (Nat × Nat)) (x : SavedTile) : State :=
  let t := moved at_ x.old
  let s := { s with
    mem := pasteMem (pasteMem s.mem (sliceKey t 0) (sliceKey (t + 1) 0) x.slice) (istoreKey t 0) (istoreKey t 0 + 65536) x.code
    empt := paste false s.empt (wordKey t 0) (wordKey (t + 1) 0) x.empt
    ecc := paste .good s.ecc (wordKey t 0) (wordKey (t + 1) 0) x.ecc
    side := paste none s.side (lineKey t 0) (lineKey (t + 1) 0) x.side
    marked := paste false s.marked (lineKey t 0) (lineKey (t + 1) 0) x.marked }
  let s := s.setTile t (x.rec_.move at_ (s.tile t))
  let key (dst : Nat) := epochKey t (moved at_ dst) ((s.tile t).epochTo (moved at_ dst))
  { s with epochs := x.poison.foldl (fun m e => Sparse.set none m (key e.1) (some e.2)) s.epochs }

/-- A counted message that was saved on its way is counted again, from the core that it now comes from (spec/04 R68). -/
def recountMsg (s : State) (dst : Nat) (m : Msg) : State × Msg :=
  (s.modTile m.agent fun u => u.countSent dst m.path, { m with epoch := (s.tile m.agent).epochTo dst })

/-- A restored packet joins the network. -/
def rejoin (s : State) (p : Packet) : State :=
  match p.body with
  | .message m =>
    let (s, m) := recountMsg s p.dst m
    { s with net := s.net ++ [{ p with body := .message m }] }
  | _ => { s with net := s.net ++ [p] }

/-- The messages that a DET window has parked at a restored tile. -/
def rejoinParked (s : State) (t : Nat) : State :=
  let (s, ms) := (s.tile t).det.parked.foldl (fun (r : State × List Msg) m =>
    let (s, m) := recountMsg r.1 t m
    (s, r.2 ++ [m])) (s, [])
  s.modTile t fun u => { u with det := { u.det with parked := ms } }

/-- The tables of a husk come back as they were saved. -/
def restoreTables (s : State) (n : Nat) (x : Saved) : State :=
  { s with
    groups := x.groups.foldl (fun m e => Sparse.set none m e.1 e.2) (s.groups.filter fun e => e.1 % 256 != n)
    peers := x.peers.foldl (fun m e => Sparse.set none m e.1 e.2) (s.peers.filter fun e => !(e.2.any fun (p : Peer) => p.husk = n))
    hostWins := x.wins.foldl (fun m e => Sparse.set none m e.1 e.2) (s.hostWins.filter fun e => e.1 / 16 != n) }

/-- Re-issue one outstanding load or parked access of a tile under a number of its own (R342). -/
def reissue (s : State) (t : Nat) (h : Husk) (o : Outst) : State :=
  match o.op with
  | none => s
  | some op =>
    let u := s.tile t
    let tag := u.seq
    let s := s.setTile t { u with
      seq := tag + 1
      out := u.out.map fun x => if x.tag = o.tag then { x with tag := tag, parked := false, gen := genOf u o.who } else x }
    if regionOf o.addr == 0x01 then
      { s with egress := s.egress ++ [{ chip := field o.addr 44 33, src := t, tag := tag
                                        path := pathOf (chipDst (field o.addr 44 33)) (o.addr.toNat % 2 ^ 33 / 64), addr := o.addr
                                        op := some op, epoch := u.epochTo (chipDst (field o.addr 44 33)) }] }
    else
      let home := h.tileAt (field o.addr 26 21) (field o.addr 32 27)
      let off := field o.addr 20 0
      let path := pathOf home (off / 64)
      let s := if opModifies op then s.modTile t fun u => u.countSent home path else s
      s.send { mkPacket t home tag (lineChan off) (.access off op (!(u.task o.who).sup) (u.activeBoost o.who)) with
        span := lineSpan off (opLen op), path := path, counted := opModifies op, epoch := u.epochTo home }

/-- Every outstanding load and parked access of a tile, in its original order. -/
def reissueAll (s : State) (t : Nat) (h : Husk) : State :=
  ((s.tile t).out.filter fun o => o.op.isSome && (o.kind == .load || o.parkedOp)).foldl (fun s o => reissue s t h o) s

/-- A restore is complete: the record stands at the husk's origin, and the husk runs. -/
def execRestoreComplete (s : State) : Host.Outcome State Fault Refusal :=
  let n := s.sel
  match s.husk n, s.saved.find? fun x => x.tenant = n with
  | some h, some x =>
    match h.job with
    | some j =>
      if h.st != .restoring then .refused .notPending
      else
        let at_ := (x.tiles.map (·.old)).zip h.tiles
        let s := x.tiles.foldl (fun s y => restoreTile s at_ y) (restoreTables s n x)
        let s := { s with
          saved := s.saved.filter fun y => y.tenant != n
          cohorts := s.cohorts ++ x.cohorts.map fun (c : Cohort) =>
            { c with toStart := c.toStart.map (moved at_), running := c.running.map (moved at_) }
          heldFlags := s.heldFlags ++ x.flags.map (Packet.move at_) }
        let h := { h with
          st := .running, digest := none, job := none
          queues := h.queues.map fun (e : Nat × List Launch) => (e.1, e.2.map fun (l : Launch) => { l with tile := moved at_ l.tile }) }
        let s := h.tiles.foldl rejoinParked (x.net.foldl (fun s p => rejoin s (p.move at_)) (s.setHusk n (some h)))
        let s := refreshAll (h.tiles.foldl (fun s t => reissueAll s t h) s) n
        .next (s.send (mkPacket schedDst j.agent j.tag none (.reply (.data [evictWord (h.width * h.height) 0] 0))))
    | none => .refused .notPending
  | _, _ => .refused .notPending

/-! ### HUSKCFG (spec/20 R378, R379) -/

/-- A RESULT that the spec does not state: some failure (log 26). -/
def openResult (x : In) (s : State) : Body.Out :=
  let (v, s) := s.freeVal
  resultLater x s (BitVec.ofNat 64 (1 + v.toNat % 6))

/-- A HUSKCFG result. -/
def cfgResult (x : In) (s : State) (r : Nat) : Body.Out := resultLater x s (BitVec.ofNat 64 r)

/-- What every HUSKCFG starts with: the release wait and the tenant identifier. -/
def cfgStart (s : State) (x : In) : Except Stop Nat := do
  need (field x.a 63 8 == 0) .illeg 0
  ackHold s x true true
  return x.a.toNat

/-- The husk of a shape word. -/
def shapeHusk (v : Word) : Husk :=
  { col0 := field v 5 0, row0 := field v 11 6, width := field v 17 12 + 1, height := field v 23 18 + 1 }

/-- HUSKCFG `.def`; on a husk on its way between states it is in the wrong state, Table 4's RESULT 5 (DEDUCED, log 26). -/
def execHuskcfgDef (f : Fields) (s : State) : Host.Outcome State Fault Refusal :=
  issue (.huskcfgDef f) (formHuskcfg 0) f (fun x s => do
    let n ← cfgStart s x
    let h := shapeHusk x.b
    let bad : Option Nat := if leavesMesh h.col0 h.row0 h.width h.height || overlaps s n h then some 3
      else if hasFenced s h then some 4 else none
    match s.husk n with
    | none =>
      if field x.b 63 24 != 0 then openResult x s
      else match bad with
        | some r => cfgResult x s r
        | none => cfgResult x ((resetHusk s h).setHusk n (some h)) 0
    | some g =>
      match g.st with
      | .running => cfgResult x s 5
      | .evicted =>
        if field x.b 63 24 != 0 || h.width != g.width || h.height != g.height then openResult x s
        else match bad with
          | some r => cfgResult x s r
          | none => cfgResult x (s.setHusk n (some { g with col0 := h.col0, row0 := h.row0 })) 0
      | .killed =>
        if field x.b 63 24 != 0 then openResult x s
        else match bad with
          | some r => cfgResult x s r
          | none => cfgResult x ((resetHusk s h).setHusk n (some { h with serial := g.serial, kept := g.kept })) 0
      | .stopping | .draining | .saving | .restoring => cfgResult x s 5) s

/-- A tile of the husk whose array stands at MCHK, or whose core handles it: the supervisor may fence it (spec/19 R362). -/
def mchkTiles (s : State) (h : Husk) : List Nat :=
  if h.holds then h.tiles.filter fun t =>
    let u := s.tile t
    (u.matrix.frozen && u.matrix.fcause = causeCode .mchk) || u.hnd.any fun y => field y.ecause 7 0 = causeCode .mchk
  else []

/-- R362 gives the supervisor no means to fence a tile after MCHK: it is left to a choice whether it does so as it takes the husk out of
service (DESIGN CHOICE, log 78). -/
def fenceChoice (s : State) (h : Husk) : State :=
  match mchkTiles s h with
  | [] => s
  | ts =>
    let (c, s) := s.choose
    if c % 2 = 0 then s else { s with fenced := ts.foldl (fun m t => Sparse.set false m t true) s.fenced }

/-- HUSKCFG `.kill`. -/
def execHuskcfgKill (f : Fields) (s : State) : Host.Outcome State Fault Refusal :=
  issue (.huskcfgKill f) (formHuskcfg 1) f (fun x s => do
    let n ← cfgStart s x
    match s.husk n with
    | none => cfgResult x s 1
    | some h => if s.tenantOf x.t == some n then cfgResult x s 5 else cfgResult x (killHusk (fenceChoice s h) n) 0) s

/-- The translations of a tenant are discarded, at one memory core or at all. -/
def dropTlb (s : State) (m : Option Nat) (n : Nat) : State :=
  { s with tlb := s.tlb.filter fun (e : Nat × Option Nat) => !(e.1 / 2 ^ 36 % 256 = n && (match m with
    | some k => e.1 / 2 ^ 44 = k
    | none => true)) }

/-- HUSKCFG `.flush`. -/
def execHuskcfgFlush (f : Fields) (s : State) : Host.Outcome State Fault Refusal :=
  issue (.huskcfgFlush f) (formHuskcfg 2) f (fun x s => do
    let n ← cfgStart s x
    if (s.husk n).isNone then cfgResult x s 1 else cfgResult x (dropTlb s none n) 0) s

/-- The window of a tenant in the table of host windows. -/
def winKey (n w : Nat) : Nat := n * 16 + w

/-- A memory-core context is bound anew or unbound: its record and its tenant's translations there go, and so do its queued requests and a
running program, without a decrement: R129 and R379 do not say what becomes of those (DESIGN CHOICE, log 112). -/
def bindMc (s : State) (a : Nat) (m : Option McCtx) : State :=
  let s := match s.mc a with
    | some old => dropTlb s (some (mcOf a)) old.tenant
    | none => s
  let s := match m with
    | some x => dropTlb s (some (mcOf a)) x.tenant
    | none => s
  { s with mcs := Sparse.set none s.mcs a m }.modTile a fun u => ({ seq := u.seq, cyc := u.cyc } : Tile)

/-- HUSKCFG `.undef`. -/
def execHuskcfgUndef (f : Fields) (s : State) : Host.Outcome State Fault Refusal :=
  issue (.huskcfgUndef f) (formHuskcfg 4) f (fun x s => do
    let n ← cfgStart s x
    match s.husk n with
    | none => cfgResult x s 1
    | some h =>
      if s.tenantOf x.t == some n || h.st != .killed then cfgResult x s 5
      else
        let ms := (s.mcs.filter fun e => e.2.any fun m => m.tenant = n).map (·.1)
        let s := ms.foldl (fun s a => bindMc s a none) s
        let s := { s with
          groups := s.groups.filter fun e => e.1 % 256 != n
          peers := s.peers.filter fun e => !(e.2.any fun (p : Peer) => p.husk = n)
          hostWins := s.hostWins.filter fun e => e.1 / 16 != n }
        cfgResult x (s.setHusk n none) 0) s

/-! #### `.tab` -/

/-- The own-slice offset that an address of the record names. -/
def ownOff (s : State) (t : Nat) (a : Word) (n : Nat) : Option Nat :=
  match s.huskOfTile t with
  | some (_, h) =>
    if regionOf a == 0x00 && mustBeZero a && field a 26 21 < h.width && field a 32 27 < h.height
      && h.tileAt (field a 26 21) (field a 32 27) == t && field a 20 0 + n ≤ 2 ^ 21 then some (field a 20 0) else none
  | none => none

/-- A member word of a local group: clear of other bits, inside the husk. -/
def memberOk (h : Husk) (w : Word) : Bool :=
  field w 62 21 == 0 && field w 15 12 == 0 && (!bit w 63 || (field w 5 0 < h.width && field w 11 6 < h.height))

/-- The table entry of a memory-core context (log 27 on the loader's words). -/
def loaderOf (s : State) (t off : Nat) : Sparse (Option Nat) :=
  (List.range 256).foldl (fun m i =>
    let v := s.sliceWord t (off + 8 * i)
    Sparse.set none m i (if pcOk v then some v.toNat else none)) []

/-- The program image enters the memory core's instruction store. -/
def installImage (s : State) (a t off first n : Nat) : State :=
  setBytes s (istoreKey a (64 * first)) (getBytes s (sliceKey t off) (64 * n))

/-- Write the entry of a record; none where a field is out of range. -/
def tabWrite (s : State) (t n : Nat) (h : Husk) (w : Nat → Word) : Option State :=
  let valid := bit (w 0) 63
  let idx := field (w 0) 19 4
  if field (w 0) 62 20 != 0 then none
  else match field (w 0) 3 0 with
  | 0 =>
    let ws := (List.range 6).map fun i => w (i + 1)
    if !valid then some { s with groups := Sparse.set none s.groups (idx * 256 + n) none }
    else if !(ws.all (memberOk h)) then none
    else
      let ms := (ws.filter fun v => bit v 63).map fun v => (field v 5 0, field v 11 6, field v 20 16)
      some { s with groups := Sparse.set none s.groups (idx * 256 + n) (some ms) }
  | 1 =>
    if 256 ≤ idx then none
    else if !valid then some { s with peers := Sparse.set none s.peers idx none }
    else if field (w 1) 63 23 != 0 then none
    else
      let p : Peer := { chip := field (w 1) 11 0, tenant := field (w 1) 19 12, husk := n
                        loads := bit (w 1) 20, stores := bit (w 1) 21, atomics := bit (w 1) 22 }
      some { s with peers := Sparse.set none s.peers idx (some p) }
  | 2 =>
    if 16 ≤ idx then none
    else if !valid then some { s with hostWins := Sparse.set none s.hostWins (winKey n idx) none }
    else if field (w 2) 63 34 != 0 || !(regionOf (w 1) == 0x00 || regionOf (w 1) == 0x10) || !mustBeZero (w 1) then none
    else
      let x : HostWin := { base := w 1, len := field (w 2) 31 0, rd := bit (w 2) 32, wr := bit (w 2) 33 }
      some { s with hostWins := Sparse.set none s.hostWins (winKey n idx) (some x) }
  | 3 =>
    if 2048 ≤ idx then none
    else
      let a := numTiles + idx % 256 * 8 + idx / 256
      let lines := field (w 4) 20 10
      let first := field (w 4) 9 0
      if !valid then some (bindMc s a none)
      else if 2 ^ 19 ≤ (w 1).toNat || field (w 4) 63 21 != 0 || 1024 < first + lines then none
      else match ownOff s t (w 2) 2048, ownOff s t (w 3) (64 * lines) with
        | some lo, some io =>
          let m : McCtx := { tenant := n, root := (w 1).toNat, loader := loaderOf s t lo }
          some (bindMc (installImage s a t io first lines) a (some m))
        | _, _ => none
  | _ => none

/-- What a memory-core context's record has read beside itself, in the own slice: the loader table and the program image. -/
def tabReads (s : State) (t : Nat) (w : Nat → Word) : List (Nat × Nat) :=
  let n := 64 * field (w 4) 20 10
  if bit (w 0) 63 && field (w 0) 3 0 = 3 then
    ((ownOff s t (w 2) 2048).map fun o => (o, 2048)).toList ++ ((ownOff s t (w 3) n).map fun o => (o, n)).toList
  else []

/-- Their single-bit errors are corrected (spec/03 R39). -/
def tabCorrected (s : State) (t : Nat) (w : Nat → Word) : State :=
  (tabReads s t w).foldl (fun s e => s.correct t (e.1 / 8 * 8) ((e.1 % 8 + e.2 + 7) / 8)) s

/-- HUSKCFG `.tab`. -/
def execHuskcfgTab (f : Fields) (s : State) : Host.Outcome State Fault Refusal :=
  issue (.huskcfgTab f) (formHuskcfg 3) f (fun x s => do
    let n ← cfgStart s x
    need ((ownOff s x.t x.b 0).isSome) .region x.b
    let off := field x.b 20 0
    need (off % 64 == 0) .align x.b
    match s.husk n with
    | none => cfgResult x s 1
    | some h =>
      if s.consumesBad x.t off 64 then return (eccuKill s x.t, .gone)
      else
        let (s, ws) := readWords (s.correct x.t off 8) x.t off 8
        let w (i : Nat) : Word := ws.getD i 0
        match tabWrite (tabCorrected s x.t w) x.t n h w with
        | some s' => if (tabReads s x.t w).any fun e => s.consumesBad x.t e.1 e.2 then return (eccuKill s x.t, .gone) else cfgResult x s' 0
        | none => cfgResult x s 6) s

end Sys2Proof.Machine
end

