-- ==== Sys2Proof/Machine/Host.lean ====
section
/-!
DEFINITION. What comes from outside: boot, package reset and freeze, ownership and sessions, host accesses, launches and object
loads, the attestation report (spec/02 R27 to R29, R397, spec/03 R30, spec/20 R370 to R377, spec/21 R392).
-/

namespace Sys2Proof.Machine

open Sys2Proof

/-! ### Package reset and boot -/

/-- Package reset (spec/03 R30): a tile reset of every tile. Far memory, the fenced-tile map, what has left the package and
the state of the management controller stay (log 29), and after a boot that failed the tiles stay in reset (spec/20 R375). -/
def resetPackage (s : State) : State :=
  { State.reset with
    mem := (s.mem.filter fun c => hbmBase ≤ c.1 && c.1 < mcBase)
    tiles := (s.tiles.filter fun e => e.1 < numTiles).map fun e => (e.1, e.2.afterReset)
    arrivals := s.arrivals.filter fun e => 2 ^ 20 ≤ e.1 / 2 ^ 19
    egress := s.egress, outbox := s.outbox, inputs := s.inputs, tagLog := s.tagLog
    fenced := s.fenced, farEcc := s.farEcc, alarm := s.alarm, powered := s.powered, chip := s.chip, linksDown := s.linksDown, cxlFrames := s.cxlFrames
    sessions := s.sessions, owner := s.owner, ownerSlot := s.ownerSlot, lease := s.lease
    acornDigest := s.acornDigest, supDigest := s.supDigest
    schedule := s.schedule, ticks := s.ticks, fresh := s.fresh, nextId := s.nextId }

def execPackageReset (s : State) : Host.Outcome State Fault Refusal := .next (resetPackage s)

/-- A line enters the instruction store of a core, which may still hold the old one buffered (spec/02 R14, spec/04 R65). -/
def putLine (s : State) (t no : Nat) (line : Line) : State :=
  let s := s.modTile t fun u => { u with stale := u.stale ++ [(no, istoreLine s t no)] }
  setBytes s (istoreKey t (64 * no)) (bytesOf line.toNat 64)

/-- Every line of a text image, from line 0, into every core of a husk (spec/21 R392). -/
def putText (s : State) (h : Husk) (lines : List Line) : State :=
  h.tiles.foldl (fun s t => ((List.range lines.length).zip lines).foldl (fun s e => putLine s t e.1 e.2) s) s

/-- The digest of an image: its lines, then its data (log 28). -/
def imageDigest (lines : List Line) (data : List Byte) : BitVec 256 :=
  sm3 ((lines.map fun l => bytesOf l.toNat 64).flatten ++ data)

/-- The supervisor's image fits the tiles it is loaded into: 1,024 lines, and the rest of a slice (spec/00 Table 1). -/
def imageFits (b : BootImage) : Bool := b.lines.length ≤ 1024 && 0x8000 + b.supervisor.length ≤ 2 ^ 21

/-- Boot (spec/20 R375): a failing signature leaves every tile in reset; else the acorn fences, defines the supervisor husk,
sets svec and loads the supervisor. Where the husk leaves the mesh or holds a failing tile, or the image is of more than 1,024 lines or
runs past its slice, no husk is defined and nothing is loaded: R375 does not say (DESIGN CHOICE, log 31). -/
def execBoot (b : BootImage) (s : State) : Host.Outcome State Fault Refusal :=
  let s := resetPackage s
  let d := sm3 b.acorn
  if !Config.sm2Valid Config.bootKey (digestBytes d) b.signature then .next { s with powered := false, acornDigest := d }
  else
    let fenced : Sparse Bool := b.failing.foldl (fun m t => if t < numTiles then Sparse.set false m t true else m) s.fenced
    let s := { s with
      powered := true, acornDigest := d, supDigest := imageDigest b.lines b.supervisor, fenced := fenced, cxlFrames := b.cxlFrames }
    let s := (List.range numTiles).foldl (fun s t => s.modTile t fun u => { u with svec := b.svec }) s
    let h : Husk := { col0 := b.col0, row0 := b.row0, width := b.width, height := b.height }
    if leavesMesh h.col0 h.row0 h.width h.height || hasFenced s h || !imageFits b then .next s
    else
      let s := putText (s.setHusk 0 (some h)) h b.lines
      .next (s.putSlice (h.tileAt 0 0) 0x8000 b.supervisor)

/-! ### Freeze (spec/20 R376, R377) -/

def execFreeze (s : State) : Host.Outcome State Fault Refusal := .next { s with frozen := true }
def execFreezeRestart (s : State) : Host.Outcome State Fault Refusal := .next { s with frozen := false }
def execRailThermalAlarm (s : State) : Host.Outcome State Fault Refusal :=
  .next { s with frozen := true, alarm := true, outbox := s.outbox ++ [.alarm] }

/-! ### Sessions and ownership (spec/20 R370 to R372) -/

def State.session (s : State) (id : Nat) : Option Session := s.sessions.find? fun (x : Session) => x.id = id

/-- The management controller sends a session a nonce of 16 bytes, and remembers it as the session's last (R372). -/
def giveNonce (s : State) (id : Nat) : State :=
  let (v, s) := s.freeVal
  let (w, s) := s.freeVal
  let bs := bytesOf v.toNat 8 ++ bytesOf w.toNat 8
  { s with
    sessions := s.sessions.map fun (x : Session) => if x.id = id then { x with nonce := bs } else x
    outbox := s.outbox ++ [.nonce id bs] }

/-- A control session presents something, or a handover names it: it is open from then on, at most eight at once, and gets its first
nonce (log 28). -/
def openControl (s : State) (id : Nat) : State :=
  if (s.session id).isSome || 8 ≤ (s.sessions.filter fun (x : Session) => x.tenant.isNone).length then s
  else giveNonce { s with sessions := s.sessions ++ [{ id := id }] } id

/-- The session is an open control session. -/
def State.isControl (s : State) (id : Nat) : Bool := (s.session id).any fun (x : Session) => x.tenant.isNone

/-- Certify a session's key. -/
def certify (s : State) (id : Nat) (k : BitVec 512) : State :=
  { s with sessions := s.sessions.map fun (x : Session) => if x.id = id then { x with key := some k } else x }

/-- A certificate is valid (R372) at time `now` of the management controller's timer; the nonce that comes back is the last one that was
sent to the session. -/
def certificateOk (s : State) (m : Certificate) (now : Nat) : Bool :=
  s.ownerSlot == some (sm3 (bytesOf m.rootKey.toNat 64))
    && Config.sm2Valid m.rootKey
      (digestBytes (sm3 (Config.certificateBytes m.serial m.key m.lease m.validFrom m.validTo))) m.signature
    && m.serial == Config.serialNumber && 1 ≤ m.lease && m.lease ≤ 3600 && m.validFrom ≤ now && now ≤ m.validTo
    && (s.session m.session).any (fun (x : Session) => x.nonce.length == 16 && x.nonce == m.nonce)
    && Config.sm2Valid m.key (digestBytes (sm3 m.nonce)) m.nonceSignature

/-- The first valid certificate while no session owns the package wins (R370, R371). A nonce serves one presentation (log 28). -/
def execOwnerCertificate (m : Certificate) (s : State) : Host.Outcome State Fault Refusal :=
  let s := openControl s m.session
  let (now, s) := s.freeVal
  if !s.isControl m.session then .next s
  else if certificateOk s m now.toNat then
    let s := certify (giveNonce s m.session) m.session m.key
    .next (if s.owner.isNone then { s with owner := some m.session, lease := m.lease } else s)
  else .next (giveNonce s m.session)

/-- The message comes from the owner and is signed with its certified key. -/
def ownerSigned (s : State) (m : OwnerMessage) (bytes : List Byte) : Bool :=
  s.owner == some m.session && (match s.session m.session with
    | some x => (match x.key with
      | some k => Config.sm2Valid k (digestBytes (sm3 bytes)) m.signature
      | none => false)
    | none => false)

/-- A handover names another control session, which may be one that has presented nothing yet (R371). -/
def execOwnershipHandover (m : OwnerMessage) (s : State) : Host.Outcome State Fault Refusal :=
  if !ownerSigned s m (Config.handoverBytes m.target) then .next s
  else
    let s' := openControl s m.target
    .next (if s'.isControl m.target then { s' with owner := some m.target } else s)

def execLeaseRenewal (m : OwnerMessage) (s : State) : Host.Outcome State Fault Refusal :=
  .next (if ownerSigned s m (Config.renewalBytes m.lease) && 1 ≤ m.lease && m.lease ≤ 3600 then { s with lease := m.lease } else s)

/-- The lease lapses: the owner becomes read-only, the election reopens. -/
def execLeaseLapse (s : State) : Host.Outcome State Fault Refusal := .next { s with owner := none, lease := 0 }

/-- The owner, and no other session, binds a tenant session to a tenant identifier other than 0, at most 512 at once. -/
def execTenantSessionBind (b : BindRequest) (tenant : Nat) (s : State) : Host.Outcome State Fault Refusal :=
  let id := b.session
  let rest := s.sessions.filter fun (x : Session) => x.id != id
  if s.owner != some b.asker || tenant = 0 || 256 ≤ tenant || s.isControl id
    || 512 ≤ (rest.filter fun (x : Session) => x.tenant.isSome).length then .next s
  else .next { s with sessions := rest ++ [{ id := id, tenant := some tenant }] }

/-! ### Host accesses (spec/02 R27 to R29, R397) -/

def State.out (s : State) (x : HostOut) : State := { s with outbox := s.outbox ++ [x] }

/-- The session may reach the tenant's windows: its own tenant session, or the owner (R28). -/
def mayReach (s : State) (id tenant : Nat) : Bool :=
  s.owner == some id || (s.session id).any fun (x : Session) => x.tenant == some tenant

/-- The address of the first byte of an access, where the window exists and holds it wholly. -/
def windowAddr (s : State) (id tenant w off len : Nat) : Option (HostWin × Nat) :=
  match Sparse.get none s.hostWins (winKey tenant w) with
  | some x => if mayReach s id tenant && w < 16 && 1 ≤ len && off + len ≤ x.len * 4096 then some (x, x.base.toNat + off) else none
  | none => none

/-- The aligned words that cover [a, a + n): word address, first byte in it, count of bytes. -/
def wordsOf (a n : Nat) : List (Nat × Nat × Nat) :=
  (List.range ((a % 8 + n + 7) / 8)).map fun i =>
    let w := a / 8 * 8 + 8 * i
    let lo := max a w
    (w, lo - w, min (a + n) (w + 8) - lo)

/-- The tile and the offset of an SRAM window's byte. -/
def windowTile (h : Husk) (a : Nat) : Option (Nat × Nat) :=
  let v : Word := BitVec.ofNat 64 a
  if regionOf v == 0x00 && mustBeZero v && field v 26 21 < h.width && field v 32 27 < h.height
  then some (h.tileAt (field v 26 21) (field v 32 27), field v 20 0) else none

/-- The homes of an access's words in the slices of a husk: tile, byte offset, count of bytes. -/
def sramParts (h : Husk) (a n : Nat) : Option (List (Nat × Nat × Nat)) :=
  (wordsOf a n).mapM fun e => (windowTile h e.1).map fun p => (p.1, p.2 + e.2.1, e.2.2)

/-- The far words of an access, translated with a permission: key, count of bytes. -/
def farParts (s : State) (tenant a n : Nat) (ok : Leaf → Bool) : State × Option (List (Nat × Nat)) :=
  (wordsOf a n).foldl (fun (r : State × Option (List (Nat × Nat))) e =>
    match r.2 with
    | none => r
    | some ps =>
      if 2 ^ 48 ≤ e.1 % 2 ^ 56 then (r.1, none)
      else match translate r.1 tenant (e.1 % 2 ^ 56) with
        | (s, some l) => (s, if ok l then some (ps ++ [(l.key + (e.1 + e.2.1) % 4096, e.2.2)]) else none)
        | (s, none) => (s, none)) (s, some [])

/-- What becomes of outside traffic to a husk's slices: performed, answered with an error, or retried (spec/18 R343). -/
inductive Reach where
  | perform (h : Husk)
  | error
  | later
  deriving DecidableEq, Repr

def reachHusk (s : State) (tenant : Nat) : Reach :=
  match s.husk tenant with
  | none => .error
  | some h => match h.st with
    | .running => .perform h
    | .killed => .error
    | _ => .later

/-- The request goes back to its NI, which retries it. -/
def State.again (s : State) (i : Instr) : State := { s with inputs := s.inputs ++ [i] }

/-- A host read. Through a FAR window it is performed at once, whatever state the husk is in: no rule says whether such an access, which
reaches no tile, waits while the husk is being evicted or is refused once it has been killed (DESIGN CHOICE, log 33). -/
def execHostRead (r : HostAccess) (s : State) : Host.Outcome State Fault Refusal :=
  let err (s : State) : Host.Outcome State Fault Refusal := .next (s.out (.error r.session))
  match windowAddr s r.session r.tenant r.window r.offset r.len with
  | none => err s
  | some (x, a) =>
    if !x.rd then err s
    else if regionOf x.base == 0x00 then
      match reachHusk s r.tenant with
      | .error => err s
      | .later => .next (s.again (.hostRead r))
      | .perform h =>
        match sramParts h a r.len with
        | none => err s
        | some ps =>
          if ps.any fun e => s.consumesBad e.1 e.2.1 e.2.2 then err (killHusk s r.tenant)
          else
            let (s, bs) := ps.foldl (fun (q : State × List Byte) e =>
              let s := q.1.correct e.1 (e.2.1 / 8 * 8) 1
              let (s, v) := readSlice s e.1 e.2.1 e.2.2
              (s, q.2 ++ bytesOf v e.2.2)) (s, [])
            .next (s.out (.readDone r.session bs))
    else
      match farParts s r.tenant a r.len (·.rd) with
      | (s, none) => err s
      | (s, some ps) =>
        if ps.any fun e => s.farBad e.1 e.2 then err (killHusk s r.tenant)
        else .next (s.out (.readDone r.session (ps.map fun e => getBytes s e.1 e.2).flatten))

/-- The bytes of a write cut to the parts of its words. -/
def cutBytes : List Byte → List Nat → List (List Byte)
  | _, [] => []
  | bs, n :: ns => bs.take n :: cutBytes (bs.drop n) ns

/-- A host write: a plain store on every word; through a FAR window at once, whatever state the husk is in (DESIGN CHOICE, log 33). -/
def execHostWrite (r : HostAccess) (s : State) : Host.Outcome State Fault Refusal :=
  let err (s : State) : Host.Outcome State Fault Refusal := .next (s.out (.error r.session))
  match windowAddr s r.session r.tenant r.window r.offset r.data.length with
  | none => err s
  | some (x, a) =>
    if !x.wr then err s
    else if regionOf x.base == 0x00 then
      match reachHusk s r.tenant with
      | .error => err s
      | .later => .next (s.again (.hostWrite r))
      | .perform h =>
        match sramParts h a r.data.length with
        | none => err s
        | some ps =>
          if ps.any fun e => (s.tile e.1).touches (fun y => y.stamped || y.boost) e.2.1 e.2.2 then err s
          else if ps.any fun e => e.2.2 < 8 && s.consumesBad e.1 e.2.1 e.2.2 then err (killHusk s r.tenant)
          else
            let s := (ps.zip (cutBytes r.data (ps.map (·.2.2)))).foldl (fun s e =>
              let s := if e.1.2.2 < 8 then s.correct e.1.1 (e.1.2.1 / 8 * 8) 1 else s
              s.putSlice e.1.1 e.1.2.1 e.2) s
            .next (s.out (.done r.session))
    else
      match farParts s r.tenant a r.data.length (·.wr) with
      | (s, none) => err s
      | (s, some ps) =>
        if ps.any fun e => s.farPartBad e.1 e.2 then err (killHusk s r.tenant)
        else .next (((ps.zip (cutBytes r.data (ps.map (·.2)))).foldl (fun s e => s.putFar e.1.1 e.2) s).out (.done r.session))

/-- A host atomic: on a far page with SA alone, at its home memory core, at once, whatever state the husk is in (DESIGN CHOICE, log 33). -/
def execHostAtomic (r : HostAtomicReq) (s : State) : Host.Outcome State Fault Refusal :=
  let err (s : State) : Host.Outcome State Fault Refusal := .next (s.out (.error r.session))
  let n := r.n / 8
  match windowAddr s r.session r.tenant r.window r.offset n with
  | none => err s
  | some (x, a) =>
    if !x.rd || !x.wr || regionOf x.base != 0x10 || !(r.n == 32 || r.n == 64) || a % n != 0 then err s
    else
      match farParts s r.tenant a n fun l => l.sa && l.rd && l.wr with
      | (s, some [(key, _)]) =>
        if s.farBad key n then err (killHusk s r.tenant)
        else
        let old := getNat s key n
        .next ((s.putFar key (bytesOf (amoNew r.op r.n old r.v.toNat r.cmp.toNat) n)).out (.atomicDone r.session (BitVec.ofNat 64 old)))
      | (s, _) => err s

/-! ### Launches and objects (spec/20 R373, spec/21 R392) -/

/-- A submission: LAUNCH for the record; the session receives the handle or the reason for failure, which for LAUNCH's own checks is the
fault that an instruction would meet. -/
def execHostLaunchSubmit (r : HostSubmit) (s : State) : Host.Outcome State Fault Refusal :=
  let err (s : State) : Host.Outcome State Fault Refusal := .next (s.out (.error r.session))
  let bad (s : State) (c : Cause) : Host.Outcome State Fault Refusal := .next (s.out (.faulted r.session c))
  let mine := (s.session r.session).any fun (x : Session) => x.tenant == some r.tenant
  match windowAddr s r.session r.tenant r.window r.offset 128 with
  | none => err s
  | some (_, a) =>
    if !mine || 16 ≤ r.queue then err s
    else
      match reachHusk s r.tenant with
      | .error => err s
      | .later => .next (s.again (.hostLaunchSubmit r))
      | .perform h =>
        match windowTile h a with
        | none => bad s (if regionOf (BitVec.ofNat 64 a) == 0x00 && mustBeZero (BitVec.ofNat 64 a) then .huskbnd else .region)
        | some (t, off) =>
          if a % 64 != 0 || 2 ^ 21 < off + 128 then bad s .align
          else if s.consumesBad t off 128 then err (killHusk s r.tenant)
          else
            let s := s.correct t off 16
            let len := recLen (recGroups s t off)
            if 2 ^ 21 < off + len then bad s .align
            else if (s.tile t).inCtx off len then bad s .priv
            else if recField s t off 0x26 1 != r.queue then err s
            else match acceptLaunch s r.tenant t off (BitVec.ofNat 64 a) with
              | none => .next (s.again (.hostLaunchSubmit r))
              | some (s', v) =>
                let w := if field v 63 48 = 0 then statusWord 4 4 0 else BitVec.ofNat 64 (recField s' t off 0x40 8)
                .next (s'.out (if field w 63 60 == 4 then .failed r.session w else .handle r.session v))

/-- The husk has a queued or running launch. -/
def hasLaunch (s : State) (n : Nat) (h : Husk) : Bool :=
  h.queues.any (fun (e : Nat × List Launch) => !e.2.isEmpty) || s.cohorts.any fun (c : Cohort) => c.tenant = n

/-- The object loader on a request of a session. A last word that the data fill in part is read as it is merged (spec/03 R39). -/
def execObjectLoad (o : ObjectFile) (s : State) : Host.Outcome State Fault Refusal :=
  let err : Host.Outcome State Fault Refusal := .next (s.out (.error o.session))
  match s.husk o.tenant with
  | none => err
  | some h =>
    let t := h.tileAt 0 0
    let n := o.data.length
    if !mayReach s o.session o.tenant || h.st != .running || hasLaunch s o.tenant h then err
    else if 1024 < o.lines.length || 2 ^ 21 < 0x8000 + n || (n != 0 && (s.tile t).inCtx 0x8000 n) then err
    else if n != 0 && (s.tile t).touches (fun y => y.stamped || y.boost) 0x8000 n then err
    else if s.consumesBad t (0x8000 + n / 8 * 8) (n % 8) then .next ((killHusk s o.tenant).out (.error o.session))
    else .next (((putText (s.correct t (0x8000 + n / 8 * 8) (min 1 (n % 8))) h o.lines).putSlice t 0x8000 o.data).out (.done o.session))

/-! ### Attestation (spec/20 R375) -/

def execAttestationReport (id : Nat) (nonce : List Byte) (s : State) : Host.Outcome State Fault Refusal :=
  let slot := s.ownerSlot.getD 0
  let fenced := (s.fenced.filter (·.2)).map (·.1)
  let husks := s.husks.filterMap fun e => e.2.map fun h => (e.1, h.col0, h.row0, h.width, h.height)
  .next (s.out (.report id nonce s.acornDigest s.supDigest slot fenced husks
    (Config.sm2Sign (digestBytes (sm3 (Config.reportBytes nonce s.acornDigest s.supDigest slot fenced husks))))))

end Sys2Proof.Machine
end

