-- ==== Sys2Proof/Machine/Fetch.lean ====
section
/-!
DEFINITION. Entering a fetch line and taking the next instruction (spec/10 R163, R166, R169), forwarding the lines of a gang
(spec/09 R152 to R154), and the conditions under which a core issues.
-/

namespace Sys2Proof.Machine

open Sys2Proof

/-- What comes of entering the line at a stream's PC: it stands open, its entry has faulted, or it waits. -/
inductive Entry where
  | ready (s : State)
  | faulted (s : State)
  | wait
  deriving DecidableEq, Repr

/-- The line at the PC is open. -/
def Tile.lineOpen (u : Tile) (pc : Word) : Bool :=
  match u.line with
  | some lb => lb.entered && lb.no = pc.toNat / 8
  | none => false

/-- The line at the PC: the one that a checked transfer has fetched, else as it is fetched now. -/
def lineAt (s : State) (t : Nat) (pc : Word) : State × Line :=
  match (s.tile t).line with
  | some lb => if lb.no = pc.toNat / 8 && !lb.entered then (s, lb.line) else fetchLine s t (pc.toNat / 8)
  | none => fetchLine s t (pc.toNat / 8)

/-- Enter the line at the PC with the checks of R163. -/
def enterFetched (s : State) (t : Nat) (w : Who) (pc : Word) : Entry :=
  let (s, l) := lineAt s t pc
  match l.entryFault (pc.toNat % 8) (s.tile t).checkTo with
  | some c => .faulted (trapNow s t w c (if c == .badtgt then pc else 0) pc false false false false)
  | none => .ready (s.modTile t fun u =>
      { u with line := some { no := pc.toNat / 8, line := l, entered := true }, checkTo := false })

/-- The core runs the member of the gang of group `gid`, with room for one more line among the four that it buffers (spec/09 R152, R154):
the line that it is executing counts among them, which R152 does not say (DESIGN CHOICE, log 120). -/
def gangRoom (s : State) (gid : BitVec 32) (m : Nat) : Bool :=
  let u := s.tile m
  match u.active with
  | some (.img i) =>
    let k := (u.ctx i).task
    k.fwd && k.gid = gid && (u.fwd.filter (!·.left)).length < 4
  | _ => false

/-- The leader forwards the line that it has entered; its own record of it is the last one alone. -/
def forward (s : State) (t : Nat) (k : Task) : State :=
  match (s.tile t).line with
  | none => s
  | some lb =>
    let x : FwdLine := { no := lb.no, line := lb.line, slot := k.pc.toNat % 8, done := k.pc.toNat % 8 }
    (List.range (2 ^ field k.lid 18 16)).foldl (fun s j => s.modTile (t + j) fun u =>
      { u with fwd := if j = 0 then [x] else u.fwd ++ [x] }) s

/-- What a follower at line `no` still has buffered: a line that it has left goes, and where a handler's return has taken it past a line
(spec/18 R347), so does that one. -/
def Tile.buffered (u : Tile) (no : Nat) : List FwdLine :=
  let r := u.fwd.dropWhile (·.left)
  if r.any fun x => x.no = no then r.dropWhile fun x => x.no != no else r

/-- Enter the line at the PC of stream w, if it is not open: a new line once the statuses of the line before are in (spec/06 R102), and
under PX once nothing issued before can still fault (spec/04 R67). -/
def enterLine (s : State) (t : Nat) (w : Who) : Entry :=
  let u := s.tile t
  let k := u.task w
  if u.lineOpen k.pc then .ready s
  else if (u.atLine && !u.noStatus w) || u.pxHolds w then .wait
  else if u.following w then
    match u.buffered (k.pc.toNat / 8) with
    | x :: r =>
      if x.no = k.pc.toNat / 8 then
        .ready (s.setTile t { u with fwd := x :: r, line := some { no := x.no, line := x.line, entered := true } })
      else .wait
    | [] => .wait
  else if (match w with
      | .img _ => k.fwd
      | _ => false) then
    if u.resumes k.pc then enterFetched s t w k.pc
    else if (List.range (2 ^ field k.lid 18 16)).all fun j => j = 0 || gangRoom s k.gid (t + j) then
      match enterFetched s t w k.pc with
      | .ready s' => .ready (forward s' t k)
      | e => e
    else .wait
  else enterFetched s t w k.pc

/-- What a husk lets its core do: all of it, the rest of its line, nothing (spec/18 Table 6). -/
inductive Leave where
  | free
  | lineOnly
  | stopped
  deriving DecidableEq, Repr

/-- The state of a core's husk decides; a memory-core context runs while it is bound. -/
def leaveOf (s : State) (t : Nat) : Leave :=
  if numTiles ≤ t then (if (s.mc t).isSome then .free else .stopped)
  else match s.huskOfTile t with
    | some (_, h) => (match h.st with
      | .running => .free
      | .stopping => .lineOnly
      | _ => .stopped)
    | none => .stopped

/-- The core may issue: nothing that comes first at this point is waiting for it. -/
def mayIssue (s : State) (t : Nat) : Bool :=
  let u := s.tile t
  match u.active with
  | none => false
  | some w =>
    (match leaveOf s t with
      | .free => true
      | .lineOnly => !(u.atLine || u.halted)
      | .stopped => false)
    && !(!u.pairNext && (u.pairing.any fun p => p.closing)) && !u.abortStops && (quantumDue s t).isNone
    && !(u.atLine && !u.pairNext && sliceDue s t && !(u.following w) && !(u.leads w))

/-- Core t issues its next instruction now. -/
def canIssue (s : State) (t : Nat) : Bool :=
  mayIssue s t && (match (s.tile t).active with
    | some w => (match enterLine s t w with
      | .wait => false
      | _ => true)
    | none => false)

/-- An unassigned major faults at once, whatever its guard (R169), once what comes before the instruction has been settled: a late
fault of a line's end or of the next instruction (spec/04 R66), and under PX what may still fault (R67). -/
def unassigned (s : State) (t : Nat) (w : Who) : State :=
  let u := s.tile t
  let k := u.task w
  if u.pxHolds w then holdTask s t w none
  else match lateHere k k.late u.atLine 0 [] false false with
  | some l => takeLate s t w l
  | none => trapNow s t w .illeg 0 k.pc false false false false

/-- The instruction at the PC of the open line runs. -/
def runHere (run : Instr → State → Host.Outcome State Fault Refusal) (s : State) (t : Nat) (w : Who) (lb : LineBuf) :
    Host.Outcome State Fault Refusal :=
  match decodeWord (lb.line.slot (((s.tile t).task w).pc.toNat % 8)) with
  | .ok i => run i s
  | .error _ => .next (unassigned s t w)

/-- The state with stream w at the second member of the pair that starts at its PC. -/
def atSecond (s : State) (t : Nat) (w : Who) : State :=
  s.modTile t fun u => { u.modTask w fun k => { k with pc := nextPc k.pc } with pairNext := true }

/-- The second member of a pair, which stood at `pc` on core `u`, has waited: it stands there still, on the core as it is now or in the
image that has been set aside, and its operands have not been read. A WAIT, a QUANT `.w` and a PARK that wait have issued, and a
memory-core program that its fault has ended does not wait. -/
def secondWaits (u v : Tile) (w : Who) (pc : Word) : Bool :=
  v.seq = u.seq && (v.task w).pc = pc && match w with
    | .img i => (v.ctx i).st != .ready
    | _ => true

/-- A pair is one issue (spec/10 R164): where its second member would wait, the pair waits whole, at its first member. What the second
member does there, tried before the first one: none where it does not wait. Two members that both need the divider cannot issue as one:
the second follows the first (DEDUCED, log 44). -/
def pairWait (run : Instr → State → Host.Outcome State Fault Refusal) (s : State) (t : Nat) (w : Who) (lb : LineBuf) : Option State :=
  let pc := ((s.tile t).task w).pc
  match runHere run (atSecond s t w) t w lb with
  | .next s' =>
    if secondWaits (s.tile t) (s'.tile t) w (nextPc pc)
    then some (s'.modTile t fun u => { u.modTask w fun k => { k with pc := pc } with pairNext := false }) else none
  | _ => none

/-- The second member of a pair waits for what its first member has taken: the last word of a queue that both pop, the last place of a
counter that both raise. -/
def pairTakes (run : Instr → State → Host.Outcome State Fault Refusal) (s s' : State) (t : Nat) (w : Who) (lb : LineBuf) : Bool :=
  let u := s.tile t
  let slot := (u.task w).pc.toNat % 8
  let f := fieldsOf (lb.line.slot slot)
  let g := fieldsOf (lb.line.slot (slot + 1))
  let v := s'.tile t
  let full := f.setc = g.setc && g.setc.toNat < 6 && 255 ≤ (v.task w).getD g.setc.toNat
  let empty := v.ports.any fun e => (e.2.any fun p => p.who = w && match p.kind with
      | .pop q _ => (v.hqueue q).slot.isEmpty && !(u.hqueue q).slot.isEmpty
      | .push _ _ _ _ => false)
  (full || empty) && (match runHere run s' t w lb with
    | .next y => secondWaits v (y.tile t) w (v.task w).pc
    | _ => false)

/-- The instruction at the PC runs, and the pair that it begins waits where its second member has to. -/
def runSlot (run : Instr → State → Host.Outcome State Fault Refusal) (s : State) (t : Nat) (w : Who) (lb : LineBuf) :
    Host.Outcome State Fault Refusal :=
  match runHere run s t w lb with
  | .next s' =>
    if (s.tile t).pairNext || !(s'.tile t).pairNext then .next s'
    else if pairTakes run s s' t w lb then .next (s.modTile t fun u => { u with cyc := u.cyc + 1, held := true })
    else .next ((pairWait run s t w lb).getD s')
  | r => r

/-- The next instruction of core `s.cur` under `run`: its line is entered, its word decoded. -/
def issueNext (run : Instr → State → Host.Outcome State Fault Refusal) (s : State) : Host.Outcome State Fault Refusal :=
  let t := s.cur
  match (s.tile t).active with
  | none => .refused .notPending
  | some w =>
    match enterLine s t w with
    | .wait => .refused .notPending
    | .faulted s' => .next s'
    | .ready s' =>
      match (s'.tile t).line with
      | none => .refused .notPending
      | some lb => runSlot run s' t w lb

end Sys2Proof.Machine
end

