-- ==== Sys2Proof/Machine/Moves.lean ====
section
/-!
DEFINITION. The moves that a state offers: instructions that can issue and events that are due or possible. What the spec
orders comes first at its core; what it leaves unordered is taken by a choice (log 1).
-/

namespace Sys2Proof.Machine

open Sys2Proof

/-- A move: the event `i` with its core and packet or record; with none, core `cur` issues its next instruction. -/
structure Move where
  cur : Nat
  sel : Nat := 0
  i   : Option Instr
  deriving DecidableEq, Repr

/-- Make a move. -/
def Move.run (run : Instr → State → Host.Outcome State Fault Refusal) (m : Move) (s : State) : Host.Outcome State Fault Refusal :=
  let s := { s with cur := m.cur, sel := m.sel }
  match m.i with
  | some i => run i s
  | none => issueNext run s

/-- An event is possible: it is not refused. -/
def Move.possible (run : Instr → State → Host.Outcome State Fault Refusal) (s : State) (m : Move) : Bool :=
  match m.run run s with
  | .refused _ => false
  | _ => true

/-! ### Packets -/

/-- The event of an answer that arrives. -/
def replyEvent (s : State) (p : Packet) (a : Answer) : Instr :=
  if !p.merged.isEmpty then .mergedReplySplit
  else match a with
  | .fault _ | .dropped _ _ => .lateFaultReport (.pkt p.id)
  | .parked => .loadReply (.pkt p.id)
  | .data _ _ => (match (s.tile p.dst).outFor (.pkt p.id) p.tag with
    | some o => if o.dst == .none then .acknowledgementArrival (.pkt p.id) else .loadReply (.pkt p.id)
    | none => .loadReply (.pkt p.id))
  | _ => .acknowledgementArrival (.pkt p.id)

/-- The event of an access that arrives at its home. -/
def accessEvent (p : Packet) (op : MemOp) : Instr :=
  match op with
  | .amo _ _ _ _ => .atomicAtHome
  | .ldf _ | .ldfe _ | .stf _ _ | .stef _ _ | .setf | .sete => .feAccessAtHome
  | .sta _ _ => .stampedStoreAtHome
  | .lda _ _ _ => .ldaAtHome
  | .ageq => .ageqAtHome
  | _ => .remoteAccessArrival (.pkt p.id)

/-- The event of a packet. -/
def packetEvent (s : State) (p : Packet) : Instr :=
  if p.refused then (match p.body with
    | .aperture _ _ | .farreq _ => .bteBackoffRetry
    | _ => .niUnaidedRetry)
  else match p.body with
  | .access _ op _ _ => accessEvent p op
  | .code _ _ | .commut _ _ _ => .remoteAccessArrival (.pkt p.id)
  | .farStore _ _ _ => .farStoreArrival (.pkt p.id)
  | .farreq _ => .farreqArrival
  | .aperture _ _ => .apertureRequestArrival
  | .message _ => .messageArrival
  | .start _ => .startArrival
  | .spawn _ _ => .spawnPodArrival
  | .park _ _ => .parkContinuationArrival
  | .wkdec _ _ _ _ => .wakeCounterDecrement
  | .record _ _ _ _ => .queueRecordArrival
  | .grant _ _ => .allowanceGrantArrival
  | .flag _ _ _ _ _ _ => .ofStoreArrival
  | .mirror _ _ _ _ => .mirrorDelivery
  | .multicast _ _ _ _ _ => .multicastDelivery
  | .stop _ _ _ => .stopNoticeArrival
  | .launch _ _ _ => .launchAcceptance
  | .declare _ => .declarationAtHome
  | .abort _ _ _ => .abortNoticeArrival
  | .unlock _ => .lockReleaseAtHome
  | .peerAdd _ _ _ => .peerAddArrival
  | .marker _ _ _ _ => .quantumMarkerArrival
  | .reply a => replyEvent s p a

/-- Packets of the networks, requests that a router could merge, held flags. -/
def netMoves (s : State) : List Move :=
  (s.net.map fun p => { cur := p.dst, sel := p.id, i := some (packetEvent s p) })
    ++ ((s.net.filter fun p => p.mergeable).map fun p => ((s.net.filter fun q => q.mergeable && p.id < q.id).map fun q =>
        ({ cur := p.dst, sel := p.id, i := some (.routerAtomicMerge p.id q.id) } : Move))).flatten
    ++ s.heldFlags.map fun p => { cur := p.dst, sel := p.id, i := some .ofFlagApply }

/-! ### Cores -/

/-- What comes before the next instruction of a core, in this order, as far as it is possible. -/
def forcedEvents (l : Leave) (u : Tile) : List Instr :=
  let due : List Instr := [.fixedLatencyResultWrite, .congestionHalving, .quantumCountExpiry]
  match l with
  | .free => due ++ [.trapEntry, .boostedAbort, .level1Entry, .timeSliceExpiry, .podStart]
  | .lineOnly => due ++ (if u.atLine || u.halted then [] else [.trapEntry])
  | .stopped => [.fixedLatencyResultWrite]

/-- What happens beside the instructions of a core at a moment of its own. -/
def freeEvents (l : Leave) (u : Tile) : List Instr :=
  [.dividerCompletion, .reductionCompletion, .setaDrainComplete, .matrixQueuePerform, .matrixInstructionCompletion,
    .gangBarrierComplete, .pairIntervalClose, .grantWithheldRelease]
  ++ (u.ports.map fun e => Instr.queuePortPush e.1)
  ++ (match l with
    | .free => [.undoTaskStart, .undoFinish, .podTake, .deliveryWindowEnd]
    | _ => [])

/-- The one move with which core t goes on: the first of what comes before its next instruction, else that instruction. -/
def coreMove (run : Instr → State → Host.Outcome State Fault Refusal) (s : State) (t : Nat) : List Move :=
  let l := leaveOf s t
  match ((forcedEvents l (s.tile t)).map fun i => ({ cur := t, i := some i } : Move)).find? (Move.possible run s) with
  | some m => [m]
  | none => if canIssue s t then [{ cur := t, i := none }] else []

/-- The cores that have a record or belong to a cohort. -/
def liveTiles (s : State) : List Nat :=
  let a := (s.tiles.map (·.1)).filter (· < numTiles)
  let b := ((s.cohorts.map fun c => s.membersOf c).flatten).filter fun t => !a.contains t
  a ++ b

/-- The moves of the tiles. -/
def tileMoves (run : Instr → State → Host.Outcome State Fault Refusal) (s : State) : List Move :=
  ((liveTiles s).map fun t =>
    coreMove run s t
      ++ ((freeEvents (leaveOf s t) (s.tile t)).map fun i => ({ cur := t, i := some i } : Move)).filter (Move.possible run s)).flatten

/-! ### Memory cores, channels, the scheduler, husks -/

/-- The context of memory core m that issues next: the one after the last, among those that run (spec/07 R134). One that waits has its
turn, spends it on the attempt, in which it is held, and passes it on: R134 does not say whether a held context loses its turn (DESIGN
CHOICE, log 87). -/
def mcTurn (s : State) (m : Nat) : Option Nat :=
  let last := Sparse.get 7 s.turns m
  ((List.range 8).map fun j => mcDst m + (last + 1 + j) % 8).find? fun a => (s.tile a).active.isSome && (s.mc a).isSome

/-- Note the context whose turn it was, whether it has issued or was held (DESIGN CHOICE, log 87). -/
def noteTurn (s : State) (t : Nat) : State :=
  if numTiles ≤ t then { s with turns := Sparse.set 7 s.turns (mcOf t) ((t - numTiles) % 8) } else s

/-- The moves of the memory cores. -/
def mcMoves (run : Instr → State → Host.Outcome State Fault Refusal) (s : State) : List Move :=
  (s.mcs.map fun e =>
    ([Instr.requestProgramStart, .requestProgramEnd, .dividerCompletion].map fun i => ({ cur := e.1, i := some i } : Move)).filter
        (Move.possible run s)
      ++ (if mcTurn s (mcOf e.1) = some e.1 then coreMove run s e.1 else [])).flatten

/-- The moves of the channels: a word of a copy, or its end. -/
def channelMoves (s : State) : List Move :=
  (s.channels.map fun e =>
    match e.2.active with
    | none => []
    | some t =>
      ([Instr.copyCompletion, .copyFault, .scaleDescriptorDelivery].map fun i => ({ cur := 0, sel := e.1, i := some i } : Move))
        ++ ((List.range t.words).map fun j => [({ cur := 0, sel := e.1, i := some (.remoteAccessArrival (.copy e.1 j)) } : Move),
            { cur := 0, sel := e.1, i := some (.farStoreArrival (.copy e.1 j)) }]).flatten).flatten

/-- The moves of the group scheduler and of evictions. -/
def sweepMoves (s : State) : List Move :=
  ([Instr.slotMapping, .slotRotation, .groupPlacement].map fun i => ({ cur := 0, i := some i } : Move))
    ++ (s.cohorts.map fun c => [({ cur := 0, sel := c.id, i := some .groupRetirement } : Move),
        { cur := 0, sel := c.id, i := some .barrierPhaseComplete }]).flatten
    ++ (s.husks.map fun e => [Instr.evictStopped, .evictDrained, .evictSaved, .restoreComplete].map fun i =>
        ({ cur := 0, sel := e.1, i := some i } : Move)).flatten

/-! ### What comes from outside -/

/-- An event that the world outside the package causes. -/
def external (i : Instr) : Bool :=
  match i with
  | .boot _ | .linkFailure _ _ | .backgroundScrub _ | .ownerCertificate _ | .ownershipHandover _ | .leaseRenewal _
  | .tenantSessionBind _ _ | .hostRead _ | .hostWrite _ | .hostAtomic _ | .hostLaunchSubmit _ | .objectLoad _
  | .attestationReport _ _ | .gatewayAccess _ | .packageReset | .freeze | .freezeRestart | .railThermalAlarm | .leaseLapse => true
  | .loadReply (.remote _ _ _) | .acknowledgementArrival (.remote _ _ _) | .acknowledgementArrival (.copyIn _ _ _)
  | .lateFaultReport (.remote _ _ _) => true
  | _ => false

/-- An answer of another package, which waits where its core cannot take it in yet. -/
def isAnswer (i : Instr) : Bool :=
  match i with
  | .loadReply _ | .acknowledgementArrival _ | .lateFaultReport _ => true
  | _ => false

/-- What waits while the package is frozen: what its tiles have to serve, and what makes a link send (spec/20 R376; log 38). -/
def waitsFrozen (i : Instr) : Bool :=
  isAnswer i || match i with
  | .backgroundScrub _ | .hostRead _ | .hostWrite _ | .hostAtomic _ | .hostLaunchSubmit _ | .objectLoad _ | .gatewayAccess _
  | .linkFailure _ _ | .attestationReport _ _ | .ownerCertificate _ | .ownershipHandover _ => true
  | _ => false

/-- What is served while the tiles are held in reset after a failed boot, when the management port alone answers: the management
controller's own events (spec/20 R375; log 38). -/
def servedInReset (i : Instr) : Bool :=
  match i with
  | .boot _ | .packageReset | .freeze | .freezeRestart | .railThermalAlarm | .leaseLapse => true
  | _ => false

/-- The oldest input is taken in; what cannot be taken in yet goes behind the others. -/
def takeInput (run : Instr → State → Host.Outcome State Fault Refusal) (s : State) : Host.Outcome State Fault Refusal :=
  match s.inputs with
  | [] => .next s
  | i :: r =>
    let s' := { s with inputs := r }
    if !external i then .next s'
    else if (s.frozen && waitsFrozen i) || (!s.powered && !servedInReset i) then .next { s with inputs := r ++ [i] }
    else match run i s' with
      | .refused _ => .next (if isAnswer i then { s with inputs := r ++ [i] } else s')
      | o => o

/-! ### One step -/

/-- Every move that the state offers, inputs apart; none while the package is frozen or its tiles are held in reset. -/
def moves (run : Instr → State → Host.Outcome State Fault Refusal) (s : State) : List Move :=
  if s.frozen || !s.powered then []
  else tileMoves run s ++ mcMoves run s ++ (netMoves s ++ channelMoves s ++ sweepMoves s).filter (Move.possible run s)

/-- Make a move, and note the turn of a memory core. -/
def take (run : Instr → State → Host.Outcome State Fault Refusal) (m : Move) (s : State) : Host.Outcome State Fault Refusal :=
  m.run run (match m.i with
    | none => noteTurn s m.cur
    | some _ => s)

/-- One step: the one move that there is, or one that a choice picks among several; the oldest input counts as one more. With
none the machine stands still. -/
def stepWith (run : Instr → State → Host.Outcome State Fault Refusal) (s : State) : Host.Outcome State Fault Refusal :=
  match moves run s, s.inputs with
  | [], [] => .next s
  | [], _ => takeInput run s
  | [m], [] => take run m s
  | ms, ins =>
    let n := ms.length + if ins.isEmpty then 0 else 1
    let (c, s) := s.choose
    match ms[c % n]? with
    | some m => take run m s
    | none => takeInput run s

/-! ### A program from outside -/

/-- The line with one slot replaced, no pair and every slot a target. -/
def replaceSlot (l : Line) (i : Nat) (w : InstrWord) : Line :=
  Line.build (fun j => if j = i then w else l.slot j) 0x1F 0

/-- The state with an instruction at the PC of the stream that core `cur` runs; with no stream there, in a task of the
supervisor husk on tile 0 at line 0, slot 0 (log 30). -/
def placeWord (s : State) (w : InstrWord) : State :=
  let s := { s with frozen := false, powered := true }
  let put (s : State) (t : Nat) (pc : Nat) : State :=
    let no := pc / 8 % 1024
    let s := setBytes s (istoreKey t (64 * no)) (bytesOf (replaceSlot (istoreLine s t no) (pc % 8) w).toNat 64)
    s.modTile t fun u => { u with line := none, pairNext := false, checkTo := false, stale := [] }
  match (s.tile s.cur).active with
  | some x => put s s.cur ((s.tile s.cur).task x).pc.toNat
  | none =>
    let s := s.setHusk 0 (some { col0 := 0, row0 := 0, width := 1, height := 1 })
    let s := s.modTile 0 fun u =>
      { u.setCtx 0 { task := { tstat := BitVec.ofNat 64 (2 ^ 47), gid := noGroup }, st := .running } with
        cur0 := some 0, lim := u.sliceLen, follows := none }
    put { s with cur := 0 } 0 0

end Sys2Proof.Machine
end

