-- ==== Sys2Proof/Machine/Dispatch.lean ====
section
/-!
DEFINITION. The dispatch of every instruction and event to its meaning.
-/

namespace Sys2Proof.Machine

open Sys2Proof

/-- The meaning of each constructor. -/
def exec (i : Instr) (s : State) : Host.Outcome State Fault Refusal :=
  match i with
  | .boot b => Sys2Proof.Machine.execBoot b s
  | .linkFailure port chips => Sys2Proof.Machine.execLinkFailure port chips s
  | .backgroundScrub word => Sys2Proof.Machine.execBackgroundScrub word s
  | .ownerCertificate m => Sys2Proof.Machine.execOwnerCertificate m s
  | .ownershipHandover m => Sys2Proof.Machine.execOwnershipHandover m s
  | .leaseRenewal m => Sys2Proof.Machine.execLeaseRenewal m s
  | .tenantSessionBind b tenant => Sys2Proof.Machine.execTenantSessionBind b tenant s
  | .hostRead r => Sys2Proof.Machine.execHostRead r s
  | .hostWrite r => Sys2Proof.Machine.execHostWrite r s
  | .hostAtomic r => Sys2Proof.Machine.execHostAtomic r s
  | .hostLaunchSubmit r => Sys2Proof.Machine.execHostLaunchSubmit r s
  | .objectLoad o => Sys2Proof.Machine.execObjectLoad o s
  | .attestationReport session nonce => Sys2Proof.Machine.execAttestationReport session nonce s
  | .farStoreArrival a => Sys2Proof.Machine.execFarStoreArrival a s
  | .queuePortPush port => Sys2Proof.Machine.execQueuePortPush port s
  | .queuePortPop port => Sys2Proof.Machine.execQueuePortPop port s
  | .lateFaultReport r => Sys2Proof.Machine.execLateFaultReport r s
  | .remoteAccessArrival a => Sys2Proof.Machine.execRemoteAccessArrival a s
  | .routerAtomicMerge k1 k2 => Sys2Proof.Machine.execRouterAtomicMerge k1 k2 s
  | .loadReply r => Sys2Proof.Machine.execLoadReply r s
  | .acknowledgementArrival r => Sys2Proof.Machine.execAcknowledgementArrival r s
  | .gatewayAccess g => Sys2Proof.Machine.execGatewayAccess g s
  | .tstatWrite v => Sys2Proof.Machine.execTstatWrite v s
  | .stickyWrite v => Sys2Proof.Machine.execStickyWrite v s
  | .nop f => Sys2Proof.Machine.execNop f s
  | .add f => Sys2Proof.Machine.execAdd f s
  | .addi f => Sys2Proof.Machine.execAddi f s
  | .sub f => Sys2Proof.Machine.execSub f s
  | .mul f => Sys2Proof.Machine.execMul f s
  | .mulh f => Sys2Proof.Machine.execMulh f s
  | .mulhn f => Sys2Proof.Machine.execMulhn f s
  | .div f => Sys2Proof.Machine.execDiv f s
  | .divn f => Sys2Proof.Machine.execDivn f s
  | .rem f => Sys2Proof.Machine.execRem f s
  | .remn f => Sys2Proof.Machine.execRemn f s
  | .and f => Sys2Proof.Machine.execAnd f s
  | .or f => Sys2Proof.Machine.execOr f s
  | .xor f => Sys2Proof.Machine.execXor f s
  | .andn f => Sys2Proof.Machine.execAndn f s
  | .shl f => Sys2Proof.Machine.execShl f s
  | .shr f => Sys2Proof.Machine.execShr f s
  | .sar f => Sys2Proof.Machine.execSar f s
  | .rol f => Sys2Proof.Machine.execRol f s
  | .clz f => Sys2Proof.Machine.execClz f s
  | .ctz f => Sys2Proof.Machine.execCtz f s
  | .popc f => Sys2Proof.Machine.execPopc f s
  | .min f => Sys2Proof.Machine.execMin f s
  | .max f => Sys2Proof.Machine.execMax f s
  | .minn f => Sys2Proof.Machine.execMinn f s
  | .maxn f => Sys2Proof.Machine.execMaxn f s
  | .sext f => Sys2Proof.Machine.execSext f s
  | .zext f => Sys2Proof.Machine.execZext f s
  | .bfx f => Sys2Proof.Machine.execBfx f s
  | .bfxn f => Sys2Proof.Machine.execBfxn f s
  | .bfi f => Sys2Proof.Machine.execBfi f s
  | .sel f => Sys2Proof.Machine.execSel f s
  | .mov f => Sys2Proof.Machine.execMov f s
  | .movi f => Sys2Proof.Machine.execMovi f s
  | .movh f => Sys2Proof.Machine.execMovh f s
  | .movhTop f => Sys2Proof.Machine.execMovhTop f s
  | .cmp f => Sys2Proof.Machine.execCmp f s
  | .cmpi f => Sys2Proof.Machine.execCmpi f s
  | .pset f => Sys2Proof.Machine.execPset f s
  | .plog f => Sys2Proof.Machine.execPlog f s
  | .fadd f => Sys2Proof.Machine.execFadd f s
  | .fsub f => Sys2Proof.Machine.execFsub f s
  | .fmul f => Sys2Proof.Machine.execFmul f s
  | .ffma f => Sys2Proof.Machine.execFfma f s
  | .fdiv f => Sys2Proof.Machine.execFdiv f s
  | .fsqrt f => Sys2Proof.Machine.execFsqrt f s
  | .fmin f => Sys2Proof.Machine.execFmin f s
  | .fmax f => Sys2Proof.Machine.execFmax f s
  | .fabs f => Sys2Proof.Machine.execFabs f s
  | .fneg f => Sys2Proof.Machine.execFneg f s
  | .fcmp f => Sys2Proof.Machine.execFcmp f s
  | .fcvt f => Sys2Proof.Machine.execFcvt f s
  | .ftoi f => Sys2Proof.Machine.execFtoi f s
  | .itof f => Sys2Proof.Machine.execItof f s
  | .fclass f => Sys2Proof.Machine.execFclass f s
  | .br f => Sys2Proof.Machine.execBr f s
  | .bri f => Sys2Proof.Machine.execBri f s
  | .call f => Sys2Proof.Machine.execCall f s
  | .calli f => Sys2Proof.Machine.execCalli f s
  | .ret f => Sys2Proof.Machine.execRet f s
  | .loop f => Sys2Proof.Machine.execLoop f s
  | .bru f => Sys2Proof.Machine.execBru f s
  | .done f => Sys2Proof.Machine.execDone f s
  | .ifence f => Sys2Proof.Machine.execIfence f s
  | .vadd f => Sys2Proof.Machine.execVadd f s
  | .vsub f => Sys2Proof.Machine.execVsub f s
  | .vmul f => Sys2Proof.Machine.execVmul f s
  | .vfma f => Sys2Proof.Machine.execVfma f s
  | .vfms f => Sys2Proof.Machine.execVfms f s
  | .vmin f => Sys2Proof.Machine.execVmin f s
  | .vmax f => Sys2Proof.Machine.execVmax f s
  | .vabs f => Sys2Proof.Machine.execVabs f s
  | .vneg f => Sys2Proof.Machine.execVneg f s
  | .vand f => Sys2Proof.Machine.execVand f s
  | .vor f => Sys2Proof.Machine.execVor f s
  | .vxor f => Sys2Proof.Machine.execVxor f s
  | .vnot f => Sys2Proof.Machine.execVnot f s
  | .vshl f => Sys2Proof.Machine.execVshl f s
  | .vshr f => Sys2Proof.Machine.execVshr f s
  | .vsar f => Sys2Proof.Machine.execVsar f s
  | .vcmp f => Sys2Proof.Machine.execVcmp f s
  | .vsel f => Sys2Proof.Machine.execVsel f s
  | .vmov f => Sys2Proof.Machine.execVmov f s
  | .vbcast f => Sys2Proof.Machine.execVbcast f s
  | .vget f => Sys2Proof.Machine.execVget f s
  | .vput f => Sys2Proof.Machine.execVput f s
  | .vperm f => Sys2Proof.Machine.execVperm f s
  | .vtrn f => Sys2Proof.Machine.execVtrn f s
  | .vredr f => Sys2Proof.Machine.execVredr f s
  | .vredc f => Sys2Proof.Machine.execVredc f s
  | .vscan f => Sys2Proof.Machine.execVscan f s
  | .vrcp f => Sys2Proof.Machine.execVrcp f s
  | .vrsq f => Sys2Proof.Machine.execVrsq f s
  | .vexp2 f => Sys2Proof.Machine.execVexp2 f s
  | .vlog2 f => Sys2Proof.Machine.execVlog2 f s
  | .vtanh f => Sys2Proof.Machine.execVtanh f s
  | .vcvt f => Sys2Proof.Machine.execVcvt f s
  | .vrnd f => Sys2Proof.Machine.execVrnd f s
  | .vqblk f => Sys2Proof.Machine.execVqblk f s
  | .vdq f => Sys2Proof.Machine.execVdq f s
  | .msca f => Sys2Proof.Machine.execMsca f s
  | .rand f => Sys2Proof.Machine.execRand f s
  | .randInc f => Sys2Proof.Machine.execRandInc f s
  | .vrand f => Sys2Proof.Machine.execVrand f s
  | .vrandInc f => Sys2Proof.Machine.execVrandInc f s
  | .mcfg f => Sys2Proof.Machine.execMcfg f s
  | .mloadb f => Sys2Proof.Machine.execMloadb f s
  | .mloadz f => Sys2Proof.Machine.execMloadz f s
  | .mrbuf f => Sys2Proof.Machine.execMrbuf f s
  | .mrbufBc f => Sys2Proof.Machine.execMrbufBc f s
  | .mgang f => Sys2Proof.Machine.execMgang f s
  | .mmul f => Sys2Proof.Machine.execMmul f s
  | .mzeroAcc f => Sys2Proof.Machine.execMzeroAcc f s
  | .mzeroZp f => Sys2Proof.Machine.execMzeroZp f s
  | .mdrain f => Sys2Proof.Machine.execMdrain f s
  | .mdrainp f => Sys2Proof.Machine.execMdrainp f s
  | .mchkcfg f => Sys2Proof.Machine.execMchkcfg f s
  | .msave f => Sys2Proof.Machine.execMsave f s
  | .msaveFree f => Sys2Proof.Machine.execMsaveFree f s
  | .mrestore f => Sys2Proof.Machine.execMrestore f s
  | .mstat f => Sys2Proof.Machine.execMstat f s
  | .mstatClr f => Sys2Proof.Machine.execMstatClr f s
  | .ld f => Sys2Proof.Machine.execLd f s
  | .st f => Sys2Proof.Machine.execSt f s
  | .stOf f => Sys2Proof.Machine.execStOf f s
  | .ldb f => Sys2Proof.Machine.execLdb f s
  | .stb f => Sys2Proof.Machine.execStb f s
  | .ldacq f => Sys2Proof.Machine.execLdacq f s
  | .strel f => Sys2Proof.Machine.execStrel f s
  | .ldf f => Sys2Proof.Machine.execLdf f s
  | .ldfe f => Sys2Proof.Machine.execLdfe f s
  | .stf f => Sys2Proof.Machine.execStf f s
  | .stef f => Sys2Proof.Machine.execStef f s
  | .setf f => Sys2Proof.Machine.execSetf f s
  | .sete f => Sys2Proof.Machine.execSete f s
  | .ldaW f => Sys2Proof.Machine.execLdaW f s
  | .ldaT f => Sys2Proof.Machine.execLdaT f s
  | .ldaN f => Sys2Proof.Machine.execLdaN f s
  | .sta f => Sys2Proof.Machine.execSta f s
  | .stam f => Sys2Proof.Machine.execStam f s
  | .setit f => Sys2Proof.Machine.execSetit f s
  | .advit f => Sys2Proof.Machine.execAdvit f s
  | .endw f => Sys2Proof.Machine.execEndw f s
  | .endwGroup f => Sys2Proof.Machine.execEndwGroup f s
  | .ageq f => Sys2Proof.Machine.execAgeq f s
  | .stfar f => Sys2Proof.Machine.execStfar f s
  | .stfarB f => Sys2Proof.Machine.execStfarB f s
  | .farreq f => Sys2Proof.Machine.execFarreq f s
  | .aadd f => Sys2Proof.Machine.execAadd f s
  | .amin f => Sys2Proof.Machine.execAmin f s
  | .amax f => Sys2Proof.Machine.execAmax f s
  | .aminn f => Sys2Proof.Machine.execAminn f s
  | .amaxn f => Sys2Proof.Machine.execAmaxn f s
  | .aand f => Sys2Proof.Machine.execAand f s
  | .aor f => Sys2Proof.Machine.execAor f s
  | .axor f => Sys2Proof.Machine.execAxor f s
  | .aswap f => Sys2Proof.Machine.execAswap f s
  | .acas f => Sys2Proof.Machine.execAcas f s
  | .fence f => Sys2Proof.Machine.execFence f s
  | .fenceAck f => Sys2Proof.Machine.execFenceAck f s
  | .send f => Sys2Proof.Machine.execSend f s
  | .sendb f => Sys2Proof.Machine.execSendb f s
  | .spawn f => Sys2Proof.Machine.execSpawn f s
  | .park f => Sys2Proof.Machine.execPark f s
  | .wait f => Sys2Proof.Machine.execWait f s
  | .yield f => Sys2Proof.Machine.execYield f s
  | .wkset f => Sys2Proof.Machine.execWkset f s
  | .wkdec f => Sys2Proof.Machine.execWkdec f s
  | .qbindPop f => Sys2Proof.Machine.execQbindPop f s
  | .qbindPush f => Sys2Proof.Machine.execQbindPush f s
  | .qbindNone f => Sys2Proof.Machine.execQbindNone f s
  | .hqcfg f => Sys2Proof.Machine.execHqcfg f s
  | .albind f => Sys2Proof.Machine.execAlbind f s
  | .albindNone f => Sys2Proof.Machine.execAlbindNone f s
  | .balw f => Sys2Proof.Machine.execBalw f s
  | .mask1 f => Sys2Proof.Machine.execMask1 f s
  | .unmask1 f => Sys2Proof.Machine.execUnmask1 f s
  | .launch f => Sys2Proof.Machine.execLaunch f s
  | .lstat f => Sys2Proof.Machine.execLstat f s
  | .barw f => Sys2Proof.Machine.execBarw f s
  | .bara f => Sys2Proof.Machine.execBara f s
  | .quant f => Sys2Proof.Machine.execQuant f s
  | .quantW f => Sys2Proof.Machine.execQuantW f s
  | .bbegin f => Sys2Proof.Machine.execBbegin f s
  | .bdecl f => Sys2Proof.Machine.execBdecl f s
  | .bcommit f => Sys2Proof.Machine.execBcommit f s
  | .babort f => Sys2Proof.Machine.execBabort f s
  | .btload f => Sys2Proof.Machine.execBtload f s
  | .bstat f => Sys2Proof.Machine.execBstat f s
  | .trap f => Sys2Proof.Machine.execTrap f s
  | .trapS f => Sys2Proof.Machine.execTrapS f s
  | .tret f => Sys2Proof.Machine.execTret f s
  | .tfence f => Sys2Proof.Machine.execTfence f s
  | .gets f => Sys2Proof.Machine.execGets f s
  | .sets f => Sys2Proof.Machine.execSets f s
  | .setsTvec f => Sys2Proof.Machine.execSetsTvec f s
  | .setsSvec f => Sys2Proof.Machine.execSetsSvec f s
  | .setsSlice f => Sys2Proof.Machine.execSetsSlice f s
  | .setsCtxbase f => Sys2Proof.Machine.execSetsCtxbase f s
  | .setsEstat f => Sys2Proof.Machine.execSetsEstat f s
  | .seta f => Sys2Proof.Machine.execSeta f s
  | .pair f => Sys2Proof.Machine.execPair f s
  | .unpair f => Sys2Proof.Machine.execUnpair f s
  | .digest f => Sys2Proof.Machine.execDigest f s
  | .digestClr f => Sys2Proof.Machine.execDigestClr f s
  | .huskcfgDef f => Sys2Proof.Machine.execHuskcfgDef f s
  | .huskcfgKill f => Sys2Proof.Machine.execHuskcfgKill f s
  | .huskcfgFlush f => Sys2Proof.Machine.execHuskcfgFlush f s
  | .huskcfgTab f => Sys2Proof.Machine.execHuskcfgTab f s
  | .huskcfgUndef f => Sys2Proof.Machine.execHuskcfgUndef f s
  | .brkpt f => Sys2Proof.Machine.execBrkpt f s
  | .evict f => Sys2Proof.Machine.execEvict f s
  | .evictRestore f => Sys2Proof.Machine.execEvictRestore f s
  | .packageReset => Sys2Proof.Machine.execPackageReset s
  | .freeze => Sys2Proof.Machine.execFreeze s
  | .freezeRestart => Sys2Proof.Machine.execFreezeRestart s
  | .railThermalAlarm => Sys2Proof.Machine.execRailThermalAlarm s
  | .leaseLapse => Sys2Proof.Machine.execLeaseLapse s
  | .farreqArrival => Sys2Proof.Machine.execFarreqArrival s
  | .requestProgramStart => Sys2Proof.Machine.execRequestProgramStart s
  | .requestProgramEnd => Sys2Proof.Machine.execRequestProgramEnd s
  | .apertureRequestArrival => Sys2Proof.Machine.execApertureRequestArrival s
  | .bteBackoffRetry => Sys2Proof.Machine.execBteBackoffRetry s
  | .copyCompletion => Sys2Proof.Machine.execCopyCompletion s
  | .copyFault => Sys2Proof.Machine.execCopyFault s
  | .scaleDescriptorDelivery => Sys2Proof.Machine.execScaleDescriptorDelivery s
  | .wakeCounterDecrement => Sys2Proof.Machine.execWakeCounterDecrement s
  | .messageArrival => Sys2Proof.Machine.execMessageArrival s
  | .startArrival => Sys2Proof.Machine.execStartArrival s
  | .spawnPodArrival => Sys2Proof.Machine.execSpawnPodArrival s
  | .parkContinuationArrival => Sys2Proof.Machine.execParkContinuationArrival s
  | .queueRecordArrival => Sys2Proof.Machine.execQueueRecordArrival s
  | .allowanceGrantArrival => Sys2Proof.Machine.execAllowanceGrantArrival s
  | .grantWithheldRelease => Sys2Proof.Machine.execGrantWithheldRelease s
  | .congestionHalving => Sys2Proof.Machine.execCongestionHalving s
  | .niUnaidedRetry => Sys2Proof.Machine.execNiUnaidedRetry s
  | .podStart => Sys2Proof.Machine.execPodStart s
  | .podTake => Sys2Proof.Machine.execPodTake s
  | .level1Entry => Sys2Proof.Machine.execLevel1Entry s
  | .timeSliceExpiry => Sys2Proof.Machine.execTimeSliceExpiry s
  | .trapEntry => Sys2Proof.Machine.execTrapEntry s
  | .atomicAtHome => Sys2Proof.Machine.execAtomicAtHome s
  | .mergedReplySplit => Sys2Proof.Machine.execMergedReplySplit s
  | .feAccessAtHome => Sys2Proof.Machine.execFeAccessAtHome s
  | .stampedStoreAtHome => Sys2Proof.Machine.execStampedStoreAtHome s
  | .mirrorDelivery => Sys2Proof.Machine.execMirrorDelivery s
  | .ldaAtHome => Sys2Proof.Machine.execLdaAtHome s
  | .ageqAtHome => Sys2Proof.Machine.execAgeqAtHome s
  | .stopNoticeArrival => Sys2Proof.Machine.execStopNoticeArrival s
  | .ofStoreArrival => Sys2Proof.Machine.execOfStoreArrival s
  | .ofFlagApply => Sys2Proof.Machine.execOfFlagApply s
  | .multicastDelivery => Sys2Proof.Machine.execMulticastDelivery s
  | .launchAcceptance => Sys2Proof.Machine.execLaunchAcceptance s
  | .slotMapping => Sys2Proof.Machine.execSlotMapping s
  | .slotRotation => Sys2Proof.Machine.execSlotRotation s
  | .groupPlacement => Sys2Proof.Machine.execGroupPlacement s
  | .groupRetirement => Sys2Proof.Machine.execGroupRetirement s
  | .barrierPhaseComplete => Sys2Proof.Machine.execBarrierPhaseComplete s
  | .quantumCountExpiry => Sys2Proof.Machine.execQuantumCountExpiry s
  | .deliveryWindowEnd => Sys2Proof.Machine.execDeliveryWindowEnd s
  | .declarationAtHome => Sys2Proof.Machine.execDeclarationAtHome s
  | .abortNoticeArrival => Sys2Proof.Machine.execAbortNoticeArrival s
  | .boostedAbort => Sys2Proof.Machine.execBoostedAbort s
  | .undoTaskStart => Sys2Proof.Machine.execUndoTaskStart s
  | .undoFinish => Sys2Proof.Machine.execUndoFinish s
  | .lockReleaseAtHome => Sys2Proof.Machine.execLockReleaseAtHome s
  | .matrixQueuePerform => Sys2Proof.Machine.execMatrixQueuePerform s
  | .matrixInstructionCompletion => Sys2Proof.Machine.execMatrixInstructionCompletion s
  | .peerAddArrival => Sys2Proof.Machine.execPeerAddArrival s
  | .gangBarrierComplete => Sys2Proof.Machine.execGangBarrierComplete s
  | .pairIntervalClose => Sys2Proof.Machine.execPairIntervalClose s
  | .evictStopped => Sys2Proof.Machine.execEvictStopped s
  | .evictDrained => Sys2Proof.Machine.execEvictDrained s
  | .evictSaved => Sys2Proof.Machine.execEvictSaved s
  | .restoreComplete => Sys2Proof.Machine.execRestoreComplete s
  | .setaDrainComplete => Sys2Proof.Machine.execSetaDrainComplete s
  | .dividerCompletion => Sys2Proof.Machine.execDividerCompletion s
  | .reductionCompletion => Sys2Proof.Machine.execReductionCompletion s
  | .fixedLatencyResultWrite => Sys2Proof.Machine.execFixedLatencyResultWrite s
  | .quantumMarkerArrival => Sys2Proof.Machine.execQuantumMarkerArrival s

end Sys2Proof.Machine
end

