-- ==== Sys2Proof/Safety.lean ====
section
/-!
DEFINITION. What counts as a safe step, and the conditions and outcomes in terms of which the statements speak.
-/

namespace Sys2Proof.Machine

open Sys2Proof

/-- The memory is in its canonical form. -/
def State.memOk (s : State) : Bool := Memory.wf s.mem

/-- The outcome is a next state. -/
def isNext (o : Host.Outcome State Fault Refusal) : Bool :=
  match o with
  | .next _ => true
  | _ => false

/-- Stream `w` of core `s.cur` issues instruction `i`, of form `m` and fields `f`, and nothing holds it or faults before its own
effect (spec/10 R169, R170, R177, R178): under PX nothing issued before can still fault (spec/04 R67), no late fault or array fault is due
here (spec/04 R66, spec/14 R252), its wait mask is clear, its masked window has room (spec/15 R285), its guard holds, a gang
member that may leave its line here has the statuses of its accesses (spec/06 R102), a pair's interval need not close first
(spec/19 R358), it reads no pending result under SCHK (spec/10 R179), its fields, level and mode pass the checks of R169, and no hold
of issue applies. `s1` and `x` are the state and the operands once its sources are read. -/
structure Issues (s : State) (w : Who) (i : Instr) (m : Form) (f : Fields) (s1 : State) (x : In) : Prop where
  form     : i.form? = some m
  fields   : i.word?.map (·.2) = some f
  active   : (s.tile s.cur).active = some w
  settled  : (s.tile s.cur).pxHolds w = false
  noLate   : lateAtIssue s s.cur w i m f true = none
  noArray  : arrayAtIssue s s.cur w i f true = none
  waited   : ((s.tile s.cur).task w).maskClear (waitMaskOf (s.tile s.cur) w f) = true
  window   : (((s.tile s.cur).task w).mwo && decide (256 ≤ ((s.tile s.cur).task w).mcnt)) = false
  guard    : guardOfStream (s.tile s.cur) w i f = some true
  leaves   : (leavesGangLine ((s.tile s.cur).task w) w i && (s.tile s.cur).out.any fun o => o.who = w && o.status) = false
  interval : (pairCloses i (readReg s s.cur w f.a.toNat) && (s.tile s.cur).pairOpen) = false
  noStall  : (s.tile s.cur).stalls w i m f = false
  checks   : decodeChecks s s.cur w i m f = .ok ()
  free     : issueHolds s s.cur w i m f = .ok ()
  reads    : operands m f s.cur w s = .ok (s1, x)

/-- The state after an instruction whose effect left `s2`: it has retired (spec/10 R175). -/
def retired (s1 : State) (x : In) (m : Form) (s2 : State) (a : After) : State :=
  retire s2 x.t x.w x.f (m.beats x.f) ((s1.tile x.t).task x.w).mwo true a

/-- The instructions `i f` complete wherever they issue and `cond` holds of operands and state: the next state is the one
that `out` gives, retired. -/
def Gives (i : Fields → Instr) (cond : In → State → Prop) (out : In → State → State × After) : Prop :=
  ∀ (s : State) (w : Who) (m : Form) (f : Fields) (s1 : State) (x : In), Issues s w (i f) m f s1 x → cond x s1 →
    exec (i f) s = .next (retired s1 x m (out x s1).1 (out x s1).2)

/-- As `Gives`, on any operands, the next slot following. -/
def Results (i : Fields → Instr) (out : In → State → State) : Prop := Gives i (fun _ _ => True) fun x s => (out x s, .next)

/-! ### Memory instructions -/

/-- What a memory instruction asks of the address that it forms, and whether that address meets its own alignment (spec/06
Tables 1 to 11, spec/05 Table 3, spec/06 R98): ST.of and STAM have parts of their own. The own alignment of a stamped access is one of
`lineChecks`. -/
def request (i : Instr) (x : In) (s : State) : Option (Req × Word × Bool) :=
  let ld (op : MemOp) (k : AKind) (o : OKind) : Option (Req × Word × Bool) :=
    some ({ k := k, op := op, kind := o, dst := .reg x.f.dest.toNat x.f.ty }, x.addr, x.aligned)
  let st (op : MemOp) (k : AKind) (o : OKind) : Option (Req × Word × Bool) :=
    some ({ k := k, op := op, kind := o }, x.addr, x.aligned)
  let amo (op : AmoOp) : Option (Req × Word × Bool) :=
    some ({ k := .atomic, op := .amo op x.f.ty.bits (BitVec.ofNat 64 x.bv) (BitVec.ofNat 64 x.cv), kind := .atomic
            dst := if x.f.minor.getLsbD 0 then .none else .reg x.f.dest.toNat x.f.ty
            merge := x.f.minor.toNat / 2 == 0, mty := x.f.ty.code, acq := x.f.minor.getLsbD 1 }, x.addr, x.aligned)
  let lda (v : LdaVariant) : Option (Req × Word × Bool) :=
    some ({ k := .stamped, op := .lda v (((s.tile x.t).task x.w).it - BitVec.ofNat 32 x.low16) x.f.scope.toNat, kind := .load
            dst := .lda (blockRegs x.f.dest.toNat 1 8) x.f.b.toNat, acq := x.scope s != 0 }, x.lineAddr, true)
  let wide : Bool := x.f.ty.code == 6 || x.f.ty.code == 7
  match i with
  | .ld _ => ld (.load x.size) .load .load
  | .ldacq _ => some ({ k := .load, op := .load x.size, kind := .load, dst := .reg x.f.dest.toNat x.f.ty, acq := true }, x.addr, x.aligned)
  | .ldf _ => ld (.ldf x.size) .fullEmpty .fullEmpty
  | .ldfe _ => ld (.ldfe x.size) .fullEmpty .fullEmpty
  | .st _ => st (.store x.size x.data) (.store wide) .store
  | .strel _ => some ({ k := .release wide, op := .store x.size x.data, kind := .store, strong := true }, x.addr, x.aligned)
  | .stf _ => st (.stf x.size x.data) .fullEmpty .fullEmpty
  | .stef _ => st (.stef x.size x.data) .fullEmpty .fullEmpty
  | .setf _ => some ({ k := .fullEmpty, op := .setf, kind := .fullEmpty }, x.addr, x.addr.toNat % 8 == 0)
  | .sete _ => some ({ k := .fullEmpty, op := .sete, kind := .fullEmpty }, x.addr, x.addr.toNat % 8 == 0)
  | .ldb _ => some ({ k := .load, op := .loadBlock (x.f.h * x.f.wd), kind := .load
                      dst := .block (blockRegs x.f.dest.toNat x.f.h x.f.wd) }, x.addr, x.blockAligned)
  | .stb _ => some ({ k := .storeBlock (blockWords s x x.f.b.toNat).length, op := .storeBlock (blockWords s x x.f.b.toNat)
                      kind := .store }, x.addr, x.blockAligned)
  | .stfar _ => st (.store x.size x.data) .farStore .store
  | .stfarB _ => some ({ k := .farStore, op := .storeBlock (blockWords s x x.f.b.toNat), kind := .store }, x.addr,
      x.addr.toNat % 8 == 0 && x.addr.toNat % 64 + 8 * (blockWords s x x.f.b.toNat).length ≤ 64)
  | .aadd _ => amo .add
  | .amin _ => amo .min
  | .amax _ => amo .max
  | .aminn _ => amo .minn
  | .amaxn _ => amo .maxn
  | .aand _ => amo .and
  | .aor _ => amo .or
  | .axor _ => amo .xor
  | .aswap _ => amo .swap
  | .acas _ => amo .cas
  | .ldaW _ => lda .w
  | .ldaT _ => lda .t
  | .ldaN _ => lda .n
  | .sta _ => some ({ k := .stamped, op := .sta (lineOf s x) (x.b.setWidth 32), kind := .store }, x.lineAddr, true)
  | .ageq _ => some ({ k := .stamped, op := .ageq, kind := .load, dst := .ageq x.f.dest.toNat, acq := x.scope s != 0 },
      x.lineAddr, true)
  | _ => none

/-- The release that the instruction waits for has come: STREL, an atomic with `.rel`, an STA whose scope comes to more than the core
(spec/06 R115, R123, spec/05 R91, spec/04 R48). -/
def released (i : Instr) (x : In) (s : State) : Bool :=
  match i with
  | .strel _ => !(s.tile x.t).owes x.w true false
  | .aadd _ | .amin _ | .amax _ | .aminn _ | .amaxn _ | .aand _ | .aor _ | .axor _ | .aswap _ | .acas _ =>
    !x.f.minor.getLsbD 2 || !(s.tile x.t).owes x.w true false
  | .sta _ => x.scope s == 0 || !(s.tile x.t).owes x.w true false
  | _ => true

/-- The checks that an instruction makes before it waits, or before its own alignment, pass (spec/06 R115, R123, spec/05 R91). -/
def checkedFirst (i : Instr) (x : In) (s : State) : Prop :=
  match i with
  | .strel _ => checkAll x s (.release (x.f.ty.code == 6 || x.f.ty.code == 7)) x.addr x.aligned x.size true = .ok ()
  | .aadd _ | .amin _ | .amax _ | .aminn _ | .amaxn _ | .aand _ | .aor _ | .axor _ | .aswap _ | .acas _ =>
    x.f.minor.getLsbD 2 = true → checkAll x s .atomic x.addr x.aligned (x.f.ty.bits / 8) true = .ok ()
  | .sta _ => lineChecks x s true = .ok ()
  | .ldaW _ | .ldaT _ | .ldaN _ | .ageq _ => lineChecks x s false = .ok ()
  | _ => True

/-- The access goes to the issuing core's own slice at once: a pair's atomic without return waits for its interval
(spec/19 R359). -/
def ownAtOnce (x : In) (s : State) (r : Req) (h : Nat) : Bool :=
  h == x.t && !((s.tile x.t).pairing.isSome && (match r.op with
    | .amo _ _ _ _ => r.dst == .none
    | _ => false))

/-- An access of the core's own slice as its home sees it (spec/02 R10, spec/06 R100). -/
def performOwn (x : In) (s : State) (off : Nat) (op : MemOp) : State × Answer :=
  performAt s x.t off op (.core x.t x.seq (genOf (s.tile x.t) x.w)) (!((s.tile x.t).task x.w).sup) ((s.tile x.t).activeBoost x.w)
    (some (s.cidOf x.t))

end Sys2Proof.Machine
end

