-- ==== Sys2Proof/Certificates/Slice0/Obligations.lean ====
section
/-!
DEFINITION. The statements for the provers. Each docstring names the rules of the spec that the statement formalises.
-/

open Sys2Proof Sys2Proof.Machine

/-! ### Scalar instructions -/

/-- The integer arithmetic, logic, shift, count, minimum, move and select instructions complete, and give the value of spec/12 Table 2
on the low n bits of their sources, extended by their type, without a flag (R198); NOP has no effect, and the all-zero word is a NOP
whose guard is p0 and whose set counter is d0 (spec/12 R201). -/
def Obligations.IntegerInstructionsGiveTheirValue : Prop :=
  Results .add (fun x s => resultN x s 1 ((x.av + x.bv) % 2 ^ x.f.ty.bits) 0)
  ∧ Results .addi (fun x s => resultN x s 1 ((x.av + x.iv) % 2 ^ x.f.ty.bits) 0)
  ∧ Results .sub (fun x s => resultN x s 1 (wrap x.f.ty.bits ((x.av : Int) - x.bv)) 0)
  ∧ Results .mul (fun x s => resultN x s 3 (x.av * x.bv % 2 ^ x.f.ty.bits) 0)
  ∧ Results .mulh (fun x s => resultN x s 3
      (wrap x.f.ty.bits (sgn x.f.ty.bits x.av * sgn x.f.ty.bits x.bv / (2 ^ x.f.ty.bits : Nat))) 0)
  ∧ Results .mulhn (fun x s => resultN x s 3 (x.av * x.bv / 2 ^ x.f.ty.bits) 0)
  ∧ Results .and (fun x s => resultN x s 1 (x.av &&& x.bv) 0)
  ∧ Results .or (fun x s => resultN x s 1 (x.av ||| x.bv) 0)
  ∧ Results .xor (fun x s => resultN x s 1 (x.av ^^^ x.bv) 0)
  ∧ Results .andn (fun x s => resultN x s 1 (BitVec.ofNat x.f.ty.bits x.av &&& ~~~BitVec.ofNat x.f.ty.bits x.bv).toNat 0)
  ∧ Results .shl (fun x s => resultN x s 1 (x.av * 2 ^ x.shift % 2 ^ x.f.ty.bits) 0)
  ∧ Results .shr (fun x s => resultN x s 1 (x.av / 2 ^ x.shift) 0)
  ∧ Results .sar (fun x s => resultN x s 1 (wrap x.f.ty.bits (sgn x.f.ty.bits x.av / (2 ^ x.shift : Nat))) 0)
  ∧ Results .rol (fun x s =>
      resultN x s 1 ((x.av * 2 ^ x.shift + x.av / 2 ^ (x.f.ty.bits - x.shift)) % 2 ^ x.f.ty.bits) 0)
  ∧ Results .clz (fun x s => resultN x s 1 (clzN x.f.ty.bits x.av) 0)
  ∧ Results .ctz (fun x s => resultN x s 1 (ctzN x.av x.f.ty.bits) 0)
  ∧ Results .popc (fun x s => resultN x s 1 (popcN x.av x.f.ty.bits) 0)
  ∧ Results .min (fun x s => resultN x s 1 (if sgn x.f.ty.bits x.av ≤ sgn x.f.ty.bits x.bv then x.av else x.bv) 0)
  ∧ Results .max (fun x s => resultN x s 1 (if sgn x.f.ty.bits x.av ≤ sgn x.f.ty.bits x.bv then x.bv else x.av) 0)
  ∧ Results .minn (fun x s => resultN x s 1 (min x.av x.bv) 0)
  ∧ Results .maxn (fun x s => resultN x s 1 (max x.av x.bv) 0)
  ∧ Results .mov (fun x s => resultN x s 1 x.av 0)
  ∧ Results .movi (fun x s => resultN x s 1 x.iv 0)
  ∧ Results .sel (fun x s => resultN x s 1 (if x.c.getLsbD 0 then x.av else x.bv) 0)
  ∧ Results .nop (fun _ s => s)
  ∧ ∃ f, decodeWord 0 = .ok (.nop f) ∧ f.pred = 0 ∧ f.setc = 0 ∧ f.neg = false

/-- The bit-field instructions and MOVH act on all 64 bits: SEXT and ZEXT extend from bit p, BFX and BFXN give the field extended, BFI,
MOVH and MOVH.top replace the named bits of their source (spec/12 R203, R204). A replaced field holds the new value, and every
other bit of the word is as before. -/
def Obligations.FieldAndMoveInstructionsGiveTheirValue : Prop :=
  (Results .sext (fun x s => resultW x s 1 (sext64 (x.f.imm.toNat + 1) x.a.toNat) 0)
  ∧ Results .zext (fun x s => resultW x s 1 (BitVec.ofNat 64 (x.a.toNat % 2 ^ (x.f.imm.toNat + 1))) 0)
  ∧ Results .bfx (fun x s =>
      resultW x s 1 (sext64 (x.f.imm.toNat / 64 + 1) (x.a.toNat / 2 ^ (x.f.imm.toNat % 64))) 0)
  ∧ Results .bfxn (fun x s =>
      resultW x s 1 (BitVec.ofNat 64 (x.a.toNat / 2 ^ (x.f.imm.toNat % 64) % 2 ^ (x.f.imm.toNat / 64 + 1))) 0)
  ∧ Results .bfi (fun x s => resultW x s 1
      (setField x.a (x.f.imm.toNat % 64 + (x.f.imm.toNat / 64 + 1) - 1) (x.f.imm.toNat % 64) x.b.toNat) 0)
  ∧ Results .movh (fun x s => resultW x s 1 (setField x.a 55 28 x.f.imm.toNat) 0)
  ∧ Results .movhTop (fun x s => resultW x s 1 (setField x.a 63 56 x.f.imm.toNat) 0))
  ∧ (∀ (x : Word) (hi lo v i : Nat), lo ≤ hi → hi < 64 → i < 64 →
    (setField x hi lo v).getLsbD i = if lo ≤ i ∧ i ≤ hi then v.testBit (i - lo) else x.getLsbD i)

/-- CMP, CMPI and FCMP write c and ¬c to their two predicates, combined with the old values as their minor asks; PSET writes the
predicates of its mask, and PLOG the value of its truth table (spec/12 R205, R207, R211). -/
def Obligations.ComparesAndPredicatesWriteTheirPredicates : Prop :=
  Results .cmp (fun x s => emit s x 1 (compareWrites x s (intCond x x.av x.bv)) 0)
  ∧ Results .cmpi (fun x s => emit s x 1 (compareWrites x s (intCond x x.av x.iv)) 0)
  ∧ Results .fcmp (fun x s =>
      emit s x 4 (compareWrites x s (fcond (x.f.minor.toNat % 4) x.fa x.fb).1) (fcond (x.f.minor.toNat % 4) x.fa x.fb).2)
  ∧ Results .pset (fun x s => emit s x 1
      (((List.range 7).filter fun i => x.f.imm.getLsbD (8 + i)).map fun i => (0x60 + i, ofB (x.f.imm.getLsbD i))) 0)
  ∧ Results .plog (fun x s => resultW x s 1 (ofB (x.f.minor.getLsbD (2 * (x.a.toNat % 2) + x.b.toNat % 2))) 0)
  ∧ ∀ (x : In) (s : State) (c : Bool),
      (x.f.minor.toNat < 4 → compareWrites x s c = [(x.f.dest.toNat, ofB c), (x.f.c.toNat, ofB !c)])
      ∧ (4 ≤ x.f.minor.toNat → x.f.minor.toNat < 8 → compareWrites x s c =
          [(x.f.dest.toNat, ofB ((readReg s x.t x.w x.f.dest.toNat).getLsbD 0 && c)),
            (x.f.c.toNat, ofB ((readReg s x.t x.w x.f.c.toNat).getLsbD 0 && !c))])
      ∧ (8 ≤ x.f.minor.toNat → compareWrites x s c =
          [(x.f.dest.toNat, ofB ((readReg s x.t x.w x.f.dest.toNat).getLsbD 0 || c)),
            (x.f.c.toNat, ofB ((readReg s x.t x.w x.f.c.toNat).getLsbD 0 || !c))])

/-- The floating instructions of fixed latency complete with their rounded value and flags, four cycles later, or one for
FABS, FNEG and FCLASS (spec/12 R209 to R213, spec/10 Table 8). -/
def Obligations.FloatInstructionsGiveTheirValue : Prop :=
  Results .fadd (fun x s => resultN x s 4 (faddV (fmtOf x.f.ty) x.rm x.fa x.fb).1 (faddV (fmtOf x.f.ty) x.rm x.fa x.fb).2)
  ∧ Results .fsub (fun x s =>
      resultN x s 4 (faddV (fmtOf x.f.ty) x.rm x.fa x.fb.flip).1 (faddV (fmtOf x.f.ty) x.rm x.fa x.fb.flip).2)
  ∧ Results .fmul (fun x s => resultN x s 4 (fmulV (fmtOf x.f.ty) x.rm x.fa x.fb).1 (fmulV (fmtOf x.f.ty) x.rm x.fa x.fb).2)
  ∧ Results .ffma (fun x s =>
      resultN x s 4 (ffmaV (fmtOf x.f.ty) x.rm x.fa x.fb x.fc).1 (ffmaV (fmtOf x.f.ty) x.rm x.fa x.fb x.fc).2)
  ∧ Results .fmin (fun x s =>
      resultN x s 4 (fminmax (fmtOf x.f.ty) false x.av x.bv).1 (fminmax (fmtOf x.f.ty) false x.av x.bv).2)
  ∧ Results .fmax (fun x s =>
      resultN x s 4 (fminmax (fmtOf x.f.ty) true x.av x.bv).1 (fminmax (fmtOf x.f.ty) true x.av x.bv).2)
  ∧ Results .fabs (fun x s =>
      resultN x s 1 (fsignOp (fmtOf x.f.ty) false x.av).1 (fsignOp (fmtOf x.f.ty) false x.av).2)
  ∧ Results .fneg (fun x s =>
      resultN x s 1 (fsignOp (fmtOf x.f.ty) true x.av).1 (fsignOp (fmtOf x.f.ty) true x.av).2)
  ∧ Results .fcvt (fun x s =>
      let r := fcvtV x.rm (fmtOf x.floatSrc) (fmtOf x.f.ty) (x.a.toNat % 2 ^ x.floatSrc.bits)
      resultN x s 4 r.1 r.2)
  ∧ Results .ftoi (fun x s =>
      let r := ftoiV (if x.f.minor.getLsbD 2 then rmRTZ else x.rm) (fmtOf x.floatSrc) x.f.ty.signed x.f.ty.bits
        (x.a.toNat % 2 ^ x.floatSrc.bits)
      resultN x s 4 r.1 r.2)
  ∧ Results .itof (fun x s =>
      let r := itofScalar x.rm (fmtOf x.f.ty) (intOf (Ty.ofCode (x.f.minor.toNat % 8)) x.a.toNat)
      resultN x s 4 r.1 r.2)
  ∧ Results .fclass (fun x s => resultW x s 1 (BitVec.ofNat 64 (fclassV (fmtOf x.f.ty) x.av)) 0)

/-- A division, a remainder or a square root goes to the divider where it holds no other operation, and its counter is raised; while it
holds one, none issues. The divider's completion writes the result, sets the flags and lowers the counter of the task that issued it.
Integer division by zero gives all ones and the dividend with IDZ, the most negative number by −1 itself and 0, and any other the
quotient truncated towards zero and its remainder (spec/12 R202). -/
def Obligations.DivisionsRunInTheDivider : Prop :=
  (let free : In → State → Prop := fun x s => (s.tile x.t).divider = none
   let starts (v : In → Word) (fl : In → Nat) : In → State → State × After := fun x s =>
     (s.modTile x.t fun u =>
       { u.modTask x.w (·.raise x.f.setc.toNat) with
         divider := some { who := x.w, tag := x.seq, writes := realWrites [(x.f.dest.toNat, v x)], flags := fl x, lower := x.f.setc.toNat } },
       .next)
   Gives .div free (starts (fun x => extendLoad x.f.ty (divide true x.f.ty.bits x.av x.bv).1)
      fun x => (divide true x.f.ty.bits x.av x.bv).2.2)
   ∧ Gives .divn free (starts (fun x => extendLoad x.f.ty (divide false x.f.ty.bits x.av x.bv).1)
      fun x => (divide false x.f.ty.bits x.av x.bv).2.2)
   ∧ Gives .rem free (starts (fun x => extendLoad x.f.ty (divide true x.f.ty.bits x.av x.bv).2.1)
      fun x => (divide true x.f.ty.bits x.av x.bv).2.2)
   ∧ Gives .remn free (starts (fun x => extendLoad x.f.ty (divide false x.f.ty.bits x.av x.bv).2.1)
      fun x => (divide false x.f.ty.bits x.av x.bv).2.2)
   ∧ Gives .fdiv free (starts (fun x => extendLoad x.f.ty (fdivV (fmtOf x.f.ty) x.rm x.fa x.fb).1)
      fun x => (fdivV (fmtOf x.f.ty) x.rm x.fa x.fb).2)
   ∧ Gives .fsqrt free (starts (fun x => extendLoad x.f.ty (fsqrtV (fmtOf x.f.ty) x.rm x.fa).1)
      fun x => (fsqrtV (fmtOf x.f.ty) x.rm x.fa).2))
  ∧ (∀ i ∈ [Instr.div, .divn, .rem, .remn, .fdiv, .fsqrt], ∀ (s : State) (w : Who) (m : Form) (f : Fields) (s1 : State) (x : In),
      Issues s w (i f) m f s1 x → (s1.tile x.t).divider.isSome = true → exec (i f) s = .next (holdTask s s.cur w none))
  ∧ (∀ (signed : Bool) (n a : Nat), divide signed n a 0 = (2 ^ n - 1, a, flIDZ))
  ∧ (∀ n : Nat, 1 ≤ n → divide true n (2 ^ (n - 1)) (2 ^ n - 1) = (2 ^ (n - 1), 0, 0))
  ∧ (∀ n a b : Nat, b ≠ 0 → divide false n a b = (a / b, a - a / b * b, 0)
      ∧ divide true n a b = (wrap n (Int.tdiv (sgn n a) (sgn n b)), wrap n (sgn n a - Int.tdiv (sgn n a) (sgn n b) * sgn n b), 0))
  ∧ ∀ (s : State) (j : Job), (s.tile s.cur).divider = some j →
      exec .dividerCompletion s = .next (wakeWaiting (s.modTile s.cur fun u =>
        { u with divider := none }.deliver j.who j.tag j.writes j.flags j.lower) s.cur)

/-! ### Block instructions -/

/-- The block arithmetic, logic and shift instructions complete element by element on every word of their block, with the value
and flags of spec/13 R225 and R226: modular for integer types, rounded for floating ones. -/
def Obligations.BlockArithmeticGivesItsElements : Prop :=
  (let two (l : In → Nat) (bt : In → Nat) (g : In → Nat → Nat → FR) : In → State → State := fun x s =>
     blockMap s x (bt x) (l x) [x.f.a.toNat, x.f.b.toNat] fun k => map2 x.f.ty.bits (g x)
       (blockWord s x x.f.a.toNat (bt x) k) (blockWord s x x.f.b.toNat (bt x) k)
   let one (l : In → Nat) (bt : In → Nat) (g : In → Nat → FR) : In → State → State := fun x s =>
     blockMap s x (bt x) (l x) [x.f.a.toNat] fun k => map1 x.f.ty.bits (g x) (blockWord s x x.f.a.toNat (bt x) k)
   let three (g : In → Nat → Nat → Nat → FR) : In → State → State := fun x s =>
     blockMap s x (beatsV4 x.f) 4 [x.f.a.toNat, x.f.b.toNat, x.f.fourth] fun k => map3 x.f.ty.bits (g x)
       (blockWord s x x.f.a.toNat (beatsV4 x.f) k) (blockWord s x x.f.b.toNat (beatsV4 x.f) k)
       (blockWord s x x.f.fourth (beatsV4 x.f) k)
   let word2 (g : Word → Word → Word) : In → State → State := fun x s =>
     blockMap s x (beats4 x.f) 1 [x.f.a.toNat, x.f.b.toNat] fun k =>
       (g (blockWord s x x.f.a.toNat (beats4 x.f) k) (blockWord s x x.f.b.toNat (beats4 x.f) k), 0)
   let lat : In → Nat := fun x => arithLat x.f
   let bts : In → Nat := fun x => arithBeats x.f
   Results .vadd (two lat bts fun x a b =>
      if x.f.ty.float then faddV (fmtOf x.f.ty) x.rm (fval (fmtOf x.f.ty) a) (fval (fmtOf x.f.ty) b)
      else ((a + b) % 2 ^ x.f.ty.bits, 0))
   ∧ Results .vsub (two lat bts fun x a b =>
      if x.f.ty.float then faddV (fmtOf x.f.ty) x.rm (fval (fmtOf x.f.ty) a) (fval (fmtOf x.f.ty) b).flip
      else ((a + (2 ^ x.f.ty.bits - b)) % 2 ^ x.f.ty.bits, 0))
   ∧ Results .vmul (two (fun _ => 4) (fun x => beatsV4 x.f) fun x a b =>
      if x.f.ty.float then fmulV (fmtOf x.f.ty) x.rm (fval (fmtOf x.f.ty) a) (fval (fmtOf x.f.ty) b)
      else (a * b % 2 ^ x.f.ty.bits, 0))
   ∧ Results .vfma (three fun x a b c =>
      if x.f.ty.float then ffmaV (fmtOf x.f.ty) x.rm (fval (fmtOf x.f.ty) a) (fval (fmtOf x.f.ty) b) (fval (fmtOf x.f.ty) c)
      else ((a * b + c) % 2 ^ x.f.ty.bits, 0))
   ∧ Results .vfms (three fun x a b c =>
      if x.f.ty.float then
        ffmaV (fmtOf x.f.ty) x.rm (fval (fmtOf x.f.ty) a) (fval (fmtOf x.f.ty) b) (fval (fmtOf x.f.ty) c).flip
      else ((a * b + (2 ^ x.f.ty.bits - c)) % 2 ^ x.f.ty.bits, 0))
   ∧ Results .vmin (two lat bts fun x => elemMinMax false x.f.ty)
   ∧ Results .vmax (two lat bts fun x => elemMinMax true x.f.ty)
   ∧ Results .vabs (one lat bts fun x a =>
      if x.f.ty.float then fsignOp (fmtOf x.f.ty) false a
      else (if x.f.ty.signed then wrap x.f.ty.bits (sgn x.f.ty.bits a).natAbs else a, 0))
   ∧ Results .vneg (one lat bts fun x a =>
      if x.f.ty.float then fsignOp (fmtOf x.f.ty) true a else ((2 ^ x.f.ty.bits - a) % 2 ^ x.f.ty.bits, 0))
   ∧ Results .vand (word2 fun a b => a &&& b)
   ∧ Results .vor (word2 fun a b => a ||| b)
   ∧ Results .vxor (word2 fun a b => a ^^^ b)
   ∧ Results .vnot (fun x s =>
      blockMap s x (beats4 x.f) 1 [x.f.a.toNat] fun k => (~~~blockWord s x x.f.a.toNat (beats4 x.f) k, 0))
   ∧ Results .vshl (fun x s => if x.f.minor = 1
      then one (fun _ => 1) (fun x => beats4 x.f) (fun x a => (a * 2 ^ (x.f.imm20 % 64) % 2 ^ x.f.ty.bits, 0)) x s
      else two (fun _ => 1) (fun x => beats4 x.f) (fun x a b => (a * 2 ^ (b % x.f.ty.bits) % 2 ^ x.f.ty.bits, 0)) x s)
   ∧ Results .vshr (fun x s => if x.f.minor = 1
      then one (fun _ => 1) (fun x => beats4 x.f) (fun x a => (a / 2 ^ (x.f.imm20 % 64), 0)) x s
      else two (fun _ => 1) (fun x => beats4 x.f) (fun x a b => (a / 2 ^ (b % x.f.ty.bits), 0)) x s)
   ∧ Results .vsar (fun x s => if x.f.minor = 1
      then one (fun _ => 1) (fun x => beats4 x.f) (fun x a => (sarN x.f.ty.bits a (x.f.imm20 % 64), 0)) x s
      else two (fun _ => 1) (fun x => beats4 x.f) (fun x a b => (sarN x.f.ty.bits a (b % x.f.ty.bits), 0)) x s))

/-- The block compares, selects, moves, broadcasts, permutations and transpositions complete with the words of spec/13 R227 to
R230, VGET and VPUT with the one element that they name. -/
def Obligations.BlockMovesGiveTheirWords : Prop :=
  Results .vcmp (fun x s => blockMap s x (beats4 x.f) 1 [x.f.a.toNat, x.f.b.toNat] fun k => map2 x.f.ty.bits (vcmpElem x)
    (blockWord s x x.f.a.toNat (beats4 x.f) k) (blockWord s x x.f.b.toNat (beats4 x.f) k))
  ∧ Results .vsel (fun x s => blockMap s x (beats4 x.f) 1 [x.f.a.toNat, x.f.b.toNat, x.f.fourth] fun k =>
      ((blockWord s x x.f.a.toNat (beats4 x.f) k &&& blockWord s x x.f.fourth (beats4 x.f) k)
        ||| (blockWord s x x.f.b.toNat (beats4 x.f) k &&& ~~~blockWord s x x.f.fourth (beats4 x.f) k), 0))
  ∧ Results .vmov (fun x s => blockMap s x (beats4 x.f) 1 [x.f.a.toNat] fun k => (blockWord s x x.f.a.toNat (beats4 x.f) k, 0))
  ∧ Results .vbcast (fun x s => blockMap s x (beats4 x.f) 1 [] fun _ =>
      (packElements x.f.ty.bits (List.replicate (perReg x.f.ty.bits) x.av), 0))
  ∧ Results .vget (fun x s => resultN x s 1 (element (readReg s x.t x.w (wId x.f.a.toNat)) x.f.ty.bits x.f.imm20) 0)
  ∧ Results .vput (fun x s => emit s x 1
      [(wId x.f.dest.toNat, setElement (readReg s x.t x.w (wId x.f.dest.toNat)) x.f.ty.bits x.f.imm20 x.bv)] 0)
  ∧ Results .vperm (fun x s => blockResult s x (beats4 x.f) 1 true (((blockRegs x.f.dest.toNat x.f.h x.f.wd).map wId).zip
      ((List.range (blockRegs x.f.dest.toNat x.f.h x.f.wd).length).map fun k => packElements 8 ((List.range 8).map fun t =>
        let sel := rowByte s x x.f.b.toNat (beats4 x.f) (k / x.f.wd) (8 * (k % x.f.wd) + t)
        if 128 ≤ sel || 8 * x.f.wd ≤ sel % 128 then 0
        else rowByte s x x.f.a.toNat (beats4 x.f) (k / x.f.wd) (sel % 128)))) 0)
  ∧ Results .vtrn (fun x s => blockResult s x (beats4 x.f) 1 true (((blockRegs x.f.dest.toNat x.f.h x.f.wd).map wId).zip
      ((List.range (blockRegs x.f.dest.toNat x.f.h x.f.wd).length).map fun k =>
        blockWordLast s x x.f.a.toNat (beats4 x.f) (k % x.f.wd * x.f.wd + k / x.f.wd))) 0)

/-- VREDR, VREDC and VSCAN go to the reduction unit where it holds no other operation, with the results of the chains of spec/13
R231: the elements of a row, or of a column, combined in order from the first one, each step rounded. The unit's completion
writes the results, sets the flags and lowers the counter (R232). -/
def Obligations.ReductionsFollowTheirChain : Prop :=
  (let free : In → State → Prop := fun x s => (s.tile x.t).reduction = none
   let starts (ws : In → State → List (Nat × Word)) (fl : In → State → Nat) : In → State → State × After := fun x s =>
     (s.modTile x.t fun u => { u.modTask x.w (·.raise x.f.setc.toNat) with
        reduction := some { who := x.w, tag := x.seq, writes := ws x s, reads := (blockRegs x.f.a.toNat x.f.h x.f.wd).map wId, flags := fl x s
                            lower := x.f.setc.toNat } }, .next)
   let row (x : In) (s : State) (i : Nat) := chainOf (redOp x) (rowStream s x i)
   let col (x : In) (s : State) (c j : Nat) :=
     chainOf (redOp x) ((List.range x.f.h).map fun i => element (srcReg s x i c) x.f.ty.bits j)
   Gives .vredr free (starts (fun x s => (List.range x.f.h).zip ((List.range x.f.h).map (row x s)) |>.map fun e =>
        (wId (x.f.dest.toNat + 8 * e.1), BitVec.ofNat 64 (e.2.1.getLastD 0)))
      fun x s => ((List.range x.f.h).map (row x s)).foldl (fun n r => orF n r.2) 0)
   ∧ Gives .vredc free (starts (fun x s =>
        (List.range x.f.wd).zip ((List.range x.f.wd).map fun c => (List.range (perReg x.f.ty.bits)).map (col x s c)) |>.map fun e =>
          (wId (x.f.dest.toNat + e.1), packElements x.f.ty.bits (e.2.map fun r => r.1.getLastD 0)))
      fun x s => ((List.range x.f.wd).map fun c => (List.range (perReg x.f.ty.bits)).map (col x s c)).foldl
        (fun n r => r.foldl (fun n q => orF n q.2) n) 0)
   ∧ Gives .vscan free (starts (fun x s => ((blockRegs x.f.dest.toNat x.f.h x.f.wd).map wId).zip
        (((List.range x.f.h).map (row x s)).map fun r => regsOf x.f.ty.bits x.f.wd r.1).flatten)
      fun x s => ((List.range x.f.h).map (row x s)).foldl (fun n r => orF n r.2) 0))
  ∧ (∀ (g : Nat → Nat → FR) (y e : Nat) (es : List Nat),
      chain g y [] = ([y], 0) ∧ chain g y (e :: es) = (y :: (chain g (g y e).1 es).1, orF (g y e).2 (chain g (g y e).1 es).2))
  ∧ ∀ s : State, (s.tile s.cur).reduction.isSome → exec .reductionCompletion s =
      .next (wakeWaiting (s.modTile s.cur fun u => u.finishReduction) s.cur)

/-- The block functions and conversions complete with the values of spec/13 R233 to R236: the functions at latency 6, one word a
beat, VCVT and VRND at latency 4. The quantisations, MSCA and the random instructions complete (spec/13 R238 to R242): the
elements of a run are quantised, or dequantised, with the descriptor of their group, MSCA folds each row onto its run element,
and a random value is CMIX of key and counter (spec/11 R197), the `.inc` forms adding what they used to the counter.

Three things are the model's choice, not the spec's: VEXP2, VLOG2 and VTANH give a free value where both ends of the error interval of their
fixed-point computation do not round alike (log 12); an exact zero of VDQ, and an exact zero product of MSCA, is positive (log 92); the beats
in which the runs of VQBLK, VDQ and MSCA are read and become readable are those of log 13. -/
def Obligations.BlockFunctionsRunsAndConversionsGiveTheirValues : Prop :=
  ((let fn (g : Fmt → Nat → FR) : In → State → State := fun x s =>
      blockMap s x (beats1 x.f) 6 [x.f.a.toNat] fun k => map1 x.f.ty.bits (g (fmtOf x.f.ty)) (blockWord s x x.f.a.toNat (beats1 x.f) k)
    Results .vrcp (fn vrcpV) ∧ Results .vrsq (fn vrsqV) ∧ Results .vexp2 (fn vexp2V) ∧ Results .vlog2 (fn vlog2V)
    ∧ Results .vtanh (fn vtanhV))
   ∧ Results .vcvt (fun x s => blockMap s x (beatsV4 x.f) 4
       (if x.f.ty.bits < x.f.ty2.bits then [x.f.a.toNat, x.f.dest.toNat] else [x.f.a.toNat]) fun k =>
       vcvtWord x.rm x.f.ty2 x.f.ty x.f.minor.toNat (blockWord s x x.f.a.toNat (beatsV4 x.f) k)
         (blockWord s x x.f.dest.toNat (beatsV4 x.f) k))
   ∧ Results .vrnd (fun x s => blockMap s x (beatsV4 x.f) 4 [x.f.a.toNat] fun k => map1 x.f.ty.bits
       (frndV (fmtOf x.f.ty) (if x.f.minor = 0 then x.rm else x.f.minor.toNat - 1)) (blockWord s x x.f.a.toNat (beatsV4 x.f) k)))
  ∧ (Results .vdq (fun x s =>
         let bt := beatsV4 x.f
         let rs := (List.range (x.f.h * x.f.wd)).map fun k =>
           let es := (List.range (perReg x.f.ty.bits)).map fun j =>
             let e := k * perReg x.f.ty.bits + j
             dequantise x.rm (fmtOf x.f.ty) (runElement s x x.f.fourth 32 (e / vqG x.f) (beatOf (x.f.h * x.f.wd) bt k))
               (intOf x.f.ty2 (runElement s x x.f.a.toNat x.f.ty2.bits e (beatOf (x.f.h * x.f.wd) bt k)))
           (packElements x.f.ty.bits (es.map (·.1)), es.foldl (fun n r => orF n r.2) 0)
         blockResult s x bt 4 (sharesRegs (blockRegs x.f.dest.toNat x.f.h x.f.wd)
             ((List.range (runRegs (vdE x.f) x.f.ty2.bits)).map (x.f.a.toNat + ·)
               ++ (List.range (runRegs (vdE x.f / vqG x.f) 32)).map (x.f.fourth + ·)))
           (((blockRegs x.f.dest.toNat x.f.h x.f.wd).map wId).zip (rs.map (·.1))) (rs.foldl (fun n r => orF n r.2) 0))
     ∧ Results .vqblk (fun x s =>
         let n := x.f.h * x.f.wd
         let rs := (List.range (vqE x.f)).map fun e =>
           let k := e / perReg x.f.ty2.bits
           quantise x.rm (fmtOf x.f.ty2) x.f.ty.signed x.f.ty.bits
             (runElement s x x.f.fourth 32 (e / vqG x.f) (beatOf n (beats4 x.f) k))
             (element (blockWord s x x.f.a.toNat (beats4 x.f) k) x.f.ty2.bits (e % perReg x.f.ty2.bits))
         let ws := runWrites s x x.f.dest.toNat x.f.ty.bits (rs.map (·.1)) 0
         runResult s x (beats4 x.f) 4 (sharesRegs ((List.range ws.length).map (x.f.dest.toNat + ·))
             (blockRegs x.f.a.toNat x.f.h x.f.wd ++ (List.range (runRegs (vqE x.f / vqG x.f) 32)).map (x.f.fourth + ·)))
           ((List.range ws.length).zip ws |>.map fun e => (beatOf n (beats4 x.f)
             ((min (vqE x.f) ((e.1 + 1) * perReg x.f.ty.bits) - 1) / perReg x.f.ty2.bits), e.2)) (rs.foldl (fun n r => orF n r.2) 0))
     ∧ Results .msca (fun x s =>
         let rs := (List.range x.f.h).map (mscaRow s x)
         let ws := runWrites s x x.f.dest.toNat x.f.ty.bits (rs.map (·.1)) (beatsV4 x.f - 1)
         runResult s x (beatsV4 x.f) 4 true (ws.map fun e => (beatsV4 x.f - 1, e)) (rs.foldl (fun n r => orF n r.2) 0))
     ∧ Results .rand (fun x s => resultW x s 3 (BitVec.ofNat 64 (cmix (x.a.toNat % 2 ^ 32) (x.b.toNat % 2 ^ 32))) 0)
     ∧ Results .randInc (fun x s => emit s x 3 [(x.f.dest.toNat, BitVec.ofNat 64 (cmix (x.a.toNat % 2 ^ 32) (x.b.toNat % 2 ^ 32))),
         (x.f.b.toNat, setField x.b 31 0 (x.b.toNat % 2 ^ 32 + 1))] 0)
     ∧ (let vals (x : In) := (List.range (x.f.h * x.f.wd)).zip ((blockRegs x.f.dest.toNat x.f.h x.f.wd).map wId) |>.map fun e =>
          (beatOf (x.f.h * x.f.wd) (beatsV4 x.f) e.1, e.2, vrandWord x e.1)
        let beats (x : In) (s : State) := (List.range (beatsV4 x.f)).map fun k =>
          ((s.tile x.t).cyc + k + 4, ((vals x).filter fun e => e.1 = k).map (·.2))
        Results .vrand (fun x s => emitBeats s x (beats x s) 0)
        ∧ Results .vrandInc (fun x s => emitBeats s x
           (((s.tile x.t).cyc + 4, [(x.f.b.toNat, setField x.b 31 0 (x.b.toNat % 2 ^ 32 + 2 * (x.f.h * x.f.wd)))]) :: beats x s) 0)))

/-! ### Control instructions -/

/-- A transfer of a stream that no gang leads: a PC of the proper format goes to its target, BR, BRI, CALL, CALLI, BRU and a taken
LOOP after the check that the target slot is marked (spec/10 R166), RET without it; a call also writes r62 with the next slot, LOOP
its counter (spec/12 R216 to R219); BALW goes to its target where its allowance register holds at least what it asks for (spec/15 R296).
That CALL and CALLI run at level 1 too is the model's reading (log 10).

A follower of a forwarded gang goes where its leader went at the same slot, and on where the leader went on (spec/09 R153);
of BALW and IFENCE this is the model's choice (log 14). At a BRU it does so where its own guard decides as its leader's, and else
faults FWDDIV with the leader's target as saved PC, or with the next slot where the leader did not take it (the model's choice,
log 91). -/
def Obligations.TransfersReachTheirTarget : Prop :=
  ((let own (x : In) (s : State) : Prop := (s.tile x.t).following x.w = false
   let lands (tgt : In → Word) (x : In) (s : State) : Prop :=
     pcOk (tgt x) = true ∧ let l := (fetchLine s x.t ((tgt x).toNat / 8)).2
       (l.parityOk && l.shapeOk && !l.tgt ((tgt x).toNat % 8)) = false
   let goes (tgt : In → Word) (x : In) (s : State) : State × After :=
     ((fetchLine s x.t ((tgt x).toNat / 8)).1,
       .jump (tgt x) (some { no := (tgt x).toNat / 8, line := (fetchLine s x.t ((tgt x).toNat / 8)).2, entered := false }))
   let count (x : In) (s : State) : Word := readReg s x.t x.w x.f.dest.toNat - 1
   let link (x : In) (p : State × After) : State × After := (emit p.1 x 1 [(0x3E, nextPc x.pc)] 0, p.2)
   Gives .br (fun x s => own x s ∧ lands (·.pcImm) x s) (goes (·.pcImm))
   ∧ Gives .bri (fun x s => own x s ∧ lands (·.a) x s) (goes (·.a))
   ∧ Gives .call (fun x s => own x s ∧ lands (·.pcImm) x s) (fun x s => link x (goes (·.pcImm) x s))
   ∧ Gives .calli (fun x s => own x s ∧ lands (·.a) x s) (fun x s => link x (goes (·.a) x s))
   ∧ Gives .bru (fun x s => own x s ∧ lands (·.pcImm) x s) (goes (·.pcImm))
   ∧ Gives .ret (fun x s => own x s ∧ pcOk x.a = true) (fun x s => (s, .jump x.a none))
   ∧ Gives .loop (fun x s => own x s ∧ count x s ≠ 0 ∧ lands (·.pcImm) x s)
      (fun x s => (emit (goes (·.pcImm) x s).1 x 1 [(x.f.dest.toNat, count x s)] 0, (goes (·.pcImm) x s).2))
   ∧ Gives .loop (fun x s => own x s ∧ count x s = 0) (fun x s => (emit s x 1 [(x.f.dest.toNat, count x s)] 0, .next))
   ∧ Gives .balw (fun x s => own x s ∧ x.f.b.toNat ≤ (s.tile x.t).allow (x.f.a.toNat - 0x50) ∧ lands (·.pcImm) x s)
      (goes (·.pcImm))
   ∧ Gives .balw (fun x s => own x s ∧ (s.tile x.t).allow (x.f.a.toNat - 0x50) < x.f.b.toNat) (fun _ s => (s, .next))))
  ∧ ((let follows (x : In) (s : State) : Prop := (s.tile x.t).following x.w = true
   let led (x : In) (s : State) : State × After := match leaderTook s x with
     | some tgt => (s, .jump tgt none)
     | none => (s, .next)
   Gives .br follows led ∧ Gives .bri follows led ∧ Gives .ret follows led ∧ Gives .balw follows led
   ∧ Gives .call follows (fun x s => (emit (led x s).1 x 1 [(0x3E, nextPc x.pc)] 0, (led x s).2))
   ∧ Gives .calli follows (fun x s => (emit (led x s).1 x 1 [(0x3E, nextPc x.pc)] 0, (led x s).2))
   ∧ Gives .loop follows (fun x s =>
      (emit (led x s).1 x 1 [(x.f.dest.toNat, readReg s x.t x.w x.f.dest.toNat - 1)] 0, (led x s).2))
   ∧ Gives .ifence follows led
   ∧ (let lead (x : In) (s : State) : Bool := match (s.tile x.t).fwd with
        | y :: _ => y.guards.any fun g => g.1 = x.pc.toNat % 8 && g.2
        | [] => guardOf ((s.tile x.t).task x.w) x.f
      Gives .bru (fun x s => follows x s ∧ guardOf ((s.tile x.t).task x.w) x.f = lead x s) led
      ∧ ∀ (s : State) (w : Who) (m : Form) (f : Fields) (s1 : State) (x : In), Issues s w (.bru f) m f s1 x → follows x s1 →
          guardOf ((s1.tile x.t).task x.w) x.f ≠ lead x s1 →
          exec (.bru f) s = .next (trapNow s s.cur w .fwddiv 0 ((leaderTook s1 x).getD (nextPc x.pc)) false false false false))))

/-- DONE of a task that owes nothing ends the task: with no acknowledgement owed, every counter zero and no matrix instruction queued, a
task that is not boosted is counted, a paired one unpairs (spec/19 R358), and its image or level-1 frame is released; the program of a
memory-core context ends (spec/12 R219, spec/09 R146, spec/07 R134). A live boosted task commits first (spec/17 R326), once its declarations
have been answered (the model's reading, log 101): its slot is free,
the locks that it held are released under one operation, and the DONE issues anew at its own PC, where the task is boosted no more. IFENCE
with no store to region 0x02 outstanding discards the buffered lines and fetches the next slot's line anew (spec/03 R41, spec/04 R65). -/
def Obligations.DoneAndIfenceComplete : Prop :=
  (let quiet (x : In) (s : State) : Prop :=
     (s.tile x.t).owes x.w true true = false ∧ ((s.tile x.t).task x.w).maskClear 0x3F = true
     ∧ ((s.tile x.t).matrix.queue.any fun q => q.who = x.w) = false
     ∧ (∀ i, x.w = .img i → (s.tile x.t).boosted ≠ some i)
   let counted (x : In) (s : State) : State :=
     (countRetired (tellFollowers s x.t x.w (x.pc.toNat % 8) true .gone) x.t x.w ((s.tile x.t).task x.w).mwo).modTile x.t fun u =>
       u.payIssue x.f.stall.toNat
   Gives .done (fun x s => quiet x s ∧ x.t < numTiles)
      (fun x s => (endTask (if (s.tile x.t).pairing.any fun p => x.w = .img p.img then endPair (counted x s) x.t else counted x s)
        x.t x.w, .gone))
   ∧ Gives .done (fun x s => quiet x s ∧ numTiles ≤ x.t) (fun x s => (endRequest (counted x s) x.t, .gone))
   ∧ (∀ i : Nat,
      Gives .done (fun x s => x.w = .img i ∧ (s.tile x.t).boosted = some i ∧ (s.tile x.t).owes x.w true true = false
          ∧ ((s.tile x.t).out.any fun o => o.who = x.w && o.acquire) = false
          ∧ ((s.tile x.t).task x.w).maskClear 0x3F = true ∧ ((s.tile x.t).matrix.queue.any fun q => q.who = x.w) = false)
        (fun x s => ((commitBoost s x i).modTile x.t fun u => { u with cyc := u.cyc + 1 }, .gone))
      ∧ ∀ (x : In) (s : State),
        let v := (commitBoost s x i).tile x.t
        (v.ctx i).boost.active = false ∧ (v.ctx i).boost.depth = 0 ∧ v.abort = none ∧ (v.task (.img i)).pc = ((s.tile x.t).task (.img i)).pc
        ∧ (lockHomes s x.t = [] → (commitBoost s x i).net = s.net)
        ∧ ∀ k ∈ lockHomes s x.t, ∃ p ∈ (commitBoost s x i).net, p.dst = k ∧ p.tag = x.seq ∧ p.body = .unlock x.t)
   ∧ Gives .ifence (fun x s => (s.tile x.t).following x.w = false
        ∧ ((s.tile x.t).out.any fun o => o.who = x.w && regionOf o.addr == 0x02 && o.kind == .store) = false)
      (fun x s => (s.modTile x.t Tile.dropBuffered, .jump (nextPc x.pc) none)))

/-! ### Memory instructions -/

/-- A memory instruction whose address lies in the issuing core's own slice performs there at once: when its home answers data or `done`,
the instruction completes, with the operation outstanding until the answer comes back; when a full/empty or waiting access parks, it
completes with the operation parked; a full table leaves it with the NI, its status outstanding. What the task sent before it to the same
line has arrived, a flag of it to a word of the access has been applied, and no access of it to such a word is parked, on which its task
would park (spec/04 R50; that is the model's choice, log 121; an STF, SETF or SETE passes, log 129). A multi-line STB is counted on the
path of its first line, which is the model's choice too (log 117). One that is turned away traps, exact, once the statuses of older
accesses are in; that a modifying one is counted then, and poisons its epoch, is the model's choice (log 62), which R69 and R395 do not
say of a trap that waits. LD, LDACQ, LDF, LDFE, ST, STREL, STF, STEF, SETF, SETE, LDB, STB, the atomics, LDA.w, LDA.t, LDA.n, STA and AGEQ
(spec/06 R101, R102, R107 to R124, spec/05 R90 to R93, spec/04 R59). -/
def Obligations.OwnSliceAccessesComplete : Prop :=
  ∀ (s : State) (w : Who) (i : Instr) (m : Form) (f : Fields) (s1 : State) (x : In) (r : Req) (a : Word) (al : Bool) (off : Nat)
    (s0 s2 : State) (ans : Answer),
    Issues s w i m f s1 x → request i x s1 = some (r, a, al) → checkedFirst i x s1 → released i x s1 = true → x.t < numTiles →
    checkAddr s1 x.t r.k a al = .ok (.sram x.t off) → ownAtOnce x s1 r x.t = true →
    ownOrder s1 x.t x.w x.t off r.op = .ok () →
    pairOwn s1 x.t off r.op a = .ok s0 → performAt s0 x.t off r.op (.core x.t x.seq (genOf (s1.tile x.t) x.w))
      (!((s1.tile x.t).task x.w).sup) ((s1.tile x.t).activeBoost x.w) (some (s0.cidOf x.t)) = (s2, ans) →
    let path := pathOf x.t (off / 64)
    let sent (s : State) : State := if opModifies r.op then s.modTile x.t fun u => u.countSent x.t path else s
    let counted (s : State) : State :=
      if opModifies r.op then (s.modTile x.t fun u => u.countSent x.t path).countArrival x.t x.t path 0 none else s
    ((ans = .done ∨ ∃ ws age, ans = .data ws age) →
      exec i s = .next (retired s1 x m ((counted (addOut s2 x { r.out x a with slow := r.returns })).send
        (mkPacket x.t x.t x.seq none (.reply ans))) .next))
    ∧ (ans = .parked →
      exec i s = .next (retired s1 x m (sent (addOut s2 x { r.out x a with parked := true, slow := true })) .next))
    ∧ (ans = .full →
      exec i s = .next (retired s1 x m ((sent (addOut s2 x { r.out x a with status := true })).send
        { mkPacket x.t x.t x.seq (lineChan off) (.access off r.op (!((s1.tile x.t).task x.w).sup) ((s1.tile x.t).activeBoost x.w)) with
          span := lineSpan off (opLen r.op), refused := true, path := path, counted := opModifies r.op
          epoch := (s1.tile x.t).epochTo x.t }) .next))
    ∧ ∀ c, ans = .fault c → c ≠ .eccu → exec i s = .next (trapNow
        (if opModifies r.op && (s.tile s.cur).settled w && !(s.tile s.cur).pairOpen then countRefused s s.cur c a path false else s)
        s.cur w c a ((s.tile s.cur).task w).pc false false false false)

/-- A memory instruction whose address lies in another tile's slice completes when its request has gone out to that home, with its status
to come back; the NI has room for it and a pair's buffer takes what must wait for its interval, whose fault will be late (the model's
choice, log 25), while nothing of that buffer is on the line of an access that does not wait (spec/06 R101, R102, spec/04 R50, R63,
spec/19 R359; log 24) and no earlier access of the task to a word of it is parked (log 121). A multi-line STB is counted on the path of
its first line: the model's choice (log 117). An atomic without return that a pair keeps for its interval goes out so to its own slice
too. The instructions are those of the own slice. -/
def Obligations.AccessesToOtherTilesComplete : Prop :=
  ∀ (s : State) (w : Who) (i : Instr) (m : Form) (f : Fields) (s1 : State) (x : In) (r : Req) (a : Word) (al : Bool) (h off : Nat)
    (s2 : State),
    Issues s w i m f s1 x → request i x s1 = some (r, a, al) → checkedFirst i x s1 → released i x s1 = true → x.t < numTiles →
    checkAddr s1 x.t r.k a al = .ok (.sram h off) → ownAtOnce x s1 r h = false →
    (opModifies r.op && niFull s1 x.t a) = false →
    let path := pathOf h (off / 64)
    let waits := pairWaits r.op r.dst && (s1.tile x.t).pairing.isSome
    sentOrder s1 x.t x.w h off r.op waits = .ok () →
    let s' := if opModifies r.op then s1.modTile x.t fun u => u.countSent h path else s1
    let sent := (addOut s' x { r.out x a with status := !waits && h != x.t, late := waits, slow := h != x.t }).send
      { mkPacket x.t h x.seq (lineChan off) (.access off r.op (!((s1.tile x.t).task x.w).sup) ((s1.tile x.t).activeBoost x.w)) with
        span := lineSpan off (opLen r.op), path := path, counted := opModifies r.op, epoch := (s1.tile x.t).epochTo h, mergeable := r.merge
        mty := r.mty }
    (if waits then pairHold sent x.t x.w [s'.nextId] r.op a else .ok sent) = .ok s2 →
    exec i s = .next (retired s1 x m s2 .next)

/-- A memory instruction whose address names another package leaves towards it: a store or an atomic takes one allowance unit and
is counted, a load does neither; its faults will be late (spec/02 R16, R17, spec/06 R103, spec/15 R292). A block of several lines goes on
the path of its first one (the model's choice, log 117). It stays behind what goes out again, or is held back by such, to a line of its own
(spec/04 R64), and waits while an access of the task to a word of it that may park there is open (the model's choice, log 121). -/
def Obligations.AccessesToOtherPackagesComplete : Prop :=
  ∀ (s : State) (w : Who) (i : Instr) (m : Form) (f : Fields) (s1 : State) (x : In) (r : Req) (a : Word) (al : Bool)
    (chip rx ry off k : Nat) (u1 : Tile) (s2 : State),
    Issues s w i m f s1 x → request i x s1 = some (r, a, al) → checkedFirst i x s1 → released i x s1 = true → x.t < numTiles →
    checkAddr s1 x.t r.k a al = .ok (.remote chip rx ry off) → (opModifies r.op && niFull s1 x.t a) = false →
    (if opModifies r.op then takeUnits (s1.tile x.t) (chipDst chip) 1 else .ok (0, s1.tile x.t)) = .ok (k, u1) →
    let path := pathOf (chipDst chip) (a.toNat % 2 ^ 33 / 64)
    let waits := pairWaits r.op r.dst && (s1.tile x.t).pairing.isSome
    (!waits && s1.egress.any fun e => e.src = x.t && e.held && linesMeet e.addr (lenOf e.op) a (opLen r.op)) = false →
    behindAway (s1.tile x.t) x.w a r.op = .ok () →
    let s' := s1.setTile x.t (if opModifies r.op then u1.countSent (chipDst chip) path else u1)
    (if waits then pairHold s' x.t x.w [2 ^ 64 + s'.nextId] r.op a else .ok s') = .ok s2 →
    let s3 := addOut s2 x { r.out x a with
      remote := true, late := true, slow := true, al := k, units := if opModifies r.op then 1 else 0 }
    exec i s = .next (retired s1 x m { s3 with
      nextId := s3.nextId + 1
      egress := s3.egress ++ [{ chip := chip, src := x.t, tag := x.seq, path := path, addr := a, op := some r.op, held := waits
                                epoch := (s1.tile x.t).epochTo (chipDst chip)
                                behind := s1.staysBehind x.t a (opLen r.op) }] } .next)

/-- The stores that name far memory (STFAR, STFAR.b), a line of an instruction store (STB of 64 bytes) or a multicast group (ST, STB,
STREL) complete when their packets have gone out: to the home memory core, to the tile on the ordered class, to each local member of the
group, on the line that it reaches there, or at once where a group has no members; the NI has room for them, and a pair's buffer takes
them until its interval closes (spec/06 R112, R120, spec/02 R14, R18, R19, spec/04 R63, spec/19 R359). A store to a group waits for the
task's own accesses parked at its words (the model's choice, log 121). A far store names
the tenant that sends it (spec/07 R129). Whether another package holds members is the model's choice (log 15), and so is that no delivery
counts as a request to its member's tile (log 118). -/
def Obligations.FarCodeAndGroupStoresComplete : Prop :=
  ∀ (s : State) (w : Who) (i : Instr) (m : Form) (f : Fields) (s1 : State) (x : In) (r : Req) (a : Word) (al : Bool) (g : Target),
    Issues s w i m f s1 x → request i x s1 = some (r, a, al) → checkedFirst i x s1 → released i x s1 = true → x.t < numTiles →
    checkAddr s1 x.t r.k a al = .ok g →
    niFull s1 x.t a = false →
    (∀ va s2, g = .far va →
      pairHold ((addOut s1 x { r.out x a with late := true, slow := true }).send
        { mkPacket x.t (mcDst (homeMc va)) x.seq (lineChan va) (.farStore ((s1.tenantOf x.t).getD 0) a r.op) with span := lineSpan va (opLen r.op) })
        x.t x.w [s1.nextId] r.op a = .ok s2 →
      exec i s = .next (retired s1 x m s2 .next))
    ∧ (∀ h off ws s2, g = .code h off → r.op = .storeBlock ws →
      pairHold ((addOut s1 x { r.out x a with slow := true }).send
        (mkPacket x.t h x.seq orderedChan (.code off (BitVec.ofNat 512 (ofBytes (wordsBytes ws)))))) x.t x.w [s1.nextId] r.op a = .ok s2 →
      exec i s = .next (retired s1 x m s2 .next))
    ∧ (∀ gr off n hk s4, g = .mcast gr off → s1.huskOf x.t = some (n, hk) →
      ((s1.groupOf n gr).any fun m => matrixMeets s1 x.t x.w (hk.tileAt m.1 m.2.1) (m.2.2 * 65536 + off) (opLen r.op) true) = false →
      (∀ m ∈ s1.groupOf n gr, behindParked s1 x.t x.w (hk.tileAt m.1 m.2.1) (m.2.2 * 65536 + off) r.op = .ok ()) →
      let away := s1.choose.1 % 2 = 1
      let far := if away then 1 else 0
      let u := s1.tile x.t
      let sent := addOut s1.choose.2 x { r.out x a with
        late := true, slow := true, acks := max 1 ((s1.groupOf n gr).length + far), far := far }
      let s2 := if (s1.groupOf n gr).length + far = 0 then sent.send (mkPacket x.t x.t x.seq none (.reply .done)) else sent
      let s3 := (s1.groupOf n gr).foldl (fun s m => s.send { mkPacket x.t (hk.tileAt m.1 m.2.1) x.seq
        (lineChan (m.2.2 * 65536 + off)) (.multicast (m.2.2 * 65536 + off) r.op (!(u.task x.w).sup) (u.activeBoost x.w) r.strong) with
          span := lineSpan off (opLen r.op) }) s2
      pairHold s3 x.t x.w ((List.range (s1.groupOf n gr).length).map (s2.nextId + ·)) r.op a = .ok s4 →
      exec i s = .next (retired s1 x m (if away then { s4 with
        egress := s4.egress ++ [{ chip := 0, src := x.t, tag := x.seq, path := 0, addr := a, op := some r.op, group := some gr
                                  held := u.pairing.isSome, behind := s1.choose.2.staysBehind x.t a (opLen r.op) }] }
        else s4) .next))

/-- `ST.of` sends its flag with the eight counts of what its core sent to that destination before it, and begins the next epoch; a pair's
buffer takes it until its interval closes (spec/04 R68, R69, spec/06 R109, spec/19 R359); that the fault of one held so comes late is the
model's choice (log 25). On the own slice the flag's checks come first (spec/06 R100), but where its epoch is poisoned and it will be
answered FDROP (spec/04 R69); there a paired leader's is logged, and performed at once where its counts have been reached (spec/19 R359).
It waits for what the task has parked at its words (the model's choice, log 121). That of a memory-core program is an engine write like
its other stores (spec/07 R130; that `ST.of` is among these is the model's reading, log 113). -/
def Obligations.OrderedFlagStoresComplete : Prop :=
  ∀ (s : State) (w : Who) (m : Form) (f : Fields) (s1 : State) (x : In), Issues s w (.stOf f) m f s1 x →
    let u := s1.tile x.t
    let op : MemOp := .store x.size x.data
    let user := !(u.task x.w).sup
    let held : Bool := u.pairing.isSome
    (∀ h off, numTiles ≤ x.t → regionOf x.addr = 0x00 → checkAddr s1 x.t (.store true) x.addr x.aligned = .ok (.sram h off) →
      exec (.stOf f) s = .next (retired s1 x m ((addOut s1 x
          { tag := 0, who := x.w, kind := .store, addr := x.addr, op := some (.stf x.size x.data), slow := true, status := true }).send
        { mkPacket x.t h x.seq (lineChan off) (.access off (.stf x.size x.data) (s1.tenantOf x.t != some 0) false) with
          span := lineSpan off x.size }) .next))
    ∧ (x.t < numTiles → niFull s1 x.t x.addr = false →
    (∀ h off s2, checkAddr s1 x.t .storeOf x.addr x.aligned = .ok (.sram h off) →
      matrixMeets s1 x.t x.w h off x.size true = false →
      (if h = x.t && held then ownOrder s1 x.t x.w h off op else behindParked s1 x.t x.w h off op) = .ok () →
      (h = x.t → Sparse.get none s1.epochs (epochKey x.t h (u.epochTo h)) = none →
        flagFault s1 h off x.size x.data user (u.activeBoost x.w) = none) →
      let path := pathOf h (off / 64)
      let p := { mkPacket x.t h x.seq (lineChan off) (.flag off x.size x.data (countsTo u h) user (u.activeBoost x.w)) with
        path := path, counted := true, epoch := u.epochTo h }
      let s3 := addOut (s1.modTile x.t fun u => (u.countSent h path).nextEpoch h) x
        { tag := 0, who := x.w, kind := .store, addr := x.addr, op := some op, late := true
          status := h != x.t && !held, slow := h != x.t }
      (h ≠ x.t → pairHold (s3.send p) x.t x.w [s1.nextId] op x.addr = .ok s2 → exec (.stOf f) s = .next (retired s1 x m s2 .next))
      ∧ (h = x.t → pairOwn s3 x.t off op x.addr = .ok s2 →
        ((held && countsReached s2 p (countsTo u h)) = false → exec (.stOf f) s = .next (retired s1 x m (s2.send p) .next))
        ∧ ((held && countsReached s2 p (countsTo u h)) = true → (applyFlag s2 p).husks = s2.husks →
          exec (.stOf f) s = .next (retired s1 x m (applyFlag s2 p) .next))))
    ∧ (∀ chip rx ry off k u1 s2, checkAddr s1 x.t .storeOf x.addr x.aligned = .ok (.remote chip rx ry off) →
      takeUnits u (chipDst chip) 1 = .ok (k, u1) →
      let path := pathOf (chipDst chip) (x.addr.toNat % 2 ^ 33 / 64)
      let sent := s1.setTile x.t ((u1.countSent (chipDst chip) path).nextEpoch (chipDst chip))
      pairHold sent x.t x.w [2 ^ 64 + sent.nextId] op x.addr = .ok s2 →
      let s3 := addOut s2 x { tag := 0, who := x.w, kind := .store, addr := x.addr, op := some op
                              remote := true, late := true, slow := true, al := k, units := 1 }
      exec (.stOf f) s = .next (retired s1 x m { s3 with
        nextId := s3.nextId + 1
        egress := s3.egress ++ [{ chip := chip, src := x.t, tag := x.seq, path := path, addr := x.addr, op := some op
                                  counts := countsTo u (chipDst chip), held := held, epoch := u.epochTo (chipDst chip)
                                  behind := s1.staysBehind x.t x.addr x.size }] } .next)))

/-- FENCE completes once every access of the task up to its reach is acknowledged, `.sys` reaching other packages, and FENCE.ack
once all are, parked ones too (spec/06 R128, spec/04 R398). Until then each holds. -/
def Obligations.FencesWaitForAcknowledgements : Prop :=
  Gives .fence (fun x s => (s.tile x.t).owes x.w (x.f.scope == 4) false = false) (fun _ s => (s, .next))
  ∧ Gives .fenceAck (fun x s => (s.tile x.t).owes x.w true true = false) (fun _ s => (s, .next))
  ∧ ∀ (s : State) (w : Who) (m : Form) (f : Fields) (s1 : State) (x : In),
      (Issues s w (.fence f) m f s1 x → (s1.tile x.t).owes x.w (f.scope == 4) false = true →
        exec (.fence f) s = .next (holdTask s s.cur w (some (.fence (f.scope == 4) false))))
      ∧ (Issues s w (.fenceAck f) m f s1 x → (s1.tile x.t).owes x.w true true = true →
        exec (.fenceAck f) s = .next (holdTask s s.cur w (some (.fence true true))))

/-- What an access does at its home when no rule turns it away: a load answers the bytes, a store replaces them, an atomic
answers the old value and stores the new one of spec/06 Table 11; LDF and LDFE of a full word answer it, LDFE leaving it empty;
STF and STEF of an empty word store and leave it full; SETF and SETE set the bit alone (spec/06 R107 to R124). The new value of
an atomic (spec/06 Table 11): the sum modulo 2^n, the smaller or larger of the two as signed or unsigned numbers, the bitwise
results, the operand, or the operand where the old value equals the comparand. -/
def Obligations.EffectsAndAtomicsAtHome : Prop :=
  (∀ (s : State) (t off n : Nat) (v c : Word) (op : AmoOp) (q : Asker),
     s.openWord t (off / 8 * 8) = none →
     let mark (s : State) : State := s.retestAt t (off / 8 * 8) (off / 8 * 8 + 8)
     let old := getNat s (sliceKey t off)
     effectAt s t off (.load n) q = (s, .data [BitVec.ofNat 64 (old n)] 0)
     ∧ effectAt s t off (.store n v) q = (s.putSlice t off (bytesOf v.toNat n), .done)
     ∧ effectAt s t off (.amo op n v c) q =
         (s.putSlice t off (bytesOf (amoNew op n (old (n / 8)) v.toNat c.toNat) (n / 8)), .data [BitVec.ofNat 64 (old (n / 8))] 0)
     ∧ (s.isEmpty t off = false →
         effectAt s t off (.ldf n) q = (s, .data [BitVec.ofNat 64 (old n)] 0)
         ∧ effectAt s t off (.ldfe n) q = (mark (s.setEmpty t off true), .data [BitVec.ofNat 64 (old n)] 0))
     ∧ (s.isEmpty t off = true →
         effectAt s t off (.stef n v) q = (mark ((s.putSlice t off (bytesOf v.toNat n)).setEmpty t off false), .done))
     ∧ effectAt s t off (.stf n v) q = (mark ((s.putSlice t off (bytesOf v.toNat n)).setEmpty t off false), .done)
     ∧ effectAt s t off .setf q = (mark (s.setEmpty t off false), .done)
     ∧ effectAt s t off .sete q = (mark (s.setEmpty t off true), .done))
  ∧ (∀ (n : Nat) (o v c : BitVec n), 0 < n →
       amoNew .add n o.toNat v.toNat c.toNat = (o + v).toNat
       ∧ amoNew .min n o.toNat v.toNat c.toNat = (if o.toInt ≤ v.toInt then o else v).toNat
       ∧ amoNew .max n o.toNat v.toNat c.toNat = (if v.toInt ≤ o.toInt then o else v).toNat
       ∧ amoNew .minn n o.toNat v.toNat c.toNat = min o.toNat v.toNat
       ∧ amoNew .maxn n o.toNat v.toNat c.toNat = max o.toNat v.toNat
       ∧ amoNew .and n o.toNat v.toNat c.toNat = (o &&& v).toNat
       ∧ amoNew .or n o.toNat v.toNat c.toNat = (o ||| v).toNat
       ∧ amoNew .xor n o.toNat v.toNat c.toNat = (o ^^^ v).toNat
       ∧ amoNew .swap n o.toNat v.toNat c.toNat = v.toNat
       ∧ amoNew .cas n o.toNat v.toNat c.toNat = (if o = c then v else o).toNat)

/-- The frame of an access at its home: every byte outside the bytes that it stores to, and outside those of a waiting access that it lets
complete, reads as before, where none of those consumes a word in error, which would kill the husk (spec/03 R39). A load, LDF, LDFE, LDA,
AGEQ, SETF or SETE stores to none of its own.

Bytes stored at an address are read back, every other byte as before, and a number comes back little-endian with its lowest byte at the
lowest address (spec/06 R112, spec/04 R49). -/
def Obligations.StoredBytesAreReadBackAndOthersKept : Prop :=
  (∀ (s : State) (t off : Nat) (op : MemOp) (q : Asker) (k : Nat),
    (match op with
      | .load _ | .loadBlock _ | .ldf _ | .ldfe _ | .lda _ _ _ | .ageq | .setf | .sete => True
      | _ => k < sliceKey t off ∨ sliceKey t off + opLen op ≤ k) →
    (∀ y ∈ (s.tile t).waiters, consumesHere s t y.off y.op = false
      ∧ ∀ n v, y.op = .stef n v → k < sliceKey t y.off ∨ sliceKey t y.off + n ≤ k) →
    getByte (effectAt s t off op q).1 k = getByte s k)
  ∧ ((∀ (s : State) (t off : Nat) (v : Word) (n : Nat), n ≤ 8 → sliceKey t off + n ≤ memEnd →
    getNat (s.putSlice t off (bytesOf v.toNat n)) (sliceKey t off) n = v.toNat % 2 ^ (8 * n))
  ∧ (∀ (s : State) (t off : Nat) (bs : List Byte) (k : Nat), k < sliceKey t off ∨ sliceKey t off + bs.length ≤ k →
    getByte (s.putSlice t off bs) k = getByte s k)
  ∧ ∀ (s : State) (t off : Nat) (bs : List Byte) (j : Nat), j < bs.length → sliceKey t off + bs.length ≤ memEnd →
    getByte (s.putSlice t off bs) (sliceKey t off + j) = bs.getD j 0)

/-- The issue-time checks of an address come in the order of spec/02 R10: an unlisted region or a bit that must be zero faults
REGION; a kind that the region does not accept faults as spec/06 Table 2 says; a tile outside the husk faults HUSKBND; a
misaligned address faults ALIGN after that. Steps 4 and 5 of the other regions: in 0x02 a tile outside
the husk faults HUSKBND, then an offset that is not a line's ISTORE; in 0x01 the package's own id REGION, in 0x03 an engine above 47 REGION,
in 0x20 a group that is not bound to the tenant WINDOW, each before ALIGN; 0x10 has step 5 alone.

At the home, step 6 of spec/02 R10 and then the range tests turn an access away before it has any effect: a tenant's access of
the context area answers PRIV (spec/03 R44); a plain modifying access of a stamped range answers STAWR, of a BOOST range without
an active BBEGIN BOOSTWR (spec/06 R100, spec/03 R35), STAWR first where the bytes meet both kinds of range (the model's choice, log 39); the
state stays as it was. -/
def Obligations.AddressChecksComeInOrder : Prop :=
  (∀ (s : State) (a : Nat) (k : AKind) (addr : Word) (al : Bool),
    ((regionOf addr ∉ [0x00, 0x01, 0x02, 0x03, 0x10, 0x20] ∨ mustBeZero addr = false) →
      checkAddr s a k addr al = .error (.trap .region addr none false))
    ∧ (regionOf addr ∈ [0x00, 0x01, 0x02, 0x03, 0x10, 0x20] → mustBeZero addr = true →
      (∀ c, kindFault k addr = some c → checkAddr s a k addr al = .error (.trap c addr none false))
      ∧ (kindFault k addr = none → ∀ n h, s.huskOf a = some (n, h) →
        let faults (c : Cause) : Prop := checkAddr s a k addr al = .error (.trap c addr none false)
        let aligned (g : Target) : Prop := (al = false → faults .align) ∧ (al = true → checkAddr s a k addr al = .ok g)
        (regionOf addr = 0x00 →
          ((h.width ≤ field addr 26 21 ∨ h.height ≤ field addr 32 27) → faults .huskbnd)
          ∧ (field addr 26 21 < h.width → field addr 32 27 < h.height →
            aligned (.sram (h.tileAt (field addr 26 21) (field addr 32 27)) (field addr 20 0))))
        ∧ (regionOf addr = 0x01 →
          (field addr 44 33 = s.chip → faults .region)
          ∧ (field addr 44 33 ≠ s.chip →
            aligned (.remote (field addr 44 33) (field addr 26 21) (field addr 32 27) (field addr 20 0))))
        ∧ (regionOf addr = 0x02 →
          ((h.width ≤ field addr 21 16 ∨ h.height ≤ field addr 27 22) → faults .huskbnd)
          ∧ (field addr 21 16 < h.width → field addr 27 22 < h.height →
            (field addr 5 0 ≠ 0 → faults .istore)
            ∧ (field addr 5 0 = 0 →
              checkAddr s a k addr al = .ok (.code (h.tileAt (field addr 21 16) (field addr 27 22)) (field addr 15 0)))))
        ∧ (regionOf addr = 0x03 →
          (47 < field addr 13 8 → faults .region)
          ∧ (field addr 13 8 ≤ 47 → aligned (.aperture (field addr 13 8 * 16 + field addr 7 4))))
        ∧ (regionOf addr = 0x10 → aligned (.far (field addr 47 0)))
        ∧ (regionOf addr = 0x20 →
          (s.groupBound n (field addr 31 16) = false → faults .window)
          ∧ (s.groupBound n (field addr 31 16) = true → aligned (.mcast (field addr 31 16) (field addr 15 0)))))))
  ∧ (∀ (s : State) (t off : Nat) (op : MemOp) (q : Asker) (user act : Bool) (xy : Option Nat),
    (user = true → (s.tile t).inCtx off (opLen op) = true → performAt s t off op q user act xy = (s, .fault .priv))
    ∧ ((user && (s.tile t).inCtx off (opLen op)) = false →
      (∀ c, rangeFault s t off op act xy = some c → performAt s t off op q user act xy = (s, .fault c))
      ∧ ∀ n v, op = .store n v →
        ((s.tile t).touches (·.stamped) off n = true → performAt s t off op q user act xy = (s, .fault .stawr))
        ∧ ((s.tile t).touches (·.stamped) off n = false → (s.tile t).touches (·.boost) off n = true → act = false →
          performAt s t off op q user act xy = (s, .fault .boostwr))))

/-! ### Stamped and far instructions -/

/-- SETIT and ADVIT write `it`, readable by the next instruction: SETIT the register or the sign-extended immediate, ADVIT `it`
plus the register or the immediate (spec/05 R94). ENDW of a task that owes no acknowledgement sends its stop notice to every tile
of the husk, and ENDW with a group also to every member of a group that its tenant has (spec/05 R80, R95); whether another
package holds members is the model's choice (log 15), and so is the address that its faults would give (log 108).

STAM, with a group that its tenant has: the line and its age go to the home as an STA's, in the own slice, another tile's or another
package's; once the home has performed it the deliveries to the members go out, at once where the home is the own slice, else with
the home's acknowledgement, for which the operation keeps the group (spec/05 R85, R91); that one which a pair's buffer holds faults late is the
model's choice (log 25), as is the wait behind an access of the task that is parked there (log 121). What the task sent before it to the same line goes first
(spec/04 R50). -/
def Obligations.StampedInstructionsComplete : Prop :=
  (Results .setit (fun x s => emit s x 1 [(0x68, if x.f.minor = 1 then x.a else x.immS)] 0)
  ∧ Results .advit (fun x s => emit s x 1
      [(0x68, ((s.tile x.t).task x.w).it.setWidth 64 + if x.f.minor = 1 then x.a else x.f.imm.setWidth 64)] 0)
  ∧ ∀ (n : Nat) (h : Husk),
    let notices (x : In) (ts : List Nat) (s : State) : State := ts.foldl (fun s t =>
      s.send (mkPacket x.t t x.seq none (.stop (tileX x.t - h.col0) (tileY x.t - h.row0) none))) s
    Gives .endw (fun x s => s.huskOfTile x.t = some (n, h) ∧ (s.tile x.t).owes x.w true false = false)
      (fun x s => (notices x h.tiles (addOut s x
          { tag := 0, who := x.w, kind := .delivery, slow := true, use := true, addr := 0x2000000000000000, acks := h.tiles.length }), .next))
    ∧ Gives .endwGroup (fun x s => s.huskOfTile x.t = some (n, h) ∧ s.groupBound n x.low16 = true
        ∧ (s.tile x.t).owes x.w true false = false)
      (fun x s =>
        let away := s.choose.1 % 2 = 1
        let far := if away then 1 else 0
        let ms := s.groupOf n x.low16
        let s2 := notices x h.tiles (addOut s.choose.2 x
          { tag := 0, who := x.w, kind := .delivery, late := true, slow := true, use := true
            addr := BitVec.ofNat 64 (0x20 * 2 ^ 56 + x.low16 * 65536)
            acks := h.tiles.length + ms.length + far, far := far })
        let s3 := ms.foldl (fun s m => s.send (mkPacket x.t (h.tileAt m.1 m.2.1) x.seq none
          (.stop (tileX x.t - h.col0) (tileY x.t - h.row0) (some m.2.2)))) s2
        (if away then { s3 with egress := s3.egress ++
          [{ chip := 0, src := x.t, tag := x.seq, path := 0, addr := 0, op := none, group := some x.low16 }] } else s3, .next)))
  ∧ (∀ (s : State) (w : Who) (m : Form) (f : Fields) (s1 : State) (x : In) (r : Req) (a : Word) (al : Bool),
    Issues s w (.stam f) m f s1 x → request (.sta f) x s1 = some (r, a, al) → checkedFirst (.sta f) x s1 →
    stamChecks x.low16 x s1 = .ok () → released (.sta f) x s1 = true → x.t < numTiles →
    let held : Bool := (s1.tile x.t).pairing.isSome
    let grouped (s : State) : State := s.modTile x.t fun u => { u with
      out := u.out.map fun o => if o.tag = x.seq then { o with group := some x.low16 } else o }
    (∀ h off, checkAddr s1 x.t r.k a al = .ok (.sram h off) →
      let path := pathOf h (off / 64)
      (∀ s2, h ≠ x.t → niFull s1 x.t a = false → sentOrder s1 x.t x.w h off r.op held = .ok () →
        pairHold ((addOut (s1.modTile x.t fun u => u.countSent h path) x
            { r.out x a with status := !held, late := held, slow := true }).send
          { mkPacket x.t h x.seq (lineChan off) (.access off r.op (!((s1.tile x.t).task x.w).sup) ((s1.tile x.t).activeBoost x.w)) with
            span := lineSpan off 64, path := path, counted := true, epoch := (s1.tile x.t).epochTo h })
          x.t x.w [s1.nextId] r.op a = .ok s2 →
        exec (.stam f) s = .next (retired s1 x m (grouped s2) .next))
      ∧ ∀ s0 s2 o, h = x.t → ownOrder s1 x.t x.w x.t off r.op = .ok () → pairOwn s1 x.t off r.op a = .ok s0 →
          performAt s0 x.t off r.op (.core x.t x.seq (genOf (s1.tile x.t) x.w)) (!((s1.tile x.t).task x.w).sup)
            ((s1.tile x.t).activeBoost x.w) (some (s0.cidOf x.t)) = (s2, .done) →
          let s3 := (((addOut s2 x (r.out x a)).modTile x.t fun u => u.countSent x.t path).countArrival x.t x.t path 0 none).send
            (mkPacket x.t x.t x.seq none (.reply .done))
          (s3.tile x.t).out.find? (fun o => o.tag = x.seq) = some o →
          exec (.stam f) s = .next (retired s1 x m (deliverMirrors s3 x.t o x.low16 (lineOf s1 x) (x.b.setWidth 32)
            ((s1.tile x.t).activeBoost x.w) true) .next))
    ∧ ∀ chip rx ry off k u1 s2, checkAddr s1 x.t r.k a al = .ok (.remote chip rx ry off) → niFull s1 x.t a = false →
        takeUnits (s1.tile x.t) (chipDst chip) 1 = .ok (k, u1) →
        (!held && s1.egress.any fun e => e.src = x.t && e.held && linesMeet e.addr (lenOf e.op) a 64) = false →
        behindAway (s1.tile x.t) x.w a r.op = .ok () →
        let path := pathOf (chipDst chip) (a.toNat % 2 ^ 33 / 64)
        let s' := s1.setTile x.t (u1.countSent (chipDst chip) path)
        pairHold s' x.t x.w [2 ^ 64 + s'.nextId] r.op a = .ok s2 →
        let s3 := addOut s2 x { r.out x a with remote := true, late := true, slow := true, al := k, units := 1 }
        exec (.stam f) s = .next (retired s1 x m (grouped { s3 with
          nextId := s3.nextId + 1
          egress := s3.egress ++ [{ chip := chip, src := x.t, tag := x.seq, path := path, addr := a, op := some r.op, held := held
                                    epoch := (s1.tile x.t).epochTo (chipDst chip), behind := s1.staysBehind x.t a 64 }] }) .next))

/-- SETA whose entry passes the checks of spec/03 R36 waits for its drain, one at a time; its effect then writes the entry, a
length of zero removing it, and leaves every other entry as it was. In a range without waiters FEINIT 1 makes each word empty and
FEINIT 2 full, and a stamped range starts with AGE0, its writer, and no stop (spec/03 R36, R37). -/
def Obligations.AttributesAreWrittenAfterTheirDrain : Prop :=
  Gives .seta (fun x s => setaChecks s x.t x.f.imm.toNat x.a x.b = .ok () ∧ (s.tile x.t).seta = none)
    (fun x s => ((addOut s x { tag := 0, who := x.w, kind := .other, slow := true }).modTile x.t fun u =>
      { u with seta := some (x.f.imm.toNat, x.a, x.b, x.seq, 0) }, .next))
  ∧ (∀ (s : State) (e : Nat) (a b : Word) (tag k : Nat) (o : Outst), (s.tile s.cur).seta = some (e, a, b, tag, k) →
      let s1 := setaEffect (s.modTile s.cur fun u => { u with seta := none }) s.cur e a b
      (s1.tile s.cur).out.find? (fun o => o.tag = tag) = some o →
      exec .setaDrainComplete s = .next (finishOut s1 s.cur o []))
  ∧ ∀ (s : State) (t e : Nat) (a b : Word), (s.tile t).waiters = [] →
      let n := attrOf a b
      let s' := setaEffect s t e a b
      Sparse.get none (s'.tile t).attr e = (if n.len = 0 then none else some n)
      ∧ (∀ j, j ≠ e → Sparse.get none (s'.tile t).attr j = Sparse.get none (s.tile t).attr j)
      ∧ (n.feinit = 1 → ∀ i, i < n.len * 512 → s'.isEmpty t (n.base * 4096 + 8 * i) = true)
      ∧ (n.feinit = 2 → ∀ i, i < n.len * 512 → s'.isEmpty t (n.base * 4096 + 8 * i) = false)
      ∧ (n.stamped = true → ∀ i, i < n.len * 64 → s'.sideOf t (n.base * 4096 + 64 * i) =
          some { age := n.age0, writer := n.writer, mir := n.mirror, stop := false, ent := e })

/-- A copy request and a far request leave once the task owes no acknowledgement: an ST to region 0x03 with the template that its
data word names, FARREQ with its virtual address, parameter, loader entry and wake counter (spec/07 R133, R137). -/
def Obligations.CopyAndFarRequestsGoOut : Prop :=
  (∀ (ch n : Nat) (h : Husk) (tm : Template), Gives .st (fun x s =>
      regionOf x.addr = 0x03 ∧ x.t < numTiles ∧ (s.tile x.t).owes x.w true false = false ∧ s.huskOf x.t = some (n, h)
      ∧ checkAddr s x.t (.store (x.f.ty.code == 6 || x.f.ty.code == 7)) x.addr true = .ok (.aperture ch)
      ∧ field x.b 63 44 = 0 ∧ field x.b 35 15 = 0
      ∧ ((((s.tile x.t).task x.w).sup || !(s.tile x.t).inCtx (64 * field x.b 14 0) 64) = true)
      ∧ s.consumesBad x.t (64 * field x.b 14 0) 64 = false
      ∧ readTemplate (s.correct x.t (64 * field x.b 14 0) 8) h (sliceKey x.t (64 * field x.b 14 0)) n x.t (field x.b 43 36) x.addr = .ok tm)
    (fun x s => ((addOut (s.correct x.t (64 * field x.b 14 0) 8) x
        { tag := 0, who := x.w, kind := .store, addr := x.addr, slow := true }).send
      (mkPacket x.t (chDst ch) x.seq none (.aperture ch tm)), .next)))
  ∧ ∀ va : Nat, Gives .farreq (fun x s =>
      checkAddr s x.t .farReq x.addr (x.addr.toNat % 8 == 0) = .ok (.far va) ∧ (s.tile x.t).owes x.w true false = false)
    (fun x s => ((addOut s x { tag := 0, who := x.w, kind := .request, addr := x.addr, late := true, slow := true }).send
      (mkPacket x.t (mcDst (homeMc va)) x.seq none
        (.farreq { va := x.addr, param := x.b, entry := x.f.c.toNat, wk := x.f.dest.toNat, agent := x.t })), .next))

/-! ### Task instructions -/

/-- SEND with a block and SENDB with words of its own slice take ⌈len / 64⌉ allowance units, count as one request sent to their
destination, and send their message, with the handler's PC, the level, `it`, gid and cid of the sender, and the status that the new
task inherits (spec/15 R280, R281, R292, spec/06 R109); inside its cohort an unfinished core of a DET group tags the message with its
window (spec/19 R351). They wait while their home has 256 requests of the core open (spec/04 R63), and for the task's own earlier accesses
(R50). The two differ in where the payload comes from. -/
def Obligations.SendsPutTheirMessageOut : Prop :=
  (let tagOf (x : In) (s : State) (h : Nat) (u : Tile) := detTag (s.setTile x.t u) x.t h
   let msg (x : In) (s : State) (h off k : Nat) (u : Tile) (ws : List Word) : Msg :=
     { off := off, words := ws, handler := BitVec.ofNat 64 x.f.imm.toNat, level := x.f.minor.toNat % 2, it := (u.task x.w).it
       gid := (u.task x.w).gid, tstat := inheritStat (u.task x.w).tstat (x.f.minor.toNat % 2 == 1) (supOf (s.setTile x.t u) h)
       cid := (s.setTile x.t u).cidOf x.t, al := k, units := unitsOf (8 * ws.length), path := pathOf h (off / 64), epoch := u.epochTo h
       det := (tagOf x s h u).isSome, index := ((tagOf x s h u).map (·.1)).getD 0, window := ((tagOf x s h u).map (·.2.1)).getD 0
       seqno := ((tagOf x s h u).map (·.2.2)).getD 0, agent := x.t, tag := x.seq }
   let sent (x : In) (s : State) (h off k : Nat) (u : Tile) (ws : List Word) : State × After :=
     let s1 := s.setTile x.t u
     let s2 := if (tagOf x s h u).isSome then s1.modTile x.t fun u => u.countTagged h else s1
     ((addOut (s2.modTile x.t fun u => u.countSent h (pathOf h (off / 64))) x
         { tag := 0, who := x.w, kind := .request, addr := x.a, late := true, slow := true, payload := true }).send
       (mkPacket x.t h x.seq none (.message (msg x s h off k u ws))), .next)
   let room (x : In) (s : State) (h off n : Nat) : Prop :=
     homesFull s x.t (homesOf s x.t x.a) = false ∧ matrixMeets s x.t x.w h off (8 * n) true = false
   ∀ (h off k : Nat) (u : Tile),
    Gives .send (fun x s => sendTarget s x (8 * (x.f.h * x.f.wd)) = .ok (h, off)
        ∧ room x s h off (blockWords s x x.f.b.toNat).length
        ∧ takeUnits (s.tile x.t) h (unitsOf (8 * (blockWords s x x.f.b.toNat).length)) = .ok (k, u))
      (fun x s => sent x s h off k u (blockWords s x x.f.b.toNat))
    ∧ ∀ (ws : List Word) (s2 : State) (n : Nat) (hk : Husk), Gives .sendb (fun x s =>
        sendTarget s x (8 * (x.f.c.toNat + 1)) = .ok (h, off) ∧ s.huskOfTile x.t = some (n, hk)
        ∧ regionOf x.b = 0x00 ∧ mustBeZero x.b = true ∧ field x.b 26 21 < hk.width ∧ field x.b 32 27 < hk.height
        ∧ hk.tileAt (field x.b 26 21) (field x.b 32 27) = x.t
        ∧ field x.b 20 0 % 8 = 0 ∧ field x.b 20 0 + 8 * (x.f.c.toNat + 1) ≤ 2 ^ 21
        ∧ ((((s.tile x.t).task x.w).sup || !(s.tile x.t).inCtx (field x.b 20 0) (8 * (x.f.c.toNat + 1))) = true)
        ∧ ownOrder s x.t x.w x.t (field x.b 20 0) (.loadBlock (x.f.c.toNat + 1)) = .ok ()
        ∧ s.consumesBad x.t (field x.b 20 0) (8 * (x.f.c.toNat + 1)) = false
        ∧ readWords (s.correct x.t (field x.b 20 0) (x.f.c.toNat + 1)) x.t (field x.b 20 0) (x.f.c.toNat + 1) = (s2, ws)
        ∧ room x s2 h off ws.length ∧ takeUnits (s2.tile x.t) h (unitsOf (8 * ws.length)) = .ok (k, u))
      (fun x _ => sent x s2 h off k u ws))

/-- SPAWN sends a pod with the PC, `it`, gid, the inherited status and the live registers; PARK, once every counter is zero,
nothing is owed and no matrix instruction of its task is queued, sends its own continuation after the next slot, with every result of
fixed latency written, and its task stays in place until the answer; WKDEC, as a release, sends its decrement (spec/15 R277, R282,
R283, spec/14 R247). -/
def Obligations.PodsAndDecrementsGoOut : Prop :=
  (∀ h : Nat, Gives .spawn (fun x s => coreOf s x.t x.a = .ok h ∧ maskOk x.b = true)
      (fun x s =>
        let k := (s.tile x.t).task x.w
        ((addOut s x { tag := 0, who := x.w, kind := .request, late := true, slow := true, use := true }).send
          (mkPacket x.t h x.seq (if h = x.t then none else orderedChan) (.spawn
            { task := { pc := BitVec.ofNat 64 x.f.imm.toNat, tstat := inheritStat k.tstat false (supOf s h), it := k.it, gid := k.gid
                        g := liveRegs k x.b.toNat }
              live := x.b.toNat, checked := true } (if x.f.minor = 1 then some x.f.c.toNat else none))), .next)))
  ∧ (∀ h : Nat, Gives .park (fun x s => coreOf s x.t x.a = .ok h ∧ maskOk x.b = true
        ∧ ((s.tile x.t).out.any fun o => o.who = x.w && o.park) = false ∧ ((s.tile x.t).task x.w).fwd = false
        ∧ (s.tile x.t).activeBoost x.w = false ∧ ((s.tile x.t).task x.w).maskClear 0x3F = true
        ∧ (s.tile x.t).owes x.w true true = false ∧ (s.tile x.t).matrixBusy x.w = false)
      (fun x s =>
        let s := s.modTile x.t Tile.flush
        let k := (s.tile x.t).task x.w
        (((addOut s x { tag := 0, who := x.w, kind := .other, slow := true, park := true }).send
          (mkPacket x.t h x.seq (if h = x.t then none else orderedChan) (.park
            { task := { pc := nextPc x.pc, tstat := closeWindow k.tstat, sticky := k.sticky, ret := k.ret, it := k.it, gid := k.gid
                        p := k.p, g := liveRegs k x.b.toNat }
              live := x.b.toNat } x.f.c.toNat))).modTile x.t fun u => { u.payIssue x.f.stall.toNat with held := true }, .gone)))
  ∧ ∀ h : Nat, Gives .wkdec (fun x s => coreOf s x.t x.a = .ok h ∧ (s.tile x.t).owes x.w true false = false)
      (fun x s => ((addOut s x { tag := 0, who := x.w, kind := .request, slow := true }).send
        (mkPacket x.t h x.seq orderedChan (.wkdec x.f.c.toNat x.b none true)), .next))

/-- WKSET writes a counter without a pod, of the follower's core too in a pair (spec/19 R358). WAIT at a counter that reads zero takes its
word as `ret`, a register result of a pair (spec/19 R358), and goes on; at another one the task is attached to it, and set aside after the
WAIT while another pod is ready, or stays in place until one is or the counter has come to zero. YIELD goes on while no other pod is
ready, and else moves its task to the tail of the ready list. MASK1 opens a window, UNMASK1 closes it (spec/15 R277, R278, R284, R285). -/
def Obligations.WaitYieldAndWindowsComplete : Prop :=
  Gives .wkset (fun x s => ((s.tile x.t).wakeOf x.f.c.toNat).pod = .none)
      (fun x s => (emit (setCore s x fun u =>
        u.setWake x.f.c.toNat { u.wakeOf x.f.c.toNat with count := field x.a 15 0 }) x 1 [] 0, .next))
  ∧ (∀ i : Nat,
      let rests (x : In) (s : State) : Prop := x.w = .img i ∧ ((s.tile x.t).ctx i).waitDone = false
      let loose (x : In) (s : State) : Prop := ((s.tile x.t).wakeOf x.f.c.toNat).pod = .none
      let aside (x : In) (s : State) : Bool := (s.tile x.t).otherReady && !((s.tile x.t).task x.w).fwd
      let attached (x : In) (s : State) : State := s.modTile x.t fun u =>
        u.setWake x.f.c.toNat { (s.tile x.t).wakeOf x.f.c.toNat with pod := .bound i }
      let takes (x : In) (s : State) : Bool := !aside x s || ((s.tile x.t).settled x.w && !(s.tile x.t).pairOpen)
      Gives .wait (fun x s => rests x s ∧ loose x s ∧ takes x s = true ∧ ((s.tile x.t).wakeOf x.f.c.toNat).count = 0)
        (fun x s => (s.modTile x.t fun u => takeNotes ((u.modTask x.w fun k =>
          { k with ret := ((s.tile x.t).wakeOf x.f.c.toNat).word }).foldRet i ((s.tile x.t).wakeOf x.f.c.toNat).word) x.w
            x.f.c.toNat, .next))
      ∧ Gives .wait (fun x s => rests x s ∧ loose x s ∧ takes x s = true ∧ aside x s = true ∧ ((s.tile x.t).wakeOf x.f.c.toNat).count ≠ 0)
        (fun x s => (waitAside (attached x s) x x.f.c.toNat, .gone))
      ∧ Gives .wait (fun x s => rests x s ∧ loose x s ∧ aside x s = false ∧ ((s.tile x.t).wakeOf x.f.c.toNat).count ≠ 0)
        (fun x s => ((attached x s).modTile x.t fun u => { u with cyc := u.cyc + 1, held := true }, .gone))
      ∧ Gives .wait (fun x s => rests x s ∧ takes x s = true ∧ aside x s = true ∧ ((s.tile x.t).wakeOf x.f.c.toNat).pod = .bound i)
        (fun x s => (waitAside s x x.f.c.toNat, .gone))
      ∧ Gives .wait (fun x s => x.w = .img i ∧ ((s.tile x.t).ctx i).waitDone = true)
        (fun x s => (s.modTile x.t fun u =>
          takeNotes (u.setCtx i { u.ctx i with waitDone := false }) x.w x.f.c.toNat, .next)))
  ∧ Gives .yield (fun x s => ((s.tile x.t).otherReady && !((s.tile x.t).task x.w).fwd) = false) (fun _ s => (s, .next))
  ∧ Gives .yield (fun x s => (s.tile x.t).otherReady = true ∧ ((s.tile x.t).task x.w).fwd = false ∧ (s.tile x.t).settled x.w = true
        ∧ (s.tile x.t).pairOpen = false)
      (fun x s => (setAside ((countRetired s x.t x.w ((s.tile x.t).task x.w).mwo).modTile x.t fun u =>
        (u.modTask x.w fun k => { k with pc := nextPc k.pc }).payIssue x.f.stall.toNat) x.t .ready, .gone))
  ∧ Gives .mask1 (fun x s => ((s.tile x.t).task x.w).mwo = false)
      (fun x s => (s.modTile x.t fun u => u.modTask x.w fun k => { k with tstat := setField k.tstat 41 32 (2 ^ 9) }, .next))
  ∧ Gives .unmask1 (fun _ _ => True)
      (fun x s => (s.modTile x.t fun u => u.modTask x.w fun k => { k with tstat := closeWindow k.tstat }, .next))

/-- QBIND binds a port that its context may claim to an enabled slot of its core, or to a slot of a core of the husk, or unbinds it; HQCFG
configures a slot that is empty; ALBIND binds an allowance register whose units are all back (spec/15 R286, R287, R294); a record that an
earlier binding of the port has sent and that is not accepted yet holds the new one as its own would (R288). In a pair the follower's core
is configured so too (spec/19 R358). The records that a slot has taken for a window that has not ended stay with it (log 18). -/
def Obligations.PortsQueuesAndAllowancesAreConfigured : Prop :=
  (∀ v : State,
    Gives .qbindPop (fun x s => ((s.tile x.t).hqueue x.f.c.toNat).en = true ∧ claimPort s x.t x.w (x.f.dest.toNat - 0x40) = .ok v)
      (fun x _ => (emit (setCoreFor v x fun w u => u.setPort (x.f.dest.toNat - 0x40) (some { who := w, kind := .pop x.f.c.toNat 0 })) x 1 [] 0,
        .next))
    ∧ (∀ h : Nat, Gives .qbindPush (fun x s => coreOf s x.t x.a = .ok h ∧ claimPort s x.t x.w (x.f.dest.toNat - 0x40) = .ok v)
      (fun x _ => (emit (setCoreFor v x fun w u => u.setPort (x.f.dest.toNat - 0x40)
        (some { who := w, kind := .push h x.f.c.toNat [] ((v.tile x.t).out.any fun o => o.port = some (x.f.dest.toNat - 0x40)) })) x 1 [] 0,
          .next)))
    ∧ Gives .qbindNone (fun x s => claimPort s x.t x.w (x.f.dest.toNat - 0x40) = .ok v)
      (fun x _ => (emit v x 1 [] 0, .next)))
  ∧ Gives .hqcfg (fun x s =>
      let size := field x.a 31 28
      ((s.tile x.t).hqueue x.f.c.toNat).slot = [] ∧ ((s.tile x.t).hqueue x.f.c.toNat).stored = 0
      ∧ field x.a 63 32 = 0 ∧ field x.a 27 21 = 0 ∧ field x.a 5 1 = 0 ∧ size ≤ 9
      ∧ 64 * field x.a 20 6 + 64 * 32 * 2 ^ size ≤ 2 ^ 21 ∧ (s.tile x.t).inCtx (64 * field x.a 20 6) (64 * 32 * 2 ^ size) = false)
      (fun x s => (emit (setCore s x fun u => u.setHq x.f.c.toNat
        { en := bit x.a 0, rsize := field x.a 31 28, base := 64 * field x.a 20 6
          parked := (u.hqueue x.f.c.toNat).parked }) x 1 [] 0, .next))
  ∧ (∀ d : Nat, Gives .albind (fun x s => bindTarget s x = .ok d
        ∧ ((s.tile x.t).alBind.any fun e => e.1 != x.f.dest.toNat - 0x50 && e.2 == some d) = false
        ∧ 32 ≤ (s.tile x.t).allow (x.f.dest.toNat - 0x50))
      (fun x s => (emit (setCore s x fun u => { u with
        alBind := Sparse.set none u.alBind (x.f.dest.toNat - 0x50) (some d) }) x 1 [] 0, .next)))
  ∧ Gives .albindNone (fun x s => 32 ≤ (s.tile x.t).allow (x.f.dest.toNat - 0x50))
      (fun x s => (emit (setCore s x fun u => { u with
        alBind := Sparse.set none u.alBind (x.f.dest.toNat - 0x50) none }) x 1 [] 0, .next))

/-! ### Group instructions -/

/-- LAUNCH of a record whose header can be read and which its task may reach leaves for the scheduler once nothing is owed; LSTAT
answers the status word of its handle, an acquire where it reports DONE (spec/16 R310, R311); a record of a context area is not read
for a task in tenant mode (log 86).

A task of the core's group arrives at its barrier with BARA, a release, when the phase of the last arrival is over, and passes
BARW once its phase has completed; a phase completes when every core of the cohort has arrived in it, in a cohort of one core with
the arrival (spec/16 R307, R312, spec/08 R143). The phase of a BARW is that of the core's latest arrival when it first issued. -/
def Obligations.LaunchesAndBarriersComplete : Prop :=
  ((∀ t off : Nat, Gives .launch (fun x s =>
      checkAddr s x.t .localOnly x.a (x.a.toNat % 64 == 0 && x.a.toNat % 2 ^ 21 + 128 ≤ 2 ^ 21) = .ok (.sram t off)
      ∧ s.consumesBad t (off + 0x10) 12 = false ∧ (let len := recLen (recGroups (s.correct t ((off + 0x10) / 8 * 8) 2) t off)
        off + len ≤ 2 ^ 21 ∧ (((s.tile x.t).task x.w).sup || !(s.tile t).inCtx off len) = true)
      ∧ (s.tile x.t).owes x.w true true = false)
    (fun x s => ((addOut (s.correct t ((off + 0x10) / 8 * 8) 2) x
        { tag := 0, who := x.w, kind := .other, dst := .word x.f.dest.toNat, slow := true }).send
      (mkPacket x.t schedDst x.seq none (.launch t off 0)), .next)))
  ∧ Gives .lstat (fun x s => field x.a 47 33 = 0 ∧ field x.a 5 0 = 0 ∧
      ∀ e, recPlace s x = some e → s.consumesBad e.1 (e.2 + 0x40) 16 = false)
    (fun x s =>
      let s := match recPlace s x with
        | some e => s.correct e.1 (e.2 + 0x40) 2
        | none => s
      let v := statusOf s x.t x.a (recPlace s x)
      ((addOut s x { tag := 0, who := x.w, kind := .other, dst := .word x.f.dest.toNat, slow := true, acquire := field v 63 60 == 3 }).send
        (mkPacket schedDst x.t x.seq none (.reply (.data [v] 0))), .next)))
  ∧ ((∀ c : Cohort,
    Gives .bara (fun x s => groupCohort s x = .ok c ∧ (s.tile x.t).owes x.w true false = false ∧ (s.tile x.t).phase ≤ c.phase)
      (fun x s =>
        let s' := s.modTile x.t fun u => { u with phase := (s.tile x.t).phase + 1 }
        (emit (if (s'.membersOf c).length = 1 then completePhase s' c else s') x 1 [] 0, .next))
    ∧ Gives .barw (fun x s => groupCohort s x = .ok c ∧ (x.waitNo s).getD (s.tile x.t).phase ≤ c.phase) (fun _ s => (s, .next)))
  ∧ ∀ (s : State) (c : Cohort), s.cohorts.find? (fun (c : Cohort) => c.id = s.sel) = some c → s.membersOf c ≠ [] →
      (∀ t ∈ s.membersOf c, c.phase < (s.tile t).phase) →
      exec .barrierPhaseComplete s = .next ((s.membersOf c).foldl wakeWaiting
        { s with cohorts := s.cohorts.map fun (d : Cohort) => if d.id = c.id then { d with phase := d.phase + 1 } else d }))

/-- QUANT of a DET group's unfinished core sends the next marker to every member, and elsewhere does nothing more than go on; QUANT.w
holds its task until this member has handled the window (spec/16 R313, spec/19 R351, R352). The count of retired instructions sends the
marker when it reaches the quantum, once no status can take back what it counts (spec/16 R308, spec/06 R102); it restarts with the marker,
also for what an exact fault may take back later. That a QUANT counts in the quantum that it begins, since it retires after its marker, is
the model's reading (log 89). A marker of the tile's cohort that arrives is kept, one of a cohort that has retired is
dropped. A delivery window ends once every member's marker and every message that they count has arrived and the pod pool has room: its
messages and records are handled in the order of sender and sequence, and tasks that wait for it go on (spec/19 R352). -/
def Obligations.QuantaAndDeliveryWindowsEnd : Prop :=
  ((Gives .quant (fun x s => quantCohort s x = none) (fun x s => (emit s x 1 [] 0, .next)))
   ∧ (∀ c : Cohort, Gives .quant (fun x s => quantCohort s x = some c)
       (fun x s => (emit (sendMarkers s x.t c) x 1 [] 0, .next))
     ∧ Gives .quantW (fun x s => quantCohort s x = some c ∧ x.waitNo s = none)
       (fun x s => ((sendMarkers s x.t c).modTile x.t fun u =>
         { u.modTask x.w fun k => { k with waitNo := some (x.pc, (s.tile x.t).det.sent) } with cyc := u.cyc + 1, held := true }, .gone)))
   ∧ Gives .quantW (fun x s => quantCohort s x = none ∧ x.waitNo s = none) (fun x s => (emit s x 1 [] 0, .next))
   ∧ (∀ n : Nat, Gives .quantW (fun x s => x.waitNo s = some n ∧ n < (s.tile x.t).det.handled)
       (fun x s => (emit s x 1 [] 0, .next)))
   ∧ (∀ (s : State) (c : Cohort), s.cohortOf s.cur = some c → c.det = true → (s.tile s.cur).det.finished = false →
       2 ^ c.qlog ≤ (s.tile s.cur).det.count → countOpen (s.tile s.cur) = false → exec .quantumCountExpiry s = .next (sendMarkers s s.cur c))
   ∧ (∀ (s : State) (p : Packet) (id n count i : Nat), arrived s s.sel = some p → p.body = .marker id n count i →
       (∀ c, s.cohortOf p.dst = some c → c.id = id → exec .quantumMarkerArrival s = .next ((s.drop s.sel).modTile p.dst fun u =>
         { u with det := { u.det with marks := u.det.marks ++ [(n, i, count)] } }))
       ∧ ((∀ c, s.cohortOf p.dst = some c → c.id ≠ id) → exec .quantumMarkerArrival s = .next (s.drop s.sel)))
   ∧ ∀ (s : State) (t : Nat) (c : Cohort), ((sendMarkers s t c).tile t).det.count = 0
       ∧ ((sendMarkers s t c).tile t).det.sent = (s.tile t).det.sent + 1
       ∧ (sendMarkers s t c).net.length = s.net.length + (s.membersOf c).length
       ∧ (∀ o ∈ ((sendMarkers s t c).tile t).out, ∀ y, o.snap = some y → y.count = 0)
       ∧ ∀ m ∈ s.membersOf c, ∃ p ∈ (sendMarkers s t c).net, p.dst = m
         ∧ p.body = .marker c.id (s.tile t).det.sent (Sparse.get 0 (s.tile t).det.inWindow m) (s.indexIn c t))
  ∧ (∀ (s : State) (c : Cohort), s.cohortOf s.cur = some c → c.det = true →
       let u := s.tile s.cur
       let n := u.det.handled
       let ms := (u.det.parked.filter fun m => m.window ≤ n).foldl (fun l m => insertMsg m l) []
       let s1 := s.setTile s.cur { u with
         det := { u.det with handled := n + 1, parked := u.det.parked.filter (fun m => n < m.window)
                             marks := u.det.marks.filter fun e => n < e.1 } }
       let s2 := (u.hq.map (·.1)).foldl (fun s1 k => placeWindow s1 s.cur n k) s1
       windowOver s s.cur n c = true → u.poolUsed + ms.length ≤ 64 →
       exec .deliveryWindowEnd s = .next (wakeWaiting (ms.foldl (fun s2 m => handleMsg s2 s.cur m) s2) s.cur))

/-! ### Boosted instructions -/

/-- BBEGIN that passes its checks while the core's slot is free takes the slot with its ticket, restart PC and undo area; BABORT of
a live task makes its abort pending with reason SELF, in place of a notice that is pending and unless an abort of its own is (R320, R327;
the model's reading, log 100); BCOMMIT that waits for nothing, a declaration of its own included (log 101), releases every lock and frees the slot; BTLOAD sends its row
to every tile of the husk; BSTAT gives the status word of spec/17 Table 6 (R324, R326 to R329), at level 1 that of the task which holds the slot, or zero where
none does (the model's reading, log 70).

BDECL of a live task with room on its undo stack sends its declaration, with the age of the task, to the home of the object,
as an acquire whose status decides the line; what its grant will push is the payload with its two arguments and the address
(spec/17 R325). -/
def Obligations.BoostedInstructionsComplete : Prop :=
  ((∀ i off : Nat,
    Gives .bbegin (fun x s => x.w = .img i ∧ bbeginChecks s x i = .ok off ∧ (s.tile x.t).boosted = none ∧ (s.tile x.t).undo = none)
      (fun x s =>
        let b : Boost := { ((s.tile x.t).ctx i).boost with
          ticket := x.a.setWidth 32, restart := BitVec.ofNat 64 x.f.imm.toNat, undo := off, cap := x.f.c.toNat + 1, depth := 0
          active := true, btry := false, life := s.nextId
          tag := ((launchCohort s x.t ((s.tile x.t).task x.w).gid).map (·.tag)).getD 0 }
        (emit ({ s with nextId := s.nextId + 1 }.modTile x.t fun u =>
          { u.setCtx i { u.ctx i with boost := b } with abort := none }) x 1 [] 0, .next))
    ∧ Gives .babort (fun x s => liveImage s x = .ok i)
      (fun x s =>
        let ticket := ((s.tile x.t).ctx i).boost.ticket.toNat
        (emit (s.modTile x.t fun u => u.askAbort 4 ticket) x 1 [] 0, .next))
    ∧ (∀ (u : Tile) (ticket : Nat), u.undo = none → (u.abort = none ∨ ∃ k j, u.abort = some (k, j) ∧ (k = 1 ∨ k = 3)) →
        u.askAbort 4 ticket = { u with abort := some (4, ticket) })
    ∧ Gives .bcommit (fun x s => liveImage s x = .ok i ∧ (s.tile x.t).owes x.w true false = false
        ∧ ((s.tile x.t).out.any fun o => o.who = x.w && o.acquire) = false)
      (fun x s => (if lockHomes s x.t = [] then emit (commitBoost s x i) x 1 [] 0 else commitBoost s x i, .next)))
  ∧ (∀ (n : Nat) (h : Husk), Gives .btload (fun x s => s.huskOfTile x.t = some (n, h))
      (fun x s => (h.tiles.foldl (fun s t => s.send (mkPacket x.t t x.seq orderedChan (.commut x.f.imm.toNat x.a x.b)))
        (addOut s x { tag := 0, who := x.w, kind := .other, slow := true, acks := h.tiles.length }), .next)))
  ∧ (let later (x : In) (s : State) (v : Word) : State × After :=
      ((addOut s x { tag := 0, who := x.w, kind := .other, dst := .word x.f.dest.toNat }).send
        (mkPacket x.t x.t x.seq none (.reply (.data [v] 0))), .next)
    (∀ i : Nat, Gives .bstat (fun x _ => x.w = .img i) (fun x s => later x s (boostWord ((s.tile x.t).ctx i).boost)))
    ∧ (∀ i : Nat, Gives .bstat (fun x s => (∀ j, x.w ≠ .img j) ∧ (s.tile x.t).boosted = some i)
        (fun x s => later x s (boostWord ((s.tile x.t).ctx i).boost)))
    ∧ Gives .bstat (fun x s => (∀ j, x.w ≠ .img j) ∧ (s.tile x.t).boosted = none) (fun x s => later x s 0)))
  ∧ (∀ i h off : Nat, Gives .bdecl (fun x s =>
      let b := ((s.tile x.t).ctx i).boost
      liveImage s x = .ok i ∧ checkAddr s x.t .atomic x.a true = .ok (.sram h off) ∧ off % 8 = 0 ∧ b.depth < b.cap
      ∧ (h = x.t → ((s.tile x.t).task x.w).sup = true ∨ (s.tile x.t).inCtx off 8 = false)
      ∧ ((s.tile x.t).pairing.any fun p => 256 < p.log.length + 4) = false)
    (fun x s =>
      let b := ((s.tile x.t).ctx i).boost
      let a2 : Word := if x.f.c = 0 then 0 else readReg s x.t x.w (x.f.c.toNat + 1)
      ((addOut s x { tag := 0, who := x.w, kind := .other, addr := x.a, acquire := true, status := true, slow := true
                     pushes := [BitVec.ofNat 64 x.f.imm.toNat, if x.f.c = 0 then 0 else x.c, a2, x.a] }).send
        (mkPacket x.t h x.seq orderedChan (.declare
          { obj := off, kind := x.f.imm.toNat / 8192 % 64, key := x.b, age := ageOf s x.t b, life := b.life
            user := !((s.tile x.t).task x.w).sup, retried := b.btry })), .next)))

/-! ### Traps and control registers -/

/-- TRAP and TRAP.s retire and then enter the handler with their own code, their register as the argument and the next slot as the
saved PC; BRKPT takes its exception at itself, with its immediate as the argument, once the accesses before it have their statuses
and no pair's interval is open; TFENCE goes on where no flag of its mask is set, and else takes ARITH with those flags (spec/18
R346, R348, spec/11 R188). -/
def Obligations.SoftwareTrapsEnterTheirHandler : Prop :=
  (let ready (x : In) (s : State) : Prop := (s.tile x.t).settled x.w = true ∧ (s.tile x.t).pairOpen = false
   let enters (sup : Bool) (x : In) (s : State) : State × After :=
     (takeTrap (retire s x.t x.w x.f 1 ((s.tile x.t).task x.w).mwo true .next)
       x.t (.trap (BitVec.ofNat 8 x.f.imm.toNat)) (nextPc x.pc) x.a false false false sup, .gone)
   Gives .trap ready (enters false) ∧ Gives .trapS ready (enters true))
  ∧ (∀ (s : State) (w : Who) (m : Form) (f : Fields) (s1 : State) (x : In), Issues s w (.brkpt f) m f s1 x → s.cur < numTiles →
      (s.tile s.cur).settled w = true → (s.tile s.cur).pairOpen = false →
      exec (.brkpt f) s = .next (takeTrap s s.cur .brkpt ((s.tile s.cur).task w).pc (f.imm.setWidth 64) false false false false))
  ∧ Gives .tfence (fun x s => ((s.tile x.t).task x.w).sticky &&& BitVec.ofNat 64 (x.f.imm.toNat % 256) = 0) (fun _ s => (s, .next))
  ∧ ∀ (s : State) (w : Who) (m : Form) (f : Fields) (s1 : State) (x : In), Issues s w (.tfence f) m f s1 x → s.cur < numTiles →
      (s.tile s.cur).settled w = true → (s.tile s.cur).pairOpen = false →
      let v := ((s1.tile s.cur).task w).sticky &&& BitVec.ofNat 64 (f.imm.toNat % 256)
      v ≠ 0 → exec (.tfence f) s = .next (takeTrap s s.cur .arith ((s.tile s.cur).task w).pc v false false false false)

/-- TRET of a handler that is not nested returns to the interrupted context, its tstat being ESTAT and its PC EPC, where ESTAT
has no reserved bit set and EPC is a PC; of a nested one the handler goes on at HEPC and is no longer nested; an ESTAT with a
reserved bit raises BADSTAT, an EPC of a wrong format BADTGT, and TRET outside a handler TRETOUT, each at the TRET (spec/18
R347). -/
def Obligations.ReturnFromTrapResumes : Prop :=
  (∀ hd : Handler,
    let slot (x : In) (s : State) : State := s.modTile x.t fun u => u.payIssue x.f.stall.toNat
    Gives .tret (fun x s => x.w = .hnd ∧ (s.tile x.t).hnd = some hd ∧ bit hd.ecause 8 = false ∧ tstatReserved hd.estat = false
        ∧ pcOk hd.epc = true ∧ (s.tile x.t).pairOpen = false) (fun x s => (returnTrap (slot x s) x.t, .gone))
    ∧ Gives .tret (fun x s => x.w = .hnd ∧ (s.tile x.t).hnd = some hd ∧ bit hd.ecause 8 = true ∧ pcOk hd.hepc = true)
        (fun x s => (continueHandler (slot x s) x.t, .gone)))
  ∧ (∀ (s : State) (t : Nat) (hd : Handler) (i : Nat), (s.tile t).hnd = some hd → hd.of_ = .img i → (s.tile t).pend = [] →
      (s.tile t).reduction = none → (s.tile t).pairing = none →
      let u := (returnTrap s t).tile t
      u.hnd = none ∧ (u.task (.img i)).pc = hd.epc ∧ (u.task (.img i)).tstat = hd.estat
      ∧ (u.task (.img i)).g = ((s.tile t).task (.img i)).g)
  ∧ (∀ (s : State) (w : Who) (m : Form) (f : Fields) (s1 : State) (x : In), Issues s w (.tret f) m f s1 x → s.cur < numTiles →
      (s.tile s.cur).settled w = true → (s.tile s.cur).pairOpen = false →
      let traps (c : Cause) (a : Word) := exec (.tret f) s =
        .next (takeTrap s s.cur c ((s.tile s.cur).task w).pc a false false false false)
      (w ≠ .hnd → traps .tretout 0)
      ∧ ∀ hd, w = .hnd → (s1.tile s.cur).hnd = some hd → bit hd.ecause 8 = false →
        (tstatReserved hd.estat = true → traps .badstat 0)
        ∧ (tstatReserved hd.estat = false → pcOk hd.epc = false → traps .badtgt hd.epc))

/-- GETS reads each control register of spec/18 Table 4: tvec and the slice's rest by any task, svec, slice and ctxbase by the supervisor,
those of the handler and of the interrupted context by a handler alone (R340, R349), `sticky` once what the interrupted stream has issued
has raised its flags (spec/11 R188). Of a paired task's own core's registers the follower's value enters its fingerprint (spec/19 R358).

SETS writes the control register of its number, tvec, svec and slice on the follower of a paired task too (spec/19 R358): a vector that has
the format, slice and ctxbase by the supervisor, estat with SUP, LVL, DET and BST kept for a tenant's handler, epc, hepc, and the registers
of the interrupted context (spec/18 R340, R349). That it completes at once though a load is still to write that register is the model's
choice (log 102). -/
def Obligations.ControlRegistersAreReadAndWritten : Prop :=
  ((∀ v : Word,
      let own (n : Nat) : Bool := n == 0x000 || n == 0x001 || n == 0x007 || n == 0x009
      Gives .gets (fun x s => getControl s x x.f.imm.toNat = .ok v) (fun x s => (if own x.f.imm.toNat
        then mateReads (resultW x s 1 v 0) x (coreControl x.f.imm.toNat) else resultW x s 1 v 0, .next)))
  ∧ (∀ (s : State) (x : In) (g : Tile → Word), (s.tile x.t).pairing = none → mateReads s x g = s)
  ∧ ∀ (s : State) (x : In),
    let u := s.tile x.t
    getControl s x 0x000 = .ok u.tvec
    ∧ getControl s x 0x008 = .ok (BitVec.ofNat 64 (if u.cur0.isSome then u.lim - u.used else 0))
    ∧ ((u.task x.w).sup = true → getControl s x 0x001 = .ok u.svec
        ∧ getControl s x 0x007 = .ok (BitVec.ofNat 64 (max 4096 u.slice))
        ∧ getControl s x 0x009 = .ok (BitVec.ofNat 64 (u.ctxbase * 1024)))
    ∧ ((u.task x.w).sup = false → ∀ n, n = 0x001 ∨ n = 0x007 ∨ n = 0x009 →
        getControl s x n = .error (.trap .priv (u.openAddr x.t) none false))
    ∧ (∀ h, x.w = .hnd → u.hnd = some h →
        getControl s x 0x002 = .ok h.epc ∧ getControl s x 0x003 = .ok h.estat ∧ getControl s x 0x004 = .ok h.ecause
        ∧ getControl s x 0x005 = .ok h.eaddr ∧ getControl s x 0x006 = .ok h.hepc
        ∧ getControl s x 0x140 = .ok ((u.task h.of_).p.setWidth 64) ∧ getControl s x 0x141 = .ok ((u.task h.of_).it.setWidth 64)
        ∧ getControl s x 0x142 = .ok (u.task h.of_).ret
        ∧ (u.flagsOpen h.of_ = false → getControl s x 0x143 = .ok (u.task h.of_).sticky)
        ∧ ∀ n i, n < 64 → h.of_ = .img i → getControl s x (0x100 + n) = .ok ((u.task h.of_).getG n))
    ∧ (x.w ≠ .hnd → ∀ n, (0x002 ≤ n ∧ n ≤ 0x006) ∨ (0x100 ≤ n ∧ n ≤ 0x143) →
        getControl s x n = .error (.trap .illeg 0 none false)))
  ∧ ((let wrote (g : In → State → State) (x : In) (s : State) : State × After := (emit (g x s) x 1 [] 0, .next)
   let sup (x : In) (s : State) : Prop := ((s.tile x.t).task x.w).sup = true
   Gives .setsTvec (fun x _ => vectorOk x.a = true) (wrote fun x s => setCore s x fun u => { u with tvec := x.a })
   ∧ Gives .setsSvec (fun x s => sup x s ∧ vectorOk x.a = true) (wrote fun x s => setCore s x fun u => { u with svec := x.a })
   ∧ Gives .setsSlice (fun x s => sup x s ∧ field x.a 63 21 = 0)
      (wrote fun x s => setCore s x fun u => { u with slice := x.a.toNat })
   ∧ (∀ (s : State) (x : In) (g : Tile → Tile),
      (((s.modTile x.t g).tile x.t).pairing = none → setCore s x g = s.modTile x.t g)
      ∧ ∀ p, ((s.modTile x.t g).tile x.t).pairing = some p → x.w = .img p.img → setCore s x g = (s.modTile x.t g).modTile p.mate g)
   ∧ Gives .setsCtxbase (fun x s => sup x s ∧ field x.a 63 21 = 0 ∧ field x.a 9 0 = 0 ∧ x.a.toNat + 24576 ≤ 2 ^ 21
        ∧ (s.tile x.t).touches (fun _ => true) x.a.toNat 24576 = false
        ∧ ((List.range 8).all fun i => ((s.tile x.t).ctx i).st == .free) = true)
      (wrote fun x s => s.modTile x.t fun u => { u with ctxbase := x.a.toNat / 1024 })
   ∧ ∀ h : Handler,
     let inHandler (x : In) (s : State) : Prop := x.w = .hnd ∧ (s.tile x.t).hnd = some h
     let frame (g : In → Handler → Handler) : In → State → State × After :=
       wrote fun x s => s.modTile x.t fun u => { u with hnd := u.hnd.map (g x) }
     let ctx (g : In → Task → Task) : In → State → State × After :=
       wrote fun x s => s.modTile x.t fun u => u.modTask h.of_ (g x)
     Gives .setsEstat inHandler (frame fun x k =>
        { k with estat := if h.task.sup then x.a else setField x.a 47 44 (field h.estat 47 44) })
     ∧ Gives .sets (fun x s => inHandler x s ∧ x.f.imm = 0x002) (frame fun x k => { k with epc := x.a })
     ∧ Gives .sets (fun x s => inHandler x s ∧ x.f.imm = 0x006) (frame fun x k => { k with hepc := x.a })
     ∧ Gives .sets (fun x s => inHandler x s ∧ x.f.imm = 0x140) (ctx fun x k => { k with p := x.a.setWidth 7 })
     ∧ Gives .sets (fun x s => inHandler x s ∧ x.f.imm = 0x141) (ctx fun x k => { k with it := x.a.setWidth 32 })
     ∧ Gives .sets (fun x s => inHandler x s ∧ x.f.imm = 0x142) (ctx fun x k => { k with ret := x.a })
     ∧ Gives .sets (fun x s => inHandler x s ∧ x.f.imm = 0x143 ∧ (s.tile x.t).flagsOpen h.of_ = false) (ctx fun x k => { k with sticky := x.a &&& 0xFF })
     ∧ Gives .sets (fun x s => inHandler x s ∧ (∃ i, h.of_ = .img i) ∧ 0x100 ≤ x.f.imm.toNat ∧ x.f.imm.toNat ≤ 0x13F)
        (ctx fun x k => k.setG (x.f.imm.toNat - 0x100) x.a)))

/-! ### Pairs, digests, eviction, configuration of husks -/

/-- PAIR answers 2 where the core is paired, 1 where its neighbour is not idle, and else 0, the neighbour taking a copy of the task and
following with that copy in its own first image (spec/19 R358, R365; that it takes it as the PAIR issues is log 25); UNPAIR of the paired
task ends the pair (R366). DIGEST of a task that owes nothing, over lines that can be read, gives the sum of the digests of the husk's
marked lines, each taken with its address; `.clr` clears the husk's marks (spec/19 R356, R357, R364). The interval of a pair closes once
its stream stands at its end with every result written: where the two fingerprints agree the remote buffer goes out, the log is cleared
and the neighbour's copy is the context as it stands; where they do not, which an error of either core brings about and is left to a
choice (log 25), the logged words are restored as stores (log 111) and the stream resumes from its checkpoint, and a second time in a row
PAIRFAIL is taken there and the pair ends (spec/19 R358 to R360). -/
def Obligations.PairsAndDigestsCompleteAndIntervalsClose : Prop :=
  (((∀ (i n : Nat) (h : Husk),
     let may (x : In) (s : State) : Prop := x.w = .img i ∧ s.huskOfTile x.t = some (n, h) ∧ ((s.tile x.t).task x.w).fwd = false
       ∧ ((s.tile x.t).ctx i).boost.active = false ∧ (tileX x.t - h.col0) % 2 = 0 ∧ tileX x.t - h.col0 + 1 < h.width
     let answer (x : In) (s : State) (v : Word) : State := (addOut s x { tag := 0, who := x.w, kind := .other, dst := .word x.f.dest.toNat }).send
       (mkPacket x.t x.t x.seq none (.reply (.data [v] 0)))
     let busy (v : Tile) : Bool := v.pairing.isSome || v.follows.isSome || !v.ready.isEmpty || (List.range 8).any fun j => (v.ctx j).st != .free
     Gives .pair (fun x s => may x s ∧ (s.tile x.t).pairing.isSome = true) (fun x s => (answer x s 2, .next))
     ∧ Gives .pair (fun x s => may x s ∧ (s.tile x.t).pairing = none ∧ busy (s.tile (x.t + 1)) = true) (fun x s => (answer x s 1, .next))
     ∧ ∀ (s : State) (w : Who) (m : Form) (f : Fields) (s1 : State) (x : In), Issues s w (.pair f) m f s1 x → may x s1 →
         (s1.tile x.t).pairing = none → busy (s1.tile (x.t + 1)) = false →
         ∃ t, exec (.pair f) s = .next t
           ∧ (∃ p, (t.tile x.t).pairing = some p ∧ p.mate = x.t + 1 ∧ p.img = i ∧ p.k = f.imm.toNat ∧ p.count = 0 ∧ p.log = [] ∧ p.buf = [])
           ∧ (t.tile (x.t + 1)).follows = some x.t
           ∧ (let k := ((t.tile (x.t + 1)).ctx 0).task
             let a := (s1.tile x.t).task x.w
             k.pc = nextPc x.pc ∧ k.g = a.g ∧ k.w = a.w ∧ k.p = a.p ∧ k.it = a.it ∧ k.ret = a.ret ∧ k.sticky = a.sticky ∧ k.gid = a.gid
               ∧ k.lid = a.lid)
           ∧ (∃ q ∈ t.net, q.tag = x.seq ∧ q.dst = x.t ∧ q.body = .reply (.data [0] 0)))
   ∧ Gives .unpair (fun x s => (s.tile x.t).pairing.any (fun p => x.w = .img p.img) = true)
       (fun x s => (emit (endPair s x.t) x 1 [] 0, .next))
   ∧ Gives .unpair (fun x s => (s.tile x.t).pairing.any (fun p => x.w = .img p.img) = false) (fun x s => (emit s x 1 [] 0, .next)))
   ∧ (∀ (n : Nat) (h : Husk),
     let may (x : In) (s : State) : Prop := (s.tile x.t).owes x.w true true = false ∧ s.huskOfTile x.t = some (n, h)
     let sum (s : State) : State × Word := (markedLines s h).foldl (fun (r : State × Word) e =>
       let y := readWords (r.1.correct e.1 e.2 8) e.1 e.2 8
       (y.1, r.2 + lineDigest (BitVec.ofNat 64 ((tileY e.1 - h.row0) * 2 ^ 27 + (tileX e.1 - h.col0) * 2 ^ 21 + e.2)) (wordsBytes y.2))) (s, 0)
     Gives .digest (fun x s => may x s ∧ ∀ e ∈ markedLines s h, s.consumesBad e.1 e.2 64 = false)
       (fun x s => ((addOut (sum s).1 x { tag := 0, who := x.w, kind := .other, dst := .word x.f.dest.toNat }).send
         (mkPacket x.t x.t x.seq none (.reply (.data [(sum s).2] 0))), .next))
     ∧ Gives .digestClr may (fun x s =>
         (emit { s with marked := s.marked.filter fun e => !(h.tiles.contains (e.1 / 2 ^ 15)) } x 1 [] 0, .next))))
  ∧ ((∀ (s : State) (p : Pairing), (s.tile s.cur).canClose = true →
         let s1 := s.modTile s.cur Tile.flush
         let s2 := (mateFingerprint s1 p).1
         let m := (mateFingerprint s1 p).2
         (s1.tile s.cur).pairing = some p →
         (s1.choose.1 % 2 = 0 → m = p.mateFp)
         ∧ (p.fp = m → exec .pairIntervalClose s = .next (agreePair s2 s.cur))
         ∧ (p.fp ≠ m →
           (p.rerun = false → exec .pairIntervalClose s = .next (rollBack s2 s.cur p))
           ∧ (p.rerun = true → exec .pairIntervalClose s =
             .next (takeTrap (endPair (rollBack s2 s.cur p) s.cur) s.cur .pairfail p.check.pc 0 false false false false))))
     ∧ (∀ (s : State) (t : Nat) (p : Pairing), (s.tile t).pairing = some p → p.mate ≠ t →
         ∃ q, ((agreePair s t).tile t).pairing = some q ∧ q.count = 0 ∧ q.fp = 0 ∧ q.mateFp = 0 ∧ q.log = [] ∧ q.buf = [] ∧ q.rerun = false ∧ q.closing = false
           ∧ (agreePair s t).mem = s.mem ∧ (agreePair s t).net = s.net
           ∧ ((s.tile t).active.isSome = true → ((agreePair s t).tile p.mate).ctx 0 = (s.tile t).ctx p.img) ∧ ∀ e ∈ (agreePair s t).egress, e.src = t → e.held = false)
     ∧ ∀ (s : State) (t : Nat) (p : Pairing),
         let back := p.log.reverse.foldl (fun s e => s.putSlice t e.1 (bytesOf e.2.toNat 8)) s
         (rollBack s t p).mem = back.mem ∧ (rollBack s t p).marked = back.marked
         ∧ ∀ i, p.at_ = .img i → (((rollBack s t p).tile t).task (.img i)).pc = p.check.pc
           ∧ (((rollBack s t p).tile t).task (.img i)).g = p.check.g)

/-- EVICT of a running husk other than the issuer's, with a record that its pages can hold, begins to stop the husk; `.restore` of an
evicted one that fits and whose record has the digest begins to restore it; each answers 1 to 5 where it fails, in that order (the model's
reading of R350, log 68), 3 for the record addresses of log 104 (spec/18 R343, R344, R350). An eviction: STOPPING ends when every core of
the husk stands still, DRAINING when nothing is outstanding, and then what the husk's own tasks have parked is dropped and every
generation rises; SAVING ends with the record's pages written, the tiles reset and the husk evicted, the digest of what was written kept and
the evictor answered. A restore puts what was saved of each tile at its new place, updates the records of the husk's launches, and the husk
runs (spec/18 R342 to R344, R350). What a record's bytes are, and what of a tile comes back, is the model's choice (logs 8, 67). -/
def Obligations.EvictionsBeginAndRunToTheirEnd : Prop :=
  (∀ (me : Nat),
     let answer (x : In) (s : State) (r : Nat) : State × After :=
       ((addOut s x { tag := 0, who := x.w, kind := .other, dst := .word x.f.dest.toNat }).send
         (mkPacket x.t x.t x.seq none (.reply (.data [evictWord 0 r] 0))), .next)
     let begins (h : Husk) (st : HuskState) (ks : List Nat) (s' : State) (x : In) : State × After :=
       ((addOut s' x { tag := 0, who := x.w, kind := .other, dst := .word x.f.dest.toNat, slow := true }).setHusk x.a.toNat
         (some { h with st := st, job := some { agent := x.t, tag := x.seq, keys := ks } }), .next)
     let asks (h : Husk) (x : In) (s : State) : Prop := field x.a 63 8 = 0 ∧ s.husk x.a.toNat = some h ∧ s.tenantOf x.t = some me
     let none_ (x : In) (s : State) : Prop := field x.a 63 8 = 0 ∧ s.husk x.a.toNat = none
     let fails (h : Husk) (s : State) (n : Nat) : Bool := leavesMesh h.col0 h.row0 h.width h.height || overlaps s n h || hasFenced s h
     Gives .evict none_ (fun x s => answer x s 1) ∧ Gives .evictRestore none_ (fun x s => answer x s 1)
     ∧ ∀ (h : Husk),
       Gives .evict (fun x s => asks h x s ∧ (me = x.a.toNat ∨ h.st ≠ .running)) (fun x s => answer x s 2)
       ∧ Gives .evictRestore (fun x s => asks h x s ∧ (me = x.a.toNat ∨ h.st ≠ .evicted)) (fun x s => answer x s 2)
       ∧ ∀ (s2 : State),
         Gives .evict (fun x s => asks h x s ∧ me ≠ x.a.toNat ∧ h.st = .running ∧ recordKeys s me x.b h.recordLen true = (s2, none))
           (fun x _ => answer x s2 3)
         ∧ Gives .evictRestore (fun x s => asks h x s ∧ me ≠ x.a.toNat ∧ h.st = .evicted
             ∧ recordKeys s me x.b h.recordLen false = (s2, none)) (fun x _ => answer x s2 3)
         ∧ ∀ ks : List Nat,
           Gives .evict (fun x s => asks h x s ∧ me ≠ x.a.toNat ∧ h.st = .running ∧ recordKeys s me x.b h.recordLen true = (s2, some ks))
             (fun x _ => begins h .stopping ks s2 x)
           ∧ (let found (x : In) (s : State) : Prop := asks h x s ∧ me ≠ x.a.toNat ∧ h.st = .evicted
                ∧ recordKeys s me x.b h.recordLen false = (s2, some ks)
              let good : Prop := (ks.any fun k => s2.farBad k 4096) = false
              Gives .evictRestore (fun x s => found x s ∧ fails h s2 x.a.toNat = true) (fun x _ => answer x s2 4)
              ∧ Gives .evictRestore (fun x s => found x s ∧ fails h s2 x.a.toNat = false ∧ good ∧ h.digest ≠ some (sm3 (recordBytes s2 ks)))
                 (fun x _ => answer x s2 5)
              ∧ Gives .evictRestore (fun x s => found x s ∧ fails h s2 x.a.toNat = false ∧ good ∧ h.digest = some (sm3 (recordBytes s2 ks)))
                 (fun x _ => begins h .restoring ks s2 x)))
  ∧ ((∀ (s : State) (h : Husk), s.husk s.sel = some h →
       (h.st = .stopping → (h.tiles.all fun t => (s.tile t).atStop) = true →
         exec .evictStopped s = .next ((h.tiles.foldl (fun s t => s.modTile t Tile.flush) s).setHusk s.sel (some { h with st := .draining })))
       ∧ (h.st = .draining → huskDrained s s.sel h = true → ∃ t, exec .evictDrained s = .next t
         ∧ t.husk s.sel = some { h with st := .saving } ∧ t.mem = s.mem
         ∧ (∀ m ∈ h.tiles, ∀ y ∈ (t.tile m).waiters, y ∈ (s.tile m).waiters ∧ ∃ c k n, y.asker = .remote c k n)
         ∧ (h.tiles.Nodup → ∀ m ∈ h.tiles, ∀ i, i < 8 →
           Sparse.get 0 (t.tile m).gens i = (Sparse.get 0 (s.tile m).gens i + 1) % 2 ^ 32))
       ∧ (∀ j, h.st = .saving → h.job = some j →
         let wrote := writeRecord s j.keys
         ∃ t, exec .evictSaved s = .next t
         ∧ t.husk s.sel = some { h with st := .evicted, digest := some (sm3 (recordBytes wrote j.keys)), job := none }
         ∧ (∃ x, t.saved = s.saved ++ [x] ∧ x.tenant = s.sel ∧ x.tiles = h.tiles.map (saveTile s))
         ∧ (∀ k, (∀ m ∈ h.tiles, (k < sliceKey m 0 ∨ sliceKey (m + 1) 0 ≤ k) ∧ (k < istoreKey m 0 ∨ istoreKey m 0 + 65536 ≤ k)) →
           getByte t k = getByte wrote k)
         ∧ (∀ m ∈ h.tiles, m < numTiles → (∀ o, o < 2 ^ 21 → getByte t (sliceKey m o) = 0)
           ∧ (t.tile m).images = [] ∧ (t.tile m).ready = [] ∧ (t.tile m).cur0 = none ∧ (t.tile m).waiters = [])
         ∧ (∃ q ∈ t.net, q.dst = j.agent ∧ q.tag = j.tag ∧ q.body = .reply (.data [evictWord (h.width * h.height) 0] 0))
         ∧ ∀ c ∈ t.cohorts, c.tenant ≠ s.sel))
     ∧ ∀ (s : State) (h : Husk) (x : Saved) (j : EvictJob), s.husk s.sel = some h → s.saved.find? (fun x => x.tenant = s.sel) = some x →
         h.job = some j → h.st = .restoring → ∃ t g, exec .restoreComplete s = .next t ∧ t.husk s.sel = some g ∧ g.st = .running
           ∧ g.col0 = h.col0 ∧ g.row0 = h.row0 ∧ g.job = none
           ∧ (let at_ := (x.tiles.map (·.old)).zip h.tiles
             ∃ s2 : State, s2.mem = (x.tiles.foldl (fun s y => restoreTile s at_ y) (restoreTables s s.sel x)).mem
               ∧ t.mem = (refreshAll s2 s.sel).mem)
           ∧ (∃ q ∈ t.net, q.dst = j.agent ∧ q.tag = j.tag ∧ q.body = .reply (.data [evictWord (h.width * h.height) 0] 0))
           ∧ ∀ y ∈ t.saved, y.tenant ≠ s.sel)
  ∧ ∀ (s s1 : State) (at_ : List (Nat × Nat)) (m : Nat), s.memOk = true → m < numTiles → moved at_ m < numTiles →
      (∀ o, o < 2 ^ 21 → getByte (restoreTile s1 at_ (saveTile s m)) (sliceKey (moved at_ m) o) = getByte s (sliceKey m o))
      ∧ (restoreTile s1 at_ (saveTile s m)).tile (moved at_ m) = (s.tile m).move at_ (s1.tile (moved at_ m))

/-- HUSKCFG of a task that owes nothing, in every state of the husk that it names: `.def` defines an undefined or killed husk with a tile
reset, moves an evicted one, and answers 3, 4 or 5 where the place or the state forbids it, 5 also for a husk on its way between states
(the model's reading, log 26); `.kill` kills another husk, and may fence a tile of it after MCHK (the model's choice, log 78), `.flush`
drops its translations, `.undef` undefines a killed one and removes its groups, host windows, peer windows and memory-core contexts,
`.tab` writes the table entry of its record or answers 6 (spec/20 R378, R379). Each takes effect as it issues (the model's reading, log
69). A shape word with high bits set gets a RESULT that the spec does not state (log 26). -/
def Obligations.HuskConfigurationGivesItsResult : Prop :=
  (let answer (x : In) (s : State) (r : Nat) : State × After :=
     ((addOut s x { tag := 0, who := x.w, kind := .other, dst := .word x.f.dest.toNat }).send
       (mkPacket x.t x.t x.seq none (.reply (.data [BitVec.ofNat 64 r] 0))), .next)
   let starts (g : Option Husk) (x : In) (s : State) : Prop :=
     field x.a 63 8 = 0 ∧ (s.tile x.t).owes x.w true true = false ∧ s.husk x.a.toNat = g
   let bad (x : In) (s : State) : Nat := let h := shapeHusk x.b
     if leavesMesh h.col0 h.row0 h.width h.height || overlaps s x.a.toNat h then 3 else if hasFenced s h then 4 else 0
   let plain (x : In) : Prop := field x.b 63 24 = 0
   Gives .huskcfgDef (fun x s => starts none x s ∧ plain x ∧ bad x s ≠ 0) (fun x s => answer x s (bad x s))
   ∧ Gives .huskcfgDef (fun x s => starts none x s ∧ plain x ∧ bad x s = 0)
      (fun x s => answer x ((resetHusk s (shapeHusk x.b)).setHusk x.a.toNat (some (shapeHusk x.b))) 0)
   ∧ Gives .huskcfgKill (starts none) (fun x s => answer x s 1) ∧ Gives .huskcfgFlush (starts none) (fun x s => answer x s 1)
   ∧ Gives .huskcfgUndef (starts none) (fun x s => answer x s 1)
   ∧ (∀ g : Husk,
      let is (x : In) (s : State) : Prop := starts (some g) x s
      Gives .huskcfgDef (fun x s => is x s ∧ g.st ∈ [.running, .stopping, .draining, .saving, .restoring]) (fun x s => answer x s 5)
      ∧ Gives .huskcfgDef (fun x s => is x s ∧ g.st = .killed ∧ plain x ∧ bad x s ≠ 0) (fun x s => answer x s (bad x s))
      ∧ Gives .huskcfgDef (fun x s => is x s ∧ g.st = .killed ∧ plain x ∧ bad x s = 0)
        (fun x s => answer x ((resetHusk s (shapeHusk x.b)).setHusk x.a.toNat
          (some { shapeHusk x.b with serial := g.serial, kept := g.kept })) 0)
      ∧ (let same (x : In) : Prop := plain x ∧ (shapeHusk x.b).width = g.width ∧ (shapeHusk x.b).height = g.height
         Gives .huskcfgDef (fun x s => is x s ∧ g.st = .evicted ∧ same x ∧ bad x s ≠ 0) (fun x s => answer x s (bad x s))
         ∧ Gives .huskcfgDef (fun x s => is x s ∧ g.st = .evicted ∧ same x ∧ bad x s = 0)
          (fun x s => answer x (s.setHusk x.a.toNat (some { g with col0 := (shapeHusk x.b).col0, row0 := (shapeHusk x.b).row0 })) 0))
      ∧ Gives .huskcfgKill (fun x s => is x s ∧ s.tenantOf x.t = some x.a.toNat) (fun x s => answer x s 5)
      ∧ Gives .huskcfgKill (fun x s => is x s ∧ s.tenantOf x.t ≠ some x.a.toNat) (fun x s => answer x (killHusk (fenceChoice s g) x.a.toNat) 0)
      ∧ Gives .huskcfgFlush is (fun x s => answer x (dropTlb s none x.a.toNat) 0)
      ∧ Gives .huskcfgUndef (fun x s => is x s ∧ (s.tenantOf x.t = some x.a.toNat ∨ g.st ≠ .killed)) (fun x s => answer x s 5)
      ∧ (∀ (s : State) (w : Who) (m : Form) (f : Fields) (s1 : State) (x : In), Issues s w (.huskcfgUndef f) m f s1 x → is x s1 →
          s1.tenantOf x.t ≠ some x.a.toNat → g.st = .killed →
          ∃ t, exec (.huskcfgUndef f) s = .next t ∧ t.husk x.a.toNat = none
            ∧ (∃ q ∈ t.net, q.tag = x.seq ∧ q.dst = x.t ∧ q.body = .reply (.data [0] 0))
            ∧ (∀ k, t.groupEntry x.a.toNat k = none) ∧ (∀ k < 16, Sparse.get none t.hostWins (winKey x.a.toNat k) = none)
            ∧ (∀ k p, Sparse.get none t.peers k = some p → p.husk ≠ x.a.toNat) ∧ ∀ c m, t.mc c = some m → m.tenant ≠ x.a.toNat)
      ∧ ∀ (s2 s3 : State) (ws : List Word),
        let reads (x : In) (s : State) : Prop := is x s ∧ (ownOff s x.t x.b 0).isSome = true ∧ field x.b 20 0 % 64 = 0
          ∧ s.consumesBad x.t (field x.b 20 0) 64 = false
          ∧ readWords (s.correct x.t (field x.b 20 0) 8) x.t (field x.b 20 0) 8 = (s2, ws)
        let w (i : Nat) : Word := ws.getD i 0
        let made (x : In) : Option State := tabWrite (tabCorrected s2 x.t w) x.t x.a.toNat g w
        Gives .huskcfgTab (fun x s => reads x s ∧ made x = some s3
            ∧ (tabReads s2 x.t w).any (fun e => s2.consumesBad x.t e.1 e.2) = false) (fun x _ => answer x s3 0)
        ∧ Gives .huskcfgTab (fun x s => reads x s ∧ made x = none) (fun x _ => answer x s2 6)))

/-! ### Matrix instructions -/

/-- A matrix instruction of a task that the array admits, with its own conditions met and room in the queue, enters the queue with its
operands as they are and raises its counter, once the task's earlier requests to the bytes that it reads or writes have arrived (spec/04
R50); it is gang-issued where it is the next one of its level-0 stream after an MGANG of it; a task that finds the array free becomes its
owner as the instruction issues (the model's reading, log 95), MRESTORE also one whose contents were lost, from another owner too (log
66). MSTAT is not subject to admission (spec/14 R247 to R249, R254, R258 to R267). -/
def Obligations.MatrixInstructionsEnterTheQueue : Prop :=
  (let entry (i : Fields → Instr) (x : In) (v : Tile) : MQ :=
     { i := i x.f, a := x.a, b := x.b, pc := x.pc, who := x.w, lower := x.f.setc.toNat, gang := v.matrix.gangDue x.w, tag := x.seq
       px := (v.task x.w).px }
   let enters (i : Fields → Instr) (x : In) (s : State) (u : Tile) : State × After :=
     let v := (s.setTile x.t u).tile x.t
     ((s.setTile x.t u).setTile x.t { v.modTask x.w (·.raise x.f.setc.toNat) with
       matrix := { v.matrix with
         queue := v.matrix.queue ++ [entry i x v]
         gangNext := match x.w with
           | .img j => v.matrix.gangNext &&& ~~~(1#8 <<< j)
           | _ => v.matrix.gangNext
         after := match x.w with
           | .img j => if v.matrix.toTake.any fun e => e.1 = j then v.matrix.after ++ [(j, x.f.setc.toNat)] else v.matrix.after
           | _ => v.matrix.after } }, .next)
   let room (u : Tile) : Prop := u.matrix.queue.length < 8
   let alone (x : In) (s : State) : Prop := ((s.tile x.t).matrix.queue.any fun q => q.who = x.w) = false
   let own (i : Fields → Instr) (restore save : Bool) (more : In → State → Prop) : Prop := ∀ u : Tile,
     Gives i (fun x s => takeIn (s.tile x.t) x.w restore save = .ok u ∧ more x s ∧ room ((s.setTile x.t u).tile x.t)
         ∧ queueOrder (s.setTile x.t u) x.t (entry i x ((s.setTile x.t u).tile x.t)) = .ok ())
       (fun x s => enters i x s u)
   let free : In → State → Prop := fun _ _ => True
   own .mcfg false false (fun x _ => field x.a 3 2 = 0 ∧ field x.a 63 8 = 0)
   ∧ own .mloadb false false (fun x s => rowChecks (loadbRows x.f) 128 x s = .ok ())
   ∧ own .mrbuf false false (fun x s => rowChecks (rbufRows x.f) (rowBytes x.f.ty) x s = .ok ())
   ∧ own .mrbufBc false false (fun x s => rowChecks (rbufRows x.f) (rowBytes x.f.ty) x s = .ok ())
   ∧ own .mloadz false false free ∧ own .mmul false false free ∧ own .mzeroAcc false false free ∧ own .mzeroZp false false free
   ∧ own .mdrain false false free ∧ own .mchkcfg false false free
   ∧ own .mdrainp false false (fun x s => x.f.dest.toNat < ((s.tile x.t).task x.w).gangWidth
      ∧ (x.f.dest.toNat ≠ ((s.tile x.t).task x.w).gangMember ∨ x.f.minor.toNat / 2 % 2 ≠ x.f.a.toNat))
   ∧ own .mgang false false (fun x s => alone x s ∧ (s.tile x.t).owes x.w true false = false)
   ∧ own .msave false true (fun x s => imageChecks true x s = .ok ()) ∧ own .msaveFree false true (fun x s => imageChecks true x s = .ok ())
   ∧ own .mrestore true false (fun x s => imageChecks false x s = .ok ())
   ∧ (∀ u : Tile,
      Gives .mstat (fun x s => s.tile x.t = u ∧ alone x s ∧ room u) (fun x s => enters .mstat x s u)
      ∧ Gives .mstatClr (fun x s => s.tile x.t = u ∧ alone x s ∧ room u) (fun x s => enters .mstatClr x s u)))
  ∧ (∀ (m : Matrix) (i : Nat), (m.gangDue (.img i) = true ↔ m.gangNext.getLsbD i = true
        ∨ ∃ q, (m.queue.filter fun q => q.who = .img i).getLast? = some q ∧ q.isGang = true)
      ∧ m.gangDue .lvl1 = false ∧ m.gangDue .hnd = false)
  ∧ ∀ (u : Tile) (i : Nat), u.matrix.lost.getLsbD i = false → u.matrix.frozen = false →
      (u.matrix.owner = none → takeIn u (.img i) false false = .ok { u with matrix := { u.matrix with owner := some i } })
      ∧ (u.matrix.owner = some i → takeIn u (.img i) false false = .ok u)
      ∧ ∀ j, u.matrix.owner = some j → j ≠ i → takeIn u (.img i) false false = .error (.trap .mbusy 0 none false)

/-! ### Events at a home -/

/-- An access that arrives at its home is performed in one step, in its task's mode and with its boost: one of this package with its
answer going back, a full table refusing it, a waiting access parking; an access of another package in a husk that runs; it is answered
WINDOW in a killed one (spec/02 R13), and for a word in error that it would consume (spec/20 R361, spec/06 R103), and refused while the husk
is on its way between states or evicted (spec/18 R343). The event is the one of the access: REMOTE_ACCESS_ARRIVAL for loads and stores,
ATOMIC_AT_HOME, FE_ACCESS_AT_HOME, STAMPED_STORE_AT_HOME, LDA_AT_HOME, AGEQ_AT_HOME (spec/02 R13, spec/04 R59, spec/06 R102,
R117, R122, spec/05 R75, R76, R92). -/
def Obligations.AccessesArePerformedAtTheirHome : Prop :=
  (∀ (s : State) (p : Packet) (off : Nat) (op : MemOp) (user boost : Bool),
    p.id = s.sel → arrived s s.sel = some p → p.body = .access off op user boost →
    let go := exec (accessEvent p op) s
    (p.remote = none →
      let r := performAt (s.drop s.sel) p.dst off op (.core p.src p.tag 0) user boost (some (s.cidOf p.src))
      (r.2 = .full → go = .next (s.refuse s.sel 0))
      ∧ (r.2 = .fault .eccu → go = .next r.1)
      ∧ (r.2 = .parked → go = .next (replyTo r.1 p .parked))
      ∧ (r.2 ≠ .full → r.2 ≠ .fault .eccu → r.2 ≠ .parked → go = .next (answered r.1 p off (opModifies op) r.2)))
    ∧ ∀ chip core tag, p.remote = some (chip, core, tag) →
      (outsideState s p = .killed → go = .next (answered (s.drop s.sel) p off (opModifies op) (.fault .window)))
      ∧ (outsideState s p ≠ .running → outsideState s p ≠ .killed → go = .next (s.refuse s.sel 0))
      ∧ (outsideState s p = .running →
        let r := performAt (s.drop s.sel) p.dst off op (.remote chip core tag) user boost none
        (r.2 = .full → go = .next (s.refuse s.sel 0))
        ∧ (r.2 = .fault .eccu → go = .next (answered r.1 p off (opModifies op) (.fault .window)))
        ∧ (r.2 = .parked → go = .next r.1)
        ∧ (r.2 ≠ .full → r.2 ≠ .fault .eccu → r.2 ≠ .parked → go = .next (answered r.1 p off (opModifies op) r.2))))
  ∧ ∀ (p : Packet) (n scope : Nat) (v c : Word) (ws : List Word) (op : AmoOp) (line : Line) (age : BitVec 32) (k : LdaVariant),
    accessEvent p (.load n) = .remoteAccessArrival (.pkt p.id) ∧ accessEvent p (.loadBlock n) = .remoteAccessArrival (.pkt p.id)
    ∧ accessEvent p (.store n v) = .remoteAccessArrival (.pkt p.id) ∧ accessEvent p (.storeBlock ws) = .remoteAccessArrival (.pkt p.id)
    ∧ accessEvent p (.engine ws) = .remoteAccessArrival (.pkt p.id) ∧ accessEvent p (.amo op n v c) = .atomicAtHome
    ∧ accessEvent p (.ldf n) = .feAccessAtHome ∧ accessEvent p (.ldfe n) = .feAccessAtHome ∧ accessEvent p (.stf n v) = .feAccessAtHome
    ∧ accessEvent p (.stef n v) = .feAccessAtHome ∧ accessEvent p .setf = .feAccessAtHome ∧ accessEvent p .sete = .feAccessAtHome
    ∧ accessEvent p (.sta line age) = .stampedStoreAtHome ∧ accessEvent p (.lda k age scope) = .ldaAtHome
    ∧ accessEvent p .ageq = .ageqAtHome

/-- What else arrives at a home. A line of code replaces the whole line of its store, and is fetched from then on (spec/02 R14, spec/03
R41); a row of the commutativity table is written (spec/17 R328); a far store to a page that the tenant which sent it may write is
performed and answered, FARPAGE otherwise (spec/06 R120, spec/07 R129, spec/02 R24); a multicast delivery is a plain store with its task's
mode and boost, its refusal by a context area being the model's WINDOW (spec/02 R18, R19, log 15), and a strong one is performed at all
its members in one step (spec/04 R56); an STAM's delivery is tested against the BOOST range first (spec/03 R35), applied where the line is
stamped with MIR and the age is not less, discarded where it is less (spec/05 R85; that BOOST is tested before MIR is the model's choice,
log 39); a stop notice sets STOP in the lines of its writer, or in the mirror lines of its window (spec/05 R80). -/
def Obligations.DeliveriesAreAppliedAtTheirHome : Prop :=
  (∀ (s : State) (p : Packet) (off : Nat) (line : Line), arrived s s.sel = some p → p.body = .code off line →
      exec (.remoteAccessArrival (.pkt s.sel)) s = .next (arriveCode (s.drop s.sel) p off line)
      ∧ (p.dst < numTiles → off < 65536 → istoreLine (arriveCode (s.drop s.sel) p off line) p.dst (off / 64) = line))
  ∧ (∀ (s : State) (p : Packet) (row : Nat) (lo hi : Word), arrived s s.sel = some p → p.body = .commut row lo hi →
      exec (.remoteAccessArrival (.pkt s.sel)) s = .next (replyTo ((s.drop s.sel).modTile p.dst fun u => u.setRow row lo hi) p .done)
      ∧ ∀ (u : Tile) (k : Nat), k < 64 → Sparse.get 3 (u.setRow row lo hi).commut (row * 64 + k) =
          if k < 32 then field lo (2 * k + 1) (2 * k) else field hi (2 * (k - 32) + 1) (2 * (k - 32)))
  ∧ (∀ (s : State) (p : Packet) (va : Word) (op : MemOp) (n : Nat), arrived s s.sel = some p → p.body = .farStore n va op →
      let r := translate (s.drop s.sel) n (field va 47 0)
      let go := exec (.farStoreArrival (.pkt s.sel)) s
      (r.2 = none → go = .next (replyTo r.1 p (.fault .farpage)))
      ∧ ∀ l, r.2 = some l → (l.wr = false → go = .next (replyTo r.1 p (.fault .farpage)))
        ∧ (∀ m v, l.wr = true → op = .store m v → r.1.farPartBad (l.key + va.toNat % 4096) m = false →
            go = .next (replyTo (r.1.putFar (l.key + va.toNat % 4096) (bytesOf v.toNat m)) p .done))
        ∧ ∀ ws, l.wr = true → op = .storeBlock ws → go = .next (replyTo (r.1.putFar (l.key + va.toNat % 4096) (wordsBytes ws)) p .done))
  ∧ (∀ (s : State) (p : Packet) (off : Nat) (op : MemOp) (user boost : Bool), arrived s s.sel = some p →
      p.body = .multicast off op user boost false → p.remote = none →
      let r := performAt (s.drop s.sel) p.dst off op (.core p.src p.tag 0) user boost none
      r.2 ≠ .fault .eccu → exec .multicastDelivery s = .next (replyTo r.1 p (groupFault r.2)))
  ∧ (∀ (s : State) (p : Packet) (off : Nat) (op : MemOp) (user boost : Bool), arrived s s.sel = some p →
      p.body = .multicast off op user boost true → p.remote = none → (∀ q ∈ siblings s p, (arrived s q.id).isSome = true) →
      exec .multicastDelivery s = .next ((siblings s p).foldl (fun s q => deliverMember s q.id) s))
  ∧ (∀ (s : State) (q : Packet) (off : Nat) (op : MemOp) (user boost strong : Bool), s.packet q.id = some q →
      q.body = .multicast off op user boost strong → q.remote = none →
      let r := performAt (s.drop q.id) q.dst off op (.core q.src q.tag 0) user boost none
      r.2 ≠ .fault .eccu → deliverMember s q.id = replyTo r.1 q (groupFault r.2))
  ∧ (∀ (s : State) (p : Packet) (off : Nat) (line : Line) (age : BitVec 32) (boost : Bool), arrived s s.sel = some p →
      p.body = .mirror off line age boost → p.remote = none →
      let r := applyMirror (s.drop s.sel) p.dst off line age boost
      exec .mirrorDelivery s = .next (replyTo r.1 p r.2))
  ∧ (∀ (s : State) (t off : Nat) (line : Line) (age : BitVec 32) (boost : Bool),
      let r := applyMirror s t off line age boost
      (s.sideOf t off = none → r = (s, .fault .stawr))
      ∧ ∀ e, s.sideOf t off = some e →
        ((s.tile t).touches (·.boost) off 64 = true → boost = false → r = (s, .fault .boostwr))
        ∧ (((s.tile t).touches (·.boost) off 64 && !boost) = false → e.mir = false → r = (s, .fault .stawr))
        ∧ (e.mir = true → ((s.tile t).touches (·.boost) off 64 && !boost) = false →
          (ageAtLeast age e.age = true → r =
            (((s.putSlice t off (bytesOf line.toNat 64)).setSide t off (some { e with age := age, stop := false })).retestAt t off
              (off + 64), .done))
          ∧ (ageAtLeast age e.age = false → r = (s, .done))))
  ∧ (∀ (s : State) (p : Packet) (x y : Nat) (g : Option Nat), arrived s s.sel = some p → p.body = .stop x y g → p.remote = none →
      exec .stopNoticeArrival s = .next (replyTo (match g with
        | none => stopLines (s.drop s.sel) p.dst fun _ e => e.writer = y * 64 + x
        | some base => stopLines (s.drop s.sel) p.dst fun off e => e.mir && off / 65536 = base) p .done))
  ∧ ∀ (s : State) (t k : Nat) (pick : Nat → Side → Bool) (e : Side), (s.tile t).waiters = [] → k / 2 ^ 15 = t →
      Sparse.get none s.side k = some e →
      Sparse.get none (stopLines s t pick).side k = some (if pick (k % 2 ^ 15 * 64) e then { e with stop := true } else e)

/-- An ordered flag at its destination: once every count that it carries has been reached it is applied, and until then held, sixteen at
most, its core being told; a held flag is applied when they have been. It is applied as a plain store, but in a poisoned epoch discarded,
with the cause and the address of what poisoned it, and where its range or the context area turns it away, or the husk of another package's
flag has been killed, refused (spec/04 R68, R69, spec/26 R395, R396). One that is refused counts and poisons no epoch; it waits for its
counts first, but is refused at once where its sender waits for its status (the model's choice, log 62). What the same task sends later to a
word of a held flag does not arrive before the flag has been applied (spec/04 R50, R53). -/
def Obligations.OrderedFlagsWaitForTheirCounts : Prop :=
  (∀ (s : State) (p : Packet) (off n : Nat) (v : Word) (counts : List Nat) (user boost : Bool), arrived s s.sel = some p →
      p.body = .flag off n v counts user boost → p.remote = none →
      let bad := if user && (s.tile p.dst).inCtx off n then some Cause.priv else rangeFault s p.dst off (.store n v) boost none
      let go := exec .ofStoreArrival s
      (∀ c, awaitsStatus s p = true → bad = some c → go = .next (refuseFlag (s.drop s.sel) p c))
      ∧ ((awaitsStatus s p = false ∨ bad = none) → (countsReached s p counts = true → go = .next (applyFlag (s.drop s.sel) p))
        ∧ (countsReached s p counts = false →
          ((s.heldFlags.filter fun f => f.countDst = p.dst).length < 16 →
            go = .next (replyTo { s.drop s.sel with heldFlags := s.heldFlags ++ [p] } p .parked))
          ∧ (16 ≤ (s.heldFlags.filter fun f => f.countDst = p.dst).length → go = .next (s.refuse s.sel 0)))))
  ∧ (∀ (s : State) (p : Packet) (off n : Nat) (v : Word) (counts : List Nat) (user boost : Bool), arrived s s.sel = some p →
      p.body = .flag off n v counts user boost → p.remote.isSome = true →
      let go := exec .ofStoreArrival s
      let alive : Prop := outsideState s p = .running ∨ outsideState s p = .killed
      let full : Prop := 16 ≤ (s.heldFlags.filter fun f => f.countDst = p.countDst).length
      (¬ alive → go = .next (s.refuse s.sel 0))
      ∧ (alive → countsReached s p counts = true → go = .next (applyFlag (s.drop s.sel) p))
      ∧ (alive → countsReached s p counts = false → full → go = .next (s.refuse s.sel 0))
      ∧ (alive → countsReached s p counts = false → ¬ full →
        go = .next (flagUnit { s.drop s.sel with heldFlags := s.heldFlags ++ [p] } p true))
      ∧ ∀ s0 : State, outsideState s0 p = .killed → Sparse.get none s0.epochs (epochKey p.countSrc p.countDst p.epoch) = none →
        applyFlag s0 p = refuseFlag s0 p .window)
  ∧ (∀ (s : State) (k : Nat) (p f : Packet), s.packet k = some p → p.remote = none → f ∈ s.heldFlags → f.dst = p.dst → f.id < p.id → f.countSrc = p.countSrc →
      oneTask s p.src f p = true → (∃ off n, p.body.bytes = some (off, n) ∧ f.touches off n = true) → arrived s k = none)
  ∧ (∀ (s : State) (p : Packet) (off n : Nat) (v : Word) (counts : List Nat) (user boost : Bool),
      s.heldFlags.find? (fun f => f.id = s.sel) = some p → p.body = .flag off n v counts user boost → countsReached s p counts = true →
      exec .ofFlagApply s = .next (applyFlag (flagUnit { s with heldFlags := s.heldFlags.filter fun f => f.id != s.sel } p false) p)
      ∧ (p.remote = none → flagUnit s p false = s))
  ∧ (∀ (s : State) (p : Packet) (c : Cause), p.remote = none →
      let key := epochKey p.src p.dst p.epoch
      refuseFlag s p c = replyTo (countPacket { s with epochs := Sparse.set none s.epochs key none } p none) p (s.flagAnswer key (.fault c))
      ∧ (Sparse.get none s.epochs key = none → s.flagAnswer key (.fault c) = .fault c)
      ∧ ∀ d a, Sparse.get none s.epochs key = some (d, a) → s.flagAnswer key (.fault c) = .dropped d a)
  ∧ ∀ (s : State) (p : Packet) (off n : Nat) (v : Word) (counts : List Nat) (user boost : Bool), p.body = .flag off n v counts user boost →
      p.remote = none →
      let key := epochKey p.src p.dst p.epoch
      (∀ c a, Sparse.get none s.epochs key = some (c, a) →
        applyFlag s p = answered { s with epochs := Sparse.set none s.epochs key none } p off true (.dropped c a))
      ∧ (∀ c, Sparse.get none s.epochs key = none → flagFault s p.dst off n v user boost = some c → applyFlag s p = refuseFlag s p c)
      ∧ (Sparse.get none s.epochs key = none →
        (user && (s.tile p.dst).inCtx off n) = false → rangeFault s p.dst off (.store n v) boost none = none →
        consumesHere s p.dst off (.store n v) = false →
        ∃ s', applyFlag s p = answered s' p off true .done ∧ s'.mem = setBytesMem s.mem (sliceKey p.dst off) (bytesOf v.toNat n))

/-! ### Networks, links and the gateway -/

/-- A router may merge two mergeable atomics of one operation and type on one word: the first then carries both operands combined and
remembers its participants, and the second is gone; an answer to a merged request is split in arrival order, each participant getting the
value before its own operand (spec/04 R62, spec/06 R125, R126). A refused packet goes out again (spec/04 R59, spec/07 R133, R137). The
participants of one request number eight at most, in the model's choice of limit (log 43). Of a duplicate of a request that is under way
the gateway performs nothing, and one that its home has answered it answers from that home's log, the package's own duplicates never
reaching a home (the model's reading, log 41); a request of an access that no peer window allows, or that leaves the husk or names a
killed one, is refused with WINDOW and counted, but its flag waits at the package for its counts first (log 62); in a husk that does not run its NI retries it; else it goes to its tile as a request from
outside. A group delivery goes to every member that has not had it; one without a member is refused, which of a bound group whose record names no
member here is the model's choice (log 119, with log 115), and so it is for a member whose husk has been killed; a request past the end of a slice, or of a member window, leaves no core and is not taken (spec/02 R9, R13, R16, R17, R18,
R19, spec/04 R63, spec/18 R343, spec/20 R368).

A scrub corrects a word's single-bit error and poisons a word in error (spec/03 R39). When a link fails, what is unanswered towards the chips
that it served, and every unanswered group request, goes out again in its order, each marked as re-issued; which chips those are is the
event's (the model's choice, log 75, with spec/04 R64 and spec/20 R369). -/
def Obligations.RoutersAndGatewayHandleTheirPackets : Prop :=
  ((∀ (s : State) (p q : Packet) (off n : Nat) (op : AmoOp) (v v2 c : Word) (user boost : Bool),
       arrived s p.id = some p → arrived s q.id = some q → p.id ≠ q.id → p.dst = q.dst → p.body = .access off (.amo op n v c) user boost →
       q.body = .access off (.amo op n v2 c) user boost → p.mergeable = true → q.mergeable = true → p.mty = q.mty → p.remote = none → q.remote = none →
       op ≠ .swap → op ≠ .cas → p.noReturn s = q.noReturn s → (p.noReturn s = true ∨ op = .add) → (p.parts v ++ q.parts v2).length ≤ 8 →
       exec (.routerAtomicMerge p.id q.id) s = .next { s.drop q.id with
         net := modifyFirst (fun x => x.id = p.id) (fun x => { x with
           body := .access off (.amo op n (BitVec.ofNat 64 (amoNew op n v.toNat v2.toNat 0)) c) user boost
           merged := p.parts v ++ q.parts v2 }) (s.drop q.id).net })
   ∧ (∀ (s : State) (p : Packet) (v : Word) (ws : List Word) (age : BitVec 32), arrived s s.sel = some p →
       p.body = .reply (.data (v :: ws) age) → p.merged ≠ [] →
       exec .mergedReplySplit s = .next (splitReplies (s.drop s.sel) p.src (.data (v :: ws) age) p.merged v))
   ∧ (∀ (s : State) (src : Nat) (ws : List Word) (age : BitVec 32) (m : Merged) (ms : List Merged) (v : Word),
       splitReplies s src (.data ws age) (m :: ms) v =
         splitReplies (s.send (mkPacket src m.src m.tag none (.reply (.data [v] 0)))) src (.data ws age) ms (v + m.v))
   ∧ (∀ (s : State) (p : Packet), s.packet s.sel = some p → p.refused = true →
       let again (h : Packet → Packet) : State := { s with net := modifyFirst (fun x => x.id = s.sel) h s.net }
       ((∃ ch t, p.body = .aperture ch t) ∨ (∃ r, p.body = .farreq r) →
         exec .bteBackoffRetry s = .next (again fun x => { x with refused := false, hint := 0 }))
       ∧ ((∀ ch t, p.body ≠ .aperture ch t) → (∀ r, p.body ≠ .farreq r) →
         exec .niUnaidedRetry s = .next (again fun x => { x with refused := false })))
   ∧ (∀ (s : State) (k : Nat), k < numTiles * 2 ^ 18 → ∃ t, exec (.backgroundScrub k) s = .next t ∧ t.mem = s.mem ∧ t.tiles = s.tiles
       ∧ (∀ j, j ≠ k → Sparse.get .good t.ecc j = Sparse.get .good s.ecc j)
       ∧ Sparse.get .good t.ecc k = (match Sparse.get .good s.ecc k with
         | .good | .single => .good
         | .bad | .poisoned => .poisoned))
   ∧ ∀ (s : State) (port : Nat) (chips : List Nat), s.linksDown.contains port = false → port ≤ 35 →
       ∃ t, exec (.linkFailure port chips) s = .next t ∧ t.linksDown = s.linksDown ++ [port] ∧ t.mem = s.mem ∧ t.net = s.net
         ∧ ∃ l, t.egress = s.egress ++ l ∧ l.Sublist s.egress
           ∧ (∀ e, e ∈ l ↔ e ∈ s.egress ∧ (e.chip ∈ chips ∨ e.group.isSome = true) ∧ e.ans = none ∧ e.units = 0 ∧ e.held = false
             ∧ e.behind = false ∧ (if 5000 ≤ e.src ∧ e.src < 6000 then (s.chan (e.src - 5000)).unanswered e = true
               else ∃ o ∈ (s.tile e.src).out, o.tag = e.tag))
           ∧ ∀ m, (t.tile m).out = (s.tile m).out.map fun o =>
             if l.any fun e => e.src = m && e.tag = o.tag then { o with reissued := true } else o)
  ∧ (∀ (s : State) (g : GatewayReq),
       let who : Asker := .remote g.chip g.core g.tag
       let go := exec (.gatewayAccess g) s
       (gatewayFits g = false → go = .refused .notPending)
       ∧ (gatewayFits g = true → underway s g = true → go = .next s)
       ∧ (gatewayFits g = true → underway s g = false →
         (∀ x y off op, g.kind = .access x y off op → go = .next (gateOne s g x y off op (.access off op g.user g.boost)))
         ∧ (∀ x y off n v counts, g.kind = .flag x y off n v counts →
           go = .next (gateOne s g x y off (.store n v) (.flag off n v counts g.user g.boost)))
         ∧ (∀ group off op strong, g.kind = .multicast group off op strong → go = .next (gateGroup s g group
             (fun base => .multicast (base * 65536 + off) op g.user g.boost strong) (fun base => lineChan (base * 65536 + off))
             (lineSpan off (opLen op))))
         ∧ (∀ group off line age boost, g.kind = .mirror group off line age boost → go = .next (gateGroup s g group
             (fun base => .mirror (base * 65536 + off) line age boost) (fun _ => none) 0))
         ∧ ∀ group, g.kind = .stop group → go = .next (gateGroup s g group (fun base => .stop 0 0 (some base)) (fun _ => none) 0))
       ∧ (∀ x y off op body,
         (∀ a, logged s g x y = some a → gateOne s g x y off op body = s.answer packageDst who a)
         ∧ (logged s g x y = none →
           (gateTile s g x y op = none →
             ((∃ o n v cs u b, body = .flag o n v cs u b) →
               gateOne s g x y off op body = s.send (gatePacket g (gateName s g x y) none 0 true body))
             ∧ ((∀ o n v cs u b, body ≠ .flag o n v cs u b) → gateOne s g x y off op body = gateRefuse s g x y off (opModifies op)))
           ∧ (gateTile s g x y op = some none → gateOne s g x y off op body = s)
           ∧ ∀ t, gateTile s g x y op = some (some t) → gateOne s g x y off op body =
             s.send (gatePacket g t (lineChan off) (lineSpan off (opLen op)) (opModifies op) body)))
       ∧ (∀ group body chan span,
         let ms := groupMembers s group
         let live := ms.filter fun m => m.2.1 == .running
         let closed := s.answer packageDst who (.fault .window)
         (ms = [] → gateGroup s g group body chan span = s.answer packageDst who (.fault .window))
         ∧ ((∃ m ∈ ms, m.2.1 ≠ .running ∧ m.2.1 ≠ .killed) → gateGroup s g group body chan span = s)
         ∧ ((∀ m ∈ ms, m.2.1 = .running ∨ m.2.1 = .killed) → ms ≠ [] →
           (live = [] → gateGroup s g group body chan span = closed)
           ∧ (live ≠ [] → (∀ m ∈ live, loggedAt s g (s.homeName m.1) = none) → gateGroup s g group body chan span =
             live.foldl (fun s m => s.send (gatePacket g m.1 (chan m.2.2) span false (body m.2.2)))
               (if ms.any (fun m => m.2.1 == .killed) then closed else s))))
       ∧ ∀ x y op,
         (peerFor s g.chip g.tenant = none → gateTile s g x y op = none)
         ∧ ∀ p h, peerFor s g.chip g.tenant = some p → s.husk p.husk = some h →
           ((p.allows op = false ∨ h.width ≤ x ∨ h.height ≤ y ∨ h.st = .killed) → gateTile s g x y op = none)
           ∧ (p.allows op = true → x < h.width → y < h.height → h.st = .running → gateTile s g x y op = some (some (h.tileAt x y)))
           ∧ (p.allows op = true → x < h.width → y < h.height → h.st ≠ .running → h.st ≠ .killed → gateTile s g x y op = some none))

/-! ### Answers that reach a core -/

/-- An answer finds its operation: data goes to its registers, an acknowledgement ends it, a parked status lets the task go on; an
accepted PARK ends its task, a granted BDECL pushes its entry, an ABORT answer makes its abort pending, the home's acknowledgement of an
STAM sends the deliveries. An answer that finds no operation of its generation is dropped (spec/06 R101, spec/15 R283, spec/17 R319, R325,
spec/05 R85, spec/18 R342). A fault report: while its status is outstanding the fault is exact, what younger instructions did being put
back and the trap taken at the access, at once where the stream runs and its pair's interval is closed, first of all later (the model's
reading, log 90; the fault of an aborted task is dropped, the model's choice, log 100); that of an access which issued under PX is exact
too, with the last answer of the operation; else the operation is over and the fault stays pending, with its cause and address, until its
task takes it (spec/06 R102, R103, spec/04 R66, R67, spec/05 R79, spec/19 R358). A fault of a request program ends it (spec/07 R134). A
flag that was discarded reports the fault that poisoned its epoch, with FDROP (spec/04 R69); BTBL sets BTRY and is exact (spec/17 R319).
-/
def Obligations.AnswersAndFaultReportsCompleteTheirOperation : Prop :=
  ((∀ (s s1 : State) (r : Reply) (t tag : Nat) (a : Answer), takeReply s r = some (s1, t, tag, a) →
     ((s1.tile t).outFor r tag = none →
       ((∃ ws age, a = .data ws age) ∨ a = .parked → exec (.loadReply r) s = .next s1)
       ∧ ((∃ ws age, a = .data ws age) ∨ a = .done → exec (.acknowledgementArrival r) s = .next s1)
       ∧ ((∃ c, a = .fault c) ∨ (∃ c x, a = .dropped c x) → exec (.lateFaultReport r) s = .next s1))
     ∧ ∀ o, (s1.tile t).outFor r tag = some o →
       (∀ ws age, a = .data ws age → o.dst ≠ .none → exec (.loadReply r) s = .next (answerOut s1 t o (o.dst.writes ws age)))
       ∧ (a = .parked → exec (.loadReply r) s = .next (s1.modTile t fun u =>
           { u with out := u.out.map fun x => if x.tag = tag then { x with status := false, parked := true } else x }))
       ∧ (∀ ws age, a = .data ws age → o.dst = .none → o.pushes = [] →
           exec (.acknowledgementArrival r) s = .next (answerOut s1 t o []))
       ∧ (∀ v ws age, a = .data (v :: ws) age → o.pushes ≠ [] →
           exec (.acknowledgementArrival r) s = .next (answerOut (abortAnswer s1 t o v) t o []))
       ∧ (a = .done → o.park = true → exec (.acknowledgementArrival r) s = .next (parkAccepted s1 t o))
       ∧ (a = .done → o.park = false → o.pushes ≠ [] → exec (.acknowledgementArrival r) s = .next (answerOut (grantPush s1 t o) t o []))
       ∧ (a = .done → o.park = false → o.pushes = [] → (o.group = none ∨ o.kind = .delivery) →
           exec (.acknowledgementArrival r) s = .next (doneOut s1 t o (replyAway r)))
       ∧ ∀ g line age, a = .done → o.park = false → o.pushes = [] → o.group = some g → o.op = some (.sta line age) → o.kind ≠ .delivery →
           exec (.acknowledgementArrival r) s =
             .next (doneOut (deliverMirrors s1 t o g line age ((s1.tile t).activeBoost o.who) false) t o (replyAway r)))
   ∧ (∀ (s : State) (t : Nat) (o : Outst) (ws : List (Nat × Word)) (away : Bool),
       (1 < o.acks → answerOut s t o ws away = s.modTile t fun u => { u with
         out := u.out.map fun x => if x.tag = o.tag then { x with acks := x.acks - 1, far := if away then x.far - 1 else x.far } else x })
       ∧ (o.acks ≤ 1 → ∀ x ∈ ((answerOut s t o ws away).tile t).out, x.tag ≠ o.tag)
       ∧ (o.bad = none ∨ 1 < o.acks → doneOut s t o away = answerOut s t o [] away)
       ∧ ∀ c a, o.bad = some (c, a) → o.acks ≤ 1 → doneOut s t o away = exactOut s t o c a false)
   ∧ ∀ (s s1 : State) (ch j : Nat) (a : Answer),
       (copyAnswer s ch j a = some s1 → exec (.acknowledgementArrival (.copyIn ch j a)) s = .next s1)
       ∧ (copyAnswer s ch j a = none → exec (.acknowledgementArrival (.copyIn ch j a)) s = .next s))
  ∧ (∀ (s s1 : State) (r : Reply) (t tag : Nat) (a : Answer) (o : Outst), takeReply s r = some (s1, t, tag, a) →
       (s1.tile t).outFor r tag = some o → (s1.tile t).reportReady o = true →
       let go := exec (.lateFaultReport r) s
       (∀ c, a = .fault c →
         (numTiles ≤ t → go = .next (endProgram (answerOut s1 t o []) t c o.addr))
         ∧ (t < numTiles → (o.status = true ∨ o.park = true) → go = .next (exactOut s1 t o c o.addr false))
         ∧ (t < numTiles → o.status = false → o.park = false → o.px = true →
           (o.acks ≤ 1 → go = .next (exactOut s1 t o (o.bad.getD (c, o.addr)).1 (o.bad.getD (c, o.addr)).2 false))
           ∧ (1 < o.acks → go = .next (answerOut (s1.modTile t fun u => { u with out := u.out.map fun x =>
               if x.tag = o.tag then { x with bad := some (x.bad.getD (c, o.addr)) } else x }) t o [] (replyAway r))))
         ∧ (t < numTiles → o.status = false → o.park = false → o.px = false →
           go = .next (wakeWaiting (answerOut (addLate s1 t o.who (o.toLate c o.addr false)) t o [] (replyAway r)) t)))
       ∧ ∀ c addr, a = .dropped c addr →
         (c = .btbl → go = .next (tableFault s1 t o addr))
         ∧ (c ≠ .btbl → (o.park = true ∨ o.px = true) → go = .next (exactOut s1 t o c addr true))
         ∧ (c ≠ .btbl → o.park = false → o.px = false →
           go = .next (wakeWaiting (answerOut (addLate s1 t o.who (o.toLate c addr true)) t o [] (replyAway r)) t)))
  ∧ ∀ (s : State) (t : Nat) (o : Outst) (c : Cause) (a : Word) (fdrop : Bool),
      let s1 := answerOut s t { o with acks := 1 } []
      ((s.tile t).undoing o.who = true → exactOut s t o c a fdrop = s1)
      ∧ ((s.tile t).undoing o.who = false → (s.tile t).active = some o.who → (s.tile t).pairOpen = false →
        exactOut s t o c a fdrop = takeTrap (s1.modTile t fun u =>
          { u.dropYounger { o with addr := a } with atLine := u.atLine && o.pc = (u.task o.who).pc || o.pc.toNat % 8 = 0 })
          t c o.pc a false fdrop false false)
      ∧ ((s.tile t).undoing o.who = false → ((s.tile t).active ≠ some o.who ∨ (s.tile t).pairOpen = true) →
        exactOut s t o c a fdrop = deferExact s1 t { o with addr := a } c fdrop)
      ∧ ∀ i, o.who = .img i → tableFault s t o a =
          exactOut (s.modTile t fun u => u.setCtx i { u.ctx i with boost := { (u.ctx i).boost with btry := true } }) t o .btbl a false

/-! ### Copies and request programs -/

/-- A copy request takes the active place of an idle channel or its empty shadow place, and is else refused with a back-off hint; each
word of an active copy is read from its source and written to its destination, in a slice as a plain load and as an engine write, in far
memory through the tenant's pages; a descriptor out of sequence is noted with its own address (the model's choice, log 110); a copy whose
words are all written ends, one that met a fault ends with a note, once nothing that it sent is unanswered, and the shadow template
becomes active; a group descriptor goes, in order, to the scale queue of the tile that gets its row (spec/07 R137 to R139, R142). A far
request at its memory core: FARPAGE without a context for its tenant, a refusal with a hint where 32 wait, WINDOW without a loader entry,
else it is queued and answered; the oldest starts the program of its loader entry in an idle context with its address, parameter,
requester and counter in registers; a program that has ended decrements the requester's counter, with a note where it faulted (spec/07
R133, R134). -/
def Obligations.CopiesAndFarRequestsRun : Prop :=
  ((∀ (s : State) (p : Packet) (ch : Nat) (t : Template), s.packet s.sel = some p → p.body = .aperture ch t → p.refused = false →
       let go := exec .apertureRequestArrival s
       ((s.chan ch).shadow.isSome = true → go = .next (s.choose.2.refuse s.sel (s.choose.1 % 11)))
       ∧ ((s.chan ch).shadow = none → go = .next (((s.drop s.sel).setChan ch
           (if (s.chan ch).active.isNone then { s.chan ch with active := some t } else { s.chan ch with shadow := some t })).send
           (mkPacket (chDst ch) p.src p.tag none (.reply .done)))))
   ∧ (∀ (s s1 : State) (ch j : Nat), (copyMove s ch j false = some s1 → exec (.remoteAccessArrival (.copy ch j)) s = .next s1)
       ∧ (copyMove s ch j true = some s1 → exec (.farStoreArrival (.copy ch j)) s = .next s1))
   ∧ (∀ (s : State) (ch j h : Nat) (t : Template), (s.chan ch).active = some t → (s.chan ch).fault = none → j < t.words →
       (s.chan ch).done.contains j = false → (s.chan ch).sentIn.contains j = false →
       ((s.chan ch).read.find? (fun e => e.1 = j) = none → regionOf (t.srcOf j) = 0x00 → tileOf s t.tenant (t.srcOf j) = some h →
         ∀ s1 v age, performAt s h (field (t.srcOf j) 20 0) (.load 8) (.channel ch j) true false none = (s1, .data [v] age) →
           copyMove s ch j false = some (chanRead s1 ch j v))
       ∧ ∀ v, (s.chan ch).read.find? (fun e => e.1 = j) = some (j, v) → (t.side && (s.chan ch).desc ≤ t.row j) = false →
         (regionOf (t.dstOf j) = 0x00 → tileOf s t.tenant (t.dstOf j) = some h →
           ∀ s1, performAt s h (field (t.dstOf j) 20 0) (.engine [v]) (.channel ch j) true false none = (s1, .done) →
             copyMove s ch j false = some (chanDone s1 ch j))
         ∧ (regionOf (t.dstOf j) = 0x10 → ∀ s1 l, translate s t.tenant (field (t.dstOf j) 47 0) = (s1, some l) → l.wr = true →
             copyMove s ch j true = some (chanDone (s1.putFar (l.key + (t.dstOf j).toNat % 4096) (bytesOf v.toNat 8)) ch j)))
   ∧ (∀ (s : State) (t : Template), (s.chan s.sel).active = some t →
       let ends (note : Option (Cause × Word)) : State := (s.setChan s.sel { active := (s.chan s.sel).shadow, no := (s.chan s.sel).no + 1 }).send
         (mkPacket (chDst s.sel) t.agent 0 none (.wkdec t.wk 0 note false))
       ((s.chan s.sel).fault = none → (s.chan s.sel).done.length = t.words → exec .copyCompletion s = .next (ends none))
       ∧ ∀ x, (s.chan s.sel).fault = some x → (s.chan s.sel).sentIn = [] → exec .copyFault s = .next (ends (some x)))
   ∧ ∀ (s s1 : State) (t : Template) (h to_ : Nat) (v : Word) (age : BitVec 32), (s.chan s.sel).active = some t → t.side = true →
       (s.chan s.sel).fault = none → (s.chan s.sel).desc < t.rows →
       let a := t.scale + BitVec.ofNat 64 (4 * (s.chan s.sel).desc)
       regionOf a = 0x00 → tileOf s t.tenant a = some h →
       tileOf s t.tenant (rowAddr t.dst t.dstr (s.chan s.sel).desc) = some to_ →
       performAt s h (field a 20 0) (.load 4) (.channel s.sel 0) true false none = (s1, .data [v] age) →
       (field (v.setWidth 32) 31 28 ≠ (t.seq0 + (s.chan s.sel).desc) % 16 →
         exec .scaleDescriptorDelivery s = .next (chanFault s1 s.sel .scaleseq a))
       ∧ (field (v.setWidth 32) 31 28 = (t.seq0 + (s.chan s.sel).desc) % 16 → (s1.tile to_).matrix.sq.length < 16 →
         ∃ s2, exec .scaleDescriptorDelivery s = .next s2 ∧ (s2.tile to_).matrix.sq = (s1.tile to_).matrix.sq ++ [v.setWidth 32]
           ∧ (s2.chan s.sel).desc = (s.chan s.sel).desc + 1))
  ∧ ((∀ (s : State) (p : Packet) (r : FarReq) (n : Nat), s.packet s.sel = some p → p.body = .farreq r → p.refused = false →
         s.tenantOf r.agent = some n →
         let go := exec .farreqArrival s
         let reply (s' : State) (a : Answer) : State := (s'.drop s.sel).send (mkPacket p.dst p.src p.tag none (.reply a))
         (s.mcFor (mcOf p.dst) n = none → go = .next (reply s (.fault .farpage)))
         ∧ ∀ a m, s.mcFor (mcOf p.dst) n = some a → s.mc a = some m →
           (32 ≤ m.queue.length → go = .next (s.choose.2.refuse s.sel (s.choose.1 % 11)))
           ∧ (m.queue.length < 32 →
             (Sparse.get none m.loader r.entry = none → go = .next (reply s (.fault .window)))
             ∧ ((Sparse.get none m.loader r.entry).isSome = true →
               go = .next (reply { s with mcs := Sparse.set none s.mcs a (some { m with queue := m.queue ++ [r] }) } .done))))
     ∧ (∀ (s : State) (m : McCtx) (r : FarReq) (q : List FarReq), s.mc s.cur = some m → m.run = none → m.queue = r :: q →
         ∃ t, exec .requestProgramStart s = .next t ∧ t.mc s.cur = some { m with run := some r, queue := q }
           ∧ (t.tile s.cur).active = (if (s.tile s.cur).hnd.isSome then some .hnd else if (s.tile s.cur).l1.isSome then some .lvl1
               else some (.img 0))
           ∧ let k := (t.tile s.cur).task (.img 0)
             k.pc = BitVec.ofNat 64 ((Sparse.get none m.loader r.entry).getD 0) ∧ k.getG 1 = r.va ∧ k.getG 2 = r.param
             ∧ k.getG 3 = BitVec.ofNat 64 (s.cidOf r.agent) ∧ k.getG 4 = BitVec.ofNat 64 r.wk)
     ∧ ∀ (s : State) (m : McCtx) (r : FarReq), s.mc s.cur = some m → m.run = some r → (s.tile s.cur).cur0 = none →
         ((s.tile s.cur).ctx 0).st = .ready →
         ∃ t, exec .requestProgramEnd s = .next t ∧ t.mc s.cur = some { m with run := none }
           ∧ ∃ p, t.net = s.net ++ [p] ∧ p.dst = r.agent ∧ p.body = .wkdec r.wk 0
             (((s.tile s.cur).ctx 0).task.late.head?.map fun l => (l.cause, l.addr)) false)

/-! ### What arrives for a core's scheduler -/

/-- A message reaches a core: a pair's follower refuses it (spec/19 R358); elsewhere one of a DET window is parked there, at most 32, as
the model waits for its acknowledgement only until then (log 17); another is deposited, its words written and full, and its handler queued
at its level; one that meets a STAMPED or a BOOST range is turned away with STAWR or BOOSTWR, STAWR where it meets both (the model's
choice, log 39), its units going back, and counts as an arrival that poisons its epoch; a full pod pool refuses it (spec/15 R280, R281,
R293, spec/19 R351, spec/04 R68, R69). Grants raise their allowance register; one that was withheld goes out once 128 units or fewer are
left, that for a core of another package as a message of its own towards it (the model's choice, log 61); the congestion count is halved
every 4,096 cycles (spec/15 R292, R293, spec/16 R305). -/
def Obligations.MessagesAndGrantsArrive : Prop :=
  (∀ (s : State) (p : Packet) (m : Msg), arrived s s.sel = some p → p.body = .message m →
      let go := exec .messageArrival s
      let s1 := s.drop s.sel
      ((s.tile p.dst).follows.isSome = true → go = .next (s.refuse s.sel 0))
      ∧ ((s.tile p.dst).follows = none →
        ((m.det && (s.cohortOf p.dst).any (·.det)) = true →
          (32 ≤ (s.tile p.dst).det.parked.length → go = .next (s.refuse s.sel 0))
          ∧ ((s.tile p.dst).det.parked.length < 32 → go = .next (((occupy s1 p.dst m.units).modTile p.dst fun u =>
              { u with det := { u.det with parked := u.det.parked ++ [m] } }).send (mkPacket p.dst p.src p.tag none (.reply .parked)))))
        ∧ ((m.det && (s.cohortOf p.dst).any (·.det)) = false →
          (deposit (occupy s1 p.dst m.units) p.dst m = none → go = .next (s.refuse s.sel 0))
          ∧ ∀ s2 a, deposit (occupy s1 p.dst m.units) p.dst m = some (s2, a) →
            go = .next (s2.send (mkPacket p.dst p.src p.tag none (.reply a))))))
  ∧ (∀ (s : State) (t : Nat) (m : Msg),
      ((s.tile t).touches (·.stamped) m.off (8 * m.words.length) = true → deposit s t m = some (refuseMsg s t m .stawr))
      ∧ ((s.tile t).touches (·.stamped) m.off (8 * m.words.length) = false →
        (s.tile t).touches (·.boost) m.off (8 * m.words.length) = true → deposit s t m = some (refuseMsg s t m .boostwr)))
  ∧ (∀ (s : State) (t : Nat) (m : Msg), (s.tile t).touches (·.stamped) m.off (8 * m.words.length) = false →
      (s.tile t).touches (·.boost) m.off (8 * m.words.length) = false →
      (64 ≤ (s.tile t).poolUsed → deposit s t m = none)
      ∧ ((s.tile t).poolUsed < 64 → (s.tile t).waiters = [] → ∃ s2, deposit s t m = some (s2, .done)
        ∧ (m.level = 1 → (s2.tile t).l1q.map (·.task.pc) = (s.tile t).l1q.map (·.task.pc) ++ [m.handler])
        ∧ (m.level ≠ 1 → ∃ pod, (s2.tile t).ready = (s.tile t).ready ++ [.free pod] ∧ pod.task.pc = m.handler
            ∧ pod.task.it = m.it ∧ pod.task.gid = m.gid ∧ pod.task.tstat = m.tstat
            ∧ pod.task.getG 2 = BitVec.ofNat 64 (8 * m.words.length) ∧ pod.task.getG 3 = BitVec.ofNat 64 m.cid)
        ∧ s2.mem = setBytesMem s.mem (sliceKey t m.off) (wordsBytes m.words)
        ∧ ∀ j, j < m.words.length → s2.isEmpty t (m.off + 8 * j) = false))
  ∧ (∀ (s : State) (p : Packet) (k n : Nat), arrived s s.sel = some p → p.body = .grant k n →
      exec .allowanceGrantArrival s = .next (wakeWaiting ((s.drop s.sel).modTile p.dst fun u => u.setAllow k (u.allow k + n)) p.dst))
  ∧ (∀ (s : State) (g : Grant) (r : List Grant), (s.tile s.cur).withheld = g :: r → (s.tile s.cur).occ ≤ 128 →
      exec .grantWithheldRelease s = .next (sendGrant (s.setTile s.cur { s.tile s.cur with withheld := r }) g)
      ∧ (g.dest < 2 ^ 20 → sendGrant s g = s.send (mkPacket g.home g.dest 0 none (.grant g.al g.units)))
      ∧ (2 ^ 20 ≤ g.dest → (sendGrant s g).net = s.net ∧ ∃ e, (sendGrant s g).egress = s.egress ++ [e] ∧ e.units = g.units
          ∧ e.chip = (g.dest - 2 ^ 20) / 2 ^ 16 ∧ e.src = g.dest % 2 ^ 16 ∧ e.tag = g.al))
  ∧ ∀ s : State, (s.tile s.cur).cong ≠ 0 → (s.tile s.cur).halvedAt < (s.tile s.cur).cyc / 4096 →
      exec .congestionHalving s = .next (s.setTile s.cur { s.tile s.cur with
        cong := (s.tile s.cur).cong / 2, halvedAt := (s.tile s.cur).halvedAt + 1 })

/-- START gives the initial task an image with the launch's entry, argument, status, gid and lid, or, where no image is free, a place at
the head of the ready list; that the pod of an image joins the tail is the model's reading (spec/09 R144, R156, R399; log 77). A spawned
pod joins the tail of the ready list, or its wake counter if that has no pod, and a PARK's continuation its counter; a full pool refuses
them, and nothing is discarded until the retry is taken in (log 85). A decrement changes its counter as spec/15 R277 says. A record is
placed, in the slot's 32 places while its ring is empty, else in the ring in its slice, collected for its window, refused where it finds
no room, or while others wait behind the ring (the model's choice, log 18), or answered WINDOW by a slot that is not enabled; the eighth
word staged sends a record off, and a pop takes the next word of the head record (spec/15 R282, R283, R287 to R290). -/
def Obligations.PodsAndRecordsArrive : Prop :=
  (∀ (s : State) (p : Packet) (id : Nat) (c : Cohort) (h : Husk), arrived s s.sel = some p → p.body = .start id →
      (s.tile p.dst).follows = none → s.cohorts.find? (fun c => c.id = id) = some c → s.husk c.tenant = some h →
      ∃ t k, exec .startArrival s = .next t
        ∧ k.pc = c.entry ∧ k.getG 1 = c.arg ∧ k.gid = BitVec.ofNat 32 c.gid ∧ k.lid = initialLid h c p.dst
        ∧ k.tstat = c.tstat ||| (if supOf s p.dst then BitVec.ofNat 64 (2 ^ 47) else 0)
        ∧ (∀ i, (s.tile p.dst).freeImage = some i →
          (t.tile p.dst).ctx i = { task := k, st := .ready, check := true } ∧ (t.tile p.dst).ready = (s.tile p.dst).ready ++ [.bound i])
        ∧ ((s.tile p.dst).freeImage = none →
          (t.tile p.dst).ready = .free { task := k, checked := true, initial := true } :: (s.tile p.dst).ready))
  ∧ (∀ (s : State) (p : Packet) (pod : Pod) (wk : Option Nat), arrived s s.sel = some p → p.body = .spawn pod wk →
      let s1 := if p.src = p.dst then s.drop s.sel else (s.drop s.sel).modTile p.dst Tile.dropBuffered
      let answer (s : State) (a : Answer) : State := s.send (mkPacket p.dst p.src p.tag none (.reply a))
      let go := exec .spawnPodArrival s
      (((s.tile p.dst).follows.isSome || decide (64 ≤ (s.tile p.dst).poolUsed)) = true → go = .next (s.refuse s.sel 0))
      ∧ (((s.tile p.dst).follows.isSome || decide (64 ≤ (s.tile p.dst).poolUsed)) = false →
        let pod : Pod := { pod with started := p.src != p.dst }
        (wk = none → go = .next (answer (s1.modTile p.dst fun u => { u with ready := u.ready ++ [.free pod] }) .done))
        ∧ ∀ n, wk = some n →
          (((s.tile p.dst).wakeOf n).pod ≠ .none → go = .next (answer s1 (.fault .illeg)))
          ∧ (((s.tile p.dst).wakeOf n).pod = .none → go = .next (answer (s1.modTile p.dst fun u => attach u n (.free pod)) .done))))
  ∧ (∀ (s : State) (p : Packet) (pod : Pod) (n : Nat), arrived s s.sel = some p → p.body = .park pod n →
      let answer (s : State) (a : Answer) : State := s.send (mkPacket p.dst p.src p.tag none (.reply a))
      let go := exec .parkContinuationArrival s
      (((s.tile p.dst).wakeOf n).pod ≠ .none → go = .next (answer (s.drop s.sel) (.fault .illeg)))
      ∧ (((s.tile p.dst).wakeOf n).pod = .none → 64 ≤ (s.tile p.dst).poolUsed → go = .next (s.refuse s.sel 0))
      ∧ (((s.tile p.dst).wakeOf n).pod = .none → (s.tile p.dst).poolUsed < 64 →
        go = .next (answer ((s.drop s.sel).modTile p.dst fun u => attach u n (.free pod)) .done)))
  ∧ (∀ (s : State) (p : Packet) (n : Nat) (v : Word) (note : Option (Cause × Word)) (ans : Bool), arrived s s.sel = some p →
      p.body = .wkdec n v note ans →
      let s1 := (s.drop s.sel).modTile p.dst fun u => decrement u n v note
      exec .wakeCounterDecrement s = .next (if ans then s1.send (mkPacket p.dst p.src p.tag none (.reply .done)) else s1))
  ∧ (∀ (u : Tile) (n : Nat) (v : Word) (note : Option (Cause × Word)),
      ((decrement u n v note).wakeOf n).count = (u.wakeOf n).count - 1 ∧ ((decrement u n v note).wakeOf n).word = v
      ∧ (2 ≤ (u.wakeOf n).count → (decrement u n v note).ready = u.ready ∧ ((decrement u n v note).wakeOf n).pod = (u.wakeOf n).pod)
      ∧ ∀ pod, (u.wakeOf n).count = 1 → (u.wakeOf n).pod = .free pod →
        ((decrement u n v note).wakeOf n).pod = .none
        ∧ ∃ pod', (decrement u n v note).ready = u.ready ++ [.free pod'] ∧ pod'.task.ret = v ∧ pod'.task.pc = pod.task.pc)
  ∧ (∀ (s : State) (p : Packet) (slot port : Nat) (ws : List Word) (index : Option (Nat × Nat)), arrived s s.sel = some p →
      p.body = .record slot port ws index →
      let q := (s.tile p.dst).hqueue slot
      let answer (s : State) (a : Answer) : State := s.send (mkPacket p.dst p.src p.tag none (.reply a))
      let go := exec .queueRecordArrival s
      (q.en = false → go = .next (answer (s.drop s.sel) (.fault .window)))
      ∧ (q.en = true → index = none →
        (q.extra ≠ [] → go = .next (s.refuse s.sel 0))
        ∧ (q.extra = [] → (placeRec (s.drop s.sel) p.dst slot ws = none → go = .next (s.refuse s.sel 0))
          ∧ ∀ s', placeRec (s.drop s.sel) p.dst slot ws = some s' → go = .next (answer (wakeWaiting s' p.dst) .done)))
      ∧ ∀ i w, q.en = true → index = some (i, w) →
        (32 + q.ringSize ≤ q.slot.length + q.stored + q.extra.length + q.parked.length → go = .next (s.refuse s.sel 0))
        ∧ (q.slot.length + q.stored + q.extra.length + q.parked.length < 32 + q.ringSize → go = .next (answer ((s.drop s.sel).modTile p.dst fun u => u.setHq slot { q with parked := q.parked ++ [(i, w, ws)] }) .done)))
  ∧ (∀ (s : State) (t slot : Nat) (ws : List Word),
      let q := (s.tile t).hqueue slot
      (q.stored = 0 → q.slot.length < 32 →
        placeRec s t slot ws = some (s.modTile t fun u => u.setHq slot { q with slot := q.slot ++ [ws] }))
      ∧ ((q.stored ≠ 0 ∨ 32 ≤ q.slot.length) →
        (q.stored < 32 * 2 ^ q.rsize → ∃ s', placeRec s t slot ws = some s'
          ∧ (s'.tile t).hqueue slot = { q with stored := q.stored + 1 }
          ∧ s'.mem = setBytesMem s.mem (sliceKey t (q.base + 64 * ((q.head + q.stored) % (32 * 2 ^ q.rsize)))) (wordsBytes ws))
        ∧ (32 * 2 ^ q.rsize ≤ q.stored → placeRec s t slot ws = none)))
  ∧ (∀ (s : State) (port core slot : Nat) (st : List Word) (y : Port),
      (s.tile s.cur).port port = some y → y.kind = .push core slot st false → 8 ≤ st.length →
      ∃ t, exec (.queuePortPush port) s = .next t
        ∧ (t.tile s.cur).port port = some { y with kind := .push core slot [] true }
        ∧ ∃ p ix, t.net = s.net ++ [p] ∧ p.dst = core ∧ p.chan = orderedChan ∧ p.body = .record slot port st ix)
  ∧ ∀ (s : State) (port q cur : Nat) (y : Port) (r : List Word) (rest : List (List Word)), (s.tile s.cur).active = some y.who →
      (s.tile s.cur).port port = some y → y.kind = .pop q cur → ((s.tile s.cur).hqueue q).slot = r :: rest →
      (cur = 7 → 8 ≤ rest.length ∧ ((s.tile s.cur).hqueue q).extra = []) →
      ∃ t, exec (.queuePortPop port) s = .next t ∧ (t.tile s.cur).popped = r.getD cur 0
        ∧ (t.tile s.cur).port port = some { y with kind := .pop q ((cur + 1) % 8) }
        ∧ (cur ≠ 7 → (t.tile s.cur).hqueue q = (s.tile s.cur).hqueue q)
        ∧ (cur = 7 → ((t.tile s.cur).hqueue q).slot = rest)

/-! ### A core's own schedule -/

/-- An idle core starts the first pod of its ready list that can start, a bound one in its image and a free one in a free image: it passes
over a free pod while it has no image (spec/15 R269) and, by the model's choice (log 105), a sprout that waits for a gang's DONE. A core
of a cohort without a running level-0 task takes a free pod of another (R269, R271, R273); that it discards its buffered lines where a
third core's SPAWN had brought the pod there is the model's choice (log 85). A queued level-1 task enters at a line boundary (spec/09
R150); a level-0 task whose slice is used up while another pod is ready goes to the tail of the ready list, a forwarded gang with all its
members at one line (spec/18 R341, spec/15 R284, spec/09 R154); a pending fault is taken at the boundary (spec/18 R335), under PX once
nothing can still fault (spec/04 R67). A paired task in an interval is asked to close it first. -/
def Obligations.CoresStartEnterAndSwitchTasks : Prop :=
  (∀ (s : State) (n i : Nat), (s.tile s.cur).idle = true → (s.tile s.cur).startable = some (n, .bound i) →
      (∀ p, (s.tile s.cur).pairing = some p → p.mate ≠ s.cur) →
      ∃ t, exec .podStart s = .next t ∧ (t.tile s.cur).cur0 = some i ∧ ((t.tile s.cur).ctx i).st = .running
        ∧ ((t.tile s.cur).ctx i).task = ((s.tile s.cur).ctx i).task ∧ (t.tile s.cur).ready = (s.tile s.cur).ready.eraseIdx n
        ∧ (t.tile s.cur).used = 0 ∧ (t.tile s.cur).lim = max 4096 (s.tile s.cur).slice)
  ∧ (∀ (s : State) (n i : Nat) (p : Pod), (s.tile s.cur).idle = true → (s.tile s.cur).startable = some (n, .free p) →
      (s.tile s.cur).freeImage = some i → p.grant = none → (∀ p, (s.tile s.cur).pairing = some p → p.mate ≠ s.cur) →
      ∃ t, exec .podStart s = .next t ∧ (t.tile s.cur).cur0 = some i ∧ ((t.tile s.cur).ctx i).st = .running
        ∧ ((t.tile s.cur).ctx i).task = (if p.initial then p.task
          else { p.task with lid := lidOf s s.cur p.task.gid, g := liveRegs p.task p.live })
        ∧ (t.tile s.cur).ready = (s.tile s.cur).ready.eraseIdx n)
  ∧ (∀ (s : State) (c : Cohort) (m n : Nat) (p : Pod), s.cohortOf s.cur = some c → c.det = false →
      (s.tile s.cur).cur0 = none → (s.tile s.cur).follows = none → (s.tile s.cur).ready = [] → (s.tile s.cur).freeImage.isSome = true → (s.tile s.cur).pairing = none →
      (s.tile s.cur).poolUsed < 64 →
      (((List.range ((s.membersOf c).length - 1)).map fun j =>
          (s.membersOf c).getD ((s.indexIn c s.cur + 1 + j) % (s.membersOf c).length) s.cur).findSome? fun m =>
        if (s.tile m).pairing.isSome || (s.tile m).follows.isSome || (s.tile m).runsGang then none else (givenPod (s.tile m) c.gid).map fun e => (m, e))
        = some (m, n, p) →
      exec .podTake s = .next ((s.modTile m fun v => { v with ready := v.ready.eraseIdx n }).modTile s.cur fun u =>
        { (if p.started then u.dropBuffered else u) with ready := u.ready ++ [.free p] }))
  ∧ (∀ (u : Tile), u.dropBuffered.stale = [] ∧ ∀ l, u.dropBuffered.line = some l → u.line = some l ∧ l.entered = true)
  ∧ (∀ (s : State) (x : Sprout) (r : List Sprout), (s.tile s.cur).level1Ready = true → (s.tile s.cur).l1q = x :: r → x.grant = none →
      ((s.tile s.cur).pairing = none → ∃ t, exec .level1Entry s = .next t ∧ (t.tile s.cur).l1q = r
        ∧ (t.tile s.cur).l1 = some { x with task := { x.task with g := if x.undo then x.task.g else liveRegs x.task x.live } }
        ∧ (t.tile s.cur).active = some .lvl1)
      ∧ ∀ p, (s.tile s.cur).pairing = some p → p.closing = false → p.count ≠ 0 →
        exec .level1Entry s = .next (s.setTile s.cur (s.tile s.cur).wantClose))
  ∧ (∀ (s : State) (i : Nat), (s.tile s.cur).active = some (.img i) → sliceDue s s.cur = true → (s.tile s.cur).atLine = true →
      (s.tile s.cur).pairNext = false → (s.tile s.cur).settled (.img i) = true →
      ((s.tile s.cur).pairOpen = true → exec .timeSliceExpiry s = .next (s.setTile s.cur (s.tile s.cur).wantClose))
      ∧ ((s.tile s.cur).pairOpen = false → ((s.tile s.cur).ctx i).task.fwd = false →
        exec .timeSliceExpiry s = .next (setAside s s.cur .ready))
      ∧ ((s.tile s.cur).pairOpen = false → ((s.tile s.cur).ctx i).task.fwd = true → field ((s.tile s.cur).ctx i).task.lid 15 12 = 0 →
        (gangOf s s.cur).all (gangAtLine s ((s.tile s.cur).ctx i).task.gid s.cur) = true →
        exec .timeSliceExpiry s = .next ((gangOf s s.cur).foldl (fun s m => setAside s m .ready) s)))
  ∧ ∀ (s : State) (w : Who) (l : Late), (s.tile s.cur).active = some w → (s.tile s.cur).pairNext = false →
      (s.tile s.cur).pxHolds w = false →
      (s.tile s.cur).boundaryLate w = some l → exec .trapEntry s = .next (takeLate s s.cur w l)

/-! ### The group scheduler -/

/-- The scheduler judges a launch: a record that is queued or running is not accepted, a malformed one is REJECTED with its reason, a full
queue makes the launch wait, any other is queued under the husk's next serial and answered with its handle (spec/16 R303, R310); a free
slot is mapped to the next queue with work; after 4,096 placements a mapped slot is set draining while a queue with work is unmapped; the
next group of the slot whose turn it is is placed in the free rectangle with the least congestion, its members getting START (R304, R305),
after the rotation that is due and any mapping that can be made (the model's reading, log 20); a group of which nothing is left retires,
its bit is set and its successors are evaluated, each being released once every predecessor's bit is set (R299 to R301). Which of several
free slots is mapped is the model's choice (log 20). -/
def Obligations.LaunchesArePlacedAndRetired : Prop :=
  (∀ (s : State) (p : Packet) (t off hint n : Nat) (h : Husk), arrived s s.sel = some p → p.body = .launch t off hint →
      s.huskOfTile t = some (n, h) → s.consumesBad t off 128 = false →
      let ra : Word := BitVec.ofNat 64 ((tileY t - h.row0) * 2 ^ 27 + (tileX t - h.col0) * 2 ^ 21 + off)
      (acceptLaunch ((s.drop s.sel).correct t off 16) n t off ra = none → exec .launchAcceptance s = .next (s.refuse s.sel 0))
      ∧ ∀ s' v, acceptLaunch ((s.drop s.sel).correct t off 16) n t off ra = some (s', v) →
        exec .launchAcceptance s = .next (s'.send (mkPacket schedDst p.src p.tag none (.reply (.data [v] 0)))))
  ∧ (∀ (s : State) (n t off : Nat) (ra : Word) (h : Husk), s.husk n = some h →
      let st := recField s t off 0x40 8 / 2 ^ 60
      let serial := nextSerial h.serial
      let l := readLaunch s t off serial
      let q := recField s t off 0x26 1
      let reason := if badRecord s h t off then 1 else if l.deps.any (!depLegal ·) then 2 else if !gangFit h l then 3 else 0
      (st = 1 ∨ st = 2 → acceptLaunch s n t off ra = some (s, handleOf ra 0))
      ∧ (st ≠ 1 → st ≠ 2 →
        (reason = 0 → 64 ≤ (h.queue q).length → acceptLaunch s n t off ra = none)
        ∧ (reason ≠ 0 → ∃ s', acceptLaunch s n t off ra = some (s', handleOf ra serial)
          ∧ ∃ g, s'.husk n = some g ∧ g.serial = serial ∧ g.queues = h.queues ∧ (serial, statusWord 4 reason 0) ∈ g.kept)
        ∧ (reason = 0 → (h.queue q).length < 64 → ∃ s', acceptLaunch s n t off ra = some (s', handleOf ra serial)
          ∧ ∃ g, s'.husk n = some g ∧ g.serial = serial ∧ g.queue q = h.queue q ++ [l])))
  ∧ (∀ (s : State) (n q k0 : Nat) (ks : List Nat), nextUnmapped s = some (n, q) → freeSlots s = k0 :: ks →
      (∀ l, headOf s n q = some l → ∀ k ∈ l.reads ((List.range l.total).filter fun i => !l.released.contains i),
        s.unreadable l.tile k = false) →
      ∃ t k, exec .slotMapping s = .next t ∧ k ∈ k0 :: ks ∧ Sparse.get none t.slots k = some { tenant := n, queue := q }
        ∧ t.lastMapped = some (n, q) ∧ ∀ j, j ≠ k → Sparse.get none t.slots j = Sparse.get none s.slots j)
  ∧ (∀ (s : State), s.rotations < s.placements / 4096 → canMap s = false →
      (unmapped s = [] → exec .slotRotation s = .next { s with rotations := s.rotations + 1 })
      ∧ ∀ k x, unmapped s ≠ [] → mappedAfter s s.lastDrained = some k → Sparse.get none s.slots k = some x →
        (s.cohorts.any fun (c : Cohort) => c.slot = k && c.tenant = x.tenant && c.queue = x.queue) = true →
        ∃ t, exec .slotRotation s = .next t ∧ Sparse.get none t.slots k = some { x with draining := true } ∧ t.lastDrained = k)
  ∧ (∀ (s : State) (k n q i cx cy : Nat) (l : Launch) (h : Husk), rotationDue s = false → canMap s = false → slotTurn s = some k → placeable s k = some (n, q, l, i, cx, cy) →
      s.husk n = some h →
      ∃ t c, exec .groupPlacement s = .next t ∧ t.cohorts = s.cohorts ++ [c] ∧ t.lastPlaced = k ∧ t.placements = s.placements + 1
        ∧ c.tenant = n ∧ c.slot = k ∧ c.queue = q ∧ c.index = i ∧ c.x = cx ∧ c.y = cy ∧ c.w = l.w ∧ c.h = l.h ∧ c.entry = l.entry
        ∧ c.arg = l.arg ∧ c.toStart = rectOf h cx cy l.w l.h
        ∧ ∀ m ∈ rectOf h cx cy l.w l.h, ∃ p ∈ t.net, p.dst = m ∧ p.body = .start c.id)
  ∧ (∀ (s : State) (c : Cohort) (h : Husk), s.cohorts.find? (fun (c : Cohort) => c.id = s.sel) = some c → s.husk c.tenant = some h →
      groupDone s c = true → h.st = .running →
      let s1 := ungroupAll (retireStops s h c) h c
      (∀ d ∈ s1.cohorts, d.id ≠ c.id)
      ∧ (headOf s1 c.tenant c.queue = none → exec .groupRetirement s = .next (freeDrained s1 c.slot))
      ∧ ∀ l, headOf s1 c.tenant c.queue = some l →
        let k := l.off + 0x80 + c.index / 8
        s1.consumesBad l.tile k 1 = false →
        let s2 := (s1.correct l.tile (k / 8 * 8) 1).putSlice l.tile k
          [BitVec.ofNat 8 (Nat.lor (getByte s1 (sliceKey l.tile k)).toNat (2 ^ (c.index % 8)))]
        let succ := l.deps.filterMap fun d => l.indexOf (l.xOf c.index - d.1) (l.yOf c.index - d.2.1) (l.zOf c.index - d.2.2)
        let s3 := evalHead (modHead s2 c.tenant c.queue fun l => { l with retired := l.retired + 1, runningN := l.runningN - 1 })
          c.tenant c.queue fun _ => succ
        exec .groupRetirement s = .next (freeDrained (if l.retired + 1 = l.total then finishLaunch s3 c.tenant c.queue
          else refresh s3 c.tenant c.queue) c.slot))
  ∧ ∀ (s : State) (n q : Nat) (l : Launch) (which : Launch → List Nat), headOf s n q = some l →
      let is := (which l).filter fun i => !l.released.contains i
      (∀ k ∈ l.reads is, s.unreadable l.tile k = false) → headOf (evalHead s n q which) n q = some (l.evaluate s is)

/-! ### Boosted events -/

/-- A declaration at its home that its task may make is judged by the rows of spec/17 R318: an unloaded entry raises BTBL the first time;
an older conflicting holder makes it abort, with that holder's ticket, whichever of several the model chooses (log 21); no conflict grants
it at once; younger conflicting holders get an abort notice and it waits for their entries; a full table refuses the declaration after the
notices, to the conflicting holders, or else to its youngest holder if that is younger (log 21). A release takes a core's locks away and
grants what no entry that it met keeps waiting; a notice makes the abort of its life pending, unless one is or its undo runs, and is else
ignored; a pending notice gives way to an abort of the task's own (R320, R322; the model's reading, log 100). -/
def Obligations.DeclarationsAreJudgedAtTheirHome : Prop :=
  (∀ (s : State) (p : Packet) (d : Decl), arrived s s.sel = some p → p.body = .declare d →
      let u := s.tile p.dst
      let s1 := s.drop s.sel
      let answer (s : State) (a : Answer) : State := s.send (mkPacket p.dst p.src p.tag none (.reply a))
      let go := exec .declarationAtHome s
      let entry (g : Bool) : Lock :=
        { obj := d.obj, kind := d.kind, key := d.key, agent := p.src, life := d.life, age := d.age, tag := p.tag, granted := g
          against := if g then [] else ((u.conflicts d.obj d.kind d.key p.src).filter fun l => !Age.older l.age d.age).map fun l => (l.agent, l.tag) }
      let older := (u.conflicts d.obj d.kind d.key p.src).filter fun l => Age.older l.age d.age
      let younger := (u.conflicts d.obj d.kind d.key p.src).filter fun l => !Age.older l.age d.age
      let blank := (u.rivals d.obj p.src).find? fun l => !d.retried && u.meets d.kind d.key l == .unloaded
      ((d.user && u.inCtx d.obj 8) = true → go = .next (answer s1 (.fault .priv)))
      ∧ ((d.user && u.inCtx d.obj 8) = false →
        (∀ l, blank = some l → go = .next (answer s1 (.dropped .btbl (BitVec.ofNat 64 (d.kind * 64 + l.kind)))))
        ∧ (blank = none →
          (older ≠ [] → ∃ l ∈ older, go = .next (answer s1.choose.2 (.data [l.age.ticket.setWidth 64] 0)))
          ∧ (older = [] → younger ≠ [] →
            (u.locks.length < 128 → go = .next (answer (noticeAll (s1.modTile p.dst fun u => { u with locks := u.locks ++ [entry false] })
              p.dst 1 d.age.ticket younger) .parked))
            ∧ (128 ≤ u.locks.length → go = .next ((noticeAll s p.dst 1 d.age.ticket younger).refuse s.sel 0)))
          ∧ (older = [] → younger = [] →
            (u.locks.length < 128 →
              go = .next (answer (s1.modTile p.dst fun u => { u with locks := u.locks ++ [entry true] }) .done))
            ∧ (128 ≤ u.locks.length → go = .next ((noticeAll s p.dst 3 d.age.ticket
                ((youngest u.locks).toList.filter fun y => Age.older d.age y.age)).refuse s.sel 0))))))
  ∧ (∀ (s : State) (p : Packet) (agent : Nat), arrived s s.sel = some p → p.body = .unlock agent →
      exec .lockReleaseAtHome s = .next ((regrant ((s.drop s.sel).modTile p.dst fun u =>
        { u with locks := u.locks.filter fun l => l.agent != agent }) p.dst).send (mkPacket p.dst p.src p.tag none (.reply .done))))
  ∧ (∀ (s : State) (p : Packet) (life reason : Nat) (ticket : BitVec 32), arrived s s.sel = some p → p.body = .abort life reason ticket →
      let u := s.tile p.dst
      (∀ i, u.boosted = some i → (u.ctx i).boost.life = life →
        exec .abortNoticeArrival s = .next ((s.drop s.sel).setTile p.dst (u.askAbort reason ticket.toNat)))
      ∧ ((∀ i, u.boosted = some i → (u.ctx i).boost.life ≠ life) → exec .abortNoticeArrival s = .next (s.drop s.sel)))
  ∧ ∀ (u : Tile) (reason ticket : Nat),
      (u.undo.isSome = true → u.askAbort reason ticket = u)
      ∧ (u.undo = none → u.abort = none → u.askAbort reason ticket = { u with abort := some (reason, ticket) })
      ∧ ∀ k j, u.undo = none → u.abort = some (k, j) →
        (((k == 1 || k == 3) && !(reason == 1 || reason == 3)) = true → u.askAbort reason ticket = { u with abort := some (reason, ticket) })
        ∧ (((k == 1 || k == 3) && !(reason == 1 || reason == 3)) = false → u.askAbort reason ticket = u)

/-- A pending abort is taken where its task stops: its count of aborts rises to 4,095 at most, the reason and an undo of every entry
are recorded, and the task waits; undo tasks run from the newest entry, at level 1, ahead of every other, with the handler and the
arguments of the entry; after the last one each home at which its core holds locks is sent the release of them, as one operation that they
acknowledge, and the task is ready again at its restart PC with its counters clear, the abort word in `ret`, and the slot free (spec/17
R320, R321). -/
def Obligations.AbortedTasksAreUndone : Prop :=
  (∀ (s : State) (r k i : Nat), (s.tile s.cur).abort = some (r, k) → (s.tile s.cur).boosted = some i → (s.tile s.cur).abortReady = true →
      (s.tile s.cur).pairing = none → exec .boostedAbort s = .next (takeAbort s s.cur i r k))
  ∧ (∀ (s : State) (t i reason ticket : Nat), (s.tile t).cur0 ≠ some i →
      let c := (s.tile t).ctx i
      let d := ((takeAbort s t i reason ticket).tile t).ctx i
      d.st = .waiting .undo ∧ d.boost.aborts = min 4095 (c.boost.aborts + 1) ∧ d.boost.reason = reason ∧ d.boost.btry = c.boost.btry
      ∧ ((takeAbort s t i reason ticket).tile t).undo =
          some { img := i, word := BitVec.ofNat 64 (ticket * 2 ^ 32 + reason), left := c.boost.depth })
  ∧ (∀ (s : State) (y : Undo), (s.tile s.cur).undo = some y → y.active = false → y.left ≠ 0 → undoQuiet s s.cur y.img = true →
      let s1 := withdrawParked s s.cur y.img
      let c := (s1.tile s.cur).ctx y.img
      let off := c.boost.undo + 32 * (y.left - 1)
      s1.consumesBad s.cur off 32 = false →
      ∃ t k, exec .undoTaskStart s = .next t
        ∧ (t.tile s.cur).l1q.head? = some { task := k, undo := true }
        ∧ (t.tile s.cur).undo = some { y with left := y.left - 1, active := true }
        ∧ let ws := (readWords (s1.correct s.cur off 4) s.cur off 4).2
          k.pc = ws.headD 0 &&& 0x1FFF ∧ k.getG 1 = ws.getD 1 0 ∧ k.getG 2 = ws.getD 2 0 ∧ k.getG 3 = ws.getD 3 0
          ∧ k.getG 4 = BitVec.ofNat 64 (field (ws.headD 0) 18 13) ∧ k.it = c.task.it ∧ k.gid = c.task.gid)
  ∧ ∀ (s : State) (y : Undo), (s.tile s.cur).undo = some y → y.active = false → y.left = 0 → undoQuiet s s.cur y.img = true →
      let s1 := withdrawParked s s.cur y.img
      let c := (s1.tile s.cur).ctx y.img
      let homes := lockHomes s1 s.cur
      let tag := (s1.tile s.cur).seq
      ∃ t, exec .undoFinish s = .next t ∧ (t.tile s.cur).undo = none
        ∧ (homes = [] → t.net = s1.net)
        ∧ (homes ≠ [] → (∃ o ∈ (t.tile s.cur).out, o.tag = tag ∧ o.who = .img y.img ∧ o.acks = homes.length)
          ∧ ∀ k ∈ homes, ∃ p ∈ t.net, p.dst = k ∧ p.tag = tag ∧ p.body = .unlock s.cur)
        ∧ let d := (t.tile s.cur).ctx y.img
          d.st = .ready ∧ d.check = true ∧ d.task.pc = c.boost.restart ∧ d.task.d = [] ∧ d.task.ret = y.word
          ∧ d.boost.active = false ∧ d.boost.depth = 0

/-! ### The matrix array at work -/

/-- The array performs the head of its queue, a gang-issued one on every member at once, where an MGANG only comes to stand at its
barrier, and the head leaves the queue, lowering its counter, once what it sent is acknowledged; a peer add adds to the accumulator and is
acknowledged; a gang's barrier is over when every member stands at it, and the next instruction of each member's stream is gang-issued,
where none of it stands in the queue behind it, which has been since it entered (spec/14 R249, R254, R255). A paired task's instruction is
performed on the follower's array too (spec/19 R358). A row pass writes, or adds, the sum of the products less their zero points, modulo
2^48 (R246). -/
def Obligations.TheMatrixArrayPerformsItsQueue : Prop :=
  (∀ s : State, (s.tile s.cur).headReady = true → (s.tile s.cur).gangHead = false →
      exec .matrixQueuePerform s = .next (performHead s s.cur none))
  ∧ (∀ s : State, (s.tile s.cur).gangHead = true → (gangTiles s s.cur).head? = some s.cur →
      (∀ m ∈ gangTiles s s.cur, (s.tile m).gangReady = true ∧ sameGang s s.cur m = true) →
      exec .matrixQueuePerform s =
        .next (((gangTiles s s.cur).drop 1).foldl (fun s' m => gangStart s' m (leaderRows s s.cur)) (gangStart s s.cur none)))
  ∧ (∀ (s : State) (m : Nat) (q : MQ) (r : List MQ) (lead : Option (Fields × List (List Byte))), (s.tile m).matrix.queue = q :: r →
      q.isGang = true → gangStart s m lead = clearGang s m)
  ∧ (∀ (s : State) (q : MQ) (r : List MQ), (s.tile s.cur).matrix.queue = q :: r → (s.tile s.cur).matrix.busy = true →
      ((s.tile s.cur).out.any fun o => o.tag = q.tag) = false →
      ∃ t, exec .matrixInstructionCompletion s = .next t ∧ (t.tile s.cur).matrix.queue = r ∧ (t.tile s.cur).matrix.busy = false
        ∧ ∀ i, q.who = .img i → ((t.tile s.cur).task (.img i)).d = (((s.tile s.cur).task (.img i)).lower q.lower).d)
  ∧ (∀ (s : State) (p : Packet) (mac i : Nat) (v : BitVec 48), arrived s s.sel = some p → p.body = .peerAdd mac i v →
      exec .peerAddArrival s = .next ((modMatrix (s.drop s.sel) p.dst fun m => m.setAcc mac i (m.accAt mac i + v)).send
        (mkPacket p.dst p.src p.tag none (.reply .done))))
  ∧ (∀ s : State, (s.tile s.cur).atBarrier = true → (gangTiles s s.cur).head? = some s.cur →
      (∀ m ∈ gangTiles s s.cur, (s.tile m).atBarrier = true ∧ sameGang s s.cur m = true) →
      ∃ t, exec .gangBarrierComplete s = .next t ∧ ((gangTiles s s.cur).Nodup → ∀ m ∈ gangTiles s s.cur,
        ∀ q r i, (s.tile m).matrix.queue = q :: r → q.who = .img i → i < 8 → (t.tile m).matrix.queue = r
          ∧ (t.tile m).matrix.gangNext.getLsbD i = ((s.tile m).matrix.gangNext.getLsbD i || !(r.any fun x => x.who = q.who))
          ∧ ((t.tile m).task (.img i)).d = (((s.tile m).task (.img i)).lower q.lower).d))
  ∧ (∀ (m : Matrix) (mac i : Nat) (v : BitVec 48), (m.setAcc mac i v).accAt mac i = v
      ∧ ∀ mac' i', (mac', i' % 8192) ≠ (mac, i % 8192) → mac' < 2 → mac < 2 → (m.setAcc mac i v).accAt mac' i' = m.accAt mac' i')
  ∧ ∀ (m : Matrix) (mac e x q : Nat) (add : Bool), q < columnsOf (m.tyOfB mac) * m.groupsK → columnsOf (m.tyOfB mac) * m.groupsK ≤ 8192 →
      let n := columnsOf (m.tyOfB mac)
      let p := BitVec.ofInt 48 (m.partial_ mac e (q / n) (q % n))
      (m.rowPass mac e x add).accAt mac (x + q) = if add then m.accAt mac (x + q) + p else p

/-! ### Pairs and evictions at work -/

/-! ### From outside -/

/-- What comes from outside completes: package reset, boot with a bad signature, which leaves the tiles in reset, or with a good one, which
fences the failing tiles, sets svec and defines the supervisor husk where its place allows it, freeze and its end, the alarm; a
certificate, which returns the nonce last sent to its session, a handover, a renewal and the lapse of a lease; the binding of a tenant
session, asked for by the owner alone; a host's read, write and atomic through
a window that allows them, and its error through none; a launch submitted, an object loaded, a report (spec/03 R30, spec/02 R27 to R29,
R397, spec/20 R370 to R377, spec/21 R392). The formats, the nonces and the timer are free values, and what package reset keeps is the
model's reading (logs 28, 29); so is what a certificate does while a session owns the package, and that a handover keeps the lease and may
name a session that has presented nothing (log 37). -/
def Obligations.OutsideEventsComplete : Prop :=
  (∀ s : State, exec .packageReset s = .next (resetPackage s) ∧ exec .freeze s = .next { s with frozen := true }
    ∧ exec .freezeRestart s = .next { s with frozen := false }
    ∧ exec .railThermalAlarm s = .next { s with frozen := true, alarm := true, outbox := s.outbox ++ [.alarm] }
    ∧ exec .leaseLapse s = .next { s with owner := none, lease := 0 })
  ∧ (∀ (b : BootImage) (s : State), ∃ t, exec (.boot b) s = .next t
      ∧ (Config.sm2Valid Config.bootKey (digestBytes (sm3 b.acorn)) b.signature = false → t.powered = false)
      ∧ (Config.sm2Valid Config.bootKey (digestBytes (sm3 b.acorn)) b.signature = true → t.powered = true
        ∧ t.acornDigest = sm3 b.acorn ∧ (∀ k, k < numTiles → (t.tile k).svec = b.svec)
        ∧ (∀ k ∈ b.failing, k < numTiles → Sparse.get false t.fenced k = true)
        ∧ (let h : Husk := { col0 := b.col0, row0 := b.row0, width := b.width, height := b.height }
          (leavesMesh h.col0 h.row0 h.width h.height || hasFenced t h || !imageFits b) = false → t.husk 0 = some h)))
  ∧ (∀ (m : Certificate) (s : State),
      let s1 := (openControl s m.session).freeVal
      let known := certify (giveNonce s1.2 m.session) m.session m.key
      exec (.ownerCertificate m) s = .next (if s1.2.isControl m.session then
        (if certificateOk s1.2 m s1.1.toNat then (if s.owner.isNone then { known with owner := some m.session, lease := m.lease } else known)
          else giveNonce s1.2 m.session) else s1.2))
  ∧ (∀ (m : Certificate) (s : State) (id now : Nat),
      ((∀ x, s.session m.session = some x → x.nonce = m.nonce → x.nonce.length ≠ 16) → certificateOk s m now = false)
      ∧ ∃ bs, bs.length = 16 ∧ (giveNonce s id).outbox = s.outbox ++ [.nonce id bs]
        ∧ ∀ x ∈ (giveNonce s id).sessions, x.id = id → x.nonce = bs)
  ∧ (∀ (m : OwnerMessage) (s : State),
      exec (.ownershipHandover m) s = .next (if ownerSigned s m (Config.handoverBytes m.target) && (openControl s m.target).isControl m.target
        then { openControl s m.target with owner := some m.target } else s)
      ∧ exec (.leaseRenewal m) s = .next (if ownerSigned s m (Config.renewalBytes m.lease) && decide (1 ≤ m.lease)
        && decide (m.lease ≤ 3600) then { s with lease := m.lease } else s))
  ∧ (∀ (b : BindRequest) (n : Nat) (s : State), s.owner ≠ some b.asker → exec (.tenantSessionBind b n) s = .next s)
  ∧ (∀ (b : BindRequest) (n : Nat) (s : State),
      let rest := s.sessions.filter fun (x : Session) => x.id != b.session
      s.owner = some b.asker → n ≠ 0 → n < 256 → s.isControl b.session = false →
      (rest.filter fun (x : Session) => x.tenant.isSome).length < 512 →
      exec (.tenantSessionBind b n) s = .next { s with sessions := rest ++ [{ id := b.session, tenant := some n }] })
  ∧ (∀ (r : HostAccess) (s : State),
      let error : Host.Outcome State Fault Refusal := .next (s.out (.error r.session))
      (windowAddr s r.session r.tenant r.window r.offset r.len = none → exec (.hostRead r) s = error)
      ∧ (windowAddr s r.session r.tenant r.window r.offset r.data.length = none → exec (.hostWrite r) s = error)
      ∧ ∀ x a,
        (windowAddr s r.session r.tenant r.window r.offset r.len = some (x, a) → (x.rd = false → exec (.hostRead r) s = error)
          ∧ (∀ s1 ps, x.rd = true → regionOf x.base = 0x10 → farParts s r.tenant a r.len (·.rd) = (s1, some ps) →
            (ps.any fun e => s1.farBad e.1 e.2) = false →
            exec (.hostRead r) s = .next (s1.out (.readDone r.session (ps.map fun e => getBytes s1 e.1 e.2).flatten)))
          ∧ ∀ h ps, x.rd = true → regionOf x.base = 0x00 → reachHusk s r.tenant = .perform h → sramParts h a r.len = some ps →
            (ps.any fun e => s.consumesBad e.1 e.2.1 e.2.2) = false →
            let q := ps.foldl (fun (q : State × List Byte) e =>
              let s := q.1.correct e.1 (e.2.1 / 8 * 8) 1
              ((readSlice s e.1 e.2.1 e.2.2).1, q.2 ++ bytesOf (readSlice s e.1 e.2.1 e.2.2).2 e.2.2)) (s, [])
            exec (.hostRead r) s = .next (q.1.out (.readDone r.session q.2)))
        ∧ (windowAddr s r.session r.tenant r.window r.offset r.data.length = some (x, a) →
          (x.wr = false → exec (.hostWrite r) s = error)
          ∧ (∀ s1 ps, x.wr = true → regionOf x.base = 0x10 → farParts s r.tenant a r.data.length (·.wr) = (s1, some ps) →
            (ps.any fun e => s1.farPartBad e.1 e.2) = false →
            exec (.hostWrite r) s = .next (((ps.zip (cutBytes r.data (ps.map (·.2)))).foldl (fun s e => s.putFar e.1.1 e.2) s1).out
              (.done r.session)))
          ∧ ∀ h ps, x.wr = true → regionOf x.base = 0x00 → reachHusk s r.tenant = .perform h → sramParts h a r.data.length = some ps →
            ((ps.any fun e => (s.tile e.1).touches (fun y => y.stamped || y.boost) e.2.1 e.2.2) = true → exec (.hostWrite r) s = error)
            ∧ ((ps.any fun e => (s.tile e.1).touches (fun y => y.stamped || y.boost) e.2.1 e.2.2) = false →
              (ps.any fun e => decide (e.2.2 < 8) && s.consumesBad e.1 e.2.1 e.2.2) = false →
              exec (.hostWrite r) s = .next (((ps.zip (cutBytes r.data (ps.map (·.2.2)))).foldl (fun s e =>
                (if e.1.2.2 < 8 then s.correct e.1.1 (e.1.2.1 / 8 * 8) 1 else s).putSlice e.1.1 e.1.2.1 e.2) s).out
                (.done r.session)))))
  ∧ (∀ (r : HostAtomicReq) (s s1 : State) (x : HostWin) (a key k : Nat),
      windowAddr s r.session r.tenant r.window r.offset (r.n / 8) = some (x, a) → x.rd = true → x.wr = true → regionOf x.base = 0x10 →
      (r.n = 32 ∨ r.n = 64) → a % (r.n / 8) = 0 →
      farParts s r.tenant a (r.n / 8) (fun l => l.sa && l.rd && l.wr) = (s1, some [(key, k)]) → s1.farBad key (r.n / 8) = false →
      let old := getNat s1 key (r.n / 8)
      exec (.hostAtomic r) s = .next ((s1.putFar key (bytesOf (amoNew r.op r.n old r.v.toNat r.cmp.toNat) (r.n / 8))).out
        (.atomicDone r.session (BitVec.ofNat 64 old))))
  ∧ (∀ (r : HostSubmit) (s s1 : State) (x : HostWin) (a t off : Nat) (h : Husk) (v : Word),
      windowAddr s r.session r.tenant r.window r.offset 128 = some (x, a) →
      ((s.session r.session).any fun (x : Session) => x.tenant == some r.tenant) = true → regionOf x.base = 0x00 → a % 64 = 0 →
      r.queue < 16 → reachHusk s r.tenant = .perform h → windowTile h a = some (t, off) → off + 128 ≤ 2 ^ 21 →
      s.consumesBad t off 128 = false →
      let c := s.correct t off 16
      off + recLen (recGroups c t off) ≤ 2 ^ 21 → (c.tile t).inCtx off (recLen (recGroups c t off)) = false →
      recField c t off 0x26 1 = r.queue → acceptLaunch c r.tenant t off (BitVec.ofNat 64 a) = some (s1, v) → field v 63 48 ≠ 0 →
      recField s1 t off 0x40 8 / 2 ^ 60 % 16 ≠ 4 → exec (.hostLaunchSubmit r) s = .next (s1.out (.handle r.session v)))
  ∧ (∀ (o : ObjectFile) (s : State) (h : Husk), s.husk o.tenant = some h → mayReach s o.session o.tenant = true → h.st = .running →
      hasLaunch s o.tenant h = false → o.lines.length ≤ 1024 → 0x8000 + o.data.length ≤ 2 ^ 21 →
      (o.data.length != 0 && (s.tile (h.tileAt 0 0)).inCtx 0x8000 o.data.length) = false →
      (o.data.length != 0 && (s.tile (h.tileAt 0 0)).touches (fun y => y.stamped || y.boost) 0x8000 o.data.length) = false →
      s.consumesBad (h.tileAt 0 0) (0x8000 + o.data.length / 8 * 8) (o.data.length % 8) = false →
      exec (.objectLoad o) s = .next (((putText (s.correct (h.tileAt 0 0) (0x8000 + o.data.length / 8 * 8) (min 1 (o.data.length % 8)))
        h o.lines).putSlice (h.tileAt 0 0) 0x8000 o.data).out (.done o.session)))
  ∧ ∀ (id : Nat) (nonce : List Byte) (s : State),
      let fenced := (s.fenced.filter (·.2)).map (·.1)
      let husks := s.husks.filterMap fun e => e.2.map fun h => (e.1, h.col0, h.row0, h.width, h.height)
      exec (.attestationReport id nonce) s = .next (s.out (.report id nonce s.acornDigest s.supDigest (s.ownerSlot.getD 0) fenced husks
        (Config.sm2Sign (digestBytes (sm3 (Config.reportBytes nonce s.acornDigest s.supDigest (s.ownerSlot.getD 0) fenced husks))))))

/-! ### The step, decoding and reset -/

/-- A step runs the decoded instruction. Where core `t`'s next instruction is the one move that there is and its line stands open, the
step is `exec` of the instruction of the word at the PC, at the state with the core noted; where a plain stream (no follower and no leader
of a forwarded gang) enters its line, whose statuses are in, which has under PX nothing outstanding that can fault, and of which no older
version is buffered, and its checks pass, the step is `exec` at the state with the line open; a failing check is its fault, IPAR, ILLEG or
BADTGT, and a word of an unassigned major faults with ILLEG. The first member of a pair stays where it is if the second one would be held,
or would find taken what the first one takes: a pair issues whole, which is the model's reading of spec/10 R164 (log 44; spec/10 R161,
R163, R169, R182). Among several moves a choice picks one (log 1); with none, and no input, the machine stands still. That a frozen
package, or one held in reset, makes no move at all is the model's choice (log 74). -/
def Obligations.StepRunsTheDecodedInstruction : Prop :=
  (∀ (s : State) (t : Nat) (w : Who), moves exec s = [{ cur := t, i := none }] → s.inputs = [] →
    let s1 : State := { noteTurn s t with cur := t, sel := 0 }
    let u := s1.tile t
    let pc := (u.task w).pc
    let paired (s0 : State) (lb : LineBuf) (o : Host.Outcome State Fault Refusal) : Host.Outcome State Fault Refusal :=
      match o with
      | .next s' => if u.pairNext || !(s'.tile t).pairNext then .next s'
        else if pairTakes exec s0 s' t w lb then .next (s0.modTile t fun u => { u with cyc := u.cyc + 1, held := true })
        else .next ((pairWait exec s0 t w lb).getD s')
      | o => o
    u.active = some w →
    (∀ lb, u.line = some lb → lb.entered = true → lb.no = pc.toNat / 8 →
      (∀ i, decodeWord (lb.line.slot (pc.toNat % 8)) = .ok i → step s = paired s1 lb (exec i s1))
      ∧ ∀ e, decodeWord (lb.line.slot (pc.toNat % 8)) = .error e → step s = paired s1 lb (.next (unassigned s1 t w)))
    ∧ (u.line = none → u.stale = [] → u.noStatus w = true → u.pxHolds w = false → u.following w = false →
        (∀ j, w = .img j → (u.task w).fwd = false) →
      let l := istoreLine s1 t (pc.toNat / 8)
      let lb : LineBuf := { no := pc.toNat / 8, line := l, entered := true }
      let s2 := s1.modTile t fun u => { u with line := some lb, checkTo := false }
      (l.parityOk = false → step s = .next (trapNow s1 t w .ipar 0 pc false false false false))
      ∧ (l.parityOk = true → l.shapeOk = false → step s = .next (trapNow s1 t w .illeg 0 pc false false false false))
      ∧ (l.parityOk = true → l.shapeOk = true → u.checkTo = true → l.tgt (pc.toNat % 8) = false →
        step s = .next (trapNow s1 t w .badtgt pc pc false false false false))
      ∧ (l.parityOk = true → l.shapeOk = true → (u.checkTo = false ∨ l.tgt (pc.toNat % 8) = true) →
        (∀ i, decodeWord (l.slot (pc.toNat % 8)) = .ok i → step s = paired s2 lb (exec i s2))
        ∧ ∀ e, decodeWord (l.slot (pc.toNat % 8)) = .error e → step s = paired s2 lb (.next (unassigned s2 t w)))))
  ∧ (∀ (s : State) (t : Nat) (w : Who), let u := s.tile t
      let k := u.task w
      (u.pxHolds w = true → unassigned s t w = holdTask s t w none)
      ∧ (u.pxHolds w = false →
        (∀ l, lateHere k k.late u.atLine 0 [] false false = some l → unassigned s t w = takeLate s t w l)
        ∧ (lateHere k k.late u.atLine 0 [] false false = none →
          unassigned s t w = trapNow s t w .illeg 0 k.pc false false false false)))
  ∧ (∀ (s : State) (m : Move) (r : List Move), moves exec s = m :: r → r ≠ [] → s.inputs = [] →
      ∃ n ∈ m :: r, step s = take exec n s.choose.2)
  ∧ (∀ (s : State) (n : Move), moves exec s = [n] → s.inputs = [] → step s = take exec n s)
  ∧ (∀ s : State, moves exec s = [] → s.inputs = [] → step s = .next s)
  ∧ ∀ s : State, s.frozen = true ∨ s.powered = false → moves exec s = []

/-- Words written out from the fields of spec/10 Table 5 and the majors of its Table 10 decode to the instructions that they stand for:
a NOP, a load, a branch, a load of a stamped line, a matrix multiply; the all-ones word has no instruction (spec/10 R161, R167,
R168, R181, R182). -/
def Obligations.WordsDecodeToTheirInstructions : Prop :=
  decodeWord 0x000000000000000000770000 = .ok (.nop (fieldsOf 0x000000000000000000770000))
  ∧ decodeWord 0x000001000000504600070090 = .ok (.ld
      { minor := 0, stall := 0, pred := 7, neg := false, setc := 0, wait := 0, scope := 0, ty := Ty.ofCode 6, dest := 4, a := 5, b := 0
        c := 0, imm := 16 })
  ∧ decodeWord 0x000000200000000000710040 = .ok (.br
      { minor := 0, stall := 0, pred := 1, neg := false, setc := 7, wait := 0, scope := 0, ty := Ty.ofCode 0, dest := 0, a := 0, b := 0
        c := 0, imm := 2 })
  ∧ decodeWord 0x0000003E00A080000007009C = .ok (.ldaW
      { minor := 0, stall := 0, pred := 7, neg := false, setc := 0, wait := 0, scope := 0, ty := Ty.ofCode 0, dest := 0, a := 8, b := 10
        c := 224, imm := 3 })
  ∧ decodeWord 0x000000000000000000170185 = .ok (.mmul
      { minor := 1, stall := 0, pred := 7, neg := false, setc := 1, wait := 0, scope := 0, ty := Ty.ofCode 0, dest := 0, a := 0, b := 0
        c := 0, imm := 0 })
  ∧ decodeWord 0xFFFFFFFFFFFFFFFFFFFFFFFF = .error (.unassigned 0xFF)

/-- Encoding and decoding agree: every well-formed instruction decodes from its word to itself, with every value that its fields may
hold, and a word that decodes is the word of its instruction, so that no bit of an encoding is dropped (spec/10 R161, R167,
R168, R181). -/
def Obligations.DecodeOfEncodeIsTheInstruction : Prop :=
  (∀ (i : Instr) (w : InstrWord), i.wellFormed = true → encode i = some w → decodeWord w = .ok i)
  ∧ ∀ (i : Instr) (w : InstrWord), decodeWord w = .ok i → encode i = some w

/-- Every step keeps the byte memory in its canonical form: keys rising below the end of the map, no byte listed that reads as an
unlisted one does. -/
def Obligations.StepKeepsTheMemoryCanonical : Prop :=
  ∀ s t : State, s.memOk = true → step s = .next t → t.memOk = true

/-- Reset: every byte of the package reads zero, every word is full and readable, no line is stamped, nothing runs and no husk is
defined (spec/03 R30; far memory by log 2); every register that the spec gives no reset value is zero (log 3). A tile reset zeroes a
tile's slice and instruction store, leaves every other byte, and empties what R30 lists; svec, slice and ctxbase stay. -/
def Obligations.ResetLeavesTheStatedValues : Prop :=
  (State.reset.memOk = true ∧ (∀ k, getByte State.reset k = 0)
    ∧ (∀ t off, State.reset.isEmpty t off = false ∧ State.reset.eccOf t off = .good ∧ State.reset.sideOf t off = none)
    ∧ (∀ n, State.reset.husk n = none) ∧ (∀ t, State.reset.tile t = {}) ∧ State.reset.net = [] ∧ State.reset.cohorts = [])
  ∧ ∀ (s : State) (t : Nat), t < numTiles →
    let u := (resetTile s t).tile t
    (∀ o, o < 2 ^ 21 → getByte (resetTile s t) (sliceKey t o) = 0) ∧ (∀ o, o < 2 ^ 16 → getByte (resetTile s t) (istoreKey t o) = 0)
    ∧ (∀ t' o, t' ≠ t → t' < numTiles → o < 2 ^ 21 → getByte (resetTile s t) (sliceKey t' o) = getByte s (sliceKey t' o))
    ∧ (∀ o, o < 2 ^ 21 → (resetTile s t).isEmpty t o = false ∧ (resetTile s t).eccOf t o = .good ∧ (resetTile s t).sideOf t o = none
      ∧ Sparse.get false (resetTile s t).marked (lineKey t o) = false)
    ∧ u.waiters = [] ∧ u.attr = [] ∧ u.images = [] ∧ u.ready = [] ∧ u.l1q = [] ∧ u.l1 = none ∧ u.hnd = none ∧ u.cur0 = none
    ∧ u.wake = [] ∧ (∀ k, u.allow k = 32) ∧ u.alBind = [] ∧ u.hq = [] ∧ u.ports = [] ∧ u.cong = 0 ∧ u.occ = 0 ∧ u.matrix = {}
    ∧ u.locks = [] ∧ u.commut = [] ∧ u.abort = none ∧ u.pairing = none ∧ u.tvec = 0 ∧ u.cyc = 0
    ∧ u.svec = (s.tile t).svec ∧ u.slice = (s.tile t).slice ∧ u.ctxbase = (s.tile t).ctxbase
    ∧ ∀ t', t' ≠ t → (resetTile s t).tile t' = s.tile t'

/-! ### Guards, waits, checks -/

/-- A guard-false instruction, its wait mask clear and no late fault due, retires with one beat and nothing else: memory, general and
block registers, predicates, counters and flags stay, the PC goes to the next slot, whatever its fields or its level (spec/10 R170), once,
where a gang may leave its line there, the statuses of the member's accesses are in (spec/06 R102). Its guard raises no fault, also where
its predicate has a pending write under SCHK, of which R179 speaks (the model's choice, log 116). A guard-true instruction that reads a
pending result under SCHK raises STALL, under PX at itself (R179). An instruction whose wait mask names a counter that is not zero does
not issue (R178), and under PX none does while what was issued before can fault (spec/04 R67). A guard-true instruction that fails a check
of its fields, of the binding of a queue port, of its level or its mode raises ILLEG or PRIV and has no effect of its own, the mode being
judged last (R169, R171, spec/15 R286). -/
def Obligations.GuardsWaitsAndChecksComeFirst : Prop :=
  (∀ (s : State) (w : Who) (i : Instr) (m : Form) (f : Fields),
    i.form? = some m → i.word?.map (·.2) = some f → (s.tile s.cur).active = some w →
    ((s.tile s.cur).pxHolds w = true → exec i s = .next (holdTask s s.cur w none))
    ∧ ((s.tile s.cur).pxHolds w = false → guardOfStream (s.tile s.cur) w i f = some false →
      lateAtIssue s s.cur w i m f false = none → arrayAtIssue s s.cur w i f false = none →
      (((s.tile s.cur).task w).maskClear (waitMaskOf (s.tile s.cur) w f) = false →
        exec i s = .next (holdTask s s.cur w (some (.counters (waitMaskOf (s.tile s.cur) w f)))))
      ∧ (((s.tile s.cur).task w).maskClear (waitMaskOf (s.tile s.cur) w f) = true →
        (((s.tile s.cur).task w).mwo && decide (256 ≤ ((s.tile s.cur).task w).mcnt)) = false →
        (leavesGangLine ((s.tile s.cur).task w) w i && (s.tile s.cur).out.any fun o => o.who = w && o.status) = false →
        exec i s = .next (retire s s.cur w f 1 ((s.tile s.cur).task w).mwo false .next)
        ∧ (((s.tile s.cur).task w).fwd = false →
          ∃ t, exec i s = .next t ∧ t.mem = s.mem ∧ t.empt = s.empt ∧ t.side = s.side ∧ t.net = s.net
            ∧ (∀ k, k ≠ s.cur → t.tile k = s.tile k)
            ∧ let a := (s.tile s.cur).task w
              let b := (t.tile s.cur).task w
              b.g = a.g ∧ b.w = a.w ∧ b.p = a.p ∧ b.d = a.d ∧ b.sticky = a.sticky ∧ b.it = a.it ∧ b.ret = a.ret
                ∧ b.pc = nextPc a.pc))))
  ∧ ∀ (s : State) (w : Who) (i : Instr) (m : Form) (f : Fields),
    i.form? = some m → i.word?.map (·.2) = some f → (s.tile s.cur).active = some w → s.cur < numTiles →
    guardOfStream (s.tile s.cur) w i f = some true →
    lateAtIssue s s.cur w i m f true = none → arrayAtIssue s s.cur w i f true = none → (s.tile s.cur).pxHolds w = false →
    (((s.tile s.cur).task w).maskClear (waitMaskOf (s.tile s.cur) w f) = false →
      exec i s = .next (holdTask s s.cur w (some (.counters (waitMaskOf (s.tile s.cur) w f)))))
    ∧ (((s.tile s.cur).task w).maskClear (waitMaskOf (s.tile s.cur) w f) = true →
    (((s.tile s.cur).task w).mwo && decide (256 ≤ ((s.tile s.cur).task w).mcnt)) = false →
    (leavesGangLine ((s.tile s.cur).task w) w i && (s.tile s.cur).out.any fun o => o.who = w && o.status) = false →
    (pairCloses i (readReg s s.cur w f.a.toNat) && (s.tile s.cur).pairOpen) = false →
    let raise (c : Cause) (a : Word) : Host.Outcome State Fault Refusal :=
      .next (trapNow s s.cur w c a ((s.tile s.cur).task w).pc false false false false)
    let pops : Bool := (m.sources f).all fun r => r < 0x40 || 0x4F < r || (s.tile s.cur).popBound w (r - 0x40)
    let pushes : Bool := match m.dest with
      | .wr => f.dest.toNat < 0x40 || 0x4F < f.dest.toNat || (s.tile s.cur).pushBound w (f.dest.toNat - 0x40)
      | _ => true
    (decodeChecks s s.cur w i m f = .ok () → issueHolds s s.cur w i m f = .ok () → (s.tile s.cur).stalls w i m f = true →
      ((s.tile s.cur).task w).px = true → exec i s = raise .stall ((s.tile s.cur).task w).pc)
    ∧ ((i.setsOk && m.fieldsOk f) = false → exec i s = raise .illeg 0)
    ∧ ((i.setsOk && m.fieldsOk f) = true → (pops && pushes) = false → exec i s = raise .illeg 0)
    ∧ ((i.setsOk && m.fieldsOk f) = true → (pops && pushes) = true →
      ∀ j, w = .img j → (m.noHnd && ((s.tile s.cur).task w).hnd) = false → m.priv = true →
      ((s.tile s.cur).task w).sup = false → exec i s = raise .priv ((s.tile s.cur).openAddr s.cur))
    ∧ ((i.setsOk && m.fieldsOk f) = true → w = .lvl1 → (m.level0Only f || m.lvl0) = true → exec i s = raise .illeg 0)
    ∧ ((i.setsOk && m.fieldsOk f) = true → w = .hnd → (m.level0Only f || m.lvl0) = true → exec i s = raise .illeg 0))

/-! ### Taking a trap -/

/-- A trap of a task enters its handler: EPC takes the saved PC, ESTAT the task's tstat with its masked window closed, ECAUSE the cause,
EADDR the address where the cause has one; the handler frame is zero but for g1 and g2, its tstat is a handler's, at level 1, in
supervisor mode where the trap goes to the supervisor vector, RM and the other modes clear, and its PC is the vector's; the task keeps
its registers, what was readable at a later cycle being written (spec/18 R333, R335, R338). A chosen vector without EN kills the husk
(R333). A handler's own trap is a nested entry to its own vector: the cause, the address, NEST and HEPC change, and g1 and g2; with NEST
set, or without EN, the husk is killed (R337). -/
def Obligations.TrapsEnterTheirHandler : Prop :=
  (∀ (s : State) (t : Nat) (w : Who) (c : Cause) (epc addr : Word) (late fdrop note sup : Bool), w ≠ .hnd →
    (s.tile t).active = some w →
    let u := s.tile t
    let supr := causeRouteS c || sup || (u.task w).sup || !bit u.tvec 63
    let vec := if supr then u.svec else u.tvec
    (∀ p, u.pairing = some p → p.mate ≠ t) →
    (bit vec 63 = false → takeTrap s t c epc addr late fdrop note sup = eccuKill s t)
    ∧ (bit vec 63 = true →
      let v := (takeTrap s t c epc addr late fdrop note sup).tile t
      let k := u.flush.task w
      v.active = some .hnd ∧ (v.task w).pc = epc ∧ (v.task w).g = k.g ∧ (v.task w).w = k.w ∧ (v.task w).p = k.p ∧ (v.task w).d = k.d
      ∧ ∃ h, v.hnd = some h ∧ h.epc = epc ∧ h.estat = closeWindow k.tstat ∧ h.of_ = w
        ∧ h.ecause = ecauseWord c late fdrop note supr false ∧ (causeOpen c = false → h.eaddr = addr)
        ∧ h.task.pc = vec &&& 0x1FFF ∧ h.task.getG 1 = h.ecause ∧ h.task.getG 2 = h.eaddr ∧ (∀ r, r ≠ 1 → r ≠ 2 → h.task.getG r = 0)
        ∧ h.task.p = 0 ∧ h.task.d = [] ∧ h.task.w = [] ∧ h.task.it = k.it ∧ h.task.ret = 0 ∧ h.task.sticky = 0
        ∧ h.task.hnd = true ∧ h.task.lvl = true ∧ h.task.sup = supr ∧ h.task.det = k.det ∧ h.task.bst = k.bst
        ∧ h.task.rm = 0 ∧ h.task.px = false ∧ h.task.schk = false ∧ h.task.mwo = false))
  ∧ ∀ (s : State) (t : Nat) (h : Handler) (c : Cause) (epc addr : Word) (late fdrop note sup : Bool), (s.tile t).hnd = some h →
    (s.tile t).pend = [] → (s.tile t).reduction = none → (s.tile t).pairing = none →
    let vec := if bit h.ecause 12 then (s.tile t).svec else (s.tile t).tvec
    ((bit h.ecause 8 = true ∨ bit vec 63 = false) → takeTrap s t c epc addr late fdrop note sup = eccuKill s t)
    ∧ (bit h.ecause 8 = false → bit vec 63 = true →
      ∃ g, ((takeTrap s t c epc addr late fdrop note sup).tile t).hnd = some g ∧ g.epc = h.epc ∧ g.estat = h.estat ∧ g.of_ = h.of_
        ∧ g.hepc = epc ∧ field g.ecause 7 0 = causeCode c ∧ bit g.ecause 8 = true ∧ (causeOpen c = false → g.eaddr = addr)
        ∧ g.task.pc = vec &&& 0x1FFF ∧ g.task.getG 1 = g.ecause ∧ g.task.getG 2 = g.eaddr
        ∧ (∀ r, r ≠ 1 → r ≠ 2 → g.task.getG r = h.task.getG r) ∧ g.task.p = h.task.p ∧ g.task.d = h.task.d ∧ g.task.tstat = h.task.tstat)

/-! ### Results -/

/-- What an instruction of fixed latency changes: nothing but the PC, its counters and the list of results that are to become readable,
so that memory, every other tile and every register stay (spec/10 R175, R176). A result becomes readable at its cycle, and then its
writes are made, its flags merged into sticky by OR and its set counter lowered (R176, R178, spec/11 R188). A write of a general or
block register is read back and leaves the others; g0 and p7 discard theirs; a write of tstat changes RM, PX and SCHK alone, one of
sticky its eight flags (spec/10 R171, spec/18 R338, spec/11 R187). -/
def Obligations.ResultsAreWrittenAndNothingElse : Prop :=
  (∀ (s : State) (x : In) (m : Form) (l : Nat) (ws : List (Nat × Word)) (fl : Nat), (s.tile x.t).active = some x.w →
    ((s.tile x.t).task x.w).fwd = false → ((s.tile x.t).task x.w).mwo = false → (s.tile x.t).pairing = none →
    let t := retired s x m (emit s x l ws fl) .next
    let a := (s.tile x.t).task x.w
    let b := (t.tile x.t).task x.w
    t.mem = s.mem ∧ t.empt = s.empt ∧ t.ecc = s.ecc ∧ t.side = s.side ∧ t.net = s.net ∧ t.husks = s.husks
    ∧ (∀ k, k ≠ x.t → t.tile k = s.tile k)
    ∧ b.g = a.g ∧ b.w = a.w ∧ b.p = a.p ∧ b.sticky = a.sticky ∧ b.tstat = a.tstat ∧ b.it = a.it ∧ b.ret = a.ret
    ∧ b.gid = a.gid ∧ b.lid = a.lid ∧ b.pc = nextPc a.pc ∧ b.d = (a.raise x.f.setc.toNat).d
    ∧ (t.tile x.t).pend = (s.tile x.t).pend ++ [{ due := (s.tile x.t).cyc + l, seq := x.seq, writes := realWrites ws
                                                  flags := fl, lower := x.f.setc.toNat }])
  ∧ (∀ (s : State) (w : Who) (p : Pend), (s.tile s.cur).active = some w → (s.tile s.cur).duePend = some p →
      exec .fixedLatencyResultWrite s = .next (s.setTile s.cur (({ s.tile s.cur with
        pend := eraseFirst (· == p) (s.tile s.cur).pend } : Tile).commit w p)))
  ∧ (∀ (u : Tile) (w : Who) (p : Pend), u.active = some w →
      ((u.commit w p).task w) = (u.task w).result p.writes p.flags p.lower)
  ∧ (∀ (s : State) (w : Who) (v : Word), (s.tile s.cur).active = some w →
      exec (.tstatWrite v) s = .next (s.modTile s.cur fun u => u.modTask w fun k => writeTask k 0x6E v)
      ∧ ((s.tile s.cur).pend.all (fun p => p.flags = 0) = true → (s.tile s.cur).flagsOpen w = false →
        exec (.stickyWrite v) s = .next (s.modTile s.cur fun u => u.modTask w fun k => writeTask k 0x6F v)))
  ∧ ∀ (k : Task) (v : Word),
    (∀ r, 1 ≤ r → r < 64 → (writeTask k r v).getG r = v ∧ (∀ j, j ≠ r → (writeTask k r v).getG j = k.getG j)
      ∧ (writeTask k r v).w = k.w ∧ (writeTask k r v).p = k.p)
    ∧ (∀ r, (writeTask k (0x100 + r) v).getW r = v ∧ (∀ j, j ≠ r → (writeTask k (0x100 + r) v).getW j = k.getW j)
      ∧ (writeTask k (0x100 + r) v).g = k.g)
    ∧ (∀ r, r < 7 → (writeTask k (0x60 + r) v).getP r = bit v 0 ∧ ∀ j, j ≠ r → j < 7 → (writeTask k (0x60 + r) v).getP j = k.getP j)
    ∧ writeTask k 0 v = k ∧ writeTask k 0x67 v = k ∧ k.getG 0 = 0 ∧ k.getP 7 = true
    ∧ (let j := writeTask k 0x6E v
      j.rm = field v 1 0 ∧ j.px = bit v 2 ∧ j.schk = bit v 3 ∧ j.sup = k.sup ∧ j.lvl = k.lvl ∧ j.hnd = k.hnd ∧ j.mwo = k.mwo
      ∧ j.mcnt = k.mcnt)
    ∧ (writeTask k 0x6F v).sticky = v &&& 0xFF
    ∧ ∀ fl, (k.orFlags fl).sticky = k.sticky ||| BitVec.ofNat 64 (fl % 256)

/-! ### Completion, form by form -/

/-- Every one of these forms completes: `exec` answers the next state of its own effect. FENCE and FENCE.ack once what they wait for is
acknowledged (spec/06 R128); PAIR of a task that may pair, with its answer of 0, 1 or 2, and UNPAIR (spec/19 R365, R366); DIGEST.clr
(R364). And these events: an atomic, a full/empty access, a stamped store, an LDA and an AGEQ at their home (spec/06 R102, R117, R122,
spec/05 R75, R76, R92), a message (spec/15 R280), an ordered flag (spec/04 R68), the four steps of an eviction and a restore (spec/18 R343,
R344). The end of a pair's interval whose follower computed what its leader did (spec/19 R358, R360): where the fingerprints agree the
remote buffer goes out, the log is cleared and memory stays; where they differ for the first time the logged words are back in memory and
the stream stands at its checkpoint. -/
def Obligations.FencesPairsDigestsEvictionsAndEventsComplete : Prop :=
  (∀ (s : State) (w : Who) (m : Form) (f : Fields) (s1 : State) (x : In),
    (Issues s w (.fence f) m f s1 x → (s1.tile x.t).owes x.w (f.scope == 4) false = false →
      exec (.fence f) s = .next (retired s1 x m s1 .next))
    ∧ (Issues s w (.fenceAck f) m f s1 x → (s1.tile x.t).owes x.w true true = false →
      exec (.fenceAck f) s = .next (retired s1 x m s1 .next))
    ∧ (∀ i n h, Issues s w (.pair f) m f s1 x → x.w = .img i → s1.huskOfTile x.t = some (n, h) →
      ((s1.tile x.t).task x.w).fwd = false → ((s1.tile x.t).ctx i).boost.active = false → (tileX x.t - h.col0) % 2 = 0 →
      tileX x.t - h.col0 + 1 < h.width →
      let busy (v : Tile) : Bool := v.pairing.isSome || v.follows.isSome || !v.ready.isEmpty || (List.range 8).any fun j => (v.ctx j).st != .free
      ∃ t, exec (.pair f) s = .next t ∧ ∃ q ∈ t.net, q.tag = x.seq ∧ q.dst = x.t ∧ q.body = .reply (.data
          [if (s1.tile x.t).pairing.isSome then 2 else if busy (s1.tile (x.t + 1)) then 1 else 0] 0)
        ∧ (t.tile x.t).pairing.isSome = ((s1.tile x.t).pairing.isSome || !busy (s1.tile (x.t + 1))))
    ∧ (Issues s w (.unpair f) m f s1 x → exec (.unpair f) s = .next (retired s1 x m
        (emit (if (s1.tile x.t).pairing.any (fun p => x.w = .img p.img) then endPair s1 x.t else s1) x 1 [] 0) .next))
    ∧ (∀ n h, Issues s w (.digestClr f) m f s1 x → (s1.tile x.t).owes x.w true true = false → s1.huskOfTile x.t = some (n, h) →
      ∃ t, exec (.digestClr f) s = .next t ∧ t.mem = s1.mem ∧ ∀ e ∈ t.marked, e.1 / 2 ^ 15 ∉ h.tiles))
  ∧ (∀ (s : State) (p : Packet) (off : Nat) (op : MemOp) (user boost : Bool), arrived s s.sel = some p → p.remote = none →
    p.body = .access off op user boost →
    let r := performAt (s.drop s.sel) p.dst off op (.core p.src p.tag 0) user boost (some (s.cidOf p.src))
    r.2 ≠ .full → r.2 ≠ .fault .eccu → r.2 ≠ .parked →
    ((∃ a n v c, op = .amo a n v c) → exec .atomicAtHome s = .next (answered r.1 p off true r.2))
    ∧ (((∃ n, op = .ldf n) ∨ (∃ n, op = .ldfe n) ∨ (∃ n v, op = .stf n v) ∨ (∃ n v, op = .stef n v) ∨ op = .setf ∨ op = .sete) →
      exec .feAccessAtHome s = .next (answered r.1 p off (opModifies op) r.2))
    ∧ ((∃ l a, op = .sta l a) → exec .stampedStoreAtHome s = .next (answered r.1 p off true r.2))
    ∧ ((∃ k a n, op = .lda k a n) → exec .ldaAtHome s = .next (answered r.1 p off false r.2))
    ∧ (op = .ageq → exec .ageqAtHome s = .next (answered r.1 p off false r.2)))
  ∧ (∀ (s : State) (p : Packet), arrived s s.sel = some p →
    (∀ m s2 ans, p.body = .message m → (s.tile p.dst).follows = none → (m.det && (s.cohortOf p.dst).any (·.det)) = false →
      deposit (occupy (s.drop s.sel) p.dst m.units) p.dst m = some (s2, ans) →
      exec .messageArrival s = .next (s2.send (mkPacket p.dst p.src p.tag none (.reply ans))))
    ∧ (∀ off n v counts user boost, p.body = .flag off n v counts user boost → p.remote = none →
      flagFault s p.dst off n v user boost = none → countsReached s p counts = true →
      exec .ofStoreArrival s = .next (applyFlag (s.drop s.sel) p)))
  ∧ (∀ (s : State) (h : Husk), s.husk s.sel = some h →
    (h.st = .stopping → (h.tiles.all fun t => (s.tile t).atStop) = true →
      ∃ t, exec .evictStopped s = .next t ∧ t.husk s.sel = some { h with st := .draining })
    ∧ (h.st = .draining → huskDrained s s.sel h = true →
      ∃ t, exec .evictDrained s = .next t ∧ t.husk s.sel = some { h with st := .saving })
    ∧ (h.st = .saving → h.job.isSome = true →
      ∃ t g, exec .evictSaved s = .next t ∧ t.husk s.sel = some g ∧ g.st = .evicted ∧ g.job = none)
    ∧ (h.st = .restoring → h.job.isSome = true → (s.saved.any fun x => x.tenant = s.sel) = true →
      ∃ t g, exec .restoreComplete s = .next t ∧ t.husk s.sel = some g ∧ g.st = .running))
  ∧ ∀ (s : State) (p : Pairing), (s.tile s.cur).canClose = true →
    let s1 := s.modTile s.cur Tile.flush
    (s1.tile s.cur).pairing = some p → p.mate ≠ s.cur → s1.choose.1 % 2 = 0 →
    (p.fp = p.mateFp → ∃ t q, exec .pairIntervalClose s = .next t ∧ t.mem = s.mem ∧ (t.tile s.cur).pairing = some q
      ∧ q.count = 0 ∧ q.log = [] ∧ q.buf = [] ∧ q.closing = false ∧ ∀ e ∈ t.egress, e.src = s.cur → e.held = false)
    ∧ (p.fp ≠ p.mateFp → p.rerun = false → ∃ t q, exec .pairIntervalClose s = .next t
      ∧ t.mem = p.log.reverse.foldl (fun m e => setBytesMem m (sliceKey s.cur e.1) (bytesOf e.2.toNat 8)) s.mem
      ∧ (t.tile s.cur).pairing = some q ∧ q.rerun = true ∧ q.log = [] ∧ q.buf = []
      ∧ ∀ i, p.at_ = .img i → ((t.tile s.cur).task (.img i)).pc = p.check.pc ∧ ((t.tile s.cur).task (.img i)).g = p.check.g)
end

