-- ==== Sys2Proof/Laws/Sparse.lean ====
section
/-!
SUPPORT. Sparse tables: what a read gives after a write, and that a write keeps the canonical form.
-/

namespace Sys2Proof

variable {α : Type}

@[simp] theorem Sparse.get_nil (d : α) (i : Nat) : Sparse.get d [] i = d := rfl

/-- A read of an inserted key. -/
theorem Sparse.get_insertSorted_same (d : α) (k : Nat) (v : α) (m : Sparse α) :
    Sparse.get d (Sparse.insertSorted k v (Sparse.erase k m)) k = v := by
  induction m with
  | nil => simp [Sparse.erase, Sparse.insertSorted, Sparse.get]
  | cons e r ih =>
    obtain ⟨j, u⟩ := e
    by_cases hj : j = k
    · simpa [Sparse.erase, hj] using ih
    · simp only [Sparse.erase, hj, if_false, Sparse.insertSorted]
      split <;> simp [Sparse.get, hj, ih]

/-- A read of another key than the inserted one. -/
theorem Sparse.get_insertSorted_other (d : α) {k i : Nat} (h : i ≠ k) (v : α) (m : Sparse α) :
    Sparse.get d (Sparse.insertSorted k v m) i = Sparse.get d m i := by
  induction m with
  | nil => simp [Sparse.insertSorted, Sparse.get, Ne.symm h]
  | cons e r ih =>
    obtain ⟨j, u⟩ := e
    simp only [Sparse.insertSorted]
    split
    · simp [Sparse.get, Ne.symm h]
    · simp [Sparse.get, ih]

/-- A read of a key that is gone. -/
theorem Sparse.get_erase_same (d : α) (k : Nat) (m : Sparse α) : Sparse.get d (Sparse.erase k m) k = d := by
  induction m with
  | nil => rfl
  | cons e r ih =>
    obtain ⟨j, u⟩ := e
    by_cases hj : j = k <;> simp [Sparse.erase, Sparse.get, hj, ih]

/-- A read of a key that stays. -/
theorem Sparse.get_erase_other (d : α) {k i : Nat} (h : i ≠ k) (m : Sparse α) :
    Sparse.get d (Sparse.erase k m) i = Sparse.get d m i := by
  induction m with
  | nil => rfl
  | cons e r ih =>
    obtain ⟨j, u⟩ := e
    by_cases hj : j = k
    · subst hj
      simp [Sparse.erase, Sparse.get, Ne.symm h, ih]
    · simp [Sparse.erase, Sparse.get, hj, ih]

/-- A write is read back. -/
@[simp] theorem Sparse.get_set_same [DecidableEq α] (d : α) (m : Sparse α) (k : Nat) (v : α) :
    Sparse.get d (Sparse.set d m k v) k = v := by
  unfold Sparse.set
  split
  · next h => rw [Sparse.get_erase_same, h]
  · exact Sparse.get_insertSorted_same d k v m

/-- A write leaves every other key alone. -/
theorem Sparse.get_set_other [DecidableEq α] (d : α) (m : Sparse α) {k i : Nat} (h : i ≠ k) (v : α) :
    Sparse.get d (Sparse.set d m k v) i = Sparse.get d m i := by
  unfold Sparse.set
  split
  · exact Sparse.get_erase_other d h m
  · rw [Sparse.get_insertSorted_other d h, Sparse.get_erase_other d h]

/-- A read after a write, in one equation. -/
theorem Sparse.get_set [DecidableEq α] (d : α) (m : Sparse α) (k i : Nat) (v : α) :
    Sparse.get d (Sparse.set d m k v) i = if i = k then v else Sparse.get d m i := by
  split
  · next h => rw [h, Sparse.get_set_same]
  · next h => exact Sparse.get_set_other d m h v

/-- A read after keys have been filtered out. -/
theorem Sparse.get_filter (d : α) (m : Sparse α) (p : Nat → Bool) (i : Nat) :
    Sparse.get d (m.filter fun e => p e.1) i = if p i then Sparse.get d m i else d := by
  induction m with
  | nil => simp
  | cons e r ih =>
    obtain ⟨j, u⟩ := e
    by_cases hp : p j = true
    · simp only [List.filter_cons, hp, if_true, Sparse.get, ih]
      by_cases hj : j = i
      · simp [hj, hj ▸ hp]
      · simp [hj]
    · simp only [List.filter_cons, hp, Bool.false_eq_true, if_false, ih, Sparse.get]
      by_cases hj : j = i
      · subst hj
        simp [hp]
      · simp [hj]

/-- A cleared range reads as the default, the rest as before. -/
theorem Sparse.get_clearRange (d : α) (m : Sparse α) (a b i : Nat) :
    Sparse.get d (Sparse.clearRange m a b) i = if a ≤ i ∧ i < b then d else Sparse.get d m i := by
  have h := Sparse.get_filter d m (fun k => decide (k < a) || decide (b ≤ k)) i
  simp only [Sparse.clearRange]
  rw [h]
  by_cases ha : i < a <;> by_cases hb : b ≤ i <;> simp [ha, hb, Nat.not_le.mpr, Nat.not_lt.mp]

/-! ### The canonical form -/

variable [DecidableEq α]

/-- Every key of a canonical list is at least its bound, and the list is canonical from any lower bound. -/
theorem Sparse.wfFrom_mono {d : α} {m : Sparse α} {a b : Nat} (h : b ≤ a) (hm : Sparse.wfFrom d a m = true) :
    Sparse.wfFrom d b m = true := by
  cases m with
  | nil => rfl
  | cons e r =>
    obtain ⟨j, u⟩ := e
    simp only [Sparse.wfFrom, Bool.and_eq_true, decide_eq_true_eq] at hm ⊢
    exact ⟨⟨Nat.le_trans h hm.1.1, hm.1.2⟩, hm.2⟩

theorem Sparse.wfFrom_filter {d : α} (p : Nat × α → Bool) {m : Sparse α} : ∀ {a : Nat}, Sparse.wfFrom d a m = true →
    Sparse.wfFrom d a (m.filter p) = true := by
  induction m with
  | nil => intro a h; exact h
  | cons e r ih =>
    obtain ⟨j, u⟩ := e
    intro a hm
    simp only [Sparse.wfFrom, Bool.and_eq_true, decide_eq_true_eq] at hm
    have hr := ih hm.2
    simp only [List.filter_cons]
    split
    · simp only [Sparse.wfFrom, Bool.and_eq_true, decide_eq_true_eq]
      exact ⟨hm.1, hr⟩
    · exact Sparse.wfFrom_mono (Nat.le_succ_of_le hm.1.1) hr

theorem Sparse.wfFrom_erase {d : α} (k : Nat) {m : Sparse α} : ∀ {a : Nat}, Sparse.wfFrom d a m = true →
    Sparse.wfFrom d a (Sparse.erase k m) = true := by
  induction m with
  | nil => intro a h; exact h
  | cons e r ih =>
    obtain ⟨j, u⟩ := e
    intro a hm
    simp only [Sparse.wfFrom, Bool.and_eq_true, decide_eq_true_eq] at hm
    have hr := ih hm.2
    simp only [Sparse.erase]
    split
    · exact Sparse.wfFrom_mono (Nat.le_succ_of_le hm.1.1) hr
    · simp only [Sparse.wfFrom, Bool.and_eq_true, decide_eq_true_eq]
      exact ⟨hm.1, hr⟩

theorem Sparse.wfFrom_insertSorted {d : α} {k : Nat} {v : α} (hv : v ≠ d) {m : Sparse α} : ∀ {a : Nat}, a ≤ k →
    (∀ u, (k, u) ∉ m) → Sparse.wfFrom d a m = true → Sparse.wfFrom d a (Sparse.insertSorted k v m) = true := by
  induction m with
  | nil => intro a h _ _; simp [Sparse.insertSorted, Sparse.wfFrom, h, hv]
  | cons e r ih =>
    obtain ⟨j, u⟩ := e
    intro a ha hk hm
    simp only [Sparse.wfFrom, Bool.and_eq_true, decide_eq_true_eq] at hm
    simp only [Sparse.insertSorted]
    split
    · next hlt =>
      simp only [Sparse.wfFrom, Bool.and_eq_true, decide_eq_true_eq]
      exact ⟨⟨ha, hv⟩, ⟨by omega, hm.1.2⟩, hm.2⟩
    · next hge =>
      have hne : j ≠ k := fun h => hk u (by simp [h])
      simp only [Sparse.wfFrom, Bool.and_eq_true, decide_eq_true_eq]
      exact ⟨hm.1, ih (by omega) (fun w hw => hk w (by simp [hw])) hm.2⟩

omit [DecidableEq α] in
theorem Sparse.not_mem_erase (k : Nat) (m : Sparse α) (u : α) : (k, u) ∉ Sparse.erase k m := by
  induction m with
  | nil => simp [Sparse.erase]
  | cons e r ih =>
    obtain ⟨j, w⟩ := e
    simp only [Sparse.erase]
    split
    · exact ih
    · next h => simp [Ne.symm h, ih]

/-- A write keeps the canonical form. -/
theorem Sparse.wf_set {d : α} {m : Sparse α} (k : Nat) (v : α) (hm : Sparse.wf d m = true) :
    Sparse.wf d (Sparse.set d m k v) = true := by
  unfold Sparse.set
  split
  · exact Sparse.wfFrom_erase k hm
  · next hv => exact Sparse.wfFrom_insertSorted hv (Nat.zero_le k) (Sparse.not_mem_erase k m) (Sparse.wfFrom_erase k hm)

/-- Dropping entries keeps the canonical form. -/
theorem Sparse.wf_filter {d : α} {m : Sparse α} (p : Nat × α → Bool) (hm : Sparse.wf d m = true) :
    Sparse.wf d (m.filter p) = true := Sparse.wfFrom_filter p hm

/-- The keys of a written table are the old ones and the new one. -/
theorem Sparse.mem_set {d : α} {m : Sparse α} {k : Nat} {v : α} {e : Nat × α} (h : e ∈ Sparse.set d m k v) : e.1 = k ∨ e ∈ m := by
  have hins : ∀ m : Sparse α, e ∈ Sparse.insertSorted k v m → e = (k, v) ∨ e ∈ m := by
    intro m
    induction m with
    | nil => simp [Sparse.insertSorted]
    | cons x r ih =>
      simp only [Sparse.insertSorted]
      split
      · simp
      · simp only [List.mem_cons]
        rintro (rfl | h)
        · exact .inr (.inl rfl)
        · exact (ih h).imp id .inr
  have her : ∀ m : Sparse α, e ∈ Sparse.erase k m → e ∈ m := by
    intro m
    induction m with
    | nil => simp [Sparse.erase]
    | cons x r ih =>
      simp only [Sparse.erase]
      split
      · exact fun h => List.mem_cons_of_mem _ (ih h)
      · simp only [List.mem_cons]
        exact Or.imp_right ih
  unfold Sparse.set at h
  split at h
  · exact .inr (her m h)
  · exact (hins _ h).imp (fun h => by rw [h]) (her m)

namespace Machine

open Sys2Proof

/-! ### The byte memory -/

theorem setByteMem_wf {m : List Host.Cell} (k : Nat) (b : Byte) (h : Memory.wf m = true) : Memory.wf (setByteMem m k b) = true := by
  unfold setByteMem
  split
  · next hk =>
    simp only [Memory.wf, Bool.and_eq_true, List.all_eq_true, decide_eq_true_eq] at h ⊢
    refine ⟨Sparse.wf_set k b h.1, fun e he => ?_⟩
    rcases Sparse.mem_set he with h1 | h1
    · rw [h1]; exact hk
    · exact h.2 e h1
  · exact h

/-- Writing bytes keeps the memory canonical. -/
theorem setBytesMem_wf (bs : List Byte) : ∀ {m : List Host.Cell} (k : Nat), Memory.wf m = true →
    Memory.wf (setBytesMem m k bs) = true := by
  induction bs with
  | nil => intro m k h; exact h
  | cons b r ih => intro m k h; exact ih (k + 1) (setByteMem_wf k b h)

/-- Dropping bytes keeps the memory canonical. -/
theorem filter_wf {m : List Host.Cell} (p : Host.Cell → Bool) (h : Memory.wf m = true) : Memory.wf (m.filter p) = true := by
  simp only [Memory.wf, Bool.and_eq_true, List.all_eq_true, decide_eq_true_eq] at h ⊢
  exact ⟨Sparse.wf_filter p h.1, fun e he => h.2 e (List.mem_of_mem_filter he)⟩

theorem clearRange_wf {m : List Host.Cell} (a b : Nat) (h : Memory.wf m = true) : Memory.wf (Sparse.clearRange m a b) = true :=
  filter_wf _ h

/-- A byte after a write of one byte. -/
theorem get_setByteMem (m : List Host.Cell) (k i : Nat) (b : Byte) : Sparse.get memDefault (setByteMem m k b) i =
    if i = k ∧ k < memEnd then b else Sparse.get memDefault m i := by
  unfold setByteMem
  by_cases hk : k < memEnd
  · simp [hk, Sparse.get_set]
  · simp [hk]

/-- A byte outside the written bytes. -/
theorem get_setBytesMem_other (bs : List Byte) : ∀ (m : List Host.Cell) (k i : Nat), i < k ∨ k + bs.length ≤ i →
    Sparse.get memDefault (setBytesMem m k bs) i = Sparse.get memDefault m i := by
  induction bs with
  | nil => intro m k i _; rfl
  | cons b r ih =>
    intro m k i h
    simp only [List.length_cons] at h
    rw [setBytesMem, ih _ _ _ (by omega), get_setByteMem, if_neg (by omega)]

/-- A written byte. -/
theorem get_setBytesMem_same (bs : List Byte) : ∀ (m : List Host.Cell) (k j : Nat) (h : j < bs.length), k + j < memEnd →
    Sparse.get memDefault (setBytesMem m k bs) (k + j) = bs[j] := by
  induction bs with
  | nil => intro m k j h; simp at h
  | cons b r ih =>
    intro m k j h hk
    cases j with
    | zero =>
      rw [setBytesMem, get_setBytesMem_other _ _ _ _ (by omega), get_setByteMem]
      rw [if_pos ⟨rfl, by simpa using hk⟩]
      rfl
    | succ j =>
      have h1 : k + (j + 1) = k + 1 + j := by omega
      have h2 : j < r.length := by simpa using h
      rw [setBytesMem, h1, ih _ (k + 1) j h2 (by omega)]
      rfl

end Machine

end Sys2Proof
end

