-- ==== Sys2Proof/Laws/State.lean ====
section
/-!
SUPPORT. What each update of the state, of a tile and of a task leaves alone, field by field, and what it writes.
-/

namespace Sys2Proof.Machine

open Sys2Proof

/-! ### The state -/

@[simp] theorem State.setTile_mem (s : State) (t : Nat) (u : Tile) : (s.setTile t u).mem = s.mem := rfl
@[simp] theorem State.setTile_empt (s : State) (t : Nat) (u : Tile) : (s.setTile t u).empt = s.empt := rfl
@[simp] theorem State.setTile_ecc (s : State) (t : Nat) (u : Tile) : (s.setTile t u).ecc = s.ecc := rfl
@[simp] theorem State.setTile_farEcc (s : State) (t : Nat) (u : Tile) : (s.setTile t u).farEcc = s.farEcc := rfl
@[simp] theorem State.setTile_side (s : State) (t : Nat) (u : Tile) : (s.setTile t u).side = s.side := rfl
@[simp] theorem State.setTile_marked (s : State) (t : Nat) (u : Tile) : (s.setTile t u).marked = s.marked := rfl
@[simp] theorem State.setTile_husks (s : State) (t : Nat) (u : Tile) : (s.setTile t u).husks = s.husks := rfl
@[simp] theorem State.setTile_slots (s : State) (t : Nat) (u : Tile) : (s.setTile t u).slots = s.slots := rfl
@[simp] theorem State.setTile_lastDrained (s : State) (t : Nat) (u : Tile) : (s.setTile t u).lastDrained = s.lastDrained := rfl
@[simp] theorem State.setTile_lastMapped (s : State) (t : Nat) (u : Tile) : (s.setTile t u).lastMapped = s.lastMapped := rfl
@[simp] theorem State.setTile_lastPlaced (s : State) (t : Nat) (u : Tile) : (s.setTile t u).lastPlaced = s.lastPlaced := rfl
@[simp] theorem State.setTile_placements (s : State) (t : Nat) (u : Tile) : (s.setTile t u).placements = s.placements := rfl
@[simp] theorem State.setTile_rotations (s : State) (t : Nat) (u : Tile) : (s.setTile t u).rotations = s.rotations := rfl
@[simp] theorem State.setTile_cohorts (s : State) (t : Nat) (u : Tile) : (s.setTile t u).cohorts = s.cohorts := rfl
@[simp] theorem State.setTile_groups (s : State) (t : Nat) (u : Tile) : (s.setTile t u).groups = s.groups := rfl
@[simp] theorem State.setTile_peers (s : State) (t : Nat) (u : Tile) : (s.setTile t u).peers = s.peers := rfl
@[simp] theorem State.setTile_hostWins (s : State) (t : Nat) (u : Tile) : (s.setTile t u).hostWins = s.hostWins := rfl
@[simp] theorem State.setTile_mcs (s : State) (t : Nat) (u : Tile) : (s.setTile t u).mcs = s.mcs := rfl
@[simp] theorem State.setTile_tlb (s : State) (t : Nat) (u : Tile) : (s.setTile t u).tlb = s.tlb := rfl
@[simp] theorem State.setTile_turns (s : State) (t : Nat) (u : Tile) : (s.setTile t u).turns = s.turns := rfl
@[simp] theorem State.setTile_channels (s : State) (t : Nat) (u : Tile) : (s.setTile t u).channels = s.channels := rfl
@[simp] theorem State.setTile_net (s : State) (t : Nat) (u : Tile) : (s.setTile t u).net = s.net := rfl
@[simp] theorem State.setTile_egress (s : State) (t : Nat) (u : Tile) : (s.setTile t u).egress = s.egress := rfl
@[simp] theorem State.setTile_outbox (s : State) (t : Nat) (u : Tile) : (s.setTile t u).outbox = s.outbox := rfl
@[simp] theorem State.setTile_inputs (s : State) (t : Nat) (u : Tile) : (s.setTile t u).inputs = s.inputs := rfl
@[simp] theorem State.setTile_tagLog (s : State) (t : Nat) (u : Tile) : (s.setTile t u).tagLog = s.tagLog := rfl
@[simp] theorem State.setTile_arrivals (s : State) (t : Nat) (u : Tile) : (s.setTile t u).arrivals = s.arrivals := rfl
@[simp] theorem State.setTile_heldFlags (s : State) (t : Nat) (u : Tile) : (s.setTile t u).heldFlags = s.heldFlags := rfl
@[simp] theorem State.setTile_epochs (s : State) (t : Nat) (u : Tile) : (s.setTile t u).epochs = s.epochs := rfl
@[simp] theorem State.setTile_fenced (s : State) (t : Nat) (u : Tile) : (s.setTile t u).fenced = s.fenced := rfl
@[simp] theorem State.setTile_frozen (s : State) (t : Nat) (u : Tile) : (s.setTile t u).frozen = s.frozen := rfl
@[simp] theorem State.setTile_alarm (s : State) (t : Nat) (u : Tile) : (s.setTile t u).alarm = s.alarm := rfl
@[simp] theorem State.setTile_powered (s : State) (t : Nat) (u : Tile) : (s.setTile t u).powered = s.powered := rfl
@[simp] theorem State.setTile_chip (s : State) (t : Nat) (u : Tile) : (s.setTile t u).chip = s.chip := rfl
@[simp] theorem State.setTile_linksDown (s : State) (t : Nat) (u : Tile) : (s.setTile t u).linksDown = s.linksDown := rfl
@[simp] theorem State.setTile_cxlFrames (s : State) (t : Nat) (u : Tile) : (s.setTile t u).cxlFrames = s.cxlFrames := rfl
@[simp] theorem State.setTile_sessions (s : State) (t : Nat) (u : Tile) : (s.setTile t u).sessions = s.sessions := rfl
@[simp] theorem State.setTile_owner (s : State) (t : Nat) (u : Tile) : (s.setTile t u).owner = s.owner := rfl
@[simp] theorem State.setTile_ownerSlot (s : State) (t : Nat) (u : Tile) : (s.setTile t u).ownerSlot = s.ownerSlot := rfl
@[simp] theorem State.setTile_lease (s : State) (t : Nat) (u : Tile) : (s.setTile t u).lease = s.lease := rfl
@[simp] theorem State.setTile_acornDigest (s : State) (t : Nat) (u : Tile) : (s.setTile t u).acornDigest = s.acornDigest := rfl
@[simp] theorem State.setTile_supDigest (s : State) (t : Nat) (u : Tile) : (s.setTile t u).supDigest = s.supDigest := rfl
@[simp] theorem State.setTile_saved (s : State) (t : Nat) (u : Tile) : (s.setTile t u).saved = s.saved := rfl
@[simp] theorem State.setTile_cur (s : State) (t : Nat) (u : Tile) : (s.setTile t u).cur = s.cur := rfl
@[simp] theorem State.setTile_sel (s : State) (t : Nat) (u : Tile) : (s.setTile t u).sel = s.sel := rfl
@[simp] theorem State.setTile_schedule (s : State) (t : Nat) (u : Tile) : (s.setTile t u).schedule = s.schedule := rfl
@[simp] theorem State.setTile_ticks (s : State) (t : Nat) (u : Tile) : (s.setTile t u).ticks = s.ticks := rfl
@[simp] theorem State.setTile_fresh (s : State) (t : Nat) (u : Tile) : (s.setTile t u).fresh = s.fresh := rfl
@[simp] theorem State.setTile_nextId (s : State) (t : Nat) (u : Tile) : (s.setTile t u).nextId = s.nextId := rfl

@[simp] theorem State.setHusk_mem (s : State) (n : Nat) (h : Option Husk) : (s.setHusk n h).mem = s.mem := rfl
@[simp] theorem State.setHusk_empt (s : State) (n : Nat) (h : Option Husk) : (s.setHusk n h).empt = s.empt := rfl
@[simp] theorem State.setHusk_ecc (s : State) (n : Nat) (h : Option Husk) : (s.setHusk n h).ecc = s.ecc := rfl
@[simp] theorem State.setHusk_farEcc (s : State) (n : Nat) (h : Option Husk) : (s.setHusk n h).farEcc = s.farEcc := rfl
@[simp] theorem State.setHusk_side (s : State) (n : Nat) (h : Option Husk) : (s.setHusk n h).side = s.side := rfl
@[simp] theorem State.setHusk_marked (s : State) (n : Nat) (h : Option Husk) : (s.setHusk n h).marked = s.marked := rfl
@[simp] theorem State.setHusk_tiles (s : State) (n : Nat) (h : Option Husk) : (s.setHusk n h).tiles = s.tiles := rfl
@[simp] theorem State.setHusk_slots (s : State) (n : Nat) (h : Option Husk) : (s.setHusk n h).slots = s.slots := rfl
@[simp] theorem State.setHusk_lastDrained (s : State) (n : Nat) (h : Option Husk) : (s.setHusk n h).lastDrained = s.lastDrained := rfl
@[simp] theorem State.setHusk_lastMapped (s : State) (n : Nat) (h : Option Husk) : (s.setHusk n h).lastMapped = s.lastMapped := rfl
@[simp] theorem State.setHusk_lastPlaced (s : State) (n : Nat) (h : Option Husk) : (s.setHusk n h).lastPlaced = s.lastPlaced := rfl
@[simp] theorem State.setHusk_placements (s : State) (n : Nat) (h : Option Husk) : (s.setHusk n h).placements = s.placements := rfl
@[simp] theorem State.setHusk_rotations (s : State) (n : Nat) (h : Option Husk) : (s.setHusk n h).rotations = s.rotations := rfl
@[simp] theorem State.setHusk_cohorts (s : State) (n : Nat) (h : Option Husk) : (s.setHusk n h).cohorts = s.cohorts := rfl
@[simp] theorem State.setHusk_groups (s : State) (n : Nat) (h : Option Husk) : (s.setHusk n h).groups = s.groups := rfl
@[simp] theorem State.setHusk_peers (s : State) (n : Nat) (h : Option Husk) : (s.setHusk n h).peers = s.peers := rfl
@[simp] theorem State.setHusk_hostWins (s : State) (n : Nat) (h : Option Husk) : (s.setHusk n h).hostWins = s.hostWins := rfl
@[simp] theorem State.setHusk_mcs (s : State) (n : Nat) (h : Option Husk) : (s.setHusk n h).mcs = s.mcs := rfl
@[simp] theorem State.setHusk_tlb (s : State) (n : Nat) (h : Option Husk) : (s.setHusk n h).tlb = s.tlb := rfl
@[simp] theorem State.setHusk_turns (s : State) (n : Nat) (h : Option Husk) : (s.setHusk n h).turns = s.turns := rfl
@[simp] theorem State.setHusk_channels (s : State) (n : Nat) (h : Option Husk) : (s.setHusk n h).channels = s.channels := rfl
@[simp] theorem State.setHusk_net (s : State) (n : Nat) (h : Option Husk) : (s.setHusk n h).net = s.net := rfl
@[simp] theorem State.setHusk_egress (s : State) (n : Nat) (h : Option Husk) : (s.setHusk n h).egress = s.egress := rfl
@[simp] theorem State.setHusk_outbox (s : State) (n : Nat) (h : Option Husk) : (s.setHusk n h).outbox = s.outbox := rfl
@[simp] theorem State.setHusk_inputs (s : State) (n : Nat) (h : Option Husk) : (s.setHusk n h).inputs = s.inputs := rfl
@[simp] theorem State.setHusk_tagLog (s : State) (n : Nat) (h : Option Husk) : (s.setHusk n h).tagLog = s.tagLog := rfl
@[simp] theorem State.setHusk_arrivals (s : State) (n : Nat) (h : Option Husk) : (s.setHusk n h).arrivals = s.arrivals := rfl
@[simp] theorem State.setHusk_heldFlags (s : State) (n : Nat) (h : Option Husk) : (s.setHusk n h).heldFlags = s.heldFlags := rfl
@[simp] theorem State.setHusk_epochs (s : State) (n : Nat) (h : Option Husk) : (s.setHusk n h).epochs = s.epochs := rfl
@[simp] theorem State.setHusk_fenced (s : State) (n : Nat) (h : Option Husk) : (s.setHusk n h).fenced = s.fenced := rfl
@[simp] theorem State.setHusk_frozen (s : State) (n : Nat) (h : Option Husk) : (s.setHusk n h).frozen = s.frozen := rfl
@[simp] theorem State.setHusk_alarm (s : State) (n : Nat) (h : Option Husk) : (s.setHusk n h).alarm = s.alarm := rfl
@[simp] theorem State.setHusk_powered (s : State) (n : Nat) (h : Option Husk) : (s.setHusk n h).powered = s.powered := rfl
@[simp] theorem State.setHusk_chip (s : State) (n : Nat) (h : Option Husk) : (s.setHusk n h).chip = s.chip := rfl
@[simp] theorem State.setHusk_linksDown (s : State) (n : Nat) (h : Option Husk) : (s.setHusk n h).linksDown = s.linksDown := rfl
@[simp] theorem State.setHusk_cxlFrames (s : State) (n : Nat) (h : Option Husk) : (s.setHusk n h).cxlFrames = s.cxlFrames := rfl
@[simp] theorem State.setHusk_sessions (s : State) (n : Nat) (h : Option Husk) : (s.setHusk n h).sessions = s.sessions := rfl
@[simp] theorem State.setHusk_owner (s : State) (n : Nat) (h : Option Husk) : (s.setHusk n h).owner = s.owner := rfl
@[simp] theorem State.setHusk_ownerSlot (s : State) (n : Nat) (h : Option Husk) : (s.setHusk n h).ownerSlot = s.ownerSlot := rfl
@[simp] theorem State.setHusk_lease (s : State) (n : Nat) (h : Option Husk) : (s.setHusk n h).lease = s.lease := rfl
@[simp] theorem State.setHusk_acornDigest (s : State) (n : Nat) (h : Option Husk) : (s.setHusk n h).acornDigest = s.acornDigest := rfl
@[simp] theorem State.setHusk_supDigest (s : State) (n : Nat) (h : Option Husk) : (s.setHusk n h).supDigest = s.supDigest := rfl
@[simp] theorem State.setHusk_saved (s : State) (n : Nat) (h : Option Husk) : (s.setHusk n h).saved = s.saved := rfl
@[simp] theorem State.setHusk_cur (s : State) (n : Nat) (h : Option Husk) : (s.setHusk n h).cur = s.cur := rfl
@[simp] theorem State.setHusk_sel (s : State) (n : Nat) (h : Option Husk) : (s.setHusk n h).sel = s.sel := rfl
@[simp] theorem State.setHusk_schedule (s : State) (n : Nat) (h : Option Husk) : (s.setHusk n h).schedule = s.schedule := rfl
@[simp] theorem State.setHusk_ticks (s : State) (n : Nat) (h : Option Husk) : (s.setHusk n h).ticks = s.ticks := rfl
@[simp] theorem State.setHusk_fresh (s : State) (n : Nat) (h : Option Husk) : (s.setHusk n h).fresh = s.fresh := rfl
@[simp] theorem State.setHusk_nextId (s : State) (n : Nat) (h : Option Husk) : (s.setHusk n h).nextId = s.nextId := rfl

@[simp] theorem State.setEmpty_mem (s : State) (t off : Nat) (b : Bool) : (s.setEmpty t off b).mem = s.mem := rfl
@[simp] theorem State.setEmpty_ecc (s : State) (t off : Nat) (b : Bool) : (s.setEmpty t off b).ecc = s.ecc := rfl
@[simp] theorem State.setEmpty_farEcc (s : State) (t off : Nat) (b : Bool) : (s.setEmpty t off b).farEcc = s.farEcc := rfl
@[simp] theorem State.setEmpty_side (s : State) (t off : Nat) (b : Bool) : (s.setEmpty t off b).side = s.side := rfl
@[simp] theorem State.setEmpty_marked (s : State) (t off : Nat) (b : Bool) : (s.setEmpty t off b).marked = s.marked := rfl
@[simp] theorem State.setEmpty_tiles (s : State) (t off : Nat) (b : Bool) : (s.setEmpty t off b).tiles = s.tiles := rfl
@[simp] theorem State.setEmpty_husks (s : State) (t off : Nat) (b : Bool) : (s.setEmpty t off b).husks = s.husks := rfl
@[simp] theorem State.setEmpty_slots (s : State) (t off : Nat) (b : Bool) : (s.setEmpty t off b).slots = s.slots := rfl
@[simp] theorem State.setEmpty_lastDrained (s : State) (t off : Nat) (b : Bool) : (s.setEmpty t off b).lastDrained = s.lastDrained := rfl
@[simp] theorem State.setEmpty_lastMapped (s : State) (t off : Nat) (b : Bool) : (s.setEmpty t off b).lastMapped = s.lastMapped := rfl
@[simp] theorem State.setEmpty_lastPlaced (s : State) (t off : Nat) (b : Bool) : (s.setEmpty t off b).lastPlaced = s.lastPlaced := rfl
@[simp] theorem State.setEmpty_placements (s : State) (t off : Nat) (b : Bool) : (s.setEmpty t off b).placements = s.placements := rfl
@[simp] theorem State.setEmpty_rotations (s : State) (t off : Nat) (b : Bool) : (s.setEmpty t off b).rotations = s.rotations := rfl
@[simp] theorem State.setEmpty_cohorts (s : State) (t off : Nat) (b : Bool) : (s.setEmpty t off b).cohorts = s.cohorts := rfl
@[simp] theorem State.setEmpty_groups (s : State) (t off : Nat) (b : Bool) : (s.setEmpty t off b).groups = s.groups := rfl
@[simp] theorem State.setEmpty_peers (s : State) (t off : Nat) (b : Bool) : (s.setEmpty t off b).peers = s.peers := rfl
@[simp] theorem State.setEmpty_hostWins (s : State) (t off : Nat) (b : Bool) : (s.setEmpty t off b).hostWins = s.hostWins := rfl
@[simp] theorem State.setEmpty_mcs (s : State) (t off : Nat) (b : Bool) : (s.setEmpty t off b).mcs = s.mcs := rfl
@[simp] theorem State.setEmpty_tlb (s : State) (t off : Nat) (b : Bool) : (s.setEmpty t off b).tlb = s.tlb := rfl
@[simp] theorem State.setEmpty_turns (s : State) (t off : Nat) (b : Bool) : (s.setEmpty t off b).turns = s.turns := rfl
@[simp] theorem State.setEmpty_channels (s : State) (t off : Nat) (b : Bool) : (s.setEmpty t off b).channels = s.channels := rfl
@[simp] theorem State.setEmpty_net (s : State) (t off : Nat) (b : Bool) : (s.setEmpty t off b).net = s.net := rfl
@[simp] theorem State.setEmpty_egress (s : State) (t off : Nat) (b : Bool) : (s.setEmpty t off b).egress = s.egress := rfl
@[simp] theorem State.setEmpty_outbox (s : State) (t off : Nat) (b : Bool) : (s.setEmpty t off b).outbox = s.outbox := rfl
@[simp] theorem State.setEmpty_inputs (s : State) (t off : Nat) (b : Bool) : (s.setEmpty t off b).inputs = s.inputs := rfl
@[simp] theorem State.setEmpty_tagLog (s : State) (t off : Nat) (b : Bool) : (s.setEmpty t off b).tagLog = s.tagLog := rfl
@[simp] theorem State.setEmpty_arrivals (s : State) (t off : Nat) (b : Bool) : (s.setEmpty t off b).arrivals = s.arrivals := rfl
@[simp] theorem State.setEmpty_heldFlags (s : State) (t off : Nat) (b : Bool) : (s.setEmpty t off b).heldFlags = s.heldFlags := rfl
@[simp] theorem State.setEmpty_epochs (s : State) (t off : Nat) (b : Bool) : (s.setEmpty t off b).epochs = s.epochs := rfl
@[simp] theorem State.setEmpty_fenced (s : State) (t off : Nat) (b : Bool) : (s.setEmpty t off b).fenced = s.fenced := rfl
@[simp] theorem State.setEmpty_frozen (s : State) (t off : Nat) (b : Bool) : (s.setEmpty t off b).frozen = s.frozen := rfl
@[simp] theorem State.setEmpty_alarm (s : State) (t off : Nat) (b : Bool) : (s.setEmpty t off b).alarm = s.alarm := rfl
@[simp] theorem State.setEmpty_powered (s : State) (t off : Nat) (b : Bool) : (s.setEmpty t off b).powered = s.powered := rfl
@[simp] theorem State.setEmpty_chip (s : State) (t off : Nat) (b : Bool) : (s.setEmpty t off b).chip = s.chip := rfl
@[simp] theorem State.setEmpty_linksDown (s : State) (t off : Nat) (b : Bool) : (s.setEmpty t off b).linksDown = s.linksDown := rfl
@[simp] theorem State.setEmpty_cxlFrames (s : State) (t off : Nat) (b : Bool) : (s.setEmpty t off b).cxlFrames = s.cxlFrames := rfl
@[simp] theorem State.setEmpty_sessions (s : State) (t off : Nat) (b : Bool) : (s.setEmpty t off b).sessions = s.sessions := rfl
@[simp] theorem State.setEmpty_owner (s : State) (t off : Nat) (b : Bool) : (s.setEmpty t off b).owner = s.owner := rfl
@[simp] theorem State.setEmpty_ownerSlot (s : State) (t off : Nat) (b : Bool) : (s.setEmpty t off b).ownerSlot = s.ownerSlot := rfl
@[simp] theorem State.setEmpty_lease (s : State) (t off : Nat) (b : Bool) : (s.setEmpty t off b).lease = s.lease := rfl
@[simp] theorem State.setEmpty_acornDigest (s : State) (t off : Nat) (b : Bool) : (s.setEmpty t off b).acornDigest = s.acornDigest := rfl
@[simp] theorem State.setEmpty_supDigest (s : State) (t off : Nat) (b : Bool) : (s.setEmpty t off b).supDigest = s.supDigest := rfl
@[simp] theorem State.setEmpty_saved (s : State) (t off : Nat) (b : Bool) : (s.setEmpty t off b).saved = s.saved := rfl
@[simp] theorem State.setEmpty_cur (s : State) (t off : Nat) (b : Bool) : (s.setEmpty t off b).cur = s.cur := rfl
@[simp] theorem State.setEmpty_sel (s : State) (t off : Nat) (b : Bool) : (s.setEmpty t off b).sel = s.sel := rfl
@[simp] theorem State.setEmpty_schedule (s : State) (t off : Nat) (b : Bool) : (s.setEmpty t off b).schedule = s.schedule := rfl
@[simp] theorem State.setEmpty_ticks (s : State) (t off : Nat) (b : Bool) : (s.setEmpty t off b).ticks = s.ticks := rfl
@[simp] theorem State.setEmpty_fresh (s : State) (t off : Nat) (b : Bool) : (s.setEmpty t off b).fresh = s.fresh := rfl
@[simp] theorem State.setEmpty_nextId (s : State) (t off : Nat) (b : Bool) : (s.setEmpty t off b).nextId = s.nextId := rfl

@[simp] theorem State.setEcc_mem (s : State) (t off : Nat) (e : Ecc) : (s.setEcc t off e).mem = s.mem := rfl
@[simp] theorem State.setEcc_empt (s : State) (t off : Nat) (e : Ecc) : (s.setEcc t off e).empt = s.empt := rfl
@[simp] theorem State.setEcc_farEcc (s : State) (t off : Nat) (e : Ecc) : (s.setEcc t off e).farEcc = s.farEcc := rfl
@[simp] theorem State.setEcc_side (s : State) (t off : Nat) (e : Ecc) : (s.setEcc t off e).side = s.side := rfl
@[simp] theorem State.setEcc_marked (s : State) (t off : Nat) (e : Ecc) : (s.setEcc t off e).marked = s.marked := rfl
@[simp] theorem State.setEcc_tiles (s : State) (t off : Nat) (e : Ecc) : (s.setEcc t off e).tiles = s.tiles := rfl
@[simp] theorem State.setEcc_husks (s : State) (t off : Nat) (e : Ecc) : (s.setEcc t off e).husks = s.husks := rfl
@[simp] theorem State.setEcc_slots (s : State) (t off : Nat) (e : Ecc) : (s.setEcc t off e).slots = s.slots := rfl
@[simp] theorem State.setEcc_lastDrained (s : State) (t off : Nat) (e : Ecc) : (s.setEcc t off e).lastDrained = s.lastDrained := rfl
@[simp] theorem State.setEcc_lastMapped (s : State) (t off : Nat) (e : Ecc) : (s.setEcc t off e).lastMapped = s.lastMapped := rfl
@[simp] theorem State.setEcc_lastPlaced (s : State) (t off : Nat) (e : Ecc) : (s.setEcc t off e).lastPlaced = s.lastPlaced := rfl
@[simp] theorem State.setEcc_placements (s : State) (t off : Nat) (e : Ecc) : (s.setEcc t off e).placements = s.placements := rfl
@[simp] theorem State.setEcc_rotations (s : State) (t off : Nat) (e : Ecc) : (s.setEcc t off e).rotations = s.rotations := rfl
@[simp] theorem State.setEcc_cohorts (s : State) (t off : Nat) (e : Ecc) : (s.setEcc t off e).cohorts = s.cohorts := rfl
@[simp] theorem State.setEcc_groups (s : State) (t off : Nat) (e : Ecc) : (s.setEcc t off e).groups = s.groups := rfl
@[simp] theorem State.setEcc_peers (s : State) (t off : Nat) (e : Ecc) : (s.setEcc t off e).peers = s.peers := rfl
@[simp] theorem State.setEcc_hostWins (s : State) (t off : Nat) (e : Ecc) : (s.setEcc t off e).hostWins = s.hostWins := rfl
@[simp] theorem State.setEcc_mcs (s : State) (t off : Nat) (e : Ecc) : (s.setEcc t off e).mcs = s.mcs := rfl
@[simp] theorem State.setEcc_tlb (s : State) (t off : Nat) (e : Ecc) : (s.setEcc t off e).tlb = s.tlb := rfl
@[simp] theorem State.setEcc_turns (s : State) (t off : Nat) (e : Ecc) : (s.setEcc t off e).turns = s.turns := rfl
@[simp] theorem State.setEcc_channels (s : State) (t off : Nat) (e : Ecc) : (s.setEcc t off e).channels = s.channels := rfl
@[simp] theorem State.setEcc_net (s : State) (t off : Nat) (e : Ecc) : (s.setEcc t off e).net = s.net := rfl
@[simp] theorem State.setEcc_egress (s : State) (t off : Nat) (e : Ecc) : (s.setEcc t off e).egress = s.egress := rfl
@[simp] theorem State.setEcc_outbox (s : State) (t off : Nat) (e : Ecc) : (s.setEcc t off e).outbox = s.outbox := rfl
@[simp] theorem State.setEcc_inputs (s : State) (t off : Nat) (e : Ecc) : (s.setEcc t off e).inputs = s.inputs := rfl
@[simp] theorem State.setEcc_tagLog (s : State) (t off : Nat) (e : Ecc) : (s.setEcc t off e).tagLog = s.tagLog := rfl
@[simp] theorem State.setEcc_arrivals (s : State) (t off : Nat) (e : Ecc) : (s.setEcc t off e).arrivals = s.arrivals := rfl
@[simp] theorem State.setEcc_heldFlags (s : State) (t off : Nat) (e : Ecc) : (s.setEcc t off e).heldFlags = s.heldFlags := rfl
@[simp] theorem State.setEcc_epochs (s : State) (t off : Nat) (e : Ecc) : (s.setEcc t off e).epochs = s.epochs := rfl
@[simp] theorem State.setEcc_fenced (s : State) (t off : Nat) (e : Ecc) : (s.setEcc t off e).fenced = s.fenced := rfl
@[simp] theorem State.setEcc_frozen (s : State) (t off : Nat) (e : Ecc) : (s.setEcc t off e).frozen = s.frozen := rfl
@[simp] theorem State.setEcc_alarm (s : State) (t off : Nat) (e : Ecc) : (s.setEcc t off e).alarm = s.alarm := rfl
@[simp] theorem State.setEcc_powered (s : State) (t off : Nat) (e : Ecc) : (s.setEcc t off e).powered = s.powered := rfl
@[simp] theorem State.setEcc_chip (s : State) (t off : Nat) (e : Ecc) : (s.setEcc t off e).chip = s.chip := rfl
@[simp] theorem State.setEcc_linksDown (s : State) (t off : Nat) (e : Ecc) : (s.setEcc t off e).linksDown = s.linksDown := rfl
@[simp] theorem State.setEcc_cxlFrames (s : State) (t off : Nat) (e : Ecc) : (s.setEcc t off e).cxlFrames = s.cxlFrames := rfl
@[simp] theorem State.setEcc_sessions (s : State) (t off : Nat) (e : Ecc) : (s.setEcc t off e).sessions = s.sessions := rfl
@[simp] theorem State.setEcc_owner (s : State) (t off : Nat) (e : Ecc) : (s.setEcc t off e).owner = s.owner := rfl
@[simp] theorem State.setEcc_ownerSlot (s : State) (t off : Nat) (e : Ecc) : (s.setEcc t off e).ownerSlot = s.ownerSlot := rfl
@[simp] theorem State.setEcc_lease (s : State) (t off : Nat) (e : Ecc) : (s.setEcc t off e).lease = s.lease := rfl
@[simp] theorem State.setEcc_acornDigest (s : State) (t off : Nat) (e : Ecc) : (s.setEcc t off e).acornDigest = s.acornDigest := rfl
@[simp] theorem State.setEcc_supDigest (s : State) (t off : Nat) (e : Ecc) : (s.setEcc t off e).supDigest = s.supDigest := rfl
@[simp] theorem State.setEcc_saved (s : State) (t off : Nat) (e : Ecc) : (s.setEcc t off e).saved = s.saved := rfl
@[simp] theorem State.setEcc_cur (s : State) (t off : Nat) (e : Ecc) : (s.setEcc t off e).cur = s.cur := rfl
@[simp] theorem State.setEcc_sel (s : State) (t off : Nat) (e : Ecc) : (s.setEcc t off e).sel = s.sel := rfl
@[simp] theorem State.setEcc_schedule (s : State) (t off : Nat) (e : Ecc) : (s.setEcc t off e).schedule = s.schedule := rfl
@[simp] theorem State.setEcc_ticks (s : State) (t off : Nat) (e : Ecc) : (s.setEcc t off e).ticks = s.ticks := rfl
@[simp] theorem State.setEcc_fresh (s : State) (t off : Nat) (e : Ecc) : (s.setEcc t off e).fresh = s.fresh := rfl
@[simp] theorem State.setEcc_nextId (s : State) (t off : Nat) (e : Ecc) : (s.setEcc t off e).nextId = s.nextId := rfl

@[simp] theorem State.setSide_mem (s : State) (t off : Nat) (e : Option Side) : (s.setSide t off e).mem = s.mem := rfl
@[simp] theorem State.setSide_empt (s : State) (t off : Nat) (e : Option Side) : (s.setSide t off e).empt = s.empt := rfl
@[simp] theorem State.setSide_ecc (s : State) (t off : Nat) (e : Option Side) : (s.setSide t off e).ecc = s.ecc := rfl
@[simp] theorem State.setSide_farEcc (s : State) (t off : Nat) (e : Option Side) : (s.setSide t off e).farEcc = s.farEcc := rfl
@[simp] theorem State.setSide_marked (s : State) (t off : Nat) (e : Option Side) : (s.setSide t off e).marked = s.marked := rfl
@[simp] theorem State.setSide_tiles (s : State) (t off : Nat) (e : Option Side) : (s.setSide t off e).tiles = s.tiles := rfl
@[simp] theorem State.setSide_husks (s : State) (t off : Nat) (e : Option Side) : (s.setSide t off e).husks = s.husks := rfl
@[simp] theorem State.setSide_slots (s : State) (t off : Nat) (e : Option Side) : (s.setSide t off e).slots = s.slots := rfl
@[simp] theorem State.setSide_lastDrained (s : State) (t off : Nat) (e : Option Side) : (s.setSide t off e).lastDrained = s.lastDrained := rfl
@[simp] theorem State.setSide_lastMapped (s : State) (t off : Nat) (e : Option Side) : (s.setSide t off e).lastMapped = s.lastMapped := rfl
@[simp] theorem State.setSide_lastPlaced (s : State) (t off : Nat) (e : Option Side) : (s.setSide t off e).lastPlaced = s.lastPlaced := rfl
@[simp] theorem State.setSide_placements (s : State) (t off : Nat) (e : Option Side) : (s.setSide t off e).placements = s.placements := rfl
@[simp] theorem State.setSide_rotations (s : State) (t off : Nat) (e : Option Side) : (s.setSide t off e).rotations = s.rotations := rfl
@[simp] theorem State.setSide_cohorts (s : State) (t off : Nat) (e : Option Side) : (s.setSide t off e).cohorts = s.cohorts := rfl
@[simp] theorem State.setSide_groups (s : State) (t off : Nat) (e : Option Side) : (s.setSide t off e).groups = s.groups := rfl
@[simp] theorem State.setSide_peers (s : State) (t off : Nat) (e : Option Side) : (s.setSide t off e).peers = s.peers := rfl
@[simp] theorem State.setSide_hostWins (s : State) (t off : Nat) (e : Option Side) : (s.setSide t off e).hostWins = s.hostWins := rfl
@[simp] theorem State.setSide_mcs (s : State) (t off : Nat) (e : Option Side) : (s.setSide t off e).mcs = s.mcs := rfl
@[simp] theorem State.setSide_tlb (s : State) (t off : Nat) (e : Option Side) : (s.setSide t off e).tlb = s.tlb := rfl
@[simp] theorem State.setSide_turns (s : State) (t off : Nat) (e : Option Side) : (s.setSide t off e).turns = s.turns := rfl
@[simp] theorem State.setSide_channels (s : State) (t off : Nat) (e : Option Side) : (s.setSide t off e).channels = s.channels := rfl
@[simp] theorem State.setSide_net (s : State) (t off : Nat) (e : Option Side) : (s.setSide t off e).net = s.net := rfl
@[simp] theorem State.setSide_egress (s : State) (t off : Nat) (e : Option Side) : (s.setSide t off e).egress = s.egress := rfl
@[simp] theorem State.setSide_outbox (s : State) (t off : Nat) (e : Option Side) : (s.setSide t off e).outbox = s.outbox := rfl
@[simp] theorem State.setSide_inputs (s : State) (t off : Nat) (e : Option Side) : (s.setSide t off e).inputs = s.inputs := rfl
@[simp] theorem State.setSide_tagLog (s : State) (t off : Nat) (e : Option Side) : (s.setSide t off e).tagLog = s.tagLog := rfl
@[simp] theorem State.setSide_arrivals (s : State) (t off : Nat) (e : Option Side) : (s.setSide t off e).arrivals = s.arrivals := rfl
@[simp] theorem State.setSide_heldFlags (s : State) (t off : Nat) (e : Option Side) : (s.setSide t off e).heldFlags = s.heldFlags := rfl
@[simp] theorem State.setSide_epochs (s : State) (t off : Nat) (e : Option Side) : (s.setSide t off e).epochs = s.epochs := rfl
@[simp] theorem State.setSide_fenced (s : State) (t off : Nat) (e : Option Side) : (s.setSide t off e).fenced = s.fenced := rfl
@[simp] theorem State.setSide_frozen (s : State) (t off : Nat) (e : Option Side) : (s.setSide t off e).frozen = s.frozen := rfl
@[simp] theorem State.setSide_alarm (s : State) (t off : Nat) (e : Option Side) : (s.setSide t off e).alarm = s.alarm := rfl
@[simp] theorem State.setSide_powered (s : State) (t off : Nat) (e : Option Side) : (s.setSide t off e).powered = s.powered := rfl
@[simp] theorem State.setSide_chip (s : State) (t off : Nat) (e : Option Side) : (s.setSide t off e).chip = s.chip := rfl
@[simp] theorem State.setSide_linksDown (s : State) (t off : Nat) (e : Option Side) : (s.setSide t off e).linksDown = s.linksDown := rfl
@[simp] theorem State.setSide_cxlFrames (s : State) (t off : Nat) (e : Option Side) : (s.setSide t off e).cxlFrames = s.cxlFrames := rfl
@[simp] theorem State.setSide_sessions (s : State) (t off : Nat) (e : Option Side) : (s.setSide t off e).sessions = s.sessions := rfl
@[simp] theorem State.setSide_owner (s : State) (t off : Nat) (e : Option Side) : (s.setSide t off e).owner = s.owner := rfl
@[simp] theorem State.setSide_ownerSlot (s : State) (t off : Nat) (e : Option Side) : (s.setSide t off e).ownerSlot = s.ownerSlot := rfl
@[simp] theorem State.setSide_lease (s : State) (t off : Nat) (e : Option Side) : (s.setSide t off e).lease = s.lease := rfl
@[simp] theorem State.setSide_acornDigest (s : State) (t off : Nat) (e : Option Side) : (s.setSide t off e).acornDigest = s.acornDigest := rfl
@[simp] theorem State.setSide_supDigest (s : State) (t off : Nat) (e : Option Side) : (s.setSide t off e).supDigest = s.supDigest := rfl
@[simp] theorem State.setSide_saved (s : State) (t off : Nat) (e : Option Side) : (s.setSide t off e).saved = s.saved := rfl
@[simp] theorem State.setSide_cur (s : State) (t off : Nat) (e : Option Side) : (s.setSide t off e).cur = s.cur := rfl
@[simp] theorem State.setSide_sel (s : State) (t off : Nat) (e : Option Side) : (s.setSide t off e).sel = s.sel := rfl
@[simp] theorem State.setSide_schedule (s : State) (t off : Nat) (e : Option Side) : (s.setSide t off e).schedule = s.schedule := rfl
@[simp] theorem State.setSide_ticks (s : State) (t off : Nat) (e : Option Side) : (s.setSide t off e).ticks = s.ticks := rfl
@[simp] theorem State.setSide_fresh (s : State) (t off : Nat) (e : Option Side) : (s.setSide t off e).fresh = s.fresh := rfl
@[simp] theorem State.setSide_nextId (s : State) (t off : Nat) (e : Option Side) : (s.setSide t off e).nextId = s.nextId := rfl

@[simp] theorem State.send_mem (s : State) (p : Packet) : (s.send p).mem = s.mem := rfl
@[simp] theorem State.send_empt (s : State) (p : Packet) : (s.send p).empt = s.empt := rfl
@[simp] theorem State.send_ecc (s : State) (p : Packet) : (s.send p).ecc = s.ecc := rfl
@[simp] theorem State.send_farEcc (s : State) (p : Packet) : (s.send p).farEcc = s.farEcc := rfl
@[simp] theorem State.send_side (s : State) (p : Packet) : (s.send p).side = s.side := rfl
@[simp] theorem State.send_marked (s : State) (p : Packet) : (s.send p).marked = s.marked := rfl
@[simp] theorem State.send_tiles (s : State) (p : Packet) : (s.send p).tiles = s.tiles := rfl
@[simp] theorem State.send_husks (s : State) (p : Packet) : (s.send p).husks = s.husks := rfl
@[simp] theorem State.send_slots (s : State) (p : Packet) : (s.send p).slots = s.slots := rfl
@[simp] theorem State.send_lastDrained (s : State) (p : Packet) : (s.send p).lastDrained = s.lastDrained := rfl
@[simp] theorem State.send_lastMapped (s : State) (p : Packet) : (s.send p).lastMapped = s.lastMapped := rfl
@[simp] theorem State.send_lastPlaced (s : State) (p : Packet) : (s.send p).lastPlaced = s.lastPlaced := rfl
@[simp] theorem State.send_placements (s : State) (p : Packet) : (s.send p).placements = s.placements := rfl
@[simp] theorem State.send_rotations (s : State) (p : Packet) : (s.send p).rotations = s.rotations := rfl
@[simp] theorem State.send_cohorts (s : State) (p : Packet) : (s.send p).cohorts = s.cohorts := rfl
@[simp] theorem State.send_groups (s : State) (p : Packet) : (s.send p).groups = s.groups := rfl
@[simp] theorem State.send_peers (s : State) (p : Packet) : (s.send p).peers = s.peers := rfl
@[simp] theorem State.send_hostWins (s : State) (p : Packet) : (s.send p).hostWins = s.hostWins := rfl
@[simp] theorem State.send_mcs (s : State) (p : Packet) : (s.send p).mcs = s.mcs := rfl
@[simp] theorem State.send_tlb (s : State) (p : Packet) : (s.send p).tlb = s.tlb := rfl
@[simp] theorem State.send_turns (s : State) (p : Packet) : (s.send p).turns = s.turns := rfl
@[simp] theorem State.send_channels (s : State) (p : Packet) : (s.send p).channels = s.channels := rfl
@[simp] theorem State.send_egress (s : State) (p : Packet) : (s.send p).egress = s.egress := rfl
@[simp] theorem State.send_outbox (s : State) (p : Packet) : (s.send p).outbox = s.outbox := rfl
@[simp] theorem State.send_inputs (s : State) (p : Packet) : (s.send p).inputs = s.inputs := rfl
@[simp] theorem State.send_tagLog (s : State) (p : Packet) : (s.send p).tagLog = s.tagLog := rfl
@[simp] theorem State.send_arrivals (s : State) (p : Packet) : (s.send p).arrivals = s.arrivals := rfl
@[simp] theorem State.send_heldFlags (s : State) (p : Packet) : (s.send p).heldFlags = s.heldFlags := rfl
@[simp] theorem State.send_epochs (s : State) (p : Packet) : (s.send p).epochs = s.epochs := rfl
@[simp] theorem State.send_fenced (s : State) (p : Packet) : (s.send p).fenced = s.fenced := rfl
@[simp] theorem State.send_frozen (s : State) (p : Packet) : (s.send p).frozen = s.frozen := rfl
@[simp] theorem State.send_alarm (s : State) (p : Packet) : (s.send p).alarm = s.alarm := rfl
@[simp] theorem State.send_powered (s : State) (p : Packet) : (s.send p).powered = s.powered := rfl
@[simp] theorem State.send_chip (s : State) (p : Packet) : (s.send p).chip = s.chip := rfl
@[simp] theorem State.send_linksDown (s : State) (p : Packet) : (s.send p).linksDown = s.linksDown := rfl
@[simp] theorem State.send_cxlFrames (s : State) (p : Packet) : (s.send p).cxlFrames = s.cxlFrames := rfl
@[simp] theorem State.send_sessions (s : State) (p : Packet) : (s.send p).sessions = s.sessions := rfl
@[simp] theorem State.send_owner (s : State) (p : Packet) : (s.send p).owner = s.owner := rfl
@[simp] theorem State.send_ownerSlot (s : State) (p : Packet) : (s.send p).ownerSlot = s.ownerSlot := rfl
@[simp] theorem State.send_lease (s : State) (p : Packet) : (s.send p).lease = s.lease := rfl
@[simp] theorem State.send_acornDigest (s : State) (p : Packet) : (s.send p).acornDigest = s.acornDigest := rfl
@[simp] theorem State.send_supDigest (s : State) (p : Packet) : (s.send p).supDigest = s.supDigest := rfl
@[simp] theorem State.send_saved (s : State) (p : Packet) : (s.send p).saved = s.saved := rfl
@[simp] theorem State.send_cur (s : State) (p : Packet) : (s.send p).cur = s.cur := rfl
@[simp] theorem State.send_sel (s : State) (p : Packet) : (s.send p).sel = s.sel := rfl
@[simp] theorem State.send_schedule (s : State) (p : Packet) : (s.send p).schedule = s.schedule := rfl
@[simp] theorem State.send_ticks (s : State) (p : Packet) : (s.send p).ticks = s.ticks := rfl
@[simp] theorem State.send_fresh (s : State) (p : Packet) : (s.send p).fresh = s.fresh := rfl

@[simp] theorem State.drop_mem (s : State) (k : Nat) : (s.drop k).mem = s.mem := rfl
@[simp] theorem State.drop_empt (s : State) (k : Nat) : (s.drop k).empt = s.empt := rfl
@[simp] theorem State.drop_ecc (s : State) (k : Nat) : (s.drop k).ecc = s.ecc := rfl
@[simp] theorem State.drop_farEcc (s : State) (k : Nat) : (s.drop k).farEcc = s.farEcc := rfl
@[simp] theorem State.drop_side (s : State) (k : Nat) : (s.drop k).side = s.side := rfl
@[simp] theorem State.drop_marked (s : State) (k : Nat) : (s.drop k).marked = s.marked := rfl
@[simp] theorem State.drop_tiles (s : State) (k : Nat) : (s.drop k).tiles = s.tiles := rfl
@[simp] theorem State.drop_husks (s : State) (k : Nat) : (s.drop k).husks = s.husks := rfl
@[simp] theorem State.drop_slots (s : State) (k : Nat) : (s.drop k).slots = s.slots := rfl
@[simp] theorem State.drop_lastDrained (s : State) (k : Nat) : (s.drop k).lastDrained = s.lastDrained := rfl
@[simp] theorem State.drop_lastMapped (s : State) (k : Nat) : (s.drop k).lastMapped = s.lastMapped := rfl
@[simp] theorem State.drop_lastPlaced (s : State) (k : Nat) : (s.drop k).lastPlaced = s.lastPlaced := rfl
@[simp] theorem State.drop_placements (s : State) (k : Nat) : (s.drop k).placements = s.placements := rfl
@[simp] theorem State.drop_rotations (s : State) (k : Nat) : (s.drop k).rotations = s.rotations := rfl
@[simp] theorem State.drop_cohorts (s : State) (k : Nat) : (s.drop k).cohorts = s.cohorts := rfl
@[simp] theorem State.drop_groups (s : State) (k : Nat) : (s.drop k).groups = s.groups := rfl
@[simp] theorem State.drop_peers (s : State) (k : Nat) : (s.drop k).peers = s.peers := rfl
@[simp] theorem State.drop_hostWins (s : State) (k : Nat) : (s.drop k).hostWins = s.hostWins := rfl
@[simp] theorem State.drop_mcs (s : State) (k : Nat) : (s.drop k).mcs = s.mcs := rfl
@[simp] theorem State.drop_tlb (s : State) (k : Nat) : (s.drop k).tlb = s.tlb := rfl
@[simp] theorem State.drop_turns (s : State) (k : Nat) : (s.drop k).turns = s.turns := rfl
@[simp] theorem State.drop_channels (s : State) (k : Nat) : (s.drop k).channels = s.channels := rfl
@[simp] theorem State.drop_egress (s : State) (k : Nat) : (s.drop k).egress = s.egress := rfl
@[simp] theorem State.drop_outbox (s : State) (k : Nat) : (s.drop k).outbox = s.outbox := rfl
@[simp] theorem State.drop_inputs (s : State) (k : Nat) : (s.drop k).inputs = s.inputs := rfl
@[simp] theorem State.drop_tagLog (s : State) (k : Nat) : (s.drop k).tagLog = s.tagLog := rfl
@[simp] theorem State.drop_arrivals (s : State) (k : Nat) : (s.drop k).arrivals = s.arrivals := rfl
@[simp] theorem State.drop_heldFlags (s : State) (k : Nat) : (s.drop k).heldFlags = s.heldFlags := rfl
@[simp] theorem State.drop_epochs (s : State) (k : Nat) : (s.drop k).epochs = s.epochs := rfl
@[simp] theorem State.drop_fenced (s : State) (k : Nat) : (s.drop k).fenced = s.fenced := rfl
@[simp] theorem State.drop_frozen (s : State) (k : Nat) : (s.drop k).frozen = s.frozen := rfl
@[simp] theorem State.drop_alarm (s : State) (k : Nat) : (s.drop k).alarm = s.alarm := rfl
@[simp] theorem State.drop_powered (s : State) (k : Nat) : (s.drop k).powered = s.powered := rfl
@[simp] theorem State.drop_chip (s : State) (k : Nat) : (s.drop k).chip = s.chip := rfl
@[simp] theorem State.drop_linksDown (s : State) (k : Nat) : (s.drop k).linksDown = s.linksDown := rfl
@[simp] theorem State.drop_cxlFrames (s : State) (k : Nat) : (s.drop k).cxlFrames = s.cxlFrames := rfl
@[simp] theorem State.drop_sessions (s : State) (k : Nat) : (s.drop k).sessions = s.sessions := rfl
@[simp] theorem State.drop_owner (s : State) (k : Nat) : (s.drop k).owner = s.owner := rfl
@[simp] theorem State.drop_ownerSlot (s : State) (k : Nat) : (s.drop k).ownerSlot = s.ownerSlot := rfl
@[simp] theorem State.drop_lease (s : State) (k : Nat) : (s.drop k).lease = s.lease := rfl
@[simp] theorem State.drop_acornDigest (s : State) (k : Nat) : (s.drop k).acornDigest = s.acornDigest := rfl
@[simp] theorem State.drop_supDigest (s : State) (k : Nat) : (s.drop k).supDigest = s.supDigest := rfl
@[simp] theorem State.drop_saved (s : State) (k : Nat) : (s.drop k).saved = s.saved := rfl
@[simp] theorem State.drop_cur (s : State) (k : Nat) : (s.drop k).cur = s.cur := rfl
@[simp] theorem State.drop_sel (s : State) (k : Nat) : (s.drop k).sel = s.sel := rfl
@[simp] theorem State.drop_schedule (s : State) (k : Nat) : (s.drop k).schedule = s.schedule := rfl
@[simp] theorem State.drop_ticks (s : State) (k : Nat) : (s.drop k).ticks = s.ticks := rfl
@[simp] theorem State.drop_fresh (s : State) (k : Nat) : (s.drop k).fresh = s.fresh := rfl
@[simp] theorem State.drop_nextId (s : State) (k : Nat) : (s.drop k).nextId = s.nextId := rfl

@[simp] theorem State.refuse_mem (s : State) (k hint : Nat) : (s.refuse k hint).mem = s.mem := rfl
@[simp] theorem State.refuse_empt (s : State) (k hint : Nat) : (s.refuse k hint).empt = s.empt := rfl
@[simp] theorem State.refuse_ecc (s : State) (k hint : Nat) : (s.refuse k hint).ecc = s.ecc := rfl
@[simp] theorem State.refuse_farEcc (s : State) (k hint : Nat) : (s.refuse k hint).farEcc = s.farEcc := rfl
@[simp] theorem State.refuse_side (s : State) (k hint : Nat) : (s.refuse k hint).side = s.side := rfl
@[simp] theorem State.refuse_marked (s : State) (k hint : Nat) : (s.refuse k hint).marked = s.marked := rfl
@[simp] theorem State.refuse_tiles (s : State) (k hint : Nat) : (s.refuse k hint).tiles = s.tiles := rfl
@[simp] theorem State.refuse_husks (s : State) (k hint : Nat) : (s.refuse k hint).husks = s.husks := rfl
@[simp] theorem State.refuse_slots (s : State) (k hint : Nat) : (s.refuse k hint).slots = s.slots := rfl
@[simp] theorem State.refuse_lastDrained (s : State) (k hint : Nat) : (s.refuse k hint).lastDrained = s.lastDrained := rfl
@[simp] theorem State.refuse_lastMapped (s : State) (k hint : Nat) : (s.refuse k hint).lastMapped = s.lastMapped := rfl
@[simp] theorem State.refuse_lastPlaced (s : State) (k hint : Nat) : (s.refuse k hint).lastPlaced = s.lastPlaced := rfl
@[simp] theorem State.refuse_placements (s : State) (k hint : Nat) : (s.refuse k hint).placements = s.placements := rfl
@[simp] theorem State.refuse_rotations (s : State) (k hint : Nat) : (s.refuse k hint).rotations = s.rotations := rfl
@[simp] theorem State.refuse_cohorts (s : State) (k hint : Nat) : (s.refuse k hint).cohorts = s.cohorts := rfl
@[simp] theorem State.refuse_groups (s : State) (k hint : Nat) : (s.refuse k hint).groups = s.groups := rfl
@[simp] theorem State.refuse_peers (s : State) (k hint : Nat) : (s.refuse k hint).peers = s.peers := rfl
@[simp] theorem State.refuse_hostWins (s : State) (k hint : Nat) : (s.refuse k hint).hostWins = s.hostWins := rfl
@[simp] theorem State.refuse_mcs (s : State) (k hint : Nat) : (s.refuse k hint).mcs = s.mcs := rfl
@[simp] theorem State.refuse_tlb (s : State) (k hint : Nat) : (s.refuse k hint).tlb = s.tlb := rfl
@[simp] theorem State.refuse_turns (s : State) (k hint : Nat) : (s.refuse k hint).turns = s.turns := rfl
@[simp] theorem State.refuse_channels (s : State) (k hint : Nat) : (s.refuse k hint).channels = s.channels := rfl
@[simp] theorem State.refuse_egress (s : State) (k hint : Nat) : (s.refuse k hint).egress = s.egress := rfl
@[simp] theorem State.refuse_outbox (s : State) (k hint : Nat) : (s.refuse k hint).outbox = s.outbox := rfl
@[simp] theorem State.refuse_inputs (s : State) (k hint : Nat) : (s.refuse k hint).inputs = s.inputs := rfl
@[simp] theorem State.refuse_tagLog (s : State) (k hint : Nat) : (s.refuse k hint).tagLog = s.tagLog := rfl
@[simp] theorem State.refuse_arrivals (s : State) (k hint : Nat) : (s.refuse k hint).arrivals = s.arrivals := rfl
@[simp] theorem State.refuse_heldFlags (s : State) (k hint : Nat) : (s.refuse k hint).heldFlags = s.heldFlags := rfl
@[simp] theorem State.refuse_epochs (s : State) (k hint : Nat) : (s.refuse k hint).epochs = s.epochs := rfl
@[simp] theorem State.refuse_fenced (s : State) (k hint : Nat) : (s.refuse k hint).fenced = s.fenced := rfl
@[simp] theorem State.refuse_frozen (s : State) (k hint : Nat) : (s.refuse k hint).frozen = s.frozen := rfl
@[simp] theorem State.refuse_alarm (s : State) (k hint : Nat) : (s.refuse k hint).alarm = s.alarm := rfl
@[simp] theorem State.refuse_powered (s : State) (k hint : Nat) : (s.refuse k hint).powered = s.powered := rfl
@[simp] theorem State.refuse_chip (s : State) (k hint : Nat) : (s.refuse k hint).chip = s.chip := rfl
@[simp] theorem State.refuse_linksDown (s : State) (k hint : Nat) : (s.refuse k hint).linksDown = s.linksDown := rfl
@[simp] theorem State.refuse_cxlFrames (s : State) (k hint : Nat) : (s.refuse k hint).cxlFrames = s.cxlFrames := rfl
@[simp] theorem State.refuse_sessions (s : State) (k hint : Nat) : (s.refuse k hint).sessions = s.sessions := rfl
@[simp] theorem State.refuse_owner (s : State) (k hint : Nat) : (s.refuse k hint).owner = s.owner := rfl
@[simp] theorem State.refuse_ownerSlot (s : State) (k hint : Nat) : (s.refuse k hint).ownerSlot = s.ownerSlot := rfl
@[simp] theorem State.refuse_lease (s : State) (k hint : Nat) : (s.refuse k hint).lease = s.lease := rfl
@[simp] theorem State.refuse_acornDigest (s : State) (k hint : Nat) : (s.refuse k hint).acornDigest = s.acornDigest := rfl
@[simp] theorem State.refuse_supDigest (s : State) (k hint : Nat) : (s.refuse k hint).supDigest = s.supDigest := rfl
@[simp] theorem State.refuse_saved (s : State) (k hint : Nat) : (s.refuse k hint).saved = s.saved := rfl
@[simp] theorem State.refuse_cur (s : State) (k hint : Nat) : (s.refuse k hint).cur = s.cur := rfl
@[simp] theorem State.refuse_sel (s : State) (k hint : Nat) : (s.refuse k hint).sel = s.sel := rfl
@[simp] theorem State.refuse_schedule (s : State) (k hint : Nat) : (s.refuse k hint).schedule = s.schedule := rfl
@[simp] theorem State.refuse_ticks (s : State) (k hint : Nat) : (s.refuse k hint).ticks = s.ticks := rfl
@[simp] theorem State.refuse_fresh (s : State) (k hint : Nat) : (s.refuse k hint).fresh = s.fresh := rfl
@[simp] theorem State.refuse_nextId (s : State) (k hint : Nat) : (s.refuse k hint).nextId = s.nextId := rfl

@[simp] theorem State.putFar_empt (s : State) (k : Nat) (bs : List Byte) : (s.putFar k bs).empt = s.empt := rfl
@[simp] theorem State.putFar_ecc (s : State) (k : Nat) (bs : List Byte) : (s.putFar k bs).ecc = s.ecc := rfl
@[simp] theorem State.putFar_side (s : State) (k : Nat) (bs : List Byte) : (s.putFar k bs).side = s.side := rfl
@[simp] theorem State.putFar_marked (s : State) (k : Nat) (bs : List Byte) : (s.putFar k bs).marked = s.marked := rfl
@[simp] theorem State.putFar_tiles (s : State) (k : Nat) (bs : List Byte) : (s.putFar k bs).tiles = s.tiles := rfl
@[simp] theorem State.putFar_husks (s : State) (k : Nat) (bs : List Byte) : (s.putFar k bs).husks = s.husks := rfl
@[simp] theorem State.putFar_slots (s : State) (k : Nat) (bs : List Byte) : (s.putFar k bs).slots = s.slots := rfl
@[simp] theorem State.putFar_lastDrained (s : State) (k : Nat) (bs : List Byte) : (s.putFar k bs).lastDrained = s.lastDrained := rfl
@[simp] theorem State.putFar_lastMapped (s : State) (k : Nat) (bs : List Byte) : (s.putFar k bs).lastMapped = s.lastMapped := rfl
@[simp] theorem State.putFar_lastPlaced (s : State) (k : Nat) (bs : List Byte) : (s.putFar k bs).lastPlaced = s.lastPlaced := rfl
@[simp] theorem State.putFar_placements (s : State) (k : Nat) (bs : List Byte) : (s.putFar k bs).placements = s.placements := rfl
@[simp] theorem State.putFar_rotations (s : State) (k : Nat) (bs : List Byte) : (s.putFar k bs).rotations = s.rotations := rfl
@[simp] theorem State.putFar_cohorts (s : State) (k : Nat) (bs : List Byte) : (s.putFar k bs).cohorts = s.cohorts := rfl
@[simp] theorem State.putFar_groups (s : State) (k : Nat) (bs : List Byte) : (s.putFar k bs).groups = s.groups := rfl
@[simp] theorem State.putFar_peers (s : State) (k : Nat) (bs : List Byte) : (s.putFar k bs).peers = s.peers := rfl
@[simp] theorem State.putFar_hostWins (s : State) (k : Nat) (bs : List Byte) : (s.putFar k bs).hostWins = s.hostWins := rfl
@[simp] theorem State.putFar_mcs (s : State) (k : Nat) (bs : List Byte) : (s.putFar k bs).mcs = s.mcs := rfl
@[simp] theorem State.putFar_tlb (s : State) (k : Nat) (bs : List Byte) : (s.putFar k bs).tlb = s.tlb := rfl
@[simp] theorem State.putFar_turns (s : State) (k : Nat) (bs : List Byte) : (s.putFar k bs).turns = s.turns := rfl
@[simp] theorem State.putFar_channels (s : State) (k : Nat) (bs : List Byte) : (s.putFar k bs).channels = s.channels := rfl
@[simp] theorem State.putFar_net (s : State) (k : Nat) (bs : List Byte) : (s.putFar k bs).net = s.net := rfl
@[simp] theorem State.putFar_egress (s : State) (k : Nat) (bs : List Byte) : (s.putFar k bs).egress = s.egress := rfl
@[simp] theorem State.putFar_outbox (s : State) (k : Nat) (bs : List Byte) : (s.putFar k bs).outbox = s.outbox := rfl
@[simp] theorem State.putFar_inputs (s : State) (k : Nat) (bs : List Byte) : (s.putFar k bs).inputs = s.inputs := rfl
@[simp] theorem State.putFar_tagLog (s : State) (k : Nat) (bs : List Byte) : (s.putFar k bs).tagLog = s.tagLog := rfl
@[simp] theorem State.putFar_arrivals (s : State) (k : Nat) (bs : List Byte) : (s.putFar k bs).arrivals = s.arrivals := rfl
@[simp] theorem State.putFar_heldFlags (s : State) (k : Nat) (bs : List Byte) : (s.putFar k bs).heldFlags = s.heldFlags := rfl
@[simp] theorem State.putFar_epochs (s : State) (k : Nat) (bs : List Byte) : (s.putFar k bs).epochs = s.epochs := rfl
@[simp] theorem State.putFar_fenced (s : State) (k : Nat) (bs : List Byte) : (s.putFar k bs).fenced = s.fenced := rfl
@[simp] theorem State.putFar_frozen (s : State) (k : Nat) (bs : List Byte) : (s.putFar k bs).frozen = s.frozen := rfl
@[simp] theorem State.putFar_alarm (s : State) (k : Nat) (bs : List Byte) : (s.putFar k bs).alarm = s.alarm := rfl
@[simp] theorem State.putFar_powered (s : State) (k : Nat) (bs : List Byte) : (s.putFar k bs).powered = s.powered := rfl
@[simp] theorem State.putFar_chip (s : State) (k : Nat) (bs : List Byte) : (s.putFar k bs).chip = s.chip := rfl
@[simp] theorem State.putFar_linksDown (s : State) (k : Nat) (bs : List Byte) : (s.putFar k bs).linksDown = s.linksDown := rfl
@[simp] theorem State.putFar_cxlFrames (s : State) (k : Nat) (bs : List Byte) : (s.putFar k bs).cxlFrames = s.cxlFrames := rfl
@[simp] theorem State.putFar_sessions (s : State) (k : Nat) (bs : List Byte) : (s.putFar k bs).sessions = s.sessions := rfl
@[simp] theorem State.putFar_owner (s : State) (k : Nat) (bs : List Byte) : (s.putFar k bs).owner = s.owner := rfl
@[simp] theorem State.putFar_ownerSlot (s : State) (k : Nat) (bs : List Byte) : (s.putFar k bs).ownerSlot = s.ownerSlot := rfl
@[simp] theorem State.putFar_lease (s : State) (k : Nat) (bs : List Byte) : (s.putFar k bs).lease = s.lease := rfl
@[simp] theorem State.putFar_acornDigest (s : State) (k : Nat) (bs : List Byte) : (s.putFar k bs).acornDigest = s.acornDigest := rfl
@[simp] theorem State.putFar_supDigest (s : State) (k : Nat) (bs : List Byte) : (s.putFar k bs).supDigest = s.supDigest := rfl
@[simp] theorem State.putFar_saved (s : State) (k : Nat) (bs : List Byte) : (s.putFar k bs).saved = s.saved := rfl
@[simp] theorem State.putFar_cur (s : State) (k : Nat) (bs : List Byte) : (s.putFar k bs).cur = s.cur := rfl
@[simp] theorem State.putFar_sel (s : State) (k : Nat) (bs : List Byte) : (s.putFar k bs).sel = s.sel := rfl
@[simp] theorem State.putFar_schedule (s : State) (k : Nat) (bs : List Byte) : (s.putFar k bs).schedule = s.schedule := rfl
@[simp] theorem State.putFar_ticks (s : State) (k : Nat) (bs : List Byte) : (s.putFar k bs).ticks = s.ticks := rfl
@[simp] theorem State.putFar_fresh (s : State) (k : Nat) (bs : List Byte) : (s.putFar k bs).fresh = s.fresh := rfl
@[simp] theorem State.putFar_nextId (s : State) (k : Nat) (bs : List Byte) : (s.putFar k bs).nextId = s.nextId := rfl

@[simp] theorem setBytes_empt (s : State) (k : Nat) (bs : List Byte) : (setBytes s k bs).empt = s.empt := rfl
@[simp] theorem setBytes_ecc (s : State) (k : Nat) (bs : List Byte) : (setBytes s k bs).ecc = s.ecc := rfl
@[simp] theorem setBytes_farEcc (s : State) (k : Nat) (bs : List Byte) : (setBytes s k bs).farEcc = s.farEcc := rfl
@[simp] theorem setBytes_side (s : State) (k : Nat) (bs : List Byte) : (setBytes s k bs).side = s.side := rfl
@[simp] theorem setBytes_marked (s : State) (k : Nat) (bs : List Byte) : (setBytes s k bs).marked = s.marked := rfl
@[simp] theorem setBytes_tiles (s : State) (k : Nat) (bs : List Byte) : (setBytes s k bs).tiles = s.tiles := rfl
@[simp] theorem setBytes_husks (s : State) (k : Nat) (bs : List Byte) : (setBytes s k bs).husks = s.husks := rfl
@[simp] theorem setBytes_slots (s : State) (k : Nat) (bs : List Byte) : (setBytes s k bs).slots = s.slots := rfl
@[simp] theorem setBytes_lastDrained (s : State) (k : Nat) (bs : List Byte) : (setBytes s k bs).lastDrained = s.lastDrained := rfl
@[simp] theorem setBytes_lastMapped (s : State) (k : Nat) (bs : List Byte) : (setBytes s k bs).lastMapped = s.lastMapped := rfl
@[simp] theorem setBytes_lastPlaced (s : State) (k : Nat) (bs : List Byte) : (setBytes s k bs).lastPlaced = s.lastPlaced := rfl
@[simp] theorem setBytes_placements (s : State) (k : Nat) (bs : List Byte) : (setBytes s k bs).placements = s.placements := rfl
@[simp] theorem setBytes_rotations (s : State) (k : Nat) (bs : List Byte) : (setBytes s k bs).rotations = s.rotations := rfl
@[simp] theorem setBytes_cohorts (s : State) (k : Nat) (bs : List Byte) : (setBytes s k bs).cohorts = s.cohorts := rfl
@[simp] theorem setBytes_groups (s : State) (k : Nat) (bs : List Byte) : (setBytes s k bs).groups = s.groups := rfl
@[simp] theorem setBytes_peers (s : State) (k : Nat) (bs : List Byte) : (setBytes s k bs).peers = s.peers := rfl
@[simp] theorem setBytes_hostWins (s : State) (k : Nat) (bs : List Byte) : (setBytes s k bs).hostWins = s.hostWins := rfl
@[simp] theorem setBytes_mcs (s : State) (k : Nat) (bs : List Byte) : (setBytes s k bs).mcs = s.mcs := rfl
@[simp] theorem setBytes_tlb (s : State) (k : Nat) (bs : List Byte) : (setBytes s k bs).tlb = s.tlb := rfl
@[simp] theorem setBytes_turns (s : State) (k : Nat) (bs : List Byte) : (setBytes s k bs).turns = s.turns := rfl
@[simp] theorem setBytes_channels (s : State) (k : Nat) (bs : List Byte) : (setBytes s k bs).channels = s.channels := rfl
@[simp] theorem setBytes_net (s : State) (k : Nat) (bs : List Byte) : (setBytes s k bs).net = s.net := rfl
@[simp] theorem setBytes_egress (s : State) (k : Nat) (bs : List Byte) : (setBytes s k bs).egress = s.egress := rfl
@[simp] theorem setBytes_outbox (s : State) (k : Nat) (bs : List Byte) : (setBytes s k bs).outbox = s.outbox := rfl
@[simp] theorem setBytes_inputs (s : State) (k : Nat) (bs : List Byte) : (setBytes s k bs).inputs = s.inputs := rfl
@[simp] theorem setBytes_tagLog (s : State) (k : Nat) (bs : List Byte) : (setBytes s k bs).tagLog = s.tagLog := rfl
@[simp] theorem setBytes_arrivals (s : State) (k : Nat) (bs : List Byte) : (setBytes s k bs).arrivals = s.arrivals := rfl
@[simp] theorem setBytes_heldFlags (s : State) (k : Nat) (bs : List Byte) : (setBytes s k bs).heldFlags = s.heldFlags := rfl
@[simp] theorem setBytes_epochs (s : State) (k : Nat) (bs : List Byte) : (setBytes s k bs).epochs = s.epochs := rfl
@[simp] theorem setBytes_fenced (s : State) (k : Nat) (bs : List Byte) : (setBytes s k bs).fenced = s.fenced := rfl
@[simp] theorem setBytes_frozen (s : State) (k : Nat) (bs : List Byte) : (setBytes s k bs).frozen = s.frozen := rfl
@[simp] theorem setBytes_alarm (s : State) (k : Nat) (bs : List Byte) : (setBytes s k bs).alarm = s.alarm := rfl
@[simp] theorem setBytes_powered (s : State) (k : Nat) (bs : List Byte) : (setBytes s k bs).powered = s.powered := rfl
@[simp] theorem setBytes_chip (s : State) (k : Nat) (bs : List Byte) : (setBytes s k bs).chip = s.chip := rfl
@[simp] theorem setBytes_linksDown (s : State) (k : Nat) (bs : List Byte) : (setBytes s k bs).linksDown = s.linksDown := rfl
@[simp] theorem setBytes_cxlFrames (s : State) (k : Nat) (bs : List Byte) : (setBytes s k bs).cxlFrames = s.cxlFrames := rfl
@[simp] theorem setBytes_sessions (s : State) (k : Nat) (bs : List Byte) : (setBytes s k bs).sessions = s.sessions := rfl
@[simp] theorem setBytes_owner (s : State) (k : Nat) (bs : List Byte) : (setBytes s k bs).owner = s.owner := rfl
@[simp] theorem setBytes_ownerSlot (s : State) (k : Nat) (bs : List Byte) : (setBytes s k bs).ownerSlot = s.ownerSlot := rfl
@[simp] theorem setBytes_lease (s : State) (k : Nat) (bs : List Byte) : (setBytes s k bs).lease = s.lease := rfl
@[simp] theorem setBytes_acornDigest (s : State) (k : Nat) (bs : List Byte) : (setBytes s k bs).acornDigest = s.acornDigest := rfl
@[simp] theorem setBytes_supDigest (s : State) (k : Nat) (bs : List Byte) : (setBytes s k bs).supDigest = s.supDigest := rfl
@[simp] theorem setBytes_saved (s : State) (k : Nat) (bs : List Byte) : (setBytes s k bs).saved = s.saved := rfl
@[simp] theorem setBytes_cur (s : State) (k : Nat) (bs : List Byte) : (setBytes s k bs).cur = s.cur := rfl
@[simp] theorem setBytes_sel (s : State) (k : Nat) (bs : List Byte) : (setBytes s k bs).sel = s.sel := rfl
@[simp] theorem setBytes_schedule (s : State) (k : Nat) (bs : List Byte) : (setBytes s k bs).schedule = s.schedule := rfl
@[simp] theorem setBytes_ticks (s : State) (k : Nat) (bs : List Byte) : (setBytes s k bs).ticks = s.ticks := rfl
@[simp] theorem setBytes_fresh (s : State) (k : Nat) (bs : List Byte) : (setBytes s k bs).fresh = s.fresh := rfl
@[simp] theorem setBytes_nextId (s : State) (k : Nat) (bs : List Byte) : (setBytes s k bs).nextId = s.nextId := rfl
@[simp] theorem setBytes_mem (s : State) (k : Nat) (bs : List Byte) : (setBytes s k bs).mem = setBytesMem s.mem k bs := rfl
@[simp] theorem State.putFar_mem (s : State) (k : Nat) (bs : List Byte) : (s.putFar k bs).mem = setBytesMem s.mem k bs := rfl

@[simp] theorem State.modTile_mem (s : State) (t : Nat) (g : Tile → Tile) : (s.modTile t g).mem = s.mem := rfl
@[simp] theorem State.modTile_empt (s : State) (t : Nat) (g : Tile → Tile) : (s.modTile t g).empt = s.empt := rfl
@[simp] theorem State.modTile_ecc (s : State) (t : Nat) (g : Tile → Tile) : (s.modTile t g).ecc = s.ecc := rfl
@[simp] theorem State.modTile_farEcc (s : State) (t : Nat) (g : Tile → Tile) : (s.modTile t g).farEcc = s.farEcc := rfl
@[simp] theorem State.modTile_side (s : State) (t : Nat) (g : Tile → Tile) : (s.modTile t g).side = s.side := rfl
@[simp] theorem State.modTile_marked (s : State) (t : Nat) (g : Tile → Tile) : (s.modTile t g).marked = s.marked := rfl
@[simp] theorem State.modTile_husks (s : State) (t : Nat) (g : Tile → Tile) : (s.modTile t g).husks = s.husks := rfl
@[simp] theorem State.modTile_slots (s : State) (t : Nat) (g : Tile → Tile) : (s.modTile t g).slots = s.slots := rfl
@[simp] theorem State.modTile_lastDrained (s : State) (t : Nat) (g : Tile → Tile) : (s.modTile t g).lastDrained = s.lastDrained := rfl
@[simp] theorem State.modTile_lastMapped (s : State) (t : Nat) (g : Tile → Tile) : (s.modTile t g).lastMapped = s.lastMapped := rfl
@[simp] theorem State.modTile_lastPlaced (s : State) (t : Nat) (g : Tile → Tile) : (s.modTile t g).lastPlaced = s.lastPlaced := rfl
@[simp] theorem State.modTile_placements (s : State) (t : Nat) (g : Tile → Tile) : (s.modTile t g).placements = s.placements := rfl
@[simp] theorem State.modTile_rotations (s : State) (t : Nat) (g : Tile → Tile) : (s.modTile t g).rotations = s.rotations := rfl
@[simp] theorem State.modTile_cohorts (s : State) (t : Nat) (g : Tile → Tile) : (s.modTile t g).cohorts = s.cohorts := rfl
@[simp] theorem State.modTile_groups (s : State) (t : Nat) (g : Tile → Tile) : (s.modTile t g).groups = s.groups := rfl
@[simp] theorem State.modTile_peers (s : State) (t : Nat) (g : Tile → Tile) : (s.modTile t g).peers = s.peers := rfl
@[simp] theorem State.modTile_hostWins (s : State) (t : Nat) (g : Tile → Tile) : (s.modTile t g).hostWins = s.hostWins := rfl
@[simp] theorem State.modTile_mcs (s : State) (t : Nat) (g : Tile → Tile) : (s.modTile t g).mcs = s.mcs := rfl
@[simp] theorem State.modTile_tlb (s : State) (t : Nat) (g : Tile → Tile) : (s.modTile t g).tlb = s.tlb := rfl
@[simp] theorem State.modTile_turns (s : State) (t : Nat) (g : Tile → Tile) : (s.modTile t g).turns = s.turns := rfl
@[simp] theorem State.modTile_channels (s : State) (t : Nat) (g : Tile → Tile) : (s.modTile t g).channels = s.channels := rfl
@[simp] theorem State.modTile_net (s : State) (t : Nat) (g : Tile → Tile) : (s.modTile t g).net = s.net := rfl
@[simp] theorem State.modTile_egress (s : State) (t : Nat) (g : Tile → Tile) : (s.modTile t g).egress = s.egress := rfl
@[simp] theorem State.modTile_outbox (s : State) (t : Nat) (g : Tile → Tile) : (s.modTile t g).outbox = s.outbox := rfl
@[simp] theorem State.modTile_inputs (s : State) (t : Nat) (g : Tile → Tile) : (s.modTile t g).inputs = s.inputs := rfl
@[simp] theorem State.modTile_tagLog (s : State) (t : Nat) (g : Tile → Tile) : (s.modTile t g).tagLog = s.tagLog := rfl
@[simp] theorem State.modTile_arrivals (s : State) (t : Nat) (g : Tile → Tile) : (s.modTile t g).arrivals = s.arrivals := rfl
@[simp] theorem State.modTile_heldFlags (s : State) (t : Nat) (g : Tile → Tile) : (s.modTile t g).heldFlags = s.heldFlags := rfl
@[simp] theorem State.modTile_epochs (s : State) (t : Nat) (g : Tile → Tile) : (s.modTile t g).epochs = s.epochs := rfl
@[simp] theorem State.modTile_fenced (s : State) (t : Nat) (g : Tile → Tile) : (s.modTile t g).fenced = s.fenced := rfl
@[simp] theorem State.modTile_frozen (s : State) (t : Nat) (g : Tile → Tile) : (s.modTile t g).frozen = s.frozen := rfl
@[simp] theorem State.modTile_alarm (s : State) (t : Nat) (g : Tile → Tile) : (s.modTile t g).alarm = s.alarm := rfl
@[simp] theorem State.modTile_powered (s : State) (t : Nat) (g : Tile → Tile) : (s.modTile t g).powered = s.powered := rfl
@[simp] theorem State.modTile_chip (s : State) (t : Nat) (g : Tile → Tile) : (s.modTile t g).chip = s.chip := rfl
@[simp] theorem State.modTile_linksDown (s : State) (t : Nat) (g : Tile → Tile) : (s.modTile t g).linksDown = s.linksDown := rfl
@[simp] theorem State.modTile_cxlFrames (s : State) (t : Nat) (g : Tile → Tile) : (s.modTile t g).cxlFrames = s.cxlFrames := rfl
@[simp] theorem State.modTile_sessions (s : State) (t : Nat) (g : Tile → Tile) : (s.modTile t g).sessions = s.sessions := rfl
@[simp] theorem State.modTile_owner (s : State) (t : Nat) (g : Tile → Tile) : (s.modTile t g).owner = s.owner := rfl
@[simp] theorem State.modTile_ownerSlot (s : State) (t : Nat) (g : Tile → Tile) : (s.modTile t g).ownerSlot = s.ownerSlot := rfl
@[simp] theorem State.modTile_lease (s : State) (t : Nat) (g : Tile → Tile) : (s.modTile t g).lease = s.lease := rfl
@[simp] theorem State.modTile_acornDigest (s : State) (t : Nat) (g : Tile → Tile) : (s.modTile t g).acornDigest = s.acornDigest := rfl
@[simp] theorem State.modTile_supDigest (s : State) (t : Nat) (g : Tile → Tile) : (s.modTile t g).supDigest = s.supDigest := rfl
@[simp] theorem State.modTile_saved (s : State) (t : Nat) (g : Tile → Tile) : (s.modTile t g).saved = s.saved := rfl
@[simp] theorem State.modTile_cur (s : State) (t : Nat) (g : Tile → Tile) : (s.modTile t g).cur = s.cur := rfl
@[simp] theorem State.modTile_sel (s : State) (t : Nat) (g : Tile → Tile) : (s.modTile t g).sel = s.sel := rfl
@[simp] theorem State.modTile_schedule (s : State) (t : Nat) (g : Tile → Tile) : (s.modTile t g).schedule = s.schedule := rfl
@[simp] theorem State.modTile_ticks (s : State) (t : Nat) (g : Tile → Tile) : (s.modTile t g).ticks = s.ticks := rfl
@[simp] theorem State.modTile_fresh (s : State) (t : Nat) (g : Tile → Tile) : (s.modTile t g).fresh = s.fresh := rfl
@[simp] theorem State.modTile_nextId (s : State) (t : Nat) (g : Tile → Tile) : (s.modTile t g).nextId = s.nextId := rfl

/-- A tile's record after a write. -/
@[simp] theorem State.setTile_tile_same (s : State) (t : Nat) (u : Tile) : (s.setTile t u).tile t = u :=
  Sparse.get_set_same _ _ _ _

theorem State.setTile_tile_other (s : State) {t k : Nat} (h : k ≠ t) (u : Tile) : (s.setTile t u).tile k = s.tile k :=
  Sparse.get_set_other _ _ h _

@[simp] theorem State.modTile_tile_same (s : State) (t : Nat) (g : Tile → Tile) : (s.modTile t g).tile t = g (s.tile t) :=
  Sparse.get_set_same _ _ _ _

theorem State.modTile_tile_other (s : State) {t k : Nat} (h : k ≠ t) (g : Tile → Tile) : (s.modTile t g).tile k = s.tile k :=
  Sparse.get_set_other _ _ h _

/-- A husk after a write. -/
@[simp] theorem State.setHusk_husk_same (s : State) (n : Nat) (h : Option Husk) : (s.setHusk n h).husk n = h :=
  Sparse.get_set_same _ _ _ _

theorem State.setHusk_husk_other (s : State) {n k : Nat} (e : k ≠ n) (h : Option Husk) : (s.setHusk n h).husk k = s.husk k :=
  Sparse.get_set_other _ _ e _

@[simp] theorem State.setTile_husk (s : State) (t : Nat) (u : Tile) (n : Nat) : (s.setTile t u).husk n = s.husk n := rfl
@[simp] theorem State.modTile_husk (s : State) (t : Nat) (g : Tile → Tile) (n : Nat) : (s.modTile t g).husk n = s.husk n := rfl
@[simp] theorem State.send_tile (s : State) (p : Packet) (i : Nat) : (s.send p).tile i = s.tile i := rfl
@[simp] theorem State.send_husk (s : State) (p : Packet) (i : Nat) : (s.send p).husk i = s.husk i := rfl
@[simp] theorem State.drop_tile (s : State) (k : Nat) (i : Nat) : (s.drop k).tile i = s.tile i := rfl
@[simp] theorem State.drop_husk (s : State) (k : Nat) (i : Nat) : (s.drop k).husk i = s.husk i := rfl
@[simp] theorem State.refuse_tile (s : State) (k hint : Nat) (i : Nat) : (s.refuse k hint).tile i = s.tile i := rfl
@[simp] theorem State.refuse_husk (s : State) (k hint : Nat) (i : Nat) : (s.refuse k hint).husk i = s.husk i := rfl
@[simp] theorem State.setEmpty_tile (s : State) (t off : Nat) (b : Bool) (i : Nat) : (s.setEmpty t off b).tile i = s.tile i := rfl
@[simp] theorem State.setEmpty_husk (s : State) (t off : Nat) (b : Bool) (i : Nat) : (s.setEmpty t off b).husk i = s.husk i := rfl
@[simp] theorem State.setEcc_tile (s : State) (t off : Nat) (e : Ecc) (i : Nat) : (s.setEcc t off e).tile i = s.tile i := rfl
@[simp] theorem State.setEcc_husk (s : State) (t off : Nat) (e : Ecc) (i : Nat) : (s.setEcc t off e).husk i = s.husk i := rfl
@[simp] theorem State.setSide_tile (s : State) (t off : Nat) (e : Option Side) (i : Nat) : (s.setSide t off e).tile i = s.tile i := rfl
@[simp] theorem State.setSide_husk (s : State) (t off : Nat) (e : Option Side) (i : Nat) : (s.setSide t off e).husk i = s.husk i := rfl
@[simp] theorem State.putFar_tile (s : State) (k : Nat) (bs : List Byte) (i : Nat) : (s.putFar k bs).tile i = s.tile i := rfl
@[simp] theorem State.putFar_husk (s : State) (k : Nat) (bs : List Byte) (i : Nat) : (s.putFar k bs).husk i = s.husk i := rfl
@[simp] theorem setBytes_tile (s : State) (k : Nat) (bs : List Byte) (i : Nat) : (setBytes s k bs).tile i = s.tile i := rfl
@[simp] theorem setBytes_husk (s : State) (k : Nat) (bs : List Byte) (i : Nat) : (setBytes s k bs).husk i = s.husk i := rfl
@[simp] theorem State.setHusk_tile (s : State) (n : Nat) (h : Option Husk) (i : Nat) : (s.setHusk n h).tile i = s.tile i := rfl

/-! ### A tile -/

@[simp] theorem Tile.setCtx_attr (u : Tile) (i : Nat) (c : Ctx) : (u.setCtx i c).attr = u.attr := rfl
@[simp] theorem Tile.setCtx_waiters (u : Tile) (i : Nat) (c : Ctx) : (u.setCtx i c).waiters = u.waiters := rfl
@[simp] theorem Tile.setCtx_gens (u : Tile) (i : Nat) (c : Ctx) : (u.setCtx i c).gens = u.gens := rfl
@[simp] theorem Tile.setCtx_cur0 (u : Tile) (i : Nat) (c : Ctx) : (u.setCtx i c).cur0 = u.cur0 := rfl
@[simp] theorem Tile.setCtx_l1 (u : Tile) (i : Nat) (c : Ctx) : (u.setCtx i c).l1 = u.l1 := rfl
@[simp] theorem Tile.setCtx_hnd (u : Tile) (i : Nat) (c : Ctx) : (u.setCtx i c).hnd = u.hnd := rfl
@[simp] theorem Tile.setCtx_tvec (u : Tile) (i : Nat) (c : Ctx) : (u.setCtx i c).tvec = u.tvec := rfl
@[simp] theorem Tile.setCtx_svec (u : Tile) (i : Nat) (c : Ctx) : (u.setCtx i c).svec = u.svec := rfl
@[simp] theorem Tile.setCtx_slice (u : Tile) (i : Nat) (c : Ctx) : (u.setCtx i c).slice = u.slice := rfl
@[simp] theorem Tile.setCtx_ctxbase (u : Tile) (i : Nat) (c : Ctx) : (u.setCtx i c).ctxbase = u.ctxbase := rfl
@[simp] theorem Tile.setCtx_used (u : Tile) (i : Nat) (c : Ctx) : (u.setCtx i c).used = u.used := rfl
@[simp] theorem Tile.setCtx_lim (u : Tile) (i : Nat) (c : Ctx) : (u.setCtx i c).lim = u.lim := rfl
@[simp] theorem Tile.setCtx_ready (u : Tile) (i : Nat) (c : Ctx) : (u.setCtx i c).ready = u.ready := rfl
@[simp] theorem Tile.setCtx_l1q (u : Tile) (i : Nat) (c : Ctx) : (u.setCtx i c).l1q = u.l1q := rfl
@[simp] theorem Tile.setCtx_wake (u : Tile) (i : Nat) (c : Ctx) : (u.setCtx i c).wake = u.wake := rfl
@[simp] theorem Tile.setCtx_al (u : Tile) (i : Nat) (c : Ctx) : (u.setCtx i c).al = u.al := rfl
@[simp] theorem Tile.setCtx_alBind (u : Tile) (i : Nat) (c : Ctx) : (u.setCtx i c).alBind = u.alBind := rfl
@[simp] theorem Tile.setCtx_hq (u : Tile) (i : Nat) (c : Ctx) : (u.setCtx i c).hq = u.hq := rfl
@[simp] theorem Tile.setCtx_ports (u : Tile) (i : Nat) (c : Ctx) : (u.setCtx i c).ports = u.ports := rfl
@[simp] theorem Tile.setCtx_occ (u : Tile) (i : Nat) (c : Ctx) : (u.setCtx i c).occ = u.occ := rfl
@[simp] theorem Tile.setCtx_withheld (u : Tile) (i : Nat) (c : Ctx) : (u.setCtx i c).withheld = u.withheld := rfl
@[simp] theorem Tile.setCtx_cong (u : Tile) (i : Nat) (c : Ctx) : (u.setCtx i c).cong = u.cong := rfl
@[simp] theorem Tile.setCtx_halvedAt (u : Tile) (i : Nat) (c : Ctx) : (u.setCtx i c).halvedAt = u.halvedAt := rfl
@[simp] theorem Tile.setCtx_cyc (u : Tile) (i : Nat) (c : Ctx) : (u.setCtx i c).cyc = u.cyc := rfl
@[simp] theorem Tile.setCtx_line (u : Tile) (i : Nat) (c : Ctx) : (u.setCtx i c).line = u.line := rfl
@[simp] theorem Tile.setCtx_atLine (u : Tile) (i : Nat) (c : Ctx) : (u.setCtx i c).atLine = u.atLine := rfl
@[simp] theorem Tile.setCtx_checkTo (u : Tile) (i : Nat) (c : Ctx) : (u.setCtx i c).checkTo = u.checkTo := rfl
@[simp] theorem Tile.setCtx_pairNext (u : Tile) (i : Nat) (c : Ctx) : (u.setCtx i c).pairNext = u.pairNext := rfl
@[simp] theorem Tile.setCtx_pairBeats (u : Tile) (i : Nat) (c : Ctx) : (u.setCtx i c).pairBeats = u.pairBeats := rfl
@[simp] theorem Tile.setCtx_stale (u : Tile) (i : Nat) (c : Ctx) : (u.setCtx i c).stale = u.stale := rfl
@[simp] theorem Tile.setCtx_pend (u : Tile) (i : Nat) (c : Ctx) : (u.setCtx i c).pend = u.pend := rfl
@[simp] theorem Tile.setCtx_seq (u : Tile) (i : Nat) (c : Ctx) : (u.setCtx i c).seq = u.seq := rfl
@[simp] theorem Tile.setCtx_out (u : Tile) (i : Nat) (c : Ctx) : (u.setCtx i c).out = u.out := rfl
@[simp] theorem Tile.setCtx_sent (u : Tile) (i : Nat) (c : Ctx) : (u.setCtx i c).sent = u.sent := rfl
@[simp] theorem Tile.setCtx_divider (u : Tile) (i : Nat) (c : Ctx) : (u.setCtx i c).divider = u.divider := rfl
@[simp] theorem Tile.setCtx_reduction (u : Tile) (i : Nat) (c : Ctx) : (u.setCtx i c).reduction = u.reduction := rfl
@[simp] theorem Tile.setCtx_matrix (u : Tile) (i : Nat) (c : Ctx) : (u.setCtx i c).matrix = u.matrix := rfl
@[simp] theorem Tile.setCtx_locks (u : Tile) (i : Nat) (c : Ctx) : (u.setCtx i c).locks = u.locks := rfl
@[simp] theorem Tile.setCtx_commut (u : Tile) (i : Nat) (c : Ctx) : (u.setCtx i c).commut = u.commut := rfl
@[simp] theorem Tile.setCtx_abort (u : Tile) (i : Nat) (c : Ctx) : (u.setCtx i c).abort = u.abort := rfl
@[simp] theorem Tile.setCtx_undo (u : Tile) (i : Nat) (c : Ctx) : (u.setCtx i c).undo = u.undo := rfl
@[simp] theorem Tile.setCtx_phase (u : Tile) (i : Nat) (c : Ctx) : (u.setCtx i c).phase = u.phase := rfl
@[simp] theorem Tile.setCtx_det (u : Tile) (i : Nat) (c : Ctx) : (u.setCtx i c).det = u.det := rfl
@[simp] theorem Tile.setCtx_pairing (u : Tile) (i : Nat) (c : Ctx) : (u.setCtx i c).pairing = u.pairing := rfl
@[simp] theorem Tile.setCtx_follows (u : Tile) (i : Nat) (c : Ctx) : (u.setCtx i c).follows = u.follows := rfl
@[simp] theorem Tile.setCtx_fwd (u : Tile) (i : Nat) (c : Ctx) : (u.setCtx i c).fwd = u.fwd := rfl
@[simp] theorem Tile.setCtx_seta (u : Tile) (i : Nat) (c : Ctx) : (u.setCtx i c).seta = u.seta := rfl
@[simp] theorem Tile.setCtx_popped (u : Tile) (i : Nat) (c : Ctx) : (u.setCtx i c).popped = u.popped := rfl
@[simp] theorem Tile.setCtx_held (u : Tile) (i : Nat) (c : Ctx) : (u.setCtx i c).held = u.held := rfl

@[simp] theorem Tile.setAllow_attr (u : Tile) (k v : Nat) : (u.setAllow k v).attr = u.attr := rfl
@[simp] theorem Tile.setAllow_waiters (u : Tile) (k v : Nat) : (u.setAllow k v).waiters = u.waiters := rfl
@[simp] theorem Tile.setAllow_images (u : Tile) (k v : Nat) : (u.setAllow k v).images = u.images := rfl
@[simp] theorem Tile.setAllow_gens (u : Tile) (k v : Nat) : (u.setAllow k v).gens = u.gens := rfl
@[simp] theorem Tile.setAllow_cur0 (u : Tile) (k v : Nat) : (u.setAllow k v).cur0 = u.cur0 := rfl
@[simp] theorem Tile.setAllow_l1 (u : Tile) (k v : Nat) : (u.setAllow k v).l1 = u.l1 := rfl
@[simp] theorem Tile.setAllow_hnd (u : Tile) (k v : Nat) : (u.setAllow k v).hnd = u.hnd := rfl
@[simp] theorem Tile.setAllow_tvec (u : Tile) (k v : Nat) : (u.setAllow k v).tvec = u.tvec := rfl
@[simp] theorem Tile.setAllow_svec (u : Tile) (k v : Nat) : (u.setAllow k v).svec = u.svec := rfl
@[simp] theorem Tile.setAllow_slice (u : Tile) (k v : Nat) : (u.setAllow k v).slice = u.slice := rfl
@[simp] theorem Tile.setAllow_ctxbase (u : Tile) (k v : Nat) : (u.setAllow k v).ctxbase = u.ctxbase := rfl
@[simp] theorem Tile.setAllow_used (u : Tile) (k v : Nat) : (u.setAllow k v).used = u.used := rfl
@[simp] theorem Tile.setAllow_lim (u : Tile) (k v : Nat) : (u.setAllow k v).lim = u.lim := rfl
@[simp] theorem Tile.setAllow_ready (u : Tile) (k v : Nat) : (u.setAllow k v).ready = u.ready := rfl
@[simp] theorem Tile.setAllow_l1q (u : Tile) (k v : Nat) : (u.setAllow k v).l1q = u.l1q := rfl
@[simp] theorem Tile.setAllow_wake (u : Tile) (k v : Nat) : (u.setAllow k v).wake = u.wake := rfl
@[simp] theorem Tile.setAllow_alBind (u : Tile) (k v : Nat) : (u.setAllow k v).alBind = u.alBind := rfl
@[simp] theorem Tile.setAllow_hq (u : Tile) (k v : Nat) : (u.setAllow k v).hq = u.hq := rfl
@[simp] theorem Tile.setAllow_ports (u : Tile) (k v : Nat) : (u.setAllow k v).ports = u.ports := rfl
@[simp] theorem Tile.setAllow_occ (u : Tile) (k v : Nat) : (u.setAllow k v).occ = u.occ := rfl
@[simp] theorem Tile.setAllow_withheld (u : Tile) (k v : Nat) : (u.setAllow k v).withheld = u.withheld := rfl
@[simp] theorem Tile.setAllow_cong (u : Tile) (k v : Nat) : (u.setAllow k v).cong = u.cong := rfl
@[simp] theorem Tile.setAllow_halvedAt (u : Tile) (k v : Nat) : (u.setAllow k v).halvedAt = u.halvedAt := rfl
@[simp] theorem Tile.setAllow_cyc (u : Tile) (k v : Nat) : (u.setAllow k v).cyc = u.cyc := rfl
@[simp] theorem Tile.setAllow_line (u : Tile) (k v : Nat) : (u.setAllow k v).line = u.line := rfl
@[simp] theorem Tile.setAllow_atLine (u : Tile) (k v : Nat) : (u.setAllow k v).atLine = u.atLine := rfl
@[simp] theorem Tile.setAllow_checkTo (u : Tile) (k v : Nat) : (u.setAllow k v).checkTo = u.checkTo := rfl
@[simp] theorem Tile.setAllow_pairNext (u : Tile) (k v : Nat) : (u.setAllow k v).pairNext = u.pairNext := rfl
@[simp] theorem Tile.setAllow_pairBeats (u : Tile) (k v : Nat) : (u.setAllow k v).pairBeats = u.pairBeats := rfl
@[simp] theorem Tile.setAllow_stale (u : Tile) (k v : Nat) : (u.setAllow k v).stale = u.stale := rfl
@[simp] theorem Tile.setAllow_pend (u : Tile) (k v : Nat) : (u.setAllow k v).pend = u.pend := rfl
@[simp] theorem Tile.setAllow_seq (u : Tile) (k v : Nat) : (u.setAllow k v).seq = u.seq := rfl
@[simp] theorem Tile.setAllow_out (u : Tile) (k v : Nat) : (u.setAllow k v).out = u.out := rfl
@[simp] theorem Tile.setAllow_sent (u : Tile) (k v : Nat) : (u.setAllow k v).sent = u.sent := rfl
@[simp] theorem Tile.setAllow_divider (u : Tile) (k v : Nat) : (u.setAllow k v).divider = u.divider := rfl
@[simp] theorem Tile.setAllow_reduction (u : Tile) (k v : Nat) : (u.setAllow k v).reduction = u.reduction := rfl
@[simp] theorem Tile.setAllow_matrix (u : Tile) (k v : Nat) : (u.setAllow k v).matrix = u.matrix := rfl
@[simp] theorem Tile.setAllow_locks (u : Tile) (k v : Nat) : (u.setAllow k v).locks = u.locks := rfl
@[simp] theorem Tile.setAllow_commut (u : Tile) (k v : Nat) : (u.setAllow k v).commut = u.commut := rfl
@[simp] theorem Tile.setAllow_abort (u : Tile) (k v : Nat) : (u.setAllow k v).abort = u.abort := rfl
@[simp] theorem Tile.setAllow_undo (u : Tile) (k v : Nat) : (u.setAllow k v).undo = u.undo := rfl
@[simp] theorem Tile.setAllow_phase (u : Tile) (k v : Nat) : (u.setAllow k v).phase = u.phase := rfl
@[simp] theorem Tile.setAllow_det (u : Tile) (k v : Nat) : (u.setAllow k v).det = u.det := rfl
@[simp] theorem Tile.setAllow_pairing (u : Tile) (k v : Nat) : (u.setAllow k v).pairing = u.pairing := rfl
@[simp] theorem Tile.setAllow_follows (u : Tile) (k v : Nat) : (u.setAllow k v).follows = u.follows := rfl
@[simp] theorem Tile.setAllow_fwd (u : Tile) (k v : Nat) : (u.setAllow k v).fwd = u.fwd := rfl
@[simp] theorem Tile.setAllow_seta (u : Tile) (k v : Nat) : (u.setAllow k v).seta = u.seta := rfl
@[simp] theorem Tile.setAllow_popped (u : Tile) (k v : Nat) : (u.setAllow k v).popped = u.popped := rfl
@[simp] theorem Tile.setAllow_held (u : Tile) (k v : Nat) : (u.setAllow k v).held = u.held := rfl

@[simp] theorem Tile.setHq_attr (u : Tile) (q : Nat) (x : HQueue) : (u.setHq q x).attr = u.attr := rfl
@[simp] theorem Tile.setHq_waiters (u : Tile) (q : Nat) (x : HQueue) : (u.setHq q x).waiters = u.waiters := rfl
@[simp] theorem Tile.setHq_images (u : Tile) (q : Nat) (x : HQueue) : (u.setHq q x).images = u.images := rfl
@[simp] theorem Tile.setHq_gens (u : Tile) (q : Nat) (x : HQueue) : (u.setHq q x).gens = u.gens := rfl
@[simp] theorem Tile.setHq_cur0 (u : Tile) (q : Nat) (x : HQueue) : (u.setHq q x).cur0 = u.cur0 := rfl
@[simp] theorem Tile.setHq_l1 (u : Tile) (q : Nat) (x : HQueue) : (u.setHq q x).l1 = u.l1 := rfl
@[simp] theorem Tile.setHq_hnd (u : Tile) (q : Nat) (x : HQueue) : (u.setHq q x).hnd = u.hnd := rfl
@[simp] theorem Tile.setHq_tvec (u : Tile) (q : Nat) (x : HQueue) : (u.setHq q x).tvec = u.tvec := rfl
@[simp] theorem Tile.setHq_svec (u : Tile) (q : Nat) (x : HQueue) : (u.setHq q x).svec = u.svec := rfl
@[simp] theorem Tile.setHq_slice (u : Tile) (q : Nat) (x : HQueue) : (u.setHq q x).slice = u.slice := rfl
@[simp] theorem Tile.setHq_ctxbase (u : Tile) (q : Nat) (x : HQueue) : (u.setHq q x).ctxbase = u.ctxbase := rfl
@[simp] theorem Tile.setHq_used (u : Tile) (q : Nat) (x : HQueue) : (u.setHq q x).used = u.used := rfl
@[simp] theorem Tile.setHq_lim (u : Tile) (q : Nat) (x : HQueue) : (u.setHq q x).lim = u.lim := rfl
@[simp] theorem Tile.setHq_ready (u : Tile) (q : Nat) (x : HQueue) : (u.setHq q x).ready = u.ready := rfl
@[simp] theorem Tile.setHq_l1q (u : Tile) (q : Nat) (x : HQueue) : (u.setHq q x).l1q = u.l1q := rfl
@[simp] theorem Tile.setHq_wake (u : Tile) (q : Nat) (x : HQueue) : (u.setHq q x).wake = u.wake := rfl
@[simp] theorem Tile.setHq_al (u : Tile) (q : Nat) (x : HQueue) : (u.setHq q x).al = u.al := rfl
@[simp] theorem Tile.setHq_alBind (u : Tile) (q : Nat) (x : HQueue) : (u.setHq q x).alBind = u.alBind := rfl
@[simp] theorem Tile.setHq_ports (u : Tile) (q : Nat) (x : HQueue) : (u.setHq q x).ports = u.ports := rfl
@[simp] theorem Tile.setHq_occ (u : Tile) (q : Nat) (x : HQueue) : (u.setHq q x).occ = u.occ := rfl
@[simp] theorem Tile.setHq_withheld (u : Tile) (q : Nat) (x : HQueue) : (u.setHq q x).withheld = u.withheld := rfl
@[simp] theorem Tile.setHq_cong (u : Tile) (q : Nat) (x : HQueue) : (u.setHq q x).cong = u.cong := rfl
@[simp] theorem Tile.setHq_halvedAt (u : Tile) (q : Nat) (x : HQueue) : (u.setHq q x).halvedAt = u.halvedAt := rfl
@[simp] theorem Tile.setHq_cyc (u : Tile) (q : Nat) (x : HQueue) : (u.setHq q x).cyc = u.cyc := rfl
@[simp] theorem Tile.setHq_line (u : Tile) (q : Nat) (x : HQueue) : (u.setHq q x).line = u.line := rfl
@[simp] theorem Tile.setHq_atLine (u : Tile) (q : Nat) (x : HQueue) : (u.setHq q x).atLine = u.atLine := rfl
@[simp] theorem Tile.setHq_checkTo (u : Tile) (q : Nat) (x : HQueue) : (u.setHq q x).checkTo = u.checkTo := rfl
@[simp] theorem Tile.setHq_pairNext (u : Tile) (q : Nat) (x : HQueue) : (u.setHq q x).pairNext = u.pairNext := rfl
@[simp] theorem Tile.setHq_pairBeats (u : Tile) (q : Nat) (x : HQueue) : (u.setHq q x).pairBeats = u.pairBeats := rfl
@[simp] theorem Tile.setHq_stale (u : Tile) (q : Nat) (x : HQueue) : (u.setHq q x).stale = u.stale := rfl
@[simp] theorem Tile.setHq_pend (u : Tile) (q : Nat) (x : HQueue) : (u.setHq q x).pend = u.pend := rfl
@[simp] theorem Tile.setHq_seq (u : Tile) (q : Nat) (x : HQueue) : (u.setHq q x).seq = u.seq := rfl
@[simp] theorem Tile.setHq_out (u : Tile) (q : Nat) (x : HQueue) : (u.setHq q x).out = u.out := rfl
@[simp] theorem Tile.setHq_sent (u : Tile) (q : Nat) (x : HQueue) : (u.setHq q x).sent = u.sent := rfl
@[simp] theorem Tile.setHq_divider (u : Tile) (q : Nat) (x : HQueue) : (u.setHq q x).divider = u.divider := rfl
@[simp] theorem Tile.setHq_reduction (u : Tile) (q : Nat) (x : HQueue) : (u.setHq q x).reduction = u.reduction := rfl
@[simp] theorem Tile.setHq_matrix (u : Tile) (q : Nat) (x : HQueue) : (u.setHq q x).matrix = u.matrix := rfl
@[simp] theorem Tile.setHq_locks (u : Tile) (q : Nat) (x : HQueue) : (u.setHq q x).locks = u.locks := rfl
@[simp] theorem Tile.setHq_commut (u : Tile) (q : Nat) (x : HQueue) : (u.setHq q x).commut = u.commut := rfl
@[simp] theorem Tile.setHq_abort (u : Tile) (q : Nat) (x : HQueue) : (u.setHq q x).abort = u.abort := rfl
@[simp] theorem Tile.setHq_undo (u : Tile) (q : Nat) (x : HQueue) : (u.setHq q x).undo = u.undo := rfl
@[simp] theorem Tile.setHq_phase (u : Tile) (q : Nat) (x : HQueue) : (u.setHq q x).phase = u.phase := rfl
@[simp] theorem Tile.setHq_det (u : Tile) (q : Nat) (x : HQueue) : (u.setHq q x).det = u.det := rfl
@[simp] theorem Tile.setHq_pairing (u : Tile) (q : Nat) (x : HQueue) : (u.setHq q x).pairing = u.pairing := rfl
@[simp] theorem Tile.setHq_follows (u : Tile) (q : Nat) (x : HQueue) : (u.setHq q x).follows = u.follows := rfl
@[simp] theorem Tile.setHq_fwd (u : Tile) (q : Nat) (x : HQueue) : (u.setHq q x).fwd = u.fwd := rfl
@[simp] theorem Tile.setHq_seta (u : Tile) (q : Nat) (x : HQueue) : (u.setHq q x).seta = u.seta := rfl
@[simp] theorem Tile.setHq_popped (u : Tile) (q : Nat) (x : HQueue) : (u.setHq q x).popped = u.popped := rfl
@[simp] theorem Tile.setHq_held (u : Tile) (q : Nat) (x : HQueue) : (u.setHq q x).held = u.held := rfl

@[simp] theorem Tile.setCtx_ctx_same (u : Tile) (i : Nat) (c : Ctx) : (u.setCtx i c).ctx i = c := Sparse.get_set_same _ _ _ _

theorem Tile.setCtx_ctx_other (u : Tile) {i j : Nat} (h : j ≠ i) (c : Ctx) : (u.setCtx i c).ctx j = u.ctx j :=
  Sparse.get_set_other _ _ h _

@[simp] theorem Tile.modTask_attr (u : Tile) (w : Who) (g : Task → Task) : (u.modTask w g).attr = u.attr := by
  unfold Tile.modTask; repeat' split
  all_goals rfl
@[simp] theorem Tile.modTask_waiters (u : Tile) (w : Who) (g : Task → Task) : (u.modTask w g).waiters = u.waiters := by
  unfold Tile.modTask; repeat' split
  all_goals rfl
@[simp] theorem Tile.modTask_gens (u : Tile) (w : Who) (g : Task → Task) : (u.modTask w g).gens = u.gens := by
  unfold Tile.modTask; repeat' split
  all_goals rfl
@[simp] theorem Tile.modTask_cur0 (u : Tile) (w : Who) (g : Task → Task) : (u.modTask w g).cur0 = u.cur0 := by
  unfold Tile.modTask; repeat' split
  all_goals rfl
@[simp] theorem Tile.modTask_tvec (u : Tile) (w : Who) (g : Task → Task) : (u.modTask w g).tvec = u.tvec := by
  unfold Tile.modTask; repeat' split
  all_goals rfl
@[simp] theorem Tile.modTask_svec (u : Tile) (w : Who) (g : Task → Task) : (u.modTask w g).svec = u.svec := by
  unfold Tile.modTask; repeat' split
  all_goals rfl
@[simp] theorem Tile.modTask_slice (u : Tile) (w : Who) (g : Task → Task) : (u.modTask w g).slice = u.slice := by
  unfold Tile.modTask; repeat' split
  all_goals rfl
@[simp] theorem Tile.modTask_ctxbase (u : Tile) (w : Who) (g : Task → Task) : (u.modTask w g).ctxbase = u.ctxbase := by
  unfold Tile.modTask; repeat' split
  all_goals rfl
@[simp] theorem Tile.modTask_used (u : Tile) (w : Who) (g : Task → Task) : (u.modTask w g).used = u.used := by
  unfold Tile.modTask; repeat' split
  all_goals rfl
@[simp] theorem Tile.modTask_lim (u : Tile) (w : Who) (g : Task → Task) : (u.modTask w g).lim = u.lim := by
  unfold Tile.modTask; repeat' split
  all_goals rfl
@[simp] theorem Tile.modTask_ready (u : Tile) (w : Who) (g : Task → Task) : (u.modTask w g).ready = u.ready := by
  unfold Tile.modTask; repeat' split
  all_goals rfl
@[simp] theorem Tile.modTask_l1q (u : Tile) (w : Who) (g : Task → Task) : (u.modTask w g).l1q = u.l1q := by
  unfold Tile.modTask; repeat' split
  all_goals rfl
@[simp] theorem Tile.modTask_wake (u : Tile) (w : Who) (g : Task → Task) : (u.modTask w g).wake = u.wake := by
  unfold Tile.modTask; repeat' split
  all_goals rfl
@[simp] theorem Tile.modTask_al (u : Tile) (w : Who) (g : Task → Task) : (u.modTask w g).al = u.al := by
  unfold Tile.modTask; repeat' split
  all_goals rfl
@[simp] theorem Tile.modTask_alBind (u : Tile) (w : Who) (g : Task → Task) : (u.modTask w g).alBind = u.alBind := by
  unfold Tile.modTask; repeat' split
  all_goals rfl
@[simp] theorem Tile.modTask_hq (u : Tile) (w : Who) (g : Task → Task) : (u.modTask w g).hq = u.hq := by
  unfold Tile.modTask; repeat' split
  all_goals rfl
@[simp] theorem Tile.modTask_ports (u : Tile) (w : Who) (g : Task → Task) : (u.modTask w g).ports = u.ports := by
  unfold Tile.modTask; repeat' split
  all_goals rfl
@[simp] theorem Tile.modTask_occ (u : Tile) (w : Who) (g : Task → Task) : (u.modTask w g).occ = u.occ := by
  unfold Tile.modTask; repeat' split
  all_goals rfl
@[simp] theorem Tile.modTask_withheld (u : Tile) (w : Who) (g : Task → Task) : (u.modTask w g).withheld = u.withheld := by
  unfold Tile.modTask; repeat' split
  all_goals rfl
@[simp] theorem Tile.modTask_cong (u : Tile) (w : Who) (g : Task → Task) : (u.modTask w g).cong = u.cong := by
  unfold Tile.modTask; repeat' split
  all_goals rfl
@[simp] theorem Tile.modTask_halvedAt (u : Tile) (w : Who) (g : Task → Task) : (u.modTask w g).halvedAt = u.halvedAt := by
  unfold Tile.modTask; repeat' split
  all_goals rfl
@[simp] theorem Tile.modTask_cyc (u : Tile) (w : Who) (g : Task → Task) : (u.modTask w g).cyc = u.cyc := by
  unfold Tile.modTask; repeat' split
  all_goals rfl
@[simp] theorem Tile.modTask_line (u : Tile) (w : Who) (g : Task → Task) : (u.modTask w g).line = u.line := by
  unfold Tile.modTask; repeat' split
  all_goals rfl
@[simp] theorem Tile.modTask_atLine (u : Tile) (w : Who) (g : Task → Task) : (u.modTask w g).atLine = u.atLine := by
  unfold Tile.modTask; repeat' split
  all_goals rfl
@[simp] theorem Tile.modTask_checkTo (u : Tile) (w : Who) (g : Task → Task) : (u.modTask w g).checkTo = u.checkTo := by
  unfold Tile.modTask; repeat' split
  all_goals rfl
@[simp] theorem Tile.modTask_pairNext (u : Tile) (w : Who) (g : Task → Task) : (u.modTask w g).pairNext = u.pairNext := by
  unfold Tile.modTask; repeat' split
  all_goals rfl
@[simp] theorem Tile.modTask_pairBeats (u : Tile) (w : Who) (g : Task → Task) : (u.modTask w g).pairBeats = u.pairBeats := by
  unfold Tile.modTask; repeat' split
  all_goals rfl
@[simp] theorem Tile.modTask_stale (u : Tile) (w : Who) (g : Task → Task) : (u.modTask w g).stale = u.stale := by
  unfold Tile.modTask; repeat' split
  all_goals rfl
@[simp] theorem Tile.modTask_pend (u : Tile) (w : Who) (g : Task → Task) : (u.modTask w g).pend = u.pend := by
  unfold Tile.modTask; repeat' split
  all_goals rfl
@[simp] theorem Tile.modTask_seq (u : Tile) (w : Who) (g : Task → Task) : (u.modTask w g).seq = u.seq := by
  unfold Tile.modTask; repeat' split
  all_goals rfl
@[simp] theorem Tile.modTask_out (u : Tile) (w : Who) (g : Task → Task) : (u.modTask w g).out = u.out := by
  unfold Tile.modTask; repeat' split
  all_goals rfl
@[simp] theorem Tile.modTask_sent (u : Tile) (w : Who) (g : Task → Task) : (u.modTask w g).sent = u.sent := by
  unfold Tile.modTask; repeat' split
  all_goals rfl
@[simp] theorem Tile.modTask_divider (u : Tile) (w : Who) (g : Task → Task) : (u.modTask w g).divider = u.divider := by
  unfold Tile.modTask; repeat' split
  all_goals rfl
@[simp] theorem Tile.modTask_reduction (u : Tile) (w : Who) (g : Task → Task) : (u.modTask w g).reduction = u.reduction := by
  unfold Tile.modTask; repeat' split
  all_goals rfl
@[simp] theorem Tile.modTask_matrix (u : Tile) (w : Who) (g : Task → Task) : (u.modTask w g).matrix = u.matrix := by
  unfold Tile.modTask; repeat' split
  all_goals rfl
@[simp] theorem Tile.modTask_locks (u : Tile) (w : Who) (g : Task → Task) : (u.modTask w g).locks = u.locks := by
  unfold Tile.modTask; repeat' split
  all_goals rfl
@[simp] theorem Tile.modTask_commut (u : Tile) (w : Who) (g : Task → Task) : (u.modTask w g).commut = u.commut := by
  unfold Tile.modTask; repeat' split
  all_goals rfl
@[simp] theorem Tile.modTask_abort (u : Tile) (w : Who) (g : Task → Task) : (u.modTask w g).abort = u.abort := by
  unfold Tile.modTask; repeat' split
  all_goals rfl
@[simp] theorem Tile.modTask_undo (u : Tile) (w : Who) (g : Task → Task) : (u.modTask w g).undo = u.undo := by
  unfold Tile.modTask; repeat' split
  all_goals rfl
@[simp] theorem Tile.modTask_phase (u : Tile) (w : Who) (g : Task → Task) : (u.modTask w g).phase = u.phase := by
  unfold Tile.modTask; repeat' split
  all_goals rfl
@[simp] theorem Tile.modTask_det (u : Tile) (w : Who) (g : Task → Task) : (u.modTask w g).det = u.det := by
  unfold Tile.modTask; repeat' split
  all_goals rfl
@[simp] theorem Tile.modTask_pairing (u : Tile) (w : Who) (g : Task → Task) : (u.modTask w g).pairing = u.pairing := by
  unfold Tile.modTask; repeat' split
  all_goals rfl
@[simp] theorem Tile.modTask_follows (u : Tile) (w : Who) (g : Task → Task) : (u.modTask w g).follows = u.follows := by
  unfold Tile.modTask; repeat' split
  all_goals rfl
@[simp] theorem Tile.modTask_fwd (u : Tile) (w : Who) (g : Task → Task) : (u.modTask w g).fwd = u.fwd := by
  unfold Tile.modTask; repeat' split
  all_goals rfl
@[simp] theorem Tile.modTask_seta (u : Tile) (w : Who) (g : Task → Task) : (u.modTask w g).seta = u.seta := by
  unfold Tile.modTask; repeat' split
  all_goals rfl
@[simp] theorem Tile.modTask_popped (u : Tile) (w : Who) (g : Task → Task) : (u.modTask w g).popped = u.popped := by
  unfold Tile.modTask; repeat' split
  all_goals rfl
@[simp] theorem Tile.modTask_held (u : Tile) (w : Who) (g : Task → Task) : (u.modTask w g).held = u.held := by
  unfold Tile.modTask; repeat' split
  all_goals rfl

/-- A stream's level-1 frame and handler frame stay where they are. -/
@[simp] theorem Tile.modTask_l1_isSome (u : Tile) (w : Who) (g : Task → Task) : (u.modTask w g).l1.isSome = u.l1.isSome := by
  unfold Tile.modTask; repeat' split
  all_goals simp_all

@[simp] theorem Tile.modTask_hnd_isSome (u : Tile) (w : Who) (g : Task → Task) : (u.modTask w g).hnd.isSome = u.hnd.isSome := by
  unfold Tile.modTask; repeat' split
  all_goals simp_all

/-- The stream that runs stays the same. -/
@[simp] theorem Tile.modTask_active (u : Tile) (w : Who) (g : Task → Task) : (u.modTask w g).active = u.active := by
  simp [Tile.active]

/-- The registers of the running stream after a change of them. -/
theorem Tile.modTask_task (u : Tile) (w : Who) (g : Task → Task) (h : u.active = some w) : (u.modTask w g).task w = g (u.task w) := by
  cases w with
  | img i => simp [Tile.modTask, Tile.task]
  | lvl1 =>
    cases hl : u.l1 with
    | none => simp [Tile.active, hl] at h; split at h <;> simp at h
    | some x => simp [Tile.modTask, Tile.task, hl]
  | hnd =>
    cases hl : u.hnd with
    | none => simp [Tile.active, hl] at h; split at h <;> simp at h
    | some x => simp [Tile.modTask, Tile.task, hl]

/-! ### A task -/

@[simp] theorem Task.setD_pc (k : Task) (i v : Nat) : (k.setD i v).pc = k.pc := rfl
@[simp] theorem Task.setD_tstat (k : Task) (i v : Nat) : (k.setD i v).tstat = k.tstat := rfl
@[simp] theorem Task.setD_sticky (k : Task) (i v : Nat) : (k.setD i v).sticky = k.sticky := rfl
@[simp] theorem Task.setD_ret (k : Task) (i v : Nat) : (k.setD i v).ret = k.ret := rfl
@[simp] theorem Task.setD_it (k : Task) (i v : Nat) : (k.setD i v).it = k.it := rfl
@[simp] theorem Task.setD_gid (k : Task) (i v : Nat) : (k.setD i v).gid = k.gid := rfl
@[simp] theorem Task.setD_lid (k : Task) (i v : Nat) : (k.setD i v).lid = k.lid := rfl
@[simp] theorem Task.setD_p (k : Task) (i v : Nat) : (k.setD i v).p = k.p := rfl
@[simp] theorem Task.setD_g (k : Task) (i v : Nat) : (k.setD i v).g = k.g := rfl
@[simp] theorem Task.setD_w (k : Task) (i v : Nat) : (k.setD i v).w = k.w := rfl
@[simp] theorem Task.setD_late (k : Task) (i v : Nat) : (k.setD i v).late = k.late := rfl
@[simp] theorem Task.setD_mid (k : Task) (i v : Nat) : (k.setD i v).mid = k.mid := rfl
@[simp] theorem Task.setD_waitNo (k : Task) (i v : Nat) : (k.setD i v).waitNo = k.waitNo := rfl
@[simp] theorem Task.setW_pc (k : Task) (i : Nat) (v : Word) : (k.setW i v).pc = k.pc := rfl
@[simp] theorem Task.setW_tstat (k : Task) (i : Nat) (v : Word) : (k.setW i v).tstat = k.tstat := rfl
@[simp] theorem Task.setW_sticky (k : Task) (i : Nat) (v : Word) : (k.setW i v).sticky = k.sticky := rfl
@[simp] theorem Task.setW_ret (k : Task) (i : Nat) (v : Word) : (k.setW i v).ret = k.ret := rfl
@[simp] theorem Task.setW_it (k : Task) (i : Nat) (v : Word) : (k.setW i v).it = k.it := rfl
@[simp] theorem Task.setW_gid (k : Task) (i : Nat) (v : Word) : (k.setW i v).gid = k.gid := rfl
@[simp] theorem Task.setW_lid (k : Task) (i : Nat) (v : Word) : (k.setW i v).lid = k.lid := rfl
@[simp] theorem Task.setW_p (k : Task) (i : Nat) (v : Word) : (k.setW i v).p = k.p := rfl
@[simp] theorem Task.setW_d (k : Task) (i : Nat) (v : Word) : (k.setW i v).d = k.d := rfl
@[simp] theorem Task.setW_g (k : Task) (i : Nat) (v : Word) : (k.setW i v).g = k.g := rfl
@[simp] theorem Task.setW_late (k : Task) (i : Nat) (v : Word) : (k.setW i v).late = k.late := rfl
@[simp] theorem Task.setW_mid (k : Task) (i : Nat) (v : Word) : (k.setW i v).mid = k.mid := rfl
@[simp] theorem Task.setW_waitNo (k : Task) (i : Nat) (v : Word) : (k.setW i v).waitNo = k.waitNo := rfl
@[simp] theorem Task.setG_pc (k : Task) (i : Nat) (v : Word) : (k.setG i v).pc = k.pc := by unfold Task.setG; split <;> rfl
@[simp] theorem Task.setG_tstat (k : Task) (i : Nat) (v : Word) : (k.setG i v).tstat = k.tstat := by unfold Task.setG; split <;> rfl
@[simp] theorem Task.setG_sticky (k : Task) (i : Nat) (v : Word) : (k.setG i v).sticky = k.sticky := by unfold Task.setG; split <;> rfl
@[simp] theorem Task.setG_ret (k : Task) (i : Nat) (v : Word) : (k.setG i v).ret = k.ret := by unfold Task.setG; split <;> rfl
@[simp] theorem Task.setG_it (k : Task) (i : Nat) (v : Word) : (k.setG i v).it = k.it := by unfold Task.setG; split <;> rfl
@[simp] theorem Task.setG_gid (k : Task) (i : Nat) (v : Word) : (k.setG i v).gid = k.gid := by unfold Task.setG; split <;> rfl
@[simp] theorem Task.setG_lid (k : Task) (i : Nat) (v : Word) : (k.setG i v).lid = k.lid := by unfold Task.setG; split <;> rfl
@[simp] theorem Task.setG_p (k : Task) (i : Nat) (v : Word) : (k.setG i v).p = k.p := by unfold Task.setG; split <;> rfl
@[simp] theorem Task.setG_d (k : Task) (i : Nat) (v : Word) : (k.setG i v).d = k.d := by unfold Task.setG; split <;> rfl
@[simp] theorem Task.setG_w (k : Task) (i : Nat) (v : Word) : (k.setG i v).w = k.w := by unfold Task.setG; split <;> rfl
@[simp] theorem Task.setG_late (k : Task) (i : Nat) (v : Word) : (k.setG i v).late = k.late := by unfold Task.setG; split <;> rfl
@[simp] theorem Task.setG_mid (k : Task) (i : Nat) (v : Word) : (k.setG i v).mid = k.mid := by unfold Task.setG; split <;> rfl
@[simp] theorem Task.setG_waitNo (k : Task) (i : Nat) (v : Word) : (k.setG i v).waitNo = k.waitNo := by unfold Task.setG; split <;> rfl
@[simp] theorem Task.setP_pc (k : Task) (i : Nat) (v : Bool) : (k.setP i v).pc = k.pc := by unfold Task.setP; split <;> rfl
@[simp] theorem Task.setP_tstat (k : Task) (i : Nat) (v : Bool) : (k.setP i v).tstat = k.tstat := by unfold Task.setP; split <;> rfl
@[simp] theorem Task.setP_sticky (k : Task) (i : Nat) (v : Bool) : (k.setP i v).sticky = k.sticky := by unfold Task.setP; split <;> rfl
@[simp] theorem Task.setP_ret (k : Task) (i : Nat) (v : Bool) : (k.setP i v).ret = k.ret := by unfold Task.setP; split <;> rfl
@[simp] theorem Task.setP_it (k : Task) (i : Nat) (v : Bool) : (k.setP i v).it = k.it := by unfold Task.setP; split <;> rfl
@[simp] theorem Task.setP_gid (k : Task) (i : Nat) (v : Bool) : (k.setP i v).gid = k.gid := by unfold Task.setP; split <;> rfl
@[simp] theorem Task.setP_lid (k : Task) (i : Nat) (v : Bool) : (k.setP i v).lid = k.lid := by unfold Task.setP; split <;> rfl
@[simp] theorem Task.setP_d (k : Task) (i : Nat) (v : Bool) : (k.setP i v).d = k.d := by unfold Task.setP; split <;> rfl
@[simp] theorem Task.setP_g (k : Task) (i : Nat) (v : Bool) : (k.setP i v).g = k.g := by unfold Task.setP; split <;> rfl
@[simp] theorem Task.setP_w (k : Task) (i : Nat) (v : Bool) : (k.setP i v).w = k.w := by unfold Task.setP; split <;> rfl
@[simp] theorem Task.setP_late (k : Task) (i : Nat) (v : Bool) : (k.setP i v).late = k.late := by unfold Task.setP; split <;> rfl
@[simp] theorem Task.setP_mid (k : Task) (i : Nat) (v : Bool) : (k.setP i v).mid = k.mid := by unfold Task.setP; split <;> rfl
@[simp] theorem Task.setP_waitNo (k : Task) (i : Nat) (v : Bool) : (k.setP i v).waitNo = k.waitNo := by unfold Task.setP; split <;> rfl
@[simp] theorem Task.raise_pc (k : Task) (i : Nat) : (k.raise i).pc = k.pc := by unfold Task.raise; split <;> rfl
@[simp] theorem Task.raise_tstat (k : Task) (i : Nat) : (k.raise i).tstat = k.tstat := by unfold Task.raise; split <;> rfl
@[simp] theorem Task.raise_sticky (k : Task) (i : Nat) : (k.raise i).sticky = k.sticky := by unfold Task.raise; split <;> rfl
@[simp] theorem Task.raise_ret (k : Task) (i : Nat) : (k.raise i).ret = k.ret := by unfold Task.raise; split <;> rfl
@[simp] theorem Task.raise_it (k : Task) (i : Nat) : (k.raise i).it = k.it := by unfold Task.raise; split <;> rfl
@[simp] theorem Task.raise_gid (k : Task) (i : Nat) : (k.raise i).gid = k.gid := by unfold Task.raise; split <;> rfl
@[simp] theorem Task.raise_lid (k : Task) (i : Nat) : (k.raise i).lid = k.lid := by unfold Task.raise; split <;> rfl
@[simp] theorem Task.raise_p (k : Task) (i : Nat) : (k.raise i).p = k.p := by unfold Task.raise; split <;> rfl
@[simp] theorem Task.raise_g (k : Task) (i : Nat) : (k.raise i).g = k.g := by unfold Task.raise; split <;> rfl
@[simp] theorem Task.raise_w (k : Task) (i : Nat) : (k.raise i).w = k.w := by unfold Task.raise; split <;> rfl
@[simp] theorem Task.raise_late (k : Task) (i : Nat) : (k.raise i).late = k.late := by unfold Task.raise; split <;> rfl
@[simp] theorem Task.raise_mid (k : Task) (i : Nat) : (k.raise i).mid = k.mid := by unfold Task.raise; split <;> rfl
@[simp] theorem Task.raise_waitNo (k : Task) (i : Nat) : (k.raise i).waitNo = k.waitNo := by unfold Task.raise; split <;> rfl
@[simp] theorem Task.lower_pc (k : Task) (i : Nat) : (k.lower i).pc = k.pc := by unfold Task.lower; split <;> rfl
@[simp] theorem Task.lower_tstat (k : Task) (i : Nat) : (k.lower i).tstat = k.tstat := by unfold Task.lower; split <;> rfl
@[simp] theorem Task.lower_sticky (k : Task) (i : Nat) : (k.lower i).sticky = k.sticky := by unfold Task.lower; split <;> rfl
@[simp] theorem Task.lower_ret (k : Task) (i : Nat) : (k.lower i).ret = k.ret := by unfold Task.lower; split <;> rfl
@[simp] theorem Task.lower_it (k : Task) (i : Nat) : (k.lower i).it = k.it := by unfold Task.lower; split <;> rfl
@[simp] theorem Task.lower_gid (k : Task) (i : Nat) : (k.lower i).gid = k.gid := by unfold Task.lower; split <;> rfl
@[simp] theorem Task.lower_lid (k : Task) (i : Nat) : (k.lower i).lid = k.lid := by unfold Task.lower; split <;> rfl
@[simp] theorem Task.lower_p (k : Task) (i : Nat) : (k.lower i).p = k.p := by unfold Task.lower; split <;> rfl
@[simp] theorem Task.lower_g (k : Task) (i : Nat) : (k.lower i).g = k.g := by unfold Task.lower; split <;> rfl
@[simp] theorem Task.lower_w (k : Task) (i : Nat) : (k.lower i).w = k.w := by unfold Task.lower; split <;> rfl
@[simp] theorem Task.lower_late (k : Task) (i : Nat) : (k.lower i).late = k.late := by unfold Task.lower; split <;> rfl
@[simp] theorem Task.lower_mid (k : Task) (i : Nat) : (k.lower i).mid = k.mid := by unfold Task.lower; split <;> rfl
@[simp] theorem Task.lower_waitNo (k : Task) (i : Nat) : (k.lower i).waitNo = k.waitNo := by unfold Task.lower; split <;> rfl
@[simp] theorem Task.orFlags_pc (k : Task) (fl : Nat) : (k.orFlags fl).pc = k.pc := rfl
@[simp] theorem Task.orFlags_tstat (k : Task) (fl : Nat) : (k.orFlags fl).tstat = k.tstat := rfl
@[simp] theorem Task.orFlags_ret (k : Task) (fl : Nat) : (k.orFlags fl).ret = k.ret := rfl
@[simp] theorem Task.orFlags_it (k : Task) (fl : Nat) : (k.orFlags fl).it = k.it := rfl
@[simp] theorem Task.orFlags_gid (k : Task) (fl : Nat) : (k.orFlags fl).gid = k.gid := rfl
@[simp] theorem Task.orFlags_lid (k : Task) (fl : Nat) : (k.orFlags fl).lid = k.lid := rfl
@[simp] theorem Task.orFlags_p (k : Task) (fl : Nat) : (k.orFlags fl).p = k.p := rfl
@[simp] theorem Task.orFlags_d (k : Task) (fl : Nat) : (k.orFlags fl).d = k.d := rfl
@[simp] theorem Task.orFlags_g (k : Task) (fl : Nat) : (k.orFlags fl).g = k.g := rfl
@[simp] theorem Task.orFlags_w (k : Task) (fl : Nat) : (k.orFlags fl).w = k.w := rfl
@[simp] theorem Task.orFlags_late (k : Task) (fl : Nat) : (k.orFlags fl).late = k.late := rfl
@[simp] theorem Task.orFlags_mid (k : Task) (fl : Nat) : (k.orFlags fl).mid = k.mid := rfl
@[simp] theorem Task.orFlags_waitNo (k : Task) (fl : Nat) : (k.orFlags fl).waitNo = k.waitNo := rfl

end Sys2Proof.Machine
end

