-- ==== Sys2Proof/Laws/Canonical.lean ====
section
/-!
SUPPORT. Every operation that writes the byte memory keeps it in its canonical form, and the reset memory has it.
-/

namespace Sys2Proof.Machine

open Sys2Proof

theorem reset_memOk : State.reset.memOk = true := by decide

/-- A fold of changes keeps what each change keeps. -/
theorem foldl_keeps {α β : Type} {P : α → Prop} (g : α → β → α) (l : List β) (hg : ∀ a b, b ∈ l → P a → P (g a b)) :
    ∀ a, P a → P (l.foldl g a) := by
  induction l with
  | nil => intro a h; exact h
  | cons b r ih =>
    intro a h
    exact ih (fun a b hb => hg a b (List.mem_cons_of_mem _ hb)) _ (hg a b List.mem_cons_self h)

/-- The canonical form depends on the bytes alone. -/
theorem memOk_of_mem {s t : State} (h : t.mem = s.mem) (hs : s.memOk = true) : t.memOk = true := by
  simpa [State.memOk, h] using hs

theorem setBytes_memOk {s : State} (k : Nat) (bs : List Byte) (h : s.memOk = true) : (setBytes s k bs).memOk = true :=
  setBytesMem_wf bs k h

theorem putFar_memOk {s : State} (k : Nat) (bs : List Byte) (h : s.memOk = true) : (s.putFar k bs).memOk = true :=
  setBytesMem_wf bs k h

@[simp] theorem replaceWord_mem (s : State) (t off : Nat) : (s.replaceWord t off).mem = s.mem := by
  unfold State.replaceWord; split <;> rfl

@[simp] theorem markLine_mem (s : State) (t off : Nat) : (s.markLine t off).mem = s.mem := by
  unfold State.markLine; split <;> rfl

@[simp] theorem markLines_mem (s : State) (t off n : Nat) : (s.markLines t off n).mem = s.mem := by
  unfold State.markLines
  refine foldl_keeps (P := fun a => a.mem = s.mem) _ _ ?_ s rfl
  intro a b _ h
  simp [h]

@[simp] theorem correct_mem (t off : Nat) : ∀ (n : Nat) (s : State), (s.correct t off n).mem = s.mem := by
  intro n
  induction n with
  | zero => intro s; rfl
  | succ n ih => intro s; rw [State.correct]; simp only [ih]; split <;> rfl

/-- Writing a slice is writing its bytes, marked as written or not. -/
theorem putData_mem (s : State) (t off : Nat) (bs : List Byte) :
    (s.putData t off bs).mem = setBytesMem s.mem (sliceKey t off) bs := by
  simp only [State.putData, setBytes_mem]
  congr 1
  refine foldl_keeps (P := fun a => a.mem = s.mem) _ _ ?_ s rfl
  intro a b _ h
  split <;> simp [h]

theorem putSlice_mem (s : State) (t off : Nat) (bs : List Byte) :
    (s.putSlice t off bs).mem = setBytesMem s.mem (sliceKey t off) bs := by
  rw [State.putSlice, markLines_mem, putData_mem]

theorem putData_memOk {s : State} (t off : Nat) (bs : List Byte) (h : s.memOk = true) : (s.putData t off bs).memOk = true := by
  rw [State.memOk, putData_mem]
  exact setBytesMem_wf bs _ h

theorem putSlice_memOk {s : State} (t off : Nat) (bs : List Byte) (h : s.memOk = true) : (s.putSlice t off bs).memOk = true := by
  rw [State.memOk, putSlice_mem]
  exact setBytesMem_wf bs _ h

/-- Outside the written bytes a slice reads as before. -/
theorem putSlice_other (s : State) (t off k : Nat) (bs : List Byte)
    (h : k < sliceKey t off ∨ sliceKey t off + bs.length ≤ k) : getByte (s.putSlice t off bs) k = getByte s k := by
  rw [getByte, putSlice_mem]
  exact get_setBytesMem_other bs _ _ _ h

/-- The written bytes are read back. -/
theorem putSlice_same (s : State) (t off j : Nat) (bs : List Byte) (h : j < bs.length) (hk : sliceKey t off + j < memEnd) :
    getByte (s.putSlice t off bs) (sliceKey t off + j) = bs[j] := by
  rw [getByte, putSlice_mem]
  exact get_setBytesMem_same bs _ _ _ h hk

theorem writeRec_memOk {s : State} (t off : Nat) (v : Word) (h : s.memOk = true) : (writeRec s t off v).memOk = true :=
  putSlice_memOk t off _ h

theorem resetTile_memOk {s : State} (t : Nat) (h : s.memOk = true) : (resetTile s t).memOk = true :=
  clearRange_wf _ _ (clearRange_wf _ _ h)

theorem resetHusk_memOk {s : State} (x : Husk) (h : s.memOk = true) : (resetHusk s x).memOk = true :=
  foldl_keeps (P := fun a => a.memOk = true) _ _ (fun _ b _ ha => resetTile_memOk b ha) s h

theorem pasteMem_wf {m : List Host.Cell} (lo hi : Nat) (part : List Host.Cell) (h : Memory.wf m = true) :
    Memory.wf (pasteMem m lo hi part) = true :=
  foldl_keeps (P := fun a => Memory.wf a = true) _ _ (fun _ _ _ ha => setByteMem_wf _ _ ha) _ (clearRange_wf lo hi h)

theorem restoreTile_memOk {s : State} (at_ : List (Nat × Nat)) (x : SavedTile) (h : s.memOk = true) :
    (restoreTile s at_ x).memOk = true :=
  pasteMem_wf _ _ _ (pasteMem_wf _ _ _ h)

theorem rollBack_memOk {s : State} (t : Nat) (p : Pairing) (h : s.memOk = true) : (rollBack s t p).memOk = true := by
  have h1 := foldl_keeps (P := fun a : State => a.memOk = true) (fun s e => s.putSlice t e.1 (bytesOf e.2.toNat 8))
    p.log.reverse (fun _ _ _ ha => putSlice_memOk _ _ _ ha) s h
  exact h1

/-- So does a fold of operations that each keep it. -/
theorem foldl_memOk (f : State → Nat → State) (hf : ∀ s k, s.memOk = true → (f s k).memOk = true)
    (ks : List Nat) {s : State} (h : s.memOk = true) : (ks.foldl f s).memOk = true := by
  induction ks generalizing s with
  | nil => exact h
  | cons k ks ih => exact ih (hf s k h)

/-- So does a page put with a new count of free values. -/
theorem putFar_fresh_memOk (k n : Nat) (v : List Byte) {s : State} (h : s.memOk = true) :
    ({ s.putFar k v with fresh := n }).memOk = true :=
  putFar_memOk k v h

/-- A record that is written keeps it. -/
theorem writeRecord_memOk {s : State} (ks : List Nat) (h : s.memOk = true) : (writeRecord s ks).memOk = true :=
  foldl_memOk _ (fun _ k h => putFar_fresh_memOk k _ _ h) ks h

end Sys2Proof.Machine
end

