-- ==== Sys2Proof/Laws/Issue.lean ====
section
/-!
SUPPORT. What issuing an instruction does, once for every meaning (spec/10 R169 to R178).
-/

namespace Sys2Proof.Machine

open Sys2Proof

/-- The operands of an instruction belong to its core, its stream and its fields. -/
theorem operands_fields {m : Form} {f : Fields} {t : Nat} {w : Who} {s s1 : State} {x : In}
    (h : operands m f t w s = .ok (s1, x)) : x.t = t ∧ x.w = w ∧ x.f = f := by
  simp only [operands, bind, Except.bind] at h
  repeat' split at h
  all_goals try cases h
  exact ⟨rfl, rfl, rfl⟩

/-- An instruction that issues runs its body on the operands, and retires as the body says. -/
theorem issue_of_issues {s : State} {w : Who} {i : Instr} {m : Form} {f : Fields} {s1 s2 : State} {x : In} {a : After}
    {body : In → State → Except Stop (State × After)} (h : Issues s w i m f s1 x) (hb : body x s1 = .ok (s2, a)) :
    issue i m f body s = .next (retired s1 x m s2 a) := by
  obtain ⟨ht, hw, hf⟩ := operands_fields h.reads
  have hI := h.interval
  have hS := h.noStall
  have hW := h.window
  have hL := h.leaves
  simp only [issue, h.active, h.guard, Option.getD_some, Bool.true_and, h.noLate, h.noArray]
  simp only [h.settled, h.waited, Bool.not_true, Bool.false_eq_true, if_false, hW, Option.isNone_some, hI, hS, hL,
    Bool.false_and, Bool.or_self, bind, Except.bind, h.checks, h.free, runBody, h.reads, hb, retired, ht, hw, hf]

/-- An instruction that issues and whose body stops settles as the body says: it traps, holds or closes an interval. -/
theorem issue_of_stops {s : State} {w : Who} {i : Instr} {m : Form} {f : Fields} {s1 : State} {x : In} {e : Stop}
    {body : In → State → Except Stop (State × After)} (h : Issues s w i m f s1 x) (hb : body x s1 = .error e) :
    issue i m f body s = settle s s.cur w ((s.tile s.cur).task w).pc e := by
  have hI := h.interval
  have hS := h.noStall
  have hW := h.window
  have hL := h.leaves
  simp only [issue, h.active, h.guard, Option.getD_some, Bool.true_and, h.noLate, h.noArray]
  simp only [h.settled, h.waited, Bool.not_true, Bool.false_eq_true, if_false, hW, Option.isNone_some, hI, hS, hL,
    Bool.false_and, Bool.or_self, bind, Except.bind, h.checks, h.free, runBody, h.reads, hb]

/-- The operands of an instruction that issues are its core's, its stream's and its own. -/
theorem Issues.operands {s : State} {w : Who} {i : Instr} {m : Form} {f : Fields} {s1 : State} {x : In}
    (h : Issues s w i m f s1 x) : x.t = s.cur ∧ x.w = w ∧ x.f = f := operands_fields h.reads

/-- Completion of the instructions `i f` from their meaning and what its body gives. -/
theorem gives_of {i : Fields → Instr} {cond : In → State → Prop} {out : In → State → State × After} (k : Fields → Form)
    (body : Fields → In → State → Except Stop (State × After)) (_ : ∀ f, (i f).word?.map (·.2) = some f)
    (hk : ∀ f, (i f).form? = some (k f)) (he : ∀ f s, exec (i f) s = issue (i f) (k f) f (body f) s)
    (hb : ∀ x s, cond x s → body x.f x s = .ok (out x s)) : Gives i cond out := by
  intro s w m f s1 x h hc
  obtain ⟨_, _, hf⟩ := h.operands
  have h1 := h.fields
  have h2 := h.form
  rw [hk f] at h2
  cases h2
  rw [he f s]
  exact issue_of_issues h (by rw [← hf]; exact hb x s1 hc)

end Sys2Proof.Machine
end

