-- ==== Sys2Proof/Laws/Memory.lean ====
section
/-!
SUPPORT. The memory instructions through their one shared operation (spec/06 R101).
-/

namespace Sys2Proof.Machine

open Sys2Proof

/-- An address that passes its checks for anything but an aperture lies in no aperture. -/
theorem checkAddr_region {s : State} {t : Nat} {k : AKind} {a : Word} {al : Bool} {g : Target}
    (h : checkAddr s t k a al = .ok g) (hg : ∀ ch, g ≠ .aperture ch) : regionOf a ≠ 0x03 := by
  intro h3
  simp only [checkAddr, h3, bind, Except.bind, need] at h
  repeat' split at h
  all_goals first
    | (cases h; exact hg _ rfl)
    | cases h

/-- A memory instruction whose first checks pass, whose release has come and whose address passes its checks runs its access. -/
theorem exec_request {i : Instr} {m : Form} {f : Fields} (hm : i.form? = some m) (hf : i.word?.map (·.2) = some f) :
    ∃ body, (∀ s, exec i s = issue i m f body s) ∧ ∀ x s r a al g, x.f = f → request i x s = some (r, a, al) →
      checkedFirst i x s → released i x s = true → x.t < numTiles → checkAddr s x.t r.k a al = .ok g → (∀ ch, g ≠ .aperture ch) →
      body x s = access x s r a al := by
  cases i <;> simp only [Instr.word?, Instr.form?, Option.map, Option.some.injEq, reduceCtorEq] at hm hf <;> subst hm hf
  all_goals
    refine ⟨_, fun _ => rfl, fun x s r a al g hx hr hfirst hrel ht hc hg => ?_⟩
    first
      | (cases (show (none : Option (Req × Word × Bool)) = some (r, a, al) from hr))
      | (simp only [request, Option.some.injEq, Prod.mk.injEq] at hr
         obtain ⟨rfl, rfl, rfl⟩ := hr
         first
           | rfl
           | (have h3 := checkAddr_region hc hg
              simp [h3]; done)
           | (simp only [checkedFirst] at hfirst
              simp only [ldaBody, hfirst, bind, Except.bind]; done)
           | (simp only [checkedFirst] at hfirst
              simp only [released, Bool.not_eq_true', Bool.or_eq_true, beq_iff_eq] at hrel
              simp only [amoBody, staBody, ackHold, bind, Except.bind]
              split <;> simp_all <;> generalize access _ _ _ _ _ = z <;> cases z <;>
                first | rfl | (rcases hrel with h | h <;> simp [h])))

end Sys2Proof.Machine
end

