-- ==== Sys2Proof/Laws/PerInstr.lean ====
section
/-!
SUPPORT. The family Words, instruction by instruction: a well-formed instruction that has a word is the one that the decoder's table
gives for its major and fields, and its major is a byte (spec/10 R181).
-/

namespace Sys2Proof.Laws

open Sys2Proof

/-- The decoder's table gives a well-formed instruction back for its major and fields. -/
def Words.Statement (i : Instr) : Prop :=
  i.wellFormed = true → ∀ x, i.word? = some x → x.1 < 256 ∧ instrOf x.1 x.2 = some i

/-- An instruction without a word. -/
theorem Words.of_none {i : Instr} (h : i.word? = none) : Words.Statement i := fun _ x hx => by rw [h] at hx; cases hx

/-- An instruction whose major the table gives to it alone. -/
theorem Words.of_some {i : Instr} {n : Nat} {f : Fields} (h : i.word? = some (n, f)) (hn : decide (n < 256) = true) (hi : instrOf n f = some i) :
    Words.Statement i := fun _ x hx => by
  rw [h] at hx
  cases hx
  exact ⟨of_decide_eq_true hn, hi⟩

/-- An instruction whose major the table shares out by minor or control number. -/
theorem Words.of_split {i : Instr} {n : Nat} {f : Fields} (h : i.word? = some (n, f)) (hn : decide (n < 256) = true)
    (hi : i.wellFormed = true → instrOf n f = some i) : Words.Statement i := fun hw x hx => by
  rw [h] at hx
  cases hx
  exact ⟨of_decide_eq_true hn, hi hw⟩

/-- A well-formed instruction keeps to the minor of its form. -/
theorem Words.minor {i : Instr} {n : Nat} {f : Fields} {m : Form} (h : i.word? = some (n, f)) (hm : i.form? = some m)
    (hw : i.wellFormed = true) : m.minor f.minor.toNat = true := by
  simp only [Instr.wellFormed, h, hm, Form.fieldsOk, Bool.and_eq_true] at hw
  exact hw.2.1.1.1.1.1.1.1.1.1.1

/-- The minor that a form asks for. -/
theorem Words.minorIs {f : Fields} {k : Nat} (hk : decide (k < 16) = true) (h : (f.minor.toNat == k) = true) : f.minor = BitVec.ofNat 4 k := by
  apply BitVec.eq_of_toNat_eq
  simpa [Nat.mod_eq_of_lt (of_decide_eq_true hk)] using h

/-- A well-formed SETS is that of its control number. -/
theorem Words.setsOk {i : Instr} (hw : i.wellFormed = true) : i.setsOk = true := by
  simp only [Instr.wellFormed, Bool.and_eq_true] at hw
  exact hw.1

theorem Words.boot (b : BootImage) : Words.Statement (.boot b) := Words.of_none rfl
theorem Words.linkFailure (port : Nat) (chips : List Nat) : Words.Statement (.linkFailure port chips) := Words.of_none rfl
theorem Words.backgroundScrub (word : Nat) : Words.Statement (.backgroundScrub word) := Words.of_none rfl
theorem Words.ownerCertificate (m : Certificate) : Words.Statement (.ownerCertificate m) := Words.of_none rfl
theorem Words.ownershipHandover (m : OwnerMessage) : Words.Statement (.ownershipHandover m) := Words.of_none rfl
theorem Words.leaseRenewal (m : OwnerMessage) : Words.Statement (.leaseRenewal m) := Words.of_none rfl
theorem Words.tenantSessionBind (b : BindRequest) (tenant : Nat) : Words.Statement (.tenantSessionBind b tenant) := Words.of_none rfl
theorem Words.hostRead (r : HostAccess) : Words.Statement (.hostRead r) := Words.of_none rfl
theorem Words.hostWrite (r : HostAccess) : Words.Statement (.hostWrite r) := Words.of_none rfl
theorem Words.hostAtomic (r : HostAtomicReq) : Words.Statement (.hostAtomic r) := Words.of_none rfl
theorem Words.hostLaunchSubmit (r : HostSubmit) : Words.Statement (.hostLaunchSubmit r) := Words.of_none rfl
theorem Words.objectLoad (o : ObjectFile) : Words.Statement (.objectLoad o) := Words.of_none rfl
theorem Words.attestationReport (session : Nat) (nonce : List Byte) : Words.Statement (.attestationReport session nonce) := Words.of_none rfl
theorem Words.farStoreArrival (a : Arrival) : Words.Statement (.farStoreArrival a) := Words.of_none rfl
theorem Words.queuePortPush (port : Nat) : Words.Statement (.queuePortPush port) := Words.of_none rfl
theorem Words.queuePortPop (port : Nat) : Words.Statement (.queuePortPop port) := Words.of_none rfl
theorem Words.lateFaultReport (r : Reply) : Words.Statement (.lateFaultReport r) := Words.of_none rfl
theorem Words.remoteAccessArrival (a : Arrival) : Words.Statement (.remoteAccessArrival a) := Words.of_none rfl
theorem Words.routerAtomicMerge (k1 k2 : Nat) : Words.Statement (.routerAtomicMerge k1 k2) := Words.of_none rfl
theorem Words.loadReply (r : Reply) : Words.Statement (.loadReply r) := Words.of_none rfl
theorem Words.acknowledgementArrival (r : Reply) : Words.Statement (.acknowledgementArrival r) := Words.of_none rfl
theorem Words.gatewayAccess (g : GatewayReq) : Words.Statement (.gatewayAccess g) := Words.of_none rfl
theorem Words.tstatWrite (v : Word) : Words.Statement (.tstatWrite v) := Words.of_none rfl
theorem Words.stickyWrite (v : Word) : Words.Statement (.stickyWrite v) := Words.of_none rfl
theorem Words.nop (f : Fields) : Words.Statement (.nop f) := Words.of_some rfl rfl rfl
theorem Words.add (f : Fields) : Words.Statement (.add f) := Words.of_some rfl rfl rfl
theorem Words.addi (f : Fields) : Words.Statement (.addi f) := Words.of_some rfl rfl rfl
theorem Words.sub (f : Fields) : Words.Statement (.sub f) := Words.of_some rfl rfl rfl
theorem Words.mul (f : Fields) : Words.Statement (.mul f) := Words.of_some rfl rfl rfl
theorem Words.mulh (f : Fields) : Words.Statement (.mulh f) := Words.of_some rfl rfl rfl
theorem Words.mulhn (f : Fields) : Words.Statement (.mulhn f) := Words.of_some rfl rfl rfl
theorem Words.div (f : Fields) : Words.Statement (.div f) := Words.of_some rfl rfl rfl
theorem Words.divn (f : Fields) : Words.Statement (.divn f) := Words.of_some rfl rfl rfl
theorem Words.rem (f : Fields) : Words.Statement (.rem f) := Words.of_some rfl rfl rfl
theorem Words.remn (f : Fields) : Words.Statement (.remn f) := Words.of_some rfl rfl rfl
theorem Words.and (f : Fields) : Words.Statement (.and f) := Words.of_some rfl rfl rfl
theorem Words.or (f : Fields) : Words.Statement (.or f) := Words.of_some rfl rfl rfl
theorem Words.xor (f : Fields) : Words.Statement (.xor f) := Words.of_some rfl rfl rfl
theorem Words.andn (f : Fields) : Words.Statement (.andn f) := Words.of_some rfl rfl rfl
theorem Words.shl (f : Fields) : Words.Statement (.shl f) := Words.of_some rfl rfl rfl
theorem Words.shr (f : Fields) : Words.Statement (.shr f) := Words.of_some rfl rfl rfl
theorem Words.sar (f : Fields) : Words.Statement (.sar f) := Words.of_some rfl rfl rfl
theorem Words.rol (f : Fields) : Words.Statement (.rol f) := Words.of_some rfl rfl rfl
theorem Words.clz (f : Fields) : Words.Statement (.clz f) := Words.of_some rfl rfl rfl
theorem Words.ctz (f : Fields) : Words.Statement (.ctz f) := Words.of_some rfl rfl rfl
theorem Words.popc (f : Fields) : Words.Statement (.popc f) := Words.of_some rfl rfl rfl
theorem Words.min (f : Fields) : Words.Statement (.min f) := Words.of_some rfl rfl rfl
theorem Words.max (f : Fields) : Words.Statement (.max f) := Words.of_some rfl rfl rfl
theorem Words.minn (f : Fields) : Words.Statement (.minn f) := Words.of_some rfl rfl rfl
theorem Words.maxn (f : Fields) : Words.Statement (.maxn f) := Words.of_some rfl rfl rfl
theorem Words.sext (f : Fields) : Words.Statement (.sext f) := Words.of_some rfl rfl rfl
theorem Words.zext (f : Fields) : Words.Statement (.zext f) := Words.of_some rfl rfl rfl
theorem Words.bfx (f : Fields) : Words.Statement (.bfx f) := Words.of_some rfl rfl rfl
theorem Words.bfxn (f : Fields) : Words.Statement (.bfxn f) := Words.of_some rfl rfl rfl
theorem Words.bfi (f : Fields) : Words.Statement (.bfi f) := Words.of_some rfl rfl rfl
theorem Words.sel (f : Fields) : Words.Statement (.sel f) := Words.of_some rfl rfl rfl
theorem Words.mov (f : Fields) : Words.Statement (.mov f) := Words.of_some rfl rfl rfl
theorem Words.movi (f : Fields) : Words.Statement (.movi f) := Words.of_some rfl rfl rfl
theorem Words.movh (f : Fields) : Words.Statement (.movh f) := Words.of_split (n := 0x22) rfl rfl fun h => by
  have e := Words.minorIs (k := 0) rfl (Words.minor (i := .movh f) rfl rfl h)
  show some (if f.minor == 1 then .movhTop f else .movh f : Instr) = some (.movh f)
  rw [e]
  rfl
theorem Words.movhTop (f : Fields) : Words.Statement (.movhTop f) := Words.of_split (n := 0x22) rfl rfl fun h => by
  have e := Words.minorIs (k := 1) rfl (Words.minor (i := .movhTop f) rfl rfl h)
  show some (if f.minor == 1 then .movhTop f else .movh f : Instr) = some (.movhTop f)
  rw [e]
  rfl
theorem Words.cmp (f : Fields) : Words.Statement (.cmp f) := Words.of_some rfl rfl rfl
theorem Words.cmpi (f : Fields) : Words.Statement (.cmpi f) := Words.of_some rfl rfl rfl
theorem Words.pset (f : Fields) : Words.Statement (.pset f) := Words.of_some rfl rfl rfl
theorem Words.plog (f : Fields) : Words.Statement (.plog f) := Words.of_some rfl rfl rfl
theorem Words.fadd (f : Fields) : Words.Statement (.fadd f) := Words.of_some rfl rfl rfl
theorem Words.fsub (f : Fields) : Words.Statement (.fsub f) := Words.of_some rfl rfl rfl
theorem Words.fmul (f : Fields) : Words.Statement (.fmul f) := Words.of_some rfl rfl rfl
theorem Words.ffma (f : Fields) : Words.Statement (.ffma f) := Words.of_some rfl rfl rfl
theorem Words.fdiv (f : Fields) : Words.Statement (.fdiv f) := Words.of_some rfl rfl rfl
theorem Words.fsqrt (f : Fields) : Words.Statement (.fsqrt f) := Words.of_some rfl rfl rfl
theorem Words.fmin (f : Fields) : Words.Statement (.fmin f) := Words.of_some rfl rfl rfl
theorem Words.fmax (f : Fields) : Words.Statement (.fmax f) := Words.of_some rfl rfl rfl
theorem Words.fabs (f : Fields) : Words.Statement (.fabs f) := Words.of_some rfl rfl rfl
theorem Words.fneg (f : Fields) : Words.Statement (.fneg f) := Words.of_some rfl rfl rfl
theorem Words.fcmp (f : Fields) : Words.Statement (.fcmp f) := Words.of_some rfl rfl rfl
theorem Words.fcvt (f : Fields) : Words.Statement (.fcvt f) := Words.of_some rfl rfl rfl
theorem Words.ftoi (f : Fields) : Words.Statement (.ftoi f) := Words.of_some rfl rfl rfl
theorem Words.itof (f : Fields) : Words.Statement (.itof f) := Words.of_some rfl rfl rfl
theorem Words.fclass (f : Fields) : Words.Statement (.fclass f) := Words.of_some rfl rfl rfl
theorem Words.br (f : Fields) : Words.Statement (.br f) := Words.of_some rfl rfl rfl
theorem Words.bri (f : Fields) : Words.Statement (.bri f) := Words.of_some rfl rfl rfl
theorem Words.call (f : Fields) : Words.Statement (.call f) := Words.of_some rfl rfl rfl
theorem Words.calli (f : Fields) : Words.Statement (.calli f) := Words.of_some rfl rfl rfl
theorem Words.ret (f : Fields) : Words.Statement (.ret f) := Words.of_some rfl rfl rfl
theorem Words.loop (f : Fields) : Words.Statement (.loop f) := Words.of_some rfl rfl rfl
theorem Words.bru (f : Fields) : Words.Statement (.bru f) := Words.of_some rfl rfl rfl
theorem Words.done (f : Fields) : Words.Statement (.done f) := Words.of_some rfl rfl rfl
theorem Words.ifence (f : Fields) : Words.Statement (.ifence f) := Words.of_some rfl rfl rfl
theorem Words.vadd (f : Fields) : Words.Statement (.vadd f) := Words.of_some rfl rfl rfl
theorem Words.vsub (f : Fields) : Words.Statement (.vsub f) := Words.of_some rfl rfl rfl
theorem Words.vmul (f : Fields) : Words.Statement (.vmul f) := Words.of_some rfl rfl rfl
theorem Words.vfma (f : Fields) : Words.Statement (.vfma f) := Words.of_some rfl rfl rfl
theorem Words.vfms (f : Fields) : Words.Statement (.vfms f) := Words.of_some rfl rfl rfl
theorem Words.vmin (f : Fields) : Words.Statement (.vmin f) := Words.of_some rfl rfl rfl
theorem Words.vmax (f : Fields) : Words.Statement (.vmax f) := Words.of_some rfl rfl rfl
theorem Words.vabs (f : Fields) : Words.Statement (.vabs f) := Words.of_some rfl rfl rfl
theorem Words.vneg (f : Fields) : Words.Statement (.vneg f) := Words.of_some rfl rfl rfl
theorem Words.vand (f : Fields) : Words.Statement (.vand f) := Words.of_some rfl rfl rfl
theorem Words.vor (f : Fields) : Words.Statement (.vor f) := Words.of_some rfl rfl rfl
theorem Words.vxor (f : Fields) : Words.Statement (.vxor f) := Words.of_some rfl rfl rfl
theorem Words.vnot (f : Fields) : Words.Statement (.vnot f) := Words.of_some rfl rfl rfl
theorem Words.vshl (f : Fields) : Words.Statement (.vshl f) := Words.of_some rfl rfl rfl
theorem Words.vshr (f : Fields) : Words.Statement (.vshr f) := Words.of_some rfl rfl rfl
theorem Words.vsar (f : Fields) : Words.Statement (.vsar f) := Words.of_some rfl rfl rfl
theorem Words.vcmp (f : Fields) : Words.Statement (.vcmp f) := Words.of_some rfl rfl rfl
theorem Words.vsel (f : Fields) : Words.Statement (.vsel f) := Words.of_some rfl rfl rfl
theorem Words.vmov (f : Fields) : Words.Statement (.vmov f) := Words.of_some rfl rfl rfl
theorem Words.vbcast (f : Fields) : Words.Statement (.vbcast f) := Words.of_some rfl rfl rfl
theorem Words.vget (f : Fields) : Words.Statement (.vget f) := Words.of_some rfl rfl rfl
theorem Words.vput (f : Fields) : Words.Statement (.vput f) := Words.of_some rfl rfl rfl
theorem Words.vperm (f : Fields) : Words.Statement (.vperm f) := Words.of_some rfl rfl rfl
theorem Words.vtrn (f : Fields) : Words.Statement (.vtrn f) := Words.of_some rfl rfl rfl
theorem Words.vredr (f : Fields) : Words.Statement (.vredr f) := Words.of_some rfl rfl rfl
theorem Words.vredc (f : Fields) : Words.Statement (.vredc f) := Words.of_some rfl rfl rfl
theorem Words.vscan (f : Fields) : Words.Statement (.vscan f) := Words.of_some rfl rfl rfl
theorem Words.vrcp (f : Fields) : Words.Statement (.vrcp f) := Words.of_some rfl rfl rfl
theorem Words.vrsq (f : Fields) : Words.Statement (.vrsq f) := Words.of_some rfl rfl rfl
theorem Words.vexp2 (f : Fields) : Words.Statement (.vexp2 f) := Words.of_some rfl rfl rfl
theorem Words.vlog2 (f : Fields) : Words.Statement (.vlog2 f) := Words.of_some rfl rfl rfl
theorem Words.vtanh (f : Fields) : Words.Statement (.vtanh f) := Words.of_some rfl rfl rfl
theorem Words.vcvt (f : Fields) : Words.Statement (.vcvt f) := Words.of_some rfl rfl rfl
theorem Words.vrnd (f : Fields) : Words.Statement (.vrnd f) := Words.of_some rfl rfl rfl
theorem Words.vqblk (f : Fields) : Words.Statement (.vqblk f) := Words.of_some rfl rfl rfl
theorem Words.vdq (f : Fields) : Words.Statement (.vdq f) := Words.of_some rfl rfl rfl
theorem Words.msca (f : Fields) : Words.Statement (.msca f) := Words.of_some rfl rfl rfl
theorem Words.rand (f : Fields) : Words.Statement (.rand f) := Words.of_split (n := 0x75) rfl rfl fun h => by
  have e := Words.minorIs (k := 0) rfl (Words.minor (i := .rand f) rfl rfl h)
  show some (if f.minor == 1 then .randInc f else .rand f : Instr) = some (.rand f)
  rw [e]
  rfl
theorem Words.randInc (f : Fields) : Words.Statement (.randInc f) := Words.of_split (n := 0x75) rfl rfl fun h => by
  have e := Words.minorIs (k := 1) rfl (Words.minor (i := .randInc f) rfl rfl h)
  show some (if f.minor == 1 then .randInc f else .rand f : Instr) = some (.randInc f)
  rw [e]
  rfl
theorem Words.vrand (f : Fields) : Words.Statement (.vrand f) := Words.of_split (n := 0x76) rfl rfl fun h => by
  have e := Words.minorIs (k := 0) rfl (Words.minor (i := .vrand f) rfl rfl h)
  show some (if f.minor == 1 then .vrandInc f else .vrand f : Instr) = some (.vrand f)
  rw [e]
  rfl
theorem Words.vrandInc (f : Fields) : Words.Statement (.vrandInc f) := Words.of_split (n := 0x76) rfl rfl fun h => by
  have e := Words.minorIs (k := 1) rfl (Words.minor (i := .vrandInc f) rfl rfl h)
  show some (if f.minor == 1 then .vrandInc f else .vrand f : Instr) = some (.vrandInc f)
  rw [e]
  rfl
theorem Words.mcfg (f : Fields) : Words.Statement (.mcfg f) := Words.of_some rfl rfl rfl
theorem Words.mloadb (f : Fields) : Words.Statement (.mloadb f) := Words.of_some rfl rfl rfl
theorem Words.mloadz (f : Fields) : Words.Statement (.mloadz f) := Words.of_some rfl rfl rfl
theorem Words.mrbuf (f : Fields) : Words.Statement (.mrbuf f) := Words.of_split (n := 0x83) rfl rfl fun h => by
  have e := Words.minorIs (k := 0) rfl (Words.minor (i := .mrbuf f) rfl rfl h)
  show some (if f.minor == 1 then .mrbufBc f else .mrbuf f : Instr) = some (.mrbuf f)
  rw [e]
  rfl
theorem Words.mrbufBc (f : Fields) : Words.Statement (.mrbufBc f) := Words.of_split (n := 0x83) rfl rfl fun h => by
  have e := Words.minorIs (k := 1) rfl (Words.minor (i := .mrbufBc f) rfl rfl h)
  show some (if f.minor == 1 then .mrbufBc f else .mrbuf f : Instr) = some (.mrbufBc f)
  rw [e]
  rfl
theorem Words.mgang (f : Fields) : Words.Statement (.mgang f) := Words.of_some rfl rfl rfl
theorem Words.mmul (f : Fields) : Words.Statement (.mmul f) := Words.of_some rfl rfl rfl
theorem Words.mzeroAcc (f : Fields) : Words.Statement (.mzeroAcc f) := Words.of_split (n := 0x86) rfl rfl fun h => by
  have e := Words.minorIs (k := 0) rfl (Words.minor (i := .mzeroAcc f) rfl rfl h)
  show some (if f.minor == 1 then .mzeroZp f else .mzeroAcc f : Instr) = some (.mzeroAcc f)
  rw [e]
  rfl
theorem Words.mzeroZp (f : Fields) : Words.Statement (.mzeroZp f) := Words.of_split (n := 0x86) rfl rfl fun h => by
  have e := Words.minorIs (k := 1) rfl (Words.minor (i := .mzeroZp f) rfl rfl h)
  show some (if f.minor == 1 then .mzeroZp f else .mzeroAcc f : Instr) = some (.mzeroZp f)
  rw [e]
  rfl
theorem Words.mdrain (f : Fields) : Words.Statement (.mdrain f) := Words.of_some rfl rfl rfl
theorem Words.mdrainp (f : Fields) : Words.Statement (.mdrainp f) := Words.of_some rfl rfl rfl
theorem Words.mchkcfg (f : Fields) : Words.Statement (.mchkcfg f) := Words.of_some rfl rfl rfl
theorem Words.msave (f : Fields) : Words.Statement (.msave f) := Words.of_split (n := 0x8A) rfl rfl fun h => by
  have e := Words.minorIs (k := 0) rfl (Words.minor (i := .msave f) rfl rfl h)
  show some (if f.minor == 1 then .msaveFree f else .msave f : Instr) = some (.msave f)
  rw [e]
  rfl
theorem Words.msaveFree (f : Fields) : Words.Statement (.msaveFree f) := Words.of_split (n := 0x8A) rfl rfl fun h => by
  have e := Words.minorIs (k := 1) rfl (Words.minor (i := .msaveFree f) rfl rfl h)
  show some (if f.minor == 1 then .msaveFree f else .msave f : Instr) = some (.msaveFree f)
  rw [e]
  rfl
theorem Words.mrestore (f : Fields) : Words.Statement (.mrestore f) := Words.of_some rfl rfl rfl
theorem Words.mstat (f : Fields) : Words.Statement (.mstat f) := Words.of_split (n := 0x8C) rfl rfl fun h => by
  have e := Words.minorIs (k := 0) rfl (Words.minor (i := .mstat f) rfl rfl h)
  show some (if f.minor == 1 then .mstatClr f else .mstat f : Instr) = some (.mstat f)
  rw [e]
  rfl
theorem Words.mstatClr (f : Fields) : Words.Statement (.mstatClr f) := Words.of_split (n := 0x8C) rfl rfl fun h => by
  have e := Words.minorIs (k := 1) rfl (Words.minor (i := .mstatClr f) rfl rfl h)
  show some (if f.minor == 1 then .mstatClr f else .mstat f : Instr) = some (.mstatClr f)
  rw [e]
  rfl
theorem Words.ld (f : Fields) : Words.Statement (.ld f) := Words.of_some rfl rfl rfl
theorem Words.st (f : Fields) : Words.Statement (.st f) := Words.of_split (n := 0x91) rfl rfl fun h => by
  have e := Words.minorIs (k := 0) rfl (Words.minor (i := .st f) rfl rfl h)
  show some (if f.minor == 1 then .stOf f else .st f : Instr) = some (.st f)
  rw [e]
  rfl
theorem Words.stOf (f : Fields) : Words.Statement (.stOf f) := Words.of_split (n := 0x91) rfl rfl fun h => by
  have e := Words.minorIs (k := 1) rfl (Words.minor (i := .stOf f) rfl rfl h)
  show some (if f.minor == 1 then .stOf f else .st f : Instr) = some (.stOf f)
  rw [e]
  rfl
theorem Words.ldb (f : Fields) : Words.Statement (.ldb f) := Words.of_some rfl rfl rfl
theorem Words.stb (f : Fields) : Words.Statement (.stb f) := Words.of_some rfl rfl rfl
theorem Words.ldacq (f : Fields) : Words.Statement (.ldacq f) := Words.of_some rfl rfl rfl
theorem Words.strel (f : Fields) : Words.Statement (.strel f) := Words.of_some rfl rfl rfl
theorem Words.ldf (f : Fields) : Words.Statement (.ldf f) := Words.of_some rfl rfl rfl
theorem Words.ldfe (f : Fields) : Words.Statement (.ldfe f) := Words.of_some rfl rfl rfl
theorem Words.stf (f : Fields) : Words.Statement (.stf f) := Words.of_some rfl rfl rfl
theorem Words.stef (f : Fields) : Words.Statement (.stef f) := Words.of_some rfl rfl rfl
theorem Words.setf (f : Fields) : Words.Statement (.setf f) := Words.of_some rfl rfl rfl
theorem Words.sete (f : Fields) : Words.Statement (.sete f) := Words.of_some rfl rfl rfl
theorem Words.ldaW (f : Fields) : Words.Statement (.ldaW f) := Words.of_split (n := 0x9C) rfl rfl fun h => by
  have e := Words.minorIs (k := 0) rfl (Words.minor (i := .ldaW f) rfl rfl h)
  show some (if f.minor == 1 then .ldaT f else if f.minor == 2 then .ldaN f else .ldaW f : Instr) = some (.ldaW f)
  rw [e]
  rfl
theorem Words.ldaT (f : Fields) : Words.Statement (.ldaT f) := Words.of_split (n := 0x9C) rfl rfl fun h => by
  have e := Words.minorIs (k := 1) rfl (Words.minor (i := .ldaT f) rfl rfl h)
  show some (if f.minor == 1 then .ldaT f else if f.minor == 2 then .ldaN f else .ldaW f : Instr) = some (.ldaT f)
  rw [e]
  rfl
theorem Words.ldaN (f : Fields) : Words.Statement (.ldaN f) := Words.of_split (n := 0x9C) rfl rfl fun h => by
  have e := Words.minorIs (k := 2) rfl (Words.minor (i := .ldaN f) rfl rfl h)
  show some (if f.minor == 1 then .ldaT f else if f.minor == 2 then .ldaN f else .ldaW f : Instr) = some (.ldaN f)
  rw [e]
  rfl
theorem Words.sta (f : Fields) : Words.Statement (.sta f) := Words.of_some rfl rfl rfl
theorem Words.stam (f : Fields) : Words.Statement (.stam f) := Words.of_some rfl rfl rfl
theorem Words.setit (f : Fields) : Words.Statement (.setit f) := Words.of_some rfl rfl rfl
theorem Words.advit (f : Fields) : Words.Statement (.advit f) := Words.of_some rfl rfl rfl
theorem Words.endw (f : Fields) : Words.Statement (.endw f) := Words.of_split (n := 0xA1) rfl rfl fun h => by
  have e := Words.minorIs (k := 0) rfl (Words.minor (i := .endw f) rfl rfl h)
  show some (if f.minor == 1 then .endwGroup f else .endw f : Instr) = some (.endw f)
  rw [e]
  rfl
theorem Words.endwGroup (f : Fields) : Words.Statement (.endwGroup f) := Words.of_split (n := 0xA1) rfl rfl fun h => by
  have e := Words.minorIs (k := 1) rfl (Words.minor (i := .endwGroup f) rfl rfl h)
  show some (if f.minor == 1 then .endwGroup f else .endw f : Instr) = some (.endwGroup f)
  rw [e]
  rfl
theorem Words.ageq (f : Fields) : Words.Statement (.ageq f) := Words.of_some rfl rfl rfl
theorem Words.stfar (f : Fields) : Words.Statement (.stfar f) := Words.of_split (n := 0xA3) rfl rfl fun h => by
  have e := Words.minorIs (k := 0) rfl (Words.minor (i := .stfar f) rfl rfl h)
  show some (if f.minor == 1 then .stfarB f else .stfar f : Instr) = some (.stfar f)
  rw [e]
  rfl
theorem Words.stfarB (f : Fields) : Words.Statement (.stfarB f) := Words.of_split (n := 0xA3) rfl rfl fun h => by
  have e := Words.minorIs (k := 1) rfl (Words.minor (i := .stfarB f) rfl rfl h)
  show some (if f.minor == 1 then .stfarB f else .stfar f : Instr) = some (.stfarB f)
  rw [e]
  rfl
theorem Words.farreq (f : Fields) : Words.Statement (.farreq f) := Words.of_some rfl rfl rfl
theorem Words.aadd (f : Fields) : Words.Statement (.aadd f) := Words.of_some rfl rfl rfl
theorem Words.amin (f : Fields) : Words.Statement (.amin f) := Words.of_some rfl rfl rfl
theorem Words.amax (f : Fields) : Words.Statement (.amax f) := Words.of_some rfl rfl rfl
theorem Words.aminn (f : Fields) : Words.Statement (.aminn f) := Words.of_some rfl rfl rfl
theorem Words.amaxn (f : Fields) : Words.Statement (.amaxn f) := Words.of_some rfl rfl rfl
theorem Words.aand (f : Fields) : Words.Statement (.aand f) := Words.of_some rfl rfl rfl
theorem Words.aor (f : Fields) : Words.Statement (.aor f) := Words.of_some rfl rfl rfl
theorem Words.axor (f : Fields) : Words.Statement (.axor f) := Words.of_some rfl rfl rfl
theorem Words.aswap (f : Fields) : Words.Statement (.aswap f) := Words.of_some rfl rfl rfl
theorem Words.acas (f : Fields) : Words.Statement (.acas f) := Words.of_some rfl rfl rfl
theorem Words.fence (f : Fields) : Words.Statement (.fence f) := Words.of_split (n := 0xAF) rfl rfl fun h => by
  have e := Words.minorIs (k := 0) rfl (Words.minor (i := .fence f) rfl rfl h)
  show some (if f.minor == 1 then .fenceAck f else .fence f : Instr) = some (.fence f)
  rw [e]
  rfl
theorem Words.fenceAck (f : Fields) : Words.Statement (.fenceAck f) := Words.of_split (n := 0xAF) rfl rfl fun h => by
  have e := Words.minorIs (k := 1) rfl (Words.minor (i := .fenceAck f) rfl rfl h)
  show some (if f.minor == 1 then .fenceAck f else .fence f : Instr) = some (.fenceAck f)
  rw [e]
  rfl
theorem Words.send (f : Fields) : Words.Statement (.send f) := Words.of_some rfl rfl rfl
theorem Words.sendb (f : Fields) : Words.Statement (.sendb f) := Words.of_some rfl rfl rfl
theorem Words.spawn (f : Fields) : Words.Statement (.spawn f) := Words.of_some rfl rfl rfl
theorem Words.park (f : Fields) : Words.Statement (.park f) := Words.of_some rfl rfl rfl
theorem Words.wait (f : Fields) : Words.Statement (.wait f) := Words.of_some rfl rfl rfl
theorem Words.yield (f : Fields) : Words.Statement (.yield f) := Words.of_some rfl rfl rfl
theorem Words.wkset (f : Fields) : Words.Statement (.wkset f) := Words.of_some rfl rfl rfl
theorem Words.wkdec (f : Fields) : Words.Statement (.wkdec f) := Words.of_some rfl rfl rfl
theorem Words.qbindPop (f : Fields) : Words.Statement (.qbindPop f) := Words.of_split (n := 0xB8) rfl rfl fun h => by
  have e := Words.minorIs (k := 0) rfl (Words.minor (i := .qbindPop f) rfl rfl h)
  show some (if f.minor == 1 then .qbindPush f else if f.minor == 2 then .qbindNone f else .qbindPop f : Instr) = some (.qbindPop f)
  rw [e]
  rfl
theorem Words.qbindPush (f : Fields) : Words.Statement (.qbindPush f) := Words.of_split (n := 0xB8) rfl rfl fun h => by
  have e := Words.minorIs (k := 1) rfl (Words.minor (i := .qbindPush f) rfl rfl h)
  show some (if f.minor == 1 then .qbindPush f else if f.minor == 2 then .qbindNone f else .qbindPop f : Instr) = some (.qbindPush f)
  rw [e]
  rfl
theorem Words.qbindNone (f : Fields) : Words.Statement (.qbindNone f) := Words.of_split (n := 0xB8) rfl rfl fun h => by
  have e := Words.minorIs (k := 2) rfl (Words.minor (i := .qbindNone f) rfl rfl h)
  show some (if f.minor == 1 then .qbindPush f else if f.minor == 2 then .qbindNone f else .qbindPop f : Instr) = some (.qbindNone f)
  rw [e]
  rfl
theorem Words.hqcfg (f : Fields) : Words.Statement (.hqcfg f) := Words.of_some rfl rfl rfl
theorem Words.albind (f : Fields) : Words.Statement (.albind f) := Words.of_split (n := 0xBA) rfl rfl fun h => by
  have e := Words.minorIs (k := 0) rfl (Words.minor (i := .albind f) rfl rfl h)
  show some (if f.minor == 1 then .albindNone f else .albind f : Instr) = some (.albind f)
  rw [e]
  rfl
theorem Words.albindNone (f : Fields) : Words.Statement (.albindNone f) := Words.of_split (n := 0xBA) rfl rfl fun h => by
  have e := Words.minorIs (k := 1) rfl (Words.minor (i := .albindNone f) rfl rfl h)
  show some (if f.minor == 1 then .albindNone f else .albind f : Instr) = some (.albindNone f)
  rw [e]
  rfl
theorem Words.balw (f : Fields) : Words.Statement (.balw f) := Words.of_some rfl rfl rfl
theorem Words.mask1 (f : Fields) : Words.Statement (.mask1 f) := Words.of_some rfl rfl rfl
theorem Words.unmask1 (f : Fields) : Words.Statement (.unmask1 f) := Words.of_some rfl rfl rfl
theorem Words.launch (f : Fields) : Words.Statement (.launch f) := Words.of_some rfl rfl rfl
theorem Words.lstat (f : Fields) : Words.Statement (.lstat f) := Words.of_some rfl rfl rfl
theorem Words.barw (f : Fields) : Words.Statement (.barw f) := Words.of_some rfl rfl rfl
theorem Words.bara (f : Fields) : Words.Statement (.bara f) := Words.of_some rfl rfl rfl
theorem Words.quant (f : Fields) : Words.Statement (.quant f) := Words.of_split (n := 0xC4) rfl rfl fun h => by
  have e := Words.minorIs (k := 0) rfl (Words.minor (i := .quant f) rfl rfl h)
  show some (if f.minor == 1 then .quantW f else .quant f : Instr) = some (.quant f)
  rw [e]
  rfl
theorem Words.quantW (f : Fields) : Words.Statement (.quantW f) := Words.of_split (n := 0xC4) rfl rfl fun h => by
  have e := Words.minorIs (k := 1) rfl (Words.minor (i := .quantW f) rfl rfl h)
  show some (if f.minor == 1 then .quantW f else .quant f : Instr) = some (.quantW f)
  rw [e]
  rfl
theorem Words.bbegin (f : Fields) : Words.Statement (.bbegin f) := Words.of_some rfl rfl rfl
theorem Words.bdecl (f : Fields) : Words.Statement (.bdecl f) := Words.of_some rfl rfl rfl
theorem Words.bcommit (f : Fields) : Words.Statement (.bcommit f) := Words.of_some rfl rfl rfl
theorem Words.babort (f : Fields) : Words.Statement (.babort f) := Words.of_some rfl rfl rfl
theorem Words.btload (f : Fields) : Words.Statement (.btload f) := Words.of_some rfl rfl rfl
theorem Words.bstat (f : Fields) : Words.Statement (.bstat f) := Words.of_some rfl rfl rfl
theorem Words.trap (f : Fields) : Words.Statement (.trap f) := Words.of_split (n := 0xD0) rfl rfl fun h => by
  have e := Words.minorIs (k := 0) rfl (Words.minor (i := .trap f) rfl rfl h)
  show some (if f.minor == 1 then .trapS f else .trap f : Instr) = some (.trap f)
  rw [e]
  rfl
theorem Words.trapS (f : Fields) : Words.Statement (.trapS f) := Words.of_split (n := 0xD0) rfl rfl fun h => by
  have e := Words.minorIs (k := 1) rfl (Words.minor (i := .trapS f) rfl rfl h)
  show some (if f.minor == 1 then .trapS f else .trap f : Instr) = some (.trapS f)
  rw [e]
  rfl
theorem Words.tret (f : Fields) : Words.Statement (.tret f) := Words.of_some rfl rfl rfl
theorem Words.tfence (f : Fields) : Words.Statement (.tfence f) := Words.of_some rfl rfl rfl
theorem Words.gets (f : Fields) : Words.Statement (.gets f) := Words.of_some rfl rfl rfl
theorem Words.sets (f : Fields) : Words.Statement (.sets f) := Words.of_split (n := 0xD4) rfl rfl fun h => by
  have h := Words.setsOk h
  show some (if f.imm == 0x000 then .setsTvec f else if f.imm == 0x001 then .setsSvec f else if f.imm == 0x003 then .setsEstat f else if f.imm == 0x007 then .setsSlice f else if f.imm == 0x009 then .setsCtxbase f else .sets f : Instr) = some (.sets f)
  simp_all [Instr.setsOk, setsSplit]
theorem Words.setsTvec (f : Fields) : Words.Statement (.setsTvec f) := Words.of_split (n := 0xD4) rfl rfl fun h => by
  have h := Words.setsOk h
  show some (if f.imm == 0x000 then .setsTvec f else if f.imm == 0x001 then .setsSvec f else if f.imm == 0x003 then .setsEstat f else if f.imm == 0x007 then .setsSlice f else if f.imm == 0x009 then .setsCtxbase f else .sets f : Instr) = some (.setsTvec f)
  simp_all [Instr.setsOk]
theorem Words.setsSvec (f : Fields) : Words.Statement (.setsSvec f) := Words.of_split (n := 0xD4) rfl rfl fun h => by
  have h := Words.setsOk h
  show some (if f.imm == 0x000 then .setsTvec f else if f.imm == 0x001 then .setsSvec f else if f.imm == 0x003 then .setsEstat f else if f.imm == 0x007 then .setsSlice f else if f.imm == 0x009 then .setsCtxbase f else .sets f : Instr) = some (.setsSvec f)
  simp_all [Instr.setsOk]
theorem Words.setsSlice (f : Fields) : Words.Statement (.setsSlice f) := Words.of_split (n := 0xD4) rfl rfl fun h => by
  have h := Words.setsOk h
  show some (if f.imm == 0x000 then .setsTvec f else if f.imm == 0x001 then .setsSvec f else if f.imm == 0x003 then .setsEstat f else if f.imm == 0x007 then .setsSlice f else if f.imm == 0x009 then .setsCtxbase f else .sets f : Instr) = some (.setsSlice f)
  simp_all [Instr.setsOk]
theorem Words.setsCtxbase (f : Fields) : Words.Statement (.setsCtxbase f) := Words.of_split (n := 0xD4) rfl rfl fun h => by
  have h := Words.setsOk h
  show some (if f.imm == 0x000 then .setsTvec f else if f.imm == 0x001 then .setsSvec f else if f.imm == 0x003 then .setsEstat f else if f.imm == 0x007 then .setsSlice f else if f.imm == 0x009 then .setsCtxbase f else .sets f : Instr) = some (.setsCtxbase f)
  simp_all [Instr.setsOk]
theorem Words.setsEstat (f : Fields) : Words.Statement (.setsEstat f) := Words.of_split (n := 0xD4) rfl rfl fun h => by
  have h := Words.setsOk h
  show some (if f.imm == 0x000 then .setsTvec f else if f.imm == 0x001 then .setsSvec f else if f.imm == 0x003 then .setsEstat f else if f.imm == 0x007 then .setsSlice f else if f.imm == 0x009 then .setsCtxbase f else .sets f : Instr) = some (.setsEstat f)
  simp_all [Instr.setsOk]
theorem Words.seta (f : Fields) : Words.Statement (.seta f) := Words.of_some rfl rfl rfl
theorem Words.pair (f : Fields) : Words.Statement (.pair f) := Words.of_some rfl rfl rfl
theorem Words.unpair (f : Fields) : Words.Statement (.unpair f) := Words.of_some rfl rfl rfl
theorem Words.digest (f : Fields) : Words.Statement (.digest f) := Words.of_split (n := 0xD8) rfl rfl fun h => by
  have e := Words.minorIs (k := 0) rfl (Words.minor (i := .digest f) rfl rfl h)
  show some (if f.minor == 1 then .digestClr f else .digest f : Instr) = some (.digest f)
  rw [e]
  rfl
theorem Words.digestClr (f : Fields) : Words.Statement (.digestClr f) := Words.of_split (n := 0xD8) rfl rfl fun h => by
  have e := Words.minorIs (k := 1) rfl (Words.minor (i := .digestClr f) rfl rfl h)
  show some (if f.minor == 1 then .digestClr f else .digest f : Instr) = some (.digestClr f)
  rw [e]
  rfl
theorem Words.huskcfgDef (f : Fields) : Words.Statement (.huskcfgDef f) := Words.of_split (n := 0xD9) rfl rfl fun h => by
  have e := Words.minorIs (k := 0) rfl (Words.minor (i := .huskcfgDef f) rfl rfl h)
  show some (if f.minor == 1 then .huskcfgKill f else if f.minor == 2 then .huskcfgFlush f else if f.minor == 3 then .huskcfgTab f else if f.minor == 4 then .huskcfgUndef f else .huskcfgDef f : Instr) = some (.huskcfgDef f)
  rw [e]
  rfl
theorem Words.huskcfgKill (f : Fields) : Words.Statement (.huskcfgKill f) := Words.of_split (n := 0xD9) rfl rfl fun h => by
  have e := Words.minorIs (k := 1) rfl (Words.minor (i := .huskcfgKill f) rfl rfl h)
  show some (if f.minor == 1 then .huskcfgKill f else if f.minor == 2 then .huskcfgFlush f else if f.minor == 3 then .huskcfgTab f else if f.minor == 4 then .huskcfgUndef f else .huskcfgDef f : Instr) = some (.huskcfgKill f)
  rw [e]
  rfl
theorem Words.huskcfgFlush (f : Fields) : Words.Statement (.huskcfgFlush f) := Words.of_split (n := 0xD9) rfl rfl fun h => by
  have e := Words.minorIs (k := 2) rfl (Words.minor (i := .huskcfgFlush f) rfl rfl h)
  show some (if f.minor == 1 then .huskcfgKill f else if f.minor == 2 then .huskcfgFlush f else if f.minor == 3 then .huskcfgTab f else if f.minor == 4 then .huskcfgUndef f else .huskcfgDef f : Instr) = some (.huskcfgFlush f)
  rw [e]
  rfl
theorem Words.huskcfgTab (f : Fields) : Words.Statement (.huskcfgTab f) := Words.of_split (n := 0xD9) rfl rfl fun h => by
  have e := Words.minorIs (k := 3) rfl (Words.minor (i := .huskcfgTab f) rfl rfl h)
  show some (if f.minor == 1 then .huskcfgKill f else if f.minor == 2 then .huskcfgFlush f else if f.minor == 3 then .huskcfgTab f else if f.minor == 4 then .huskcfgUndef f else .huskcfgDef f : Instr) = some (.huskcfgTab f)
  rw [e]
  rfl
theorem Words.huskcfgUndef (f : Fields) : Words.Statement (.huskcfgUndef f) := Words.of_split (n := 0xD9) rfl rfl fun h => by
  have e := Words.minorIs (k := 4) rfl (Words.minor (i := .huskcfgUndef f) rfl rfl h)
  show some (if f.minor == 1 then .huskcfgKill f else if f.minor == 2 then .huskcfgFlush f else if f.minor == 3 then .huskcfgTab f else if f.minor == 4 then .huskcfgUndef f else .huskcfgDef f : Instr) = some (.huskcfgUndef f)
  rw [e]
  rfl
theorem Words.brkpt (f : Fields) : Words.Statement (.brkpt f) := Words.of_some rfl rfl rfl
theorem Words.evict (f : Fields) : Words.Statement (.evict f) := Words.of_split (n := 0xDB) rfl rfl fun h => by
  have e := Words.minorIs (k := 0) rfl (Words.minor (i := .evict f) rfl rfl h)
  show some (if f.minor == 1 then .evictRestore f else .evict f : Instr) = some (.evict f)
  rw [e]
  rfl
theorem Words.evictRestore (f : Fields) : Words.Statement (.evictRestore f) := Words.of_split (n := 0xDB) rfl rfl fun h => by
  have e := Words.minorIs (k := 1) rfl (Words.minor (i := .evictRestore f) rfl rfl h)
  show some (if f.minor == 1 then .evictRestore f else .evict f : Instr) = some (.evictRestore f)
  rw [e]
  rfl
theorem Words.packageReset : Words.Statement .packageReset := Words.of_none rfl
theorem Words.freeze : Words.Statement .freeze := Words.of_none rfl
theorem Words.freezeRestart : Words.Statement .freezeRestart := Words.of_none rfl
theorem Words.railThermalAlarm : Words.Statement .railThermalAlarm := Words.of_none rfl
theorem Words.leaseLapse : Words.Statement .leaseLapse := Words.of_none rfl
theorem Words.farreqArrival : Words.Statement .farreqArrival := Words.of_none rfl
theorem Words.requestProgramStart : Words.Statement .requestProgramStart := Words.of_none rfl
theorem Words.requestProgramEnd : Words.Statement .requestProgramEnd := Words.of_none rfl
theorem Words.apertureRequestArrival : Words.Statement .apertureRequestArrival := Words.of_none rfl
theorem Words.bteBackoffRetry : Words.Statement .bteBackoffRetry := Words.of_none rfl
theorem Words.copyCompletion : Words.Statement .copyCompletion := Words.of_none rfl
theorem Words.copyFault : Words.Statement .copyFault := Words.of_none rfl
theorem Words.scaleDescriptorDelivery : Words.Statement .scaleDescriptorDelivery := Words.of_none rfl
theorem Words.wakeCounterDecrement : Words.Statement .wakeCounterDecrement := Words.of_none rfl
theorem Words.messageArrival : Words.Statement .messageArrival := Words.of_none rfl
theorem Words.startArrival : Words.Statement .startArrival := Words.of_none rfl
theorem Words.spawnPodArrival : Words.Statement .spawnPodArrival := Words.of_none rfl
theorem Words.parkContinuationArrival : Words.Statement .parkContinuationArrival := Words.of_none rfl
theorem Words.queueRecordArrival : Words.Statement .queueRecordArrival := Words.of_none rfl
theorem Words.allowanceGrantArrival : Words.Statement .allowanceGrantArrival := Words.of_none rfl
theorem Words.grantWithheldRelease : Words.Statement .grantWithheldRelease := Words.of_none rfl
theorem Words.congestionHalving : Words.Statement .congestionHalving := Words.of_none rfl
theorem Words.niUnaidedRetry : Words.Statement .niUnaidedRetry := Words.of_none rfl
theorem Words.podStart : Words.Statement .podStart := Words.of_none rfl
theorem Words.podTake : Words.Statement .podTake := Words.of_none rfl
theorem Words.level1Entry : Words.Statement .level1Entry := Words.of_none rfl
theorem Words.timeSliceExpiry : Words.Statement .timeSliceExpiry := Words.of_none rfl
theorem Words.trapEntry : Words.Statement .trapEntry := Words.of_none rfl
theorem Words.atomicAtHome : Words.Statement .atomicAtHome := Words.of_none rfl
theorem Words.mergedReplySplit : Words.Statement .mergedReplySplit := Words.of_none rfl
theorem Words.feAccessAtHome : Words.Statement .feAccessAtHome := Words.of_none rfl
theorem Words.stampedStoreAtHome : Words.Statement .stampedStoreAtHome := Words.of_none rfl
theorem Words.mirrorDelivery : Words.Statement .mirrorDelivery := Words.of_none rfl
theorem Words.ldaAtHome : Words.Statement .ldaAtHome := Words.of_none rfl
theorem Words.ageqAtHome : Words.Statement .ageqAtHome := Words.of_none rfl
theorem Words.stopNoticeArrival : Words.Statement .stopNoticeArrival := Words.of_none rfl
theorem Words.ofStoreArrival : Words.Statement .ofStoreArrival := Words.of_none rfl
theorem Words.ofFlagApply : Words.Statement .ofFlagApply := Words.of_none rfl
theorem Words.multicastDelivery : Words.Statement .multicastDelivery := Words.of_none rfl
theorem Words.launchAcceptance : Words.Statement .launchAcceptance := Words.of_none rfl
theorem Words.slotMapping : Words.Statement .slotMapping := Words.of_none rfl
theorem Words.slotRotation : Words.Statement .slotRotation := Words.of_none rfl
theorem Words.groupPlacement : Words.Statement .groupPlacement := Words.of_none rfl
theorem Words.groupRetirement : Words.Statement .groupRetirement := Words.of_none rfl
theorem Words.barrierPhaseComplete : Words.Statement .barrierPhaseComplete := Words.of_none rfl
theorem Words.quantumCountExpiry : Words.Statement .quantumCountExpiry := Words.of_none rfl
theorem Words.deliveryWindowEnd : Words.Statement .deliveryWindowEnd := Words.of_none rfl
theorem Words.declarationAtHome : Words.Statement .declarationAtHome := Words.of_none rfl
theorem Words.abortNoticeArrival : Words.Statement .abortNoticeArrival := Words.of_none rfl
theorem Words.boostedAbort : Words.Statement .boostedAbort := Words.of_none rfl
theorem Words.undoTaskStart : Words.Statement .undoTaskStart := Words.of_none rfl
theorem Words.undoFinish : Words.Statement .undoFinish := Words.of_none rfl
theorem Words.lockReleaseAtHome : Words.Statement .lockReleaseAtHome := Words.of_none rfl
theorem Words.matrixQueuePerform : Words.Statement .matrixQueuePerform := Words.of_none rfl
theorem Words.matrixInstructionCompletion : Words.Statement .matrixInstructionCompletion := Words.of_none rfl
theorem Words.peerAddArrival : Words.Statement .peerAddArrival := Words.of_none rfl
theorem Words.gangBarrierComplete : Words.Statement .gangBarrierComplete := Words.of_none rfl
theorem Words.pairIntervalClose : Words.Statement .pairIntervalClose := Words.of_none rfl
theorem Words.evictStopped : Words.Statement .evictStopped := Words.of_none rfl
theorem Words.evictDrained : Words.Statement .evictDrained := Words.of_none rfl
theorem Words.evictSaved : Words.Statement .evictSaved := Words.of_none rfl
theorem Words.restoreComplete : Words.Statement .restoreComplete := Words.of_none rfl
theorem Words.setaDrainComplete : Words.Statement .setaDrainComplete := Words.of_none rfl
theorem Words.dividerCompletion : Words.Statement .dividerCompletion := Words.of_none rfl
theorem Words.reductionCompletion : Words.Statement .reductionCompletion := Words.of_none rfl
theorem Words.fixedLatencyResultWrite : Words.Statement .fixedLatencyResultWrite := Words.of_none rfl
theorem Words.quantumMarkerArrival : Words.Statement .quantumMarkerArrival := Words.of_none rfl

end Sys2Proof.Laws
end

