-- ==== Sys2Proof/Tests/Slice0.lean ====
section
/-!
SUPPORT. Tests: a word of each family written out from spec/10 Table 5 and the encoding tables, an ill-formed term for each check
of WellFormed, single steps with results taken from the spec's rules, and for every statement with hypotheses a state and
operands that meet them (`witness_` and the statement's name). Every witness is a list of closed conditions.
-/

namespace Sys2Proof.Machine.Tests

open Sys2Proof Sys2Proof.Machine

set_option Elab.async false

/-! ### Helpers -/

/-- The fields of a test's instruction: unguarded, no counter, no wait. -/
def fl (minor : Nat := 0) (ty : Ty := .i8) (dest a b c imm : Nat := 0) (scope : Nat := 0) (setc : Nat := 7) : Fields :=
  { minor := BitVec.ofNat 4 minor, stall := 0, pred := 7, neg := false, setc := BitVec.ofNat 3 setc, wait := 0
    scope := BitVec.ofNat 3 scope, ty := ty, dest := BitVec.ofNat 8 dest, a := BitVec.ofNat 8 a, b := BitVec.ofNat 8 b
    c := BitVec.ofNat 8 c, imm := BitVec.ofNat 28 imm }

/-- The instruction issues in the state with nothing before its own effect, and a condition holds of its operands. -/
def probe (i : Instr) (s : State) (c : In → State → Bool := fun _ _ => true) : Bool :=
  match i.form?, i.word?, (s.tile s.cur).active with
  | some m, some (_, f), some w =>
    let u := s.tile s.cur
    let k := u.task w
    (lateAtIssue s s.cur w i m f true).isNone && (arrayAtIssue s s.cur w i f true).isNone && !u.pxHolds w
      && k.maskClear (waitMaskOf u w f) && !(k.mwo && decide (256 ≤ k.mcnt)) && guardOfStream u w i f == some true
      && !(leavesGangLine k w i && u.out.any fun o => o.who = w && o.status)
      && !(pairCloses i (readReg s s.cur w f.a.toNat) && u.pairOpen) && !u.stalls w i m f
      && (match decodeChecks s s.cur w i m f with
        | .ok _ => true
        | .error _ => false)
      && (match issueHolds s s.cur w i m f with
        | .ok _ => true
        | .error _ => false)
      && (match operands m f s.cur w s with
        | .ok (s1, x) => c x s1
        | .error _ => false)
  | _, _, _ => false

/-- What `probe` finds is a state in which the instruction issues. -/
theorem probe_issues {i : Instr} {s : State} {c : In → State → Bool} (h : probe i s c = true) :
    ∃ w m f s1 x, Issues s w i m f s1 x ∧ c x s1 = true := by
  unfold probe at h
  split at h
  · next m n f w hm hf hw =>
    simp only [Bool.and_eq_true, Option.isNone_iff_eq_none, Bool.not_eq_true', beq_iff_eq] at h
    obtain ⟨⟨⟨⟨⟨⟨⟨⟨⟨⟨⟨h1, h2⟩, h0⟩, h3⟩, h4⟩, h5⟩, hL⟩, h6⟩, h7⟩, h8⟩, h9⟩, h10⟩ := h
    split at h8
    · next hd =>
      split at h9
      · next he =>
        split at h10
        · next s1 x ho => exact ⟨w, m, f, s1, x, ⟨hm, by rw [hf]; rfl, hw, h0, h1, h2, h3, h4, h5, hL, h6, h7, hd, he, ho⟩, h10⟩
        · cases h10
      · cases h9
    · cases h8
  · cases h

/-- A husk of four tiles with tenant 1 at the mesh's corner. -/
def husk : Husk := { col0 := 0, row0 := 0, width := 2, height := 2 }

/-- Tile 0 of that husk runs a task in image 0. -/
def run (k : Task := {}) (g : Tile → Tile := id) : State :=
  { State.reset with
    husks := [(1, some husk)]
    tiles := [(0, g { images := [(0, { task := k, st := .running })], cur0 := some 0 })] }

/-- A task with the general registers 1, 2, … as listed. -/
def regs (ws : List Nat) (k : Task := {}) : Task :=
  { k with g := ((List.range ws.length).zip ws).map fun e => (e.1 + 1, BitVec.ofNat 64 e.2) }

/-- In supervisor mode. -/
def supervisor (k : Task := {}) : Task := { k with tstat := BitVec.ofNat 64 (2 ^ 47) }

/-- The word was found. -/
def isOk {ε α : Type} : Except ε α → Bool
  | .ok _ => true
  | .error _ => false

/-! ### Witnesses: scalar instructions -/

theorem witness_IntegerInstructionsGiveTheirValue : ([.add, .sub, .mul, .and, .or, .xor, .andn, .shl, .rol, .mulh, .sar, .min, .max].all
    (fun i : Fields → Instr => probe (i (fl (ty := .i64) (dest := 3) (a := 1) (b := 2))) (run (regs [2 ^ 63, 2 ^ 64 - 1])))
    && [Instr.mulhn, .shr, .minn, .maxn].all
    (fun i : Fields → Instr => probe (i (fl (ty := .n8) (dest := 0) (a := 1) (b := 1))) (run (regs [255])))
    && [Instr.addi, .clz, .ctz, .popc].all
    (fun i : Fields → Instr => probe (i (fl (ty := .n64) (dest := 1) (a := 1))) (run (regs [0])))) = true := by decide +kernel

theorem witness_FieldAndMoveInstructionsGiveTheirValue : ([Instr.nop].all (fun i : Fields → Instr => probe (i (fl)) (run))
    && [Instr.sext, .zext, .mov, .movh, .movi].all (fun i : Fields → Instr => probe (i (fl (dest := 3) (a := 0))) (run (regs [2 ^ 63])))
    && [Instr.bfx, .bfxn, .bfi].all (fun i : Fields → Instr => probe (i (fl (dest := 3) (a := 1) (imm := 63))) (run (regs [5])))
    && probe (.sel (fl (dest := 3) (a := 1) (b := 2) (c := 0x67))) (run (regs [5, 6]))
    && probe (.movhTop (fl (minor := 1) (dest := 3) (a := 1) (imm := 255))) (run (regs [5]))) = true := by decide +kernel
theorem witness_ComparesAndPredicatesWriteTheirPredicates :
    ([0, 4, 8].all (fun n => probe (.cmp (fl (minor := n) (ty := .i64) (dest := 0x60) (c := 0x66) (a := 1))) (run (regs [5])))
    && probe (.cmpi (fl (ty := .i8) (dest := 0x60) (c := 0x61) (a := 1))) (run (regs [5]))
    && probe (.fcmp (fl (minor := 3) (ty := .f64) (dest := 0x60) (c := 0x61) (a := 1))) (run (regs [2 ^ 63 - 1]))
    && probe (.pset (fl (imm := 0x7F7F))) (run)
    && probe (.plog (fl (minor := 9) (dest := 0x66) (a := 0x60) (b := 0x67))) (run)) = true := by decide +kernel

theorem witness_FloatInstructionsGiveTheirValue :
    ([Instr.fadd, .fsub, .fmul, .fmin, .fmax].all
      (fun i => probe (i (fl (ty := .f64) (dest := 3) (a := 1) (b := 2))) (run (regs [0x7FF0000000000000, 1])))
    && [Instr.fabs, .fneg, .fclass].all (fun i => probe (i (fl (ty := .f16) (dest := 3) (a := 1))) (run (regs [0x8000])))
    && probe (.ffma (fl (ty := .f32) (dest := 3) (a := 1) (b := 1) (c := 1))) (run (regs [0x3F800000]))
    && probe (.fcvt (fl (minor := 3) (ty := .f32) (dest := 3) (a := 1))) (run (regs [0x3FF0000000000000]))
    && probe (.ftoi (fl (minor := 7) (ty := .i8) (dest := 3) (a := 1))) (run (regs [0x7FF8000000000000]))
    && probe (.itof (fl (minor := 6) (ty := .f32) (dest := 3) (a := 1))) (run (regs [2 ^ 63]))) = true := by decide +kernel

theorem witness_DivisionsRunInTheDivider :
    ([Instr.div, .rem].all (fun i => probe (i (fl (ty := .i64) (dest := 3) (a := 1) (b := 0) (setc := 0))) (run (regs [2 ^ 63]))
      fun x s => (s.tile x.t).divider.isNone)
    && [Instr.divn, .remn].all (fun i => probe (i (fl (ty := .n8) (dest := 3) (a := 1) (b := 2))) (run (regs [255, 0]))
      fun x s => (s.tile x.t).divider.isNone)
    && [Instr.fdiv, .fsqrt].all (fun i => probe (i (fl (ty := .f32) (dest := 3) (a := 1))) (run (regs [0x3F800000]))
      fun x s => (s.tile x.t).divider.isNone)
    && [Instr.div, .divn, .rem, .remn, .fdiv, .fsqrt].all (fun i =>
      let ty : Ty := match i (fl) with
        | .div _ | .rem _ => .i64
        | .divn _ | .remn _ => .n8
        | _ => .f32
      probe (i (match i (fl) with
          | .fsqrt _ => fl (ty := ty) (dest := 3) (a := 1)
          | _ => fl (ty := ty) (dest := 3) (a := 1) (b := 2)))
        (run {} fun u => { u with divider := some { who := .img 0, tag := 0, writes := [(9, 7)] } }) fun x s => (s.tile x.t).divider.isSome)) = true := by
  decide +kernel

/-! ### Witnesses: block instructions -/

/-- An extent of `h` rows and `w` columns. -/
def ext (h w : Nat) : Nat := (w - 1) * 32 + (h - 1)

theorem witness_BlockArithmeticGivesItsElements :
    ([Instr.vadd, .vsub, .vmin, .vmax, .vmul].all (fun i =>
      probe (i (fl (ty := .f64) (dest := 0) (a := 16) (b := 8) (c := ext 1 8))) (run))
    && [Instr.vadd, .vsub, .vmul].all (fun i => probe (i (fl (ty := .i8) (dest := 255) (a := 254) (b := 253) (c := ext 1 1))) (run))
    && [Instr.vabs, .vneg].all (fun i => probe (i (fl (ty := .i16) (dest := 0) (a := 0) (c := ext 32 8))) (run))
    && [Instr.vfma, .vfms].all (fun i =>
      probe (i (fl (ty := .f32) (dest := 0) (a := 8) (b := 16) (c := ext 1 8) (imm := 24))) (run))
    && [Instr.vand, .vor, .vxor].all (fun i => probe (i (fl (dest := 0) (a := 8) (b := 16) (c := ext 1 2))) (run))
    && probe (.vnot (fl (dest := 0) (a := 8) (c := ext 1 2))) (run)
    && [Instr.vshl, .vshr, .vsar].all (fun i =>
      probe (i (fl (minor := 1) (ty := .i8) (dest := 0) (a := 8) (c := ext 1 1) (imm := 7 * 256))) (run)
      && probe (i (fl (ty := .i8) (dest := 0) (a := 8) (b := 9) (c := ext 1 1))) (run))) = true := by decide +kernel

theorem witness_BlockMovesGiveTheirWords :
    (probe (.vcmp (fl (minor := 7) (ty := .f32) (dest := 0) (a := 8) (b := 16) (c := ext 2 8))) (run)
    && probe (.vsel (fl (dest := 0) (a := 8) (b := 16) (c := ext 1 8) (imm := 24))) (run)
    && probe (.vmov (fl (dest := 0) (a := 8) (c := ext 1 8))) (run)
    && probe (.vbcast (fl (ty := .i4) (dest := 0) (a := 1) (c := ext 1 8))) (run)
    && probe (.vget (fl (ty := .i4) (dest := 3) (a := 255) (imm := 15 * 256))) (run)
    && probe (.vput (fl (ty := .i4) (dest := 255) (b := 3) (imm := 15 * 256))) (run)
    && probe (.vperm (fl (dest := 0) (a := 8) (b := 16) (c := ext 1 8))) (run)
    && probe (.vtrn (fl (dest := 0) (a := 0) (c := ext 2 2))) (run)) = true := by decide +kernel

theorem witness_ReductionsFollowTheirChain :
    ([Instr.vredr, .vredc, .vscan].all (fun i => probe (i (fl (minor := 2) (ty := .f32) (dest := 64) (a := 0) (c := ext 2 8) (setc := 5)))
      (run) fun x s => (s.tile x.t).reduction.isNone)
    && ((run {} fun u => { u with reduction := some { who := .img 0, tag := 0, writes := [] } }).tile 0).reduction.isSome) = true := by decide +kernel

theorem witness_BlockFunctionsRunsAndConversionsGiveTheirValues :
    ([Instr.vrcp, .vrsq, .vexp2, .vlog2, .vtanh].all (fun i => probe (i (fl (ty := .f32) (dest := 0) (a := 8) (c := ext 1 2))) (run))
    && probe (.vcvt (fl (minor := 1) (ty := .f64) (dest := 0) (a := 8) (c := ext 1 1) (imm := 10 * 256))) (run)
    && probe (.vcvt (fl (minor := 1) (ty := .f32) (dest := 0) (a := 8) (c := ext 1 1) (imm := 11 * 256))) (run)
    && probe (.vrnd (fl (minor := 4) (ty := .f32) (dest := 0) (a := 8) (c := ext 1 1))) (run)
    && probe (.vdq (fl (ty := .f32) (dest := 0) (a := 32) (c := ext 2 8) (imm := 0 * 256 + 100))) (run)
    && probe (.vqblk (fl (ty := .i8) (dest := 64) (a := 0) (c := ext 2 8) (imm := 10 * 256 + 100))) (run)
    && probe (.msca (fl (ty := .f32) (dest := 0) (a := 8) (b := 100) (c := ext 1 1) (imm := 101))) (run)
    && probe (.rand (fl (dest := 3) (a := 1) (b := 2))) (run)
    && probe (.randInc (fl (minor := 1) (dest := 3) (a := 1) (b := 2))) (run (regs [1, 2 ^ 32 - 1]))
    && probe (.vrand (fl (ty := .n32) (dest := 0) (a := 1) (b := 2) (c := ext 2 8))) (run)
    && probe (.vrandInc (fl (minor := 1) (ty := .f32) (dest := 0) (a := 1) (b := 2) (c := ext 2 8))) (run)) = true := by decide +kernel

/-! ### Witnesses: control instructions -/

/-- Instruction line 0 of tile 0 has every slot marked as a target. -/
def marked (s : State) : State := setBytes s (istoreKey 0 0) (bytesOf (Line.build (fun _ => 0) 0x1F 0).toNat 64)

/-- A transfer of a stream of its own lands on its target. -/
def landsAt (tgt : In → Word) (x : In) (s : State) : Bool :=
  !(s.tile x.t).following x.w && pcOk (tgt x)
    && !((fetchLine s x.t ((tgt x).toNat / 8)).2.parityOk && (fetchLine s x.t ((tgt x).toNat / 8)).2.shapeOk
      && !(fetchLine s x.t ((tgt x).toNat / 8)).2.tgt ((tgt x).toNat % 8))

/-- The task of a follower of a forwarded gang of two, whose leader went on to slot 1. -/
def followed (taken : Option (Nat × Word)) (led : Bool := true) : State :=
  run { lid := BitVec.ofNat 32 (2 ^ 19 + 2 ^ 16 + 2 ^ 12), g := [(1, 1)] } fun u =>
    { u with fwd := [{ no := 0, line := 0, slot := 0, taken := taken, guards := [(0, led)] }] }

theorem witness_TransfersReachTheirTarget :
    ([Instr.br, .bru, .call].all (fun i => probe (i (fl (imm := 4))) (marked (run)) (landsAt In.pcImm))
    && [Instr.bri, .calli].all (fun i => probe (i (fl (a := 1))) (marked (run (regs [4]))) (landsAt In.a))
    && probe (.ret (fl (a := 1))) (run (regs [8191 - 3])) (fun x s => !(s.tile x.t).following x.w && pcOk x.a)
    && probe (.loop (fl (dest := 1) (imm := 0))) (marked (run (regs [2])))
      (fun x s => landsAt In.pcImm x s && readReg s x.t x.w 1 - 1 != 0)
    && probe (.loop (fl (dest := 1) (imm := 0))) (run (regs [1])) (fun x s => !(s.tile x.t).following x.w && readReg s x.t x.w 1 - 1 == 0)
    && probe (.balw (fl (a := 0x50) (b := 32) (imm := 0))) (marked (run)) (fun x s => landsAt In.pcImm x s && decide (32 ≤ (s.tile x.t).allow 0))
    && probe (.balw (fl (a := 0x50) (b := 33) (imm := 0))) (run) (fun x s => !(s.tile x.t).following x.w && decide ((s.tile x.t).allow 0 < 33))
    && [Instr.br, .call].all (fun i => [none, some (0, 4)].all fun k =>
      probe (i (fl (imm := 4))) (followed k) (fun x s => (s.tile x.t).following x.w))
    && [Instr.bri, .calli, .ret].all (fun i => probe (i (fl (a := 1))) (followed none) (fun x s => (s.tile x.t).following x.w))
    && probe (.balw (fl (a := 0x50) (b := 1))) (followed none) (fun x s => (s.tile x.t).following x.w)
    && probe (.loop (fl (dest := 1))) (followed none) (fun x s => (s.tile x.t).following x.w)
    && probe (.ifence (fl)) (followed none) (fun x s => (s.tile x.t).following x.w)
    && [(none, true, 7), (some (0, 4), true, 7), (none, false, 7), (some (0, 4), true, 2)].all (fun e =>
      probe (.bru { fl (imm := 4) with pred := BitVec.ofNat 3 e.2.2 }) (followed e.1 e.2.1) (fun x s => (s.tile x.t).following x.w
        && (guardOf ((s.tile x.t).task x.w) x.f == e.2.1) == (e.2.1 && e.2.2 == 7)))) = true := by decide +kernel

/-- A memory-core context of tenant 1 that runs a program. -/
def program : State :=
  { run with
    mcs := [(2304, some { tenant := 1, root := 0, run := some { va := 0, param := 0, entry := 0, wk := 0, agent := 0 } })]
    tiles := [(2304, { images := [(0, { st := .running })], cur0 := some 0 })], cur := 2304 }

theorem witness_DoneAndIfenceComplete :
    ((let quiet (x : In) (s : State) : Bool := !(s.tile x.t).owes x.w true true && ((s.tile x.t).task x.w).maskClear 0x3F
      && !((s.tile x.t).matrix.queue.any fun q => q.who = x.w) && (s.tile x.t).boosted.isNone && (s.tile x.t).pairing.isNone
      probe (.done (fl)) (run) (fun x s => quiet x s && decide (x.t < numTiles))
      && probe (.done (fl)) program (fun x s => quiet x s && decide (numTiles ≤ x.t)))
    && probe (.done (fl)) (run {} fun u => { u with images := [(0, { st := .running, boost := { active := true } })] }) (fun x s =>
      x.w == .img 0 && (s.tile x.t).boosted == some 0 && !(s.tile x.t).owes x.w true true && ((s.tile x.t).task x.w).maskClear 0x3F
      && !((s.tile x.t).out.any fun o => o.who = x.w && o.acquire)
      && !((s.tile x.t).matrix.queue.any fun q => q.who = x.w))
    && probe (.ifence (fl)) (run) (fun x s => !(s.tile x.t).following x.w
      && !((s.tile x.t).out.any fun o => o.who = x.w && regionOf o.addr == 0x02 && o.kind == .store))) = true := by decide +kernel

/-! ### Witnesses: memory instructions -/

/-- The checks that an instruction makes before all others pass, as `checkedFirst` says. -/
def firstPass (i : Instr) (x : In) (s : State) : Bool :=
  match i with
  | .strel _ => isOk (checkAll x s (.release (x.f.ty.code == 6 || x.f.ty.code == 7)) x.addr x.aligned x.size true)
  | .aadd _ | .amin _ | .amax _ | .aminn _ | .amaxn _ | .aand _ | .aor _ | .axor _ | .aswap _ | .acas _ =>
    !x.f.minor.getLsbD 2 || isOk (checkAll x s .atomic x.addr x.aligned (x.f.ty.bits / 8) true)
  | .sta _ => isOk (lineChecks x s true)
  | .ldaW _ | .ldaT _ | .ldaN _ | .ageq _ => isOk (lineChecks x s false)
  | _ => true

/-- What `firstPass` finds is what the statements ask. -/
theorem firstPass_checks {i : Instr} {x : In} {s : State} (h : firstPass i x s = true) : checkedFirst i x s := by
  have ok : ∀ e : Except Stop Unit, isOk e = true → e = .ok () := by
    rintro (_ | _) h
    · cases h
    · rfl
  cases i <;> first | exact trivial | exact ok _ h | exact fun hm => ok _ (((Bool.or_eq_true _ _).mp h).resolve_left (by rw [hm]; decide))

/-- What a memory instruction asks, its checks and its release having come, with the target of its address. -/
def asks (i : Instr) (c : In → State → Req → Word → Target → Bool) (x : In) (s : State) : Bool :=
  firstPass i x s && released i x s && decide (x.t < numTiles) && match request i x s with
    | some (r, a, al) => (match checkAddr s x.t r.k a al with
      | .ok g => c x s r a g
      | .error _ => false)
    | none => false

/-- It lies in the own slice at once, and the home's answer is as asked. -/
def ownSlice (i : Instr) (c : Answer → Bool) : In → State → Bool := asks i fun x s r a g =>
  match g with
  | .sram h off => h == x.t && ownAtOnce x s r h && isOk (ownOrder s x.t x.w x.t off r.op) && (match pairOwn s x.t off r.op a with
    | .ok s0 => c (performAt s0 x.t off r.op (.core x.t x.seq (genOf (s.tile x.t) x.w)) (!((s.tile x.t).task x.w).sup)
        ((s.tile x.t).activeBoost x.w) (some (s0.cidOf x.t))).2
    | .error _ => false)
  | _ => false

/-- It lies in another tile's slice, and its NI and its pair's buffer take it. -/
def otherTile (i : Instr) : In → State → Bool := asks i fun x s r a g =>
  match g with
  | .sram h off => !ownAtOnce x s r h && !(opModifies r.op && niFull s x.t a)
    && isOk (sentOrder s x.t x.w h off r.op (pairWaits r.op r.dst && (s.tile x.t).pairing.isSome))
    && (!pairWaits r.op r.dst || isOk (pairHold s x.t x.w [s.nextId] r.op a))
  | _ => false

/-- It names another package. -/
def otherPackage (i : Instr) : In → State → Bool := asks i fun x s r a g =>
  match g with
  | .remote chip _ _ _ => !(opModifies r.op && niFull s x.t a)
    && (!opModifies r.op || isOk (takeUnits (s.tile x.t) (chipDst chip) 1)) && isOk (behindAway (s.tile x.t) x.w a r.op)
    && !(!(pairWaits r.op r.dst && (s.tile x.t).pairing.isSome)
      && s.egress.any fun e => e.src = x.t && e.held && linesMeet e.addr (lenOf e.op) a (opLen r.op))
    && (!(pairWaits r.op r.dst && (s.tile x.t).pairing.isSome) || isOk (pairHold s x.t x.w [s.nextId] r.op a))
  | _ => false

def isData : Answer → Bool
  | .data _ _ => true
  | .done => true
  | _ => false

/-- The plain and full/empty instructions, the block accesses, the atomics and the line accesses, at the address in g1. -/
def memoryInstrs : List Instr :=
  [Instr.ld, .ldacq, .ldf, .ldfe, .st, .strel, .stf].map (fun i => i (fl (ty := .i64) (a := 1)))
    ++ [Instr.setf, .sete].map (fun i => i (fl (a := 1)))
    ++ [Instr.ldb, .stb].map (fun i => i (fl (a := 1) (c := ext 1 8)))
    ++ [Instr.aadd, .amin, .amax, .aand, .aor, .axor, .aswap, .acas].map (fun i => i (fl (ty := .i64) (a := 1) (b := 2)))
    ++ [Instr.aminn, .amaxn].map (fun i => i (fl (ty := .n64) (minor := 7 - 1) (a := 1) (b := 2) (scope := 4)))
def lineInstrs : List Instr :=
  [Instr.ldaN (fl (minor := 2) (a := 1) (b := 3) (c := 0xE0)), .ldaW (fl (a := 1) (c := 0xE0)), .ldaT (fl (minor := 1) (a := 1) (c := 0xE0)),
    .sta (fl (a := 1) (b := 2) (c := 0xE0)), .ageq (fl (a := 1) (dest := 4))]

/-- The line at 0x8000 of tile 0 is stamped with the age 0 by the core itself. -/
def stamped (s : State) : State :=
  { s.modTile 0 fun u => { u with attr := [(0, some
      { base := 8, len := 1, span := 0, stamped := true, mirror := false, boost := false, feinit := 0, writer := 0, age0 := 0 })] } with
    side := [(lineKey 0 0x8000, some { age := 0, writer := 0 })] }

/-- The word at 0x8000 of tile 0 is empty. -/
def emptied (s : State) : State := s.setEmpty 0 0x8000 true

/-- A waiter of the word at 0x8000. -/
def waiter : Waiter := { asker := .core 1 0 0, off := 0x8000, op := .ldfe 8, order := 0 }

theorem witness_OwnSliceAccessesComplete :
    (memoryInstrs.all (fun i => probe i (run (regs [2 ^ 21 - 64])) (ownSlice i isData))
    && lineInstrs.all (fun i => probe i (stamped (run (regs [0x8000]))) (ownSlice i isData))
    && probe (.stef (fl (ty := .i8) (a := 1))) (emptied (run (regs [0x8000]))) (ownSlice (.stef (fl (ty := .i8) (a := 1))) isData)
    && probe (.ldfe (fl (ty := .i64) (a := 1))) (emptied (run (regs [0x8000]))) (ownSlice (.ldfe (fl (ty := .i64) (a := 1))) (· == .parked))
    && probe (.ldfe (fl (ty := .i64) (a := 1))) (emptied (run (regs [0x8000]) fun u => { u with waiters := List.replicate 64 waiter }))
      (ownSlice (.ldfe (fl (ty := .i64) (a := 1))) (· == .full))
    && [Instr.ld (fl (ty := .i64) (a := 1)), .st (fl (ty := .i64) (a := 1)), .setf (fl (a := 1))].all (fun i =>
      probe i (run (regs [0])) (ownSlice i (· == .fault .priv)))) = true := by decide +kernel

theorem witness_AccessesToOtherTilesComplete :
    (memoryInstrs ++ lineInstrs).all (fun i => probe i (run (regs [2 ^ 27 + 2 ^ 21 + 0x8000])) (otherTile i)) = true := by decide +kernel

theorem witness_AccessesToOtherPackagesComplete :
    ((memoryInstrs.filter fun i => match i with
      | .ldf _ | .ldfe _ | .stf _ | .setf _ | .sete _ => false
      | _ => true) ++ lineInstrs).all
      (fun i => probe i (run (regs [2 ^ 56 + 1 * 2 ^ 33 + 0x8000])) (otherPackage i)) = true := by decide +kernel

theorem witness_FarCodeAndGroupStoresComplete :
    (probe (.stfar (fl (ty := .i64) (a := 1))) (run (regs [0x10 * 2 ^ 56 + 2 ^ 48 - 8])) (asks (.stfar (fl (ty := .i64) (a := 1))) fun x s _ a g =>
      (match g with
        | .far _ => !niFull s x.t a
        | _ => false))
    && probe (.stfarB (fl (minor := 1) (a := 1) (c := ext 1 8))) (run (regs [0x10 * 2 ^ 56]))
      (asks (.stfarB (fl (minor := 1) (a := 1) (c := ext 1 8))) fun x s _ a g => (match g with
        | .far _ => !niFull s x.t a
        | _ => false))
    && probe (.stb (fl (a := 1) (c := ext 1 8))) (run (regs [0x02 * 2 ^ 56 + 0xFFC0])) (asks (.stb (fl (a := 1) (c := ext 1 8))) fun x s r a g =>
      (match g, r.op with
        | .code _ _, .storeBlock _ => isOk (pairHold s x.t x.w [s.nextId] r.op a)
        | _, _ => false))
    && [Instr.st, .strel].all (fun i => probe (i (fl (ty := .i64) (a := 1)))
      { run (regs [0x20 * 2 ^ 56 + 7 * 65536]) with groups := [(7 * 256 + 1, some [(1, 1, 0)])] } (asks (i (fl (ty := .i64) (a := 1))) fun x s r _ g =>
      (match g with
        | .mcast 7 off => (s.huskOf x.t).any fun e => (s.groupOf e.1 7).all fun m =>
          !(matrixMeets s x.t x.w (e.2.tileAt m.1 m.2.1) (m.2.2 * 65536 + off) 64 true)
          && isOk (behindParked s x.t x.w (e.2.tileAt m.1 m.2.1) (m.2.2 * 65536 + off) r.op)
        | _ => false)))
    && probe (.stb (fl (a := 1) (c := ext 1 8)))
      { run (regs [0x20 * 2 ^ 56 + 7 * 65536]) with groups := [(7 * 256 + 1, some [(1, 1, 0)])] } (asks (.stb (fl (a := 1) (c := ext 1 8))) fun x s r _ g =>
      (match g with
        | .mcast 7 off => (s.huskOf x.t).any fun e => (s.groupOf e.1 7).all fun m =>
          !(matrixMeets s x.t x.w (e.2.tileAt m.1 m.2.1) (m.2.2 * 65536 + off) 64 true)
          && isOk (behindParked s x.t x.w (e.2.tileAt m.1 m.2.1) (m.2.2 * 65536 + off) r.op)
        | _ => false))) = true := by decide +kernel

theorem witness_OrderedFlagStoresComplete :
    (let free (x : In) (s : State) : Bool := decide (x.t < numTiles) && !niFull s x.t x.addr && (s.tile x.t).pairing.isNone
    [0x8000, 2 ^ 21 + 0x8000].all (fun a => probe (.stOf (fl (minor := 1) (ty := .i64) (a := 1))) (run (regs [a])) (fun x s => free x s
      && (match checkAddr s x.t .storeOf x.addr x.aligned with
        | .ok (.sram h off) => !matrixMeets s x.t x.w h off x.size true && isOk (behindParked s x.t x.w h off (.store x.size x.data))
          && (h != x.t || (flagFault s h off x.size x.data (!((s.tile x.t).task x.w).sup) ((s.tile x.t).activeBoost x.w)).isNone)
        | _ => false)))
    && probe (.stOf (fl (minor := 1) (ty := .i64) (a := 1))) { program with tiles := [(2304, { (program).tile 2304 with
        images := [(0, { task := regs [0x8000], st := .running })] })] } (fun x s => decide (numTiles ≤ x.t) && regionOf x.addr == 0x00
      && (match checkAddr s x.t (.store true) x.addr x.aligned with
        | .ok (.sram _ _) => true
        | _ => false))
    && probe (.stOf (fl (minor := 1) (ty := .i8) (a := 1))) (run (regs [2 ^ 56 + 2 ^ 33])) (fun x s => free x s
      && (match checkAddr s x.t .storeOf x.addr x.aligned with
        | .ok (.remote chip _ _ _) => isOk (takeUnits (s.tile x.t) (chipDst chip) 1)
        | _ => false))) = true := by decide +kernel

/-- A store of the task that is not acknowledged, to another tile or to another package. -/
def owing (remote : Bool) : Tile → Tile := fun u =>
  { u with out := [{ tag := 0, who := .img 0, kind := .store, remote := remote }], seq := 1 }

theorem witness_FencesWaitForAcknowledgements :
    (probe (.fence (fl (scope := 3))) (run {} (owing true)) (fun x s => !(s.tile x.t).owes x.w (x.f.scope == 4) false)
    && probe (.fence (fl (scope := 4))) (run {} (owing true)) (fun x s => (s.tile x.t).owes x.w (x.f.scope == 4) false)
    && probe (.fenceAck (fl (minor := 1))) (run) (fun x s => !(s.tile x.t).owes x.w true true)
    && probe (.fenceAck (fl (minor := 1))) (run {} (owing false)) (fun x s => (s.tile x.t).owes x.w true true)) = true := by decide +kernel

theorem witness_EffectsAndAtomicsAtHome :
    ((run).openWord 0 (0x8000 / 8 * 8) = none ∧ (run).isEmpty 0 0x8000 = false)
    ∧ ((emptied run).openWord 0 (0x8000 / 8 * 8) = none ∧ (emptied run).isEmpty 0 0x8000 = true) := by decide +kernel

/-- A waiter that stores elsewhere than to the byte asked for. -/
theorem witness_StoredBytesAreReadBackAndOthersKept :
    (let s := run {} fun u => { u with waiters := [{ waiter with op := .stef 8 1 }] }
      ∀ y ∈ (s.tile 0).waiters, consumesHere s 0 y.off y.op = false ∧ ∀ n v, y.op = .stef n v →
        sliceKey 0 0x7FFF < sliceKey 0 y.off ∨ sliceKey 0 y.off + n ≤ sliceKey 0 0x7FFF)
    ∧ sliceKey 0 0x7FFF < sliceKey 0 0x8000 ∧ sliceKey 2303 (2 ^ 21 - 8) + 8 ≤ memEnd := by
  refine ⟨fun y hy => ?_, by decide, by decide⟩
  rw [List.mem_singleton.mp (show y ∈ [{ waiter with op := .stef 8 1 }] from hy)]
  exact ⟨by decide +kernel, fun n v h => .inl (by decide)⟩

theorem witness_AddressChecksComeInOrder :
    (regionOf (0x04 * 2 ^ 56 : Word) ∉ [0x00, 0x01, 0x02, 0x03, 0x10, 0x20])
    ∧ mustBeZero (2 ^ 33 : Word) = false
    ∧ kindFault .farStore (0 : Word) = some .region ∧ kindFault (.storeBlock 7) (0x02 * 2 ^ 56 : Word) = some .istore
    ∧ kindFault .load (2 ^ 33 - 1 : Word) = none ∧ ((run).huskOf 0).isSome = true
    ∧ (husk.width ≤ field (2 * 2 ^ 21 : Word) 26 21) ∧ (husk.height ≤ field (2 * 2 ^ 27 : Word) 32 27)
    ∧ (field (2 ^ 21 : Word) 26 21 < husk.width ∧ field (2 ^ 27 : Word) 32 27 < husk.height)
    ∧ ([0x01 * 2 ^ 56, 0x01 * 2 ^ 56 + 2 ^ 33, 0x02 * 2 ^ 56 + 2 * 2 ^ 16, 0x02 * 2 ^ 56 + 2 * 2 ^ 22, 0x02 * 2 ^ 56 + 2 ^ 16 + 2 ^ 22 + 8,
        0x02 * 2 ^ 56 + 2 ^ 16 + 2 ^ 22, 0x03 * 2 ^ 56 + 48 * 256, 0x03 * 2 ^ 56 + 47 * 256, 0x10 * 2 ^ 56, 0x20 * 2 ^ 56 + 7 * 65536,
        0x20 * 2 ^ 56 + 8 * 65536].all fun (n : Nat) =>
      let a : Word := BitVec.ofNat 64 n
      mustBeZero a && kindFault (if regionOf a == 0x02 then .storeBlock 8 else if regionOf a == 0x10 then .farStore else .store true) a == none) = true
    ∧ field (0x01 * 2 ^ 56 : Word) 44 33 = (run).chip ∧ field (0x01 * 2 ^ 56 + 2 ^ 33 : Word) 44 33 ≠ (run).chip
    ∧ husk.width ≤ field (0x02 * 2 ^ 56 + 2 * 2 ^ 16 : Word) 21 16 ∧ husk.height ≤ field (0x02 * 2 ^ 56 + 2 * 2 ^ 22 : Word) 27 22
    ∧ field (0x02 * 2 ^ 56 + 2 ^ 16 + 2 ^ 22 + 8 : Word) 21 16 < husk.width ∧ field (0x02 * 2 ^ 56 + 2 ^ 16 + 2 ^ 22 + 8 : Word) 27 22 < husk.height
    ∧ field (0x02 * 2 ^ 56 + 2 ^ 16 + 2 ^ 22 + 8 : Word) 5 0 ≠ 0 ∧ field (0x02 * 2 ^ 56 + 2 ^ 16 + 2 ^ 22 : Word) 5 0 = 0
    ∧ 47 < field (0x03 * 2 ^ 56 + 48 * 256 : Word) 13 8 ∧ field (0x03 * 2 ^ 56 + 47 * 256 : Word) 13 8 ≤ 47
    ∧ ({ run with groups := [(7 * 256 + 1, some [])] } : State).groupBound 1 7 = true
    ∧ ({ run with groups := [(7 * 256 + 1, some [])] } : State).groupBound 1 8 = false
    ∧ ((run).tile 0).inCtx 24575 1 = true ∧ ((run).tile 0).inCtx 24576 8 = false
    ∧ ((stamped run).tile 0).touches (·.stamped) 0x8000 8 = true ∧ ((stamped run).tile 0).touches (·.stamped) 0x9000 8 = false
    ∧ rangeFault (stamped run) 0 0x8FFF (.store 1 0) false none = some .stawr := by decide +kernel

/-! ### Witnesses: stamped, far and task instructions -/

/-- A group of tenant 1 with one member. -/
def grouped (s : State) : State := { s with groups := [(7 * 256 + 1, some [(1, 1, 0)])] }

theorem witness_StampedInstructionsComplete :
    (let quiet (x : In) (s : State) : Bool := (s.huskOfTile x.t).isSome && !(s.tile x.t).owes x.w true false
    [0, 1].all (fun n => probe (.setit (fl (minor := n) (a := n))) (run) && probe (.advit (fl (minor := n) (a := n))) (run))
    && probe (.endw (fl)) (run) quiet
    && probe (.endwGroup (fl (minor := 1) (imm := 7))) (grouped run) (fun x s => quiet x s && s.groupBound 1 x.low16)
    && [0, 4].all (fun sc => [2 ^ 21 + 0x8000, 0x8000, 2 ^ 56 + 2 ^ 33].all fun a =>
      let f := fl (a := 1) (b := 2) (c := 0xE0) (imm := 7) (scope := sc)
      probe (.stam f) (grouped (stamped (run (regs [a])))) fun x s =>
        firstPass (.sta f) x s && isOk (stamChecks x.low16 x s) && released (.sta f) x s && decide (x.t < numTiles)
        && (match request (.sta f) x s with
          | some (r, a', al) => (match checkAddr s x.t r.k a' al with
            | .ok (.sram h off) => if h = x.t then isOk (ownOrder s x.t x.w x.t off r.op) && (match pairOwn s x.t off r.op a' with
                | .ok s0 => (performAt s0 x.t off r.op (.core x.t x.seq (genOf (s.tile x.t) x.w)) (!((s.tile x.t).task x.w).sup)
                    ((s.tile x.t).activeBoost x.w) (some (s0.cidOf x.t))).2 == .done
                | .error _ => false)
              else !niFull s x.t a' && isOk (sentOrder s x.t x.w h off r.op (s.tile x.t).pairing.isSome) && isOk (pairHold s x.t x.w [s.nextId] r.op a')
            | .ok (.remote chip _ _ _) => !niFull s x.t a' && isOk (takeUnits (s.tile x.t) (chipDst chip) 1) && s.egress.isEmpty
              && isOk (behindAway (s.tile x.t) x.w a' r.op)
            | _ => false)
          | none => false))) = true := by decide +kernel

/-- A SETA that waits for its drain. -/
def draining (a b : Word) : State := run {} fun u =>
  { u with seta := some (3, a, b, 0, 0), out := [{ tag := 0, who := .img 0, kind := .other }], seq := 1 }

theorem witness_AttributesAreWrittenAfterTheirDrain :
    (probe (.seta (fl (a := 1) (b := 2) (imm := 31))) (run (regs [8 + 504 * 2 ^ 9 + 2 * 2 ^ 25, 0])) (fun x s =>
      isOk (setaChecks s x.t x.f.imm.toNat x.a x.b) && (s.tile x.t).seta.isNone)
    && probe (.seta (fl (a := 1) (b := 2) (imm := 0))) (run (regs [8 + 256 * 2 ^ 9 + 2 ^ 22, 5])) (fun x s =>
      isOk (setaChecks s x.t x.f.imm.toNat x.a x.b) && (s.tile x.t).seta.isNone)
    && ((draining 0 0).tile 0).seta.isSome
    && ((setaEffect ((draining 0 0).modTile 0 fun u => { u with seta := none }) 0 3 0 0).tile 0).out.any (fun o => o.tag = 0)
    && ((run).tile 0).waiters.isEmpty
    && (attrOf (8 + 2 ^ 9 + 2 ^ 22 + 2 ^ 25) 0).feinit == 1 && (attrOf (8 + 2 ^ 9 + 2 ^ 26) 0).feinit == 2
    && (attrOf (8 + 2 ^ 9 + 2 ^ 22 + 2 ^ 25) 0).stamped) = true := by decide +kernel

/-- A template of one row of eight bytes, at 0x8000 of tile 0. -/
def templated (s : State) : State :=
  setBytes s (sliceKey 0 0x8000) (bytesOf (0x9000 + 0xA000 * 2 ^ 64 + 1 * 2 ^ 128 + 8 * 2 ^ 160) 64)

theorem witness_CopyAndFarRequestsGoOut :
    (probe (.st (fl (ty := .i64) (a := 1) (b := 2))) (templated (run (regs [0x03 * 2 ^ 56 + 47 * 256, 0x8000 / 64]))) (fun x s =>
      regionOf x.addr == 0x03 && !(s.tile x.t).owes x.w true false
      && (match checkAddr s x.t (.store true) x.addr true with
        | .ok (.aperture _) => true
        | _ => false)
      && field x.b 63 44 == 0 && field x.b 35 15 == 0 && !(s.tile x.t).inCtx (64 * field x.b 14 0) 64
      && !s.consumesBad x.t (64 * field x.b 14 0) 64
      && isOk (readTemplate (s.correct x.t (64 * field x.b 14 0) 8) husk (sliceKey x.t (64 * field x.b 14 0)) 1 x.t (field x.b 43 36) x.addr))
    && probe (.farreq (fl (dest := 255) (a := 1) (b := 2) (c := 255))) (run (regs [0x10 * 2 ^ 56 + 8])) (fun x s =>
      !(s.tile x.t).owes x.w true false && (match checkAddr s x.t .farReq x.addr (x.addr.toNat % 8 == 0) with
        | .ok (.far _) => true
        | _ => false))) = true := by decide +kernel

theorem witness_SendsPutTheirMessageOut :
    ([0, 1].all (fun n => probe (.send (fl (minor := n) (a := 1) (b := 0) (c := ext 4 8) (imm := 8188))) (run (regs [2 ^ 21 + 0x8000])) fun x s =>
      match sendTarget s x (8 * (x.f.h * x.f.wd)) with
      | .ok (h, off) => !homesFull s x.t (homesOf s x.t x.a)
        && !matrixMeets s x.t x.w h off (8 * (blockWords s x x.f.b.toNat).length) true && (match takeUnits (s.tile x.t) h (unitsOf (8 * (blockWords s x x.f.b.toNat).length)) with
        | .ok (_, u) => (detTag (s.setTile x.t u) x.t h).isNone
        | .error _ => false)
      | .error _ => false)
    && probe (.sendb (fl (a := 1) (b := 2) (c := 31))) (run (regs [0x8000, 2 ^ 21 - 256])) (fun x s =>
      regionOf x.b == 0x00 && mustBeZero x.b && field x.b 26 21 == 0 && field x.b 32 27 == 0 && field x.b 20 0 % 8 == 0
      && decide (field x.b 20 0 + 8 * (x.f.c.toNat + 1) ≤ 2 ^ 21) && !(s.tile x.t).inCtx (field x.b 20 0) (8 * (x.f.c.toNat + 1))
      && isOk (ownOrder s x.t x.w x.t (field x.b 20 0) (.loadBlock (x.f.c.toNat + 1)))
      && !s.consumesBad x.t (field x.b 20 0) (8 * (x.f.c.toNat + 1))
      && (match sendTarget s x (8 * (x.f.c.toNat + 1)) with
        | .ok (h, off) => !homesFull s x.t (homesOf s x.t x.a) && !matrixMeets s x.t x.w h off (8 * (x.f.c.toNat + 1)) true
          && (match takeUnits (s.tile x.t) h 4 with
          | .ok (_, u) => (detTag (s.setTile x.t u) x.t h).isNone
          | .error _ => false)
        | .error _ => false))) = true := by decide +kernel

theorem witness_PodsAndDecrementsGoOut :
    ([0, 1].all (fun n => probe (.spawn (fl (minor := n) (a := 1) (b := 2) (imm := 8))) (run (regs [1 + 64, 2 ^ 32 - 2 ^ 16]))
      fun x s => isOk (coreOf s x.t x.a) && maskOk x.b)
    && probe (.park (fl (a := 1) (b := 2) (c := 255))) (run (regs [1, 2])) (fun x s => isOk (coreOf s x.t x.a) && maskOk x.b
      && !((s.tile x.t).out.any fun o => o.who = x.w && o.park) && !((s.tile x.t).task x.w).fwd
      && !(s.tile x.t).activeBoost x.w && !(s.tile x.t).matrixBusy x.w && ((s.tile x.t).task x.w).maskClear 0x3F && !(s.tile x.t).owes x.w true true)
    && probe (.wkdec (fl (a := 1) (b := 2) (c := 255))) (run (regs [0, 5])) (fun x s =>
      isOk (coreOf s x.t x.a) && !(s.tile x.t).owes x.w true false)) = true := by decide +kernel

/-- A second task is ready. -/
def contended (k : Task := {}) (n : Nat := 0) : State := run k fun u =>
  { u with
    images := u.images ++ [(1, { st := .ready })], ready := [.bound 1]
    wake := if n = 0 then [] else [(5, { count := n })] }

theorem witness_WaitYieldAndWindowsComplete :
    (let rests (x : In) (s : State) : Bool := x.w == .img 0 && !((s.tile x.t).ctx 0).waitDone && ((s.tile x.t).wakeOf x.f.c.toNat).pod == .none
    let aside (x : In) (s : State) : Bool := (s.tile x.t).otherReady && !((s.tile x.t).task x.w).fwd
    let takes (x : In) (s : State) : Bool := !aside x s || ((s.tile x.t).settled x.w && !(s.tile x.t).pairOpen)
    probe (.wkset (fl (a := 1) (c := 255))) (run (regs [65535])) (fun x s => ((s.tile x.t).wakeOf x.f.c.toNat).pod == .none)
    && probe (.wait (fl (c := 5))) (run) (fun x s => rests x s && takes x s && ((s.tile x.t).wakeOf 5).count == 0)
    && probe (.wait (fl (c := 5))) (contended) (fun x s => rests x s && takes x s && ((s.tile x.t).wakeOf 5).count == 0)
    && probe (.wait (fl (c := 5))) (contended {} 1) (fun x s => rests x s && takes x s && aside x s && ((s.tile x.t).wakeOf 5).count != 0)
    && probe (.wait (fl (c := 5))) (run {} fun u => { u with wake := [(5, { count := 1 })] })
      (fun x s => rests x s && !aside x s && ((s.tile x.t).wakeOf 5).count != 0)
    && probe (.wait (fl (c := 5))) (run {} fun u => u.setCtx 0 { u.ctx 0 with waitDone := true })
      (fun x s => x.w == .img 0 && ((s.tile x.t).ctx 0).waitDone)
    && probe (.wait (fl (c := 5))) (contended {} 1 |>.modTile 0 fun u => u.setWake 5 { u.wakeOf 5 with pod := .bound 0 }) (fun x s =>
      x.w == .img 0 && !((s.tile x.t).ctx 0).waitDone && takes x s && aside x s && ((s.tile x.t).wakeOf 5).pod == .bound 0)
    && probe (.yield (fl)) (run) (fun x s => !aside x s)
    && probe (.yield (fl)) (contended) (fun x s => aside x s && (s.tile x.t).settled x.w && !(s.tile x.t).pairOpen)
    && probe (.mask1 (fl)) (run) (fun x s => !((s.tile x.t).task x.w).mwo)
    && probe (.unmask1 (fl)) (run)) = true := by decide +kernel

theorem witness_PortsQueuesAndAllowancesAreConfigured :
    (probe (.qbindPop (fl (dest := 0x4F) (c := 3))) (run {} fun u => { u with hq := [(3, { en := true, base := 0x8000 })] }) (fun x s =>
      ((s.tile x.t).hqueue x.f.c.toNat).en && isOk (claimPort s x.t x.w (x.f.dest.toNat - 0x40)))
    && probe (.qbindPush (fl (minor := 1) (dest := 0x40) (a := 1) (c := 0))) (run (regs [65])) (fun x s =>
      isOk (coreOf s x.t x.a) && isOk (claimPort s x.t x.w (x.f.dest.toNat - 0x40)))
    && probe (.qbindNone (fl (minor := 2) (dest := 0x40))) (run) (fun x s => isOk (claimPort s x.t x.w (x.f.dest.toNat - 0x40)))
    && [2 ^ 20, 1 + 2 ^ 20 + 9 * 2 ^ 28].all (fun v => probe (.hqcfg (fl (a := 1) (c := 3))) (run (regs [v])) fun x s =>
      ((s.tile x.t).hqueue x.f.c.toNat).slot.isEmpty && ((s.tile x.t).hqueue x.f.c.toNat).stored == 0
      && field x.a 63 32 == 0 && field x.a 27 21 == 0 && field x.a 5 1 == 0 && decide (field x.a 31 28 ≤ 9)
      && decide (64 * field x.a 20 6 + 64 * 32 * 2 ^ field x.a 31 28 ≤ 2 ^ 21)
      && !(s.tile x.t).inCtx (64 * field x.a 20 6) (64 * 32 * 2 ^ field x.a 31 28))
    && [2 ^ 21, 2 ^ 56 + 2 ^ 33].all (fun a => probe (.albind (fl (dest := 0x5F) (a := 1))) (run (regs [a])) fun x s =>
      match bindTarget s x with
      | .ok d => !((s.tile x.t).alBind.any fun e => e.1 != x.f.dest.toNat - 0x50 && e.2 == some d)
        && decide (32 ≤ (s.tile x.t).allow (x.f.dest.toNat - 0x50))
      | .error _ => false)
    && probe (.albindNone (fl (minor := 1) (dest := 0x51))) (run) (fun x s => decide (32 ≤ (s.tile x.t).allow (x.f.dest.toNat - 0x50)))) = true := by
  decide +kernel

/-! ### Witnesses: groups, quanta, boosted tasks -/

/-- A group of one core, tile 0, of tenant 1. -/
def team (det : Bool := false) (n : Nat := 1) (phase : Nat := 0) : Cohort :=
  { id := 0, tenant := 1, slot := 0, queue := 0, index := 0, x := 0, y := 0, w := n, h := 1, gwl := 0, fwd := false, det := det
    boost := true, qlog := 10, tag := 7, entry := 0, arg := 0, tstat := 0, phase := phase }

/-- The machine with that group placed. -/
def placed (s : State) (c : Cohort := team) : State := { s with cohorts := [c] }

/-- A packet on its way to tile 0, as number 0. -/
def mail (s : State) (b : Body) (src : Nat := 1) : State :=
  { s with net := [{ id := 0, src := src, dst := 0, tag := 0, chan := none, body := b }] }

theorem witness_LaunchesAndBarriersComplete :
    ([0x8000, 2 ^ 21 + 2 ^ 20].all (fun a => probe (.launch (fl (dest := 3) (a := 1))) (run (regs [a])) fun x s =>
      !(s.tile x.t).owes x.w true true
      && (match checkAddr s x.t .localOnly x.a (x.a.toNat % 64 == 0 && x.a.toNat % 2 ^ 21 + 128 ≤ 2 ^ 21) with
        | .ok (.sram t off) => !s.consumesBad t (off + 0x10) 12
          && (let len := recLen (recGroups (s.correct t ((off + 0x10) / 8 * 8) 2) t off)
            decide (off + len ≤ 2 ^ 21) && !(s.tile t).inCtx off len)
        | _ => false))
    && [2 ^ 48 + 0x8000, 2 ^ 48 + 63 * 2 ^ 21].all (fun a => probe (.lstat (fl (dest := 3) (a := 1))) (run (regs [a])) fun x s =>
      field x.a 47 33 == 0 && field x.a 5 0 == 0 && (recPlace s x).all fun e =>
        !s.consumesBad e.1 (e.2 + 0x40) 16)
    && probe (.bara (fl)) (placed run) (fun x s => (match groupCohort s x with
      | .ok c => !(s.tile x.t).owes x.w true false && decide ((s.tile x.t).phase ≤ c.phase)
      | .error _ => false))
    && [none, some ((0 : Word), 1)].all (fun n => probe (.barw (fl)) (placed (run { waitNo := n } fun u => { u with phase := 1 }) (team (phase := 1)))
      fun x s => (match groupCohort s x with
        | .ok c => decide ((x.waitNo s).getD (s.tile x.t).phase ≤ c.phase) && (x.waitNo s).isSome == n.isSome
        | .error _ => false))
    && (let s := placed (run {} fun u => { u with phase := 1 })
      s.cohorts.find? (fun (c : Cohort) => c.id = s.sel) == some team && s.membersOf team == [0]
      && (s.membersOf team).all (fun t => decide (team.phase < (s.tile t).phase)))) = true := by decide +kernel

/-- A DET group of two, of which tile 0 has sent its marker and keeps a message of the window. -/
def windowed : State := placed (run {} fun u => { u with det := { u.det with
    sent := 1, marks := [(0, 0, 1), (0, 1, 0)]
    parked := [{ off := 0x8000, words := [1], handler := 0, level := 0, it := 0, gid := 0, tstat := 0, cid := 0, al := 0, units := 1, det := true }] } })
  (team true 2)

theorem witness_QuantaAndDeliveryWindowsEnd :
    (probe (.quant (fl)) (run) (fun x s => quantCohort s x == none)
    && probe (.quant (fl)) (placed run) (fun x s => quantCohort s x == none)
    && probe (.quant (fl)) (placed run (team true)) (fun x s => quantCohort s x == some (team true))
    && probe (.quantW (fl (minor := 1))) (placed run (team true)) (fun x s => quantCohort s x == some (team true) && x.waitNo s == none)
    && probe (.quantW (fl (minor := 1))) (run) (fun x s => quantCohort s x == none && x.waitNo s == none)
    && probe (.quantW (fl (minor := 1))) (placed (run { waitNo := some (0, 0) } fun u =>
        { u with det := { u.det with sent := 1, handled := 1 } }) (team true))
      (fun x s => (x.waitNo s).any fun n => decide (n < (s.tile x.t).det.handled))
    && (let s := placed (run {} fun u => { u with det := { u.det with count := 1024 } }) (team true)
      s.cohortOf s.cur == some (team true) && !(s.tile 0).det.finished && decide (2 ^ (team true).qlog ≤ (s.tile 0).det.count)
      && !countOpen (s.tile s.cur))
    && [(team, 0, true), (team, 9, false)].all (fun e => let s := mail (placed run e.1) (.marker e.2.1 0 0 0)
      (arrived s s.sel).any (fun p => p.body == .marker e.2.1 0 0 0 && ((s.cohortOf p.dst).any fun c => c.id == e.2.1) == e.2.2))
    && (arrived (mail run (.marker 0 0 0 0)) 0).any (fun p => ((run).cohortOf p.dst).isNone)
    && windowed.cohortOf windowed.cur == some (team true 2) && windowOver windowed 0 0 (team true 2)
    && decide ((windowed.tile 0).poolUsed + 1 ≤ 64)) = true := by decide +kernel

/-- A task that may begin a boosted life, and one that lives. -/
def mayBoost (ws : List Nat) : Task := { regs ws with tstat := BitVec.ofNat 64 (2 ^ 44) }
def boosted (ws : List Nat) (g : Tile → Tile := id) : State := run {} fun u =>
  g { u with images := [(0, { task := regs ws, st := .running, boost := { active := true, undo := 0x8000, cap := 4 } })] }

def lock : Lock := ⟨0x8000, 0, 0, 0, 0, ⟨0, 0, 0⟩, 0, true, []⟩

theorem witness_BoostedInstructionsComplete :
    ((let free (x : In) (s : State) : Bool := (s.tile x.t).boosted == none && (s.tile x.t).undo == none && isOk (bbeginChecks s x 0)
      let live (x : In) (s : State) : Bool := x.w == .img 0 && isOk (liveImage s x)
      probe (.bbegin (fl (a := 1) (b := 2) (c := 3))) (placed (run (mayBoost [5, 0x8000]))) (fun x s => x.w == .img 0 && free x s)
      && probe (.babort (fl)) (boosted []) live
      && ((boosted []).tile 0).abort.isNone && ((boosted []).tile 0).undo.isNone
      && ((boosted [] fun u => { u with abort := some (1, 5) }).tile 0).abort == some (1, 5)
      && probe (.bcommit (fl)) (boosted []) (fun x s => live x s && !(s.tile x.t).owes x.w true false
        && !((s.tile x.t).out.any fun o => o.who = x.w && o.acquire) && lockHomes s x.t == [])
      && probe (.bcommit (fl)) (boosted [] fun u => { u with locks := [lock] })
        (fun x s => live x s && lockHomes s x.t != [])
      && probe (.bdecl (fl (a := 1) (b := 2) (c := 3) (imm := 8192))) (boosted [0x8000, 9]) (fun x s => live x s
        && decide (((s.tile x.t).ctx 0).boost.depth < ((s.tile x.t).ctx 0).boost.cap)
        && !((s.tile x.t).pairing.any fun p => decide (256 < p.log.length + 4))
        && (match checkAddr s x.t .atomic x.a true with
          | .ok (.sram h off) => off % 8 == 0 && (h != x.t || ((s.tile x.t).task x.w).sup || !(s.tile x.t).inCtx off 8)
          | _ => false)))
    && probe (.btload (fl (a := 1) (b := 2) (imm := 63))) (run (supervisor)) (fun x s => (s.huskOfTile x.t).isSome)
    && probe (.bstat (fl (dest := 3))) (run) (fun x _ => x.w == .img 0)
    && [none, some 0].all (fun b => probe (.bstat (fl (dest := 3)))
      (run {} fun u => { u with
        l1 := some { task := {} }
        images := [(0, { st := .ready, boost := { active := b.isSome } })], cur0 := none })
      (fun x s => x.w == .lvl1 && (s.tile x.t).boosted == b))) = true := by decide +kernel

/-! ### Witnesses: traps, control registers, pairs -/

theorem witness_SoftwareTrapsEnterTheirHandler :
    (let ready (x : In) (s : State) : Bool := (s.tile x.t).settled x.w && !(s.tile x.t).pairOpen
    probe (.trap (fl (a := 1) (imm := 0x80))) (run (regs [5])) ready
    && probe (.trapS (fl (minor := 1) (a := 1) (imm := 0xFF))) (run (regs [5])) ready
    && probe (.brkpt (fl (imm := 7))) (run) ready
    && [(0, 0xFF), (8, 7)].all (fun e => probe (.tfence (fl (imm := e.2))) (run { sticky := BitVec.ofNat 64 e.1 }) fun x s => ready x s
      && ((s.tile x.t).task x.w).sticky &&& BitVec.ofNat 64 (x.f.imm.toNat % 256) == 0)
    && probe (.tfence (fl (imm := 8))) (run { sticky := 8 }) (fun x s => ready x s
      && ((s.tile x.t).task x.w).sticky &&& BitVec.ofNat 64 (x.f.imm.toNat % 256) != 0)) = true := by decide +kernel

/-- Tile 0 runs a handler of its task in image 0. -/
def handling (h : Handler) : State := run {} fun u => { u with hnd := some h }
def handler (sup : Bool := false) (ws : List Nat := []) (ecause estat epc : Nat := 0) : Handler :=
  { task := { regs ws with tstat := BitVec.ofNat 64 (2 ^ 46 + 2 ^ 45 + if sup then 2 ^ 47 else 0) }, epc := BitVec.ofNat 64 epc
    estat := BitVec.ofNat 64 estat, ecause := BitVec.ofNat 64 ecause, eaddr := 0, of_ := .img 0 }

theorem witness_ReturnFromTrapResumes :
    (let hnd (x : In) (s : State) (c : Handler → Bool) : Bool := x.w == .hnd && !(s.tile x.t).pairOpen && (s.tile x.t).hnd.any c
    probe (.tret (fl)) (handling (handler)) (fun x s => hnd x s fun h => !bit h.ecause 8 && !tstatReserved h.estat && pcOk h.epc)
    && probe (.tret (fl)) (handling (handler (ecause := 256))) (fun x s => hnd x s fun h => bit h.ecause 8 && pcOk h.hepc)
    && probe (.tret (fl)) (run) (fun x s => x.w != .hnd && (s.tile x.t).settled x.w && !(s.tile x.t).pairOpen)
    && probe (.tret (fl)) (handling (handler (estat := 16))) (fun x s => (s.tile x.t).settled x.w && hnd x s fun h =>
      !bit h.ecause 8 && tstatReserved h.estat)
    && probe (.tret (fl)) (handling (handler (epc := 2 ^ 13))) (fun x s => (s.tile x.t).settled x.w && hnd x s fun h =>
      !bit h.ecause 8 && !tstatReserved h.estat && !pcOk h.epc)
    && (let u := (handling handler).tile 0
      u.hnd == some handler && u.pend.isEmpty && u.reduction.isNone && u.pairing.isNone)) = true := by decide +kernel

theorem witness_ControlRegistersAreReadAndWritten :
    ([0x000, 0x008].all (fun n => probe (.gets (fl (dest := 3) (imm := n))) (run) fun x s => isOk (getControl s x n))
    && [0x001, 0x007, 0x009].all (fun n => probe (.gets (fl (dest := 3) (imm := n))) (run (supervisor)) fun x s => isOk (getControl s x n))
    && [0x002, 0x003, 0x004, 0x005, 0x006, 0x100, 0x13F, 0x140, 0x141, 0x142, 0x143].all (fun n =>
      probe (.gets (fl (dest := 3) (imm := n))) (handling handler) fun x s => isOk (getControl s x n) && x.w == .hnd)
    && !((run).tile 0 |>.task (.img 0)).sup && ((run (supervisor)).tile 0 |>.task (.img 0)).sup
    && probe (.setsTvec (fl (a := 1))) (run (regs [2 ^ 63 + 8 * 1023 + 4])) (fun x _ => vectorOk x.a)
    && (let s := run {} fun u => { u with pairing := some { mate := 1, img := 0, k := 256, at_ := .img 0, check := {} } }
      ((s.modTile 0 fun u => { u with tvec := 1 }).tile 0).pairing.any fun p => p.img == 0)
    && (let sup (x : In) (s : State) : Bool := ((s.tile x.t).task x.w).sup
      probe (.setsSvec (fl (a := 1) (imm := 1))) (run (supervisor (regs [0]))) (fun x s => sup x s && vectorOk x.a)
      && probe (.setsSlice (fl (a := 1) (imm := 7))) (run (supervisor (regs [2 ^ 21 - 1]))) (fun x s => sup x s && field x.a 63 21 == 0)
      && probe (.setsCtxbase (fl (a := 1) (imm := 9))) (run {} fun u => { u with
          images := [], cur0 := none, l1 := some { task := supervisor (regs [2 ^ 21 - 24576]) } })
        (fun x s => sup x s && field x.a 63 21 == 0 && field x.a 9 0 == 0 && decide (x.a.toNat + 24576 ≤ 2 ^ 21)
          && !(s.tile x.t).touches (fun _ => true) x.a.toNat 24576 && (List.range 8).all fun i => ((s.tile x.t).ctx i).st == .free))
    && [false, true].all (fun m => probe (.setsEstat (fl (a := 1) (imm := 3))) (handling (handler m [2 ^ 48 - 1])) fun x s =>
      x.w == .hnd && (s.tile x.t).hnd == some (handler m [2 ^ 48 - 1]))
    && [0x002, 0x006, 0x100, 0x13F, 0x140, 0x141, 0x142, 0x143].all (fun n =>
      probe (.sets (fl (a := 1) (imm := n))) (handling (handler false [7])) fun x s =>
        x.w == .hnd && (s.tile x.t).hnd == some (handler false [7]) && !(s.tile x.t).flagsOpen (.img 0))) = true := by decide +kernel

/-- A pair of tiles 0 and 1 whose leader runs image 0. -/
def pairing (n : Nat := 0) (closing rerun : Bool := false) : Pairing :=
  { mate := 1, img := 0, k := 256, count := n, at_ := .img 0, check := {}, rerun := rerun, closing := closing }
def paired (p : Pairing) : State := run {} fun u => { u with pairing := some p }

/-- A paired task's stores to another tile, another package, far memory and a group go into its buffer. -/
theorem witness_AccessesComplete_paired :
    (let s (a : Nat) : State := grouped (run (regs [a]) fun u => { u with pairing := some pairing })
    let st : Instr := .st (fl (ty := .i64) (a := 1))
    let waits (c : Target → Bool) : In → State → Bool := asks st fun x s r a g => c g && !niFull s x.t a && pairWaits r.op r.dst
      && (s.tile x.t).pairing.isSome && isOk (pairHold s x.t x.w [s.nextId] r.op a)
    probe st (s (2 ^ 21 + 0x8000)) (fun x s => otherTile st x s && waits (fun _ => true) x s)
    && probe st (s (2 ^ 56 + 2 ^ 33 + 0x8000)) (fun x s => otherPackage st x s && waits (fun _ => true) x s)
    && probe st (s (0x20 * 2 ^ 56 + 7 * 65536)) (waits fun g => match g with
      | .mcast 7 _ => true
      | _ => false)
    && probe (.stfar (fl (ty := .i64) (a := 1))) (s (0x10 * 2 ^ 56)) (asks (.stfar (fl (ty := .i64) (a := 1))) fun x s r a _ =>
      (s.tile x.t).pairing.isSome && isOk (pairHold s x.t x.w [s.nextId] r.op a))
    && [[], [(0, 1)]].all (fun c => probe (.stOf (fl (minor := 1) (ty := .i64) (a := 1))) ((s 0x8000).modTile 0 fun u => { u with sent := c })
      (fun x s => !niFull s x.t x.addr && (s.tile x.t).pairing.isSome && (match checkAddr s x.t .storeOf x.addr x.aligned with
        | .ok (.sram h off) => h == x.t && !matrixMeets s x.t x.w h off x.size true && isOk (ownOrder s x.t x.w h off (.store x.size x.data))
          && (flagFault s h off x.size x.data (!((s.tile x.t).task x.w).sup) ((s.tile x.t).activeBoost x.w)).isNone
          && (match pairOwn s x.t off (.store x.size x.data) x.addr with
            | .ok s2 =>
              let p : Packet := { mkPacket x.t h x.seq (lineChan off) (.flag off x.size x.data [] true false) with counted := true }
              countsReached s2 p (countsTo (s.tile x.t) h) == c.isEmpty && (applyFlag s2 p).husks == s2.husks
            | .error _ => false)
        | _ => false)))) = true := by decide +kernel

theorem witness_PairsAndDigestsCompleteAndIntervalsClose :
    (let may (x : In) (s : State) : Bool := x.w == .img 0 && (s.huskOfTile x.t).any (fun e => (tileX x.t - e.2.col0) % 2 == 0
        && decide (tileX x.t - e.2.col0 + 1 < e.2.width)) && !((s.tile x.t).task x.w).fwd && !((s.tile x.t).ctx 0).boost.active
    let busy (v : Tile) : Bool := v.pairing.isSome || v.follows.isSome || !v.ready.isEmpty || (List.range 8).any fun j => (v.ctx j).st != .free
    let pair : Instr := .pair (fl (dest := 3) (imm := 256))
    probe pair (paired pairing) (fun x s => may x s && (s.tile x.t).pairing.isSome)
    && probe pair ((run).modTile 1 fun v => { v with follows := some 9 }) (fun x s => may x s && (s.tile x.t).pairing.isNone
      && busy (s.tile (x.t + 1)))
    && probe pair (run) (fun x s => may x s && (s.tile x.t).pairing.isNone && !busy (s.tile (x.t + 1)))
    && probe (.unpair (fl)) (paired pairing) (fun x s => (s.tile x.t).pairing.any fun p => x.w = .img p.img)
    && probe (.unpair (fl)) (run) (fun x s => !(s.tile x.t).pairing.any fun p => x.w = .img p.img)
    && probe (.digest (fl (dest := 3))) { run with marked := [(lineKey 0 0x8000, true)] } (fun x s => !(s.tile x.t).owes x.w true true
      && (s.huskOfTile x.t).any fun e => markedLines s e.2 == [(0, 0x8000)] && (markedLines s e.2).all fun e => !s.consumesBad e.1 e.2 64)
    && probe (.digestClr (fl (minor := 1))) (run) (fun x s => !(s.tile x.t).owes x.w true true && (s.huskOfTile x.t).isSome)
    && [((0 : Word), false), (1, false), (1, true)].all (fun e =>
      let p : Pairing := { pairing 1 true e.2 with fp := e.1 }
      let s1 := State.modTile { paired p with schedule := [0] } 0 Tile.flush
      ((paired p).tile 0).canClose && (s1.tile 0).pairing == some p && s1.choose.1 == 0
        && ((mateFingerprint s1 p).2 == p.fp) == (e.1 == 0))
    && ((paired pairing).tile 0).pairing == some pairing && (pairing).mate != 0) = true := by decide +kernel

/-! ### Witnesses: eviction, configuration, matrix -/

/-- Tile 0 runs a supervisor task that names tenant 2, with husk 2 as given. -/
def asking (b : Nat) (h : Option Husk) (n : Nat := 2) : State := { run (supervisor (regs [n, b])) with husks := [(1, some husk), (2, h)] }

/-- The record of a husk lies at `recordVa` of tenant 1: each of its first 16 pages has its table at its own memory core, whose
entry 256 names the table itself and whose entry of the page is a leaf that may be read and written. A husk without tiles has a
record of 16 pages. -/
def recordVa : Nat := 2 ^ 47 + 2 ^ 38 + 2 ^ 29
def leaf (i : Nat) : Nat := hbmBase + i * 2 ^ 31
def withRecord (s : State) : State := { s with
  mcs := (List.range 16).map fun i => (numTiles + 8 * i, some { tenant := 1, root := 0 })
  mem := ((List.range 16).map fun i => [(leaf i + 8 * i + 7, 0x8C), (leaf i + 8 * 256 + 7, 0x80)]).flatten }
def bare (st : HuskState) (col : Nat := 8) (d : Option (BitVec 256) := none) : Husk :=
  { col0 := col, row0 := 0, width := 0, height := 1, st := st, digest := d }
def recordAt : Nat := 0x10 * 2 ^ 56 + recordVa

/-- The digest of the record that lies there. -/
def recordDigest : BitVec 256 := sm3 (recordBytes (withRecord State.reset) ((List.range 16).map leaf))

theorem recordBytes_of_mem {s s' : State} (h : s.mem = s'.mem) (ks : List Nat) : recordBytes s ks = recordBytes s' ks := by
  have g : ∀ n k, getBytes s k n = getBytes s' k n := by
    intro n
    induction n with
    | zero => intro k; rfl
    | succ n ih => intro k; simp only [getBytes, getByte, h, ih]
  simp only [recordBytes, g]

/-- The record is asked for with this permission, and its pages are those. -/
def hasRecord (st : HuskState) (write : Bool) (x : In) (s : State) (c : Husk → State → Bool := fun _ _ => true) : Bool :=
  field x.a 63 8 == 0 && s.tenantOf x.t == some 1 && x.a.toNat == 2 && (s.husk 2).any fun h => h.st == st
    && (match recordKeys s 1 x.b h.recordLen write with
      | (s2, some ks) => ks == (List.range 16).map leaf && !(ks.any fun k => s2.farBad k 4096) && s2.mem == (withRecord State.reset).mem && c h s2
      | _ => false)

def fails (h : Husk) (s : State) : Bool := leavesMesh h.col0 h.row0 h.width h.height || overlaps s 2 h || hasFenced s h

theorem witness_EvictionsBeginAndRunToTheirEnd :
    (let ask (x : In) (s : State) (c : Option Husk → Bool) : Bool := field x.a 63 8 == 0 && s.tenantOf x.t == some 1 && c (s.husk x.a.toNat)
    let noPages (st : HuskState) (write : Bool) (x : In) (s : State) : Bool := ask x s fun h => h.any fun h => h.st == st
      && 1 != x.a.toNat && (recordKeys s 1 x.b h.recordLen write).2 == none
    let ev : Instr := .evict (fl (dest := 3) (a := 1) (b := 2))
    let re : Instr := .evictRestore (fl (minor := 1) (dest := 3) (a := 1) (b := 2))
    [ev, re].all (fun i => probe i (asking 0 none) fun x s => ask x s (· == none))
    && [ev, re].all (fun i => probe i (asking 0 none 1) fun x s => ask x s (·.isSome) && 1 == x.a.toNat)
    && probe ev (asking 0 (some (bare .killed))) (fun x s => ask x s fun h => h.any fun h => h.st != .running)
    && probe re (asking 0 (some (bare .running))) (fun x s => ask x s fun h => h.any fun h => h.st != .evicted)
    && [0x10 * 2 ^ 56 + 0x8000, recordAt].all (fun b => probe ev (asking b (some (bare .running))) (noPages .running true)
      && probe re (asking b (some (bare .evicted))) (noPages .evicted false))
    && probe ev (withRecord (asking recordAt (some (bare .running)))) (fun x s => hasRecord .running true x s)
    && probe re (withRecord (asking recordAt (some (bare .evicted 49)))) (fun x s => hasRecord .evicted false x s fails)
    && (let evicting (st : HuskState) : State := { State.reset with
          husks := [(2, some { husk with st := st, job := some { agent := 9, tag := 0, keys := [] } })], sel := 2
          saved := [{ tenant := 2, tiles := [], cohorts := [], net := [], flags := [], groups := [], peers := [], wins := [] }] }
      decide husk.tiles.Nodup && [HuskState.stopping, .draining, .saving, .restoring].all (fun st => ((evicting st).husk (evicting st).sel).any fun h =>
        h.st == st && h.job.isSome && h.tiles.all (fun t => ((evicting st).tile t).atStop) && huskDrained (evicting st) 2 h)
      && ((evicting .restoring).saved.find? (fun x => x.tenant = (evicting .restoring).sel)).isSome)
    && State.reset.memOk && decide (moved [(0, 2303)] 0 < numTiles)) = true := by decide +kernel

/-- A restore of a record that has not the husk's digest, and of one that has. -/
def restoring (good : Bool) : State := withRecord (asking recordAt (some (bare .evicted 8 (if good then some recordDigest else none))))

theorem restoring_digest (good : Bool) {w : Who} {m : Form} {f : Fields} {s1 : State} {x : In}
    (h : Issues (restoring good) w (.evictRestore (fl (minor := 1) (dest := 3) (a := 1) (b := 2))) m f s1 x) :
    s1.husk 2 = some (bare .evicted 8 (if good then some recordDigest else none)) := by
  obtain rfl : m = formEvict 1 := by simpa [Instr.form?] using h.form.symm
  obtain rfl : f = fl (minor := 1) (dest := 3) (a := 1) (b := 2) := by simpa [Instr.word?] using h.fields.symm
  obtain rfl : w = .img 0 := by cases good <;> exact (Option.some.inj h.active).symm
  have := congrArg (fun r => match r with | .ok (s, _) => s.husk 2 | .error _ => none) h.reads
  refine this.symm.trans ?_
  cases good <;> rfl

theorem witness_EvictionsBeginAndRunToTheirEnd_digest :
    ∀ good : Bool, ∃ w m f s1 x h s2 ks,
      Issues (restoring good) w (.evictRestore (fl (minor := 1) (dest := 3) (a := 1) (b := 2))) m f s1 x
      ∧ s1.tenantOf x.t = some 1 ∧ field x.a 63 8 = 0 ∧ x.a.toNat = 2
      ∧ s1.husk 2 = some h ∧ h.st = .evicted ∧ recordKeys s1 1 x.b h.recordLen false = (s2, some ks) ∧ fails h s2 = false
      ∧ (ks.any fun k => s2.farBad k 4096) = false
      ∧ (h.digest = some (sm3 (recordBytes s2 ks)) ↔ good = true) := by
  intro good
  have h0 : probe (.evictRestore (fl (minor := 1) (dest := 3) (a := 1) (b := 2))) (restoring good)
      (fun x s => hasRecord .evicted false x s (fun h s2 => !fails h s2)) = true := by
    cases good <;> decide +kernel
  obtain ⟨w, m, f, s1, x, hi, hc⟩ := probe_issues h0
  have hd := restoring_digest good hi
  simp only [hasRecord, hd, Option.any_some, Bool.and_eq_true, beq_iff_eq] at hc
  obtain ⟨⟨⟨h1, h2⟩, h3⟩, h4, h5⟩ := hc
  split at h5
  · next s2 ks hk =>
    simp only [Bool.and_eq_true, beq_iff_eq, Bool.not_eq_true'] at h5
    obtain ⟨⟨⟨h6, hg⟩, h7⟩, h8⟩ := h5
    refine ⟨w, m, f, s1, x, _, s2, ks, hi, h2, h1, h3, hd, h4, hk, h8, hg, ?_⟩
    subst h6
    rw [recordBytes_of_mem h7]
    cases good
    · simp [bare]
    · simp [bare, recordDigest]
  · cases h5

theorem witness_HuskConfigurationGivesItsResult :
    (let starts (x : In) (s : State) (c : Option Husk → Bool) : Bool := field x.a 63 8 == 0 && !(s.tile x.t).owes x.w true true
      && c (s.husk x.a.toNat)
    let bad (x : In) (s : State) : Nat := let h := shapeHusk x.b
      if leavesMesh h.col0 h.row0 h.width h.height || overlaps s x.a.toNat h then 3 else if hasFenced s h then 4 else 0
    let plain (x : In) : Bool := field x.b 63 24 == 0
    let defs : Instr := .huskcfgDef (fl (dest := 3) (a := 1) (b := 2))
    let kill : Instr := .huskcfgKill (fl (minor := 1) (dest := 3) (a := 1))
    let flush : Instr := .huskcfgFlush (fl (minor := 2) (dest := 3) (a := 1))
    let undef : Instr := .huskcfgUndef (fl (minor := 4) (dest := 3) (a := 1))
    let tab : Instr := .huskcfgTab (fl (minor := 3) (dest := 3) (a := 1) (b := 2))
    let fence (s : State) : State := { s with fenced := [(8, true)] }
    let at8 : Nat := 8 + 1 * 4096
    let g (st : HuskState) : Husk := { bare st with width := 2 }
    let isIn (st : HuskState) (h : Option Husk) : Bool := h.any fun h => h.st == st
    [0, 47 + 1 * 4096].all (fun b => probe defs (asking b none) fun x s => starts x s (·.isNone) && plain x && bad x s == 3)
    && probe defs (fence (asking at8 none)) (fun x s => starts x s (·.isNone) && plain x && bad x s == 4)
    && probe defs (asking at8 none) (fun x s => starts x s (·.isNone) && plain x && bad x s == 0)
    && [kill, flush, undef].all (fun i => probe i (asking 0 none) fun x s => starts x s (·.isNone))
    && [HuskState.running, .stopping, .draining, .saving, .restoring].all (fun st => probe defs (asking at8 (some (g st))) fun x s =>
      starts x s (isIn st))
    && [HuskState.killed, .evicted].all (fun st =>
      probe defs (asking 0 (some { g st with width := 1 })) (fun x s => starts x s (isIn st) && plain x && bad x s == 3)
      && probe defs (asking at8 (some (g st))) (fun x s => starts x s (isIn st) && plain x && bad x s == 0
        && (s.husk x.a.toNat).any fun h => (shapeHusk x.b).width == h.width && (shapeHusk x.b).height == h.height))
    && probe kill (asking 0 none 1) (fun x s => starts x s (·.isSome) && s.tenantOf x.t == some x.a.toNat)
    && probe kill (asking 0 (some (g .running))) (fun x s => starts x s (·.isSome) && s.tenantOf x.t != some x.a.toNat)
    && probe flush (asking 0 (some (g .running))) (fun x s => starts x s (·.isSome))
    && probe undef (asking 0 none 1) (fun x s => starts x s (·.isSome) && s.tenantOf x.t == some x.a.toNat)
    && probe undef (asking 0 (some (g .evicted))) (fun x s => starts x s fun h => h.any fun h => h.st != .killed)
    && probe undef (asking 0 (some (g .killed))) (fun x s => starts x s (isIn .killed) && s.tenantOf x.t != some x.a.toNat)
    && [true, false].all (fun ok => probe tab (if ok then asking 0x8000 (some (g .running))
          else setBytes (asking 0x8000 (some (g .running))) (sliceKey 0 0x8000) [4]) fun x s =>
        starts x s (·.isSome) && (ownOff s x.t x.b 0).isSome && field x.b 20 0 % 64 == 0 && !s.consumesBad x.t (field x.b 20 0) 64
        && (let r := readWords (s.correct x.t (field x.b 20 0) 8) x.t (field x.b 20 0) 8
          let w (i : Nat) : Word := r.2.getD i 0
          (tabWrite (tabCorrected r.1 x.t w) x.t x.a.toNat (g .running) w).isSome == ok
            && !(tabReads r.1 x.t w).any fun e => r.1.consumesBad x.t e.1 e.2))) = true := by decide +kernel

/-- The core is member 0 of a gang of two. -/
def ganged (s : Task) : Task := { s with lid := BitVec.ofNat 32 (2 ^ 16) }

theorem witness_MatrixInstructionsEnterTheQueue :
    (let own (restore save : Bool) (i : Instr) (s : State) (more : In → State → Bool := fun _ _ => true) : Bool :=
      probe i s fun x s => more x s && (match takeIn (s.tile x.t) x.w restore save with
        | .ok u => let v := (s.setTile x.t u).tile x.t
          decide (v.matrix.queue.length < 8) && isOk (queueOrder (s.setTile x.t u) x.t
            { i := i, a := x.a, b := x.b, pc := x.pc, who := x.w, lower := x.f.setc.toNat, gang := v.matrix.gangDue x.w, tag := x.seq
              px := (v.task x.w).px })
        | .error _ => false)
    let alone (x : In) (s : State) : Bool := !((s.tile x.t).matrix.queue.any fun q => q.who = x.w)
    own false false (.mcfg (fl (a := 1))) (run (regs [0xF3])) (fun x _ => field x.a 3 2 == 0 && field x.a 63 8 == 0)
    && own false false (.mloadb (fl (ty := .i8) (dest := 1) (a := 1) (b := 2) (imm := 255 * 256))) (run (regs [0x8000, 128]))
      (fun x s => isOk (rowChecks (loadbRows x.f) 128 x s))
    && [Instr.mrbuf (fl (ty := .i4) (dest := 31) (a := 1) (b := 2)), .mrbufBc (fl (minor := 1) (ty := .i8) (dest := 0) (a := 1) (b := 2) (imm := 31))].all
      (fun i => own false false i (run (regs [0x8000, 2 ^ 10])) fun x s => isOk (rowChecks (rbufRows x.f) (rowBytes x.f.ty) x s))
    && [Instr.mloadz (fl (dest := 4)), .mmul (fl (minor := 1) (a := 31)), .mzeroAcc (fl (a := 1)), .mzeroZp (fl (minor := 1)),
      .mdrain (fl (ty := .i64) (dest := 8) (a := 1) (c := ext 1 8)), .mchkcfg (fl (imm := 65535))].all (fun i => own false false i (run))
    && own false false (.mdrainp (fl (dest := 1))) (run (ganged {})) (fun x s => decide (x.f.dest.toNat < ((s.tile x.t).task x.w).gangWidth)
      && decide (x.f.dest.toNat ≠ ((s.tile x.t).task x.w).gangMember ∨ x.f.minor.toNat / 2 % 2 ≠ x.f.a.toNat))
    && own false false (.mdrainp (fl (minor := 2) (dest := 0))) (run) (fun x s => decide (x.f.dest.toNat < ((s.tile x.t).task x.w).gangWidth)
      && decide (x.f.dest.toNat ≠ ((s.tile x.t).task x.w).gangMember ∨ x.f.minor.toNat / 2 % 2 ≠ x.f.a.toNat))
    && own false false (.mgang (fl)) (run) (fun x s => alone x s && !(s.tile x.t).owes x.w true false)
    && [Instr.msave (fl (a := 1) (imm := 15)), .msaveFree (fl (minor := 1) (a := 1) (imm := 1))].all (fun i =>
      own false true i (run (regs [0x8000])) fun x s => isOk (imageChecks true x s))
    && [0, 1].all (fun n => own true false (.mrestore (fl (a := 1) (imm := 15))) (run (regs [0x8000]) fun u =>
      { u with matrix := { u.matrix with lost := BitVec.ofNat 8 n } }) fun x s => isOk (imageChecks false x s))
    && [Instr.mstat (fl (dest := 3)), .mstatClr (fl (minor := 1) (dest := 3))].all (fun i => probe i (run) fun x s =>
      alone x s && decide ((s.tile x.t).matrix.queue.length < 8))
    && (let m : Matrix := {}
      !m.lost.getLsbD 0 && !m.frozen && m.owner == none)) = true := by decide +kernel

/-! ### Witnesses: events at a home, networks, answers -/

/-- A packet of another package's core, number 0 of the gateway's line. -/
def outside (s : State) (b : Body) : State :=
  { s with net := [{ id := 0, src := remoteSrc 1 2, dst := 0, tag := 0, chan := none, body := b, remote := some (1, 2, 3) }] }

/-- Packet `s.sel` has arrived and the condition holds of it. -/
def got (s : State) (c : Packet → Bool) : Bool := (arrived s s.sel).any fun p => p.id == s.sel && c p

/-- The word at 0x8000 of tile 0 cannot be read. -/
def spoilt (s : State) : State := { s with ecc := [(wordKey 0 0x8000, .bad)] }
def crowded : State := emptied (run {} fun u => { u with waiters := List.replicate 64 waiter })

theorem witness_AccessesArePerformedAtTheirHome :
    (let ld : Body := .access 0x8000 (.load 8) true false
    let ldfe : Body := .access 0x8000 (.ldfe 8) true false
    let here (s : State) (op : MemOp) (c : Answer → Bool) : Bool := got s fun p => p.remote.isNone && c (performAt (s.drop s.sel) p.dst 0x8000
      op (.core p.src p.tag 0) true false (some (s.cidOf p.src))).2
    let there (s : State) (op : MemOp) (c : Answer → Bool) : Bool := got s fun p => p.remote == some (1, 2, 3) && outsideState s p == .running
      && c (performAt (s.drop s.sel) p.dst 0x8000 op (.remote 1 2 3) true false none).2
    let other (a : Answer) : Bool := a != .full && a != .fault .eccu && a != .parked
    here (mail run ld) (.load 8) other && here (mail (spoilt run) ld) (.load 8) (· == .fault .eccu)
    && here (mail crowded ldfe) (.ldfe 8) (· == .full) && here (mail (emptied run) ldfe) (.ldfe 8) (· == .parked)
    && there (outside run ld) (.load 8) other && there (outside (spoilt run) ld) (.load 8) (· == .fault .eccu)
    && there (outside crowded ldfe) (.ldfe 8) (· == .full) && there (outside (emptied run) ldfe) (.ldfe 8) (· == .parked)
    && got (outside State.reset ld) (fun p => outsideState State.reset p == .killed)
    && (let s : State := { State.reset with husks := [(1, some { husk with st := .stopping })] }
      got (outside s ld) fun p => outsideState s p == .stopping)) = true := by decide +kernel

/-- Far memory of tenant 1 with one page that may be written (page 0) and one that may only be read (page 1). -/
def farPages (s : State) : State :=
  let t := withRecord s
  { t with mem := t.mem.map fun e => if e.1 = leaf 1 + 8 + 7 then (e.1, 0x84) else e }

theorem witness_DeliveriesAreAppliedAtTheirHome :
    (let far (s : State) (page : Nat) (op : MemOp) : State := mail s (.farStore 1 (BitVec.ofNat 64 (recordAt + 4096 * page)) op) 0
    let leafOf (s : State) (page : Nat) : Option Leaf := (translate (s.drop s.sel) 1 (recordVa + 4096 * page)).2
    got (mail run (.code 0xFFC0 0)) (fun p => decide (p.dst < numTiles))
    && got (mail run (.commut 63 0 0)) (fun _ => true)
    && (let s := far run 0 (.store 8 1)
      got s (fun _ => true) && (leafOf s 0).isNone)
    && [(0, true), (1, false)].all (fun e => [MemOp.store 8 1, .storeBlock [1, 2]].all fun op =>
      let s := far (farPages run) e.1 op
      got s (fun _ => true) && (leafOf s e.1).any fun l => l.wr == e.2
        && !(translate (s.drop s.sel) 1 (recordVa + 4096 * e.1)).1.farPartBad l.key 8)
    && [false, true].all (fun strong =>
      let s := mail run (.multicast 0x8000 (.store 8 1) true false strong)
      got s fun p => p.remote.isNone && s.packet p.id == some p && ((siblings s p).all fun q => (arrived s q.id).isSome)
        && (performAt (s.drop s.sel) p.dst 0x8000 (.store 8 1) (.core p.src p.tag 0) true false none).2 != .fault .eccu)
    && (let s : State := { run with net := (List.range 2).map fun k =>
          { id := k, src := 1, dst := k, tag := 0, chan := none, body := .multicast 0x8000 (.store 8 1) true false true } }
      got s fun p => (siblings s p).length == 2 && (siblings s p).all fun q => (arrived s q.id).isSome)
    && got (mail run (.mirror 0x8000 0 0 false)) (fun p => p.remote.isNone)
    && ((run).sideOf 0 0x8000).isNone
    && ((stamped run).sideOf 0 0x8000).any (fun e => !e.mir)
    && [(0, true), (2 ^ 31, false)].all (fun e =>
      let s : State := { stamped run with side := [(lineKey 0 0x8000, some { age := BitVec.ofNat 32 e.1, writer := 0, mir := true })] }
      !(s.tile 0).touches (·.boost) 0x8000 64 && (s.sideOf 0 0x8000).any fun x => x.mir && ageAtLeast 0 x.age == e.2)
    && ((run {} fun u => { u with attr := [(0, some
        { base := 8, len := 1, span := 0, stamped := true, mirror := false, boost := true, feinit := 0, writer := 0, age0 := 0 })] }).tile 0).touches
        (·.boost) 0x8000 64
    && [none, some 0].all (fun g => got (mail run (.stop 1 0 g)) fun p => p.remote.isNone)
    && ((stamped run).tile 0).waiters.isEmpty && (lineKey 0 0x8000 / 2 ^ 15 == 0)
    && (Sparse.get none (stamped run).side (lineKey 0 0x8000)).isSome) = true := by decide +kernel

/-- A flag of tile 1 for tile 0 that carries these counts. -/
def flagged (counts : List Nat) (off : Nat := 0x8000) : Body := .flag off 8 1 counts true false
def flagPacket (counts : List Nat) (k : Nat := 0) : Packet := { id := k, src := 1, dst := 0, tag := 0, chan := none, body := flagged counts }

theorem witness_OrderedFlagsWaitForTheirCounts :
    (let bad (s : State) (off : Nat) : Option Cause :=
      if true && (s.tile 0).inCtx off 8 then some Cause.priv else rangeFault s 0 off (.store 8 1) false none
    let waiting (st : Bool) (s : State) : State := s.modTile 1 fun u =>
      { u with out := [{ tag := 0, who := .img 0, kind := .store, late := true, status := st }], seq := 1 }
    [false, true].all (fun st => (let s := waiting st (mail run (flagged [] 0))
        got s (fun p => p.remote.isNone && awaitsStatus s p == st) && bad s 0 == some .priv)
      && (let s := waiting st (mail (stamped run) (flagged []))
        got s (fun p => p.remote.isNone && awaitsStatus s p == st) && bad s 0x8000 == some .stawr))
    && flagFault run 0 0 8 1 true false == some .priv && flagFault (stamped run) 0 0x8000 8 1 true false == some .stawr
    && (let s : State := outside run (flagged [1])
      got s (fun p => p.remote.isSome && outsideState s p == .running && countsReached s p [0] && !countsReached s p [1]
        && decide ((s.heldFlags.filter fun f => f.countDst = p.countDst).length < 16)))
    && (let s : State := { outside run (flagged [1]) with heldFlags := (List.range 16).map fun k => { flagPacket [1] (k + 1) with
          remote := some (1, 2, 9) } }
      got s (fun p => decide (16 ≤ (s.heldFlags.filter fun f => f.countDst = p.countDst).length)))
    && (let s : State := outside State.reset (flagged [])
      got s (fun p => outsideState s p == .killed && (Sparse.get none s.epochs (epochKey p.countSrc p.countDst p.epoch)).isNone))
    && (let s : State := { outside run (flagged []) with husks := [(1, some { husk with st := .stopping })] }
      got s (fun p => outsideState s p == .stopping))
    && (let f : Packet := { flagPacket [1] with tag := 0 }
      let p : Packet := { id := 1, src := 1, dst := 0, tag := 1, chan := none, body := .access 0x8000 (.load 8) true false }
      let s : State := ({ run with net := [p], heldFlags := [f] } : State).modTile 1 fun u => { u with out := [
        { tag := 0, who := .img 0, kind := .store, late := true }, { tag := 1, who := .img 0, kind := .load }], seq := 2 }
      s.packet 1 == some p && p.remote.isNone && f.dst == p.dst && decide (f.id < p.id) && f.countSrc == p.countSrc && oneTask s p.src f p
        && p.body.bytes == some (0x8000, 8) && f.touches 0x8000 8)
    && (flagPacket []).remote.isNone
    && (let s := mail run (flagged [0])
      got s (fun p => countsReached s p [0]) && bad s 0x8000 == none)
    && (let s := mail run (flagged [1])
      got s (fun p => !countsReached s p [1]) && decide ((s.heldFlags.filter fun f => f.countDst = 0).length < 16))
    && (let s : State := { mail run (flagged [1]) with heldFlags := (List.range 16).map fun k => flagPacket [1] (k + 1) }
      got s (fun p => !countsReached s p [1]) && decide (16 ≤ (s.heldFlags.filter fun f => f.countDst = 0).length))
    && (let s : State := { run with heldFlags := [flagPacket [0]] }
      s.heldFlags.find? (fun f => f.id = s.sel) == some (flagPacket [0]) && countsReached s (flagPacket [0]) [0])
    && (let key := epochKey (flagPacket []).src (flagPacket []).dst (flagPacket []).epoch
      (Sparse.get none { run with epochs := [(key, some (Cause.window, 0))] }.epochs key).isSome
      && (Sparse.get none (run).epochs key).isNone && !((run).tile 0).inCtx 0x8000 8
      && !consumesHere run 0 0x8000 (.store 8 1))) = true := by decide +kernel

/-- Two atomics without return of tiles 1 and 2 on one word of tile 0. -/
def twoAtomics (op : AmoOp := .add) : State :=
  let p (k : Nat) : Packet :=
    { id := k, src := k + 1, dst := 0, tag := 0, chan := none, body := .access 0x8000 (.amo op 64 5 0) true false, mergeable := true }
  { run with net := [p 0, p 1] }

theorem witness_RoutersAndGatewayHandleTheirPackets :
    (let s := twoAtomics
    (arrived s 0).any (fun p => (arrived s 1).any fun q => p.id != q.id && p.dst == q.dst && p.mergeable && q.mergeable && p.mty == q.mty
      && p.body == .access 0x8000 (.amo .add 64 5 0) true false && q.body == .access 0x8000 (.amo .add 64 5 0) true false
      && p.remote.isNone && q.remote.isNone && p.noReturn s == q.noReturn s && decide ((p.parts 5 ++ q.parts 5).length ≤ 8))
    && (let s : State := { run with net := [{ id := 0, src := 1, dst := 0, tag := 0, chan := none, body := .reply (.data [7] 0)
                                              merged := [{ src := 2, tag := 0, epoch := 0, v := 1 }] }] }
      (arrived s s.sel).any fun p => p.merged != [] && p.body == .reply (.data [7] 0))
    && [Body.farreq { va := 0, param := 0, entry := 0, wk := 0, agent := 0 }, .grant 0 1].all (fun b =>
      let s : State := { run with net := [{ id := 0, src := 1, dst := 0, tag := 0, chan := none, body := b, refused := true }] }
      (s.packet s.sel).any fun p => p.refused && p.body == b)
    && [0, 35].all (fun port => !(run).linksDown.contains port)
    && (let g (x : Nat) : GatewayReq := { chip := 1, tenant := 9, core := 2, tag := 3, path := 0, epoch := 0, user := true, boost := false
                                          kind := .access x 0 0x8000 (.load 8) }
      let peer (loads : Bool) : Peer := { chip := 1, tenant := 9, husk := 1, loads := loads, stores := false, atomics := false }
      let open_ (loads : Bool) (st : HuskState := .running) : State :=
        { grouped run with husks := [(1, some { husk with st := st })], peers := [(0, some (peer loads))] }
      [0, 1, 2].all (fun x => gatewayFits (g x)) && !gatewayFits { g 0 with kind := .access 0 0 (2 ^ 21 - 7) (.load 8) }
      && !gatewayFits { g 0 with kind := .multicast 7 (2 ^ 16) (.store 8 1) false } && gatewayFits { g 0 with kind := .stop 7 }
      && underway (outside run (.access 0x8000 (.load 8) true false)) (g 0)
      && [0, 1, 2].all (fun x => !underway (open_ true) (g x))
      && logged (open_ true) (g 0) 0 0 == none && [1, 256].all (fun e =>
        logged { open_ true with tagLog := [(remoteSrc 1 2, homeKey e 0 0, 3, .done)] } (g 0) 0 0 == some .done)
      && logged { open_ true with tagLog := [(remoteSrc 1 2, homeKey 1 1 0, 3, .done)] } (g 0) 0 0 == none
      && peerFor run 1 9 == none && gateTile run (g 0) 0 0 (.load 8) == none
      && [(0, true), (1, true), (2, false)].all (fun e => (gateTile (open_ true) (g e.1) e.1 0 (.load 8)).isSome == e.2)
      && gateTile (open_ false) (g 0) 0 0 (.load 8) == none
      && gateTile (open_ true .killed) (g 0) 0 0 (.load 8) == none && gateTile (open_ true .stopping) (g 0) 0 0 (.load 8) == some none
      && gateTile (open_ true) (g 1) 1 0 (.load 8) == some (some 1)
      && groupMembers run 7 == [] && (groupMembers (open_ true .evicted) 7).any (fun m => m.2.1 != .running && m.2.1 != .killed)
      && [HuskState.running, .killed].all (fun st => groupMembers (open_ true st) 7 != []
        && (groupMembers (open_ true st) 7).all fun m => m.2.1 == st && loggedAt (open_ true st) (g 0) ((open_ true st).homeName m.1) == none)
      && (let s : State := { open_ true with
            husks := [(1, some husk), (2, some { husk with col0 := 2, st := .killed })]
            groups := [(7 * 256 + 1, some [(1, 1, 0)]), (7 * 256 + 2, some [(0, 0, 0)])] }
        (groupMembers s 7).any (fun m => m.2.1 == .running) && (groupMembers s 7).any (fun m => m.2.1 == .killed)))) = true := by
  decide +kernel

/-- An answer to operation 0 of tile 0, which waits for it as given. -/
def answeredBy (a : Answer) (o : Outst) (k : Task := {}) : State := mail (run k fun u => { u with out := [o], seq := 1 }) (.reply a)

theorem witness_AnswersAndFaultReportsCompleteTheirOperation :
    (let o : Outst := { tag := 0, who := .img 0, kind := .load }
    let finds (s : State) (a : Answer) (c : Option Outst → Bool) : Bool := (takeReply s (.pkt 0)).any fun e =>
      e.2.2.2 == a && e.2.1 == 0 && c ((e.1.tile e.2.1).outFor (.pkt 0) e.2.2.1)
    let hasOut (a : Answer) (o : Outst) (c : Outst → Bool := fun _ => true) : Bool := finds (answeredBy a o) a fun p => p.any fun p => p == o && c p
    let d : Answer := .data [7] 0
    [d, .parked, .done, .fault .window, .dropped .window 0].all (fun a => finds (mail run (.reply a)) a (·.isNone))
    && finds (answeredBy d { o with dst := .reg 3 .i64, gen := 1, op := some (.load 8) }) d (·.isNone)
    && hasOut d { o with dst := .reg 3 .i64 } && hasOut .parked o && hasOut d o && hasOut d { o with pushes := [1, 2, 3, 4] }
    && hasOut .done { o with park := true } && hasOut .done { o with pushes := [1, 2, 3, 4] } && hasOut .done o
    && hasOut .done { o with bad := some (.window, 8) } && hasOut .done { o with acks := 2 }
    && hasOut .done { o with group := some 7, kind := .delivery } && hasOut .done { o with group := some 7, op := some (.sta 0 0), kind := .store }
    && [d, .done].all (fun a => (takeReply run (.remote 0 0 a)).isSome)
    && (copyAnswer run 0 0 .done).isNone
    && [(true, false, 1), (false, true, 1), (false, true, 2), (false, false, 1)].all (fun e =>
      [Answer.fault .window, .dropped .window 0].all fun a =>
        let s := answeredBy a { o with status := e.1, px := e.2.1, acks := e.2.2 }
        finds s a fun p => p.any fun p => p.status == e.1 && p.acks == e.2.2 && p.px == e.2.1
          && (s.tile 0).reportReady p)
    && (let s := answeredBy (.dropped .btbl 0) { o with status := true }
      finds s (.dropped .btbl 0) fun p => p.any fun p => (s.tile 0).reportReady p)
    && (let s : State := { program with net := [{ id := 0, src := 1, dst := 2304, tag := 0, chan := none, body := .reply (.fault .farpage) }]
                                        tiles := [(2304, { (program).tile 2304 with out := [o] })] }
      (takeReply s (.pkt 0)).any fun e => ((e.1.tile e.2.1).outFor (.pkt 0) e.2.2.1).any fun p => p == o && (e.1.tile e.2.1).reportReady p)
    && !((run).tile 0).undoing (.img 0) && ((run).tile 0).active == some (.img 0) && !((run).tile 0).pairOpen
    && ((run {} fun u => u.setCtx 0 { u.ctx 0 with st := .waiting .undo }).tile 0).undoing (.img 0)
    && ((run).tile 0).active != some (.img 1) && !((run).tile 0).undoing (.img 1)
    && ((paired (pairing 1)).tile 0).pairOpen && !((paired (pairing 1)).tile 0).undoing (.img 0)) = true := by decide +kernel
/-! ### Witnesses: copies, messages, pods, tasks -/

/-- A copy of two words from 0x8000 of tile 0 to 0x9000 of tile 0, or to the page of tenant 1 in far memory. -/
def template (far : Bool := false) (side : Bool := false) : Template :=
  { src := 0x8000, dst := if far then BitVec.ofNat 64 recordAt else 0x9000, rows := 1, rowlen := 16, sstr := 0, dstr := 0
    scale := if side then 0xA000 else 0, side := side, seq0 := 0, wk := 5, tenant := 1, agent := 0 }
def copying (c : Channel) (s : State := run) : State := { s with channels := [(0, c)] }
def channel (t : Template) : Channel := { active := some t }

/-- A memory-core context of tenant 1 whose loader has entry 0. -/
def withContext (s : State) (n : Nat := 0) (r : Option FarReq := none) : State :=
  { s with mcs := [(numTiles, some { tenant := 1, root := 0, loader := [(0, some 16)], run := r
                                     queue := List.replicate n { va := 0, param := 0, entry := 0, wk := 0, agent := 0 } })] }

theorem witness_CopiesAndFarRequestsRun :
    (let asks (s : State) (b : Body) (dst : Nat) : State := { s with net := [{ id := 0, src := 0, dst := dst, tag := 0, chan := none, body := b }] }
    let t := template
    [channel t, { active := some t, shadow := some t }, {}].all (fun c =>
      (copying c (asks run (.aperture 0 t) (chDst 0))).packet 0 |>.any fun p => p.body == .aperture 0 t && !p.refused)
    && ((copying { active := some t, shadow := some t }).chan 0).shadow.isSome && ((copying (channel t)).chan 0).shadow.isNone
    && (copyMove (copying (channel t)) 0 0 false).isSome
    && (copyMove (copying { active := some (template true), read := [(0, 7)] } (withRecord run)) 0 0 true).isSome
    && [0, 1].all (fun j => ((copying (channel t)).chan 0).active == some t && ((copying (channel t)).chan 0).fault.isNone && decide (j < t.words)
      && regionOf (t.srcOf j) == 0x00 && tileOf run 1 (t.srcOf j) == some 0
      && (performAt (copying (channel t)) 0 (field (t.srcOf j) 20 0) (.load 8) (.channel 0 j) true false none).2 == .data [0] 0
      && regionOf (t.dstOf j) == 0x00 && tileOf run 1 (t.dstOf j) == some 0 && !t.side
      && (performAt (copying { channel t with read := [(j, 7)] }) 0 (field (t.dstOf j) 20 0) (.engine [7]) (.channel 0 j) true false none).2 == .done)
    && (let d := template true
      regionOf (d.dstOf 1) == 0x10 && (translate (withRecord run) 1 (field (d.dstOf 1) 47 0)).2.any (·.wr))
    && t.words == 2 && ((copying { channel t with done := [0, 1] }).chan 0).done.length == 2
    && ((copying { channel t with fault := some (.farpage, 0) }).chan 0).fault.isSome
    && [(0, true), (1, false)].all (fun e =>
      let d := { template false true with seq0 := e.1 }
      let s := copying (channel d)
      let a := d.scale + BitVec.ofNat 64 (4 * (s.chan s.sel).desc)
      let r := performAt s 0 (field a 20 0) (.load 4) (.channel 0 0) true false none
      d.side && decide ((s.chan s.sel).desc < d.rows) && regionOf a == 0x00 && tileOf s 1 a == some 0
      && tileOf s 1 (rowAddr d.dst d.dstr 0) == some 0 && r.2 == .data [0] 0 && (field ((0 : Word).setWidth 32) 31 28 == (d.seq0 + 0) % 16) == e.2
      && decide ((r.1.tile 0).matrix.sq.length < 16))
    && (let r (n : Nat) : FarReq := { va := 0, param := 0, entry := n, wk := 0, agent := 0 }
      let s (n q : Nat) : State := asks (withContext run q) (.farreq (r n)) numTiles
      [s 0 0, s 1 0, s 0 32, asks run (.farreq (r 0)) numTiles].all (fun s => (s.packet s.sel).any fun p =>
        (p.body == .farreq (r 0) || p.body == .farreq (r 1)) && !p.refused && mcOf p.dst == 0 && s.tenantOf 0 == some 1)
      && (asks run (.farreq (r 0)) numTiles).mcFor 0 1 == none && (s 0 0).mcFor 0 1 == some numTiles
      && ((s 0 32).mc numTiles).any (fun m => (Sparse.get none m.loader 0).isSome && (Sparse.get none m.loader 1).isNone && m.queue.length == 32)
      && (({ withContext run 2 with cur := numTiles } : State).mc numTiles).any (fun m => m.run.isNone && m.queue.length == 2)
      && (let s : State := { withContext run 0 (some (r 0)) with
            tiles := [(numTiles, { images := [(0, { st := .ready, task := { late := [{ cause := .illeg, addr := 0 }] } })] })], cur := numTiles }
        (s.mc s.cur).any (fun m => m.run == some (r 0)) && (s.tile s.cur).cur0.isNone && ((s.tile s.cur).ctx 0).st == .ready))) = true := by
  decide +kernel

/-- A message for 0x8000 of tile 0 at the given level. -/
def message (level : Nat) (det : Bool := false) : Msg :=
  { off := 0x8000, words := [7, 8], handler := 16, level := level, it := 0, gid := 0, tstat := 0, cid := 1, al := 0, units := 1, det := det, agent := 1 }
def fullPool : State := run {} fun u => { u with l1q := List.replicate 64 { task := {} } }

theorem witness_MessagesAndGrantsArrive :
    (let msg (s : State) (m : Msg) (c : Packet → Bool) : Bool := got (mail s (.message m)) fun p => c p && p.body == .message m
    let det (s : State) (m : Msg) (p : Packet) : Bool := m.det && (s.cohortOf p.dst).any (·.det)
    let free (s : State) : Bool := ((mail s (.message (message 0))).tile 0).follows.isNone
    msg (run {} fun u => { u with follows := some 1 }) (message 0) (fun _ => true)
    && [0, 1].all (fun n => msg run (message n) (fun p => !det run (message n) p) && free run
      && (deposit (occupy run 0 1) 0 (message n)).any (fun e => e.2 == .done))
    && msg fullPool (message 0) (fun p => !det fullPool (message 0) p) && free fullPool && (deposit (occupy fullPool 0 1) 0 (message 0)).isNone
    && [0, 32].all (fun n => let s := placed (run {} fun u => { u with det := { u.det with parked := List.replicate n (message 0 true) } }) (team true 2)
      msg s (message 0 true) (fun p => det s (message 0 true) p) && free s && (s.tile 0).det.parked.length == n)
    && ((stamped run).tile 0).touches (·.stamped) 0x8000 16
    && (let u := (run {} fun u => { u with attr := [(0, some
          { base := 8, len := 1, span := 0, stamped := false, mirror := false, boost := true, feinit := 0, writer := 0, age0 := 0 })] }).tile 0
      !u.touches (·.stamped) 0x8000 16 && u.touches (·.boost) 0x8000 16)
    && !((run).tile 0).touches (·.stamped) 0x8000 16 && !((run).tile 0).touches (·.boost) 0x8000 16 && ((run).tile 0).waiters.isEmpty
    && decide (((run).tile 0).poolUsed < 64) && (fullPool.tile 0).poolUsed == 64
    && got (mail run (.grant 5 2)) (fun p => p.body == .grant 5 2)
    && [1, 2 ^ 20 + 2 ^ 16].all (fun d => let u := (run {} fun u => { u with withheld := [⟨d, 0, 2, 0⟩], occ := 128 }).tile 0
      u.withheld == [⟨d, 0, 2, 0⟩] && decide (u.occ ≤ 128))
    && (let u := (run {} fun u => { u with cong := 9, cyc := 4096 }).tile 0
      u.cong != 0 && decide (u.halvedAt < u.cyc / 4096))) = true := by decide +kernel

def pod : Pod := { task := { pc := 8 } }
def taken (n : Nat) : Tile → Tile := fun u =>
  { u with images := (List.range n).map fun i => (i, { st := if i = 0 then .running else .ready }) }

theorem witness_PodsAndRecordsArrive :
    (let h := husk
    [1, 8].all (fun n => let s := placed (mail (run {} (taken n)) (.start 0))
      got s (fun p => (s.tile p.dst).follows.isNone && p.body == .start 0) && s.cohorts.find? (fun c => c.id = 0) == some team
      && s.husk team.tenant == some h && ((s.tile 0).freeImage.isNone == (n == 8)))
    && [none, some 5].all (fun wk => got (mail run (.spawn pod wk)) (fun p => p.body == .spawn pod wk)
      && !(((run).tile 0).follows.isSome || decide (64 ≤ ((run).tile 0).poolUsed)))
    && got (mail fullPool (.spawn pod none)) (fun _ => true) && decide (64 ≤ (fullPool.tile 0).poolUsed)
    && (let s := mail (run {} fun u => { u with wake := [(5, { pod := .free pod })] }) (.spawn pod (some 5))
      got s (fun _ => true) && (s.tile 0).follows.isNone && ((s.tile 0).wakeOf 5).pod != .none)
    && (let s := mail (run {} fun u => { u with wake := [(5, { pod := .free pod })] }) (.park pod 5)
      got s (fun p => p.body == .park pod 5) && ((s.tile 0).wakeOf 5).pod != .none)
    && [run, fullPool].all (fun s => got (mail s (.park pod 5)) (fun p => p.body == .park pod 5) && ((s.tile 0).wakeOf 5).pod == .none)
    && got (mail run (.wkdec 5 7 none true)) (fun p => p.body == .wkdec 5 7 none true)
    && [1, 2].all (fun n => let u := (run {} fun u => { u with wake := [(5, { count := n, pod := .free pod })] }).tile 0
      (u.wakeOf 5).count == n && (u.wakeOf 5).pod == .free pod)
    && (let q (n m x : Nat) : HQueue := { en := true, base := 0x8000, slot := List.replicate n [], stored := m, extra := List.replicate x [] }
      let s (q : HQueue) (ix : Option (Nat × Nat)) : State := mail (run {} fun u => { u with hq := [(3, q)] }) (.record 3 0 [1, 2, 3, 4, 5, 6, 7, 8] ix)
      got (s {} none) (fun p => !((run).tile p.dst |>.hqueue 3).en)
      && [(0, 0, 0, true), (32, 0, 0, true), (8, 31, 0, true), (32, 32, 0, false), (8, 32, 1, false)].all (fun e =>
        let s := s (q e.1 e.2.1 e.2.2.1) none
        got s (fun _ => true) && ((s.tile 0).hqueue 3).extra.length == e.2.2.1 && (placeRec (s.drop s.sel) 0 3 [1]).isSome == e.2.2.2)
      && [(32, 31, true), (32, 32, false)].all (fun e => let s := s (q e.1 e.2.1 0) (some (0, 0))
        got s (fun _ => true) && (let q := (s.tile 0).hqueue 3
          decide (q.slot.length + q.stored + q.extra.length + q.parked.length < 32 + q.ringSize) == e.2.2)))
    && (let s := run {} fun u => { u with ports := [(0, some { who := .img 0, kind := .push 1 3 [1, 2, 3, 4, 5, 6, 7, 8] false })] }
      ((s.tile s.cur).port 0).any (fun y => y.kind == .push 1 3 [1, 2, 3, 4, 5, 6, 7, 8] false))
    && [(0, 1), (7, 1), (7, 9)].all (fun e => let s := run {} fun u => { u with
          ports := [(15, some { who := .img 0, kind := .pop 3 e.1 })], hq := [(3, { en := true, slot := List.replicate e.2 [] })] }
      ((s.tile s.cur).port 15).any (fun y => y.kind == .pop 3 e.1 && (s.tile s.cur).active == some y.who) && ((s.tile s.cur).hqueue 3).slot.length == e.2
      && ((s.tile s.cur).hqueue 3).extra.isEmpty)) = true := by decide +kernel

/-- Tile 0 idle, with these pods. -/
def idling (ready : List Ready) (n : Nat := 0) : State :=
  { run with tiles := [(0, { images := (List.range n).map fun i => (i, { st := .ready }), ready := ready })] }

theorem witness_CoresStartEnterAndSwitchTasks :
    (let other : Pod := { task := { gid := 0 } }
    [idling [.bound 1] 2, idling [.free pod, .bound 3] 8].all (fun s => (s.tile s.cur).idle && (s.tile s.cur).pairing.isNone
      && (s.tile s.cur).startable.any fun e => e.2 == .bound 1 || e.2 == .bound 3)
    && (let s := idling [.free pod]
      (s.tile s.cur).idle && (s.tile s.cur).startable == some (0, .free pod) && (s.tile s.cur).freeImage.isSome && pod.grant.isNone)
    && (let c := team false 2
      [false, true].all fun st =>
      let other : Pod := { other with started := st }
      let s : State := { placed (idling []) c with tiles := [(0, {}), (1, { ready := [.bound 0, .free other] })] }
      s.cohortOf s.cur == some c && !c.det && (s.tile s.cur).cur0.isNone && (s.tile s.cur).follows.isNone && (s.tile s.cur).ready.isEmpty
        && (s.tile s.cur).freeImage.isSome && (s.tile s.cur).pairing.isNone && decide ((s.tile s.cur).poolUsed < 64)
        && (((List.range ((s.membersOf c).length - 1)).map fun j =>
          (s.membersOf c).getD ((s.indexIn c s.cur + 1 + j) % (s.membersOf c).length) s.cur).findSome? fun m =>
          if (s.tile m).pairing.isSome || (s.tile m).follows.isSome || (s.tile m).runsGang then none else (givenPod (s.tile m) c.gid).map fun e => (m, e))
          == some (1, 1, other))
    && [none, some (pairing 1)].all (fun p => let u := (run {} fun u => { u with l1q := [{ task := {} }], pairing := p }).tile 0
      u.level1Ready && u.l1q.length == 1 && u.pairing == p && p.all fun p => !p.closing && p.count != 0)
    && [none, some (pairing 1)].all (fun p => let s := contended.modTile 0 fun u => { u with used := 9, lim := 9, pairing := p }
      let u := s.tile s.cur
      u.active == some (.img 0) && sliceDue s s.cur && u.atLine && !u.pairNext && u.settled (.img 0) && u.pairOpen == p.isSome
        && !(u.ctx 0).task.fwd)
    && (let k (j : Nat) : Task := { lid := BitVec.ofNat 32 (2 ^ 19 + 2 ^ 16 + j * 2 ^ 12) }
      let im (j : Nat) : Sparse Ctx := [(0, { task := k j, st := .running }), (1, { st := .ready })]
      let tile (j : Nat) : Tile := { images := im j, cur0 := some 0, used := 9, lim := 9, ready := if j = 1 then [.bound 1] else [] }
      let s : State := { run with tiles := (List.range 2).map fun j => (j, tile j) }
      let u := s.tile s.cur
      u.active == some (.img 0) && sliceDue s s.cur && u.atLine && !u.pairNext && u.settled (.img 0) && !u.pairOpen && (u.ctx 0).task.fwd
        && field (u.ctx 0).task.lid 15 12 == 0 && gangOf s s.cur == [0, 1] && (gangOf s s.cur).all (gangAtLine s 0 s.cur))
    && (let u := (run { late := [{ cause := .window, addr := 0 }] }).tile 0
      u.active == some (.img 0) && !u.pairNext && !u.pxHolds (.img 0) && (u.boundaryLate (.img 0)).isSome)) = true := by decide +kernel

/-! ### Witnesses: launches, locks, matrix, outside -/

/-- A record of `n` groups of shape 0 at 0x8000 of tile 0, with other fields as given. -/
def record (s : State) (n : Nat := 1) (more : List (Nat × Nat) := []) : State :=
  ([(0x10, n), (0x14, 1), (0x18, 1), (0x24, 10)] ++ more : List (Nat × Nat)).foldl (fun s (e : Nat × Nat) => setBytes s (sliceKey 0 (0x8000 + e.1)) (bytesOf e.2 1)) s

/-- A launch of that record in queue 0. -/
def launched (n : Nat := 1) : Launch := { readLaunch (record run n) 0 0x8000 1 with released := [0] }
def queued (s : State) (k : Nat := 1) (st : HuskState := .running) : State :=
  { s with husks := [(1, some { husk with st := st, queues := [(0, List.replicate k (launched 1))] })] }
def slotted (s : State) (d : Bool := false) : State := { s with slots := [(2, some { tenant := 1, queue := 0, draining := d })] }

theorem witness_LaunchesArePlacedAndRetired :
    (let st (s : State) : Nat := recField s 0 0x8000 0x40 8 / 2 ^ 60
    let reason (s : State) : Nat :=
      let l := readLaunch s 0 0x8000 (nextSerial husk.serial)
      if badRecord s husk 0 0x8000 then 1 else if l.deps.any (!depLegal ·) then 2 else if !gangFit husk l then 3 else 0
    let asks (s : State) : State := mail s (.launch 0 0x8000 0)
    [record run, queued (record run) 64].all (fun s => got (asks s) (fun p => p.body == .launch 0 0x8000 0)
      && (s.huskOfTile 0).isSome && !(asks s).consumesBad 0 0x8000 128
      && (acceptLaunch (((asks s).drop 0).correct 0 0x8000 16) 1 0 0x8000 0x8000).isSome == (s.husk 1).any fun h => h.queues.isEmpty)
    && [(0x10, 1), (0x20, 2)].all (fun e => st (record run 1 [(0x47, e.1)]) == e.2)
    && st (record run) == 0 && reason (record run) == 0 && ((run).husk 1).any (fun h => h == husk && decide ((h.queue 0).length < 64))
    && reason (record run 0) == 1 && reason (record run 1 [(0x25, 1)]) == 2 && reason (record run 1 [(0x1C, 2)]) == 3
    && ((queued run 64).husk 1).any (fun h => h.serial == husk.serial && decide (64 ≤ (h.queue 0).length))
    && nextUnmapped (queued run) == some (1, 0) && freeSlots (queued run) == List.range 64
    && (headOf (queued run) 1 0).any (fun l => (l.reads ((List.range l.total).filter fun i => !l.released.contains i)).all fun k =>
      !(queued run).unreadable l.tile k)
    && rotationDue { run with placements := 4096 } && unmapped run == [] && !canMap run
    && (let s0 : State := { run with
          placements := 4096, husks := [(1, some { husk with queues := [(1, [launched])] })]
          slots := (List.range 64).map fun k => (k, some { tenant := 1, queue := 0 }) }
      let s := placed s0 { team with slot := (mappedAfter s0 s0.lastDrained).getD 0 }
      !canMap s && decide (s.rotations < s.placements / 4096) && unmapped s != [] && (mappedAfter s s.lastDrained).any fun k =>
        (Sparse.get none s.slots k).any fun x => s.cohorts.any fun c => c.slot = k && c.tenant = x.tenant && c.queue = x.queue)
    && (let s := slotted (queued run)
      !rotationDue s && !canMap s && slotTurn s == some 2 && (placeable s 2).isSome && (s.husk 1).isSome)
    && [run, queued run].all (fun s => let s := placed (s.modTile 0 fun u => { u with images := [], cur0 := none })
      s.cohorts.find? (fun c => c.id = s.sel) == some team && groupDone s team && (s.husk team.tenant).any fun h => h.st == .running
        && (let s1 := ungroupAll (retireStops s h team) h team
          (headOf s1 team.tenant team.queue).isSome == !h.queues.isEmpty
            && (headOf s1 team.tenant team.queue).all fun l => !s1.consumesBad l.tile (l.off + 0x80 + team.index / 8) 1))) = true := by decide +kernel

/-- A lock of tile 3 on the object at 0x8000. -/
def rival (ticket kind : Nat := 0) : Lock := ⟨0x8000, kind, 0, 3, 0, ⟨0, BitVec.ofNat 32 ticket, 0⟩, 0, true, []⟩
def decl (obj : Nat := 0x8000) : Decl :=
  { obj := obj, kind := 0, key := 0, age := ⟨0, 5, 0⟩, life := 0, user := true, retried := true }

/-- Its task is aborted and its undo stack holds `left` entries that have not begun. -/
def undoing (left : Nat) : State := run {} fun u =>
  { u with
    images := [(0, { st := .waiting .undo, boost := { active := true, undo := 0x8000, cap := 4, depth := left } })], cur0 := none
    undo := some { img := 0, word := 4, left := left } }

theorem witness_DeclarationsAreJudgedAtTheirHome :
    (let s (ls : List Lock) (d : Decl := decl) : State := mail (run {} fun u => { u with locks := ls }) (.declare d)
    let blank (u : Tile) (d : Decl) : Option Lock := (u.rivals d.obj 1).find? fun l => !d.retried && u.meets d.kind d.key l == .unloaded
    let older (u : Tile) (d : Decl) : List Lock := (u.conflicts d.obj d.kind d.key 1).filter fun l => Age.older l.age d.age
    let younger (u : Tile) (d : Decl) : List Lock := (u.conflicts d.obj d.kind d.key 1).filter fun l => !Age.older l.age d.age
    let judged (ls : List Lock) (d : Decl) (c : Tile → Bool) : Bool :=
      got (s ls d) (fun p => p.body == .declare d) && !((s ls d).tile 0).inCtx d.obj 8 && c ((s ls d).tile 0)
    got (s [] (decl 8)) (fun _ => true) && ((s []).tile 0).inCtx 8 8
    && judged [rival] { decl with retried := false } (fun u => (blank u { decl with retried := false }).isSome)
    && judged [rival 4] decl (fun u => (blank u decl).isNone && older u decl != [])
    && judged [] decl (fun u => (blank u decl).isNone && older u decl == [] && decide (u.locks.length < 128) && younger u decl == [])
    && judged [rival 6] decl (fun u => (blank u decl).isNone && older u decl == [] && decide (u.locks.length < 128) && younger u decl != [])
    && judged (List.replicate 128 { rival with obj := 0x9000 }) decl (fun u => (blank u decl).isNone && older u decl == [] && younger u decl == []
      && u.locks.length == 128)
    && judged (rival 6 :: List.replicate 127 { rival with obj := 0x9000 }) decl (fun u => (blank u decl).isNone && older u decl == []
      && younger u decl != [] && u.locks.length == 128)
    && got (mail run (.unlock 3)) (fun p => p.body == .unlock 3)
    && got (mail (boosted []) (.abort 0 1 5)) (fun p => p.body == .abort 0 1 5) && ((boosted []).tile 0).boosted == some 0
    && ((run).tile 0).boosted.isNone && ((undoing 0).tile 0).undo.isSome
    && [none, some (1, 5), some (4, 5)].all (fun e =>
      let u := (boosted [] fun u => { u with abort := e }).tile 0
      u.undo.isNone && u.abort == e)) = true := by decide +kernel

theorem witness_AbortedTasksAreUndone :
    (let u := (boosted [] fun u => { u with abort := some (4, 0), held := true }).tile 0
    u.abort == some (4, 0) && u.boosted == some 0 && u.abortReady && u.pairing.isNone
    && ((undoing 0).tile 0).cur0 != some 0
    && [0, 2].all (fun n => let s := undoing n
      (s.tile s.cur).undo.any (fun y => !y.active && y.left == n && y.img == 0) && undoQuiet s s.cur 0
        && (n == 0 || !(withdrawParked s s.cur 0).consumesBad s.cur (0x8000 + 32 * (n - 1)) 32)
        && lockHomes (withdrawParked s s.cur 0) s.cur == [])
    && (let s := (undoing 0).modTile 0 fun u => { u with locks := [lock] }
      undoQuiet s s.cur 0 && lockHomes (withdrawParked s s.cur 0) s.cur == [0])) = true := by decide +kernel

/-- The queue of a tile, of a gang of two on tiles 0 and 1. -/
def gang (i : Instr) (g : Bool) : State :=
  let q : MQ := { i := i, a := 0, b := 0, pc := 0, who := .img 0, lower := 7, gang := g }
  let m (n : Nat) : Tile := { images := [(0, { task := { lid := BitVec.ofNat 32 (2 ^ 16 + n * 2 ^ 12) }, st := .running })], cur0 := some 0
                              matrix := { queue := [q], sq := [0] } }
  { run with tiles := [(0, m 0), (1, m 1)] }

theorem witness_TheMatrixArrayPerformsItsQueue :
    ([Instr.mmul (fl (minor := 1)), .mloadz (fl), .mcfg (fl (a := 1)), .mdrain (fl (ty := .i64) (c := ext 1 1)), .mstat (fl (dest := 3))].all (fun i =>
      let s := gang i false
      (s.tile s.cur).headReady && !(s.tile s.cur).gangHead)
    && (let s := gang (.mrbufBc (fl (minor := 1))) true
      (s.tile s.cur).gangHead && (gangTiles s s.cur).head? == some s.cur && gangTiles s s.cur == [0, 1]
      && (gangTiles s s.cur).all fun m => (s.tile m).gangReady && sameGang s s.cur m)
    && (let s := gang (.mgang (fl)) true
      (gangTiles s s.cur).all fun m => (s.tile m).gangReady && (s.tile m).matrix.queue.any (·.isGang))
    && (let s := (gang (.mmul (fl (minor := 1))) false).modTile 0 fun u => { u with matrix := { u.matrix with busy := true } }
      (s.tile s.cur).matrix.busy && (s.tile s.cur).matrix.queue.length == 1 && (s.tile s.cur).out.isEmpty)
    && got (mail run (.peerAdd 1 8191 5)) (fun p => p.body == .peerAdd 1 8191 5)
    && (let s := gang (.mgang (fl)) false
      (s.tile s.cur).atBarrier && (gangTiles s s.cur).head? == some s.cur
      && (gangTiles s s.cur).all fun m => (s.tile m).atBarrier && sameGang s s.cur m)
    && (let m : Matrix := { gs := 3 }
      columnsOf (m.tyOfB 0) * m.groupsK ≤ 8192 && columnsOf (m.tyOfB 0) * m.groupsK != 0)) = true := by decide +kernel

/-- Session 4 of tenant 1, a window on tile 0 from 0x8000 (0) and one on far memory (1). -/
def hosted (s : State) : State := { s with
  sessions := [{ id := 4, tenant := some 1 }]
  hostWins := [(winKey 1 0, some { base := 0x8000, len := 8, rd := true, wr := true }),
    (winKey 1 1, some { base := BitVec.ofNat 64 recordAt, len := 1, rd := true, wr := true }),
    (winKey 1 2, some { base := 0x8000, len := 8, rd := false, wr := false })] }

/-- Every leaf of tenant 1 may also be used by host atomics. -/
def shared : State := let s := withRecord (hosted run); { s with mem := s.mem.map fun e => if e.2 = 0x8C then (e.1, 0x9C) else e }

theorem witness_OutsideEventsComplete :
    ((let h : Husk := { col0 := 46, row0 := 47, width := 2, height := 1 }
      !leavesMesh h.col0 h.row0 h.width h.height && !hasFenced { State.reset with fenced := [(0, true)] } h
      && imageFits { acorn := [], signature := [], failing := [0], col0 := 46, row0 := 47, width := 2, height := 1, svec := 0
                     lines := [0], supervisor := [], cxlFrames := 0 })
    && (let s : State := { State.reset with owner := some 9 }
      s.owner == some 9 && s.owner != some 8 && !s.isControl 4 && decide ((s.sessions.filter fun x => x.id != 4 && x.tenant.isSome).length < 512))
    && (openControl State.reset 4).isControl 4 && !(openControl (hosted run) 4).isControl 4
    && (State.reset.session 4).isNone && (certify (giveNonce (openControl State.reset 4) 4) 4 7).sessions.any (fun x => x.nonce.length == 16)
    && (let s := hosted run
      let far := withRecord (hosted run)
      windowAddr s 4 1 3 0 8 == none && windowAddr s 4 1 0 (2 ^ 15 - 7) 8 == none && windowAddr s 5 1 0 0 8 == none
      && (windowAddr s 4 1 2 0 8).any (fun e => !e.1.rd && !e.1.wr)
      && (windowAddr far 4 1 1 4090 6).any (fun e => e.1.rd && e.1.wr && regionOf e.1.base == 0x10
        && [Leaf.rd, Leaf.wr].all fun c => (let r := farParts far 1 e.2 6 c
          r.2.any fun ps => !ps.any (fun e => r.1.farBad e.1 e.2) && !ps.any fun e => r.1.farPartBad e.1 e.2))
      && [(0, 8), (3, 7)].all (fun e => (windowAddr s 4 1 0 e.1 e.2).any fun w => w.1.rd && w.1.wr && regionOf w.1.base == 0x00
        && reachHusk s 1 == .perform husk && (sramParts husk w.2 e.2).any fun ps => !ps.any (fun e => s.consumesBad e.1 e.2.1 e.2.2)
          && !ps.any fun e => (s.tile e.1).touches (fun y => y.stamped || y.boost) e.2.1 e.2.2)
      && (let t := hosted (stamped run)
        (windowAddr t 4 1 0 0 8).any fun w => w.1.wr && reachHusk t 1 == .perform husk && (sramParts husk w.2 8).any fun ps =>
          ps.any fun e => (t.tile e.1).touches (fun y => y.stamped || y.boost) e.2.1 e.2.2)
      && [4, 8].all (fun n => (windowAddr shared 4 1 1 8 n).any fun e => e.1.rd && e.1.wr && regionOf e.1.base == 0x10 && e.2 % n == 0
        && (let r := farParts shared 1 e.2 n (fun l => l.sa && l.rd && l.wr)
          r.2.any fun ps => ps.length == 1 && ps.all fun p => p.2 == n && !r.1.farBad p.1 n)))
    && (let s := record (hosted run)
      (windowAddr s 4 1 0 0 128).any fun e => regionOf e.1.base == 0x00 && e.2 % 64 == 0
        && (s.session 4).any (fun x => x.tenant == some 1) && reachHusk s 1 == .perform husk && windowTile husk e.2 == some (0, 0x8000)
        && !s.consumesBad 0 0x8000 128 && (let c := s.correct 0 0x8000 16
          decide (0x8000 + recLen (recGroups c 0 0x8000) ≤ 2 ^ 21) && !(c.tile 0).inCtx 0x8000 (recLen (recGroups c 0 0x8000))
            && recField c 0 0x8000 0x26 1 == 0)
        && (acceptLaunch (s.correct 0 0x8000 16) 1 0 0x8000 (BitVec.ofNat 64 e.2)).any fun r => field r.2 63 48 != 0
          && recField r.1 0 0x8000 0x40 8 / 2 ^ 60 % 16 != 4)
    && (let s := hosted run
      s.husk 1 == some husk && mayReach s 4 1 && !hasLaunch s 1 husk && !(s.tile (husk.tileAt 0 0)).inCtx 0x8000 8
      && [7, 8].all (fun n => !(s.tile (husk.tileAt 0 0)).touches (fun y => y.stamped || y.boost) 0x8000 n
        && !s.consumesBad (husk.tileAt 0 0) (0x8000 + n / 8 * 8) (n % 8)))) = true := by decide +kernel

theorem witness_FencesPairsDigestsEvictionsAndEventsComplete :
    ((let pairs (x : In) (s : State) : Bool := x.w == .img 0 && !((s.tile x.t).task x.w).fwd && !((s.tile x.t).ctx 0).boost.active
        && (s.huskOfTile x.t).any fun e => (tileX x.t - e.2.col0) % 2 == 0 && decide (tileX x.t - e.2.col0 + 1 < e.2.width)
      let digests (x : In) (s : State) : Bool := !(s.tile x.t).owes x.w true true && (s.huskOfTile x.t).isSome
      probe (.fence (fl (scope := 3))) (run {} (owing true)) (fun x s => !(s.tile x.t).owes x.w (x.f.scope == 4) false)
      && probe (.fenceAck (fl (minor := 1))) (run) (fun x s => !(s.tile x.t).owes x.w true true)
      && probe (.pair (fl (dest := 3) (imm := 256))) (run) pairs && probe (.unpair (fl)) (run)
      && probe (.digestClr (fl (minor := 1))) { run with marked := [(lineKey 0 0x8000, true)] } digests)
    && [MemOp.amo .add 64 5 0, .ldf 8, .ldfe 8, .stf 8 1, .setf, .sete, .sta 0 1, .lda .n 0 0, .ageq].all (fun op =>
      let s := mail (stamped run) (.access 0x8000 op true false) 0
      got s fun p => p.remote.isNone && let a := (performAt (s.drop s.sel) p.dst 0x8000 op (.core p.src p.tag 0) true false (some (s.cidOf p.src))).2
        a != .full && a != .fault .eccu && a != .parked)
    && (let s := mail run (.message (message 0))
      got s fun p => (s.tile p.dst).follows.isNone && !(s.cohortOf p.dst).any (·.det)
        && (deposit (occupy (s.drop s.sel) p.dst 1) p.dst (message 0)).isSome)
    && (let s := mail run (flagged [0])
      got s fun p => p.remote.isNone && flagFault s p.dst 0x8000 8 1 true false == none && countsReached s p [0])
    && [HuskState.stopping, .draining, .saving, .restoring].all (fun st =>
      let s : State := { State.reset with
          husks := [(2, some { husk with st := st, job := some { agent := 9, tag := 0, keys := [] } })], sel := 2
          saved := [{ tenant := 2, tiles := [], cohorts := [], net := [], flags := [], groups := [], peers := [], wins := [] }] }
      (s.husk s.sel).any fun h => h.st == st && h.job.isSome && h.tiles.all (fun t => (s.tile t).atStop) && huskDrained s s.sel h
        && s.saved.any fun x => x.tenant = s.sel)
    && [0, 1].all (fun k =>
      let p : Pairing := { pairing 1 true with fp := k }
      let s : State := { paired p with schedule := [0] }
      let s1 := s.modTile s.cur Tile.flush
      (s.tile s.cur).canClose && (s1.tile s.cur).pairing == some p && p.mate != s.cur && s1.choose.1 % 2 == 0
        && (p.fp == p.mateFp) == (k == 0) && !p.rerun)) = true := by decide +kernel

/-! ### Witnesses: the step, checks, traps, results -/

/-- Tile 0 runs an ADDI at its PC, and nothing else can happen; its line stands open or is still to be entered. -/
def stepping (entered : Bool) (w : Nat := 0x0000_0050_0000_1036_0077_0002) (g : Tile → Tile := id) : State :=
  let s := placeWord run (BitVec.ofNat 96 w)
  s.modTile 0 fun u => g { u with line := if entered then some { no := 0, line := istoreLine s 0 0, entered := true } else none }

/-- A line whose parity fails, one whose shape does, one without a target bit at slot 0. -/
def badLine (n : Nat) : State := setBytes (stepping false) (istoreKey 0 60) (match n with
  | 0 => [0]
  | 1 => bytesOf (Line.build (fun _ => 0) 0x1F 0xF).toNat 64 |>.drop 60
  | _ => bytesOf (Line.build (istoreLine (stepping false) 0 0).slot 0 0).toNat 64 |>.drop 60)

theorem witness_StepRunsTheDecodedInstruction :
    (let one (s : State) : Bool := moves exec s == [{ cur := 0, i := none }] && s.inputs.isEmpty
    let reads (s : State) : Bool := isOk (decodeWord ((istoreLine s 0 0).slot 0))
    let plain (s : State) : Bool := let u := (noteTurn s 0).tile 0
      u.active == some (.img 0) && u.line.isNone && u.stale.isEmpty && u.noStatus (.img 0) && !u.pxHolds (.img 0) && !u.following (.img 0) && !(u.task (.img 0)).fwd
    let bad : Nat := 0x0077_00FF
    one (stepping true) && reads (stepping true) && ((stepping true).tile 0).line.any (fun l => l.entered && l.no == 0)
    && one (stepping true bad) && !reads (stepping true bad)
    && [stepping false, stepping false bad].all (fun s => one s && plain s && (istoreLine s 0 0).parityOk && (istoreLine s 0 0).shapeOk)
    && reads (stepping false) && !reads (stepping false bad)
    && (one (badLine 0) && plain (badLine 0) && !(istoreLine (badLine 0) 0 0).parityOk)
    && (one (badLine 1) && plain (badLine 1) && (istoreLine (badLine 1) 0 0).parityOk && !(istoreLine (badLine 1) 0 0).shapeOk)
    && (let s := (badLine 2).modTile 0 fun u => { u with checkTo := true }
      one s && plain s && (istoreLine s 0 0).parityOk && (istoreLine s 0 0).shapeOk && (s.tile 0).checkTo && !(istoreLine s 0 0).tgt 0)
    && [false, true].all (fun px => let u := (run (if px then { tstat := 4 } else {}) fun u =>
        { u with out := [{ tag := 0, who := .img 0, kind := .store, late := true }], seq := 1 }).tile 0
      (lateHere (u.task (.img 0)) (u.task (.img 0)).late u.atLine 0 [] false false).isNone && u.pxHolds (.img 0) == px)
    && (let u := (run { late := [{ cause := .window, addr := 0 }] }).tile 0
      (lateHere (u.task (.img 0)) (u.task (.img 0)).late u.atLine 0 [] false false).isSome && !u.pxHolds (.img 0))
    && (let s := mail (stepping true) (.grant 0 1)
      2 ≤ (moves exec s).length && s.inputs.isEmpty)
    && moves exec State.reset == [] && ({ stepping true with frozen := true } : State).frozen) = true := by decide +kernel

theorem witness_StepKeepsTheMemoryCanonical :
    (stepping true).memOk = true ∧ isNext (step (stepping true)) = true := by decide +kernel

theorem witness_GuardsWaitsAndChecksComeFirst :
    (let at_ (s : State) (w : Who) (i : Instr) (f : Fields) (g px clear : Bool) (c : Form → Tile → Bool := fun _ _ => true) : Bool :=
      let u := s.tile s.cur
      i.word?.map (·.2) == some f && u.active == some w && decide (s.cur < numTiles) && guardOfStream u w i f == some g
        && u.pxHolds w == px && (u.task w).maskClear (waitMaskOf u w f) == clear
        && !((u.task w).mwo && decide (256 ≤ (u.task w).mcnt)) && !(u.task w).fwd
        && !(leavesGangLine (u.task w) w i && u.out.any fun o => o.who = w && o.status) && !(pairCloses i (readReg s s.cur w f.a.toNat) && u.pairOpen)
        && i.form?.any fun m => (lateAtIssue s s.cur w i m f g).isNone && (arrayAtIssue s s.cur w i f g).isNone && c m u
    let add (pred wait b c : Nat) : Fields :=
      { fl (ty := .i64) (dest := 3) (a := 1) (b := b) (c := c) with pred := BitVec.ofNat 3 pred, wait := BitVec.ofNat 6 wait }
    let lates (u : Tile) : Tile := { u with out := [{ tag := 0, who := .img 0, kind := .store, late := true }], seq := 1 }
    let busy : Task := { d := [(0, 1)] }
    [(2, false), (7, true)].all (fun p =>
      at_ (run { tstat := 4 } lates) (.img 0) (.add (add p.1 0 2 0)) (add p.1 0 2 0) p.2 true true
      && at_ (run busy) (.img 0) (.add (add p.1 1 2 0)) (add p.1 1 2 0) p.2 false false)
    && [(false, 0), (true, 0), (true, 4)].all (fun e =>
      at_ (run { tstat := BitVec.ofNat 64 (8 + e.2) } fun u => { u with pend := if e.1 then [{ due := 9, seq := 0, writes := [(0x62, 1)] }] else [] })
        (.img 0) (.add (add 2 0 2 0)) (add 2 0 2 0) false false true fun _ u => u.guardStalls (.img 0) (add 2 0 2 0) == e.1)
    && (let s := run { tstat := 12 } fun u => { u with pend := [{ due := 9, seq := 0, writes := [(1, 1)] }] }
      at_ s (.img 0) (.add (add 7 0 2 0)) (add 7 0 2 0) true false true fun m u => u.stalls (.img 0) (.add (add 7 0 2 0)) m (add 7 0 2 0)
        && (u.task (.img 0)).px && isOk (decodeChecks s s.cur (.img 0) (.add (add 7 0 2 0)) m (add 7 0 2 0))
        && isOk (issueHolds s s.cur (.img 0) (.add (add 7 0 2 0)) m (add 7 0 2 0)))
    && at_ run (.img 0) (.add (add 7 0 2 1)) (add 7 0 2 1) true false true (fun m _ => !((Instr.add (add 7 0 2 1)).setsOk && m.fieldsOk (add 7 0 2 1)))
    && at_ run (.img 0) (.add (add 7 0 0x41 0)) (add 7 0 0x41 0) true false true (fun m u => m.fieldsOk (add 7 0 0x41 0) && !u.popBound (.img 0) 1)
    && (let ev := fl (dest := 3) (a := 1) (b := 2)
      at_ run (.img 0) (.evict ev) ev true false true fun m _ => m.fieldsOk ev && m.priv && !({} : Task).sup)
    && (let mm := fl (minor := 1)
      at_ (run {} fun u => { u with l1 := some { task := {} } }) .lvl1 (.mmul mm) mm true false true fun m _ => m.fieldsOk mm && m.lvl0)
    && (let va := fl (ty := .i8) (c := 0)
      at_ (handling handler) .hnd (.vadd va) va true false true fun m _ => m.fieldsOk va && m.level0Only va)) = true := by
  decide +kernel

theorem witness_TrapsEnterTheirHandler :
    (let u := (run (supervisor)).tile 0
    let v := (run {} fun u => { u with tvec := BitVec.ofNat 64 (2 ^ 63) }).tile 0
    u.active == some (.img 0) && u.pairing.isNone && !bit u.svec 63 && v.active == some (.img 0) && bit v.tvec 63
    && [(0, 0), (256, 0), (0, 2 ^ 63)].all (fun e => let w := ((handling (handler (ecause := e.1))).modTile 0 fun u => { u with tvec := BitVec.ofNat 64 e.2 }).tile 0
      w.hnd == some (handler (ecause := e.1)) && w.pend.isEmpty && w.reduction.isNone && w.pairing.isNone
      && bit (handler (ecause := e.1)).ecause 8 == (e.1 == 256) && bit w.tvec 63 == (e.2 != 0))) = true := by decide +kernel

theorem witness_ResultsAreWrittenAndNothingElse :
    (let k : Task := (run).tile 0 |>.task (.img 0)
    ((run).tile 0).active == some (.img 0) && !k.fwd && !k.mwo && ((run).tile 0).pairing.isNone
    && ((run {} fun u => { u with pend := [{ due := 0, seq := 0, writes := [(3, 7)] }] }).tile 0).duePend.isSome
    && ((run).tile 0).pend.all (fun p => p.flags = 0) && !((run).tile 0).flagsOpen (.img 0)) = true := by decide +kernel

/-! ### Decoding: words written out from spec/10 Table 5 and the encoding tables -/

/-- The word decodes to the instruction, and is the instruction's word. -/
def stands (w : Nat) (i : Instr) : Bool :=
  isOk (decodeWord (BitVec.ofNat 96 w)) && decodeTableWord 96 w == some i && encode i == some (BitVec.ofNat 96 w) && i.wellFormed

/-- Scalar, float, control and block: NOP, ADDI.i64 g3, g1, 5, CMPI, FADD.f64 g3, g1, g2, BR to slot 2 under p1, VADD.f32 of 4 rows by 8
columns, VRAND.inc. -/
theorem test_decode_arithmetic :
    (stands 0x0000_0000_0000_0000_0077_0000 (.nop (fl))
    && stands 0x0000_0050_0000_1036_0077_0002 (.addi (fl (ty := .i64) (dest := 3) (a := 1) (imm := 5)))
    && stands 0x0000_0006_1000_2626_0077_0224 (.cmpi (fl (minor := 2) (ty := .i64) (dest := 0x62) (a := 2) (c := 0x61)))
    && stands 0x0000_0000_0020_103B_0077_0030 (.fadd (fl (ty := .f64) (dest := 3) (a := 1) (b := 2)))
    && stands 0x0000_0020_0000_0000_0071_0040 (.br { fl (imm := 2) with pred := 1 })
    && stands 0x0000_000E_3402_000A_0077_0050 (.vadd (fl (ty := .f32) (a := 0x20) (b := 0x40) (c := 0xE3)))
    && stands 0x0000_000E_0050_410A_0077_0176 (.vrandInc (fl (minor := 1) (ty := .f32) (dest := 0x10) (a := 4) (b := 5) (c := 0xE0)))) = true := by
  decide +kernel

/-- Memory, stamped, atomic: LD.i64 with offset 16 on d0, the aperture store of spec/07's example (ST.n64 on d2), LDA.w, AADD.nr.rel.husk. -/
theorem test_decode_memory :
    (stands 0x0000_0100_0000_5046_0007_0090 (.ld (fl (ty := .i64) (dest := 4) (a := 5) (imm := 16) (setc := 0)))
    && stands 0x0000_0000_0090_8007_0027_0091 (.st (fl (ty := .n64) (a := 8) (b := 9) (setc := 2)))
    && stands 0x0000_003E_00A0_8000_0007_009C (.ldaW (fl (a := 8) (b := 10) (c := 0xE0) (imm := 3) (setc := 0)))
    && stands 0x0000_0000_0070_5006_6017_05A5 (.aadd (fl (minor := 5) (ty := .i64) (a := 5) (b := 7) (scope := 3) (setc := 1)))) = true := by
  decide +kernel

/-- Matrix, tasks, groups, boosted, system: MMUL, SEND, LAUNCH, BDECL, TFENCE, PAIR, HUSKCFG.def. -/
theorem test_decode_system :
    (stands 0x0000_0000_0000_0000_0017_0185 (.mmul (fl (minor := 1) (setc := 1)))
    && stands 0x0000_003E_3001_4000_0077_00B0 (.send (fl (a := 0x14) (c := 0xE3) (imm := 3)))
    && stands 0x0000_0000_0000_5060_0017_00C0 (.launch (fl (dest := 6) (a := 5) (setc := 1)))
    && stands 0x000A_1400_C0B0_A000_0007_00C9 (.bdecl (fl (a := 10) (b := 11) (c := 12) (imm := 5 * 8192 + 40 * 8) (setc := 0)))
    && stands 0x0000_0070_0000_0000_0077_00D2 (.tfence (fl (imm := 7)))
    && stands 0x0001_0000_0000_0050_0007_00D6 (.pair (fl (dest := 5) (imm := 4096) (setc := 0)))
    && stands 0x0000_0000_0070_6050_0007_00D9 (.huskcfgDef (fl (dest := 5) (a := 6) (b := 7) (setc := 0)))) = true := by
  decide +kernel

/-- An unassigned major has no instruction; eleven bytes are no word. -/
theorem test_decode_refuses :
    decodeWord 0x0000_0000_0000_0000_0077_0027 = .error (.unassigned 0x27) ∧ decodeBytes (List.replicate 11 0) = .error (.short 11) := by
  decide +kernel

/-- The line word 0x2700_0021 of spec/10: slot 0 a target, slots 0 and 1 paired (Table 1). -/
theorem test_line_word :
    let l : Line := BitVec.ofNat 512 (0x2700_0021 * 2 ^ 480)
    l.tgt 0 = true ∧ l.tgt 1 = false ∧ l.pairBit 0 = true ∧ l.pairBit 1 = false := by decide +kernel

/-! ### WellFormed: an ill-formed term for each check -/

theorem test_well_formed_refuses :
    ((Instr.add (fl (dest := 3) (a := 1) (b := 2))).wellFormed
    && !(Instr.add (fl (minor := 1) (dest := 3))).wellFormed
    && !(Instr.add (fl (ty := .f32) (dest := 3))).wellFormed
    && !(Instr.add (fl (dest := 3) (scope := 1))).wellFormed
    && !(Instr.fence (fl (scope := 5))).wellFormed
    && !(Instr.add (fl (dest := 3) (setc := 6))).wellFormed
    && !(Instr.tfence (fl (setc := 0))).wellFormed
    && !(Instr.add (fl (dest := 0x6B))).wellFormed
    && !(Instr.add (fl (a := 0x70))).wellFormed
    && !(Instr.add (fl (b := 0x70))).wellFormed
    && !(Instr.sel (fl (c := 0x68))).wellFormed
    && !(Instr.vadd (fl (dest := 255) (c := ext 2 1))).wellFormed
    && !(Instr.vfma (fl (ty := .f32) (imm := 256))).wellFormed
    && !(Instr.tfence (fl (imm := 256))).wellFormed
    && !(Instr.sets (fl (a := 1) (imm := 0))).wellFormed && !(Instr.setsTvec (fl (a := 1) (imm := 1))).wellFormed) = true := by decide +kernel

/-! ### Single steps, with results from the spec -/

/-- The results and flags that one instruction leaves to be written. -/
def leaves (i : Instr) (s : State) : Option (List (Nat × Word) × Nat) :=
  match exec i s with
  | .next t => (match ((t.tile t.cur).pend.getLast?), (t.tile t.cur).divider with
    | some p, _ => some (p.writes, p.flags)
    | none, some j => some (j.writes, j.flags)
    | none, none => none)
  | _ => none

/-- SHR.i8 and SAR.i8 of 0x80 by 1 (the example of spec/12 R201). -/
theorem test_shift :
    leaves (.shr (fl (minor := 1) (ty := .i8) (dest := 3) (a := 1) (imm := 1))) (run (regs [0x80])) = some ([(3, 0x40)], 0)
    ∧ leaves (.sar (fl (minor := 1) (ty := .i8) (dest := 3) (a := 1) (imm := 1))) (run (regs [0x80]))
      = some ([(3, 0xFFFF_FFFF_FFFF_FFC0)], 0) := by decide +kernel

/-- ADD.i8 wraps and is sign-extended, ADD.n8 zero-extended (spec/12 R198, R201). -/
theorem test_add_wraps :
    leaves (.add (fl (ty := .i8) (dest := 3) (a := 1) (b := 2))) (run (regs [127, 1])) = some ([(3, 0xFFFF_FFFF_FFFF_FF80)], 0)
    ∧ leaves (.add (fl (ty := .n8) (dest := 3) (a := 1) (b := 2))) (run (regs [255, 1])) = some ([(3, 0)], 0) := by decide +kernel

/-- The rows of spec/12 Table 3; IDZ is bit 5 of sticky. -/
theorem test_division :
    [(Instr.div, Ty.i32, 2 ^ 32 - 7, 2, 0xFFFF_FFFF_FFFF_FFFD, 0), (.rem, .i32, 2 ^ 32 - 7, 2, 0xFFFF_FFFF_FFFF_FFFF, 0),
      (.rem, .i32, 7, 2 ^ 32 - 2, 1, 0), (.div, .i32, 2 ^ 31, 2 ^ 32 - 1, 0xFFFF_FFFF_8000_0000, 0),
      (.div, .i32, 5, 0, 0xFFFF_FFFF_FFFF_FFFF, 32), (.divn, .n32, 5, 0, 0xFFFF_FFFF, 32), (.remn, .n32, 5, 0, 5, 32)].all
      (fun e => leaves (e.1 (fl (ty := e.2.1) (dest := 3) (a := 1) (b := 2))) (run (regs [e.2.2.1, e.2.2.2.1]))
        == some ([(3, BitVec.ofNat 64 e.2.2.2.2.1)], e.2.2.2.2.2)) = true := by decide +kernel

/-- FTOI by spec/11 Table 4: a NaN, +∞, a value out of range, 2.5 (to 2, inexact). -/
theorem test_ftoi :
    [(0x7FC0_0000, 0, 1), (0x7F80_0000, 127, 1), (0x4348_0000, 127, 1), (0x4020_0000, 2, 16)].all
      (fun e => leaves (.ftoi (fl (minor := 2) (ty := .i8) (dest := 3) (a := 1))) (run (regs [e.1])) == some ([(3, BitVec.ofNat 64 e.2.1)], e.2.2))
      = true := by decide +kernel

/-- Under RTZ no integer overflows: 65,536 to f16 gives 65,504, inexact alone; under RNE it overflows (spec/12 R212). -/
theorem test_itof_rtz :
    [(1, 0x7BFF, 16), (0, 0x7C00, 20)].all (fun e => leaves (.itof (fl (minor := 6) (ty := .f16) (dest := 3) (a := 1)))
      (run (regs [65536] { tstat := BitVec.ofNat 64 e.1 })) == some ([(3, BitVec.ofNat 64 e.2.1)], e.2.2)) = true := by decide +kernel

/-- An ST to the word on which the task's own LDF is parked does not issue, one to the next word is performed (spec/04 R50; log 121). An STF
to it, which never waits, is performed (spec/06 Table 7; log 129). -/
theorem test_store_behind_parked_load :
    (let s (a : Nat) : State := (run (regs [a, 7]) fun u => { u with
        waiters := [{ asker := .core 0 0 0, off := 0x8000, op := .ldf 8, order := 0 }], seq := 1
        out := [{ tag := 0, who := .img 0, kind := .fullEmpty, op := some (.ldf 8), parked := true, slow := true }] }).setEmpty 0 0x8000 true
      let word (i : Fields → Instr) (a : Nat) : Nat := match exec (i (fl (ty := .i64) (a := 1) (b := 2))) (s a) with
        | .next t => getNat t (sliceKey 0 a) 8
        | _ => 1
      (word .st 0x8000, word .st 0x8008, word .stf 0x8000) == (0, 7, 7)) = true := by decide +kernel

/-- Conversion of 463 to e4m3 gives 448 without OF, of ∞ gives 448 with OF and NX (spec/11 R186). -/
theorem test_e4m3 : cvt 0 .f32 .e4m3 0x43E7_8000 = (0x7E, 16) ∧ cvt 0 .f32 .e4m3 0x7F80_0000 = (0x7E, 20) := by decide +kernel

/-- The descriptor of spec/11's example: scale 0.75, zero point −2. -/
theorem test_descriptor : (bs20 0x3FE7_E800).map (fun e => (e.1 : Int) * 4) = (bs20 0x3FE7_E800).map (fun e => 3 * 2 ^ (-e.2).toNat)
    ∧ descZ 0x3FE7_E800 = -2 := by decide +kernel

/-- The channel that a store's request goes to, and its template's rows, lengths, pitches and counter. -/
def requests (i : Instr) (s : State) : Option (Nat × Nat × Nat × Int × Int × Nat) :=
  match exec i s with
  | .next t => t.net.findSome? fun p => match p.body with
    | .aperture ch x => some (ch, x.rows, x.rowlen, x.sstr, x.dstr, x.wk)
    | _ => none
  | _ => none

/-- The copy of spec/07's example: its rows' home memory cores are 4 to 7, its aperture names channel 5 of engine 13, its template passes.
The core's context area lies elsewhere than at its reset base. -/
theorem test_copy_example :
    (List.range 4).map (fun i => homeMc (0x0040_0000 + 4096 * i)) = [4, 5, 6, 7]
    ∧ requests (.st (fl (ty := .n64) (a := 8) (b := 9) (setc := 2)))
      (setBytes (run (regs [0, 0, 0, 0, 0, 0, 0, 0x0300_0000_0000_0D50, 0x0000_0090_0000_0002]) fun u => { u with ctxbase := 1024 }) (sliceKey 0 0x80)
        (bytesOf 0x1000_0000_0040_0000 8 ++ bytesOf 0x0020_8000 8 ++ bytesOf 4 4 ++ bytesOf 256 4 ++ bytesOf 4096 8 ++ bytesOf 256 8))
      = some (13 * 16 + 5, 4, 256, 4096, 256, 9) := by decide +kernel

/-- An instruction placed from outside runs as the first step after reset: ADDI's result is to be written, its PC goes on. -/
theorem test_first_step :
    (match step (State.reset.withFetchWord 96 0x0000_0050_0000_1036_0077_0002) with
    | .next t => (t.tile 0).pend.map (·.writes) == [[(3, 5)]] && ((t.tile 0).task (.img 0)).pc == 1
    | _ => false) = true := by decide +kernel

/-- SM3 of "abc" (the first example of the SM3 standard, GB/T 32905) and CRC-64/ECMA-182 of "123456789" (its catalogued check value). -/
theorem test_hashes :
    sm3 [0x61, 0x62, 0x63] = 0x66c7f0f462eeedd9d1f2d46bdc10e4e24167c4875cf2f7a2297da02b8f4ba8e0
    ∧ crc64 0 ((List.range 9).map fun i => BitVec.ofNat 8 (0x31 + i)) = 0x6C40DF5F0B497347 := by decide +kernel

/-! ### Witnesses of the last two statements with hypotheses -/

theorem witness_DecodeOfEncodeIsTheInstruction :
    (Instr.vadd (fl (ty := .f32) (a := 0x20) (b := 0x40) (c := 0xE3))).wellFormed = true
    ∧ encode (.vadd (fl (ty := .f32) (a := 0x20) (b := 0x40) (c := 0xE3))) = some 0x0000_000E_3402_000A_0077_0050
    ∧ isOk (decodeWord 0x0000_000E_3402_000A_0077_0050) = true := by decide +kernel

theorem witness_ResetLeavesTheStatedValues : (2303 < numTiles ∧ 2303 ≠ 0) ∧ (2 ^ 21 - 1 < 2 ^ 21 ∧ 2 ^ 16 - 1 < 2 ^ 16) := by decide

end Sys2Proof.Machine.Tests
end

section
/-!
SUPPORT. Bytes and tables: little-endian numbers read back, tables after a row of writes and after a change of every value.
-/

namespace Sys2Proof

/-- The number that its own little-endian bytes hold. -/
theorem ofBytes_bytesOf (v n : Nat) : ofBytes (bytesOf v n) = v % 2 ^ (8 * n) := by
  induction n generalizing v with
  | zero => exact (Nat.mod_one v).symm
  | succ n ih => rw [bytesOf, ofBytes, ih, BitVec.toNat_ofNat, Nat.mul_succ, Nat.add_comm (8 * n), Nat.pow_add, Nat.mod_mul]

@[simp] theorem length_bytesOf (v n : Nat) : (bytesOf v n).length = n := by
  induction n generalizing v with
  | zero => rfl
  | succ n ih => rw [bytesOf, List.length_cons, ih]

/-- A read after writes to `n` keys in a row. -/
theorem Sparse.get_foldl_set {α : Type} [DecidableEq α] (d : α) (m : Sparse α) (base : Nat) (f : Nat → α) (n k : Nat) :
    Sparse.get d ((List.range n).foldl (fun m i => Sparse.set d m (base + i) (f i)) m) (base + k)
      = if k < n then f k else Sparse.get d m (base + k) := by
  induction n with
  | zero => rfl
  | succ n ih =>
    rw [List.range_succ, List.foldl_append, List.foldl_cons, List.foldl_nil, Sparse.get_set, ih]
    by_cases hk : k = n
    · rw [if_pos (by rw [hk]), if_pos (by omega), hk]
    · rw [if_neg (by omega)]
      exact ite_congr (propext ⟨fun h => by omega, fun h => by omega⟩) (fun _ => rfl) fun _ => rfl

/-- A read after every value has been changed by a function that keeps the default. -/
theorem Sparse.get_map {α : Type} (d : α) (g : Nat → α → α) (m : Sparse α) (k : Nat) (hd : g k d = d) :
    Sparse.get d (m.map fun e => (e.1, g e.1 e.2)) k = g k (Sparse.get d m k) := by
  induction m with
  | nil => exact hd.symm
  | cons e m ih =>
    rw [List.map_cons, Sparse.get, Sparse.get, ih]
    split
    · next h => rw [h]
    · rfl

end Sys2Proof
end

section
/-!
SUPPORT. The byte memory: what has been written is read back, and where an instruction store lies.
-/

namespace Sys2Proof.Machine

open Sys2Proof

/-- Bytes that stand at a key one by one are read from there. -/
theorem getBytes_eq (s : State) (bs : List Byte) : ∀ k : Nat, (∀ j (h : j < bs.length), getByte s (k + j) = bs[j]) →
    getBytes s k bs.length = bs := by
  induction bs with
  | nil => intro k _; rfl
  | cons b bs ih =>
    intro k h
    rw [List.length_cons, getBytes, show getByte s k = b from h 0 (Nat.succ_pos _)]
    rw [ih (k + 1) fun j hj => by rw [Nat.add_assoc, Nat.add_comm 1 j]; exact h (j + 1) (Nat.succ_lt_succ hj)]

/-- A number written in the map is read back. -/
theorem getNat_of_written {s s' : State} {k v n : Nat} (hm : s'.mem = setBytesMem s.mem k (bytesOf v n)) (hk : k + n ≤ memEnd) :
    getNat s' k n = v % 2 ^ (8 * n) := by
  have hread : getBytes s' k (bytesOf v n).length = bytesOf v n := getBytes_eq s' _ k fun j hj => by
    rw [getByte, hm]
    rw [length_bytesOf] at hj
    exact get_setBytesMem_same _ _ _ _ _ (by omega)
  rw [length_bytesOf] at hread
  rw [getNat, hread, ofBytes_bytesOf]

/-- A tile's instruction store lies in the byte map. -/
theorem istoreKey_le_memEnd {t off n : Nat} (ht : t < numTiles) (ho : off + n ≤ 2 ^ 16) : istoreKey t off + n ≤ memEnd := by
  have hend : istoreBase + numTiles * 2 ^ 16 ≤ memEnd := by decide
  rw [istoreKey, if_pos ht]
  generalize memEnd = last at hend ⊢
  generalize istoreBase = first at hend ⊢
  generalize numTiles = tiles at ht hend
  omega

end Sys2Proof.Machine
end

section
/-!
SUPPORT. The checks of an address, in the order of spec/02 R10.
-/

namespace Sys2Proof.Machine

open Sys2Proof

/-- A check passes or raises its trap. -/
theorem need_eq (b : Bool) (c : Cause) (a : Word) : need b c a = if b = true then .ok () else .error (.trap c a none false) := rfl

/-- The test for a listed region, as membership. -/
theorem need_listed (addr : Word) :
    need (regionOf addr == 0x00 || regionOf addr == 0x01 || regionOf addr == 0x02 || regionOf addr == 0x03 || regionOf addr == 0x10
      || regionOf addr == 0x20) .region addr
    = if regionOf addr ∈ [0x00, 0x01, 0x02, 0x03, 0x10, 0x20] then .ok () else .error (.trap .region addr none false) := by
  simp [need_eq, or_assoc]

/-- Steps 1 and 2 of spec/02 R10. -/
theorem checkAddr_of_badRegion {addr : Word} (hbad : regionOf addr ∉ [0x00, 0x01, 0x02, 0x03, 0x10, 0x20] ∨ mustBeZero addr = false)
    (s : State) (a : Nat) (k : AKind) (al : Bool) : checkAddr s a k addr al = .error (.trap .region addr none false) := by
  unfold checkAddr
  simp only [need_listed]
  rcases hbad with hr | hz
  · rw [if_neg hr]
    rfl
  · rw [hz]
    split <;> rfl

section AddressChecks
variable {s : State} {a : Nat} {k : AKind} {addr : Word} {al : Bool} {n : Nat} {h : Husk}

/-- Step 3 of spec/02 R10. -/
theorem checkAddr_of_kindFault {c : Cause} (hr : regionOf addr ∈ [0x00, 0x01, 0x02, 0x03, 0x10, 0x20]) (hz : mustBeZero addr = true)
    (hk : kindFault k addr = some c) : checkAddr s a k addr al = .error (.trap c addr none false) := by
  simp only [checkAddr, need_listed, if_pos hr, hz, hk]
  rfl

/-- Two tests in this order, and what the address names when both pass (steps 4 and 5 of spec/02 R10). -/
def inTurn (b₁ : Bool) (c₁ : Cause) (b₂ : Bool) (c₂ : Cause) (addr : Word) (g : Target) : Except Stop Target := do
  need b₁ c₁ addr
  need b₂ c₂ addr
  .ok g

theorem inTurn_first (c₁ : Cause) (b₂ : Bool) (c₂ : Cause) (g : Target) :
    inTurn false c₁ b₂ c₂ addr g = .error (.trap c₁ addr none false) := rfl

theorem inTurn_second (c₁ c₂ : Cause) (g : Target) : inTurn true c₁ false c₂ addr g = .error (.trap c₂ addr none false) := rfl

theorem inTurn_both (c₁ c₂ : Cause) (g : Target) : inTurn true c₁ true c₂ addr g = .ok g := rfl

/-- Where the region's own test passes, a misaligned address faults ALIGN and an aligned one is accepted. -/
theorem inTurn_align (c : Cause) (g : Target) :
    (al = false → inTurn true c al .align addr g = .error (.trap .align addr none false))
    ∧ (al = true → inTurn true c al .align addr g = .ok g) :=
  ⟨fun hal => by rw [hal, inTurn_second], fun hal => by rw [hal, inTurn_both]⟩

/-- A tile at (x, y) outside a husk of this shape. -/
theorem not_inShape {x y width height : Nat} (hout : width ≤ x ∨ height ≤ y) : (decide (x < width) && decide (y < height)) = false := by
  rw [Bool.and_eq_false_iff, decide_eq_false_iff_not, decide_eq_false_iff_not]
  omega

/-- A tile at (x, y) inside it. -/
theorem inShape {x y width height : Nat} (hx : x < width) (hy : y < height) : (decide (x < width) && decide (y < height)) = true := by
  rw [decide_eq_true hx, decide_eq_true hy, Bool.and_self]

section Accepted
/-! Steps 4 and 5, region by region, for a kind that the region accepts. -/

variable (hz : mustBeZero addr = true) (hk : kindFault k addr = none) (hh : s.huskOf a = some (n, h))
include hz hk hh

theorem checkAddr_slice (hr : regionOf addr = 0x00) : checkAddr s a k addr al =
    inTurn (field addr 26 21 < h.width && field addr 32 27 < h.height) .huskbnd al .align addr
      (.sram (h.tileAt (field addr 26 21) (field addr 32 27)) (field addr 20 0)) := by
  simp only [checkAddr, hr, hz, hk, hh]
  rfl

theorem checkAddr_remote (hr : regionOf addr = 0x01) : checkAddr s a k addr al =
    inTurn (field addr 44 33 != s.chip) .region al .align addr
      (.remote (field addr 44 33) (field addr 26 21) (field addr 32 27) (field addr 20 0)) := by
  simp only [checkAddr, hr, hz, hk, hh]
  rfl

theorem checkAddr_code (hr : regionOf addr = 0x02) : checkAddr s a k addr al =
    inTurn (field addr 21 16 < h.width && field addr 27 22 < h.height) .huskbnd (field addr 5 0 == 0) .istore addr
      (.code (h.tileAt (field addr 21 16) (field addr 27 22)) (field addr 15 0)) := by
  simp only [checkAddr, hr, hz, hk, hh]
  rfl

theorem checkAddr_aperture (hr : regionOf addr = 0x03) : checkAddr s a k addr al =
    inTurn (field addr 13 8 ≤ 47) .region al .align addr (.aperture (field addr 13 8 * 16 + field addr 7 4)) := by
  simp only [checkAddr, hr, hz, hk, hh]
  rfl

theorem checkAddr_far (hr : regionOf addr = 0x10) : checkAddr s a k addr al =
    inTurn true .region al .align addr (.far (field addr 47 0)) := by
  simp only [checkAddr, hr, hz, hk, hh]
  rfl

theorem checkAddr_group (hr : regionOf addr = 0x20) : checkAddr s a k addr al =
    inTurn (s.groupBound n (field addr 31 16)) .window al .align addr (.mcast (field addr 31 16) (field addr 15 0)) := by
  simp only [checkAddr, hr, hz, hk, hh]
  rfl

end Accepted
end AddressChecks

/-! ### At the home -/

section HomeChecks
variable (s : State) (t off : Nat) (op : MemOp) (q : Asker) (user act : Bool) (xy : Option Nat)

/-- Step 6 of spec/02 R10. -/
theorem performAt_of_inCtx (hu : user = true) (hc : (s.tile t).inCtx off (opLen op) = true) :
    performAt s t off op q user act xy = (s, .fault .priv) := by
  simp only [performAt, hu, hc, Bool.and_self, if_true]

/-- The range tests come next, before any effect. -/
theorem performAt_of_rangeFault {c : Cause} (hp : (user && (s.tile t).inCtx off (opLen op)) = false)
    (hf : rangeFault s t off op act xy = some c) : performAt s t off op q user act xy = (s, .fault c) := by
  simp only [performAt, hp, hf, Bool.false_eq_true, if_false]

end HomeChecks

/-- What a range answers a plain store: STAMPED is tested before BOOST. -/
theorem rangeFault_store (s : State) (t off n : Nat) (v : Word) (act : Bool) (xy : Option Nat) :
    rangeFault s t off (.store n v) act xy =
      if (s.tile t).touches (·.stamped) off n then some .stawr
      else if !act && (s.tile t).touches (·.boost) off n then some .boostwr else none := rfl

/-- Settles O20: the cases are the regions, each with its own test before the alignment, then the tests at the home in their order. -/
theorem addressChecksComeInOrder : Obligations.AddressChecksComeInOrder := by
  unfold Obligations.AddressChecksComeInOrder
  refine ⟨fun s a k addr al => ⟨fun hbad => checkAddr_of_badRegion hbad s a k al, fun hlisted hz =>
    ⟨fun c hk => checkAddr_of_kindFault hlisted hz hk, fun hk n h hh => ⟨?slice, ?remote, ?code, ?aperture, ?far, ?group⟩⟩⟩,
    fun s t off op q user act xy => ⟨performAt_of_inCtx s t off op q user act xy, fun hp =>
      ⟨fun c => performAt_of_rangeFault s t off op q user act xy hp, fun n v hop => ⟨?stamped, ?boost⟩⟩⟩⟩
  case slice =>
    intro hr
    rw [checkAddr_slice hz hk hh hr]
    exact ⟨fun hout => by rw [not_inShape hout, inTurn_first], fun hx hy => by rw [inShape hx hy]; exact inTurn_align _ _⟩
  case remote =>
    intro hr
    rw [checkAddr_remote hz hk hh hr]
    exact ⟨fun hown => by rw [hown, bne_self_eq_false, inTurn_first],
      fun hother => by rw [bne_iff_ne.mpr hother]; exact inTurn_align _ _⟩
  case code =>
    intro hr
    rw [checkAddr_code hz hk hh hr]
    refine ⟨fun hout => by rw [not_inShape hout, inTurn_first], fun hx hy => ?_⟩
    rw [inShape hx hy]
    exact ⟨fun hoff => by rw [beq_eq_false_iff_ne.mpr hoff, inTurn_second], fun hoff => by rw [beq_iff_eq.mpr hoff, inTurn_both]⟩
  case aperture =>
    intro hr
    rw [checkAddr_aperture hz hk hh hr]
    exact ⟨fun hout => by rw [decide_eq_false (Nat.not_le.mpr hout), inTurn_first],
      fun hin => by rw [decide_eq_true hin]; exact inTurn_align _ _⟩
  case far =>
    intro hr
    rw [checkAddr_far hz hk hh hr]
    exact inTurn_align _ _
  case group =>
    intro hr
    rw [checkAddr_group hz hk hh hr]
    exact ⟨fun hun => by rw [hun, inTurn_first], fun hbound => by rw [hbound]; exact inTurn_align _ _⟩
  case stamped =>
    intro hs
    exact performAt_of_rangeFault s t off op q user act xy hp (by rw [hop, rangeFault_store, hs]; rfl)
  case boost =>
    intro hs hb ha
    exact performAt_of_rangeFault s t off op q user act xy hp (by rw [hop, rangeFault_store, hs, hb, ha]; rfl)

end Sys2Proof.Machine
end

section
/-!
SUPPORT. Accesses to other packages (spec/02 R16, R17, spec/06 R103).
-/

namespace Sys2Proof.Machine

open Sys2Proof

/-- An instruction that issues and whose access completes retires after it. -/
theorem exec_of_access {s : State} {w : Who} {i : Instr} {m : Form} {f : Fields} {s1 : State} {x : In} {r : Req} {a : Word} {al : Bool}
    {g : Target} {s2 : State} (hi : Issues s w i m f s1 x) (hr : request i x s1 = some (r, a, al)) (hc : checkedFirst i x s1)
    (hrel : released i x s1 = true) (ht : x.t < numTiles) (hg : checkAddr s1 x.t r.k a al = .ok g) (hna : ∀ ch, g ≠ .aperture ch)
    (hacc : access x s1 r a al = .ok (s2, .next)) : exec i s = .next (retired s1 x m s2 .next) := by
  obtain ⟨body, hexec, hbody⟩ := exec_request hi.form hi.fields
  rw [hexec]
  exact issue_of_issues hi ((hbody x s1 r a al g hi.operands.2.2 hr hc hrel ht hg hna).trans hacc)

section RemoteAccess
variable {x : In} {s : State} {r : Req} {a : Word} {al : Bool} {chip : Nat}

/-- An access whose address names another package goes to that package. -/
theorem access_remote {rx ry off : Nat} (ht : x.t < numTiles) (hg : checkAddr s x.t r.k a al = .ok (.remote chip rx ry off)) :
    access x s r a al = accessRemote x s r a chip := by
  simp only [access, Nat.not_le.mpr ht, if_false, hg, bind, Except.bind]

/-- An access to another package leaves once the NI has room, its unit is there, no earlier access holds it back, and a pair's buffer
has taken it where it waits for its interval. -/
theorem accessRemote_leaves {k path : Nat} {waits : Bool} {u1 : Tile} {s' s2 : State}
    (hni : (opModifies r.op && niFull s x.t a) = false)
    (hunits : (if opModifies r.op then takeUnits (s.tile x.t) (chipDst chip) 1 else .ok (0, s.tile x.t)) = .ok (k, u1))
    (hpath : path = pathOf (chipDst chip) (a.toNat % 2 ^ 33 / 64)) (hwaits : waits = (pairWaits r.op r.dst && (s.tile x.t).pairing.isSome))
    (hclose : (!waits && s.egress.any fun e => e.src = x.t && e.held && e.meets a (opLen r.op)) = false)
    (haway : behindAway (s.tile x.t) x.w a r.op = .ok ())
    (hs' : s' = s.setTile x.t (if opModifies r.op then u1.countSent (chipDst chip) path else u1))
    (hhold : (if waits then pairHold s' x.t x.w [2 ^ 64 + s'.nextId] r.op a else .ok s') = .ok s2) :
    let s3 := addOut s2 x { r.out x a with
      remote := true, late := true, slow := true, al := k, units := if opModifies r.op then 1 else 0 }
    accessRemote x s r a chip = .ok ({ s3 with
      nextId := s3.nextId + 1
      egress := s3.egress ++ [{ chip := chip, src := x.t, tag := x.seq, path := path, addr := a, op := some r.op, held := waits
                                epoch := (s.tile x.t).epochTo (chipDst chip), behind := s.staysBehind x.t a (opLen r.op) }] }, .next) := by
  -- It takes a unit where it modifies, and an entry of the pair's buffer where it waits.
  subst hpath hs'
  cases hmod : opModifies r.op <;> rw [hmod] at hni hunits hhold <;> cases waits <;>
    simp only [Bool.not_true, Bool.not_false, Bool.true_and, Bool.false_and] at hni hclose <;>
    simp only [accessRemote, hmod, ← hwaits, hni, hclose, haway, bind, Except.bind, Bool.not_true, Bool.not_false,
      Bool.true_and, Bool.false_and, Bool.false_eq_true, if_true, if_false] at hunits hhold ⊢
  case false.false => cases hunits; cases hhold; rfl
  case false.true => cases hunits; rw [hhold]; rfl
  case true.false => rw [hunits]; cases hhold; rfl
  case true.true => rw [hunits]; simp only [hhold]; rfl

end RemoteAccess

/-- Settles O14: the instruction's access is the one to another package, which leaves. -/
theorem accessesToOtherPackagesComplete : Obligations.AccessesToOtherPackagesComplete := by
  unfold Obligations.AccessesToOtherPackagesComplete
  intro s w i m f s1 x r a al chip rx ry off k u1 s2 hi hr hc hrel ht hg hni hunits path waits hclose haway s' hhold
  exact exec_of_access hi hr hc hrel ht hg (fun ch => Target.noConfusion)
    ((access_remote ht hg).trans (accessRemote_leaves hni hunits rfl rfl hclose haway rfl hhold))

end Sys2Proof.Machine
end

section
/-!
SUPPORT. Accesses that arrive at their home (spec/02 R13, spec/06 R102).
-/

namespace Sys2Proof.Machine

open Sys2Proof

/-- The number of a packet that has arrived is the one asked for. -/
theorem packet_of_arrived {s : State} {k : Nat} {p : Packet} (h : arrived s k = some p) : s.packet k = some p := by
  unfold arrived at h
  split at h
  · next q hq =>
    split at h
    · cases h
    · rw [hq, h]
  · cases h

theorem id_of_packet {s : State} {k : Nat} {p : Packet} (h : s.packet k = some p) : p.id = k := by
  simpa using List.find?_some h

theorem id_of_arrived {s : State} {k : Nat} {p : Packet} (h : arrived s k = some p) : p.id = k :=
  id_of_packet (packet_of_arrived h)

theorem asker_of_own {p : Packet} (h : p.remote = none) : p.asker = .core p.src p.tag 0 := by
  rw [Packet.asker, h]

theorem asker_of_remote {p : Packet} {chip core tag : Nat} (h : p.remote = some (chip, core, tag)) : p.asker = .remote chip core tag := by
  rw [Packet.asker, h]

theorem outsideState_of_own {s : State} {p : Packet} (h : p.remote = none) : outsideState s p = .running := by
  rw [outsideState, h]
  rfl

section AccessArrival
variable {s : State} {k : Nat} {p : Packet} {off : Nat} {op : MemOp} {user boost : Bool}

/-- An event that takes the packet's operation performs the access as one that takes any. -/
theorem arriveAccess_of_taken {takes : MemOp → Bool} (ha : arrived s k = some p) (hb : p.body = .access off op user boost)
    (ht : takes op = true) : arriveAccess s k takes = arriveAccess s k fun _ => true := by
  simp only [arriveAccess, ha, hb, ht]

/-- The event of an access takes the access's operation. -/
theorem exec_accessEvent (ha : arrived s s.sel = some p) (hb : p.body = .access off op user boost) :
    exec (accessEvent p op) s = arriveAccess s s.sel fun _ => true := by
  have hplain : execRemoteAccessArrival (.pkt p.id) s = arriveAccess s s.sel plainOp := by
    simp only [execRemoteAccessArrival, id_of_arrived ha, ha, hb]
  cases op
  case load | loadBlock | store | storeBlock | engine => exact hplain.trans (arriveAccess_of_taken ha hb rfl)
  all_goals exact arriveAccess_of_taken ha hb rfl

/-- The access in a husk that runs, by the answer of its home: no answer goes back where the NI retries the request, where an access of
this package has consumed a word in error, and where one of another package has parked. -/
theorem arriveAccess_running {r : State × Answer} (ha : arrived s k = some p) (hb : p.body = .access off op user boost)
    (ho : outsideState s p = .running) (hp : performAt (s.drop k) p.dst off op p.asker user boost
      (if p.remote.isSome then none else some (s.cidOf p.src)) = r) :
    let go := arriveAccess s k fun _ => true
    (r.2 = .full → go = .next (s.refuse k 0))
    ∧ (r.2 = .fault .eccu → go = .next (if p.remote.isSome then answered r.1 p off (opModifies op) (.fault .window) else r.1))
    ∧ (r.2 = .parked → go = .next (if p.remote.isSome then r.1 else replyTo r.1 p .parked))
    ∧ (r.2 ≠ .full → r.2 ≠ .fault .eccu → r.2 ≠ .parked → go = .next (answered r.1 p off (opModifies op) r.2)) := by
  simp only [arriveAccess, ha, hb, ho, hp, Bool.not_true, Bool.false_eq_true, if_false]
  refine ⟨fun h => by rw [h], fun h => by rw [h], fun h => by rw [h], fun hfull heccu hparked => ?_⟩
  split
  · next h => exact absurd h hfull
  · next h => exact absurd h heccu
  · next h => exact absurd h hparked
  · rfl

theorem arriveAccess_killed (ha : arrived s k = some p) (hb : p.body = .access off op user boost) (ho : outsideState s p = .killed) :
    (arriveAccess s k fun _ => true) = .next (answered (s.drop k) p off (opModifies op) (.fault .window)) := by
  simp only [arriveAccess, ha, hb, ho, Bool.not_true, Bool.false_eq_true, if_false]

/-- A husk on its way between states, or evicted, refuses the access. -/
theorem arriveAccess_away (ha : arrived s k = some p) (hb : p.body = .access off op user boost) (hr : outsideState s p ≠ .running)
    (hk : outsideState s p ≠ .killed) : (arriveAccess s k fun _ => true) = .next (s.refuse k 0) := by
  simp only [arriveAccess, ha, hb, Bool.not_true, Bool.false_eq_true, if_false]

end AccessArrival

/-- Settles O38: by where the access comes from, by the state of the husk, and by the answer of its home. -/
theorem accessesArePerformedAtTheirHome : Obligations.AccessesArePerformedAtTheirHome := by
  unfold Obligations.AccessesArePerformedAtTheirHome
  refine ⟨fun s p off op user boost _ ha hb => ?_, fun p n scope v c ws op line age k => ?_⟩
  · simp only [exec_accessEvent ha hb]
    refine ⟨fun hown => ?_, fun chip core tag hrem => ⟨arriveAccess_killed ha hb, arriveAccess_away ha hb, fun hrun => ?_⟩⟩
    · have hgo := arriveAccess_running ha hb (outsideState_of_own hown) rfl
      simpa only [hown, asker_of_own hown, Option.isSome_none, Bool.false_eq_true, if_false] using hgo
    · have hgo := arriveAccess_running ha hb hrun rfl
      simpa only [hrem, asker_of_remote hrem, Option.isSome_some, if_true] using hgo
  · exact ⟨rfl, rfl, rfl, rfl, rfl, rfl, rfl, rfl, rfl, rfl, rfl, rfl, rfl, rfl, rfl⟩

end Sys2Proof.Machine
end

section
/-!
SUPPORT. What else arrives at a home: code, far stores, group deliveries, stop notices (spec/02 R14 to R24, spec/05 R80, R85).
-/

namespace Sys2Proof.Machine

open Sys2Proof

@[simp] theorem State.answer_mem (s : State) (home : Nat) (q : Asker) (a : Answer) : (s.answer home q a).mem = s.mem := by
  cases q <;> cases a <;> rfl

@[simp] theorem replyTo_mem (s : State) (p : Packet) (a : Answer) : (replyTo s p a).mem = s.mem := by
  unfold replyTo
  split
  · exact State.answer_mem ..
  · rfl

theorem arriveCode_mem (s : State) (p : Packet) (off : Nat) (line : Line) :
    (arriveCode s p off line).mem = setBytesMem s.mem (istoreKey p.dst (64 * (off / 64))) (bytesOf line.toNat 64) := by
  simp only [arriveCode, replyTo_mem, setBytes_mem, State.modTile_mem]

/-- The line that has arrived is the one that its store holds. -/
theorem istoreLine_arriveCode (s : State) {p : Packet} {off : Nat} (line : Line) (hd : p.dst < numTiles) (ho : off < 65536) :
    istoreLine (arriveCode s p off line) p.dst (off / 64) = line := by
  have hk : istoreKey p.dst (64 * (off / 64)) + 64 ≤ memEnd := istoreKey_le_memEnd hd (by omega)
  have hno : off / 64 % 1024 = off / 64 := by omega
  rw [istoreLine, hno, getNat_of_written (arriveCode_mem s p off line) hk, show 8 * 64 = 512 from rfl,
    Nat.mod_eq_of_lt line.isLt, BitVec.ofNat_toNat, BitVec.setWidth_eq]

/-- The entry of a written row of the commutativity table. -/
theorem commut_setRow (u : Tile) (row : Nat) (lo hi : Word) {k : Nat} (hk : k < 64) :
    Sparse.get 3 (u.setRow row lo hi).commut (row * 64 + k) =
      if k < 32 then field lo (2 * k + 1) (2 * k) else field hi (2 * (k - 32) + 1) (2 * (k - 32)) := by
  rw [Tile.setRow, Sparse.get_foldl_set, if_pos hk]

/-- No waiter is retested where the tile has none. -/
theorem State.retestAt_of_none {s : State} {t : Nat} (h : (s.tile t).waiters = []) (lo hi : Nat) : s.retestAt t lo hi = s := by
  rw [State.retestAt, h]
  rfl

/-- Nor is one where many lines are retested. -/
theorem State.foldl_retestAt_of_none {α : Type} {s : State} {t : Nat} (h : (s.tile t).waiters = []) (lo hi : α → Nat) (l : List α) :
    l.foldl (fun s x => s.retestAt t (lo x) (hi x)) s = s :=
  List.foldl_fixed' (fun _ => State.retestAt_of_none h _ _) l

/-- The side word of line `k` once STOP has been set where tile `t` holds the line and the test picks it. -/
def stopSide (t : Nat) (pick : Nat → Side → Bool) (k : Nat) (o : Option Side) : Option Side :=
  if k / 2 ^ 15 = t then o.map fun x => if pick (k % 2 ^ 15 * 64) x then { x with stop := true } else x else o

/-- The side words after a stop notice where no access waits at the tile. -/
theorem stopLines_of_none {s : State} {t : Nat} (pick : Nat → Side → Bool) (hw : (s.tile t).waiters = []) :
    (stopLines s t pick).side = s.side.map fun x => (x.1, stopSide t pick x.1 x.2) := by
  refine (congrArg State.side (State.foldl_retestAt_of_none (by exact hw) _ _ _)).trans ?_
  refine List.map_congr_left fun x _ => ?_
  simp only [stopSide]
  split <;> rfl

/-- A stop notice sets STOP in the lines of the tile that its test picks, and leaves the others. -/
theorem get_stopLines_side {s : State} {t : Nat} (pick : Nat → Side → Bool) (hw : (s.tile t).waiters = []) {k : Nat}
    (hk : k / 2 ^ 15 = t) {e : Side} (he : Sparse.get none s.side k = some e) :
    Sparse.get none (stopLines s t pick).side k = some (if pick (k % 2 ^ 15 * 64) e then { e with stop := true } else e) := by
  have hnone : stopSide t pick k none = none := by simp only [stopSide, Option.map_none, ite_self]
  rw [stopLines_of_none pick hw, Sparse.get_map none (stopSide t pick) _ _ hnone, he, stopSide, if_pos hk]
  rfl

/-! ### Deliveries -/

section Deliveries
variable {s : State} {p : Packet}

/-- A delivery of a core of this package is answered by a reply. -/
theorem delivered_of_own (h : p.remote = none) (a : Answer) : delivered s p a = replyTo s p a := by
  rw [delivered, h]

/-- A group delivery of a core of this package at one member: a plain store with its task's mode and boost, and its answer. -/
theorem deliverMember_of_own {k off : Nat} {op : MemOp} {user boost strong : Bool} {r : State × Answer} (hk : s.packet k = some p)
    (hb : p.body = .multicast off op user boost strong) (hown : p.remote = none)
    (hp : performAt (s.drop k) p.dst off op (.core p.src p.tag 0) user boost none = r) (he : r.2 ≠ .fault .eccu) :
    deliverMember s k = replyTo r.1 p (groupFault r.2) := by
  obtain ⟨⟩ := p
  subst hb
  simp only [deliverMember, hk, outsideState_of_own hown, asker_of_own hown, hp]
  rw [if_neg (by decide), delivered_of_own hown]

/-- A group delivery of a core of this package is performed alone, a strong one with all its siblings once each of them has arrived. -/
theorem exec_multicastDelivery_of_own {off : Nat} {op : MemOp} {user boost strong : Bool} {ps : List Packet}
    (ha : arrived s s.sel = some p) (hb : p.body = .multicast off op user boost strong)
    (hps : ps = if strong then siblings s p else [p]) (hown : ∀ q ∈ ps, q.remote = none)
    (harr : ∀ q ∈ ps, (arrived s q.id).isSome = true) :
    exec .multicastDelivery s = .next (ps.foldl (fun s q => deliverMember s q.id) s) := by
  show execMulticastDelivery s = _
  have hrun : (ps.any fun q => outsideState s q != .running && outsideState s q != .killed) = false := by
    rw [List.any_eq_false]
    intro q hq
    rw [outsideState_of_own (hown q hq)]
    decide
  have hall : (ps.all fun q => (arrived s q.id).isSome) = true := List.all_eq_true.mpr harr
  simp only [execMulticastDelivery, ha, hb, ← hps, hrun, hall, Bool.false_eq_true, Bool.not_true, if_false]

/-- The deliveries of one store have one origin. -/
theorem remote_of_sibling {q : Packet} (h : q ∈ siblings s p) : q.remote = p.remote := by
  simp only [siblings, List.mem_filter, Bool.and_eq_true, beq_iff_eq] at h
  obtain ⟨_, ⟨_, hremote⟩, _⟩ := h
  exact hremote

theorem exec_mirrorDelivery_of_own {off : Nat} {line : Line} {age : BitVec 32} {boost : Bool} (ha : arrived s s.sel = some p)
    (hb : p.body = .mirror off line age boost) (hown : p.remote = none) :
    exec .mirrorDelivery s = .next (replyTo (applyMirror (s.drop s.sel) p.dst off line age boost).1 p
      (applyMirror (s.drop s.sel) p.dst off line age boost).2) := by
  show execMirrorDelivery s = _
  simp only [execMirrorDelivery, ha, hb, outsideState_of_own hown, delivered_of_own hown]

end Deliveries

section Mirror
variable (s : State) (t off : Nat) (line : Line) (age : BitVec 32) (boost : Bool)

theorem applyMirror_of_unstamped (h : s.sideOf t off = none) : applyMirror s t off line age boost = (s, .fault .stawr) := by
  rw [applyMirror, h]

theorem applyMirror_of_stamped {e : Side} (h : s.sideOf t off = some e) : applyMirror s t off line age boost =
    if (s.tile t).touches (·.boost) off 64 && !boost then (s, .fault .boostwr)
    else if !e.mir then (s, .fault .stawr)
    else if ageAtLeast age e.age then
      (((s.putSlice t off (bytesOf line.toNat 64)).setSide t off (some { e with age := age, stop := false })).retestAt t off (off + 64), .done)
    else (s, .done) := by
  rw [applyMirror, h]

end Mirror

section FarStore
variable {s : State} {p : Packet} {va : Word} {op : MemOp} {n : Nat} {r : State × Option Leaf}

/-- A far store to a page that is not mapped for its tenant, or that it may not write, answers FARPAGE. -/
theorem exec_farStoreArrival_fails (ha : arrived s s.sel = some p) (hb : p.body = .farStore n va op)
    (hr : translate (s.drop s.sel) n (field va 47 0) = r) (hl : ∀ l, r.2 = some l → l.wr = false) :
    exec (.farStoreArrival (.pkt s.sel)) s = .next (replyTo r.1 p (.fault .farpage)) := by
  show execFarStoreArrival (.pkt s.sel) s = _
  obtain ⟨s1, l⟩ := r
  cases l with
  | none => simp only [execFarStoreArrival, ha, hb, hr]
  | some l => simp only [execFarStoreArrival, ha, hb, hr, hl l rfl, Bool.not_false, if_true]

theorem exec_farStoreArrival_store {l : Leaf} {m : Nat} {v : Word} (ha : arrived s s.sel = some p)
    (hb : p.body = .farStore n va (.store m v)) (hr : translate (s.drop s.sel) n (field va 47 0) = r) (hl : r.2 = some l)
    (hw : l.wr = true) (hbad : r.1.farPartBad (l.key + va.toNat % 4096) m = false) :
    exec (.farStoreArrival (.pkt s.sel)) s
      = .next (replyTo (r.1.putFar (l.key + va.toNat % 4096) (bytesOf v.toNat m)) p .done) := by
  show execFarStoreArrival (.pkt s.sel) s = _
  obtain ⟨s1, _⟩ := r
  cases hl
  simp only [execFarStoreArrival, ha, hb, hr, hw, hbad, Bool.not_true, Bool.false_eq_true, if_false]

theorem exec_farStoreArrival_block {l : Leaf} {ws : List Word} (ha : arrived s s.sel = some p)
    (hb : p.body = .farStore n va (.storeBlock ws)) (hr : translate (s.drop s.sel) n (field va 47 0) = r) (hl : r.2 = some l)
    (hw : l.wr = true) :
    exec (.farStoreArrival (.pkt s.sel)) s = .next (replyTo (r.1.putFar (l.key + va.toNat % 4096) (wordsBytes ws)) p .done) := by
  show execFarStoreArrival (.pkt s.sel) s = _
  obtain ⟨s1, _⟩ := r
  cases hl
  simp only [execFarStoreArrival, ha, hb, hr, hw, Bool.not_true, Bool.false_eq_true, if_false]

end FarStore

/-- Settles O39, delivery by delivery: the event reads the packet's body, and what it leaves is that of the delivery's own operation. -/
theorem deliveriesAreAppliedAtTheirHome : Obligations.DeliveriesAreAppliedAtTheirHome := by
  unfold Obligations.DeliveriesAreAppliedAtTheirHome
  refine ⟨?code, ?commut, ?far, ?plain, ?strong, ?member, ?mirror, ?mirrorTests, ?stop, ?stopLines⟩
  case code =>
    intro s p off line ha hb
    refine ⟨?_, istoreLine_arriveCode _ line⟩
    show execRemoteAccessArrival (.pkt s.sel) s = _
    simp only [execRemoteAccessArrival, ha, hb]
  case commut =>
    intro s p row lo hi ha hb
    refine ⟨?_, fun u k => commut_setRow u row lo hi⟩
    show execRemoteAccessArrival (.pkt s.sel) s = _
    simp only [execRemoteAccessArrival, ha, hb]
  case far =>
    intro s p va op n ha hb
    refine ⟨fun hnone => exec_farStoreArrival_fails ha hb rfl (by simp [hnone]), fun l hl => ⟨fun hw => ?_, ?_, ?_⟩⟩
    · exact exec_farStoreArrival_fails ha hb rfl fun l' hl' => by rw [hl] at hl'; cases hl'; exact hw
    · intro m v hw hop hbad
      exact exec_farStoreArrival_store ha (hop ▸ hb) rfl hl hw hbad
    · intro ws hw hop
      exact exec_farStoreArrival_block ha (hop ▸ hb) rfl hl hw
  case plain =>
    intro s p off op user boost ha hb hown r he
    have hid := id_of_arrived ha
    rw [exec_multicastDelivery_of_own ha hb rfl (by simpa using hown) (by simp [hid, ha])]
    simp only [Bool.false_eq_true, if_false, List.foldl_cons, List.foldl_nil, hid]
    rw [deliverMember_of_own (packet_of_arrived ha) hb hown rfl he]
  case strong =>
    intro s p off op user boost ha hb hown harr
    exact exec_multicastDelivery_of_own ha hb rfl (fun q hq => (remote_of_sibling hq).trans hown) harr
  case member =>
    intro s q off op user boost strong hq hb hown r he
    exact deliverMember_of_own hq hb hown rfl he
  case mirror =>
    intro s p off line age boost ha hb hown
    exact exec_mirrorDelivery_of_own ha hb hown
  case mirrorTests =>
    intro s t off line age boost
    refine ⟨applyMirror_of_unstamped s t off line age boost, fun e he => ?_⟩
    simp only [applyMirror_of_stamped s t off line age boost he]
    refine ⟨fun hb ha => ?_, fun hb hm => ?_, fun hm hb => ⟨fun hage => ?_, fun hage => ?_⟩⟩
    · simp only [hb, ha, Bool.not_false, Bool.and_self, if_true]
    · simp only [hb, hm, Bool.false_eq_true, Bool.not_false, if_true, if_false]
    · simp only [hb, hm, hage, Bool.false_eq_true, Bool.not_true, if_true, if_false]
    · simp only [hb, hm, hage, Bool.false_eq_true, Bool.not_true, if_false]
  case stop =>
    intro s p x y g ha hb hown
    show execStopNoticeArrival s = _
    cases g <;> simp only [execStopNoticeArrival, ha, hb, outsideState_of_own hown, delivered_of_own hown]
  case stopLines =>
    intro s t k pick e hw hk he
    exact get_stopLines_side pick hw hk he

end Sys2Proof.Machine
end

section
/-!
SUPPORT. What a tile reset leaves (spec/03 R30).
-/

namespace Sys2Proof.Machine

open Sys2Proof

/-! ### A tile's keys lie between its first one and the next tile's first one -/

theorem sliceKey_in_tile (t : Nat) {off : Nat} (h : off < 2 ^ 21) : sliceKey t 0 ≤ sliceKey t off ∧ sliceKey t off < sliceKey (t + 1) 0 := by
  simp only [sliceKey]
  omega

theorem wordKey_in_tile (t : Nat) {off : Nat} (h : off < 2 ^ 21) : wordKey t 0 ≤ wordKey t off ∧ wordKey t off < wordKey (t + 1) 0 := by
  simp only [wordKey]
  omega

theorem lineKey_in_tile (t : Nat) {off : Nat} (h : off < 2 ^ 21) : lineKey t 0 ≤ lineKey t off ∧ lineKey t off < lineKey (t + 1) 0 := by
  simp only [lineKey]
  omega

theorem istoreKey_in_tile (t : Nat) {off : Nat} (h : off < 2 ^ 16) :
    istoreKey t 0 ≤ istoreKey t off ∧ istoreKey t off < istoreKey t 0 + 65536 := by
  simp only [istoreKey]
  split <;> omega

/-- The slice of another tile lies outside. -/
theorem sliceKey_in_other {t k off : Nat} (hk : k ≠ t) (h : off < 2 ^ 21) :
    ¬(sliceKey t 0 ≤ sliceKey k off ∧ sliceKey k off < sliceKey (t + 1) 0) := by
  simp only [sliceKey]
  omega

/-- The slices lie below the instruction stores. -/
theorem sliceKey_lt_istoreKey {t k off : Nat} (hk : k < numTiles) (ht : t < numTiles) (h : off < 2 ^ 21) : sliceKey k off < istoreKey t 0 := by
  simp only [sliceKey, istoreKey, if_pos ht, istoreBase]
  simp only [numTiles] at hk
  omega

/-! ### A tile reset -/

section TileReset
variable (s : State) (t : Nat)

@[simp] theorem resetTile_tile_same : (resetTile s t).tile t = (s.tile t).afterReset := State.setTile_tile_same s t _

theorem resetTile_tile_other {k : Nat} (h : k ≠ t) : (resetTile s t).tile k = s.tile k := State.setTile_tile_other s h _

/-- A tile reset zeroes the tile's slice and instruction store, and no other byte. -/
theorem getByte_resetTile (k : Nat) : getByte (resetTile s t) k =
    if istoreKey t 0 ≤ k ∧ k < istoreKey t 0 + 65536 then 0
    else if sliceKey t 0 ≤ k ∧ k < sliceKey (t + 1) 0 then 0 else getByte s k := by
  rw [getByte, getByte, resetTile, Sparse.get_clearRange, Sparse.get_clearRange]
  rfl

/-- It leaves every word of the slice full and readable, every line unstamped and unmarked. -/
theorem words_resetTile {off : Nat} (h : off < 2 ^ 21) : (resetTile s t).isEmpty t off = false ∧ (resetTile s t).eccOf t off = .good
    ∧ (resetTile s t).sideOf t off = none ∧ Sparse.get false (resetTile s t).marked (lineKey t off) = false := by
  simp only [State.isEmpty, State.eccOf, State.sideOf, resetTile, Sparse.get_clearRange, if_pos (wordKey_in_tile t h),
    if_pos (lineKey_in_tile t h), and_self]

end TileReset

/-- Settles O56: the reset state is empty tables; a tile reset clears the ranges of its tile and keeps three of its registers. -/
theorem resetLeavesTheStatedValues : Obligations.ResetLeavesTheStatedValues := by
  unfold Obligations.ResetLeavesTheStatedValues
  refine ⟨⟨reset_memOk, fun _ => rfl, fun _ _ => ⟨rfl, rfl, rfl⟩, fun _ => rfl, fun _ => rfl, rfl, rfl⟩, fun s t ht => ?_⟩
  simp only [resetTile_tile_same]
  refine ⟨?slice, ?istore, ?others, fun o => words_resetTile s t, rfl, rfl, rfl, rfl, rfl, rfl, rfl, rfl, rfl, fun _ => rfl, rfl, rfl, rfl,
    rfl, rfl, rfl, rfl, rfl, rfl, rfl, rfl, rfl, rfl, rfl, rfl, fun _ => resetTile_tile_other s t⟩
  case slice =>
    intro o ho
    rw [getByte_resetTile, if_pos (sliceKey_in_tile t ho), ite_self]
  case istore =>
    intro o ho
    rw [getByte_resetTile, if_pos (istoreKey_in_tile t ho)]
  case others =>
    intro k o hk ht' ho
    have hbelow := sliceKey_lt_istoreKey ht' ht ho
    rw [getByte_resetTile, if_neg (by omega), if_neg (sliceKey_in_other hk ho)]

end Sys2Proof.Machine
end

section
/-!
SUPPORT. Sparse tables: a read after a range of writes.
-/

namespace Sys2Proof

theorem Sparse.get_setRange {α : Type} [DecidableEq α] (d : α) (a : Nat) (v : α) (n i : Nat) : ∀ m : Sparse α,
    Sparse.get d (Sparse.setRange d m a v n) i = if a ≤ i ∧ i < a + n then v else Sparse.get d m i := by
  induction n with
  | zero => exact fun m => (if_neg (by omega)).symm
  | succ n ih =>
    intro m
    rw [Sparse.setRange, ih, Sparse.get_set]
    by_cases hlast : i = a + n
    · rw [if_neg (by omega), if_pos hlast, if_pos (by omega)]
    · rw [if_neg hlast]
      exact ite_congr (propext ⟨fun h => by omega, fun h => by omega⟩) (fun _ => rfl) fun _ => rfl

end Sys2Proof
end

section
/-!
SUPPORT. Attribute entries: SETA, its drain and its effect (spec/03 R36, R37).
-/

namespace Sys2Proof.Machine

open Sys2Proof

/-- Word `i` of the range of an attribute entry, among the words of its tile. -/
theorem wordKey_of_unit (t base i : Nat) : wordKey t (base * 4096 + 8 * i) = wordKey t (base * 4096) + i := by
  simp only [wordKey]
  omega

/-- Line `i` of it, among the lines. -/
theorem lineKey_of_unit (t base i : Nat) : lineKey t (base * 4096 + 64 * i) = lineKey t (base * 4096) + i := by
  simp only [lineKey]
  omega

theorem isEmpty_setRangeEmpty (s : State) (t base : Nat) {n i : Nat} (b : Bool) (h : i < n) :
    (setRangeEmpty s t (base * 4096) n b).isEmpty t (base * 4096 + 8 * i) = b := by
  rw [State.isEmpty, setRangeEmpty, wordKey_of_unit]
  cases b
  · exact (Sparse.get_clearRange ..).trans (if_pos (by omega))
  · exact (Sparse.get_setRange ..).trans (if_pos (by omega))

/-! ### The effect where no access waits -/

section SetaEffect
variable (s : State) (t e : Nat) (a b : Word)

/-- The side entries of the range that the entry had go. -/
def dropSides : State :=
  match Sparse.get none (s.tile t).attr e with
  | some o => { s with side := Sparse.clearRange s.side (lineKey t (o.base * 4096)) (lineKey t (o.base * 4096) + o.len * 64) }
  | none => s

/-- The entry is written, a length of zero removing it. -/
def writeAttr (n : Attr) : State := s.modTile t fun u => { u with attr := Sparse.set none u.attr e (if n.len = 0 then none else some n) }

/-- FEINIT makes the words of the range empty or full. -/
def initWords (n : Attr) : State :=
  if n.len = 0 then s
  else if n.feinit = 1 then setRangeEmpty s t (n.base * 4096) (n.len * 512) true
  else if n.feinit = 2 then setRangeEmpty s t (n.base * 4096) (n.len * 512) false
  else s

/-- The side entry that every line of a stamped range starts with: AGE0, its writer, and no stop. -/
def firstSide (n : Attr) : Side := { age := n.age0, writer := n.writer, mir := n.mirror, stop := false, ent := e }

/-- A stamped range starts with these side entries. -/
def initSides (n : Attr) : State :=
  if n.stamped && n.len != 0 then
    { s with side := Sparse.setRange none s.side (lineKey t (n.base * 4096)) (some (firstSide e n)) (n.len * 64) }
  else s

/-- The effect of SETA: these steps, then the waiting accesses of both ranges are retested. -/
theorem setaEffect_eq : setaEffect s t e a b =
    let n := attrOf a b
    let s1 := initSides (initWords (writeAttr (dropSides s t e) t e n) t n) t e n
    let s2 := if n.len = 0 then s1 else s1.retestAt t (n.base * 4096) (n.base * 4096 + n.len * 4096)
    match Sparse.get none (s.tile t).attr e with
    | some o => s2.retestAt t (o.base * 4096) ((o.base + o.len) * 4096)
    | none => s2 := rfl

@[simp] theorem dropSides_tiles : (dropSides s t e).tiles = s.tiles := by
  rw [dropSides]
  split <;> rfl

@[simp] theorem initWords_tiles (n : Attr) : (initWords s t n).tiles = s.tiles := by
  rw [initWords]
  split_ifs <;> rfl

@[simp] theorem initSides_tiles (n : Attr) : (initSides s t e n).tiles = s.tiles := by
  rw [initSides]
  split_ifs <;> rfl

@[simp] theorem initSides_empt (n : Attr) : (initSides s t e n).empt = s.empt := by
  rw [initSides]
  split_ifs <;> rfl

/-- The tile after the effect: its entry alone has changed. -/
theorem tile_initSides (n : Attr) : (initSides (initWords (writeAttr (dropSides s t e) t e n) t n) t e n).tile t =
    { s.tile t with attr := Sparse.set none (s.tile t).attr e (if n.len = 0 then none else some n) } := by
  rw [State.tile, initSides_tiles, initWords_tiles, ← State.tile, writeAttr, State.modTile_tile_same, State.tile, dropSides_tiles, ← State.tile]

theorem setaEffect_of_none (h : (s.tile t).waiters = []) :
    setaEffect s t e a b = initSides (initWords (writeAttr (dropSides s t e) t e (attrOf a b)) t (attrOf a b)) t e (attrOf a b) := by
  have hnone := congrArg Tile.waiters (tile_initSides s t e (attrOf a b))
  rw [setaEffect_eq]
  simp only [State.retestAt_of_none (hnone.trans h), ite_self]
  split <;> rfl

theorem isEmpty_initWords {n : Attr} {i : Nat} (hi : i < n.len * 512) :
    (n.feinit = 1 → (initWords s t n).isEmpty t (n.base * 4096 + 8 * i) = true)
    ∧ (n.feinit = 2 → (initWords s t n).isEmpty t (n.base * 4096 + 8 * i) = false) := by
  have hlen : n.len ≠ 0 := by omega
  refine ⟨fun hf => ?_, fun hf => ?_⟩ <;> rw [initWords, if_neg hlen, hf]
  · exact isEmpty_setRangeEmpty s t n.base true hi
  · exact isEmpty_setRangeEmpty s t n.base false hi

theorem sideOf_initSides {n : Attr} {i : Nat} (hn : n.stamped = true) (hi : i < n.len * 64) :
    (initSides s t e n).sideOf t (n.base * 4096 + 64 * i) = some (firstSide e n) := by
  have hlen : n.len ≠ 0 := by omega
  rw [initSides, if_pos (by rw [hn, bne_iff_ne.mpr hlen]; rfl), State.sideOf, lineKey_of_unit]
  exact (Sparse.get_setRange ..).trans (if_pos (by omega))

end SetaEffect

/-- SETA's checks pass and no other one drains: it waits for its drain. -/
theorem exec_seta_waits : Gives .seta (fun x s => setaChecks s x.t x.f.imm.toNat x.a x.b = .ok () ∧ (s.tile x.t).seta = none)
    (fun x s => ((addOut s x { tag := 0, who := x.w, kind := .other, slow := true }).modTile x.t fun u =>
      { u with seta := some (x.f.imm.toNat, x.a, x.b, x.seq, 0) }, .next)) := by
  refine gives_of (fun _ => formSeta) _ (fun _ => rfl) (fun _ => rfl) (fun _ _ => rfl) ?_
  rintro x s ⟨hchecks, hfree⟩
  simp only [hchecks, hfree, bind, Except.bind, Option.isSome_none, Bool.false_eq_true, if_false]
  rfl

/-- The drain is over: the effect, and the instruction's operation is finished. -/
theorem exec_setaDrainComplete {s : State} {e : Nat} {a b : Word} {tag k : Nat} {o : Outst} (h : (s.tile s.cur).seta = some (e, a, b, tag, k))
    (ho : ((setaEffect (s.modTile s.cur fun u => { u with seta := none }) s.cur e a b).tile s.cur).out.find? (fun o => o.tag = tag) = some o) :
    exec .setaDrainComplete s =
      .next (finishOut (setaEffect (s.modTile s.cur fun u => { u with seta := none }) s.cur e a b) s.cur o []) := by
  show execSetaDrainComplete s = _
  simp only [execSetaDrainComplete, h, ho]

/-- Settles O22: by the issue, the end of the drain, and the effect step by step where no access waits. -/
theorem attributesAreWrittenAfterTheirDrain : Obligations.AttributesAreWrittenAfterTheirDrain := by
  unfold Obligations.AttributesAreWrittenAfterTheirDrain
  refine ⟨exec_seta_waits, fun s e a b tag k o h ho => exec_setaDrainComplete h ho, fun s t e a b hw => ?_⟩
  simp only [setaEffect_of_none s t e a b hw]
  have hempt (i : Nat) : (initSides (initWords (writeAttr (dropSides s t e) t e (attrOf a b)) t (attrOf a b)) t e (attrOf a b)).isEmpty t i
      = (initWords (writeAttr (dropSides s t e) t e (attrOf a b)) t (attrOf a b)).isEmpty t i := by
    rw [State.isEmpty, initSides_empt, ← State.isEmpty]
  refine ⟨?entry, fun j hj => ?others, fun hf i hi => ?empty, fun hf i hi => ?full, fun hs i hi => sideOf_initSides _ _ _ hs hi⟩
  case entry => rw [tile_initSides, Sparse.get_set_same]
  case others => rw [tile_initSides, Sparse.get_set_other _ _ hj]
  case empty => exact (hempt _).trans ((isEmpty_initWords _ _ hi).1 hf)
  case full => exact (hempt _).trans ((isEmpty_initWords _ _ hi).2 hf)

end Sys2Proof.Machine
end

section
/-!
SUPPORT. The bytes that an access at its home, and the waiting accesses that it lets complete, leave alone (spec/03 R39, spec/06 R118).
-/

namespace Sys2Proof.Machine

open Sys2Proof

/-! ### Changes that leave a byte alone -/

/-- `s'` follows `s` with byte `k` as it was, and at tile `t` the same lines are stamped, no word more is unreadable, no access more waits. -/
structure Quiet (t k : Nat) (s s' : State) : Prop where
  byte : getByte s' k = getByte s k
  readable : ∀ off, s'.unreadable t off = true → s.unreadable t off = true
  stamped : ∀ off, (s'.sideOf t off).isSome = (s.sideOf t off).isSome
  waiters : ∀ y ∈ (s'.tile t).waiters, y ∈ (s.tile t).waiters

section QuietSteps
variable {t k : Nat} {s s' s'' : State}

theorem Quiet.refl (t k : Nat) (s : State) : Quiet t k s s := ⟨rfl, fun _ => id, fun _ => rfl, fun _ => id⟩

theorem Quiet.trans (h : Quiet t k s s') (h' : Quiet t k s' s'') : Quiet t k s s'' :=
  ⟨h'.byte.trans h.byte, fun off hb => h.readable off (h'.readable off hb), fun off => (h'.stamped off).trans (h.stamped off),
    fun y hy => h.waiters y (h'.waiters y hy)⟩

/-- A change of other fields is quiet. -/
theorem Quiet.of_eq (hm : s'.mem = s.mem) (he : s'.ecc = s.ecc) (hs : s'.side = s.side) (ht : s'.tiles = s.tiles) : Quiet t k s s' where
  byte := by rw [getByte, hm, getByte]
  readable off := by simp only [State.unreadable, State.eccOf, he, imp_self]
  stamped off := by rw [State.sideOf, hs, State.sideOf]
  waiters y := by simp only [State.tile, ht, imp_self]

/-- Dropping waiting accesses is quiet. -/
theorem Quiet.of_fewerWaiters {g : Tile → Tile} (hg : ∀ u, ∀ y ∈ (g u).waiters, y ∈ u.waiters) : Quiet t k s (s.modTile t g) :=
  ⟨rfl, fun _ => id, fun _ => rfl, fun y hy => hg _ y (by simpa only [State.modTile_tile_same] using hy)⟩

/-- So is a fold of quiet changes. -/
theorem Quiet.foldl {α : Type} (f : State → α → State) (hf : ∀ s a, Quiet t k s (f s a)) (l : List α) (s : State) :
    Quiet t k s (l.foldl f s) :=
  foldl_keeps (P := Quiet t k s) f l (fun _ _ _ h => h.trans (hf _ _)) s (Quiet.refl t k s)

theorem quiet_setEmpty (off : Nat) (b : Bool) : Quiet t k s (s.setEmpty t off b) := Quiet.of_eq rfl rfl rfl rfl

theorem quiet_setEcc_good (off : Nat) : Quiet t k s (s.setEcc t off .good) where
  byte := rfl
  readable o hb := by
    simp only [State.unreadable, State.eccOf, State.setEcc, Sparse.get_set] at hb ⊢
    by_cases hkey : wordKey t o = wordKey t off
    · rw [if_pos hkey] at hb
      cases hb
    · rwa [if_neg hkey] at hb
  stamped _ := rfl
  waiters _ := id

/-- A new side entry of a stamped line. -/
theorem quiet_setSide {off : Nat} (he : (s.sideOf t off).isSome = true) (e : Side) : Quiet t k s (s.setSide t off (some e)) where
  byte := rfl
  readable _ := id
  stamped o := by
    simp only [State.sideOf, State.setSide, Sparse.get_set] at he ⊢
    split
    · next hkey => rw [hkey, he]; rfl
    · rfl
  waiters _ := id

/-! ### Reads and writes of a slice -/

theorem quiet_correct (off n : Nat) : ∀ s : State, Quiet t k s (s.correct t off n) := by
  induction n with
  | zero => exact fun s => Quiet.refl t k s
  | succ n ih =>
    intro s
    rw [State.correct]
    refine Quiet.trans ?_ (ih _)
    split
    · exact quiet_setEcc_good _
    · exact Quiet.refl t k s

theorem quiet_correctFor (off : Nat) (op : MemOp) : Quiet t k s (correctFor s t off op) := by
  rw [correctFor]
  split
  · exact quiet_correct _ _ s
  · exact Quiet.refl t k s

theorem quiet_choose : Quiet t k s s.choose.2 := by
  rw [State.choose]
  split <;> exact Quiet.of_eq rfl rfl rfl rfl

theorem quiet_readSlice (off n : Nat) : Quiet t k s (readSlice s t off n).1 := by
  rw [readSlice]
  split
  · exact quiet_choose.trans (Quiet.of_eq rfl rfl rfl rfl)
  · exact Quiet.refl t k s

theorem quiet_readWords (n : Nat) : ∀ (s : State) (off : Nat), Quiet t k s (readWords s t off n).1 := by
  induction n with
  | zero => exact fun s _ => Quiet.refl t k s
  | succ n ih => exact fun s off => (quiet_readSlice off 8).trans (ih _ (off + 8))

theorem quiet_replaceWord (off : Nat) : Quiet t k s (s.replaceWord t off) := by
  rw [State.replaceWord]
  split
  · exact (quiet_setEcc_good off).trans (quiet_setEmpty off false)
  · exact quiet_setEcc_good off

theorem quiet_markLine (off : Nat) : Quiet t k s (s.markLine t off) := by
  rw [State.markLine]
  split
  · exact Quiet.refl t k s
  · exact Quiet.of_eq rfl rfl rfl rfl

theorem quiet_setBytes {key : Nat} {bs : List Byte} (h : k < key ∨ key + bs.length ≤ k) : Quiet t k s (setBytes s key bs) :=
  ⟨get_setBytesMem_other bs _ _ _ h, fun _ => id, fun _ => rfl, fun _ => id⟩

/-- A store leaves the bytes outside its own. -/
theorem quiet_putSlice {off : Nat} {bs : List Byte} (h : k < sliceKey t off ∨ sliceKey t off + bs.length ≤ k) :
    Quiet t k s (s.putSlice t off bs) := by
  refine Quiet.trans ?data (Quiet.foldl _ (fun _ _ => quiet_markLine _) _ _)
  refine Quiet.trans (Quiet.foldl _ (fun s i => ?_) _ s) (quiet_setBytes h)
  dsimp only
  split
  · exact quiet_replaceWord _
  · exact Quiet.refl t k s

theorem quiet_fillWords (n : Nat) : ∀ (s : State) (off : Nat), Quiet t k s (fillWords s t off n) := by
  induction n with
  | zero => exact fun s _ => Quiet.refl t k s
  | succ n ih => exact fun s off => (quiet_setEmpty off false).trans (ih _ (off + 8))

theorem length_wordsBytes (ws : List Word) : (wordsBytes ws).length = 8 * ws.length := by
  simp only [wordsBytes, List.length_flatten, List.map_map, Function.comp_def, length_bytesOf, List.map_const', List.sum_replicate,
    smul_eq_mul, Nat.mul_comm]

theorem quiet_countArrival (src dst path epoch : Nat) (bad : Option (Cause × Word)) : Quiet t k s (s.countArrival src dst path epoch bad) := by
  cases bad
  · exact Quiet.of_eq rfl rfl rfl rfl
  · simp only [State.countArrival]
    split <;> exact Quiet.of_eq rfl rfl rfl rfl

theorem quiet_answer (home : Nat) (q : Asker) (a : Answer) : Quiet t k s (s.answer home q a) := by
  cases q <;> cases a <;> exact Quiet.of_eq rfl rfl rfl rfl

end QuietSteps

/-! ### Waiting accesses -/

/-- No access that waits at tile `t` consumes a word in error, and none, once it completes, stores to byte `k`. -/
def Harmless (t k : Nat) (s : State) : Prop :=
  ∀ y ∈ (s.tile t).waiters, consumesHere s t y.off y.op = false
    ∧ ∀ n v, y.op = .stef n v → k < sliceKey t y.off ∨ sliceKey t y.off + n ≤ k

section Waiters
variable {t k : Nat} {s s' : State}

theorem Quiet.consumesBad (h : Quiet t k s s') {off n : Nat} (hb : s'.consumesBad t off n = true) : s.consumesBad t off n = true := by
  rw [State.consumesBad, List.any_eq_true] at hb ⊢
  obtain ⟨i, hi, hbad⟩ := hb
  exact ⟨i, hi, h.readable _ hbad⟩

/-- An access that consumes a word in error after a quiet change did so before. -/
theorem Quiet.consumesHere (h : Quiet t k s s') {off : Nat} {op : MemOp} (hb : consumesHere s' t off op = true) :
    consumesHere s t off op = true := by
  cases op
  case lda =>
    simp only [Machine.consumesHere, Bool.and_eq_true] at hb ⊢
    exact ⟨h.stamped off ▸ hb.1, h.consumesBad hb.2⟩
  all_goals
    simp only [Machine.consumesHere, Bool.and_eq_true] at hb ⊢
    exact ⟨hb.1, h.consumesBad hb.2⟩

theorem Harmless.of_quiet (h : Harmless t k s) (hq : Quiet t k s s') : Harmless t k s' := by
  intro y hy
  obtain ⟨hgood, hout⟩ := h y (hq.waiters y hy)
  exact ⟨Bool.eq_false_iff.mpr fun hb => Bool.eq_false_iff.mp hgood (hq.consumesHere hb), hout⟩

theorem mem_of_mem_eraseFirst {α : Type} (p : α → Bool) {x : α} : ∀ {l : List α}, x ∈ eraseFirst p l → x ∈ l := by
  intro l
  induction l with
  | nil => exact id
  | cons y r ih =>
    rw [eraseFirst]
    split
    · exact List.mem_cons_of_mem y
    · intro h
      rcases List.mem_cons.mp h with rfl | h
      · exact List.mem_cons_self
      · exact List.mem_cons_of_mem y (ih h)

/-- A waiting access that completes stores to its own bytes at most, and only a STEF does. -/
theorem quiet_waiterStep {w : Waiter} (hout : ∀ n v, w.op = .stef n v → k < sliceKey t w.off ∨ sliceKey t w.off + n ≤ k) {r : State × Answer}
    (h : waiterStep s t w = some r) : Quiet t k s r.1 := by
  obtain ⟨q, off, op, order⟩ := w
  cases op
  case ldf n =>
    simp only [waiterStep] at h
    split at h
    · cases h
    · cases h
      exact quiet_readSlice off n
  case ldfe n =>
    simp only [waiterStep] at h
    split at h
    · cases h
    · cases h
      exact (quiet_readSlice off n).trans (quiet_setEmpty off true)
  case stef n v =>
    simp only [waiterStep] at h
    split at h
    · cases h
      exact (quiet_putSlice (by rw [length_bytesOf]; exact hout n v rfl)).trans (quiet_setEmpty off false)
    · cases h
  case lda v thr scope =>
    cases v
    case w =>
      simp only [waiterStep] at h
      split at h
      · cases h
        exact Quiet.refl t k s
      · split at h
        · have hread := quiet_readWords (t := t) (k := k) 8 s off
          generalize readWords s t off 8 = ws at h hread
          cases h
          exact hread
        · split at h
          · cases h
            exact Quiet.refl t k s
          · cases h
    all_goals cases h
  all_goals cases h

/-- One waiting access completes, where none that could consumes a word in error. -/
theorem quiet_retestOne {lo hi : Nat} {ws : List Waiter} (hw : ∀ y ∈ ws, consumesHere s t y.off y.op = false
      ∧ ∀ n v, y.op = .stef n v → k < sliceKey t y.off ∨ sliceKey t y.off + n ≤ k)
    (h : retestOne s t lo hi ws = some s') : Quiet t k s s' := by
  induction ws with
  | nil => cases h
  | cons w ws ih =>
    obtain ⟨hgood, hout⟩ := hw w List.mem_cons_self
    have hrest := ih fun y hy => hw y (List.mem_cons_of_mem w hy)
    simp only [retestOne, hgood, Bool.false_eq_true, if_false] at h
    split at h
    · split at h
      · next s1 a hstep =>
        cases h
        refine Quiet.trans ?_ (quiet_answer t w.asker a)
        have herase : Quiet t k s (s1.modTile t fun u => { u with waiters := eraseFirst (fun x => x.order = w.order) u.waiters }) :=
          ((quiet_correctFor w.off w.op).trans (quiet_waiterStep hout hstep)).trans (Quiet.of_fewerWaiters fun _ _ => mem_of_mem_eraseFirst _)
        split
        · split
          · exact herase.trans (quiet_countArrival _ _ _ _ _)
          · exact herase
        · exact herase
      · exact hrest h
    · exact hrest h

theorem Harmless.quiet_retest {lo hi : Nat} (n : Nat) : ∀ {s : State}, Harmless t k s → Quiet t k s (retest s t lo hi n) := by
  induction n with
  | zero => exact fun _ => Quiet.refl t k _
  | succ n ih =>
    intro s h
    rw [retest]
    split
    · next s1 hone =>
      have hq := quiet_retestOne h hone
      exact hq.trans (ih (h.of_quiet hq))
    · exact Quiet.refl t k s

/-- The waiting accesses that a change lets complete leave the byte alone. -/
theorem Harmless.quiet_retestAt (h : Harmless t k s) (hq : Quiet t k s s') (lo hi : Nat) : Quiet t k s (s'.retestAt t lo hi) := by
  rw [State.retestAt]
  split
  · exact hq
  · exact hq.trans ((h.of_quiet hq).quiet_retest 65)

theorem getByte_parkAt (off : Nat) (op : MemOp) (q : Asker) : getByte (parkAt s t off op q).1 k = getByte s k := by
  rw [parkAt]
  split <;> rfl

/-! ### The access at its home -/

theorem getByte_effectAt_lda (off : Nat) (v : LdaVariant) (thr : BitVec 32) (scope : Nat) (q : Asker) :
    getByte (effectAt s t off (.lda v thr scope) q).1 k = getByte s k := by
  have hread := (quiet_readWords (t := t) (k := k) 8 s off).byte
  rcases hrw : readWords s t off 8 with ⟨s', ws⟩
  rw [hrw] at hread
  simp only [effectAt, hrw]
  split
  · rfl
  · split
    · exact hread
    · cases v
      case n => exact hread
      case w =>
        dsimp only
        split
        · rfl
        · exact getByte_parkAt off _ q
      case t =>
        dsimp only
        split <;> rfl

/-- A full/empty access: it parks, or its effect is quiet and lets others complete. -/
theorem Harmless.getByte_effectAt_fullEmpty (h : Harmless t k s) {off : Nat} {op : MemOp} (q : Asker)
    (hop : match op with
      | .ldf _ | .ldfe _ | .setf | .sete => True
      | .stf n _ | .stef n _ => k < sliceKey t off ∨ sliceKey t off + n ≤ k
      | _ => False) : getByte (effectAt s t off op q).1 k = getByte s k := by
  have hstore (n : Nat) (v : Word) (hout : k < sliceKey t off ∨ sliceKey t off + n ≤ k) :
      Quiet t k s ((s.putSlice t off (bytesOf v.toNat n)).setEmpty t off false) :=
    (quiet_putSlice (by rwa [length_bytesOf])).trans (quiet_setEmpty off false)
  cases op
  case ldf n =>
    simp only [effectAt]
    split
    · exact getByte_parkAt off _ q
    · exact (quiet_readSlice off n).byte
  case ldfe n =>
    simp only [effectAt]
    split
    · exact getByte_parkAt off _ q
    · exact (h.quiet_retestAt ((quiet_readSlice off n).trans (quiet_setEmpty off true)) _ _).byte
  case stf n v => exact (h.quiet_retestAt (hstore n v hop) _ _).byte
  case stef n v =>
    simp only [effectAt]
    split
    · exact (h.quiet_retestAt (hstore n v hop) _ _).byte
    · exact getByte_parkAt off _ q
  case setf => exact (h.quiet_retestAt (quiet_setEmpty off false) _ _).byte
  case sete => exact (h.quiet_retestAt (quiet_setEmpty off true) _ _).byte
  all_goals exact hop.elim

/-- A stamped store that finds its line stamped writes the line and lets others complete. -/
theorem Harmless.getByte_effectAt_sta (h : Harmless t k s) {off : Nat} (line : Line) (age : BitVec 32) (q : Asker)
    (hout : k < sliceKey t off ∨ sliceKey t off + 64 ≤ k) : getByte (effectAt s t off (.sta line age) q).1 k = getByte s k := by
  simp only [effectAt]
  split
  · rfl
  · next e he =>
    have hput : Quiet t k s (s.putSlice t off (bytesOf line.toNat 64)) := quiet_putSlice (by rwa [length_bytesOf])
    have hside : ((s.putSlice t off (bytesOf line.toNat 64)).sideOf t off).isSome = true := by rw [hput.stamped, he]; rfl
    exact (h.quiet_retestAt (hput.trans (quiet_setSide hside _)) _ _).byte

/-- The bytes outside those that an access stores to read as before. -/
theorem Harmless.getByte_effectAt (h : Harmless t k s) {off : Nat} {op : MemOp} (q : Asker)
    (hop : match op with
      | .load _ | .loadBlock _ | .ldf _ | .ldfe _ | .lda _ _ _ | .ageq | .setf | .sete => True
      | _ => k < sliceKey t off ∨ sliceKey t off + opLen op ≤ k) : getByte (effectAt s t off op q).1 k = getByte s k := by
  cases op
  case load n => exact (quiet_readSlice off n).byte
  case loadBlock n => exact (quiet_readWords n s off).byte
  case store n v => exact (quiet_putSlice (by rwa [length_bytesOf])).byte
  case storeBlock ws => exact (quiet_putSlice (by rwa [length_wordsBytes])).byte
  case engine ws =>
    have hput : Quiet t k s (s.putSlice t off (wordsBytes ws)) := quiet_putSlice (by rwa [length_wordsBytes])
    exact (h.quiet_retestAt (hput.trans (quiet_fillWords _ _ off)) _ _).byte
  case amo op n v c => exact ((quiet_readSlice off (n / 8)).trans (quiet_putSlice (by rwa [length_bytesOf]))).byte
  case ldf | ldfe | setf | sete => exact h.getByte_effectAt_fullEmpty q trivial
  case stf | stef => exact h.getByte_effectAt_fullEmpty q hop
  case lda v thr scope => exact getByte_effectAt_lda off v thr scope q
  case sta line age => exact h.getByte_effectAt_sta line age q hop
  case ageq =>
    simp only [effectAt]
    split <;> rfl

end Waiters

/-- Settles O19: what the access and the released waiters do is quiet outside their bytes; then the read-back of one store. -/
theorem storedBytesAreReadBackAndOthersKept : Obligations.StoredBytesAreReadBackAndOthersKept := by
  unfold Obligations.StoredBytesAreReadBackAndOthersKept
  refine ⟨fun s t off op q k hop hw => Harmless.getByte_effectAt hw q hop, fun s t off v n _ hend => ?number,
    fun s t off bs k hout => putSlice_other s t off k bs hout, fun s t off bs j hj hend => ?byte⟩
  case number => exact getNat_of_written (putSlice_mem s t off _) hend
  case byte => rw [putSlice_same s t off j bs hj (by omega), List.getD_eq_getElem bs 0 hj]

end Sys2Proof.Machine
end

section
/-!
SUPPORT. Boot (spec/20 R375).
-/

namespace Sys2Proof.Machine

open Sys2Proof

/-! ### What the loading of an image keeps -/

/-- The package is in reset or not as it was, of the same acorn, fenced tiles and husks, and every tile has its svec. -/
structure BootKept (s s' : State) : Prop where
  powered : s'.powered = s.powered
  acorn : s'.acornDigest = s.acornDigest
  fenced : s'.fenced = s.fenced
  husks : s'.husks = s.husks
  svec : ∀ k, (s'.tile k).svec = (s.tile k).svec

theorem BootKept.refl (s : State) : BootKept s s := ⟨rfl, rfl, rfl, rfl, fun _ => rfl⟩

theorem BootKept.trans {s s' s'' : State} (h : BootKept s s') (h' : BootKept s' s'') : BootKept s s'' :=
  ⟨h'.powered.trans h.powered, h'.acorn.trans h.acorn, h'.fenced.trans h.fenced, h'.husks.trans h.husks, fun k => (h'.svec k).trans (h.svec k)⟩

theorem BootKept.foldl {α : Type} (f : State → α → State) (hf : ∀ s a, BootKept s (f s a)) (l : List α) (s : State) :
    BootKept s (l.foldl f s) :=
  foldl_keeps (P := BootKept s) f l (fun _ _ _ h => h.trans (hf _ _)) s (BootKept.refl s)

theorem bootKept_replaceWord (s : State) (t off : Nat) : BootKept s (s.replaceWord t off) := by
  rw [State.replaceWord]
  split <;> exact ⟨rfl, rfl, rfl, rfl, fun _ => rfl⟩

theorem bootKept_markLine (s : State) (t off : Nat) : BootKept s (s.markLine t off) := by
  rw [State.markLine]
  split <;> exact ⟨rfl, rfl, rfl, rfl, fun _ => rfl⟩

theorem bootKept_setBytes (s : State) (key : Nat) (bs : List Byte) : BootKept s (setBytes s key bs) := ⟨rfl, rfl, rfl, rfl, fun _ => rfl⟩

theorem bootKept_putSlice (s : State) (t off : Nat) (bs : List Byte) : BootKept s (s.putSlice t off bs) := by
  refine BootKept.trans ?_ (BootKept.foldl _ (fun _ _ => bootKept_markLine _ _ _) _ _)
  refine BootKept.trans (BootKept.foldl _ (fun s i => ?_) _ s) (bootKept_setBytes _ _ _)
  dsimp only
  split
  · exact bootKept_replaceWord _ _ _
  · exact BootKept.refl s

/-- A change of a tile that keeps its svec. -/
theorem bootKept_modTile (s : State) (t : Nat) {g : Tile → Tile} (hg : ∀ u, (g u).svec = u.svec) : BootKept s (s.modTile t g) := by
  refine ⟨rfl, rfl, rfl, rfl, fun k => ?_⟩
  by_cases hk : k = t
  · rw [hk, State.modTile_tile_same, hg]
  · rw [State.modTile_tile_other s hk]

theorem bootKept_putLine (s : State) (t no : Nat) (line : Line) : BootKept s (putLine s t no line) := by
  refine BootKept.trans ?_ (bootKept_setBytes _ _ _)
  exact bootKept_modTile s t fun _ => rfl

theorem bootKept_putText (s : State) (h : Husk) (lines : List Line) : BootKept s (putText s h lines) := by
  rw [putText]
  exact BootKept.foldl _ (fun _ _ => BootKept.foldl _ (fun _ _ => bootKept_putLine _ _ _ _) _ _) _ s

/-! ### The boot -/

/-- The map of fenced tiles with the failing ones. -/
def fencedBy (failing : List Nat) (m : Sparse Bool) : Sparse Bool :=
  failing.foldl (fun m t => if t < numTiles then Sparse.set false m t true else m) m

theorem get_fencedBy {k : Nat} (hk : k < numTiles) (failing : List Nat) : ∀ m : Sparse Bool, k ∈ failing ∨ Sparse.get false m k = true →
    Sparse.get false (fencedBy failing m) k = true := by
  induction failing with
  | nil => exact fun m h => h.resolve_left (List.not_mem_nil)
  | cons t l ih =>
    intro m h
    refine ih _ ?_
    dsimp only
    by_cases hkt : k = t
    · right
      rw [← hkt, if_pos hk, Sparse.get_set_same]
    · refine h.imp (fun hmem => (List.mem_cons.mp hmem).resolve_left hkt) fun hget => ?_
      split
      · rwa [Sparse.get_set_other false m hkt]
      · exact hget

/-- Every tile of a list has its svec set. -/
def setSvecs (v : Word) (ts : List Nat) (s : State) : State := ts.foldl (fun s t => s.modTile t fun u => { u with svec := v }) s

theorem svec_setSvecs (v : Word) (k : Nat) (ts : List Nat) : ∀ s : State,
    ((setSvecs v ts s).tile k).svec = if k ∈ ts then v else (s.tile k).svec := by
  induction ts with
  | nil => exact fun s => (if_neg List.not_mem_nil).symm
  | cons t l ih =>
    intro s
    refine (ih _).trans ?_
    by_cases hl : k ∈ l
    · rw [if_pos hl, if_pos (List.mem_cons_of_mem t hl)]
    · rw [if_neg hl]
      by_cases hkt : k = t
      · rw [hkt, State.modTile_tile_same, if_pos List.mem_cons_self]
      · rw [State.modTile_tile_other s hkt, if_neg (List.not_mem_cons_of_ne_of_not_mem hkt hl)]

/-- Setting svecs changes tiles alone. -/
theorem setSvecs_eq (v : Word) (ts : List Nat) : ∀ s : State, setSvecs v ts s = { s with tiles := (setSvecs v ts s).tiles } := by
  induction ts with
  | nil => exact fun _ => rfl
  | cons t l ih => exact fun s => ih _

/-- The package after a good signature, before the supervisor's husk: failing tiles fenced, svec set. -/
def bootedPackage (b : BootImage) (s : State) : State :=
  setSvecs b.svec (List.range numTiles) { resetPackage s with
    powered := true, acornDigest := sm3 b.acorn, supDigest := imageDigest b.lines b.supervisor
    fenced := fencedBy b.failing (resetPackage s).fenced, cxlFrames := b.cxlFrames }

/-- The supervisor's husk, as the image places it. -/
def supervisorHusk (b : BootImage) : Husk := { col0 := b.col0, row0 := b.row0, width := b.width, height := b.height }

/-- The husk is defined, and the supervisor's image loaded into it. -/
def loadSupervisor (b : BootImage) (s : State) : State :=
  (putText (s.setHusk 0 (some (supervisorHusk b))) (supervisorHusk b) b.lines).putSlice ((supervisorHusk b).tileAt 0 0) 0x8000 b.supervisor

/-- The supervisor's husk has its place and its image fits it. -/
def supervisorFits (b : BootImage) (s : State) : Bool :=
  !(leavesMesh b.col0 b.row0 b.width b.height || hasFenced s (supervisorHusk b) || !imageFits b)

/-- What a good signature leaves. -/
def bootedSupervisor (b : BootImage) (s : State) : State :=
  if supervisorFits b (bootedPackage b s) then loadSupervisor b (bootedPackage b s) else bootedPackage b s

section Boot
variable {b : BootImage} (s : State)

/-- A bad signature leaves the tiles in reset. -/
theorem exec_boot_unsigned (h : Config.sm2Valid Config.bootKey (digestBytes (sm3 b.acorn)) b.signature = false) :
    exec (.boot b) s = .next { resetPackage s with powered := false, acornDigest := sm3 b.acorn } := by
  show execBoot b s = _
  simp only [execBoot, h, Bool.not_false, if_true]

/-- A good one boots the package, and the supervisor's husk where its place allows it. -/
theorem exec_boot_signed (h : Config.sm2Valid Config.bootKey (digestBytes (sm3 b.acorn)) b.signature = true) :
    exec (.boot b) s = .next (bootedSupervisor b s) := by
  show execBoot b s = _
  rw [bootedSupervisor, apply_ite Host.Outcome.next, supervisorFits]
  simp only [execBoot, h, Bool.not_true, Bool.false_eq_true, if_false, Bool.not_eq_true', ← Bool.not_eq_true, ite_not]
  rfl

end Boot

/-- Out of reset, of the image's acorn, with the image's svec in every tile and its failing tiles fenced. -/
structure Booted (b : BootImage) (s : State) : Prop where
  powered : s.powered = true
  acorn : s.acornDigest = sm3 b.acorn
  svec : ∀ k, k < numTiles → (s.tile k).svec = b.svec
  fenced : ∀ k ∈ b.failing, k < numTiles → Sparse.get false s.fenced k = true

theorem Booted.of_kept {b : BootImage} {s s' : State} (h : Booted b s) (hk : BootKept s s') : Booted b s' :=
  ⟨hk.powered.trans h.powered, hk.acorn.trans h.acorn, fun k hlt => (hk.svec k).trans (h.svec k hlt), by rw [hk.fenced]; exact h.fenced⟩

theorem booted_bootedPackage (b : BootImage) (s : State) : Booted b (bootedPackage b s) where
  powered := by rw [bootedPackage, setSvecs_eq]
  acorn := by rw [bootedPackage, setSvecs_eq]
  svec k hk := by rw [bootedPackage, svec_setSvecs, if_pos (List.mem_range.mpr hk)]
  fenced k hmem hk := by
    rw [bootedPackage, setSvecs_eq]
    exact get_fencedBy hk _ _ (.inl hmem)

theorem Booted.setHusk {b : BootImage} {s : State} (h : Booted b s) (n : Nat) (x : Option Husk) : Booted b (s.setHusk n x) :=
  ⟨h.powered, h.acorn, h.svec, h.fenced⟩

theorem bootKept_loadSupervisor (b : BootImage) (s : State) : BootKept (s.setHusk 0 (some (supervisorHusk b))) (loadSupervisor b s) :=
  (bootKept_putText _ _ _).trans (bootKept_putSlice _ _ _ _)

theorem booted_bootedSupervisor (b : BootImage) (s : State) : Booted b (bootedSupervisor b s) := by
  rw [bootedSupervisor]
  split
  · exact ((booted_bootedPackage b s).setHusk 0 _).of_kept (bootKept_loadSupervisor b _)
  · exact booted_bootedPackage b s

/-- Where the supervisor's husk has its place in the package that has booted, it is defined. -/
theorem husk_bootedSupervisor {b : BootImage} {s : State} (h : supervisorFits b (bootedSupervisor b s) = true) :
    (bootedSupervisor b s).husk 0 = some (supervisorHusk b) := by
  rw [bootedSupervisor] at h ⊢
  split at h
  · next hfits =>
    rw [if_pos hfits, State.husk, (bootKept_loadSupervisor b _).husks, ← State.husk, State.setHusk_husk_same]
  · next hfits => exact absurd h hfits

end Sys2Proof.Machine
end

section
/-!
SUPPORT. Sessions, ownership, and a host's accesses (spec/02 R27 to R29, R397, spec/20 R370 to R377, spec/21 R392).
-/

namespace Sys2Proof.Machine

open Sys2Proof

/-! ### Sessions -/

@[simp] theorem giveNonce_owner (s : State) (id : Nat) : (giveNonce s id).owner = s.owner := rfl

@[simp] theorem certify_owner (s : State) (id : Nat) (k : BitVec 512) : (certify s id k).owner = s.owner := rfl

@[simp] theorem State.freeVal_owner (s : State) : s.freeVal.2.owner = s.owner := rfl

@[simp] theorem openControl_owner (s : State) (id : Nat) : (openControl s id).owner = s.owner := by
  rw [openControl]
  split <;> rfl

/-- What a certificate's session gets: its key and the package where it is free, else a new nonce, once it is an open control session. -/
theorem exec_ownerCertificate (m : Certificate) (s : State) :
    let s1 := (openControl s m.session).freeVal
    let known := certify (giveNonce s1.2 m.session) m.session m.key
    exec (.ownerCertificate m) s = .next (if s1.2.isControl m.session then
      (if certificateOk s1.2 m s1.1.toNat then (if s.owner.isNone then { known with owner := some m.session, lease := m.lease } else known)
        else giveNonce s1.2 m.session) else s1.2) := by
  show execOwnerCertificate m s = _
  simp only [execOwnerCertificate, certify_owner, giveNonce_owner, State.freeVal_owner, openControl_owner, Bool.not_eq_true',
    ← Bool.not_eq_true, ite_not, apply_ite Host.Outcome.next]

/-- A session without a nonce of 16 bytes, or that brings back another one, has no valid certificate. -/
theorem certificateOk_of_nonce {s : State} {m : Certificate} (now : Nat)
    (h : ∀ x, s.session m.session = some x → x.nonce = m.nonce → x.nonce.length ≠ 16) : certificateOk s m now = false := by
  have hany : (s.session m.session).any (fun x => x.nonce.length == 16 && x.nonce == m.nonce) = false := by
    cases hx : s.session m.session with
    | none => rfl
    | some x =>
      rw [Option.any_some, Bool.and_eq_false_iff, beq_eq_false_iff_ne, beq_eq_false_iff_ne]
      exact (em (x.nonce = m.nonce)).elim (fun hback => .inl (h x hx hback)) .inr
  simp only [certificateOk, hany, Bool.and_false, Bool.false_and]

/-- The nonce that goes out is of 16 bytes and the session's last one from then on. -/
theorem nonce_of_giveNonce (s : State) (id : Nat) : ∃ bs : List Byte, bs.length = 16
    ∧ (giveNonce s id).outbox = s.outbox ++ [.nonce id bs]
    ∧ ∀ x ∈ (giveNonce s id).sessions, x.id = id → x.nonce = bs := by
  refine ⟨_, ?length, rfl, ?last⟩
  case length => rw [List.length_append, length_bytesOf, length_bytesOf]
  case last =>
    intro x hx hid
    obtain ⟨y, _, rfl⟩ := List.mem_map.mp hx
    split at hid
    · next h => rw [if_pos h]
    · next h => exact absurd hid h

theorem exec_ownershipHandover (m : OwnerMessage) (s : State) : exec (.ownershipHandover m) s =
    .next (if ownerSigned s m (Config.handoverBytes m.target) && (openControl s m.target).isControl m.target
      then { openControl s m.target with owner := some m.target } else s) := by
  show execOwnershipHandover m s = _
  rw [execOwnershipHandover]
  cases ownerSigned s m (Config.handoverBytes m.target) <;> rfl

/-- The owner alone binds tenant sessions. -/
theorem exec_tenantSessionBind_of_other {b : BindRequest} (n : Nat) {s : State} (h : s.owner ≠ some b.asker) :
    exec (.tenantSessionBind b n) s = .next s := by
  show execTenantSessionBind b n s = _
  simp only [execTenantSessionBind, bne_iff_ne.mpr h, Bool.true_or, if_true]

theorem exec_tenantSessionBind_of_owner {b : BindRequest} {n : Nat} {s : State} (ho : s.owner = some b.asker) (h0 : n ≠ 0) (hn : n < 256)
    (hc : s.isControl b.session = false)
    (hroom : ((s.sessions.filter fun (x : Session) => x.id != b.session).filter fun (x : Session) => x.tenant.isSome).length < 512) :
    exec (.tenantSessionBind b n) s = .next { s with
      sessions := (s.sessions.filter fun (x : Session) => x.id != b.session) ++ [{ id := b.session, tenant := some n }] } := by
  show execTenantSessionBind b n s = _
  simp only [execTenantSessionBind, ho, bne_self_eq_false, h0, decide_false, Nat.not_le.mpr hn, hc, Nat.not_le.mpr hroom, Bool.or_self,
    Bool.false_eq_true, if_false]

/-! ### Host accesses -/

section HostAccesses
variable {r : HostAccess} {s : State} {x : HostWin} {a : Nat}

theorem exec_hostRead_of_noWindow (h : windowAddr s r.session r.tenant r.window r.offset r.len = none) :
    exec (.hostRead r) s = .next (s.out (.error r.session)) := by
  show execHostRead r s = _
  simp only [execHostRead, h]

theorem exec_hostRead_of_noRead (h : windowAddr s r.session r.tenant r.window r.offset r.len = some (x, a)) (hx : x.rd = false) :
    exec (.hostRead r) s = .next (s.out (.error r.session)) := by
  show execHostRead r s = _
  simp only [execHostRead, h, hx, Bool.not_false, if_true]

theorem exec_hostRead_far {s1 : State} {ps : List (Nat × Nat)}
    (h : windowAddr s r.session r.tenant r.window r.offset r.len = some (x, a)) (hx : x.rd = true) (hr : regionOf x.base = 0x10)
    (hp : farParts s r.tenant a r.len (·.rd) = (s1, some ps)) (hgood : (ps.any fun e => s1.farBad e.1 e.2) = false) :
    exec (.hostRead r) s = .next (s1.out (.readDone r.session (ps.map fun e => getBytes s1 e.1 e.2).flatten)) := by
  show execHostRead r s = _
  simp only [execHostRead, h, hx, hr, hp, hgood, Bool.not_true, Bool.false_eq_true, if_false, Nat.reduceBEq]

/-- The words of a slice, each corrected and read. -/
def readParts (ps : List (Nat × Nat × Nat)) (s : State) : State × List Byte :=
  ps.foldl (fun (q : State × List Byte) e =>
    let s := q.1.correct e.1 (e.2.1 / 8 * 8) 1
    ((readSlice s e.1 e.2.1 e.2.2).1, q.2 ++ bytesOf (readSlice s e.1 e.2.1 e.2.2).2 e.2.2)) (s, [])

theorem exec_hostRead_slice {h : Husk} {ps : List (Nat × Nat × Nat)}
    (hw : windowAddr s r.session r.tenant r.window r.offset r.len = some (x, a)) (hx : x.rd = true) (hr : regionOf x.base = 0x00)
    (hh : reachHusk s r.tenant = .perform h) (hp : sramParts h a r.len = some ps)
    (hgood : (ps.any fun e => s.consumesBad e.1 e.2.1 e.2.2) = false) :
    exec (.hostRead r) s = .next ((readParts ps s).1.out (.readDone r.session (readParts ps s).2)) := by
  show execHostRead r s = _
  simp only [execHostRead, hw, hx, hr, hh, hp, hgood, Bool.not_true, Bool.false_eq_true, if_false, beq_self_eq_true, if_true]
  rfl

theorem exec_hostWrite_of_noWindow (h : windowAddr s r.session r.tenant r.window r.offset r.data.length = none) :
    exec (.hostWrite r) s = .next (s.out (.error r.session)) := by
  show execHostWrite r s = _
  simp only [execHostWrite, h]

theorem exec_hostWrite_of_noWrite (h : windowAddr s r.session r.tenant r.window r.offset r.data.length = some (x, a)) (hx : x.wr = false) :
    exec (.hostWrite r) s = .next (s.out (.error r.session)) := by
  show execHostWrite r s = _
  simp only [execHostWrite, h, hx, Bool.not_false, if_true]

theorem exec_hostWrite_far {s1 : State} {ps : List (Nat × Nat)}
    (h : windowAddr s r.session r.tenant r.window r.offset r.data.length = some (x, a)) (hx : x.wr = true) (hr : regionOf x.base = 0x10)
    (hp : farParts s r.tenant a r.data.length (·.wr) = (s1, some ps)) (hgood : (ps.any fun e => s1.farPartBad e.1 e.2) = false) :
    exec (.hostWrite r) s = .next (((ps.zip (cutBytes r.data (ps.map (·.2)))).foldl (fun s e => s.putFar e.1.1 e.2) s1).out
      (.done r.session)) := by
  show execHostWrite r s = _
  simp only [execHostWrite, h, hx, hr, hp, hgood, Bool.not_true, Bool.false_eq_true, if_false, Nat.reduceBEq]

section Slices
variable {h : Husk} {ps : List (Nat × Nat × Nat)}
  (hw : windowAddr s r.session r.tenant r.window r.offset r.data.length = some (x, a)) (hx : x.wr = true) (hr : regionOf x.base = 0x00)
  (hh : reachHusk s r.tenant = .perform h) (hp : sramParts h a r.data.length = some ps)
include hw hx hr hh hp

theorem exec_hostWrite_of_stamped (hs : (ps.any fun e => (s.tile e.1).touches (fun y => y.stamped || y.boost) e.2.1 e.2.2) = true) :
    exec (.hostWrite r) s = .next (s.out (.error r.session)) := by
  show execHostWrite r s = _
  simp only [execHostWrite, hw, hx, hr, hh, hp, hs, Bool.not_true, Bool.false_eq_true, if_false, beq_self_eq_true, if_true]

theorem exec_hostWrite_slice (hs : (ps.any fun e => (s.tile e.1).touches (fun y => y.stamped || y.boost) e.2.1 e.2.2) = false)
    (hgood : (ps.any fun e => decide (e.2.2 < 8) && s.consumesBad e.1 e.2.1 e.2.2) = false) :
    exec (.hostWrite r) s = .next (((ps.zip (cutBytes r.data (ps.map (·.2.2)))).foldl (fun s e =>
      (if e.1.2.2 < 8 then s.correct e.1.1 (e.1.2.1 / 8 * 8) 1 else s).putSlice e.1.1 e.1.2.1 e.2) s).out (.done r.session)) := by
  show execHostWrite r s = _
  simp only [execHostWrite, hw, hx, hr, hh, hp, hs, hgood, Bool.not_true, Bool.false_eq_true, if_false, beq_self_eq_true, if_true]

end Slices
end HostAccesses

theorem exec_hostAtomic {r : HostAtomicReq} {s s1 : State} {x : HostWin} {a key k : Nat}
    (hw : windowAddr s r.session r.tenant r.window r.offset (r.n / 8) = some (x, a)) (hrd : x.rd = true) (hwr : x.wr = true)
    (hr : regionOf x.base = 0x10) (hn : r.n = 32 ∨ r.n = 64) (ha : a % (r.n / 8) = 0)
    (hp : farParts s r.tenant a (r.n / 8) (fun l => l.sa && l.rd && l.wr) = (s1, some [(key, k)])) (hgood : s1.farBad key (r.n / 8) = false) :
    exec (.hostAtomic r) s = .next ((s1.putFar key (bytesOf (amoNew r.op r.n (getNat s1 key (r.n / 8)) r.v.toNat r.cmp.toNat) (r.n / 8))).out
      (.atomicDone r.session (BitVec.ofNat 64 (getNat s1 key (r.n / 8))))) := by
  have hwidth : (r.n == 32 || r.n == 64) = true := by
    rw [Bool.or_eq_true, beq_iff_eq, beq_iff_eq]
    exact hn
  show execHostAtomic r s = _
  simp only [execHostAtomic, hw, hrd, hwr, hr, hwidth, ha, hp, hgood, Bool.not_true, bne_self_eq_false, Bool.or_self, Bool.false_eq_true,
    if_false]

/-! ### Launches and objects -/

/-- A launch that is accepted, and whose record does not say FAILED, gives the session its handle. -/
theorem exec_hostLaunchSubmit {r : HostSubmit} {s s1 : State} {x : HostWin} {a t off : Nat} {h : Husk} {v : Word}
    (hw : windowAddr s r.session r.tenant r.window r.offset 128 = some (x, a))
    (hmine : ((s.session r.session).any fun (x : Session) => x.tenant == some r.tenant) = true) (ha : a % 64 = 0) (hq : r.queue < 16)
    (hh : reachHusk s r.tenant = .perform h) (ht : windowTile h a = some (t, off)) (hend : off + 128 ≤ 2 ^ 21)
    (hgood : s.consumesBad t off 128 = false)
    (hlen : off + recLen (recGroups (s.correct t off 16) t off) ≤ 2 ^ 21)
    (hctx : ((s.correct t off 16).tile t).inCtx off (recLen (recGroups (s.correct t off 16) t off)) = false)
    (hqueue : recField (s.correct t off 16) t off 0x26 1 = r.queue)
    (hacc : acceptLaunch (s.correct t off 16) r.tenant t off (BitVec.ofNat 64 a) = some (s1, v)) (hv : field v 63 48 ≠ 0)
    (hst : recField s1 t off 0x40 8 / 2 ^ 60 % 16 ≠ 4) : exec (.hostLaunchSubmit r) s = .next (s1.out (.handle r.session v)) := by
  have hstate : field (BitVec.ofNat 64 (recField s1 t off 0x40 8)) 63 60 = recField s1 t off 0x40 8 / 2 ^ 60 % 16 := by
    rw [field, BitVec.toNat_ofNat]
    omega
  show execHostLaunchSubmit r s = _
  simp only [execHostLaunchSubmit, hw, hmine, Nat.not_le.mpr hq, hh, ht, ha, Nat.not_lt.mpr hend, hgood, Nat.not_lt.mpr hlen, hctx, hqueue,
    hacc, hv, hstate, beq_eq_false_iff_ne.mpr hst, bne_self_eq_false, decide_false, Bool.not_true, Bool.or_self, Bool.false_eq_true, if_false]

theorem exec_objectLoad {o : ObjectFile} {s : State} {h : Husk} (hh : s.husk o.tenant = some h) (hreach : mayReach s o.session o.tenant = true)
    (hst : h.st = .running) (hno : hasLaunch s o.tenant h = false) (hlines : o.lines.length ≤ 1024) (hend : 0x8000 + o.data.length ≤ 2 ^ 21)
    (hctx : (o.data.length != 0 && (s.tile (h.tileAt 0 0)).inCtx 0x8000 o.data.length) = false)
    (hattr : (o.data.length != 0 && (s.tile (h.tileAt 0 0)).touches (fun y => y.stamped || y.boost) 0x8000 o.data.length) = false)
    (hgood : s.consumesBad (h.tileAt 0 0) (0x8000 + o.data.length / 8 * 8) (o.data.length % 8) = false) :
    exec (.objectLoad o) s = .next (((putText (s.correct (h.tileAt 0 0) (0x8000 + o.data.length / 8 * 8) (min 1 (o.data.length % 8)))
      h o.lines).putSlice (h.tileAt 0 0) 0x8000 o.data).out (.done o.session)) := by
  show execObjectLoad o s = _
  simp only [execObjectLoad, hh, hreach, hst, hno, Nat.not_lt.mpr hlines, Nat.not_lt.mpr hend, hctx, hattr, hgood, bne_self_eq_false,
    decide_false, Bool.not_true, Bool.or_self, Bool.false_eq_true, if_false]

/-- Settles O51: event by event, each as its meaning says it; a boot by its signature. -/
theorem outsideEventsComplete : Obligations.OutsideEventsComplete := by
  unfold Obligations.OutsideEventsComplete
  refine ⟨fun s => ⟨rfl, rfl, rfl, rfl, rfl⟩, ?boot, exec_ownerCertificate, ?nonces, fun m s => ⟨exec_ownershipHandover m s, rfl⟩,
    fun b n s => exec_tenantSessionBind_of_other n, fun b n s => exec_tenantSessionBind_of_owner, ?access,
    fun r s s1 x a key k => exec_hostAtomic, ?submit, fun o s h => exec_objectLoad, fun id nonce s => rfl⟩
  case boot =>
    intro b s
    cases hsig : Config.sm2Valid Config.bootKey (digestBytes (sm3 b.acorn)) b.signature with
    | false => exact ⟨_, exec_boot_unsigned s hsig, fun _ => rfl, fun h => absurd h Bool.false_ne_true⟩
    | true =>
      obtain ⟨hpowered, hacorn, hsvec, hfenced⟩ := booted_bootedSupervisor b s
      refine ⟨_, exec_boot_signed s hsig, fun h => absurd h.symm Bool.false_ne_true,
        fun _ => ⟨hpowered, hacorn, hsvec, hfenced, fun hplace => husk_bootedSupervisor ?_⟩⟩
      rw [supervisorFits, Bool.not_eq_true']
      exact hplace
  case nonces => exact fun m s id now => ⟨certificateOk_of_nonce now, nonce_of_giveNonce s id⟩
  case submit => exact fun r s s1 x a t off h v hw hmine _ => exec_hostLaunchSubmit hw hmine
  case access =>
    intro r s error
    refine ⟨exec_hostRead_of_noWindow, exec_hostWrite_of_noWindow, fun x a => ⟨fun hw => ⟨exec_hostRead_of_noRead hw, ?_, ?_⟩,
      fun hw => ⟨exec_hostWrite_of_noWrite hw, ?_, ?_⟩⟩⟩
    · exact fun s1 ps => exec_hostRead_far hw
    · exact fun h ps => exec_hostRead_slice hw
    · exact fun s1 ps => exec_hostWrite_far hw
    · exact fun h ps hx hr hh hp => ⟨exec_hostWrite_of_stamped hw hx hr hh hp, exec_hostWrite_slice hw hx hr hh hp⟩

end Sys2Proof.Machine
end

section
/-!
SUPPORT. The canonical form of the byte memory is kept by every operation on the state: one lemma per operation, in the order of the model.
What may stop yields nothing, and `Yields` says what it has when it does not stop.
-/

namespace Sys2Proof.Machine

open Sys2Proof

theorem foldl_each_memOk {α : Type} {g : State → α → State} {l : List α} (hg : ∀ s a, s.memOk = true → (g s a).memOk = true)
    {s : State} (hs : s.memOk = true) : (l.foldl g s).memOk = true := foldl_keeps g l (fun s a _ => hg s a) s hs

/-- Whatever an outcome carries has property `P`. -/
def Yields {α : Type} (P : α → Prop) (r : Except Stop α) : Prop := ∀ a, r = .ok a → P a

theorem yields_ok {α : Type} {P : α → Prop} {a : α} (h : P a) : Yields P (.ok a) := fun _ e => by cases e; exact h

theorem yields_pure {α : Type} {P : α → Prop} {a : α} (h : P a) : Yields P (pure a) := yields_ok h

theorem yields_error {α : Type} {P : α → Prop} {z : Stop} : Yields P (.error z : Except Stop α) := fun _ e => by cases e

theorem yields_bind {α β : Type} {P : α → Prop} {Q : β → Prop} {r : Except Stop α} {g : α → Except Stop β} (hr : Yields P r)
    (hg : ∀ a, P a → Yields Q (g a)) : Yields Q (r >>= g) := by
  cases r with
  | error => exact yields_error
  | ok a => exact hg a (hr a rfl)

theorem yields_check {α β : Type} {Q : β → Prop} {r : Except Stop α} {g : α → Except Stop β}
    (hg : ∀ a, Yields Q (g a)) : Yields Q (r >>= g) := yields_bind (P := fun _ => True) (fun _ _ => trivial) fun a _ => hg a

theorem yields_ite {α : Type} {P : α → Prop} {b : Prop} {_ : Decidable b} {y z : Except Stop α} (hy : Yields P y) (hz : Yields P z) :
    Yields P (if b then y else z) := by
  split
  · exact hy
  · exact hz

theorem ite_memOk {b : Prop} {_ : Decidable b} {s s' : State} (hs : s.memOk = true) (hs' : s'.memOk = true) :
    (if b then s else s').memOk = true := by
  split
  · exact hs
  · exact hs'

theorem yields_guard {β : Type} {Q : β → Prop} {b : Prop} {_ : Decidable b} {z : Stop} {y : Except Stop β}
    (hy : Yields Q y) : Yields Q (if b then (Except.error z : Except Stop Unit) >>= fun _ => y else y) := by
  split
  · exact yields_error
  · exact hy

variable {s s' : State} {t off n slot lo hi src tag beats fl i j home tenant l k id path ch no va : Nat} {x : In} {f : Fields} {w : Who}
  {a addr v pc epc tgt : Word} {c : Cause} {o : Outst} {p : Packet} {r : Req} {op : MemOp} {q : Asker} {bs : List Byte} {ws : List Word}
  {line : Line} {lb : LineBuf} {body : In → State → Except Stop (State × After)} {run : Instr → State → Host.Outcome State Fault Refusal}
variable (hs : s.memOk = true)
include hs

/-! ### Bytes, words and translation -/

theorem setTile_memOk {u : Tile} : (s.setTile t u).memOk = true := hs

theorem modTile_memOk {g : Tile → Tile} : (s.modTile t g).memOk = true := hs

theorem setHusk_memOk {h : Option Husk} : (s.setHusk n h).memOk = true := hs

theorem modHusk_memOk {g : Husk → Husk} : (s.modHusk n g).memOk = true := by
  unfold State.modHusk
  split <;> exact hs

theorem setEmpty_memOk {b : Bool} : (s.setEmpty t off b).memOk = true := hs

theorem setEcc_memOk {e : Ecc} : (s.setEcc t off e).memOk = true := hs

theorem correct_memOk : (s.correct t off n).memOk = true := memOk_of_mem (correct_mem ..) hs

theorem markLine_memOk : (s.markLine t off).memOk = true := by
  unfold State.markLine
  split <;> exact hs

theorem markLines_memOk : (s.markLines t off n).memOk = true := memOk_of_mem (markLines_mem ..) hs

theorem replaceWord_memOk : (s.replaceWord t off).memOk = true := by
  unfold State.replaceWord
  split <;> exact hs

theorem setSide_memOk {e : Option Side} : (s.setSide t off e).memOk = true := hs

theorem choose_memOk : s.choose.2.memOk = true := by
  unfold State.choose
  split <;> exact hs

theorem freeVal_memOk : s.freeVal.2.memOk = true := hs

theorem tlbRoom_memOk {m : Nat} : (tlbRoom s m).memOk = true := by
  unfold tlbRoom
  grind [choose_memOk, State.memOk]

theorem translate_memOk : (translate s tenant va).1.memOk = true := by
  unfold translate
  dsimp only
  split <;> grind [tlbRoom_memOk, choose_memOk, State.memOk]

/-! ### Packets, counts, traps and husks -/

theorem send_memOk : (s.send p).memOk = true := hs

theorem answer_memOk {a : Answer} : (s.answer home q a).memOk = true := by
  unfold State.answer
  grind [send_memOk, State.memOk]

theorem drop_memOk : (s.drop k).memOk = true := hs

theorem refuse_memOk {hint : Nat} : (s.refuse k hint).memOk = true := hs

theorem wakeWaiting_memOk : (wakeWaiting s t).memOk = true := by
  refine foldl_each_memOk (fun s i hs => ?_) hs
  split
  · split <;> exact hs
  · exact hs

theorem setAside_memOk {st : CtxState} : (setAside s t st).memOk = true := hs

theorem addLate_memOk {l : Late} : (addLate s t w l).memOk = true := hs

theorem countArrival_memOk {dst : Nat} {epoch : Nat} {bad : Option (Cause × Word)} : (s.countArrival src dst path epoch bad).memOk
    = true := by
  unfold State.countArrival
  grind [State.memOk]

theorem dropCounts_memOk : (s.dropCounts t).memOk = true := hs

theorem logTag_memOk {a : Answer} : (logTag s src home tag a).memOk = true := hs

theorem withUnits_memOk : (withUnits s n).memOk = true := hs

theorem stopOutsiders_memOk : (stopOutsiders s t).memOk = true := by
  refine foldl_each_memOk (fun s w hs => ?_) hs
  split
  · exact answer_memOk hs
  · exact hs

theorem refuseOutsider_memOk {origin : Nat} : (refuseOutsider s n origin p).memOk = true := by
  unfold refuseOutsider
  grind [countArrival_memOk, logTag_memOk, answer_memOk, withUnits_memOk]

theorem killHusk_memOk : (killHusk s n).memOk = true := by
  unfold killHusk
  split
  · exact hs
  · next h _ =>
    extract_lets +lift tiles s1 away s2 _ s3 s4 _ _ s5 s6 s7
    have h1 : s1.memOk = true := foldl_each_memOk (fun _ _ hs => stopOutsiders_memOk hs) hs
    have h2 : s2.memOk = true := foldl_each_memOk (fun s p hs => by
      split
      · exact refuseOutsider_memOk hs
      · exact hs) h1
    have h3 : s3.memOk = true := foldl_each_memOk (fun s x hs => memOk_of_mem rfl
      (foldl_each_memOk (l := x.net) (fun _ _ hs => refuseOutsider_memOk hs)
        (foldl_each_memOk (fun _ _ hs => answer_memOk hs) hs))) h2
    have h4 : s4.memOk = true := by
      unfold s4
      split <;> exact h3
    have h5 : s5.memOk = true := foldl_each_memOk (fun _ _ hs => modTile_memOk hs) h4
    have h6 : s6.memOk = true := h5
    have h7 : s7.memOk = true := by
      unfold s7
      split
      · exact resetHusk_memOk h h6
      · exact h6
    exact h7

theorem eccuKill_memOk : (eccuKill s t).memOk = true := by
  unfold eccuKill
  grind [killHusk_memOk]

theorem recheck_memOk : (recheck s t).memOk = true := by
  unfold recheck
  grind [setTile_memOk, modTile_memOk]

theorem takeTrap_memOk {late : Bool} {fdrop : Bool} {note : Bool} {supRoute : Bool} : (takeTrap s t c epc addr late fdrop note
    supRoute).memOk = true := by
  unfold takeTrap
  grind [eccuKill_memOk, recheck_memOk, setTile_memOk]

theorem returnTrap_memOk : (returnTrap s t).memOk = true := by
  unfold returnTrap
  grind [recheck_memOk, setTile_memOk]

theorem continueHandler_memOk : (continueHandler s t).memOk = true := by
  unfold continueHandler
  grind [recheck_memOk, modTile_memOk]

theorem finishOut_memOk {ws : List (Nat × Word)} : (finishOut s t o ws).memOk = true := by
  unfold finishOut
  grind [modTile_memOk, wakeWaiting_memOk]

theorem exactFault_memOk {fdrop : Bool} : (exactFault s t o c fdrop).memOk = true := by
  unfold exactFault
  grind [modTile_memOk, takeTrap_memOk]

theorem deferExact_memOk {fdrop : Bool} : (deferExact s t o c fdrop).memOk = true := hs

/-! ### Accesses at their home -/

theorem readSlice_memOk : (readSlice s t off n).1.memOk = true := by
  unfold readSlice
  grind [choose_memOk, freeVal_memOk]

theorem readWords_memOk : (readWords s t off n).1.memOk = true := by
  induction n generalizing s off with
  | zero => exact hs
  | succ n ih => exact ih (readSlice_memOk hs)

theorem waiterStep_memOk {w : Waiter} {z} (e : waiterStep s t w = some z) : z.1.memOk = true := by
  unfold waiterStep at e
  grind [readSlice_memOk, setEmpty_memOk, putSlice_memOk, readWords_memOk]

theorem correctFor_memOk : (correctFor s t off op).memOk = true := by
  unfold correctFor
  grind [correct_memOk]

theorem retestOne_memOk {ls : List Waiter} (e : retestOne s t lo hi ls = some s') : s'.memOk = true := by
  induction ls with
  | nil => cases e
  | cons w ws ih =>
    unfold retestOne at e
    split at e
    · split at e
      · next z a hz =>
        have hz := waiterStep_memOk (correctFor_memOk hs) hz
        extract_lets _ s1 s2 at e
        have h1 : s1.memOk = true := modTile_memOk hz
        have h2 : s2.memOk = true := by
          unfold s2
          split
          · split
            · exact countArrival_memOk h1
            · exact h1
          · exact h1
        cases e
        split
        · refine eccuKill_memOk ?_
          split
          · exact answer_memOk h2
          · exact h2
        · exact answer_memOk h2
      · exact ih e
    · exact ih e

theorem retest_memOk : (retest s t lo hi n).memOk = true := by
  induction n generalizing s with
  | zero => exact hs
  | succ n ih => grind [retest, retestOne_memOk]

theorem retestAt_memOk : (s.retestAt t lo hi).memOk = true := by
  unfold State.retestAt
  grind [retest_memOk]

theorem parkAt_memOk : (parkAt s t off op q).1.memOk = true := by
  unfold parkAt
  split <;> exact hs

theorem fillWords_memOk : (fillWords s t off n).memOk = true := by
  induction n generalizing s off with
  | zero => exact hs
  | succ n ih => exact ih (setEmpty_memOk hs)

theorem effectAt_memOk : (effectAt s t off op q).1.memOk = true := by
  unfold effectAt
  grind [readSlice_memOk, readWords_memOk, putSlice_memOk, retestAt_memOk, fillWords_memOk, parkAt_memOk, setEmpty_memOk, setSide_memOk]

theorem performAt_memOk {user : Bool} {active : Bool} {xy : Option Nat} : (performAt s t off op q user active xy).1.memOk = true := by
  unfold performAt
  grind [eccuKill_memOk, effectAt_memOk, correctFor_memOk]

/-! ### Operands, holds and retirement -/

theorem goOn_memOk : Yields (·.1.memOk = true) (goOn s) := yields_ok hs

theorem takeRing_memOk (e : takeRing s t slot = some s') : s'.memOk = true := by
  unfold takeRing at e
  grind [modTile_memOk, correct_memOk]

theorem moveRing_memOk (e : moveRing s t slot n = some s') : s'.memOk = true := by
  induction n generalizing s with
  | zero => cases e; exact hs
  | succ n ih => grind [moveRing, takeRing_memOk]

theorem placeRec_memOk (e : placeRec s t slot ws = some s') : s'.memOk = true := by
  unfold placeRec at e
  grind [modTile_memOk, putData_memOk]

theorem drainExtra_memOk {rs : List (List Word)} : (drainExtra s t slot rs).memOk = true := by
  induction rs generalizing s with
  | nil => exact hs
  | cons r rs ih => grind [drainExtra, placeRec_memOk, modTile_memOk]

theorem refillSlot_memOk (e : refillSlot s t slot = some s') : s'.memOk = true := by
  simp only [refillSlot, Option.map_eq_some_iff] at e
  grind [moveRing_memOk, drainExtra_memOk]

theorem dropHead_memOk (e : dropHead s t slot = some s') : s'.memOk = true := by
  unfold dropHead at e
  grind [refillSlot_memOk, modTile_memOk]

theorem popPort_memOk : Yields (·.1.memOk = true) (popPort s t w n) := by
  intro z e
  simp only [popPort, trapAt] at e
  grind [dropHead_memOk, setTile_memOk]

theorem readSrc_memOk {k : Kind} {v : Nat} : Yields (·.1.memOk = true) (readSrc s t w k v) := by
  unfold readSrc
  split
  · split
    · exact popPort_memOk hs
    · exact yields_ok hs
  · exact yields_ok hs
  · exact yields_ok hs
  · exact yields_ok hs
  · exact yields_ok hs
  · exact yields_ok hs
  · exact yields_ok hs

theorem emit_memOk {writes : List (Nat × Word)} {flags : Nat} : (emit s x l writes flags).memOk = true := hs

theorem emitBeats_memOk {parts : List (Nat × List (Nat × Word))} {flags : Nat} : (emitBeats s x parts flags).memOk = true := hs

theorem addOut_memOk : (addOut s x o).memOk = true := hs

theorem holdTask_memOk {x : Option WaitOn} : (holdTask s t w x).memOk = true := by
  unfold holdTask
  grind [modTile_memOk, setAside_memOk]

theorem endProgram_memOk : (endProgram s t c addr).memOk = true := hs

theorem trapNow_memOk {late : Bool} {fdrop : Bool} {note : Bool} {sup : Bool} : (trapNow s t w c addr epc late fdrop note sup).memOk = true
    := by
  unfold trapNow
  grind [modTile_memOk, endProgram_memOk, takeTrap_memOk]

theorem countRefused_memOk {flag : Bool} : (countRefused s t c addr path flag).memOk = true := by
  unfold countRefused
  grind [modTile_memOk, countArrival_memOk]

theorem takeLate_memOk {l : Late} : (takeLate s t w l).memOk = true := by
  unfold takeLate
  grind [modTile_memOk, endProgram_memOk, takeTrap_memOk]

theorem takeArrayFault_memOk {c : Cause × Nat} : (takeArrayFault s t w c pc).memOk = true := by
  unfold takeArrayFault
  grind [modTile_memOk, takeTrap_memOk]

theorem countRetired_memOk {wasOpen : Bool} : (countRetired s t w wasOpen).memOk = true := hs

theorem advance_memOk {a : After} : (advance s t w f beats a).memOk = true := hs

theorem tellFollowers_memOk {guard : Bool} {a : After} : (tellFollowers s t w slot guard a).memOk = true := by
  unfold tellFollowers
  dsimp only
  split
  · split
    · exact foldl_each_memOk (fun _ _ hs => modTile_memOk hs) hs
    · exact hs
  · exact hs

theorem retire_memOk {wasOpen : Bool} {guard : Bool} {a : After} : (retire s t w f beats wasOpen guard a).memOk = true := by
  unfold retire
  grind [tellFollowers_memOk, advance_memOk, countRetired_memOk]

theorem operands_memOk {m : Form} : Yields (·.1.memOk = true) (operands m f t w s) := yields_bind (readSrc_memOk hs) fun _ hs =>
    yields_bind (readSrc_memOk hs) fun _ hs => yields_bind (readSrc_memOk hs) fun _ hs => yields_ok hs

/-- The body of an instruction keeps the memory canonical. -/
def Keeps (body : In → State → Except Stop (State × After)) : Prop :=
  ∀ x s, s.memOk = true → Yields (·.1.memOk = true) (body x s)

theorem runBody_memOk {m : Form} (hb : Keeps body) : Yields (State.memOk · = true) (runBody m f body t w s) := yields_bind (operands_memOk
    hs) fun z hz => yields_bind (hb z.2 z.1 hz) fun _ hy => yields_ok (retire_memOk hy)

theorem addStall_memOk : (addStall s t w pc).memOk = true := hs

/-! ### Results -/

theorem resultW_memOk : (resultW x s l v fl).memOk = true := hs

theorem resultN_memOk {v : Nat} : (resultN x s l v fl).memOk = true := hs

theorem blockResult_memOk {shared : Bool} {vals : List (Nat × Word)} : (blockResult s x beats l shared vals fl).memOk = true := hs

theorem blockMap_memOk {sources : List Nat} {g : Nat → Word × Nat} : (blockMap s x beats l sources g).memOk = true := hs

/-! ### Scalar operations -/

theorem intOp_memOk {g : Nat → Nat → Nat → Nat} : Yields (·.1.memOk = true) (intOp g l x s) := yields_ok (resultN_memOk hs)

theorem startDivider_memOk : Yields (·.1.memOk = true) (startDivider x s v fl) := by
  unfold startDivider
  split
  · exact yields_error
  · exact yields_ok hs

theorem divOp_memOk {signed : Bool} {rem : Bool} : Yields (·.1.memOk = true) (divOp signed rem x s) := startDivider_memOk hs

/-! ### Floating-point operations -/

theorem floatRes_memOk {r : FR} : Yields (·.1.memOk = true) (floatRes r x s) := yields_ok (resultN_memOk hs)

/-! ### Completion, pairs and the core's own state -/

theorem fetchLine_memOk {a : Nat} : (fetchLine s a no).1.memOk = true := by
  unfold fetchLine
  grind [choose_memOk]

theorem resultLater_memOk : Yields (·.1.memOk = true) (resultLater x s v) := yields_ok hs

theorem detFinish_memOk : (detFinish s t).memOk = true := by
  unfold detFinish
  grind [modTile_memOk]

theorem dropPort_memOk : (dropPort s t n).memOk = true := by
  have hd : (s.modTile t fun u => u.setPort n none).memOk = true := modTile_memOk hs
  have hg : ∀ q, ((dropHead (s.modTile t fun u => u.setPort n none) t q).getD
      (eccuKill (s.modTile t fun u => u.setPort n none) t)).memOk = true := by
    intro q
    cases hq : dropHead (s.modTile t fun u => u.setPort n none) t q with
    | none => exact eccuKill_memOk hd
    | some s' => exact dropHead_memOk hd hq
  unfold dropPort
  dsimp only
  split
  · split
    · exact hd
    · exact hg _
  · exact hd

theorem dropPorts_memOk : (dropPorts s t w).memOk = true := by
  refine foldl_each_memOk (fun s n hs => ?_) hs
  split
  · split
    · exact dropPort_memOk hs
    · exact hs
  · exact hs

theorem endTask_memOk : (endTask s t w).memOk = true := by
  unfold endTask
  grind [modTile_memOk, dropPorts_memOk, recheck_memOk, wakeWaiting_memOk, detFinish_memOk]

theorem endRequest_memOk : (endRequest s t).memOk = true := hs

theorem sendUnlocks_memOk : (sendUnlocks s t tag).memOk = true := foldl_each_memOk (fun _ _ hs => send_memOk hs) hs

theorem commitBoost_memOk : (commitBoost s x i).memOk = true := by
  unfold commitBoost
  grind [sendUnlocks_memOk, addOut_memOk, modTile_memOk, wakeWaiting_memOk]

theorem endPair_memOk : (endPair s t).memOk = true := by
  unfold endPair
  split <;> exact hs

theorem onMate_memOk {g : Tile → Tile} : (onMate s t w g).memOk = true := by
  unfold onMate
  grind [modTile_memOk]

theorem setCore_memOk {g : Tile → Tile} : (setCore s x g).memOk = true := by
  unfold setCore
  grind [onMate_memOk, modTile_memOk]

theorem setCoreFor_memOk {g : Who → Tile → Tile} : (setCoreFor s x g).memOk = true := by
  unfold setCoreFor
  grind [onMate_memOk, modTile_memOk]

theorem mateReads_memOk {g : Tile → Word} : (mateReads s x g).memOk = true := by
  unfold mateReads
  split <;> exact hs

/-! ### Requests that leave the core -/

theorem pairLog_memOk : (pairLog s t off op a).memOk = true := by
  unfold pairLog
  split <;> exact hs

theorem pairOwn_memOk : Yields (State.memOk · = true) (pairOwn s t off op a) := by
  unfold pairOwn
  split
  · exact yields_ok hs
  · split
    · exact yields_ok hs
    · split
      · exact yields_error
      · exact yields_ok (pairLog_memOk hs)

theorem pairHold_memOk {ids : List Nat} : Yields (State.memOk · = true) (pairHold s t w ids op a) := by
  unfold pairHold
  split
  · exact yields_ok hs
  · split
    · exact yields_error
    · exact yields_ok hs

theorem accessOwn_memOk : Yields (·.1.memOk = true) (accessOwn x s r a off) := by
  unfold accessOwn
  refine yields_check fun _ => yields_bind (pairOwn_memOk hs) fun s hs => ?_
  dsimp only
  generalize hz : performAt s x.t off r.op _ _ _ _ = z
  have hp : z.1.memOk = true := hz ▸ performAt_memOk hs
  split
  · exact yields_ok hp
  · split
    · exact yields_error
    · exact yields_error
  · refine yields_ok ?_
    split <;> exact hp
  · refine yields_ok ?_
    split <;> exact hp
  · refine yields_ok ?_
    split
    · exact countArrival_memOk (modTile_memOk (addOut_memOk hp))
    · exact hp

theorem accessTile_memOk {h : Nat} : Yields (·.1.memOk = true) (accessTile x s r a h off) := by
  unfold accessTile
  dsimp only
  have hsent : (if opModifies r.op = true then s.modTile x.t fun u => u.countSent h (pathOf h (off / 64)) else s).memOk = true := by
    split <;> exact hs
  refine yields_guard ?_
  refine yields_check fun _ => ?_
  split
  · exact yields_bind (pairHold_memOk (send_memOk (addOut_memOk hsent))) fun _ hs => yields_ok hs
  · exact yields_ok (send_memOk (addOut_memOk hsent))

theorem accessRemote_memOk {chip : Nat} : Yields (·.1.memOk = true) (accessRemote x s r a chip) := by
  unfold accessRemote
  dsimp only
  refine yields_guard (yields_ite ?_ ?_)
  · refine yields_check fun _ => ?_
    refine yields_check fun _ => ?_
    refine yields_guard ?_
    exact yields_ite (yields_bind (pairHold_memOk (setTile_memOk hs)) fun _ hs => yields_ok hs) (yields_ok hs)
  · refine yields_check fun _ => ?_
    refine yields_check fun _ => ?_
    refine yields_guard ?_
    exact yields_ite (yields_bind (pairHold_memOk (setTile_memOk hs)) fun _ hs => yields_ok hs) (yields_ok hs)

theorem accessCode_memOk {h : Nat} : Yields (·.1.memOk = true) (accessCode x s r a h off ws) := by
  unfold accessCode
  dsimp only
  refine yields_guard ?_
  exact yields_bind (pairHold_memOk (send_memOk (addOut_memOk hs))) fun _ hs => yields_ok hs

theorem accessFar_memOk : Yields (·.1.memOk = true) (accessFar x s r a va) := by
  unfold accessFar
  dsimp only
  refine yields_guard ?_
  exact yields_bind (pairHold_memOk (send_memOk (addOut_memOk hs))) fun _ hs => yields_ok hs

theorem accessGroup_memOk {g : Nat} : Yields (·.1.memOk = true) (accessGroup x s r a g off) := by
  unfold accessGroup
  dsimp only
  split
  · exact yields_error
  · refine yields_guard ?_
    refine yields_guard ?_
    refine yields_check fun _ => ?_
    split
    · exact yields_bind (P := (State.memOk · = true)) (pairHold_memOk (foldl_each_memOk (fun _ _ hs => send_memOk hs)
        (ite_memOk (send_memOk (addOut_memOk (choose_memOk hs))) (addOut_memOk (choose_memOk hs))))) fun _ hs => yields_ok hs
    · exact yields_bind (P := (State.memOk · = true)) (pairHold_memOk (foldl_each_memOk (fun _ _ hs => send_memOk hs)
        (ite_memOk (send_memOk (addOut_memOk (choose_memOk hs))) (addOut_memOk (choose_memOk hs))))) fun _ hs => yields_ok hs

theorem farKill_memOk : Yields (·.1.memOk = true) (farKill s tenant) := yields_ok (killHusk_memOk hs)

theorem mcFar_memOk {aligned : Bool} : Yields (·.1.memOk = true) (mcFar x s r a aligned) := by
  unfold mcFar
  dsimp only
  refine yields_check fun _ => yields_check fun _ => yields_check fun _ => ?_
  split
  · exact yields_error
  · next m _ =>
    have h1 := translate_memOk (tenant := m.tenant) (va := a.toNat % 2 ^ 48) hs
    generalize translate s m.tenant (a.toNat % 2 ^ 48) = z1 at h1 ⊢
    have h2 : (if a.toNat % 2 ^ 48 / 4096 = (a.toNat % 2 ^ 48 + opLen r.op - 1) / 4096 then (z1.1, z1.2)
        else translate z1.1 m.tenant (a.toNat % 2 ^ 48 + opLen r.op - 1)).1.memOk = true := by
      split
      · exact h1
      · exact translate_memOk h1
    generalize (if a.toNat % 2 ^ 48 / 4096 = (a.toNat % 2 ^ 48 + opLen r.op - 1) / 4096 then (z1.1, z1.2)
        else translate z1.1 m.tenant (a.toNat % 2 ^ 48 + opLen r.op - 1)) = z2 at h2 ⊢
    have hdone : ∀ {s : State} (o : Outst) (p : Packet), s.memOk = true → Yields (·.1.memOk = true) (goOn ((addOut s x o).send p)) :=
      fun o p hs => yields_ok (send_memOk (addOut_memOk hs))
    split
    · split
      · exact yields_ite yields_error (yields_ite (farKill_memOk h2) (hdone _ _ h2))
      · exact yields_ite yields_error (yields_ite (farKill_memOk h2) (hdone _ _ h2))
      · exact yields_ite yields_error (yields_ite (farKill_memOk h2) (hdone _ _ (putFar_memOk _ _ h2)))
      · exact yields_ite yields_error (hdone _ _ (foldl_each_memOk (fun _ _ hs => putFar_memOk _ _ hs) h2))
      · exact yields_ite yields_error (yields_ite (farKill_memOk h2) (hdone _ _ (putFar_memOk _ _ h2)))
      · exact yields_error
    · exact yields_error

theorem mcSlice_memOk {aligned : Bool} : Yields (·.1.memOk = true) (mcSlice x s r a aligned) := by
  have hsend : ∀ op, Yields (·.1.memOk = true) (do
      match ← checkAddr s x.t (.store true) a aligned with
      | .sram h off => goOn ((addOut s x { r.out x a with op := some op, slow := true, status := true }).send
          { mkPacket x.t h x.seq (lineChan off) (.access off op (s.tenantOf x.t != some 0) false) with span := lineSpan off (opLen op) })
      | _ => trapAt .region a) := by
    refine fun op => yields_check fun z => ?_
    split
    · exact yields_ok hs
    · exact yields_error
  unfold mcSlice
  split
  · exact hsend _
  · exact hsend _
  · exact hsend _
  · exact yields_error

theorem access_memOk {aligned : Bool} : Yields (·.1.memOk = true) (access x s r a aligned) := by
  unfold access
  split
  · split
    · exact mcFar_memOk hs
    · exact mcSlice_memOk hs
    · exact yields_error
  · refine yields_check fun z => ?_
    split
    · split
      · split
        · exact accessOwn_memOk hs
        · exact accessTile_memOk hs
      · split
        · exact accessOwn_memOk hs
        · exact accessTile_memOk hs
    · exact accessRemote_memOk hs
    · split
      · exact accessCode_memOk hs
      · exact yields_error
    · exact accessFar_memOk hs
    · exact accessGroup_memOk hs
    · exact yields_error

/-! ### Copies -/

theorem apertureStore_memOk {wide : Bool} : Yields (·.1.memOk = true) (apertureStore x s a wide v) := by
  unfold apertureStore
  refine yields_check fun z => ?_
  split
  · refine yields_check fun _ => ?_
    split
    · exact yields_error
    · refine yields_check fun _ => yields_check fun _ => ?_
      split
      · exact yields_ok (eccuKill_memOk hs)
      · exact yields_check fun _ => yields_ok (send_memOk (addOut_memOk (correct_memOk hs)))
  · exact yields_error

theorem setChan_memOk {c : Channel} : (s.setChan ch c).memOk = true := hs

theorem chanSend_memOk {t : Template} : (chanSend s ch t j a op).memOk = true := hs

theorem chanRelease_memOk {t : Template} : (chanRelease s ch t).memOk = true := hs

theorem chanFault_memOk : (chanFault s ch c a).memOk = true := hs

theorem chanRead_memOk : (chanRead s ch j v).memOk = true := hs

theorem chanDone_memOk : (chanDone s ch j).memOk = true := hs

theorem copyMove_memOk {far : Bool} (e : copyMove s ch j far = some s') : s'.memOk = true := by
  unfold copyMove at e
  dsimp only at e
  (repeat' split at e) <;> grind [performAt_memOk, chanRead_memOk, chanFault_memOk, translate_memOk, killHusk_memOk, chanSend_memOk,
    chanDone_memOk, putFar_memOk, State.memOk]

theorem copyAnswer_memOk {ans : Answer} (e : copyAnswer s ch tag ans = some s') : s'.memOk = true := by
  unfold copyAnswer at e
  grind [chanFault_memOk, setChan_memOk, chanRead_memOk, chanDone_memOk, chanRelease_memOk]

theorem endCopy_memOk {note : Option (Cause × Word)} : (endCopy s ch note).memOk = true := by
  unfold endCopy
  grind [send_memOk, setChan_memOk]

/-! ### Memory instructions -/

theorem feAccess_memOk {dst : Dst} {aligned : Bool} : Yields (·.1.memOk = true) (feAccess x s op dst aligned) := access_memOk hs

theorem amoBody_memOk {op : AmoOp} : Yields (·.1.memOk = true) (amoBody op x s) := by
  unfold amoBody
  dsimp only
  split
  · exact yields_check fun _ => yields_check fun _ => access_memOk hs
  · exact access_memOk hs

/-! ### Stamped lines and windows -/

theorem ldaBody_memOk {v : LdaVariant} : Yields (·.1.memOk = true) (ldaBody v x s) := yields_check fun _ => access_memOk hs

/-- A store that its pair's buffer cannot take leaves the state as it is. -/
theorem pairHold_getD_memOk {ids : List Nat} : ((pairHold s t w ids op a).toOption.getD s).memOk = true := by
  cases e : pairHold s t w ids op a with
  | error => exact hs
  | ok s' => exact pairHold_memOk hs s' e

theorem deliverMirrors_memOk {g : Nat} {age : BitVec 32} {active : Bool} {held : Bool} : (deliverMirrors s t o g line age active
    held).memOk = true := by
  unfold deliverMirrors
  split
  · exact hs
  · have hsent : ∀ {s : State} {l : List (Nat × Nat × Nat)} {g : Nat × Nat × Nat → Packet}, s.memOk = true →
        (l.foldl (fun s m => s.send (g m)) s).memOk = true := fun hs => foldl_each_memOk (fun _ _ hs => send_memOk hs) hs
    refine ite_memOk (choose_memOk hs) (ite_memOk (memOk_of_mem rfl ?_) ?_)
    · exact ite_memOk (pairHold_getD_memOk (hsent (modTile_memOk (choose_memOk hs)))) (hsent (modTile_memOk (choose_memOk hs)))
    · exact ite_memOk (pairHold_getD_memOk (hsent (modTile_memOk (choose_memOk hs)))) (hsent (modTile_memOk (choose_memOk hs)))

theorem staBody_memOk {g : Option Nat} : Yields (·.1.memOk = true) (staBody g x s) := by
  unfold staBody
  dsimp only
  refine yields_check fun _ => ?_
  cases g with
  | none =>
    refine yields_ite (yields_check fun _ => ?_) ?_
    · exact yields_bind (access_memOk hs) fun _ hz => yields_ok hz
    · exact yields_bind (access_memOk hs) fun _ hz => yields_ok hz
  | some g =>
    refine yields_check fun _ => yields_ite (yields_check fun _ => ?_) ?_
    all_goals
      refine yields_bind (access_memOk hs) fun z hz => ?_
      split
      · split
        · exact yields_ite (yields_ok (deliverMirrors_memOk hz)) (yields_ok hz)
        · exact yields_ok hz
      · exact yields_ok hz

theorem endwBody_memOk {g : Option Nat} : Yields (·.1.memOk = true) (endwBody g x s) := by
  unfold endwBody
  have hsent : ∀ {s : State} {l : List Nat} {ms : List (Nat × Nat × Nat)} {g : Nat → Packet} {g' : Nat × Nat × Nat → Packet},
      s.memOk = true → (ms.foldl (fun s m => s.send (g' m)) (l.foldl (fun s m => s.send (g m)) s)).memOk = true :=
    fun hs => foldl_each_memOk (fun _ _ hs => send_memOk hs) (foldl_each_memOk (fun _ _ hs => send_memOk hs) hs)
  split
  · exact yields_error
  · dsimp only
    cases g with
    | none =>
      refine yields_check fun _ => yields_check fun _ => yields_ok (ite_memOk (memOk_of_mem rfl ?_) ?_)
      · exact hsent (addOut_memOk hs)
      · exact hsent (addOut_memOk hs)
    | some g =>
      refine yields_check fun _ => yields_check fun _ => yields_ok (ite_memOk (memOk_of_mem rfl ?_) ?_)
      · exact hsent (addOut_memOk (choose_memOk hs))
      · exact hsent (addOut_memOk (choose_memOk hs))

theorem setRangeEmpty_memOk {b : Bool} : (setRangeEmpty s t off n b).memOk = true := hs

theorem setaEffect_memOk {e : Nat} {b : Word} : (setaEffect s t e a b).memOk = true := by
  unfold setaEffect
  grind [modTile_memOk, setRangeEmpty_memOk, retestAt_memOk, State.memOk]

/-! ### Arrivals at a home and at the gateway -/

theorem countPacket_memOk {bad : Option (Cause × Word)} : (countPacket s p bad).memOk = true := by
  unfold countPacket
  split
  · exact hs
  · split
    · exact countArrival_memOk hs
    · exact foldl_each_memOk (fun _ _ hs => countArrival_memOk hs) hs

theorem replyTo_memOk {a : Answer} : (replyTo s p a).memOk = true := by
  unfold replyTo
  grind [answer_memOk, send_memOk]

theorem remoteUnit_memOk : (remoteUnit s p).memOk = true := by
  unfold remoteUnit
  grind [setTile_memOk, withUnits_memOk]

theorem keepTag_memOk {a : Answer} : (keepTag s p a).memOk = true := by
  unfold keepTag
  split <;> exact hs

theorem answered_memOk {modifies : Bool} {a : Answer} : (answered s p off modifies a).memOk = true := by
  unfold answered
  grind [countPacket_memOk, keepTag_memOk, replyTo_memOk, remoteUnit_memOk]

theorem arriveCode_memOk : (arriveCode s p off line).memOk = true := by
  unfold arriveCode
  grind [modTile_memOk, replyTo_memOk, setBytes_memOk]

theorem splitReplies_memOk {a : Answer} {ms : List Merged} : (splitReplies s src a ms v).memOk = true := by
  induction ms generalizing s v with
  | nil => exact hs
  | cons m ms ih => exact ih (send_memOk hs)

theorem refuseFlag_memOk : (refuseFlag s p c).memOk = true := by
  unfold refuseFlag
  grind [countPacket_memOk, remoteUnit_memOk, replyTo_memOk, keepTag_memOk, State.memOk]

theorem applyFlag_memOk : (applyFlag s p).memOk = true := by
  unfold applyFlag
  grind [answered_memOk, refuseFlag_memOk, performAt_memOk, State.memOk]

theorem ownFlag_memOk : Yields (·.1.memOk = true) (ownFlag s p) := by
  unfold ownFlag
  dsimp only
  split <;> exact yields_ok (applyFlag_memOk hs)

theorem flagUnit_memOk {enters : Bool} : (flagUnit s p enters).memOk = true := by
  unfold flagUnit
  split <;> exact hs

theorem delivered_memOk {a : Answer} : (delivered s p a).memOk = true := by
  unfold delivered
  grind [replyTo_memOk, logTag_memOk]

theorem deliverMember_memOk : (deliverMember s k).memOk = true := by
  unfold deliverMember
  grind [drop_memOk, delivered_memOk, performAt_memOk]

theorem applyMirror_memOk {age : BitVec 32} {boost : Bool} : (applyMirror s t off line age boost).1.memOk = true := by
  unfold applyMirror
  grind [putSlice_memOk, retestAt_memOk, setSide_memOk]

theorem stopLines_memOk {pick : Nat → Side → Bool} : (stopLines s t pick).memOk = true := foldl_each_memOk (fun _ _ hs => retestAt_memOk
    hs) hs

theorem gateRefuse_memOk {g : GatewayReq} {x : Nat} {y : Nat} {counted : Bool} : (gateRefuse s g x y off counted).memOk = true := by
  unfold gateRefuse
  grind [logTag_memOk, countArrival_memOk, answer_memOk, withUnits_memOk]

theorem gateGroup_memOk {g : GatewayReq} {group : Nat} {body : Nat → Body} {chan : Nat → Option Nat} {span : Nat} : (gateGroup s g group
    body chan span).memOk = true := by
  unfold gateGroup
  dsimp only
  split
  · exact answer_memOk hs
  split
  · exact hs
  split
  · exact answer_memOk hs
  split
  · exact answer_memOk hs
  refine foldl_each_memOk (fun _ _ hs => send_memOk hs) ?_
  split
  · exact answer_memOk hs
  · exact hs

theorem gateOne_memOk {g : GatewayReq} {x : Nat} {y : Nat} {body : Body} : (gateOne s g x y off op body).memOk = true := by
  unfold gateOne
  grind [answer_memOk, send_memOk, gateRefuse_memOk]

/-! ### Answers -/

theorem takeReply_memOk {r : Reply} {z} (e : takeReply s r = some z) : z.1.memOk = true := by
  unfold takeReply at e
  grind [drop_memOk]

theorem releaseBehind_memOk : (releaseBehind s t o).memOk = true := by
  unfold releaseBehind
  split <;> exact hs

theorem unitsBack_memOk : (unitsBack s t o).memOk = true := by
  unfold unitsBack
  grind [choose_memOk, modTile_memOk, send_memOk]

theorem answerOut_memOk {ws : List (Nat × Word)} {away : Bool} : (answerOut s t o ws away).memOk = true := by
  unfold answerOut
  grind [modTile_memOk, releaseBehind_memOk, finishOut_memOk, unitsBack_memOk]

theorem exactOut_memOk {fdrop : Bool} : (exactOut s t o c a fdrop).memOk = true := by
  unfold exactOut
  grind [answerOut_memOk, exactFault_memOk, deferExact_memOk]

theorem doneOut_memOk {away : Bool} : (doneOut s t o away).memOk = true := by
  unfold doneOut
  grind [answerOut_memOk, exactOut_memOk]

theorem parkAccepted_memOk : (parkAccepted s t o).memOk = true := by
  unfold parkAccepted
  grind [countRetired_memOk, endTask_memOk]

theorem grantPush_memOk : (grantPush s t o).memOk = true := by
  unfold grantPush
  grind [pairLog_memOk, modTile_memOk, putSlice_memOk]

theorem abortAnswer_memOk : (abortAnswer s t o v).memOk = true := by
  unfold abortAnswer
  split <;> exact hs

theorem tableFault_memOk : (tableFault s t o a).memOk = true := by
  unfold tableFault
  grind [modTile_memOk, exactOut_memOk]

theorem lateOut_memOk {fdrop : Bool} {away : Bool} : (lateOut s t o c a fdrop away).memOk = true := by
  unfold lateOut
  grind [wakeWaiting_memOk, answerOut_memOk, addLate_memOk]

theorem reportFault_memOk {away : Bool} : (reportFault s t o c away).memOk = true := by
  unfold reportFault
  grind [endProgram_memOk, answerOut_memOk, exactOut_memOk, modTile_memOk, lateOut_memOk]

/-! ### Control transfers -/

theorem checkedJump_memOk : Yields (·.1.memOk = true) (checkedJump x s tgt) := by
  unfold checkedJump
  split
  · exact yields_error
  · dsimp only
    split
    · exact yields_error
    · exact yields_ok (fetchLine_memOk hs)

theorem plainJump_memOk : Yields (·.1.memOk = true) (plainJump s tgt) := by
  unfold plainJump
  split
  · exact yields_error
  · exact yields_ok hs

theorem transfer_memOk {own : Except Stop (State × After)} (ho : Yields (·.1.memOk = true) own) :
    Yields (·.1.memOk = true) (transfer x s own) := by
  unfold transfer
  split
  · split
    · exact yields_ok hs
    · exact yields_ok hs
  · exact ho

theorem doneBody_memOk : Yields (·.1.memOk = true) (doneBody x s) := by
  have hb : ∀ i, (commitBoost s x i).memOk = true := fun i => commitBoost_memOk hs
  unfold doneBody
  refine yields_check fun _ => yields_guard (yields_guard ?_)
  extract_lets s1 s2 s3 s4 ending
  have h3 : s3.memOk = true := modTile_memOk (countRetired_memOk (tellFollowers_memOk hs))
  have h4 : s4.memOk = true := ite_memOk (endPair_memOk h3) h3
  have hending : Yields (·.1.memOk = true) (ending ()) := by
    have h5 := endTask_memOk (t := x.t) (w := x.w) h4
    simp only [ending]
    generalize endTask s4 x.t x.w = s5 at h5 ⊢
    exact yields_ite (yields_pure (endRequest_memOk h3)) (yields_pure h5)
  clear_value ending
  generalize commitBoost s x = boosted at hb ⊢
  split
  next i j _ _ =>
    refine yields_ite (yields_guard (yields_pure ?_)) hending
    exact modTile_memOk (hb i)
  · exact hending

/-! ### Tasks and messages -/

theorem sendOut_memOk {h : Nat} : Yields (·.1.memOk = true) (sendOut x s h off ws) := by
  unfold sendOut
  dsimp only
  refine yields_guard ?_
  exact yields_check fun z => yields_ok (send_memOk (addOut_memOk (modTile_memOk (ite_memOk (modTile_memOk (setTile_memOk hs))
    (setTile_memOk hs)))))

theorem waitAside_memOk : (waitAside s x n).memOk = true := hs

theorem claimPort_memOk : Yields (State.memOk · = true) (claimPort s t w n) := by
  unfold claimPort
  split
  · split
    · exact yields_ok (onMate_memOk (dropPort_memOk hs))
    · exact yields_error
  · exact yields_ok hs

/-! ### Queues, messages and ports -/

theorem sendGrant_memOk {g : Grant} : (sendGrant s g).memOk = true := by
  unfold sendGrant
  split <;> exact hs

theorem grantDue_memOk {g : Grant} : (grantDue s g).memOk = true := by
  unfold grantDue
  grind [modTile_memOk, setTile_memOk, sendGrant_memOk]

theorem occupy_memOk : (occupy s t n).memOk = true := hs

theorem putPayload_memOk : (putPayload s t k ws).memOk = true := by
  induction ws generalizing s k with
  | nil => exact hs
  | cons w ws ih => exact ih (retestAt_memOk (setEmpty_memOk (putSlice_memOk _ _ _ hs)))

theorem refuseMsg_memOk {m : Msg} : (refuseMsg s t m c).1.memOk = true := by
  unfold refuseMsg
  grind [countArrival_memOk, grantDue_memOk]

theorem deposit_memOk {m : Msg} {z} (e : deposit s t m = some z) : z.1.memOk = true := by
  unfold deposit at e
  grind [refuseMsg_memOk, countArrival_memOk, putPayload_memOk, modTile_memOk]

/-! ### Launches, slots and groups -/

theorem updateRec_memOk {l : Launch} {status : Word} : (updateRec s l status).memOk = true := by
  unfold updateRec
  grind [writeRec_memOk]

theorem refresh_memOk {q : Nat} : (refresh s n q).memOk = true := by
  unfold refresh
  split
  · exact foldl_each_memOk (fun _ _ hs => updateRec_memOk hs) hs
  · exact hs

theorem refreshAll_memOk : (refreshAll s n).memOk = true := foldl_each_memOk (fun _ _ hs => refresh_memOk hs) hs

theorem modHead_memOk {q : Nat} {g : Launch → Launch} : (modHead s n q g).memOk = true := by
  unfold modHead
  grind [modHusk_memOk]

theorem evalHead_memOk {q : Nat} {which : Launch → List Nat} : (evalHead s n q which).memOk = true := by
  unfold evalHead
  split
  · exact hs
  · dsimp only
    split
    · exact eccuKill_memOk hs
    · exact modHead_memOk (foldl_each_memOk (fun _ _ hs => correct_memOk hs) hs)

theorem evalAll_memOk {q : Nat} : (evalAll s n q).memOk = true := by
  unfold evalAll
  grind [evalHead_memOk]

theorem clearBoard_memOk {l : Launch} : (clearBoard s l).memOk = true := foldl_each_memOk (fun _ _ hs => writeRec_memOk _ _ _ hs) hs

theorem acceptLaunch_memOk {rec : Word} {z} (e : acceptLaunch s n t off rec = some z) : z.1.memOk = true := by
  unfold acceptLaunch at e
  grind [writeRec_memOk, setHusk_memOk, clearBoard_memOk, refresh_memOk]

theorem freeDrained_memOk : (freeDrained s k).memOk = true := by
  unfold freeDrained
  grind [State.memOk]

theorem ungroupAll_memOk {h : Husk} {c : Cohort} : (ungroupAll s h c).memOk = true := hs

theorem retireStops_memOk {h : Husk} {c : Cohort} : (retireStops s h c).memOk = true := foldl_each_memOk (fun _ _ hs => foldl_each_memOk
    (fun _ _ hs => stopLines_memOk hs) hs) hs

theorem finishLaunch_memOk {q : Nat} : (finishLaunch s n q).memOk = true := by
  unfold finishLaunch
  grind [updateRec_memOk, setHusk_memOk, send_memOk, refresh_memOk, evalAll_memOk, State.memOk]

theorem completePhase_memOk {c : Cohort} : (completePhase s c).memOk = true := foldl_each_memOk (fun _ _ hs => wakeWaiting_memOk hs) hs

/-! ### Barriers and markers -/

theorem arrive_memOk {c : Cohort} : (arrive s t n c).memOk = true := by
  unfold arrive
  grind [modTile_memOk, completePhase_memOk]

theorem sendMarkers_memOk {c : Cohort} : (sendMarkers s t c).memOk = true := modTile_memOk (foldl_each_memOk (l := s.membersOf c) (fun _ _
    hs => send_memOk hs) hs)

theorem placeWindow_memOk : (placeWindow s t n slot).memOk = true := by
  unfold placeWindow
  grind [modTile_memOk, drainExtra_memOk]

theorem handleMsg_memOk {m : Msg} : (handleMsg s t m).memOk = true := by
  unfold handleMsg
  split
  · exact send_memOk (deposit_memOk hs ‹_›)
  · exact hs

/-! ### Block operations -/

theorem block2_memOk {g : In → Nat → Nat → FR} : Yields (·.1.memOk = true) (block2 l beats g x s) := yields_ok (blockMap_memOk hs)

theorem block1_memOk {g : In → Nat → FR} : Yields (·.1.memOk = true) (block1 l beats g x s) := yields_ok (blockMap_memOk hs)

theorem block3_memOk {g : In → Nat → Nat → Nat → FR} : Yields (·.1.memOk = true) (block3 l beats g x s) := yields_ok (blockMap_memOk hs)

theorem blockW2_memOk {g : Word → Word → Word} : Yields (·.1.memOk = true) (blockW2 g x s) := yields_ok (blockMap_memOk hs)

theorem blockW1_memOk {g : Word → Word} : Yields (·.1.memOk = true) (blockW1 g x s) := yields_ok (blockMap_memOk hs)

theorem blockShift_memOk {g : Nat → Nat → Nat → Nat} : Yields (·.1.memOk = true) (blockShift g x s) := by
  unfold blockShift
  split
  · exact block1_memOk hs
  · exact block2_memOk hs

theorem startReduction_memOk {ws : List (Nat × Word)} : Yields (·.1.memOk = true) (startReduction x s ws fl) := by
  unfold startReduction
  split
  · exact yields_error
  · exact yields_ok hs

theorem blockFun_memOk {g : Fmt → Nat → FR} : Yields (·.1.memOk = true) (blockFun g x s) := block1_memOk hs

theorem runResult_memOk {shared : Bool} {vals : List (Nat × Nat × Word)} : (runResult s x beats l shared vals fl).memOk = true := hs

theorem vrandBody_memOk {inc : Bool} : Yields (·.1.memOk = true) (vrandBody inc x s) := yields_ok (emitBeats_memOk hs)

/-! ### Boosted tasks and locks -/

theorem noticeAll_memOk {reason : Nat} {ticket : BitVec 32} {ls : List Lock} : (noticeAll s home reason ticket ls).memOk = true :=
    foldl_each_memOk (fun _ _ hs => send_memOk hs) hs

theorem tableFull_memOk {reason : Nat} {ticket : BitVec 32} {ls : List Lock} : (tableFull s home reason ticket ls).memOk = true := by
  unfold tableFull
  grind [refuse_memOk, noticeAll_memOk]

theorem regrant_memOk : (regrant s t).memOk = true := by
  refine foldl_each_memOk (fun s w hs => ?_) hs
  split <;> exact hs

theorem withdrawParked_memOk : (withdrawParked s t i).memOk = true := by
  refine modTile_memOk (foldl_each_memOk (fun s e hs => foldl_each_memOk (fun s w hs => ?_) hs) hs)
  dsimp only
  split
  · exact countArrival_memOk (modTile_memOk hs)
  · exact hs

theorem withdrawDecls_memOk : (withdrawDecls s t).memOk = true := foldl_each_memOk (fun _ _ hs => regrant_memOk (modTile_memOk hs)) hs

theorem takeAbort_memOk {reason : Nat} {ticket : Nat} : (takeAbort s t i reason ticket).memOk = true := by
  unfold takeAbort
  grind [modTile_memOk, setAside_memOk, withdrawParked_memOk, withdrawDecls_memOk]

/-! ### The matrix array -/

theorem enqueue_memOk {i : Instr} : Yields (·.1.memOk = true) (enqueue x s i) := by
  unfold enqueue
  dsimp only
  refine yields_guard ?_
  exact yields_check fun _ => yields_ok hs

theorem matrixBody_memOk {i : Instr} {restore : Bool} {save : Bool} {checks : In → State → Except Stop Unit} : Yields (·.1.memOk = true)
    (matrixBody i restore save checks x s) := yields_check fun _ => yields_check fun _ => enqueue_memOk (setTile_memOk hs)

theorem mstatBody_memOk {i : Instr} : Yields (·.1.memOk = true) (mstatBody i x s) := by
  unfold mstatBody
  split
  · exact yields_error
  · exact enqueue_memOk hs

theorem modMatrix_memOk {g : Matrix → Matrix} : (modMatrix s t g).memOk = true := hs

theorem mqWrite_memOk {q : MQ} {ws : List (Nat × Word)} : (mqWrite s t q ws fl).memOk = true := hs

theorem matrixRead_memOk {h : Nat} {words : Nat} {z} (e : matrixRead s h off words = some z) : z.1.memOk = true := by
  unfold matrixRead at e
  grind [readWords_memOk, correct_memOk]

theorem readRows_memOk {stride : Word} {len : Nat} {z} (e : readRows s t a stride len n = some z) : z.1.memOk = true := by
  induction n generalizing z with
  | zero => cases e; exact hs
  | succ n ih =>
    rw [readRows] at e
    split at e
    · cases e
    · next hr =>
      dsimp only at e
      split at e
      · cases e
      · next hm =>
        cases e
        exact matrixRead_memOk (ih hr) hm

theorem arrayFaultAt_memOk {q : MQ} {fcol : Nat} {fmac : Nat} : (arrayFaultAt s t q c fcol fmac).memOk = true := by
  unfold arrayFaultAt
  grind [setTile_memOk, exactFault_memOk, deferExact_memOk, wakeWaiting_memOk]

theorem loadzStep_memOk {q : MQ} : (loadzStep s t q f).memOk = true := by
  unfold loadzStep
  grind [arrayFaultAt_memOk, mqWrite_memOk, modMatrix_memOk]

theorem mmulStep_memOk {q : MQ} : (mmulStep s t q f).memOk = true := by
  unfold mmulStep
  grind [modMatrix_memOk, choose_memOk, arrayFaultAt_memOk]

theorem mdrainStep_memOk {q : MQ} : (mdrainStep s t q f).memOk = true := hs

theorem mdrainpStep_memOk {q : MQ} : (mdrainpStep s t q f).memOk = true := foldl_each_memOk (fun _ _ hs => send_memOk hs) hs

theorem pairSave_memOk {parts : List (Nat × List Byte)} : (pairSave s t off a parts).memOk = true := by
  unfold pairSave
  split <;> exact hs

theorem saveParts_memOk {parts : Nat} : (saveParts s t a parts).memOk = true := foldl_each_memOk (fun _ _ hs => putSlice_memOk _ _ _ hs)
    (pairSave_memOk hs)

theorem restoreParts_memOk {parts : Nat} (e : restoreParts s t off parts w = some s') : s'.memOk = true := by
  unfold restoreParts at e
  extract_lets step o1 o2 o3 at e
  have hstep : ∀ o k base words g, (∀ s, o = some s → s.memOk = true) → ∀ s, step o k base words g = some s → s.memOk = true := by
    intro o k base words g ho s' e
    simp only [step] at e
    split at e
    · cases e
    · split at e
      · split at e
        · cases e
        · next hm =>
          cases e
          exact modMatrix_memOk (matrixRead_memOk (ho _ rfl) hm)
      · exact ho s' e
  have h1 := hstep (some s) 0 0 0x240 (fun m bs => restoreConfig m w bs) fun s' e => Option.some.inj e ▸ hs
  exact hstep o3 _ _ _ _ (hstep o2 _ _ _ _ (hstep o1 _ _ _ _ h1)) _ e

theorem performAlone_memOk {lead : Option (List (List Byte))} : (performAlone s t lead).memOk = true := by
  unfold performAlone
  dsimp only
  split
  · exact hs
  · next q r hq =>
    have hrows : ∀ {a b : Word} {len n : Nat} {g : List (List Byte) → Matrix → Matrix}, State.memOk (match readRows s t a b len n with
        | none => eccuKill s t
        | some (s, rows) => modMatrix (modMatrix s t (g rows)) t fun m => { m with busy := true }) = true := by
      intro a b len n g
      split
      · exact eccuKill_memOk hs
      · next hr => exact modMatrix_memOk (modMatrix_memOk (readRows_memOk hs hr))
    split
    · exact modMatrix_memOk (modMatrix_memOk hs)
    · exact hrows
    · exact hrows
    · split
      · exact modMatrix_memOk (modMatrix_memOk hs)
      · exact hrows
    · exact loadzStep_memOk hs
    · exact mmulStep_memOk hs
    · exact modMatrix_memOk (modMatrix_memOk hs)
    · exact modMatrix_memOk (modMatrix_memOk hs)
    · exact mdrainStep_memOk hs
    · exact mdrainpStep_memOk hs
    · exact modMatrix_memOk (modMatrix_memOk hs)
    · exact modMatrix_memOk (saveParts_memOk hs)
    · exact modMatrix_memOk (modMatrix_memOk (saveParts_memOk hs))
    · split
      · exact eccuKill_memOk hs
      · exact modMatrix_memOk (restoreParts_memOk hs ‹_›)
    · exact modMatrix_memOk (mqWrite_memOk hs)
    · exact modMatrix_memOk (modMatrix_memOk (mqWrite_memOk hs))
    · exact hs

omit hs in
theorem performMate_memOk (hs' : s'.memOk = true) {lead : Option (List (List Byte))} :
    (performMate s s' t lead).memOk = true := by
  unfold performMate
  split
  · dsimp only
    split
    · exact hs'
    · exact hs'
  · exact hs'

theorem performHead_memOk {lead : Option (List (List Byte))} : (performHead s t lead).memOk = true := by
  unfold performHead
  grind [performMate_memOk, performAlone_memOk]

theorem clearGang_memOk : (clearGang s t).memOk = true := hs

theorem gangStart_memOk {m : Nat} {lead : Option (Fields × List (List Byte))} : (gangStart s m lead).memOk = true := by
  unfold gangStart
  grind [clearGang_memOk, performHead_memOk]

/-! ### Control registers, eviction and restoring -/

theorem trapBody_memOk {sup : Bool} : Yields (·.1.memOk = true) (trapBody sup x s) := by
  unfold trapBody
  dsimp only
  split
  · exact yields_error
  split
  · exact yields_error
  · exact yields_ok (takeTrap_memOk (retire_memOk hs))

theorem tretBody_memOk : Yields (·.1.memOk = true) (tretBody x s) := by
  unfold tretBody
  dsimp only
  split
  · split
    · split
      · exact yields_ok (continueHandler_memOk (modTile_memOk hs))
      · exact yields_ok (eccuKill_memOk hs)
    split
    · exact yields_error
    split
    · exact yields_error
    split
    · exact yields_error
    · exact yields_ok (returnTrap_memOk (modTile_memOk hs))
  · exact yields_error

theorem modHandler_memOk {g : Handler → Handler} : (modHandler s t g).memOk = true := hs

theorem setControl_memOk : Yields (State.memOk · = true) (setControl s x n) := by
  unfold setControl
  refine yields_check fun h => ?_
  split
  · exact yields_ok hs
  · exact yields_ok hs
  · exact yields_ok hs
  · exact yields_ok hs
  · exact yields_ok hs
  · exact yields_check fun _ => yields_ok hs
  · exact yields_check fun _ => yields_check fun _ => yields_ok hs

theorem agreePair_memOk : (agreePair s t).memOk = true := by
  unfold agreePair
  grind [modTile_memOk, recheck_memOk, State.memOk]

theorem forgetInterval_memOk {p : Pairing} : (forgetInterval s t p).memOk = true := hs

theorem mateFingerprint_memOk {p : Pairing} : (mateFingerprint s p).1.memOk = true := by
  unfold mateFingerprint
  grind [choose_memOk, freeVal_memOk]

theorem recordKeys_memOk {write : Bool} : (recordKeys s tenant a n write).1.memOk = true := by
  unfold recordKeys
  split
  · exact hs
  · refine foldl_keeps (P := fun r : State × Option (List Nat) => r.1.memOk = true) _ _ (fun r i _ hr => ?_) _ hs
    grind [translate_memOk]

theorem startJob_memOk {h : Husk} {st : HuskState} {ks : List Nat} : Yields (·.1.memOk = true) (startJob s x n h st ks) := yields_ok hs

theorem recountMsg_memOk {dst : Nat} {m : Msg} : (recountMsg s dst m).1.memOk = true := hs

theorem rejoin_memOk : (rejoin s p).memOk = true := by
  unfold rejoin
  split <;> exact hs

theorem rejoinParked_memOk : (rejoinParked s t).memOk = true := by
  refine modTile_memOk ?_
  refine foldl_keeps (P := fun r : State × List Msg => r.1.memOk = true) _ _ (fun r m _ hr => ?_) _ hs
  exact recountMsg_memOk hr

theorem restoreTables_memOk {x : Saved} : (restoreTables s n x).memOk = true := hs

theorem reissue_memOk {h : Husk} : (reissue s t h o).memOk = true := by
  unfold reissue
  grind [setTile_memOk, modTile_memOk, send_memOk, State.memOk]

theorem reissueAll_memOk {h : Husk} : (reissueAll s t h).memOk = true := foldl_each_memOk (fun _ _ hs => reissue_memOk hs) hs

theorem openResult_memOk : Yields (·.1.memOk = true) (openResult x s) := resultLater_memOk (s := s.freeVal.2) (freeVal_memOk hs)

theorem cfgResult_memOk {r : Nat} : Yields (·.1.memOk = true) (cfgResult x s r) := resultLater_memOk hs

theorem fenceChoice_memOk {h : Husk} : (fenceChoice s h).memOk = true := by
  unfold fenceChoice
  grind [choose_memOk, State.memOk]

theorem dropTlb_memOk {m : Option Nat} : (dropTlb s m n).memOk = true := hs

theorem bindMc_memOk {a : Nat} {m : Option McCtx} : (bindMc s a m).memOk = true := by
  unfold bindMc
  grind [dropTlb_memOk, modTile_memOk, State.memOk]

theorem installImage_memOk {a : Nat} {first : Nat} : (installImage s a t off first n).memOk = true := by
  unfold installImage
  grind [setBytes_memOk]

theorem tabWrite_memOk {h : Husk} {w : Nat → Word} (e : tabWrite s t n h w = some s') : s'.memOk = true := by
  unfold tabWrite at e
  grind [bindMc_memOk, installImage_memOk, State.memOk]

theorem tabCorrected_memOk {w : Nat → Word} : (tabCorrected s t w).memOk = true := foldl_each_memOk (fun _ _ hs => correct_memOk hs) hs

/-! ### The host and the boot -/

theorem putLine_memOk : (putLine s t no line).memOk = true := by
  unfold putLine
  grind [modTile_memOk, setBytes_memOk]

theorem putText_memOk {h : Husk} {lines : List Line} : (putText s h lines).memOk = true := foldl_each_memOk (fun _ _ hs => foldl_each_memOk
    (fun _ _ hs => putLine_memOk hs) hs) hs

theorem giveNonce_memOk : (giveNonce s id).memOk = true := hs

theorem openControl_memOk : (openControl s id).memOk = true := by
  unfold openControl
  split <;> exact hs

theorem certify_memOk {k : BitVec 512} : (certify s id k).memOk = true := hs

theorem out_memOk {x : HostOut} : (s.out x).memOk = true := hs

theorem farParts_memOk {a : Nat} {ok : Leaf → Bool} : (farParts s tenant a n ok).1.memOk = true := by
  refine foldl_keeps (P := fun r : State × Option (List (Nat × Nat)) => r.1.memOk = true) _ _ (fun r i _ hr => ?_) _ hs
  grind [translate_memOk]

theorem again_memOk {i : Instr} : (s.again i).memOk = true := hs

/-! ### Fetching lines -/

theorem lineAt_memOk : (lineAt s t pc).1.memOk = true := by
  unfold lineAt
  grind [fetchLine_memOk]

theorem forward_memOk {k : Task} : (forward s t k).memOk = true := by
  unfold forward
  split
  · exact hs
  · exact foldl_each_memOk (fun _ _ hs => modTile_memOk hs) hs

theorem unassigned_memOk : (unassigned s t w).memOk = true := by
  unfold unassigned
  grind [holdTask_memOk, takeLate_memOk, trapNow_memOk]

theorem atSecond_memOk : (atSecond s t w).memOk = true := hs

/-! ### Memory-core turns -/

theorem noteTurn_memOk : (noteTurn s t).memOk = true := by
  unfold noteTurn
  grind [State.memOk]

end Sys2Proof.Machine
end

section
/-!
SUPPORT. The canonical form is kept by every event.
-/

namespace Sys2Proof.Machine

open Sys2Proof

variable {s s' : State} {t off n slot lo hi src tag beats fl i j home tenant l k id path ch no va : Nat} {x : In} {f : Fields} {w : Who}
  {a addr v pc epc tgt : Word} {c : Cause} {o : Outst} {p : Packet} {r : Req} {op : MemOp} {q : Asker} {bs : List Byte} {ws : List Word}
  {line : Line} {lb : LineBuf} {body : In → State → Except Stop (State × After)} {run : Instr → State → Host.Outcome State Fault Refusal}
variable (hs : s.memOk = true)
include hs

theorem resetPackage_memOk : (resetPackage s).memOk = true := filter_wf _ hs

theorem bootedPackage_memOk {b : BootImage} : (bootedPackage b s).memOk = true :=
  foldl_each_memOk (fun _ _ hs => modTile_memOk hs) (memOk_of_mem rfl (resetPackage_memOk hs))

/-! ### Operands, holds and retirement -/

theorem settle_memOk {x : Stop} (e : settle s t w pc x = .next s') : s'.memOk = true := by
  unfold settle at e
  grind [trapNow_memOk, countRefused_memOk, holdTask_memOk, eccuKill_memOk, modTile_memOk]

/-! ### Scalar operations -/

theorem execDividerCompletion_memOk (e : execDividerCompletion s = .next s') : s'.memOk = true := by
  unfold execDividerCompletion at e
  grind [wakeWaiting_memOk, modTile_memOk]

/-! ### Copies -/

theorem execApertureRequestArrival_memOk (e : execApertureRequestArrival s = .next s') : s'.memOk = true := by
  unfold execApertureRequestArrival at e
  grind [choose_memOk, refuse_memOk, send_memOk, setChan_memOk, drop_memOk]

theorem execBteBackoffRetry_memOk (e : execBteBackoffRetry s = .next s') : s'.memOk = true := by
  unfold execBteBackoffRetry at e
  grind [memOk_of_mem]

theorem execCopyCompletion_memOk (e : execCopyCompletion s = .next s') : s'.memOk = true := by
  unfold execCopyCompletion at e
  grind [endCopy_memOk]

theorem execCopyFault_memOk (e : execCopyFault s = .next s') : s'.memOk = true := by
  unfold execCopyFault at e
  grind [endCopy_memOk]

theorem execScaleDescriptorDelivery_memOk (e : execScaleDescriptorDelivery s = .next s') : s'.memOk = true := by
  simp only [execScaleDescriptorDelivery] at e
  repeat' split at e
  all_goals grind [chanFault_memOk, setChan_memOk, modTile_memOk, performAt_memOk, translate_memOk, killHusk_memOk]

/-! ### Far memory -/

theorem execFarreqArrival_memOk (e : execFarreqArrival s = .next s') : s'.memOk = true := by
  simp only [execFarreqArrival] at e
  repeat' split at e
  all_goals grind [send_memOk, drop_memOk, choose_memOk, refuse_memOk, memOk_of_mem]

theorem execRequestProgramStart_memOk (e : execRequestProgramStart s = .next s') : s'.memOk = true := by
  unfold execRequestProgramStart at e
  grind [modTile_memOk, memOk_of_mem]

theorem execRequestProgramEnd_memOk (e : execRequestProgramEnd s = .next s') : s'.memOk = true := by
  unfold execRequestProgramEnd at e
  grind [modTile_memOk, send_memOk, memOk_of_mem]

/-! ### Stamped lines and windows -/

theorem execSetaDrainComplete_memOk (e : execSetaDrainComplete s = .next s') : s'.memOk = true := by
  unfold execSetaDrainComplete at e
  grind [setaEffect_memOk, modTile_memOk, finishOut_memOk]

/-! ### Arrivals at a home and at the gateway -/

theorem arriveAccess_memOk {sel : MemOp → Bool} (e : arriveAccess s k sel = .next s') : s'.memOk = true := by
  unfold arriveAccess at e
  grind [performAt_memOk, drop_memOk, refuse_memOk, answered_memOk, replyTo_memOk]

theorem execRemoteAccessArrival_memOk {a : Arrival} (e : execRemoteAccessArrival a s = .next s') : s'.memOk = true := by
  unfold execRemoteAccessArrival at e
  grind [copyMove_memOk, arriveCode_memOk, drop_memOk, replyTo_memOk, modTile_memOk, arriveAccess_memOk]

theorem execFeAccessAtHome_memOk (e : execFeAccessAtHome s = .next s') : s'.memOk = true := by
  unfold execFeAccessAtHome at e
  grind [arriveAccess_memOk]

theorem execAtomicAtHome_memOk (e : execAtomicAtHome s = .next s') : s'.memOk = true := by
  unfold execAtomicAtHome at e
  grind [arriveAccess_memOk]

theorem execStampedStoreAtHome_memOk (e : execStampedStoreAtHome s = .next s') : s'.memOk = true := by
  unfold execStampedStoreAtHome at e
  grind [arriveAccess_memOk]

theorem execLdaAtHome_memOk (e : execLdaAtHome s = .next s') : s'.memOk = true := by
  unfold execLdaAtHome at e
  grind [arriveAccess_memOk]

theorem execAgeqAtHome_memOk (e : execAgeqAtHome s = .next s') : s'.memOk = true := by
  unfold execAgeqAtHome at e
  grind [arriveAccess_memOk]

theorem execFarStoreArrival_memOk {a : Arrival} (e : execFarStoreArrival a s = .next s') : s'.memOk = true := by
  simp only [execFarStoreArrival] at e
  repeat' split at e
  all_goals grind [copyMove_memOk, drop_memOk, translate_memOk, replyTo_memOk, killHusk_memOk, putFar_memOk]

theorem execRouterAtomicMerge_memOk {k1 : Nat} {k2 : Nat} (e : execRouterAtomicMerge k1 k2 s = .next s') : s'.memOk = true := by
  unfold execRouterAtomicMerge at e
  grind [drop_memOk, memOk_of_mem]

theorem execMergedReplySplit_memOk (e : execMergedReplySplit s = .next s') : s'.memOk = true := by
  unfold execMergedReplySplit at e
  grind [splitReplies_memOk, drop_memOk]

theorem execOfStoreArrival_memOk (e : execOfStoreArrival s = .next s') : s'.memOk = true := by
  unfold execOfStoreArrival at e
  grind [drop_memOk, refuse_memOk, refuseFlag_memOk, applyFlag_memOk, flagUnit_memOk, replyTo_memOk, memOk_of_mem]

theorem execOfFlagApply_memOk (e : execOfFlagApply s = .next s') : s'.memOk = true := by
  unfold execOfFlagApply at e
  grind [applyFlag_memOk, flagUnit_memOk, memOk_of_mem]

theorem execMulticastDelivery_memOk (e : execMulticastDelivery s = .next s') : s'.memOk = true := by
  have hd (ps : List Packet) : (ps.foldl (fun s q => deliverMember s q.id) s).memOk = true :=
    foldl_each_memOk (fun _ _ hs => deliverMember_memOk hs) hs
  simp only [execMulticastDelivery] at e
  split at e
  next p _ =>
    split at e
    next strong _ =>
      generalize (if strong = true then siblings s p else [p]) = ps at e
      grind [refuse_memOk]
    · cases e
  · cases e

theorem execMirrorDelivery_memOk (e : execMirrorDelivery s = .next s') : s'.memOk = true := by
  unfold execMirrorDelivery at e
  grind [drop_memOk, applyMirror_memOk, delivered_memOk, refuse_memOk]

theorem execStopNoticeArrival_memOk (e : execStopNoticeArrival s = .next s') : s'.memOk = true := by
  unfold execStopNoticeArrival at e
  grind [drop_memOk, stopLines_memOk, delivered_memOk, refuse_memOk]

theorem execNiUnaidedRetry_memOk (e : execNiUnaidedRetry s = .next s') : s'.memOk = true := by
  unfold execNiUnaidedRetry at e
  grind [memOk_of_mem]

theorem execLinkFailure_memOk {port : Nat} {chips : List Nat} (e : execLinkFailure port chips s = .next s') : s'.memOk = true := by
  unfold execLinkFailure at e
  grind [memOk_of_mem]

theorem execBackgroundScrub_memOk {word : Nat} (e : execBackgroundScrub word s = .next s') : s'.memOk = true := by
  unfold execBackgroundScrub at e
  grind [memOk_of_mem]

theorem execGatewayAccess_memOk {g : GatewayReq} (e : execGatewayAccess g s = .next s') : s'.memOk = true := by
  unfold execGatewayAccess at e
  grind [gateOne_memOk, gateGroup_memOk]

/-! ### Answers -/

theorem execLoadReply_memOk {r : Reply} (e : execLoadReply r s = .next s') : s'.memOk = true := by
  simp only [execLoadReply] at e
  split at e
  next h =>
    have := takeReply_memOk hs h
    repeat' split at e
    all_goals grind [answerOut_memOk, modTile_memOk]
  · cases e

theorem execAcknowledgementArrival_memOk {r : Reply} (e : execAcknowledgementArrival r s = .next s') : s'.memOk = true := by
  simp only [execAcknowledgementArrival] at e
  split at e
  · grind [copyAnswer_memOk]
  · split at e
    next h =>
      have := takeReply_memOk hs h
      repeat' split at e
      all_goals grind [parkAccepted_memOk, answerOut_memOk, grantPush_memOk, deliverMirrors_memOk, doneOut_memOk, abortAnswer_memOk]
    · cases e

theorem execLateFaultReport_memOk {r : Reply} (e : execLateFaultReport r s = .next s') : s'.memOk = true := by
  simp only [execLateFaultReport] at e
  split at e
  next h =>
    have := takeReply_memOk hs h
    repeat' split at e
    all_goals grind [reportFault_memOk, tableFault_memOk, exactOut_memOk, lateOut_memOk]
  · cases e

/-! ### Queues, messages and ports -/

theorem execGrantWithheldRelease_memOk (e : execGrantWithheldRelease s = .next s') : s'.memOk = true := by
  unfold execGrantWithheldRelease at e
  grind [sendGrant_memOk, setTile_memOk]

theorem execAllowanceGrantArrival_memOk (e : execAllowanceGrantArrival s = .next s') : s'.memOk = true := by
  unfold execAllowanceGrantArrival at e
  grind [wakeWaiting_memOk, modTile_memOk, drop_memOk]

theorem execCongestionHalving_memOk (e : execCongestionHalving s = .next s') : s'.memOk = true := by
  unfold execCongestionHalving at e
  grind [setTile_memOk]

theorem execMessageArrival_memOk (e : execMessageArrival s = .next s') : s'.memOk = true := by
  simp only [execMessageArrival] at e
  repeat' split at e
  case h_2 hd _ _ _ _ _ hm =>
    have := deposit_memOk (occupy_memOk (drop_memOk hs)) hm
    grind [send_memOk]
  all_goals grind [drop_memOk, refuse_memOk, modTile_memOk, occupy_memOk, send_memOk]

theorem execStartArrival_memOk (e : execStartArrival s = .next s') : s'.memOk = true := by
  simp only [execStartArrival] at e
  repeat' split at e
  all_goals grind [modTile_memOk, drop_memOk, refuse_memOk, memOk_of_mem]

theorem execSpawnPodArrival_memOk (e : execSpawnPodArrival s = .next s') : s'.memOk = true := by
  unfold execSpawnPodArrival at e
  grind [refuse_memOk, drop_memOk, modTile_memOk, send_memOk]

theorem execParkContinuationArrival_memOk (e : execParkContinuationArrival s = .next s') : s'.memOk = true := by
  unfold execParkContinuationArrival at e
  grind [drop_memOk, send_memOk, refuse_memOk, modTile_memOk]

theorem execWakeCounterDecrement_memOk (e : execWakeCounterDecrement s = .next s') : s'.memOk = true := by
  unfold execWakeCounterDecrement at e
  grind [modTile_memOk, drop_memOk, send_memOk]

theorem execQueueRecordArrival_memOk (e : execQueueRecordArrival s = .next s') : s'.memOk = true := by
  simp only [execQueueRecordArrival] at e
  repeat' split at e
  all_goals grind [drop_memOk, send_memOk, refuse_memOk, modTile_memOk, placeRec_memOk, wakeWaiting_memOk]

theorem execQueuePortPush_memOk {port : Nat} (e : execQueuePortPush port s = .next s') : s'.memOk = true := by
  unfold execQueuePortPush at e
  grind [setTile_memOk, send_memOk]

theorem execQueuePortPop_memOk {port : Nat} (e : execQueuePortPop port s = .next s') : s'.memOk = true := by
  simp only [execQueuePortPop] at e
  split at e
  · cases e
  · split at e
    next h =>
      cases e
      exact popPort_memOk hs _ h
    · exact settle_memOk hs e

theorem execPodStart_memOk (e : execPodStart s = .next s') : s'.memOk = true := by
  simp only [execPodStart] at e
  repeat' split at e
  all_goals grind [recheck_memOk, setTile_memOk, grantDue_memOk]

theorem execPodTake_memOk (e : execPodTake s = .next s') : s'.memOk = true := by
  unfold execPodTake at e
  grind [modTile_memOk]

theorem execLevel1Entry_memOk (e : execLevel1Entry s = .next s') : s'.memOk = true := by
  unfold execLevel1Entry at e
  grind [setTile_memOk, recheck_memOk, grantDue_memOk]

theorem execTimeSliceExpiry_memOk (e : execTimeSliceExpiry s = .next s') : s'.memOk = true := by
  simp only [execTimeSliceExpiry] at e
  have hg := foldl_each_memOk (l := gangOf s s.cur) (g := fun s m => setAside s m .ready) (fun _ _ hs => setAside_memOk hs) hs
  repeat' split at e
  all_goals grind [setTile_memOk, setAside_memOk]

theorem execTrapEntry_memOk (e : execTrapEntry s = .next s') : s'.memOk = true := by
  unfold execTrapEntry at e
  grind [takeLate_memOk]

theorem execTstatWrite_memOk (e : execTstatWrite v s = .next s') : s'.memOk = true := by
  unfold execTstatWrite at e
  grind [modTile_memOk]

theorem execStickyWrite_memOk (e : execStickyWrite v s = .next s') : s'.memOk = true := by
  unfold execStickyWrite at e
  grind [modTile_memOk]

theorem execFixedLatencyResultWrite_memOk (e : execFixedLatencyResultWrite s = .next s') : s'.memOk = true := by
  unfold execFixedLatencyResultWrite at e
  grind [setTile_memOk]

/-! ### Launches, slots and groups -/

theorem execLaunchAcceptance_memOk (e : execLaunchAcceptance s = .next s') : s'.memOk = true := by
  simp only [execLaunchAcceptance] at e
  repeat' split at e
  case h_2 h =>
    have := acceptLaunch_memOk (correct_memOk (drop_memOk hs)) h
    grind [send_memOk]
  all_goals grind [drop_memOk, eccuKill_memOk, refuse_memOk]

theorem execSlotMapping_memOk (e : execSlotMapping s = .next s') : s'.memOk = true := by
  unfold execSlotMapping at e
  grind [choose_memOk, refresh_memOk, evalAll_memOk, memOk_of_mem]

theorem execSlotRotation_memOk (e : execSlotRotation s = .next s') : s'.memOk = true := by
  unfold execSlotRotation at e
  grind [freeDrained_memOk, refresh_memOk, memOk_of_mem]

theorem execGroupPlacement_memOk (e : execGroupPlacement s = .next s') : s'.memOk = true := by
  simp only [execGroupPlacement] at e
  repeat' split at e
  · cases e
  · cases e
  · cases e
  · cases e
  · obtain rfl := Host.Outcome.next.inj e
    refine refresh_memOk (foldl_each_memOk (fun _ _ hs => send_memOk (modTile_memOk hs)) (modHead_memOk ?_))
    exact hs

theorem execGroupRetirement_memOk (e : execGroupRetirement s = .next s') : s'.memOk = true := by
  unfold execGroupRetirement at e
  grind [ungroupAll_memOk, retireStops_memOk, freeDrained_memOk, eccuKill_memOk, putSlice_memOk, correct_memOk, evalHead_memOk,
    modHead_memOk, finishLaunch_memOk, refresh_memOk]

theorem execBarrierPhaseComplete_memOk (e : execBarrierPhaseComplete s = .next s') : s'.memOk = true := by
  unfold execBarrierPhaseComplete at e
  grind [completePhase_memOk]

/-! ### Barriers and markers -/

theorem execQuantumCountExpiry_memOk (e : execQuantumCountExpiry s = .next s') : s'.memOk = true := by
  unfold execQuantumCountExpiry at e
  grind [sendMarkers_memOk]

theorem execQuantumMarkerArrival_memOk (e : execQuantumMarkerArrival s = .next s') : s'.memOk = true := by
  unfold execQuantumMarkerArrival at e
  grind [modTile_memOk, drop_memOk]

theorem execDeliveryWindowEnd_memOk (e : execDeliveryWindowEnd s = .next s') : s'.memOk = true := by
  simp only [execDeliveryWindowEnd] at e
  repeat' split at e
  · cases e
  · cases e
  · obtain rfl := Host.Outcome.next.inj e
    exact wakeWaiting_memOk (foldl_each_memOk (fun _ _ hs => handleMsg_memOk hs)
      (foldl_each_memOk (fun _ _ hs => placeWindow_memOk hs) (setTile_memOk hs)))

/-! ### Block operations -/

theorem execReductionCompletion_memOk (e : execReductionCompletion s = .next s') : s'.memOk = true := by
  unfold execReductionCompletion at e
  grind [wakeWaiting_memOk, modTile_memOk]

/-! ### Boosted tasks and locks -/

theorem execDeclarationAtHome_memOk (e : execDeclarationAtHome s = .next s') : s'.memOk = true := by
  unfold execDeclarationAtHome at e
  grind [drop_memOk, send_memOk, choose_memOk, tableFull_memOk, modTile_memOk, noticeAll_memOk]

theorem execLockReleaseAtHome_memOk (e : execLockReleaseAtHome s = .next s') : s'.memOk = true := by
  unfold execLockReleaseAtHome at e
  grind [modTile_memOk, drop_memOk, send_memOk, regrant_memOk]

theorem execAbortNoticeArrival_memOk (e : execAbortNoticeArrival s = .next s') : s'.memOk = true := by
  unfold execAbortNoticeArrival at e
  grind [drop_memOk, setTile_memOk]

theorem execBoostedAbort_memOk (e : execBoostedAbort s = .next s') : s'.memOk = true := by
  unfold execBoostedAbort at e
  grind [setTile_memOk, takeAbort_memOk]

theorem execUndoTaskStart_memOk (e : execUndoTaskStart s = .next s') : s'.memOk = true := by
  unfold execUndoTaskStart at e
  grind [withdrawParked_memOk, eccuKill_memOk, readWords_memOk, correct_memOk, modTile_memOk]

theorem execUndoFinish_memOk (e : execUndoFinish s = .next s') : s'.memOk = true := by
  unfold execUndoFinish at e
  grind [withdrawParked_memOk, modTile_memOk, sendUnlocks_memOk, wakeWaiting_memOk]

/-! ### The matrix array -/

theorem execMatrixQueuePerform_memOk (e : execMatrixQueuePerform s = .next s') : s'.memOk = true := by
  simp only [execMatrixQueuePerform] at e
  split at e
  · split at e
    · cases e
      exact foldl_each_memOk (fun _ _ hs => gangStart_memOk hs) (gangStart_memOk hs)
    · cases e
  · grind [performHead_memOk]

theorem execMatrixInstructionCompletion_memOk (e : execMatrixInstructionCompletion s = .next s') : s'.memOk = true := by
  unfold execMatrixInstructionCompletion at e
  grind [wakeWaiting_memOk, setTile_memOk]

theorem execPeerAddArrival_memOk (e : execPeerAddArrival s = .next s') : s'.memOk = true := by
  unfold execPeerAddArrival at e
  grind [send_memOk, modMatrix_memOk, drop_memOk]

theorem execGangBarrierComplete_memOk (e : execGangBarrierComplete s = .next s') : s'.memOk = true := by
  simp only [execGangBarrierComplete] at e
  split at e
  · obtain rfl := Host.Outcome.next.inj e
    refine foldl_each_memOk (fun s m hs => ?_) hs
    split
    · exact wakeWaiting_memOk (setTile_memOk hs)
    · exact hs
  · cases e

/-! ### Control registers, eviction and restoring -/

theorem execPairIntervalClose_memOk (e : execPairIntervalClose s = .next s') : s'.memOk = true := by
  unfold execPairIntervalClose at e
  grind [modTile_memOk, mateFingerprint_memOk, agreePair_memOk, rollBack_memOk, takeTrap_memOk, endPair_memOk]

theorem execEvictStopped_memOk (e : execEvictStopped s = .next s') : s'.memOk = true := by
  simp only [execEvictStopped] at e
  repeat' split at e
  · cases e
  · exact Host.Outcome.next.inj e ▸ setHusk_memOk (foldl_each_memOk (fun _ _ hs => modTile_memOk hs) hs)
  · exact Host.Outcome.next.inj e ▸ foldl_each_memOk (fun _ _ hs => modTile_memOk hs) hs
  · cases e
  · cases e

theorem execEvictDrained_memOk (e : execEvictDrained s = .next s') : s'.memOk = true := by
  simp only [execEvictDrained] at e
  repeat' split at e
  · cases e
  · exact Host.Outcome.next.inj e ▸ setHusk_memOk (foldl_each_memOk (fun _ _ hs => modTile_memOk hs) hs)
  · cases e

theorem execEvictSaved_memOk (e : execEvictSaved s = .next s') : s'.memOk = true := by
  unfold execEvictSaved at e
  grind [writeRecord_memOk, resetHusk_memOk, send_memOk, setHusk_memOk, memOk_of_mem]

theorem execRestoreComplete_memOk (e : execRestoreComplete s = .next s') : s'.memOk = true := by
  simp only [execRestoreComplete] at e
  split at e
  next h x _ _ =>
    split at e
    next j _ =>
      split at e
      · cases e
      · have h1 (at_ : List (Nat × Nat)) : (x.tiles.foldl (fun s y => restoreTile s at_ y) (restoreTables s s.sel x)).memOk = true :=
          foldl_each_memOk (fun _ _ hs => restoreTile_memOk _ _ hs) (restoreTables_memOk hs)
        obtain rfl := Host.Outcome.next.inj e
        refine send_memOk (refreshAll_memOk (foldl_each_memOk (fun _ _ hs => reissueAll_memOk hs)
          (foldl_each_memOk (fun _ _ hs => rejoinParked_memOk hs) (foldl_each_memOk (fun _ _ hs => rejoin_memOk hs) (setHusk_memOk ?_)))))
        exact memOk_of_mem rfl (h1 _)
    · cases e
  · cases e

/-! ### The host and the boot -/

theorem execPackageReset_memOk (e : execPackageReset s = .next s') : s'.memOk = true := by
  cases e
  exact resetPackage_memOk hs

theorem execBoot_memOk {b : BootImage} (e : execBoot b s = .next s') : s'.memOk = true := by
  cases h : Config.sm2Valid Config.bootKey (digestBytes (sm3 b.acorn)) b.signature with
  | false =>
    obtain rfl := Host.Outcome.next.inj ((exec_boot_unsigned s h).symm.trans e)
    exact memOk_of_mem rfl (resetPackage_memOk hs)
  | true =>
    obtain rfl := Host.Outcome.next.inj ((exec_boot_signed s h).symm.trans e)
    have hp := bootedPackage_memOk (b := b) hs
    exact ite_memOk (putSlice_memOk _ _ _ (putText_memOk (setHusk_memOk hp))) hp

theorem execFreeze_memOk (e : execFreeze s = .next s') : s'.memOk = true := by
  unfold execFreeze at e
  grind [memOk_of_mem]

theorem execFreezeRestart_memOk (e : execFreezeRestart s = .next s') : s'.memOk = true := by
  unfold execFreezeRestart at e
  grind [memOk_of_mem]

theorem execRailThermalAlarm_memOk (e : execRailThermalAlarm s = .next s') : s'.memOk = true := by
  unfold execRailThermalAlarm at e
  grind [memOk_of_mem]

theorem execOwnerCertificate_memOk {m : Certificate} (e : execOwnerCertificate m s = .next s') : s'.memOk = true := by
  unfold execOwnerCertificate at e
  grind [openControl_memOk, freeVal_memOk, certify_memOk, giveNonce_memOk, memOk_of_mem]

theorem execOwnershipHandover_memOk {m : OwnerMessage} (e : execOwnershipHandover m s = .next s') : s'.memOk = true := by
  unfold execOwnershipHandover at e
  grind [openControl_memOk, memOk_of_mem]

theorem execLeaseRenewal_memOk {m : OwnerMessage} (e : execLeaseRenewal m s = .next s') : s'.memOk = true := by
  unfold execLeaseRenewal at e
  grind [memOk_of_mem]

theorem execLeaseLapse_memOk (e : execLeaseLapse s = .next s') : s'.memOk = true := by
  unfold execLeaseLapse at e
  grind [memOk_of_mem]

theorem execTenantSessionBind_memOk {b : BindRequest} (e : execTenantSessionBind b tenant s = .next s') : s'.memOk = true := by
  unfold execTenantSessionBind at e
  grind [memOk_of_mem]

theorem execHostRead_memOk {r : HostAccess} (e : execHostRead r s = .next s') : s'.memOk = true := by
  simp only [execHostRead] at e
  have hr (ps : List (Nat × Nat × Nat)) := foldl_keeps (P := fun q : State × List Byte => q.1.memOk = true) (fun q e =>
    ((readSlice (q.1.correct e.1 (e.2.1 / 8 * 8) 1) e.1 e.2.1 e.2.2).1,
      q.2 ++ bytesOf (readSlice (q.1.correct e.1 (e.2.1 / 8 * 8) 1) e.1 e.2.1 e.2.2).2 e.2.2)) ps
    (fun q e _ hq => readSlice_memOk (correct_memOk hq)) (s, []) hs
  split at e
  · grind [out_memOk]
  next x a _ =>
    have hfar := farParts_memOk (tenant := r.tenant) (a := a) (n := r.len) (ok := (·.rd)) hs
    repeat' split at e
    all_goals grind [out_memOk, again_memOk, killHusk_memOk]

theorem execHostWrite_memOk {r : HostAccess} (e : execHostWrite r s = .next s') : s'.memOk = true := by
  have herr := out_memOk (x := .error r.session) hs
  have hk := out_memOk (x := .error r.session) (killHusk_memOk (n := r.tenant) hs)
  simp only [execHostWrite] at e
  split at e
  · exact Host.Outcome.next.inj e ▸ herr
  next x a _ =>
    have hfar := farParts_memOk (tenant := r.tenant) (a := a) (n := r.data.length) (ok := (·.wr)) hs
    split at e
    · exact Host.Outcome.next.inj e ▸ herr
    split at e
    · repeat' split at e
      · exact Host.Outcome.next.inj e ▸ herr
      · exact Host.Outcome.next.inj e ▸ again_memOk hs
      · exact Host.Outcome.next.inj e ▸ herr
      · exact Host.Outcome.next.inj e ▸ herr
      · exact Host.Outcome.next.inj e ▸ hk
      · exact Host.Outcome.next.inj e ▸ out_memOk (foldl_each_memOk (fun _ _ hs => putSlice_memOk _ _ _ (ite_memOk (correct_memOk hs) hs))
    hs)
    · split at e
      next hp =>
        rw [hp] at hfar
        exact Host.Outcome.next.inj e ▸ out_memOk hfar
      next hp =>
        rw [hp] at hfar
        split at e
        · exact Host.Outcome.next.inj e ▸ out_memOk (killHusk_memOk hfar)
        · exact Host.Outcome.next.inj e ▸ out_memOk (foldl_each_memOk (fun _ _ hs => putFar_memOk _ _ hs) hfar)

theorem execHostAtomic_memOk {r : HostAtomicReq} (e : execHostAtomic r s = .next s') : s'.memOk = true := by
  unfold execHostAtomic at e
  grind [out_memOk, farParts_memOk, killHusk_memOk, putFar_memOk]

theorem execHostLaunchSubmit_memOk {r : HostSubmit} (e : execHostLaunchSubmit r s = .next s') : s'.memOk = true := by
  simp only [execHostLaunchSubmit] at e
  split at e
  · grind [out_memOk]
  split at e
  · grind [out_memOk]
  split at e
  · grind [out_memOk]
  · grind [again_memOk]
  split at e
  · grind [out_memOk]
  next t off _ =>
    have ha (a : Word) (z) (h : acceptLaunch (s.correct t off 16) r.tenant t off a = some z) : z.1.memOk = true :=
      acceptLaunch_memOk (correct_memOk hs) h
    have hc : (s.correct t off 16).memOk = true := correct_memOk hs
    have hk := out_memOk (x := .error r.session) (killHusk_memOk (n := r.tenant) hs)
    have ho := out_memOk (x := .faulted r.session .align) hs
    generalize s.correct t off 16 = s1 at *
    repeat' split at e
    all_goals grind [out_memOk, again_memOk]

theorem execObjectLoad_memOk {o : ObjectFile} (e : execObjectLoad o s = .next s') : s'.memOk = true := by
  unfold execObjectLoad at e
  grind [out_memOk, killHusk_memOk, putSlice_memOk, putText_memOk, correct_memOk]

theorem execAttestationReport_memOk {nonce : List Byte} (e : execAttestationReport id nonce s = .next s') : s'.memOk = true := by
  unfold execAttestationReport at e
  grind [out_memOk]

end Sys2Proof.Machine
end

section
/-!
SUPPORT. The canonical form is kept by every instruction: issue keeps it when the body does.
-/

namespace Sys2Proof.Machine

open Sys2Proof

variable {s s' : State} {f : Fields} {x : In} {n : Nat} {v : Word} {body : In → State → Except Stop (State × After)}
variable (hs : s.memOk = true)
include hs

theorem issue_memOk {i : Instr} {m : Form} (hb : Keeps body) (e : issue i m f body s = .next s') : s'.memOk = true := by
  have hrun (t : Nat) (w : Who) (b : Bool) (pc : Word) : Yields (State.memOk · = true) (do
      decodeChecks s t w i m f
      issueHolds s t w i m f
      if b && ((s.tile t).task w).px then trapAt .stall pc
      runBody m f body t w (if b then addStall s t w pc else s) : Except Stop State) :=
    yields_check fun _ => yields_check fun _ => yields_guard (runBody_memOk (ite_memOk (addStall_memOk hs) hs) hb)
  simp only [issue] at e
  split at e
  · cases e
  split at e
  · exact Host.Outcome.next.inj e ▸ holdTask_memOk hs
  split at e
  · exact Host.Outcome.next.inj e ▸ takeLate_memOk hs
  split at e
  · exact Host.Outcome.next.inj e ▸ takeArrayFault_memOk hs
  split at e
  · exact Host.Outcome.next.inj e ▸ holdTask_memOk hs
  split at e
  · exact Host.Outcome.next.inj e ▸ trapNow_memOk hs
  split at e
  · exact Host.Outcome.next.inj e ▸ holdTask_memOk hs
  split at e
  · exact Host.Outcome.next.inj e ▸ modTile_memOk hs
  split at e
  · exact Host.Outcome.next.inj e ▸ retire_memOk hs
  split at e
  next h => exact Host.Outcome.next.inj e ▸ hrun _ _ _ _ _ h
  · exact settle_memOk hs e

omit hs in
theorem withWrite_memOk {own : Except Stop (State × After)} (ho : Yields (·.1.memOk = true) own) :
    Yields (·.1.memOk = true) (withWrite x n v own) := by
  cases own with
  | error => exact yields_error
  | ok z => exact yields_ok (emit_memOk (ho z rfl))

theorem execBru_memOk (e : execBru f s = .next s') : s'.memOk = true :=
  issue_memOk hs (fun _ _ hs => by
    dsimp only
    split
    · exact yields_ite (transfer_memOk hs (goOn_memOk hs)) yields_error
    · exact checkedJump_memOk hs) e

theorem execIfence_memOk (e : execIfence f s = .next s') : s'.memOk = true :=
  issue_memOk hs (fun _ _ hs => yields_ite (transfer_memOk hs (goOn_memOk hs)) (yields_ite yields_error (yields_ok (modTile_memOk hs)))) e

theorem execSt_memOk (e : execSt f s = .next s') : s'.memOk = true :=
  issue_memOk hs (fun _ _ hs => yields_ite (apertureStore_memOk hs) (access_memOk hs)) e

theorem execStOf_memOk (e : execStOf f s = .next s') : s'.memOk = true :=
  issue_memOk hs (fun _ _ hs => by
    refine yields_ite (yields_ite (mcSlice_memOk hs) yields_error) (yields_check fun _ => ?_)
    split
    · refine yields_guard (yields_guard (yields_ite (yields_check fun _ => ?_) (yields_check fun _ => ?_)))
      all_goals
        dsimp only
        split
        · exact yields_error
        · refine yields_ite (yields_bind (pairHold_memOk ?_) fun _ hs => goOn_memOk hs) (yields_bind (pairOwn_memOk ?_) fun _ hs =>
            yields_ite (ownFlag_memOk hs) (goOn_memOk (send_memOk hs)))
          · exact send_memOk (addOut_memOk (modTile_memOk hs))
          · exact addOut_memOk (modTile_memOk hs)
    · refine yields_guard (yields_check fun _ => yields_bind (pairHold_memOk ?_) fun _ hs => goOn_memOk ?_)
      · exact setTile_memOk hs
      · exact hs
    · exact yields_error) e

theorem execStrel_memOk (e : execStrel f s = .next s') : s'.memOk = true :=
  issue_memOk hs (fun _ _ hs => yields_check fun _ => yields_check fun _ => access_memOk hs) e

theorem execAgeq_memOk (e : execAgeq f s = .next s') : s'.memOk = true :=
  issue_memOk hs (fun _ _ hs => yields_check fun _ => access_memOk hs) e

theorem execFarreq_memOk (e : execFarreq f s = .next s') : s'.memOk = true :=
  issue_memOk hs (fun _ _ hs => yields_check fun _ => by
    split
    · exact yields_check fun _ => goOn_memOk (send_memOk (addOut_memOk hs))
    · exact yields_error) e

theorem execFence_memOk (e : execFence f s = .next s') : s'.memOk = true :=
  issue_memOk hs (fun _ _ hs => yields_check fun _ => goOn_memOk hs) e

theorem execFenceAck_memOk (e : execFenceAck f s = .next s') : s'.memOk = true :=
  issue_memOk hs (fun _ _ hs => yields_check fun _ => goOn_memOk hs) e

theorem execSend_memOk (e : execSend f s = .next s') : s'.memOk = true :=
  issue_memOk hs (fun _ _ hs => yields_check fun _ => sendOut_memOk hs) e

theorem execSendb_memOk (e : execSendb f s = .next s') : s'.memOk = true :=
  issue_memOk hs (fun x _ hs => yields_check fun _ => yields_check fun _ => yields_check fun _ => yields_check fun _ =>
      yields_check fun _ => by
    refine yields_ite (yields_ok (eccuKill_memOk hs)) ?_
    have hr := readWords_memOk (t := x.t) (off := field x.b 20 0) (n := x.f.c.toNat + 1) (correct_memOk (t := x.t) (off := field x.b 20 0)
      (n := x.f.c.toNat + 1) hs)
    dsimp only
    generalize readWords _ x.t (field x.b 20 0) (x.f.c.toNat + 1) = r at hr ⊢
    exact sendOut_memOk hr) e

theorem execSpawn_memOk (e : execSpawn f s = .next s') : s'.memOk = true :=
  issue_memOk hs (fun _ _ hs => yields_check fun _ => yields_check fun _ => goOn_memOk (send_memOk (addOut_memOk hs))) e

theorem execPark_memOk (e : execPark f s = .next s') : s'.memOk = true :=
  issue_memOk hs (fun _ _ hs => yields_guard (yields_check fun _ => yields_check fun _ => yields_check fun _ =>
      yields_guard (yields_check fun _ => yields_guard (yields_ok (modTile_memOk (send_memOk (addOut_memOk (modTile_memOk hs)))))))) e

theorem execWait_memOk (e : execWait f s = .next s') : s'.memOk = true :=
  issue_memOk hs (fun _ _ hs => by
    dsimp only
    split
    · exact yields_error
    · refine yields_ite (goOn_memOk (modTile_memOk hs)) (yields_ite yields_error (yields_ite yields_error (yields_ite ?_
        (yields_check fun _ => yields_ite (goOn_memOk (modTile_memOk hs)) ?_))))
      · exact yields_ite (yields_pure (waitAside_memOk hs)) yields_error
      · exact yields_ite (yields_pure (waitAside_memOk (modTile_memOk hs))) (yields_pure (modTile_memOk (modTile_memOk hs)))) e

theorem execYield_memOk (e : execYield f s = .next s') : s'.memOk = true :=
  issue_memOk hs (fun _ _ hs => yields_ite (goOn_memOk hs) (yields_ite yields_error (yields_ite yields_error (yields_ok (setAside_memOk
      (modTile_memOk (countRetired_memOk hs))))))) e

theorem execWkset_memOk (e : execWkset f s = .next s') : s'.memOk = true :=
  issue_memOk hs (fun _ _ hs => yields_check fun _ => goOn_memOk (emit_memOk (setCore_memOk hs))) e

theorem execWkdec_memOk (e : execWkdec f s = .next s') : s'.memOk = true :=
  issue_memOk hs (fun _ _ hs => yields_check fun _ => yields_check fun _ => goOn_memOk (send_memOk (addOut_memOk hs))) e

theorem execQbindPop_memOk (e : execQbindPop f s = .next s') : s'.memOk = true :=
  issue_memOk hs (fun _ _ hs => yields_check fun _ => yields_bind (claimPort_memOk hs) fun _ hs =>
      goOn_memOk (emit_memOk (setCoreFor_memOk hs))) e

theorem execQbindPush_memOk (e : execQbindPush f s = .next s') : s'.memOk = true :=
  issue_memOk hs (fun _ _ hs => yields_check fun _ => yields_bind (claimPort_memOk hs) fun _ hs =>
      goOn_memOk (emit_memOk (setCoreFor_memOk hs))) e

theorem execQbindNone_memOk (e : execQbindNone f s = .next s') : s'.memOk = true :=
  issue_memOk hs (fun _ _ hs => yields_bind (claimPort_memOk hs) fun _ hs => goOn_memOk (emit_memOk hs)) e

theorem execHqcfg_memOk (e : execHqcfg f s = .next s') : s'.memOk = true :=
  issue_memOk hs (fun _ _ hs => yields_check fun _ => yields_check fun _ => yields_check fun _ => yields_check fun _ =>
      goOn_memOk (emit_memOk (setCore_memOk hs))) e

theorem execAlbind_memOk (e : execAlbind f s = .next s') : s'.memOk = true :=
  issue_memOk hs (fun _ _ hs => yields_check fun _ => yields_guard (yields_check fun _ => goOn_memOk (emit_memOk (setCore_memOk hs)))) e

theorem execAlbindNone_memOk (e : execAlbindNone f s = .next s') : s'.memOk = true :=
  issue_memOk hs (fun _ _ hs => yields_guard (goOn_memOk (emit_memOk (setCore_memOk hs)))) e

theorem execMask1_memOk (e : execMask1 f s = .next s') : s'.memOk = true :=
  issue_memOk hs (fun _ _ hs => yields_check fun _ => goOn_memOk (modTile_memOk hs)) e

theorem execUnmask1_memOk (e : execUnmask1 f s = .next s') : s'.memOk = true :=
  issue_memOk hs (fun _ _ hs => goOn_memOk (modTile_memOk hs)) e

theorem execLaunch_memOk (e : execLaunch f s = .next s') : s'.memOk = true :=
  issue_memOk hs (fun _ _ hs => yields_check fun _ => by
    split
    · exact yields_ite (yields_ok (eccuKill_memOk hs)) (yields_check fun _ => yields_check fun _ => yields_check fun _ =>
        goOn_memOk (send_memOk (addOut_memOk (correct_memOk hs))))
    · exact yields_error) e

theorem execLstat_memOk (e : execLstat f s = .next s') : s'.memOk = true :=
  issue_memOk hs (fun _ _ hs => yields_check fun _ => by
    refine yields_ite (yields_ok (eccuKill_memOk hs)) (goOn_memOk (send_memOk (addOut_memOk ?_)))
    split
    · exact correct_memOk hs
    · exact hs) e

theorem execBarw_memOk (e : execBarw f s = .next s') : s'.memOk = true :=
  issue_memOk hs (fun _ _ hs => yields_check fun _ => yields_guard (goOn_memOk hs)) e

theorem execBara_memOk (e : execBara f s = .next s') : s'.memOk = true :=
  issue_memOk hs (fun _ _ hs => yields_check fun _ => yields_check fun _ => yields_guard (goOn_memOk (emit_memOk (arrive_memOk hs)))) e

theorem execQuant_memOk (e : execQuant f s = .next s') : s'.memOk = true :=
  issue_memOk hs (fun _ _ hs => goOn_memOk (emit_memOk (by
    split
    · exact sendMarkers_memOk hs
    · exact hs))) e

theorem execQuantW_memOk (e : execQuantW f s = .next s') : s'.memOk = true :=
  issue_memOk hs (fun _ _ hs => by
    split
    · exact yields_ite (goOn_memOk (emit_memOk hs)) yields_error
    · split
      · exact goOn_memOk (emit_memOk hs)
      · exact yields_ok (modTile_memOk (sendMarkers_memOk hs))) e

theorem execBbegin_memOk (e : execBbegin f s = .next s') : s'.memOk = true :=
  issue_memOk hs (fun _ _ hs => by
    split
    · exact yields_error
    · exact yields_check fun _ => yields_guard (goOn_memOk hs)) e

theorem execBdecl_memOk (e : execBdecl f s = .next s') : s'.memOk = true :=
  issue_memOk hs (fun _ _ hs => yields_check fun _ => yields_check fun _ => by
    split
    · exact yields_check fun _ => yields_check fun _ => yields_check fun _ => yields_guard (goOn_memOk (send_memOk (addOut_memOk hs)))
    · exact yields_error) e

theorem execBcommit_memOk (e : execBcommit f s = .next s') : s'.memOk = true :=
  issue_memOk hs (fun _ _ hs => yields_check fun _ => yields_guard (yields_check fun _ =>
      goOn_memOk (ite_memOk (emit_memOk (commitBoost_memOk hs)) (commitBoost_memOk hs)))) e

theorem execBabort_memOk (e : execBabort f s = .next s') : s'.memOk = true :=
  issue_memOk hs (fun _ _ hs => yields_check fun _ => goOn_memOk (emit_memOk (modTile_memOk hs))) e

theorem execBtload_memOk (e : execBtload f s = .next s') : s'.memOk = true :=
  issue_memOk hs (fun _ _ hs => by
    split
    · exact yields_error
    · exact goOn_memOk (foldl_each_memOk (fun _ _ hs => send_memOk hs) (addOut_memOk hs))) e

theorem execBstat_memOk (e : execBstat f s = .next s') : s'.memOk = true :=
  issue_memOk hs (fun _ _ hs => resultLater_memOk hs) e

theorem execTfence_memOk (e : execTfence f s = .next s') : s'.memOk = true :=
  issue_memOk hs (fun _ _ hs => yields_ite (goOn_memOk hs) yields_error) e

theorem execGets_memOk (e : execGets f s = .next s') : s'.memOk = true :=
  issue_memOk hs (fun _ _ hs => yields_check fun _ => goOn_memOk (ite_memOk (mateReads_memOk (resultW_memOk hs)) (resultW_memOk hs))) e

theorem execSets_memOk (e : execSets f s = .next s') : s'.memOk = true :=
  issue_memOk hs (fun _ _ hs => yields_bind (setControl_memOk hs) fun _ hs => goOn_memOk (emit_memOk hs)) e

theorem execSetsTvec_memOk (e : execSetsTvec f s = .next s') : s'.memOk = true :=
  issue_memOk hs (fun _ _ hs => yields_check fun _ => goOn_memOk (emit_memOk (setCore_memOk hs))) e

theorem execSetsSvec_memOk (e : execSetsSvec f s = .next s') : s'.memOk = true :=
  issue_memOk hs (fun _ _ hs => yields_check fun _ => yields_check fun _ => goOn_memOk (emit_memOk (setCore_memOk hs))) e

theorem execSetsSlice_memOk (e : execSetsSlice f s = .next s') : s'.memOk = true :=
  issue_memOk hs (fun _ _ hs => yields_check fun _ => yields_check fun _ => goOn_memOk (emit_memOk (setCore_memOk hs))) e

theorem execSetsCtxbase_memOk (e : execSetsCtxbase f s = .next s') : s'.memOk = true :=
  issue_memOk hs (fun _ _ hs => yields_check fun _ => yields_check fun _ => yields_check fun _ => yields_check fun _ =>
      yields_check fun _ => goOn_memOk (emit_memOk (modTile_memOk hs))) e

theorem execSetsEstat_memOk (e : execSetsEstat f s = .next s') : s'.memOk = true :=
  issue_memOk hs (fun _ _ hs => yields_check fun _ => goOn_memOk (emit_memOk (modHandler_memOk hs))) e

theorem execSeta_memOk (e : execSeta f s = .next s') : s'.memOk = true :=
  issue_memOk hs (fun _ _ hs => yields_check fun _ => yields_guard (goOn_memOk (modTile_memOk (addOut_memOk hs)))) e

theorem execPair_memOk (e : execPair f s = .next s') : s'.memOk = true :=
  issue_memOk hs (fun _ _ hs => by
    split
    · refine yields_check fun _ => yields_check fun _ => yields_ite (resultLater_memOk hs) (yields_ite (resultLater_memOk hs)
        (yields_bind (resultLater_memOk hs) fun _ hs => yields_ok ?_))
      exact advance_memOk (modTile_memOk (modTile_memOk (countRetired_memOk hs)))
    · exact yields_error) e

theorem execUnpair_memOk (e : execUnpair f s = .next s') : s'.memOk = true :=
  issue_memOk hs (fun _ _ hs => goOn_memOk (emit_memOk (ite_memOk (endPair_memOk hs) hs))) e

theorem execDigest_memOk (e : execDigest f s = .next s') : s'.memOk = true :=
  issue_memOk hs (fun _ _ hs => yields_check fun _ => by
    split
    · exact yields_error
    · dsimp only
      split
      · exact yields_ok (eccuKill_memOk hs)
      · exact resultLater_memOk (foldl_keeps (P := fun r : State × Word => r.1.memOk = true) _ _
          (fun _ _ _ hr => readWords_memOk (correct_memOk hr)) _ hs)) e

theorem execDigestClr_memOk (e : execDigestClr f s = .next s') : s'.memOk = true :=
  issue_memOk hs (fun _ _ hs => yields_check fun _ => by
    split
    · exact yields_error
    · exact goOn_memOk hs) e

theorem execHuskcfgDef_memOk (e : execHuskcfgDef f s = .next s') : s'.memOk = true :=
  issue_memOk hs (fun _ _ hs => yields_check fun _ => by
    repeat' split
    all_goals grind [openResult_memOk, cfgResult_memOk, setHusk_memOk, resetHusk_memOk]) e

theorem execHuskcfgKill_memOk (e : execHuskcfgKill f s = .next s') : s'.memOk = true :=
  issue_memOk hs (fun _ _ hs => yields_check fun _ => by
    split
    · exact cfgResult_memOk hs
    · exact yields_ite (cfgResult_memOk hs) (cfgResult_memOk (killHusk_memOk (fenceChoice_memOk hs)))) e

theorem execHuskcfgFlush_memOk (e : execHuskcfgFlush f s = .next s') : s'.memOk = true :=
  issue_memOk hs (fun _ _ hs => yields_check fun _ => yields_ite (cfgResult_memOk hs) (cfgResult_memOk (dropTlb_memOk hs))) e

theorem execHuskcfgTab_memOk (e : execHuskcfgTab f s = .next s') : s'.memOk = true :=
  issue_memOk hs (fun x _ hs => yields_check fun _ => yields_check fun _ => yields_check fun _ => by
    split
    · exact cfgResult_memOk hs
    · refine yields_ite (yields_ok (eccuKill_memOk hs)) ?_
      have hr := readWords_memOk (t := x.t) (off := field x.b 20 0) (n := 8) (correct_memOk (t := x.t) (off := field x.b 20 0)
        (n := 8) hs)
      dsimp only
      generalize readWords _ x.t (field x.b 20 0) 8 = r at hr ⊢
      split
      next h => exact yields_ite (yields_ok (eccuKill_memOk hr)) (cfgResult_memOk (tabWrite_memOk (tabCorrected_memOk hr) h))
      · exact cfgResult_memOk hr) e

theorem execHuskcfgUndef_memOk (e : execHuskcfgUndef f s = .next s') : s'.memOk = true :=
  issue_memOk hs (fun _ _ hs => yields_check fun _ => by
    split
    · exact cfgResult_memOk hs
    · refine yields_ite (cfgResult_memOk hs) ?_
      dsimp only
      refine cfgResult_memOk (setHusk_memOk ?_)
      exact memOk_of_mem rfl (foldl_each_memOk (fun _ _ hs => bindMc_memOk hs) hs)) e

theorem execEvict_memOk (e : execEvict f s = .next s') : s'.memOk = true :=
  issue_memOk hs (fun x _ hs => yields_check fun _ => by
    dsimp only
    split
    · exact resultLater_memOk hs
    · exact resultLater_memOk hs
    next h me _ _ =>
      refine yields_ite (resultLater_memOk hs) ?_
      have hk := recordKeys_memOk (tenant := me) (a := x.b) (n := h.recordLen) (write := true) hs
      split
      next e => rw [e] at hk; exact resultLater_memOk hk
      next e => rw [e] at hk; exact startJob_memOk hk) e

theorem execEvictRestore_memOk (e : execEvictRestore f s = .next s') : s'.memOk = true :=
  issue_memOk hs (fun x _ hs => yields_check fun _ => by
    dsimp only
    split
    · exact resultLater_memOk hs
    · exact resultLater_memOk hs
    next h me _ _ =>
      refine yields_ite (resultLater_memOk hs) ?_
      have hk := recordKeys_memOk (tenant := me) (a := x.b) (n := h.recordLen) (write := false) hs
      split
      next e => rw [e] at hk; exact resultLater_memOk hk
      next e =>
        rw [e] at hk
        exact yields_ite (resultLater_memOk hk) (yields_ite (yields_ok (eccuKill_memOk hk)) (yields_ite (resultLater_memOk hk)
          (startJob_memOk hk)))) e

/-- Every instruction and every event keeps the memory canonical. -/
theorem exec_memOk {i : Instr} (e : exec i s = .next s') : s'.memOk = true := by
  cases i with
  | nop _ => exact issue_memOk hs (fun _ _ hs => goOn_memOk hs) e
  | add _ | sub _ | mul _ | mulh _ | mulhn _ | and _ | or _ | xor _ | andn _ | clz _ | ctz _ | popc _ | min _ | max _ | minn _ | maxn _
    | mov _ => exact issue_memOk hs (fun _ _ hs => intOp_memOk hs) e
  | addi _ | shl _ | shr _ | sar _ | rol _ | sel _ | movi _ | fabs _ | fneg _
    | vget _ => exact issue_memOk hs (fun _ _ hs => goOn_memOk (resultN_memOk hs)) e
  | div _ | divn _ | rem _ | remn _ => exact issue_memOk hs (fun _ _ hs => divOp_memOk hs) e
  | sext _ | zext _ | bfx _ | bfxn _ | bfi _ | movh _ | movhTop _ | plog _ | fclass _
    | rand _ => exact issue_memOk hs (fun _ _ hs => goOn_memOk (resultW_memOk hs)) e
  | cmp _ | cmpi _ | pset _ | fcmp _ | vput _ | randInc _ | setit _
    | advit _ => exact issue_memOk hs (fun _ _ hs => goOn_memOk (emit_memOk hs)) e
  | fadd _ | fsub _ | fmul _ | ffma _ | fmin _ | fmax _ | fcvt _ | ftoi _
    | itof _ => exact issue_memOk hs (fun _ _ hs => floatRes_memOk hs) e
  | fdiv _ | fsqrt _ => exact issue_memOk hs (fun _ _ hs => startDivider_memOk hs) e
  | br _ | bri _ => exact issue_memOk hs (fun _ _ hs => transfer_memOk hs (checkedJump_memOk hs)) e
  | call _ | calli _ => exact issue_memOk hs (fun _ _ hs => withWrite_memOk (transfer_memOk hs (checkedJump_memOk hs))) e
  | ret _ => exact issue_memOk hs (fun _ _ hs => transfer_memOk hs (plainJump_memOk hs)) e
  | loop _ => exact issue_memOk hs (fun _ _ hs => withWrite_memOk (transfer_memOk hs (yields_ite (goOn_memOk hs) (checkedJump_memOk hs)))) e
  | done _ => exact issue_memOk hs (fun _ _ hs => doneBody_memOk hs) e
  | vadd _ | vsub _ | vmul _ | vmin _ | vmax _ | vcmp _ => exact issue_memOk hs (fun _ _ hs => block2_memOk hs) e
  | vfma _ | vfms _ => exact issue_memOk hs (fun _ _ hs => block3_memOk hs) e
  | vabs _ | vneg _ | vrnd _ => exact issue_memOk hs (fun _ _ hs => block1_memOk hs) e
  | vand _ | vor _ | vxor _ => exact issue_memOk hs (fun _ _ hs => blockW2_memOk hs) e
  | vnot _ | vmov _ => exact issue_memOk hs (fun _ _ hs => blockW1_memOk hs) e
  | vshl _ | vshr _ | vsar _ => exact issue_memOk hs (fun _ _ hs => blockShift_memOk hs) e
  | vsel _ | vbcast _ | vcvt _ => exact issue_memOk hs (fun _ _ hs => goOn_memOk (blockMap_memOk hs)) e
  | vperm _ | vtrn _ | vdq _ => exact issue_memOk hs (fun _ _ hs => goOn_memOk (blockResult_memOk hs)) e
  | vredr _ | vredc _ | vscan _ => exact issue_memOk hs (fun _ _ hs => startReduction_memOk hs) e
  | vrcp _ | vrsq _ | vexp2 _ | vlog2 _ | vtanh _ => exact issue_memOk hs (fun _ _ hs => blockFun_memOk hs) e
  | vqblk _ | msca _ => exact issue_memOk hs (fun _ _ hs => goOn_memOk (runResult_memOk hs)) e
  | vrand _ | vrandInc _ => exact issue_memOk hs (fun _ _ hs => vrandBody_memOk hs) e
  | mcfg _ | mloadb _ | mloadz _ | mrbuf _ | mrbufBc _ | mgang _ | mmul _ | mzeroAcc _ | mzeroZp _ | mdrain _ | mdrainp _ | mchkcfg _
    | msave _ | msaveFree _ | mrestore _ => exact issue_memOk hs (fun _ _ hs => matrixBody_memOk hs) e
  | mstat _ | mstatClr _ => exact issue_memOk hs (fun _ _ hs => mstatBody_memOk hs) e
  | ld _ | ldb _ | stb _ | ldacq _ | stfar _ | stfarB _ => exact issue_memOk hs (fun _ _ hs => access_memOk hs) e
  | ldf _ | ldfe _ | stf _ | stef _ | setf _ | sete _ => exact issue_memOk hs (fun _ _ hs => feAccess_memOk hs) e
  | ldaW _ | ldaT _ | ldaN _ => exact issue_memOk hs (fun _ _ hs => ldaBody_memOk hs) e
  | sta _ | stam _ => exact issue_memOk hs (fun _ _ hs => staBody_memOk hs) e
  | endw _ | endwGroup _ => exact issue_memOk hs (fun _ _ hs => endwBody_memOk hs) e
  | aadd _ | amin _ | amax _ | aminn _ | amaxn _ | aand _ | aor _ | axor _ | aswap _
    | acas _ => exact issue_memOk hs (fun _ _ hs => amoBody_memOk hs) e
  | balw _ => exact issue_memOk hs (fun _ _ hs => transfer_memOk hs (yields_ite (checkedJump_memOk hs) (goOn_memOk hs))) e
  | trap _ | trapS _ => exact issue_memOk hs (fun _ _ hs => trapBody_memOk hs) e
  | tret _ => exact issue_memOk hs (fun _ _ hs => tretBody_memOk hs) e
  | brkpt _ => exact issue_memOk hs (fun _ _ _ => yields_error) e
  | bru _ => exact execBru_memOk hs e
  | ifence _ => exact execIfence_memOk hs e
  | st _ => exact execSt_memOk hs e
  | stOf _ => exact execStOf_memOk hs e
  | strel _ => exact execStrel_memOk hs e
  | ageq _ => exact execAgeq_memOk hs e
  | farreq _ => exact execFarreq_memOk hs e
  | fence _ => exact execFence_memOk hs e
  | fenceAck _ => exact execFenceAck_memOk hs e
  | send _ => exact execSend_memOk hs e
  | sendb _ => exact execSendb_memOk hs e
  | spawn _ => exact execSpawn_memOk hs e
  | park _ => exact execPark_memOk hs e
  | wait _ => exact execWait_memOk hs e
  | yield _ => exact execYield_memOk hs e
  | wkset _ => exact execWkset_memOk hs e
  | wkdec _ => exact execWkdec_memOk hs e
  | qbindPop _ => exact execQbindPop_memOk hs e
  | qbindPush _ => exact execQbindPush_memOk hs e
  | qbindNone _ => exact execQbindNone_memOk hs e
  | hqcfg _ => exact execHqcfg_memOk hs e
  | albind _ => exact execAlbind_memOk hs e
  | albindNone _ => exact execAlbindNone_memOk hs e
  | mask1 _ => exact execMask1_memOk hs e
  | unmask1 _ => exact execUnmask1_memOk hs e
  | launch _ => exact execLaunch_memOk hs e
  | lstat _ => exact execLstat_memOk hs e
  | barw _ => exact execBarw_memOk hs e
  | bara _ => exact execBara_memOk hs e
  | quant _ => exact execQuant_memOk hs e
  | quantW _ => exact execQuantW_memOk hs e
  | bbegin _ => exact execBbegin_memOk hs e
  | bdecl _ => exact execBdecl_memOk hs e
  | bcommit _ => exact execBcommit_memOk hs e
  | babort _ => exact execBabort_memOk hs e
  | btload _ => exact execBtload_memOk hs e
  | bstat _ => exact execBstat_memOk hs e
  | tfence _ => exact execTfence_memOk hs e
  | gets _ => exact execGets_memOk hs e
  | sets _ => exact execSets_memOk hs e
  | setsTvec _ => exact execSetsTvec_memOk hs e
  | setsSvec _ => exact execSetsSvec_memOk hs e
  | setsSlice _ => exact execSetsSlice_memOk hs e
  | setsCtxbase _ => exact execSetsCtxbase_memOk hs e
  | setsEstat _ => exact execSetsEstat_memOk hs e
  | seta _ => exact execSeta_memOk hs e
  | pair _ => exact execPair_memOk hs e
  | unpair _ => exact execUnpair_memOk hs e
  | digest _ => exact execDigest_memOk hs e
  | digestClr _ => exact execDigestClr_memOk hs e
  | huskcfgDef _ => exact execHuskcfgDef_memOk hs e
  | huskcfgKill _ => exact execHuskcfgKill_memOk hs e
  | huskcfgFlush _ => exact execHuskcfgFlush_memOk hs e
  | huskcfgTab _ => exact execHuskcfgTab_memOk hs e
  | huskcfgUndef _ => exact execHuskcfgUndef_memOk hs e
  | evict _ => exact execEvict_memOk hs e
  | evictRestore _ => exact execEvictRestore_memOk hs e
  | boot _ => exact execBoot_memOk hs e
  | linkFailure _ _ => exact execLinkFailure_memOk hs e
  | backgroundScrub _ => exact execBackgroundScrub_memOk hs e
  | ownerCertificate _ => exact execOwnerCertificate_memOk hs e
  | ownershipHandover _ => exact execOwnershipHandover_memOk hs e
  | leaseRenewal _ => exact execLeaseRenewal_memOk hs e
  | tenantSessionBind _ _ => exact execTenantSessionBind_memOk hs e
  | hostRead _ => exact execHostRead_memOk hs e
  | hostWrite _ => exact execHostWrite_memOk hs e
  | hostAtomic _ => exact execHostAtomic_memOk hs e
  | hostLaunchSubmit _ => exact execHostLaunchSubmit_memOk hs e
  | objectLoad _ => exact execObjectLoad_memOk hs e
  | attestationReport _ _ => exact execAttestationReport_memOk hs e
  | farStoreArrival _ => exact execFarStoreArrival_memOk hs e
  | queuePortPush _ => exact execQueuePortPush_memOk hs e
  | queuePortPop _ => exact execQueuePortPop_memOk hs e
  | lateFaultReport _ => exact execLateFaultReport_memOk hs e
  | remoteAccessArrival _ => exact execRemoteAccessArrival_memOk hs e
  | routerAtomicMerge _ _ => exact execRouterAtomicMerge_memOk hs e
  | loadReply _ => exact execLoadReply_memOk hs e
  | acknowledgementArrival _ => exact execAcknowledgementArrival_memOk hs e
  | gatewayAccess _ => exact execGatewayAccess_memOk hs e
  | tstatWrite _ => exact execTstatWrite_memOk hs e
  | stickyWrite _ => exact execStickyWrite_memOk hs e
  | packageReset => exact execPackageReset_memOk hs e
  | freeze => exact execFreeze_memOk hs e
  | freezeRestart => exact execFreezeRestart_memOk hs e
  | railThermalAlarm => exact execRailThermalAlarm_memOk hs e
  | leaseLapse => exact execLeaseLapse_memOk hs e
  | farreqArrival => exact execFarreqArrival_memOk hs e
  | requestProgramStart => exact execRequestProgramStart_memOk hs e
  | requestProgramEnd => exact execRequestProgramEnd_memOk hs e
  | apertureRequestArrival => exact execApertureRequestArrival_memOk hs e
  | bteBackoffRetry => exact execBteBackoffRetry_memOk hs e
  | copyCompletion => exact execCopyCompletion_memOk hs e
  | copyFault => exact execCopyFault_memOk hs e
  | scaleDescriptorDelivery => exact execScaleDescriptorDelivery_memOk hs e
  | wakeCounterDecrement => exact execWakeCounterDecrement_memOk hs e
  | messageArrival => exact execMessageArrival_memOk hs e
  | startArrival => exact execStartArrival_memOk hs e
  | spawnPodArrival => exact execSpawnPodArrival_memOk hs e
  | parkContinuationArrival => exact execParkContinuationArrival_memOk hs e
  | queueRecordArrival => exact execQueueRecordArrival_memOk hs e
  | allowanceGrantArrival => exact execAllowanceGrantArrival_memOk hs e
  | grantWithheldRelease => exact execGrantWithheldRelease_memOk hs e
  | congestionHalving => exact execCongestionHalving_memOk hs e
  | niUnaidedRetry => exact execNiUnaidedRetry_memOk hs e
  | podStart => exact execPodStart_memOk hs e
  | podTake => exact execPodTake_memOk hs e
  | level1Entry => exact execLevel1Entry_memOk hs e
  | timeSliceExpiry => exact execTimeSliceExpiry_memOk hs e
  | trapEntry => exact execTrapEntry_memOk hs e
  | atomicAtHome => exact execAtomicAtHome_memOk hs e
  | mergedReplySplit => exact execMergedReplySplit_memOk hs e
  | feAccessAtHome => exact execFeAccessAtHome_memOk hs e
  | stampedStoreAtHome => exact execStampedStoreAtHome_memOk hs e
  | mirrorDelivery => exact execMirrorDelivery_memOk hs e
  | ldaAtHome => exact execLdaAtHome_memOk hs e
  | ageqAtHome => exact execAgeqAtHome_memOk hs e
  | stopNoticeArrival => exact execStopNoticeArrival_memOk hs e
  | ofStoreArrival => exact execOfStoreArrival_memOk hs e
  | ofFlagApply => exact execOfFlagApply_memOk hs e
  | multicastDelivery => exact execMulticastDelivery_memOk hs e
  | launchAcceptance => exact execLaunchAcceptance_memOk hs e
  | slotMapping => exact execSlotMapping_memOk hs e
  | slotRotation => exact execSlotRotation_memOk hs e
  | groupPlacement => exact execGroupPlacement_memOk hs e
  | groupRetirement => exact execGroupRetirement_memOk hs e
  | barrierPhaseComplete => exact execBarrierPhaseComplete_memOk hs e
  | quantumCountExpiry => exact execQuantumCountExpiry_memOk hs e
  | deliveryWindowEnd => exact execDeliveryWindowEnd_memOk hs e
  | declarationAtHome => exact execDeclarationAtHome_memOk hs e
  | abortNoticeArrival => exact execAbortNoticeArrival_memOk hs e
  | boostedAbort => exact execBoostedAbort_memOk hs e
  | undoTaskStart => exact execUndoTaskStart_memOk hs e
  | undoFinish => exact execUndoFinish_memOk hs e
  | lockReleaseAtHome => exact execLockReleaseAtHome_memOk hs e
  | matrixQueuePerform => exact execMatrixQueuePerform_memOk hs e
  | matrixInstructionCompletion => exact execMatrixInstructionCompletion_memOk hs e
  | peerAddArrival => exact execPeerAddArrival_memOk hs e
  | gangBarrierComplete => exact execGangBarrierComplete_memOk hs e
  | pairIntervalClose => exact execPairIntervalClose_memOk hs e
  | evictStopped => exact execEvictStopped_memOk hs e
  | evictDrained => exact execEvictDrained_memOk hs e
  | evictSaved => exact execEvictSaved_memOk hs e
  | restoreComplete => exact execRestoreComplete_memOk hs e
  | setaDrainComplete => exact execSetaDrainComplete_memOk hs e
  | dividerCompletion => exact execDividerCompletion_memOk hs e
  | reductionCompletion => exact execReductionCompletion_memOk hs e
  | fixedLatencyResultWrite => exact execFixedLatencyResultWrite_memOk hs e
  | quantumMarkerArrival => exact execQuantumMarkerArrival_memOk hs e

end Sys2Proof.Machine
end

section
/-!
SUPPORT. The canonical form is kept by a step: the line is entered, the instruction there runs, or an event or an input is taken.
-/

namespace Sys2Proof.Machine

open Sys2Proof

/-- A line that is entered, or that faults, leaves the memory canonical. -/
def Entry.memOk : Entry → Prop
  | .ready s => s.memOk = true
  | .faulted s => s.memOk = true
  | .wait => True

theorem enterFetched_memOk {s : State} {t : Nat} {w : Who} {pc : Word} (hs : s.memOk = true) : (enterFetched s t w pc).memOk := by
  have hl := lineAt_memOk (t := t) (pc := pc) hs
  simp only [enterFetched]
  split
  · exact trapNow_memOk hl
  · exact modTile_memOk hl

theorem ite_entry_memOk {b : Prop} {_ : Decidable b} {e e' : Entry} (he : e.memOk) (he' : e'.memOk) : (if b then e else e').memOk := by
  split
  · exact he
  · exact he'

theorem enterLine_memOk {s : State} {t : Nat} {w : Who} (hs : s.memOk = true) : (enterLine s t w).memOk := by
  have hf := enterFetched_memOk (t := t) (w := w) (pc := ((s.tile t).task w).pc) hs
  unfold enterLine
  refine ite_entry_memOk hs (ite_entry_memOk trivial (ite_entry_memOk ?_ (ite_entry_memOk (ite_entry_memOk hf (ite_entry_memOk ?_ trivial)) hf)))
  · split
    · exact ite_entry_memOk (setTile_memOk hs) trivial
    · trivial
  · generalize enterFetched s t w _ = entry at hf
    cases entry with
    | ready => exact forward_memOk hf
    | faulted => exact hf
    | wait => trivial

section Running
variable {run : Instr → State → Host.Outcome State Fault Refusal} (hrun : ∀ i s s', s.memOk = true → run i s = .next s' → s'.memOk = true)
variable {s s' : State} {t : Nat} {w : Who} {lb : LineBuf} (hs : s.memOk = true)
include hrun hs

theorem runHere_memOk (e : runHere run s t w lb = .next s') : s'.memOk = true := by
  unfold runHere at e
  split at e
  · exact hrun _ _ _ hs e
  · exact Host.Outcome.next.inj e ▸ unassigned_memOk hs

theorem pairWait_memOk (e : pairWait run s t w lb = some s') : s'.memOk = true := by
  simp only [pairWait] at e
  split at e
  next h =>
    have := runHere_memOk hrun (atSecond_memOk hs) h
    grind [modTile_memOk]
  · cases e

theorem runSlot_memOk (e : runSlot run s t w lb = .next s') : s'.memOk = true := by
  unfold runSlot at e
  split at e
  next s1 h =>
    have h1 := runHere_memOk hrun hs h
    cases hp : pairWait run s t w lb with
    | none => grind [modTile_memOk]
    | some s2 =>
      have := pairWait_memOk hrun hs hp
      grind [modTile_memOk]
  next h => exact absurd e (h s')

theorem issueNext_memOk (e : issueNext run s = .next s') : s'.memOk = true := by
  simp only [issueNext] at e
  split at e
  · cases e
  next w _ =>
    have he := enterLine_memOk (t := s.cur) (w := w) hs
    generalize enterLine s s.cur w = entry at he e
    cases entry with
    | wait => cases e
    | faulted => exact Host.Outcome.next.inj e ▸ he
    | ready s1 =>
      dsimp only at e
      split at e
      · cases e
      · exact runSlot_memOk hrun he e

theorem move_memOk {m : Move} (e : m.run run s = .next s') : s'.memOk = true := by
  have hm : ({ s with cur := m.cur, sel := m.sel } : State).memOk = true := hs
  unfold Move.run at e
  split at e
  · exact hrun _ _ _ hm e
  · exact issueNext_memOk hrun hm e

theorem take_memOk {m : Move} (e : take run m s = .next s') : s'.memOk = true := by
  refine move_memOk hrun ?_ e
  split
  · exact noteTurn_memOk hs
  · exact hs

theorem takeInput_memOk (e : takeInput run s = .next s') : s'.memOk = true := by
  simp only [takeInput] at e
  split at e
  · exact Host.Outcome.next.inj e ▸ hs
  next i r _ =>
    have hin : ∀ l, ({ s with inputs := l } : State).memOk = true := fun _ => memOk_of_mem rfl hs
    split at e
    · exact Host.Outcome.next.inj e ▸ hin r
    split at e
    · exact Host.Outcome.next.inj e ▸ hin (r ++ [i])
    split at e
    · split at e
      · exact Host.Outcome.next.inj e ▸ hin (r ++ [i])
      · exact Host.Outcome.next.inj e ▸ hin r
    · exact hrun _ _ _ (hin r) e

theorem stepWith_memOk (e : stepWith run s = .next s') : s'.memOk = true := by
  simp only [stepWith] at e
  split at e
  · exact Host.Outcome.next.inj e ▸ hs
  · exact takeInput_memOk hrun hs e
  · exact take_memOk hrun hs e
  · split at e
    · exact take_memOk hrun (choose_memOk hs) e
    · exact takeInput_memOk hrun (choose_memOk hs) e

end Running

/-- Settles O55: every instruction and every event keeps the memory canonical, and a step runs one of them. -/
theorem stepKeepsTheMemoryCanonical : Obligations.StepKeepsTheMemoryCanonical := by
  unfold Obligations.StepKeepsTheMemoryCanonical
  intro s t hs e
  exact stepWith_memOk (fun _ _ _ hs e => exec_memOk hs e) hs e

end Sys2Proof.Machine
end

section
/-!
SUPPORT. Accesses to the own slice: an access that its core performs at once completes as its home answers (spec/06 R101).
-/

namespace Sys2Proof.Machine

open Sys2Proof

section OwnAccess
variable {x : In} {s : State} {r : Req} {a : Word} {al : Bool} {off : Nat}

/-- An access that goes to the core's own slice at once is performed there. -/
theorem access_own (ht : x.t < numTiles) (hg : checkAddr s x.t r.k a al = .ok (.sram x.t off)) (hown : ownAtOnce x s r x.t = true) :
    access x s r a al = accessOwn x s r a off := by
  rw [access, if_neg (Nat.not_le.mpr ht), hg]
  exact if_pos hown

/-- What the own slice answers decides how the access goes on: it is over but for the answer, parked, left with the NI, or turned away. -/
theorem accessOwn_of_answer {s0 s2 : State} {ans : Answer} (horder : ownOrder s x.t x.w x.t off r.op = .ok ())
    (hpair : pairOwn s x.t off r.op a = .ok s0)
    (hp : performAt s0 x.t off r.op (.core x.t x.seq (genOf (s.tile x.t) x.w)) (!((s.tile x.t).task x.w).sup)
      ((s.tile x.t).activeBoost x.w) (some (s0.cidOf x.t)) = (s2, ans)) :
    let path := pathOf x.t (off / 64)
    let sent (s : State) : State := if opModifies r.op then s.modTile x.t fun u => u.countSent x.t path else s
    let counted (s : State) : State :=
      if opModifies r.op then (s.modTile x.t fun u => u.countSent x.t path).countArrival x.t x.t path 0 none else s
    ((ans = .done ∨ ∃ ws age, ans = .data ws age) → accessOwn x s r a off =
      .ok ((counted (addOut s2 x { r.out x a with slow := r.returns })).send (mkPacket x.t x.t x.seq none (.reply ans)), .next))
    ∧ (ans = .parked → accessOwn x s r a off = .ok (sent (addOut s2 x { r.out x a with parked := true, slow := true }), .next))
    ∧ (ans = .full → accessOwn x s r a off = .ok ((sent (addOut s2 x { r.out x a with status := true })).send
        { mkPacket x.t x.t x.seq (lineChan off) (.access off r.op (!((s.tile x.t).task x.w).sup) ((s.tile x.t).activeBoost x.w)) with
          span := lineSpan off (opLen r.op), refused := true, path := path, counted := opModifies r.op
          epoch := (s.tile x.t).epochTo x.t }, .next))
    ∧ ∀ c, ans = .fault c → c ≠ .eccu → accessOwn x s r a off =
        .error (if opModifies r.op then .turnedAway c a path false else .trap c a none false) := by
  simp only [accessOwn, horder, hpair, hp, bind, Except.bind]
  refine ⟨?_, fun h => by subst h; rfl, fun h => by subst h; rfl, fun c h hc => ?_⟩
  · rintro (rfl | ⟨ws, age, rfl⟩) <;> rfl
  · subst h
    cases c
    case eccu => exact absurd rfl hc
    all_goals cases opModifies r.op <;> rfl

end OwnAccess

/-- An instruction that issues and whose access stops settles as the access says. -/
theorem exec_of_access_stops {s : State} {w : Who} {i : Instr} {m : Form} {f : Fields} {s1 : State} {x : In} {r : Req} {a : Word} {al : Bool}
    {g : Target} {e : Stop} (hi : Issues s w i m f s1 x) (hr : request i x s1 = some (r, a, al)) (hc : checkedFirst i x s1)
    (hrel : released i x s1 = true) (ht : x.t < numTiles) (hg : checkAddr s1 x.t r.k a al = .ok g) (hna : ∀ ch, g ≠ .aperture ch)
    (hacc : access x s1 r a al = .error e) : exec i s = settle s s.cur w ((s.tile s.cur).task w).pc e := by
  obtain ⟨body, hexec, hbody⟩ := exec_request hi.form hi.fields
  rw [hexec]
  exact issue_of_stops hi ((hbody x s1 r a al g hi.operands.2.2 hr hc hrel ht hg hna).trans hacc)

/-- Settles O12: the instruction's access is performed on its own slice, and each answer of it is taken in turn. -/
theorem ownSliceAccessesComplete : Obligations.OwnSliceAccessesComplete := by
  unfold Obligations.OwnSliceAccessesComplete
  intro s w i m f s1 x r a al off s0 s2 ans hi hr hc hrel ht hg hown horder hpair hp path sent counted
  have hna : ∀ ch, Target.sram x.t off ≠ .aperture ch := fun _ => Target.noConfusion
  obtain ⟨hover, hparked, hfull, hfault⟩ := accessOwn_of_answer horder hpair hp
  have completes {s2 : State} (h : accessOwn x s1 r a off = .ok (s2, .next)) : exec i s = .next (retired s1 x m s2 .next) :=
    exec_of_access hi hr hc hrel ht hg hna ((access_own ht hg hown).trans h)
  refine ⟨fun h => completes (hover h), fun h => completes (hparked h), fun h => completes (hfull h), fun c h hne => ?_⟩
  rw [exec_of_access_stops hi hr hc hrel ht hg hna ((access_own ht hg hown).trans (hfault c h hne))]
  cases opModifies r.op <;> rfl

end Sys2Proof.Machine
end

section
/-!
SUPPORT. Ordered flag stores: the counts they take along, the next epoch, and the own slice (spec/04 R68, R69).
-/

namespace Sys2Proof.Machine

open Sys2Proof

theorem ok_bind {α β : Type} (a : α) (g : α → Except Stop β) : (Except.ok a >>= g) = g a := rfl

theorem ownFlag_of_husks {s : State} {p : Packet} (h : (applyFlag s p).husks = s.husks) : ownFlag s p = .ok (applyFlag s p, .next) := by
  simp only [ownFlag, h, beq_self_eq_true, if_true]
  rfl

section OrderedFlag
variable {s s1 s2 : State} {w : Who} {m : Form} {f : Fields} {x : In} {h off : Nat}

/-- A memory-core program's ordered flag store is an engine write. -/
theorem exec_stOf_mc (hi : Issues s w (.stOf f) m f s1 x) (ht : numTiles ≤ x.t) (hr : regionOf x.addr = 0x00)
    (hg : checkAddr s1 x.t (.store true) x.addr x.aligned = .ok (.sram h off)) :
    exec (.stOf f) s = .next (retired s1 x m ((addOut s1 x
        { tag := 0, who := x.w, kind := .store, addr := x.addr, op := some (.stf x.size x.data), slow := true, status := true }).send
      { mkPacket x.t h x.seq (lineChan off) (.access off (.stf x.size x.data) (s1.tenantOf x.t != some 0) false) with
        span := lineSpan off x.size }) .next) := by
  cases hi.form
  refine issue_of_issues hi ?_
  simp only [ht, if_true, hr, beq_self_eq_true, mcSlice, bind, Except.bind, hg]
  rfl

/-- One to another package takes its unit, and the counts, and begins the next epoch. -/
theorem exec_stOf_remote {chip rx ry k : Nat} {u1 : Tile} (hi : Issues s w (.stOf f) m f s1 x) (ht : x.t < numTiles)
    (hni : niFull s1 x.t x.addr = false) (hg : checkAddr s1 x.t .storeOf x.addr x.aligned = .ok (.remote chip rx ry off))
    (hunits : takeUnits (s1.tile x.t) (chipDst chip) 1 = .ok (k, u1)) :
    let u := s1.tile x.t
    let op : MemOp := .store x.size x.data
    let path := pathOf (chipDst chip) (x.addr.toNat % 2 ^ 33 / 64)
    let sent := s1.setTile x.t ((u1.countSent (chipDst chip) path).nextEpoch (chipDst chip))
    pairHold sent x.t x.w [2 ^ 64 + sent.nextId] op x.addr = .ok s2 →
    let s3 := addOut s2 x { tag := 0, who := x.w, kind := .store, addr := x.addr, op := some op
                            remote := true, late := true, slow := true, al := k, units := 1 }
    exec (.stOf f) s = .next (retired s1 x m { s3 with
      nextId := s3.nextId + 1
      egress := s3.egress ++ [{ chip := chip, src := x.t, tag := x.seq, path := path, addr := x.addr, op := some op
                                counts := countsTo u (chipDst chip), held := u.pairing.isSome, epoch := u.epochTo (chipDst chip)
                                behind := s1.staysBehind x.t x.addr x.size }] } .next) := by
  intro u op path sent hhold
  cases hi.form
  refine issue_of_issues hi ?_
  simp only [Nat.not_le.mpr ht, if_false, bind, Except.bind, hg, hni, Bool.false_eq_true, hunits]
  rw [show pairHold _ _ _ _ _ _ = _ from hhold]
  rfl

/-- One to a tile leaves with its counts where it may: its checks have passed, nothing that the task has under way holds it back, and it is
logged or buffered where the core leads a pair. -/
theorem exec_stOf_tile (hi : Issues s w (.stOf f) m f s1 x) (ht : x.t < numTiles) (hni : niFull s1 x.t x.addr = false)
    (hg : checkAddr s1 x.t .storeOf x.addr x.aligned = .ok (.sram h off)) (hmat : matrixMeets s1 x.t x.w h off x.size true = false) :
    let u := s1.tile x.t
    let op : MemOp := .store x.size x.data
    let user := !(u.task x.w).sup
    let held : Bool := u.pairing.isSome
    (if h = x.t && held then ownOrder s1 x.t x.w h off op else behindParked s1 x.t x.w h off op) = .ok () →
    (h = x.t → Sparse.get none s1.epochs (epochKey x.t h (u.epochTo h)) = none →
      flagFault s1 h off x.size x.data user (u.activeBoost x.w) = none) →
    let path := pathOf h (off / 64)
    let p := { mkPacket x.t h x.seq (lineChan off) (.flag off x.size x.data (countsTo u h) user (u.activeBoost x.w)) with
      path := path, counted := true, epoch := u.epochTo h }
    let s3 := addOut (s1.modTile x.t fun u => (u.countSent h path).nextEpoch h) x
      { tag := 0, who := x.w, kind := .store, addr := x.addr, op := some op, late := true
        status := h != x.t && !held, slow := h != x.t }
    (h ≠ x.t → pairHold (s3.send p) x.t x.w [s1.nextId] op x.addr = .ok s2 → exec (.stOf f) s = .next (retired s1 x m s2 .next))
    ∧ (h = x.t → pairOwn s3 x.t off op x.addr = .ok s2 →
      ((held && countsReached s2 p (countsTo u h)) = false → exec (.stOf f) s = .next (retired s1 x m (s2.send p) .next))
      ∧ ((held && countsReached s2 p (countsTo u h)) = true → (applyFlag s2 p).husks = s2.husks →
        exec (.stOf f) s = .next (retired s1 x m (applyFlag s2 p) .next))) := by
  intro u op user held horder hflag path p s3
  have hfault : (if h = x.t && !(Sparse.get none s1.epochs (epochKey x.t h (u.epochTo h))).isSome
      then flagFault s1 h off x.size x.data user (u.activeBoost x.w) else none) = none := by
    split
    next hc =>
      simp only [Bool.and_eq_true, decide_eq_true_eq, Bool.not_eq_true', Option.isSome_eq_false_iff, Option.isNone_iff_eq_none] at hc
      exact hflag hc.1 hc.2
    · rfl
  have hsends {g : Unit → Except Stop (State × After)} :
      (if h = x.t && (s1.tile x.t).pairing.isSome then ownOrder s1 x.t x.w h off (.store x.size x.data) >>= g
        else behindParked s1 x.t x.w h off (.store x.size x.data) >>= g) = g () := by
    rw [← apply_ite (fun r : Except Stop Unit => r >>= g), show ite _ _ _ = Except.ok () from horder]
    rfl
  cases hi.form
  refine ⟨fun hh hhold => issue_of_issues hi ?_, fun hh hpair => ⟨fun hr => issue_of_issues hi ?_, fun hr hk => issue_of_issues hi ?_⟩⟩
  all_goals
    simp only [if_neg (Nat.not_le.mpr ht), hg, ok_bind, hni, hmat, Bool.false_eq_true, if_false, hsends]
    rw [show ite _ _ _ = _ from hfault]
    rw [← Option.not_isSome]
    dsimp only
  · rw [if_pos (bne_iff_ne.mpr hh)]
    exact congrArg (· >>= goOn) hhold
  · rw [if_neg (by simpa using hh)]
    refine (congrArg (· >>= fun s => if held && countsReached s p (countsTo u h) then ownFlag s p else goOn (s.send p)) hpair).trans ?_
    exact if_neg (Bool.not_eq_true _ ▸ hr)
  · rw [if_neg (by simpa using hh)]
    refine (congrArg (· >>= fun s => if held && countsReached s p (countsTo u h) then ownFlag s p else goOn (s.send p)) hpair).trans ?_
    exact (if_pos hr).trans (ownFlag_of_husks hk)

end OrderedFlag

/-- Settles O16: by where the flag goes, a memory core's slice, a tile of the package or another package. -/
theorem orderedFlagStoresComplete : Obligations.OrderedFlagStoresComplete := by
  unfold Obligations.OrderedFlagStoresComplete
  intro s w m f s1 x hi u op user held
  refine ⟨fun h off => exec_stOf_mc hi, fun ht hni => ⟨fun h off s2 hg hmat horder hflag => ?_, fun chip rx ry off k u1 s2 hg hunits => ?_⟩⟩
  · exact exec_stOf_tile hi ht hni hg hmat horder hflag
  · exact exec_stOf_remote hi ht hni hg hunits

end Sys2Proof.Machine
end

section
/-!
SUPPORT. The entry of a matrix instruction into the queue of its array (spec/14 R247 to R249).
-/

namespace Sys2Proof.Machine

open Sys2Proof

section Table
variable {α : Type} [DecidableEq α]

omit [DecidableEq α] in
theorem Sparse.erase_erase (k : Nat) (m : Sparse α) : Sparse.erase k (Sparse.erase k m) = Sparse.erase k m := by
  induction m with
  | nil => rfl
  | cons e m ih =>
    by_cases h : e.1 = k
    · rw [show Sparse.erase k (e :: m) = Sparse.erase k m from if_pos h, ih]
    · rw [show Sparse.erase k (e :: m) = e :: Sparse.erase k m from if_neg h]
      exact (if_neg h).trans (congrArg _ ih)

omit [DecidableEq α] in
theorem Sparse.erase_insertSorted (k : Nat) (v : α) (m : Sparse α) : Sparse.erase k (Sparse.insertSorted k v m) = Sparse.erase k m := by
  induction m with
  | nil => exact if_pos rfl
  | cons e m ih =>
    simp only [Sparse.insertSorted]
    split
    · exact if_pos rfl
    · simp only [Sparse.erase, ih]

/-- The second of two writes to a key stands. -/
theorem Sparse.set_set (d : α) (m : Sparse α) (k : Nat) (v w : α) : Sparse.set d (Sparse.set d m k v) k w = Sparse.set d m k w := by
  have herase : Sparse.erase k (Sparse.set d m k v) = Sparse.erase k m := by
    unfold Sparse.set
    split
    · exact Sparse.erase_erase k m
    · rw [Sparse.erase_insertSorted, Sparse.erase_erase]
  have hset (l : Sparse α) : Sparse.set d l k w = if w = d then Sparse.erase k l else Sparse.insertSorted k w (Sparse.erase k l) := rfl
  rw [hset, hset, herase]

end Table

theorem State.setTile_setTile (s : State) (t : Nat) (u v : Tile) : (s.setTile t u).setTile t v = s.setTile t v := by
  simp only [State.setTile, Sparse.set_set]

section MatrixQueue
variable {x : In} {s : State}

/-- The entry of an instruction in the queue of its tile. -/
def queueEntry (i : Instr) (x : In) (v : Tile) : MQ :=
  { i := i, a := x.a, b := x.b, pc := x.pc, who := x.w, lower := x.f.setc.toNat, gang := v.matrix.gangDue x.w, tag := x.seq
    px := (v.task x.w).px }

/-- The tile once the instruction has entered its queue. -/
def withEntry (i : Instr) (x : In) (v : Tile) : Tile :=
  { v.modTask x.w (·.raise x.f.setc.toNat) with
    matrix := { v.matrix with
      queue := v.matrix.queue ++ [queueEntry i x v]
      gangNext := match x.w with
        | .img j => v.matrix.gangNext &&& ~~~(1#8 <<< j)
        | _ => v.matrix.gangNext
      after := match x.w with
        | .img j => if v.matrix.toTake.any fun e => e.1 = j then v.matrix.after ++ [(j, x.f.setc.toNat)] else v.matrix.after
        | _ => v.matrix.after } }

/-- An instruction for which the queue has room, and nothing on its way to its bytes, enters it. -/
theorem enqueue_enters {i : Instr} (hroom : (s.tile x.t).matrix.queue.length < 8)
    (horder : queueOrder s x.t (queueEntry i x (s.tile x.t)) = .ok ()) :
    enqueue x s i = .ok (s.setTile x.t (withEntry i x (s.tile x.t)), .next) := by
  have hmatrix (m : Matrix) (q : MQ) : ({ m with queue := m.queue ++ [q] }.gangTaken x.w).noteAfter x.w x.f.setc.toNat =
      { m with
        queue := m.queue ++ [q]
        gangNext := match x.w with
          | .img j => m.gangNext &&& ~~~(1#8 <<< j)
          | _ => m.gangNext
        after := match x.w with
          | .img j => if m.toTake.any fun e => e.1 = j then m.after ++ [(j, x.f.setc.toNat)] else m.after
          | _ => m.after } := by
    cases x.w with
    | img j =>
      simp only [Matrix.gangTaken, Matrix.noteAfter, Matrix.noGang]
      by_cases hdue : (m.toTake.any fun e => e.1 = j) = true
      · rw [if_pos hdue]
        exact if_pos hdue
      · rw [if_neg hdue]
        exact if_neg hdue
    | lvl1 => rfl
    | hnd => rfl
  rw [queueEntry] at horder
  simp only [enqueue, Nat.not_le.mpr hroom, if_false, horder, bind, Except.bind, hmatrix]
  rfl

/-- What the array admits, and what its own checks let pass, enters the queue. -/
theorem matrixBody_enters {i : Instr} {restore save : Bool} {checks : In → State → Except Stop Unit} {u : Tile}
    (hadmit : takeIn (s.tile x.t) x.w restore save = .ok u) (hchecks : checks x s = .ok ())
    (hroom : ((s.setTile x.t u).tile x.t).matrix.queue.length < 8)
    (horder : queueOrder (s.setTile x.t u) x.t (queueEntry i x ((s.setTile x.t u).tile x.t)) = .ok ()) :
    matrixBody i restore save checks x s =
      .ok ((s.setTile x.t u).setTile x.t (withEntry i x ((s.setTile x.t u).tile x.t)), .next) := by
  simp only [matrixBody, hadmit, hchecks, bind, Except.bind]
  exact enqueue_enters hroom horder

/-- MSTAT reads and writes no bytes: it enters the queue where no other instruction of its task is there. -/
theorem mstatBody_enters {i : Instr} {u : Tile} (hi : (queueEntry i x u).reads s x.t = [] ∧ (queueEntry i x u).stores x.t = [])
    (hu : s.tile x.t = u) (halone : (u.matrix.queue.any fun q => q.who = x.w) = false) (hroom : u.matrix.queue.length < 8) :
    mstatBody i x s = .ok ((s.setTile x.t u).setTile x.t (withEntry i x ((s.setTile x.t u).tile x.t)), .next) := by
  subst hu
  rw [State.setTile_setTile, State.setTile_tile_same, mstatBody, halone]
  refine enqueue_enters hroom ?_
  rw [queueOrder, hi.1, hi.2]
  rfl

end MatrixQueue

/-- A matrix instruction completes by entering the queue. -/
theorem gives_matrix {i : Fields → Instr} {restore save : Bool} {more : In → State → Prop} (k : Fields → Form)
    (checks : Fields → In → State → Except Stop Unit) (hw : ∀ f, (i f).word?.map (·.2) = some f) (hk : ∀ f, (i f).form? = some (k f))
    (he : ∀ f s, exec (i f) s = issue (i f) (k f) f (matrixBody (i f) restore save (checks f)) s)
    (hmore : ∀ x s, more x s → checks x.f x s = .ok ()) (u : Tile) :
    Gives i (fun x s => takeIn (s.tile x.t) x.w restore save = .ok u ∧ more x s
        ∧ ((s.setTile x.t u).tile x.t).matrix.queue.length < 8
        ∧ queueOrder (s.setTile x.t u) x.t (queueEntry (i x.f) x ((s.setTile x.t u).tile x.t)) = .ok ())
      (fun x s => ((s.setTile x.t u).setTile x.t (withEntry (i x.f) x ((s.setTile x.t u).tile x.t)), .next)) :=
  gives_of k _ hw hk he fun x s ⟨hadmit, hm, hroom, horder⟩ => matrixBody_enters hadmit (hmore x s hm) hroom horder

/-- The next instruction of a level-0 stream is gang-issued after an MGANG of it that is over, or the last one of it in the queue. -/
theorem gangDue_img (m : Matrix) (i : Nat) : m.gangDue (.img i) = true ↔ m.gangNext.getLsbD i = true
    ∨ ∃ q, (m.queue.filter fun q => q.who = .img i).getLast? = some q ∧ q.isGang = true := by
  rw [Matrix.gangDue, Bool.or_eq_true, Option.any_eq_true]

section Admission
variable {u : Tile} {i : Nat} (hlost : u.matrix.lost.getLsbD i = false) (hfrozen : u.matrix.frozen = false)
include hlost hfrozen

/-- Admission of a level-0 task whose contents stand in an array that no fault has frozen: by its owner. -/
theorem takeIn_img : takeIn u (.img i) false false = match u.matrix.owner with
    | none => .ok { u with matrix := { u.matrix with owner := some i } }
    | some j => if i = j then .ok u else .error (.trap .mbusy 0 none false) := by
  simp only [takeIn, hlost, hfrozen, Bool.false_and, Bool.false_eq_true, if_false]
  rfl

end Admission

/-- Settles O37: each instruction's checks, in its turn, let it into the queue. -/
theorem matrixInstructionsEnterTheQueue : Obligations.MatrixInstructionsEnterTheQueue := by
  unfold Obligations.MatrixInstructionsEnterTheQueue
  refine ⟨⟨?mcfg, ?mloadb, ?mrbuf, ?mrbufBc, ?mloadz, ?mmul, ?mzeroAcc, ?mzeroZp, ?mdrain, ?mchkcfg, ?mdrainp, ?mgang, ?msave, ?msaveFree,
    ?mrestore, ?mstat⟩, fun m i => ⟨gangDue_img m i, rfl, rfl⟩, fun u i hlost hfrozen => ?takeIn⟩
  case mcfg =>
    refine gives_matrix (fun _ => formMcfg) _ (fun _ => rfl) (fun _ => rfl) (fun _ _ => rfl) fun x s h => ?_
    rw [h.1, h.2]
    rfl
  case mloadb => exact gives_matrix (fun _ => formMloadb) _ (fun _ => rfl) (fun _ => rfl) (fun _ _ => rfl) fun x s h => h
  case mrbuf => exact gives_matrix (fun _ => formMrbuf 0) _ (fun _ => rfl) (fun _ => rfl) (fun _ _ => rfl) fun x s h => h
  case mrbufBc => exact gives_matrix (fun _ => formMrbuf 1) _ (fun _ => rfl) (fun _ => rfl) (fun _ _ => rfl) fun x s h => h
  case mloadz => exact gives_matrix (fun _ => formMloadz) _ (fun _ => rfl) (fun _ => rfl) (fun _ _ => rfl) fun x s _ => rfl
  case mmul => exact gives_matrix (fun _ => formMmul) _ (fun _ => rfl) (fun _ => rfl) (fun _ _ => rfl) fun x s _ => rfl
  case mzeroAcc => exact gives_matrix (fun _ => formMzeroAcc) _ (fun _ => rfl) (fun _ => rfl) (fun _ _ => rfl) fun x s _ => rfl
  case mzeroZp => exact gives_matrix (fun _ => formMzeroZp) _ (fun _ => rfl) (fun _ => rfl) (fun _ _ => rfl) fun x s _ => rfl
  case mdrain => exact gives_matrix (fun _ => formMdrain) _ (fun _ => rfl) (fun _ => rfl) (fun _ _ => rfl) fun x s _ => rfl
  case mchkcfg => exact gives_matrix (fun _ => formMchkcfg) _ (fun _ => rfl) (fun _ => rfl) (fun _ _ => rfl) fun x s _ => rfl
  case mdrainp =>
    refine gives_matrix (fun _ => formMdrainp) _ (fun _ => rfl) (fun _ => rfl) (fun _ _ => rfl) fun x s h => ?_
    exact if_pos (by simpa using h)
  case mgang =>
    refine gives_matrix (fun _ => formMgang) _ (fun _ => rfl) (fun _ => rfl) (fun _ _ => rfl) fun x s ⟨halone, howes⟩ => ?_
    simp only [halone, ackHold, howes, Bool.false_eq_true, if_false]
  case msave => exact gives_matrix (fun _ => formMsave 0) _ (fun _ => rfl) (fun _ => rfl) (fun _ _ => rfl) fun x s h => h
  case msaveFree => exact gives_matrix (fun _ => formMsave 1) _ (fun _ => rfl) (fun _ => rfl) (fun _ _ => rfl) fun x s h => h
  case mrestore => exact gives_matrix (fun _ => formMsave 0) _ (fun _ => rfl) (fun _ => rfl) (fun _ _ => rfl) fun x s h => h
  case mstat =>
    refine fun u => ⟨?_, ?_⟩
    · exact gives_of (fun _ => formMstat 0) _ (fun _ => rfl) (fun _ => rfl) (fun _ _ => rfl) fun x s ⟨hu, halone, hroom⟩ =>
        mstatBody_enters ⟨rfl, rfl⟩ hu (hu ▸ halone) hroom
    · exact gives_of (fun _ => formMstat 1) _ (fun _ => rfl) (fun _ => rfl) (fun _ _ => rfl) fun x s ⟨hu, halone, hroom⟩ =>
        mstatBody_enters ⟨rfl, rfl⟩ hu (hu ▸ halone) hroom
  case takeIn =>
    rw [takeIn_img hlost hfrozen]
    refine ⟨fun hno => by rw [hno], fun hown => by rw [hown]; exact if_pos rfl, fun j hother hne => ?_⟩
    rw [hother]
    exact if_neg (Ne.symm hne)

end Sys2Proof.Machine
end

section
/-!
SUPPORT. Ordered flags at their destination: held, applied, discarded or refused (spec/04 R68, R69).
-/

namespace Sys2Proof.Machine

open Sys2Proof

section OrderedFlags
variable {s : State} {p : Packet} {off n : Nat} {v : Word} {counts : List Nat} {user boost : Bool}

theorem countSrc_of_own (h : p.remote = none) : p.countSrc = p.src := by rw [Packet.countSrc, h]

theorem countDst_of_own (h : p.remote = none) : p.countDst = p.dst := by
  rw [Packet.countDst, h]
  rfl

theorem awaitsStatus_of_remote (h : p.remote.isSome = true) : awaitsStatus s p = false := by
  rw [awaitsStatus, Option.isNone_eq_false_iff.mpr h, Bool.false_and]

/-- What arrives while the husk of the flag's home is on its way between states goes out again. -/
theorem exec_ofStoreArrival_away (ha : arrived s s.sel = some p) (hb : p.body = .flag off n v counts user boost)
    (hr : outsideState s p ≠ .running) (hk : outsideState s p ≠ .killed) : exec .ofStoreArrival s = .next (s.refuse s.sel 0) := by
  show execOfStoreArrival s = _
  simp only [execOfStoreArrival, ha, hb, bne_iff_ne.mpr hr, bne_iff_ne.mpr hk, Bool.and_self, if_true]

section Arrival
variable (ha : arrived s s.sel = some p) (hb : p.body = .flag off n v counts user boost)
  (ho : outsideState s p = .running ∨ outsideState s p = .killed)
include ha hb ho

/-- A flag that its own tests turn away is refused at once where its sender waits for its status; else its counts decide. -/
theorem exec_ofStoreArrival_here : exec .ofStoreArrival s =
    match (if awaitsStatus s p then flagFault s p.dst off n v user boost else none) with
    | some c => .next (refuseFlag (s.drop s.sel) p c)
    | none =>
      if countsReached s p counts then .next (applyFlag (s.drop s.sel) p)
      else if 16 ≤ (s.heldFlags.filter fun f => f.countDst = p.countDst).length then .next (s.refuse s.sel 0)
      else
        let s2 := { s.drop s.sel with heldFlags := s.heldFlags ++ [p] }
        .next (if p.remote.isSome then flagUnit s2 p true else replyTo s2 p .parked) := by
  have hst : (outsideState s p != .running && outsideState s p != .killed) = false := by
    rcases ho with h | h <;> rw [h] <;> rfl
  show execOfStoreArrival s = _
  simp only [execOfStoreArrival, ha, hb, hst, Bool.false_eq_true, if_false]
  rfl

theorem exec_ofStoreArrival_refused {c : Cause} (hs : awaitsStatus s p = true) (hc : flagFault s p.dst off n v user boost = some c) :
    exec .ofStoreArrival s = .next (refuseFlag (s.drop s.sel) p c) := by
  rw [exec_ofStoreArrival_here ha hb ho, if_pos hs, hc]

section Counting
variable (hs : awaitsStatus s p = false ∨ flagFault s p.dst off n v user boost = none)
include hs

theorem exec_ofStoreArrival_counting : exec .ofStoreArrival s =
    if countsReached s p counts then .next (applyFlag (s.drop s.sel) p)
    else if 16 ≤ (s.heldFlags.filter fun f => f.countDst = p.countDst).length then .next (s.refuse s.sel 0)
    else
      let s2 := { s.drop s.sel with heldFlags := s.heldFlags ++ [p] }
      .next (if p.remote.isSome then flagUnit s2 p true else replyTo s2 p .parked) := by
  have hnone : (if awaitsStatus s p then flagFault s p.dst off n v user boost else none) = none := by
    rcases hs with h | h
    · rw [h]
      rfl
    · rw [h, ite_self]
  rw [exec_ofStoreArrival_here ha hb ho, hnone]

theorem exec_ofStoreArrival_applied (hr : countsReached s p counts = true) :
    exec .ofStoreArrival s = .next (applyFlag (s.drop s.sel) p) := by
  rw [exec_ofStoreArrival_counting ha hb ho hs, if_pos hr]

theorem exec_ofStoreArrival_full (hr : countsReached s p counts = false)
    (hfull : 16 ≤ (s.heldFlags.filter fun f => f.countDst = p.countDst).length) : exec .ofStoreArrival s = .next (s.refuse s.sel 0) := by
  rw [exec_ofStoreArrival_counting ha hb ho hs, hr, if_pos hfull]
  rfl

theorem exec_ofStoreArrival_held (hr : countsReached s p counts = false)
    (hroom : ¬ 16 ≤ (s.heldFlags.filter fun f => f.countDst = p.countDst).length) : exec .ofStoreArrival s =
      .next (if p.remote.isSome then flagUnit { s.drop s.sel with heldFlags := s.heldFlags ++ [p] } p true
        else replyTo { s.drop s.sel with heldFlags := s.heldFlags ++ [p] } p .parked) := by
  rw [exec_ofStoreArrival_counting ha hb ho hs, hr, if_neg hroom]
  rfl

end Counting
end Arrival

/-- What the same task sends later to a word of a held flag does not arrive before the flag. -/
theorem arrived_behind_flag {k : Nat} {f : Packet} (hp : s.packet k = some p) (hown : p.remote = none) (hf : f ∈ s.heldFlags)
    (hdst : f.dst = p.dst) (hid : f.id < p.id) (hsrc : f.countSrc = p.countSrc) (htask : oneTask s p.src f p = true)
    (hbytes : ∃ off n, p.body.bytes = some (off, n) ∧ f.touches off n = true) : arrived s k = none := by
  obtain ⟨off, n, hbody, htouch⟩ := hbytes
  have hbehind : behindFlag s p = true := by
    refine List.any_eq_true.mpr ⟨f, hf, ?_⟩
    simp only [hdst, hid, hsrc, hbody, hown, htask, htouch, Option.any_some, Option.isSome_none, Bool.false_eq_true, if_false, decide_true,
      Bool.and_self]
  rw [arrived, hp]
  exact if_pos (by rw [hbehind, Bool.or_true])

theorem flagUnit_of_own (h : p.remote = none) (enters : Bool) : flagUnit s p enters = s := by
  rw [flagUnit, h]
  rfl

/-- A held flag whose counts have been reached is applied. -/
theorem exec_ofFlagApply (hf : s.heldFlags.find? (fun f => f.id = s.sel) = some p) (hb : p.body = .flag off n v counts user boost)
    (hr : countsReached s p counts = true) : exec .ofFlagApply s =
      .next (applyFlag (flagUnit { s with heldFlags := s.heldFlags.filter fun f => f.id != s.sel } p false) p) := by
  show execOfFlagApply s = _
  simp only [execOfFlagApply, hf, hb, hr, if_true]

/-- The refusal of a flag of this package. -/
theorem refuseFlag_of_own (h : p.remote = none) (c : Cause) : refuseFlag s p c =
    replyTo (countPacket { s with epochs := Sparse.set none s.epochs (epochKey p.src p.dst p.epoch) none } p none) p
      (s.flagAnswer (epochKey p.src p.dst p.epoch) (.fault c)) := by
  simp only [refuseFlag, countSrc_of_own h, countDst_of_own h, keepTag, remoteUnit, h, Option.isSome_none, Bool.false_eq_true, if_false]

/-- The tests of a flag find it in the context area, in a stamped range or in a BOOST range. -/
theorem flagFault_ne_eccu {t : Nat} : flagFault s t off n v user boost ≠ some .eccu := by
  unfold flagFault rangeFault
  dsimp only
  repeat' split
  all_goals exact fun h => nomatch h

section Applying
variable (hb : p.body = .flag off n v counts user boost)
include hb

/-- In a poisoned epoch the flag is discarded. -/
theorem applyFlag_poisoned {c : Cause} {a : Word}
    (he : Sparse.get none s.epochs (epochKey p.countSrc p.countDst p.epoch) = some (c, a)) : applyFlag s p =
      answered { s with epochs := Sparse.set none s.epochs (epochKey p.countSrc p.countDst p.epoch) none } p off true (.dropped c a) := by
  simp only [applyFlag, hb, he]

variable (he : Sparse.get none s.epochs (epochKey p.countSrc p.countDst p.epoch) = none)
include he

theorem applyFlag_killed (hk : outsideState s p = .killed) : applyFlag s p = refuseFlag s p .window := by
  simp only [applyFlag, hb, he, hk, beq_self_eq_true, if_true]

/-- Where its husk runs the flag is a plain store, and a test that turns it away refuses it. -/
theorem applyFlag_running (ho : outsideState s p = .running) {r : State × Answer}
    (hp : performAt s p.dst off (.store n v) p.asker user boost none = r) (hc : r.2 ≠ .fault .eccu) :
    applyFlag s p = match r.2 with
      | .fault c => refuseFlag r.1 p c
      | a => answered r.1 p off true a := by
  obtain ⟨s1, ans⟩ := r
  simp only [applyFlag, hb, he, ho, hp]
  cases ans with
  | fault c =>
    cases c
    case eccu => exact absurd rfl hc
    all_goals rfl
  | _ => rfl

end Applying

/-- A flag of this package that is let in is stored like any data. -/
theorem applyFlag_stores (hb : p.body = .flag off n v counts user boost) (hown : p.remote = none)
    (he : Sparse.get none s.epochs (epochKey p.countSrc p.countDst p.epoch) = none) (hctx : (user && (s.tile p.dst).inCtx off n) = false)
    (hrange : rangeFault s p.dst off (.store n v) boost none = none) (hgood : consumesHere s p.dst off (.store n v) = false) :
    applyFlag s p = answered ((correctFor s p.dst off (.store n v)).putSlice p.dst off (bytesOf v.toNat n)) p off true .done := by
  have hp : performAt s p.dst off (.store n v) p.asker user boost none =
      ((correctFor s p.dst off (.store n v)).putSlice p.dst off (bytesOf v.toNat n), .done) := by
    rw [performAt, if_neg (Bool.not_eq_true _ ▸ hctx), hrange]
    simp only [hgood, Bool.false_eq_true, if_false, effectAt]
  exact applyFlag_running hb he (outsideState_of_own hown) hp fun h => nomatch h

/-- One that its own tests turn away is refused. -/
theorem applyFlag_refused (hb : p.body = .flag off n v counts user boost) (hown : p.remote = none)
    (he : Sparse.get none s.epochs (epochKey p.countSrc p.countDst p.epoch) = none) {c : Cause}
    (hc : flagFault s p.dst off n v user boost = some c) : applyFlag s p = refuseFlag s p c := by
  have hp : performAt s p.dst off (.store n v) p.asker user boost none = (s, .fault c) := by
    unfold flagFault at hc
    split at hc
    next hctx =>
      cases hc
      exact if_pos hctx
    next hctx => exact performAt_of_rangeFault s p.dst off _ _ user boost none (Bool.not_eq_true _ ▸ hctx) hc
  refine applyFlag_running hb he (outsideState_of_own hown) hp fun h => ?_
  cases h
  exact flagFault_ne_eccu hc

end OrderedFlags

theorem correctFor_mem (s : State) (t off : Nat) (op : MemOp) : (correctFor s t off op).mem = s.mem := by
  unfold correctFor
  split
  · exact correct_mem ..
  · rfl

/-- Settles O40: how a flag arrives, waits and is applied, of this package and of another. -/
theorem orderedFlagsWaitForTheirCounts : Obligations.OrderedFlagsWaitForTheirCounts := by
  unfold Obligations.OrderedFlagsWaitForTheirCounts
  refine ⟨fun s p off n v counts user boost ha hb hown => ?own, fun s p off n v counts user boost ha hb hrem => ?remote,
    fun s k p f hp hown hf hdst hid hsrc htask hbytes => arrived_behind_flag hp hown hf hdst hid hsrc htask hbytes,
    fun s p off n v counts user boost hf hb hr => ⟨exec_ofFlagApply hf hb hr, fun hown => flagUnit_of_own hown false⟩,
    fun s p c hown => ⟨refuseFlag_of_own hown c, fun he => ?_, fun d a he => ?_⟩, fun s p off n v counts user boost hb hown => ?apply⟩
  case own =>
    have ho : outsideState s p = .running ∨ outsideState s p = .killed := .inl (outsideState_of_own hown)
    have hdst := countDst_of_own hown
    refine ⟨fun c hs hc => exec_ofStoreArrival_refused ha hb ho hs hc, fun hs => ⟨exec_ofStoreArrival_applied ha hb ho hs, fun hr =>
      ⟨fun hroom => ?_, fun hfull => exec_ofStoreArrival_full ha hb ho hs hr (hdst ▸ hfull)⟩⟩⟩
    rw [exec_ofStoreArrival_held ha hb ho hs hr (hdst ▸ Nat.not_le.mpr hroom), hown]
    rfl
  case remote =>
    have hs : awaitsStatus s p = false ∨ flagFault s p.dst off n v user boost = none := .inl (awaitsStatus_of_remote hrem)
    refine ⟨fun hdead => ?_, fun ho hr => exec_ofStoreArrival_applied ha hb ho hs hr, fun ho hr hfull => exec_ofStoreArrival_full ha hb ho hs hr hfull,
      fun ho hr hroom => ?_, fun s0 hk he => applyFlag_killed hb he hk⟩
    · rw [not_or] at hdead
      exact exec_ofStoreArrival_away ha hb hdead.1 hdead.2
    · rw [exec_ofStoreArrival_held ha hb ho hs hr hroom, if_pos hrem]
  case apply =>
    have hkey : epochKey p.src p.dst p.epoch = epochKey p.countSrc p.countDst p.epoch := by rw [countSrc_of_own hown, countDst_of_own hown]
    simp only [hkey]
    refine ⟨fun c a he => applyFlag_poisoned hb he, fun c he hc => applyFlag_refused hb hown he hc, fun he hctx hrange hgood =>
      ⟨_, applyFlag_stores hb hown he hctx hrange hgood, ?_⟩⟩
    rw [putSlice_mem, correctFor_mem]
  · rw [State.flagAnswer, he]
  · rw [State.flagAnswer, he]

end Sys2Proof.Machine
end

section
/-!
SUPPORT. Routers, links and the gateway: merging, splitting, retry, scrubbing and the requests of other packages (spec/04 R62, spec/20 R368).
-/

namespace Sys2Proof.Machine

open Sys2Proof

section Routers
variable {s : State}

/-- Two atomics of one operation, type and word merge at a router. -/
theorem exec_routerAtomicMerge {p q : Packet} {off n : Nat} {op : AmoOp} {v v2 c : Word} {user boost : Bool} (hp : arrived s p.id = some p)
    (hq : arrived s q.id = some q) (hne : p.id ≠ q.id) (hdst : p.dst = q.dst) (hpb : p.body = .access off (.amo op n v c) user boost)
    (hqb : q.body = .access off (.amo op n v2 c) user boost) (hpm : p.mergeable = true) (hqm : q.mergeable = true) (hty : p.mty = q.mty)
    (hpo : p.remote = none) (hqo : q.remote = none) (hswap : op ≠ .swap) (hcas : op ≠ .cas) (hret : p.noReturn s = q.noReturn s)
    (hadd : p.noReturn s = true ∨ op = .add) (hfew : (p.parts v ++ q.parts v2).length ≤ 8) :
    exec (.routerAtomicMerge p.id q.id) s = .next { s.drop q.id with
      net := modifyFirst (fun x => x.id = p.id) (fun x => { x with
        body := .access off (.amo op n (BitVec.ofNat 64 (amoNew op n v.toNat v2.toNat 0)) c) user boost
        merged := p.parts v ++ q.parts v2 }) (s.drop q.id).net } := by
  have hadd' : (q.noReturn s || op == .add) = true := by
    rw [← hret, Bool.or_eq_true, beq_iff_eq]
    exact hadd
  show execRouterAtomicMerge p.id q.id s = _
  simp only [execRouterAtomicMerge, hp, hq, hpb, hqb]
  refine if_pos ?_
  simp only [bne_iff_ne.mpr hne, hdst, hpm, hqm, hty, hpo, hqo, bne_iff_ne.mpr hswap, bne_iff_ne.mpr hcas, hret, hadd', decide_eq_true hfew,
    beq_self_eq_true, decide_true, Option.isNone_none, Bool.and_self]

/-- The answer to a merged request is split among its participants. -/
theorem exec_mergedReplySplit {p : Packet} {v : Word} {ws : List Word} {age : BitVec 32} (hp : arrived s s.sel = some p)
    (hb : p.body = .reply (.data (v :: ws) age)) (hm : p.merged ≠ []) :
    exec .mergedReplySplit s = .next (splitReplies (s.drop s.sel) p.src (.data (v :: ws) age) p.merged v) := by
  have hsome : p.merged.isEmpty = false := List.isEmpty_eq_false_iff.mpr hm
  show execMergedReplySplit s = _
  simp only [execMergedReplySplit, hp, hb, hsome]
  rfl

section Retry
variable {p : Packet} (hp : s.packet s.sel = some p) (hr : p.refused = true)
include hp hr

/-- A channel's or a program's refused request goes out again once its hint has passed. -/
theorem exec_bteBackoffRetry (hb : (∃ ch t, p.body = .aperture ch t) ∨ ∃ r, p.body = .farreq r) : exec .bteBackoffRetry s =
    .next { s with net := modifyFirst (fun x => x.id = s.sel) (fun x => { x with refused := false, hint := 0 }) s.net } := by
  show execBteBackoffRetry s = _
  cases p
  cases hr
  obtain ⟨ch, t, rfl⟩ | ⟨r, rfl⟩ := hb
  · simp only [execBteBackoffRetry, hp]
  · simp only [execBteBackoffRetry, hp]

/-- Any other refused packet goes out again by itself. -/
theorem exec_niUnaidedRetry (ha : ∀ ch t, p.body ≠ .aperture ch t) (hf : ∀ r, p.body ≠ .farreq r) : exec .niUnaidedRetry s =
    .next { s with net := modifyFirst (fun x => x.id = s.sel) (fun x => { x with refused := false }) s.net } := by
  show execNiUnaidedRetry s = _
  simp only [execNiUnaidedRetry, hp, hr, if_true]

end Retry

/-- What a scrub makes of a word's state. -/
def scrubbed : Ecc → Ecc
  | .good | .single => .good
  | .bad | .poisoned => .poisoned

/-- A scrub changes the state of its word alone. -/
theorem exec_backgroundScrub {k : Nat} (hk : k < numTiles * 2 ^ 18) : ∃ t, exec (.backgroundScrub k) s = .next t ∧ t.mem = s.mem
    ∧ t.tiles = s.tiles ∧ (∀ j, j ≠ k → Sparse.get .good t.ecc j = Sparse.get .good s.ecc j)
    ∧ Sparse.get .good t.ecc k = scrubbed (Sparse.get .good s.ecc k) := by
  have hgo : exec (.backgroundScrub k) s = match Sparse.get .good s.ecc k with
      | .single => .next { s with ecc := Sparse.set .good s.ecc k .good }
      | .bad => .next { s with ecc := Sparse.set .good s.ecc k .poisoned }
      | _ => .next s := if_neg (Nat.not_le.mpr hk)
  have hother (e : Ecc) (j : Nat) (hj : j ≠ k) : Sparse.get .good (Sparse.set .good s.ecc k e) j = Sparse.get .good s.ecc j :=
    Sparse.get_set_other .good s.ecc hj e
  rw [hgo]
  cases h : Sparse.get .good s.ecc k with
  | good => exact ⟨s, rfl, rfl, rfl, fun _ _ => rfl, h⟩
  | single => exact ⟨_, rfl, rfl, rfl, hother .good, Sparse.get_set_same .good s.ecc k .good⟩
  | bad => exact ⟨_, rfl, rfl, rfl, hother .poisoned, Sparse.get_set_same .good s.ecc k .poisoned⟩
  | poisoned => exact ⟨s, rfl, rfl, rfl, fun _ _ => rfl, h⟩

end Routers

section LinkFailure

theorem eraseDups_sublist {α : Type} [BEq α] (l : List α) : l.eraseDups.Sublist l := by
  match l with
  | [] => exact .slnil
  | a :: as =>
    rw [List.eraseDups_cons]
    exact ((eraseDups_sublist _).trans List.filter_sublist).cons_cons a
termination_by l.length
decreasing_by exact Nat.lt_succ_of_le (List.length_filter_le ..)

/-- What the failure of a link to these chips sends out again: what is unanswered towards them, and every unanswered group request. -/
def goesAgain (s : State) (chips : List Nat) (e : Egress) : Bool :=
  (chips.contains e.chip || e.group.isSome) && e.ans.isNone && e.units = 0 && !e.held && !e.behind
    && (if 5000 ≤ e.src && e.src < 6000 then (s.chan (e.src - 5000)).unanswered e else (s.tile e.src).out.any fun o => o.tag = e.tag)

theorem goesAgain_iff {s : State} {chips : List Nat} {e : Egress} : goesAgain s chips e = true ↔
    (e.chip ∈ chips ∨ e.group.isSome = true) ∧ e.ans = none ∧ e.units = 0 ∧ e.held = false ∧ e.behind = false
      ∧ (if 5000 ≤ e.src ∧ e.src < 6000 then (s.chan (e.src - 5000)).unanswered e = true else ∃ o ∈ (s.tile e.src).out, o.tag = e.tag) := by
  by_cases h : 5000 ≤ e.src ∧ e.src < 6000 <;> simp [goesAgain, h, and_assoc]

/-- The state once a link has failed. -/
def linkFailed (s : State) (port : Nat) (again : List Egress) : State := { s with
  linksDown := s.linksDown ++ [port]
  egress := s.egress ++ again
  channels := s.channels.map fun x => (x.1, { x.2 with
    again := x.2.again ++ ((again.filter fun e => e.src = chDst x.1).map fun e => e.tag % 2 ^ 32).filter fun j => !x.2.again.contains j })
  tiles := s.tiles.map fun x => (x.1, { x.2 with
    out := x.2.out.map fun o => if again.any fun e => e.src = x.1 && e.tag = o.tag then { o with reissued := true } else o }) }

theorem exec_linkFailure {s : State} {port : Nat} {chips : List Nat} (hup : s.linksDown.contains port = false) (hport : port ≤ 35) :
    exec (.linkFailure port chips) s = .next (linkFailed s port (s.egress.filter (goesAgain s chips)).eraseDups) := by
  refine if_neg ?_
  simp only [hup, Bool.false_or, decide_eq_true_eq]
  exact Nat.not_lt.mpr hport

theorem linkFailed_out (s : State) (port m : Nat) (again : List Egress) : ((linkFailed s port again).tile m).out =
    (s.tile m).out.map fun o => if again.any fun e => e.src = m && e.tag = o.tag then { o with reissued := true } else o := by
  have := Sparse.get_map {} (fun k (u : Tile) => { u with
    out := u.out.map fun o => if again.any fun e => e.src = k && e.tag = o.tag then { o with reissued := true } else o }) s.tiles m rfl
  exact congrArg Tile.out this

end LinkFailure

section Gateway
variable {s : State} {g : GatewayReq}

theorem exec_gatewayAccess_unfit (h : gatewayFits g = false) : exec (.gatewayAccess g) s = .refused .notPending := by
  refine if_pos ?_
  rw [h]
  rfl

theorem exec_gatewayAccess_underway (h : gatewayFits g = true) (hu : underway s g = true) : exec (.gatewayAccess g) s = .next s := by
  show execGatewayAccess g s = _
  simp only [execGatewayAccess, h, hu, Bool.not_true, Bool.false_eq_true, if_false, if_true]

/-- What the gateway makes of a request that is no duplicate of one under way. -/
def gateKind (s : State) (g : GatewayReq) : State :=
  match g.kind with
  | .access x y off op => gateOne s g x y off op (.access off op g.user g.boost)
  | .flag x y off n v counts => gateOne s g x y off (.store n v) (.flag off n v counts g.user g.boost)
  | .multicast group off op strong => gateGroup s g group (fun base => .multicast (base * 65536 + off) op g.user g.boost strong)
      (fun base => lineChan (base * 65536 + off)) (lineSpan off (opLen op))
  | .mirror group off line age boost => gateGroup s g group (fun base => .mirror (base * 65536 + off) line age boost) (fun _ => none) 0
  | .stop group => gateGroup s g group (fun base => .stop 0 0 (some base)) (fun _ => none) 0

theorem exec_gatewayAccess_new (h : gatewayFits g = true) (hu : underway s g = false) :
    exec (.gatewayAccess g) s = .next (gateKind s g) := by
  show execGatewayAccess g s = _
  simp only [execGatewayAccess, gateKind, h, hu, Bool.not_true, Bool.false_eq_true, if_false]
  cases g.kind <;> rfl

section One
variable {x y off : Nat} {op : MemOp} {body : Body}

theorem gateOne_logged {a : Answer} (h : logged s g x y = some a) :
    gateOne s g x y off op body = s.answer packageDst (.remote g.chip g.core g.tag) a := by
  simp only [gateOne, h]

variable (hl : logged s g x y = none)
include hl

theorem gateOne_flag_refused (h : gateTile s g x y op = none) (hb : ∃ o n v cs u b, body = .flag o n v cs u b) :
    gateOne s g x y off op body = s.send (gatePacket g (gateName s g x y) none 0 true body) := by
  obtain ⟨o, n, v, cs, u, b, rfl⟩ := hb
  simp only [gateOne, hl, h]

theorem gateOne_refused (h : gateTile s g x y op = none) (hb : ∀ o n v cs u b, body ≠ .flag o n v cs u b) :
    gateOne s g x y off op body = gateRefuse s g x y off (opModifies op) := by
  simp only [gateOne, hl, h]

theorem gateOne_retry (h : gateTile s g x y op = some none) : gateOne s g x y off op body = s := by
  simp only [gateOne, hl, h]

theorem gateOne_sent {t : Nat} (h : gateTile s g x y op = some (some t)) : gateOne s g x y off op body =
    s.send (gatePacket g t (lineChan off) (lineSpan off (opLen op)) (opModifies op) body) := by
  simp only [gateOne, hl, h]

end One

section Tile
variable {x y : Nat} {op : MemOp} {p : Peer} {h : Husk}

theorem gateTile_none (hp : peerFor s g.chip g.tenant = none) : gateTile s g x y op = none := by
  simp only [gateTile, hp]

variable (hp : peerFor s g.chip g.tenant = some p) (hh : s.husk p.husk = some h)
include hp hh

theorem gateTile_refused (hno : p.allows op = false ∨ h.width ≤ x ∨ h.height ≤ y ∨ h.st = .killed) : gateTile s g x y op = none := by
  simp only [gateTile, hp, hh]
  refine if_pos ?_
  simpa only [Bool.or_eq_true, Bool.not_eq_true', decide_eq_true_eq, beq_iff_eq, or_assoc] using hno

variable (hal : p.allows op = true) (hx : x < h.width) (hy : y < h.height)
include hal hx hy

/-- An allowed request within a husk that has not been killed is let in or left to its NI. -/
theorem gateTile_allowed (hk : h.st ≠ .killed) : gateTile s g x y op = if h.st != .running then some none else some (some (h.tileAt x y)) := by
  simp only [gateTile, hp, hh]
  refine if_neg ?_
  simp only [hal, Nat.not_le.mpr hx, Nat.not_le.mpr hy, beq_eq_false_iff_ne.mpr hk, decide_false, Bool.not_true, Bool.or_false,
    Bool.false_eq_true, not_false_eq_true]

end Tile

section Group
variable {group span : Nat} {body : Nat → Body} {chan : Nat → Option Nat}

theorem gateGroup_nil (h : groupMembers s group = []) :
    gateGroup s g group body chan span = s.answer packageDst (.remote g.chip g.core g.tag) (.fault .window) := by
  simp only [gateGroup, h, List.isEmpty_nil, if_true]

theorem gateGroup_retry (h : ∃ m ∈ groupMembers s group, m.2.1 ≠ .running ∧ m.2.1 ≠ .killed) : gateGroup s g group body chan span = s := by
  obtain ⟨m, hm, hr, hk⟩ := h
  have hne : (groupMembers s group).isEmpty = false := List.isEmpty_eq_false_iff.mpr (List.ne_nil_of_mem hm)
  have hany : ((groupMembers s group).any fun m => m.2.1 != .running && m.2.1 != .killed) = true :=
    List.any_eq_true.mpr ⟨m, hm, by rw [bne_iff_ne.mpr hr, bne_iff_ne.mpr hk]; rfl⟩
  simp only [gateGroup, hne, hany, Bool.false_eq_true, if_false, if_true]

variable (hall : ∀ m ∈ groupMembers s group, m.2.1 = .running ∨ m.2.1 = .killed) (hne : groupMembers s group ≠ [])
include hall

theorem settled_members : ((groupMembers s group).any fun m => m.2.1 != .running && m.2.1 != .killed) = false := by
  refine List.any_eq_false.mpr fun m hm => ?_
  obtain h | h := hall m hm <;> rw [h] <;> decide

include hne

theorem gateGroup_killed (hlive : (groupMembers s group).filter (fun m => m.2.1 == .running) = []) :
    gateGroup s g group body chan span = s.answer packageDst (.remote g.chip g.core g.tag) (.fault .window) := by
  simp only [gateGroup, List.isEmpty_eq_false_iff.mpr hne, settled_members hall, hlive, List.isEmpty_nil, Bool.false_eq_true, if_false, if_true]

theorem gateGroup_fresh (hlive : (groupMembers s group).filter (fun m => m.2.1 == .running) ≠ [])
    (hnew : ∀ m ∈ (groupMembers s group).filter (fun m => m.2.1 == .running), loggedAt s g (s.homeName m.1) = none) :
    gateGroup s g group body chan span = ((groupMembers s group).filter fun m => m.2.1 == .running).foldl
      (fun s m => s.send (gatePacket g m.1 (chan m.2.2) span false (body m.2.2)))
      (if (groupMembers s group).any (fun m => m.2.1 == .killed) then s.answer packageDst (.remote g.chip g.core g.tag) (.fault .window) else s) := by
  have hfresh : ((groupMembers s group).filter fun m => m.2.1 == .running).filter (fun m => (loggedAt s g (s.homeName m.1)).isNone)
      = (groupMembers s group).filter fun m => m.2.1 == .running :=
    List.filter_eq_self.mpr fun m hm => by rw [hnew m hm]; rfl
  simp only [gateGroup, List.isEmpty_eq_false_iff.mpr hne, settled_members hall, hfresh, List.isEmpty_eq_false_iff.mpr hlive,
    Bool.false_eq_true, if_false]

end Group

end Gateway

/-- Settles O41: each router, link and gateway event has its equation, one for each case of the statement; a failed link's packets are
the filtered egress without its repetitions. -/
theorem routersAndGatewayHandleTheirPackets : Obligations.RoutersAndGatewayHandleTheirPackets := by
  refine ⟨⟨?_, ?_, fun _ _ _ _ _ _ _ => rfl, ?_, ?_, ?_⟩, fun s g => ⟨exec_gatewayAccess_unfit, exec_gatewayAccess_underway, ?_, ?_, ?_, ?_⟩⟩
  · intro s p q off n op v v2 c user boost
    exact exec_routerAtomicMerge
  · intro s p v ws age
    exact exec_mergedReplySplit
  · intro s p hp hr
    exact ⟨exec_bteBackoffRetry hp hr, exec_niUnaidedRetry hp hr⟩
  · intro s k hk
    obtain ⟨t, ht, hmem, htiles, hother, hsame⟩ := exec_backgroundScrub (s := s) hk
    refine ⟨t, ht, hmem, htiles, hother, hsame.trans ?_⟩
    cases Sparse.get .good s.ecc k <;> rfl
  · intro s port chips hup hport
    refine ⟨_, exec_linkFailure hup hport, rfl, rfl, rfl, (s.egress.filter (goesAgain s chips)).eraseDups, rfl,
      (eraseDups_sublist _).trans List.filter_sublist, fun e => ?_, fun m => linkFailed_out ..⟩
    rw [List.mem_eraseDups, List.mem_filter, goesAgain_iff]
  · intro hfit hnew
    rw [exec_gatewayAccess_new hfit hnew]
    refine ⟨?_, ?_, ?_, ?_, ?_⟩ <;> intros <;> simp only [gateKind, *]
  · intro x y off op body
    exact ⟨fun a => gateOne_logged, fun hl => ⟨fun h => ⟨gateOne_flag_refused hl h, gateOne_refused hl h⟩, gateOne_retry hl,
      fun t => gateOne_sent hl⟩⟩
  · intro group body chan span
    exact ⟨gateGroup_nil, gateGroup_retry, fun hall hne => ⟨gateGroup_killed hall hne, gateGroup_fresh hall hne⟩⟩
  · intro x y op
    refine ⟨gateTile_none, fun p h hp hh => ⟨gateTile_refused hp hh, fun hal hx hy hr => ?_, fun hal hx hy hr hk => ?_⟩⟩
    · rw [gateTile_allowed hp hh hal hx hy (by rw [hr]; decide), hr]
      rfl
    · rw [gateTile_allowed hp hh hal hx hy hk, bne_iff_ne.mpr hr, if_pos rfl]

end Sys2Proof.Machine
end

section
/-!
SUPPORT. The stamped instructions (spec/05 R89 to R95): `it`, the stop notices of ENDW, and STAM, which is an STA that keeps a group.
-/

namespace Sys2Proof.Machine

open Sys2Proof

/-! ### The end of a window -/

section EndOfWindow
variable {x : In} {s : State} {n : Nat} {h : Husk}

/-- A stop notice to each of the tiles (spec/05 R80). -/
def stopNotices (x : In) (h : Husk) (ts : List Nat) (s : State) : State := ts.foldl (fun s t =>
  s.send (mkPacket x.t t x.seq none (.stop (tileX x.t - h.col0) (tileY x.t - h.row0) none))) s

/-- A stop notice to the window of each member of a group (spec/05 R95). -/
def memberNotices (x : In) (h : Husk) (ms : List (Nat × Nat × Nat)) (s : State) : State := ms.foldl (fun s m =>
  s.send (mkPacket x.t (h.tileAt m.1 m.2.1) x.seq none (.stop (tileX x.t - h.col0) (tileY x.t - h.row0) (some m.2.2)))) s

/-- Without a group the notices go to the tiles of the husk alone. -/
theorem endwBody_husk (hh : s.huskOfTile x.t = some (n, h)) (howes : (s.tile x.t).owes x.w true false = false) :
    endwBody none x s = .ok (stopNotices x h h.tiles (addOut s x
      { tag := 0, who := x.w, kind := .delivery, slow := true, use := true, addr := 0x2000000000000000, acks := h.tiles.length }), .next) := by
  simp only [endwBody, hh, ackHold, howes, bind, Except.bind]
  rfl

/-- With a group that the tenant has they go to its members too, and where the choice says so one goes out of the package. -/
theorem endwBody_group {g : Nat} (hh : s.huskOfTile x.t = some (n, h)) (hbound : s.groupBound n g = true)
    (howes : (s.tile x.t).owes x.w true false = false) :
    let away := s.choose.1 % 2 = 1
    let far := if away then 1 else 0
    let s3 := memberNotices x h (s.groupOf n g) (stopNotices x h h.tiles (addOut s.choose.2 x
      { tag := 0, who := x.w, kind := .delivery, late := true, slow := true, use := true
        addr := BitVec.ofNat 64 (0x20 * 2 ^ 56 + g * 65536)
        acks := h.tiles.length + (s.groupOf n g).length + far, far := far }))
    endwBody (some g) x s = .ok (if away then { s3 with egress := s3.egress ++
      [{ chip := 0, src := x.t, tag := x.seq, path := 0, addr := 0, op := none, group := some g }] } else s3, .next) := by
  simp only [endwBody, hh, need_eq, hbound, ackHold, howes, bind, Except.bind]
  rfl

end EndOfWindow

/-! ### What an access leaves among the outstanding operations -/

/-- An operation with this tag is outstanding. -/
def State.underway (s : State) (t tag : Nat) : Prop := ∃ o ∈ (s.tile t).out, o.tag = tag

theorem State.underway.find {s : State} {t tag : Nat} (hu : s.underway t tag) :
    ∃ o, (s.tile t).out.find? (fun o => o.tag = tag) = some o := by
  obtain ⟨o, ho, htag⟩ := hu
  exact Option.isSome_iff_exists.mp (List.find?_isSome.mpr ⟨o, ho, decide_eq_true htag⟩)

/-- An operation that is entered has its instruction's tag. -/
theorem addOut_underway (s : State) (x : In) (o : Outst) : (addOut s x o).underway x.t x.seq := by
  simp [State.underway, addOut]

@[simp] theorem addOut_pairing (s : State) (x : In) (o : Outst) : ((addOut s x o).tile x.t).pairing = (s.tile x.t).pairing := by
  simp [addOut]

@[simp] theorem Tile.countSent_pairing (u : Tile) (dst path : Nat) : (u.countSent dst path).pairing = u.pairing := rfl

/-- The allowance of a destination is apart from the pair. -/
theorem takeUnits_pairing {u u' : Tile} {dst n k : Nat} (h : takeUnits u dst n = .ok (k, u')) : u'.pairing = u.pairing := by
  simp only [takeUnits] at h
  split at h
  · cases h
  · cases h
    rfl

section PairHold
variable {s s' : State} {t : Nat} {w : Who} {ids : List Nat} {op : MemOp} {a : Word}

/-- A core that leads no pair buffers nothing. -/
theorem pairHold_of_unpaired (h : (s.tile t).pairing = none) : pairHold s t w ids op a = .ok s := by
  rw [pairHold, h]

/-- Its buffer may be asked whether or not the core leads a pair. -/
theorem ite_pairHold {waits : Bool} (h : waits = (s.tile t).pairing.isSome) :
    (if waits then pairHold s t w ids op a else .ok s) = pairHold s t w ids op a := by
  cases waits with
  | true => rfl
  | false => exact (pairHold_of_unpaired (Option.isNone_iff_eq_none.mp (Option.isSome_eq_false_iff.mp h.symm))).symm

/-- The buffer of a pair leaves the outstanding operations as they are. -/
theorem pairHold_out (h : pairHold s t w ids op a = .ok s') : (s'.tile t).out = (s.tile t).out := by
  unfold pairHold at h
  split at h
  · cases h; rfl
  · split at h
    · cases h
    · cases h
      simp [Tile.foldFp]

theorem pairHold_underway {tag : Nat} (h : pairHold s t w ids op a = .ok s') (hu : s.underway t tag) : s'.underway t tag := by
  rwa [State.underway, pairHold_out h]

end PairHold

/-! ### Accesses to another tile -/

/-- An access to another tile leaves once the NI has room and nothing of the task's own holds it back, and a pair's buffer has taken it
where it waits for its interval. -/
theorem accessTile_leaves {x : In} {s s' s2 : State} {r : Req} {a : Word} {h off path : Nat} {waits : Bool}
    (hni : (opModifies r.op && niFull s x.t a) = false) (hpath : path = pathOf h (off / 64))
    (hwaits : waits = (pairWaits r.op r.dst && (s.tile x.t).pairing.isSome))
    (horder : sentOrder s x.t x.w h off r.op waits = .ok ())
    (hs' : s' = if opModifies r.op then s.modTile x.t fun u => u.countSent h path else s) :
    let sent := (addOut s' x { r.out x a with status := !waits && h != x.t, late := waits, slow := h != x.t }).send
      { mkPacket x.t h x.seq (lineChan off)
          (.access off r.op (!((s.tile x.t).task x.w).sup) ((s.tile x.t).activeBoost x.w)) with
        span := lineSpan off (opLen r.op), path := path, counted := opModifies r.op, epoch := (s.tile x.t).epochTo h
        mergeable := r.merge, mty := r.mty }
    (if waits then pairHold sent x.t x.w [s.nextId] r.op a else .ok sent) = .ok s2 →
    accessTile x s r a h off = .ok (s2, .next) := by
  intro sent hhold
  have hid : s'.nextId = s.nextId := by subst hs'; split <;> rfl
  subst hpath
  simp only [accessTile, ← hwaits, hni, horder, ok_bind, Bool.false_eq_true, if_false, ← hs', hid]
  cases waits <;> exact congrArg (· >>= goOn) hhold

/-- An access whose address names another tile goes there. -/
theorem access_tile {x : In} {s : State} {r : Req} {a : Word} {al : Bool} {h off : Nat} (ht : x.t < numTiles)
    (hg : checkAddr s x.t r.k a al = .ok (.sram h off)) (hne : h ≠ x.t) : access x s r a al = accessTile x s r a h off := by
  rw [access, if_neg (Nat.not_le.mpr ht), hg, ok_bind]
  exact if_neg (by simp [hne])

/-! ### STAM -/

section Stam
variable {x : In} {s s' : State} {g : Nat}

/-- The operation of the instruction keeps the group until its home has acknowledged it. -/
def keepGroup (g : Nat) (x : In) (s : State) : State := s.modTile x.t fun u => { u with
  out := u.out.map fun o => if o.tag = x.seq then { o with group := some g } else o }

/-- What an STA asks of its home. -/
def staReq (x : In) (s : State) : Req := { k := .stamped, op := .sta (lineOf s x) (x.b.setWidth 32), kind := .store }

/-- The checks that a stamped store with a group passes before its access. -/
structure StamReady (x : In) (s : State) (g : Nat) : Prop where
  line  : lineChecks x s true = .ok ()
  group : stamChecks g x s = .ok ()
  acks  : (x.scope s == 0 || !(s.tile x.t).owes x.w true false) = true

/-- What follows the wait for the acknowledgements is run: the scope is the core alone, or they are in. -/
theorem StamReady.goes (hr : StamReady x s g) (next : Unit → Body.Out) :
    (if x.scope s != 0 then ackHold s x true false >>= next else next ()) = next () := by
  obtain hcore | hin := Bool.or_eq_true_iff.mp hr.acks
  · rw [bne, hcore]; rfl
  · rw [ackHold, (Bool.not_eq_true' _).mp hin]; exact ite_self _

/-- A stamped store of the own slice, once performed, delivers to the members at once. -/
theorem staBody_own {off : Nat} {o : Outst} (hr : StamReady x s g) (hg : checkAddr s x.t .stamped x.lineAddr true = .ok (.sram x.t off))
    (hacc : access x s (staReq x s) x.lineAddr true = .ok (s', .next))
    (ho : (s'.tile x.t).out.find? (fun o => o.tag = x.seq) = some o) :
    staBody (some g) x s = .ok (deliverMirrors s' x.t o g (lineOf s x) (x.b.setWidth 32) ((s.tile x.t).activeBoost x.w) true, .next) := by
  rw [staReq] at hacc
  simp only [staBody, hr.line, hr.group, hg, hacc, ok_bind, ho, beq_self_eq_true, if_true]
  exact hr.goes fun _ => .ok _

/-- One that goes elsewhere keeps its group. -/
theorem staBody_away {target : Target} (hr : StamReady x s g) (hg : checkAddr s x.t .stamped x.lineAddr true = .ok target)
    (haway : ∀ h off, target = .sram h off → h ≠ x.t) (hacc : access x s (staReq x s) x.lineAddr true = .ok (s', .next))
    (hu : s'.underway x.t x.seq) : staBody (some g) x s = .ok (keepGroup g x s', .next) := by
  obtain ⟨o, ho⟩ := hu.find
  rw [staReq] at hacc
  simp only [staBody, hr.line, hr.group, hg, hacc, ok_bind, ho]
  cases target with
  | sram h off =>
    simp only [beq_eq_false_iff_ne.mpr (haway h off rfl), Bool.false_eq_true, if_false]
    exact hr.goes fun _ => .ok _
  | _ => exact hr.goes fun _ => .ok _

end Stam

/-! ### The access of a stamped store, by where the home of its line is -/

section StamAccess
variable {x : In} {s s2 : State} {a : Word} {h off : Nat}

/-- The line and its age go to another tile; a pair's buffer takes them where the core leads a pair. -/
theorem access_sta_tile (ht : x.t < numTiles) (hg : checkAddr s x.t .stamped a true = .ok (.sram h off)) (hne : h ≠ x.t)
    (hni : niFull s x.t a = false) (horder : sentOrder s x.t x.w h off (staReq x s).op (s.tile x.t).pairing.isSome = .ok ()) :
    let held : Bool := (s.tile x.t).pairing.isSome
    let path := pathOf h (off / 64)
    let sent := (addOut (s.modTile x.t fun u => u.countSent h path) x
        { (staReq x s).out x a with status := !held, late := held, slow := true }).send
      { mkPacket x.t h x.seq (lineChan off)
          (.access off (staReq x s).op (!((s.tile x.t).task x.w).sup) ((s.tile x.t).activeBoost x.w)) with
        span := lineSpan off 64, path := path, counted := true, epoch := (s.tile x.t).epochTo h }
    pairHold sent x.t x.w [s.nextId] (staReq x s).op a = .ok s2 →
    access x s (staReq x s) a true = .ok (s2, .next) ∧ s2.underway x.t x.seq := by
  intro held path sent hhold
  have hother : (h != x.t) = true := bne_iff_ne.mpr hne
  have hpaired : held = (sent.tile x.t).pairing.isSome := by
    simp [sent, held]
  refine ⟨?_, pairHold_underway hhold (addOut_underway _ x _)⟩
  rw [access_tile ht hg hne]
  refine accessTile_leaves hni rfl rfl horder rfl (path := path) (waits := held) ?_
  rw [hother, Bool.and_true]
  exact (ite_pairHold hpaired).trans hhold

/-- In the own slice they are stored at once. -/
theorem access_sta_own {s0 : State} (ht : x.t < numTiles) (hg : checkAddr s x.t .stamped a true = .ok (.sram x.t off))
    (horder : ownOrder s x.t x.w x.t off (staReq x s).op = .ok ()) (hpair : pairOwn s x.t off (staReq x s).op a = .ok s0)
    (hp : performAt s0 x.t off (staReq x s).op (.core x.t x.seq (genOf (s.tile x.t) x.w)) (!((s.tile x.t).task x.w).sup)
      ((s.tile x.t).activeBoost x.w) (some (s0.cidOf x.t)) = (s2, .done)) :
    access x s (staReq x s) a true = .ok ((((addOut s2 x ((staReq x s).out x a)).modTile x.t fun u =>
      u.countSent x.t (pathOf x.t (off / 64))).countArrival x.t x.t (pathOf x.t (off / 64)) 0 none).send
        (mkPacket x.t x.t x.seq none (.reply .done)), .next) := by
  rw [access_own ht hg (by simp [ownAtOnce, staReq])]
  exact (accessOwn_of_answer horder hpair hp).1 (.inl rfl)

/-- To another package they take one unit of its allowance. -/
theorem access_sta_remote {chip rx ry k : Nat} {u1 : Tile} (ht : x.t < numTiles)
    (hg : checkAddr s x.t .stamped a true = .ok (.remote chip rx ry off)) (hni : niFull s x.t a = false)
    (hunits : takeUnits (s.tile x.t) (chipDst chip) 1 = .ok (k, u1))
    (hclose : (!(s.tile x.t).pairing.isSome && s.egress.any fun e => e.src = x.t && e.held && linesMeet e.addr (lenOf e.op) a 64) = false)
    (haway : behindAway (s.tile x.t) x.w a (staReq x s).op = .ok ()) :
    let path := pathOf (chipDst chip) (a.toNat % 2 ^ 33 / 64)
    let s' := s.setTile x.t (u1.countSent (chipDst chip) path)
    pairHold s' x.t x.w [2 ^ 64 + s'.nextId] (staReq x s).op a = .ok s2 →
    let s3 := addOut s2 x { (staReq x s).out x a with remote := true, late := true, slow := true, al := k, units := 1 }
    let s4 : State := { s3 with
      nextId := s3.nextId + 1
      egress := s3.egress ++ [{ chip := chip, src := x.t, tag := x.seq, path := path, addr := a, op := some (staReq x s).op
                                held := (s.tile x.t).pairing.isSome, epoch := (s.tile x.t).epochTo (chipDst chip)
                                behind := s.staysBehind x.t a 64 }] }
    access x s (staReq x s) a true = .ok (s4, .next) ∧ s4.underway x.t x.seq := by
  intro path s' hhold s3 s4
  have hpaired : (s.tile x.t).pairing.isSome = (s'.tile x.t).pairing.isSome := by
    rw [State.setTile_tile_same, Tile.countSent_pairing, takeUnits_pairing hunits]
  refine ⟨?_, addOut_underway _ x _⟩
  rw [access_remote ht hg]
  exact accessRemote_leaves hni hunits rfl rfl hclose haway rfl ((ite_pairHold hpaired).trans hhold)

end StamAccess

/-- A STAM that issues completes as its body says. -/
theorem exec_stam {s : State} {w : Who} {m : Form} {f : Fields} {s1 s2 : State} {x : In} (hi : Issues s w (.stam f) m f s1 x)
    (hb : staBody (some x.low16) x s1 = .ok (s2, .next)) : exec (.stam f) s = .next (retired s1 x m s2 .next) := by
  cases hi.form
  exact issue_of_issues hi hb

/-- Settles O21: `it` and the stop notices by the bodies of their instructions; a STAM by where its line's home is. -/
theorem stampedInstructionsComplete : Obligations.StampedInstructionsComplete := by
  refine ⟨⟨?setit, ?advit, fun n h => ⟨?endw, ?endwGroup⟩⟩, fun s w m f s1 x r a al hi hr hfirst hchecks hrel ht => ?stam⟩
  case setit =>
    exact gives_of (fun _ => formSetit) (fun _ x s => goOn (emit s x 1 [(0x68, if x.f.minor = 1 then x.a else x.immS)] 0))
      (fun _ => rfl) (fun _ => rfl) (fun _ _ => rfl) fun _ _ _ => rfl
  case advit =>
    exact gives_of (fun _ => formAdvit) (fun _ x s =>
        goOn (emit s x 1 [(0x68, ((s.tile x.t).task x.w).it.setWidth 64 + if x.f.minor = 1 then x.a else x.f.imm.setWidth 64)] 0))
      (fun _ => rfl) (fun _ => rfl) (fun _ _ => rfl) fun _ _ _ => rfl
  case endw =>
    exact gives_of (fun _ => formEndw) (fun _ => endwBody none) (fun _ => rfl) (fun _ => rfl) (fun _ _ => rfl)
      fun x s ⟨hh, howes⟩ => endwBody_husk hh howes
  case endwGroup =>
    exact gives_of (fun _ => formEndwGroup) (fun _ x => endwBody (some x.low16) x) (fun _ => rfl) (fun _ => rfl) (fun _ _ => rfl)
      fun x s ⟨hh, hbound, howes⟩ => endwBody_group hh hbound howes
  case stam =>
    have hready : StamReady x s1 x.low16 := ⟨hfirst, hchecks, hrel⟩
    cases hr
    intro held grouped
    refine ⟨fun h off hg => ?slice, fun chip rx ry off k u1 s2 hg hni hunits hclose haway => ?remote⟩
    case slice =>
      refine ⟨fun s2 hne hni horder hhold => ?tile, fun s0 s2 o hown horder hpair hp => ?own⟩
      case tile =>
        obtain ⟨hacc, hu⟩ := access_sta_tile ht hg hne hni horder hhold
        exact exec_stam hi (staBody_away hready hg (fun _ _ e => by cases e; exact hne) hacc hu)
      case own =>
        subst hown
        exact fun ho => exec_stam hi (staBody_own hready hg (access_sta_own ht hg horder hpair hp) ho)
    case remote =>
      intro path s' hhold
      obtain ⟨hacc, hu⟩ := access_sta_remote ht hg hni hunits hclose haway hhold
      exact exec_stam hi (staBody_away hready hg (fun _ _ => Target.noConfusion) hacc hu)

end Sys2Proof.Machine
end

section
/-!
SUPPORT. Fences (spec/06 R128, spec/04 R398).
-/

namespace Sys2Proof.Machine

open Sys2Proof

section Fences
variable {x : In} {s : State} {sys parked : Bool}

/-- A fence whose accesses are acknowledged lets its instruction go on. -/
theorem fenceHold_passes (h : (s.tile x.t).owes x.w sys parked = false) (next : Unit → Body.Out) :
    (fenceHold s x sys parked >>= next) = next () := by
  rw [fenceHold, h]
  rfl

/-- One that still owes some holds its task on them. -/
theorem fenceHold_holds (h : (s.tile x.t).owes x.w sys parked = true) (next : Unit → Body.Out) :
    (fenceHold s x sys parked >>= next) = .error (.hold (some (.fence sys parked))) := by
  rw [fenceHold, h]
  rfl

end Fences

theorem fence_completes : Gives .fence (fun x s => (s.tile x.t).owes x.w (x.f.scope == 4) false = false) fun _ s => (s, .next) :=
  gives_of (fun _ => formFence) _ (fun _ => rfl) (fun _ => rfl) (fun _ _ => rfl) fun _ _ h => fenceHold_passes h _

theorem fenceAck_completes : Gives .fenceAck (fun x s => (s.tile x.t).owes x.w true true = false) fun _ s => (s, .next) :=
  gives_of (fun _ => formFenceAck) _ (fun _ => rfl) (fun _ => rfl) (fun _ _ => rfl) fun _ _ h => fenceHold_passes h _

/-- Settles O17: the body of a fence is its wait, which passes or holds. -/
theorem fencesWaitForAcknowledgements : Obligations.FencesWaitForAcknowledgements := by
  unfold Obligations.FencesWaitForAcknowledgements
  refine ⟨fence_completes, fenceAck_completes, fun s w m f s1 x => ⟨fun hi howes => ?fence, fun hi howes => ?fenceAck⟩⟩
  case fence =>
    cases hi.form
    obtain ⟨_, _, rfl⟩ := hi.operands
    refine issue_of_stops hi (e := .hold (some (.fence (x.f.scope == 4) false))) ?_
    exact fenceHold_holds howes _
  case fenceAck =>
    cases hi.form
    refine issue_of_stops hi (e := .hold (some (.fence true true))) ?_
    exact fenceHold_holds howes _

end Sys2Proof.Machine
end

section
/-!
SUPPORT. Accesses that leave for another tile, for far memory, for an instruction store or for a multicast group (spec/06 R101, R112, R120,
spec/02 R14, R18, R19).
-/

namespace Sys2Proof.Machine

open Sys2Proof

/-- An access that its core does not perform on its own slice at once goes to its tile, be it its own. -/
theorem access_sent {x : In} {s : State} {r : Req} {a : Word} {al : Bool} {h off : Nat} (ht : x.t < numTiles)
    (hg : checkAddr s x.t r.k a al = .ok (.sram h off)) (hown : ownAtOnce x s r h = false) :
    access x s r a al = accessTile x s r a h off := by
  rw [access, if_neg (Nat.not_le.mpr ht), hg, ok_bind]
  exact if_neg (Bool.not_eq_true _ ▸ hown)

/-- Settles O13: the instruction's access is the one to its home's tile, which leaves. -/
theorem accessesToOtherTilesComplete : Obligations.AccessesToOtherTilesComplete := by
  unfold Obligations.AccessesToOtherTilesComplete
  intro s w i m f s1 x r a al h off s2 hi hr hc hrel ht hg hown hni path waits horder s' sent hhold
  have hid : s'.nextId = s1.nextId := by
    simp only [s']
    split <;> rfl
  rw [hid] at hhold
  exact exec_of_access hi hr hc hrel ht hg (fun _ => Target.noConfusion)
    ((access_sent ht hg hown).trans (accessTile_leaves hni rfl rfl horder rfl hhold))

section Targets
variable {x : In} {s : State} {r : Req} {a : Word} {al : Bool} (ht : x.t < numTiles)
include ht

theorem access_far {va : Nat} (hg : checkAddr s x.t r.k a al = .ok (.far va)) : access x s r a al = accessFar x s r a va := by
  rw [access, if_neg (Nat.not_le.mpr ht), hg, ok_bind]

theorem access_code {h off : Nat} {ws : List Word} (hg : checkAddr s x.t r.k a al = .ok (.code h off)) (hop : r.op = .storeBlock ws) :
    access x s r a al = accessCode x s r a h off ws := by
  simp only [access, if_neg (Nat.not_le.mpr ht), hg, ok_bind, hop]

theorem access_group {g off : Nat} (hg : checkAddr s x.t r.k a al = .ok (.mcast g off)) :
    access x s r a al = accessGroup x s r a g off := by
  rw [access, if_neg (Nat.not_le.mpr ht), hg, ok_bind]

end Targets

section Leaving
variable {x : In} {s s2 : State} {r : Req} {a : Word} (hni : niFull s x.t a = false)
include hni

/-- A far store goes to the memory core of its address. -/
theorem accessFar_leaves {va : Nat}
    (hhold : pairHold ((addOut s x { r.out x a with late := true, slow := true }).send
      { mkPacket x.t (mcDst (homeMc va)) x.seq (lineChan va) (.farStore ((s.tenantOf x.t).getD 0) a r.op) with span := lineSpan va (opLen r.op) })
      x.t x.w [s.nextId] r.op a = .ok s2) : accessFar x s r a va = .ok (s2, .next) := by
  simp only [accessFar, hni, Bool.false_eq_true, if_false]
  exact congrArg (· >>= goOn) hhold

/-- A line of code goes to its tile on the ordered class. -/
theorem accessCode_leaves {h off : Nat} {ws : List Word}
    (hhold : pairHold ((addOut s x { r.out x a with slow := true }).send
      (mkPacket x.t h x.seq orderedChan (.code off (BitVec.ofNat 512 (ofBytes (wordsBytes ws)))))) x.t x.w [s.nextId] r.op a = .ok s2) :
    accessCode x s r a h off ws = .ok (s2, .next) := by
  simp only [accessCode, hni, Bool.false_eq_true, if_false]
  exact congrArg (· >>= goOn) hhold

end Leaving

/-- A check that passes at every member of a list passes at the list. -/
theorem forM_ok {α : Type} {l : List α} {check : α → Except Stop Unit} (h : ∀ m ∈ l, check m = .ok ()) : l.forM check = .ok () := by
  induction l with
  | nil => rfl
  | cons m l ih =>
    show (check m >>= fun _ => l.forM check) = .ok ()
    rw [h m List.mem_cons_self, ok_bind]
    exact ih fun m' hm => h m' (List.mem_cons_of_mem m hm)

/-- A store to a group goes to each of its local members, and to another package where the choice says so; it is done at once where the
group has no member. -/
theorem accessGroup_leaves {x : In} {s s4 : State} {r : Req} {a : Word} {g off n : Nat} {hk : Husk} (hni : niFull s x.t a = false)
    (hh : s.huskOf x.t = some (n, hk))
    (hmat : ((s.groupOf n g).any fun m => matrixMeets s x.t x.w (hk.tileAt m.1 m.2.1) (m.2.2 * 65536 + off) (opLen r.op) true) = false)
    (hparked : ∀ m ∈ s.groupOf n g, behindParked s x.t x.w (hk.tileAt m.1 m.2.1) (m.2.2 * 65536 + off) r.op = .ok ()) :
    let away := s.choose.1 % 2 = 1
    let far := if away then 1 else 0
    let u := s.tile x.t
    let sent := addOut s.choose.2 x { r.out x a with
      late := true, slow := true, acks := max 1 ((s.groupOf n g).length + far), far := far }
    let s2 := if (s.groupOf n g).length + far = 0 then sent.send (mkPacket x.t x.t x.seq none (.reply .done)) else sent
    let s3 := (s.groupOf n g).foldl (fun s m => s.send { mkPacket x.t (hk.tileAt m.1 m.2.1) x.seq
      (lineChan (m.2.2 * 65536 + off)) (.multicast (m.2.2 * 65536 + off) r.op (!(u.task x.w).sup) (u.activeBoost x.w) r.strong) with
        span := lineSpan off (opLen r.op) }) s2
    pairHold s3 x.t x.w ((List.range (s.groupOf n g).length).map (s2.nextId + ·)) r.op a = .ok s4 →
    accessGroup x s r a g off = .ok (if away then { s4 with
      egress := s4.egress ++ [{ chip := 0, src := x.t, tag := x.seq, path := 0, addr := a, op := some r.op, group := some g
                                held := u.pairing.isSome, behind := s.choose.2.staysBehind x.t a (opLen r.op) }] }
      else s4, .next) := by
  intro away far u sent s2 s3 hhold
  simp only [accessGroup, hh, hni, hmat, forM_ok hparked, ok_bind, Bool.false_eq_true, if_false]
  exact congrArg (· >>= fun s4 => goOn (if away then { s4 with
    egress := s4.egress ++ [{ chip := 0, src := x.t, tag := x.seq, path := 0, addr := a, op := some r.op, group := some g
                              held := u.pairing.isSome, behind := s.choose.2.staysBehind x.t a (opLen r.op) }] } else s4)) hhold

/-- Settles O15: by what the address names, far memory, a line of code or a group. -/
theorem farCodeAndGroupStoresComplete : Obligations.FarCodeAndGroupStoresComplete := by
  unfold Obligations.FarCodeAndGroupStoresComplete
  intro s w i m f s1 x r a al g hi hr hc hrel ht hg hni
  have completes {s2 : State} (hna : ∀ ch, g ≠ .aperture ch) (h : access x s1 r a al = .ok (s2, .next)) :
      exec i s = .next (retired s1 x m s2 .next) := exec_of_access hi hr hc hrel ht hg hna h
  refine ⟨fun va s2 hva hhold => ?far, fun h off ws s2 hcode hop hhold => ?code, fun gr off n hk s4 hgr hh hmat hparked => ?group⟩
  case far =>
    subst hva
    exact completes (fun _ => Target.noConfusion) ((access_far ht hg).trans (accessFar_leaves hni hhold))
  case code =>
    subst hcode
    exact completes (fun _ => Target.noConfusion) ((access_code ht hg hop).trans (accessCode_leaves hni hhold))
  case group =>
    subst hgr
    intro away far u sent s2 s3 hhold
    exact completes (fun _ => Target.noConfusion) ((access_group ht hg).trans (accessGroup_leaves hni hh hmat hparked hhold))

end Sys2Proof.Machine
end

section
/-!
SUPPORT. What an access does at its home, and the values of the atomics (spec/06 R107 to R124, Table 11).
-/

namespace Sys2Proof.Machine

open Sys2Proof

section Effects
variable {s : State} {t off : Nat} (h : s.openWord t (off / 8 * 8) = none)
include h

/-- A word that holds no open image and no ring record reads as the bytes of its slice. -/
theorem readSlice_of_closed (n : Nat) : readSlice s t off n = (s, getNat s (sliceKey t off) n) := by
  rw [readSlice, h]

theorem effectAt_load (n : Nat) (q : Asker) :
    effectAt s t off (.load n) q = (s, .data [BitVec.ofNat 64 (getNat s (sliceKey t off) n)] 0) := by
  simp only [effectAt, readSlice_of_closed h]

theorem effectAt_amo (op : AmoOp) (n : Nat) (v c : Word) (q : Asker) : effectAt s t off (.amo op n v c) q =
    (s.putSlice t off (bytesOf (amoNew op n (getNat s (sliceKey t off) (n / 8)) v.toNat c.toNat) (n / 8)),
      .data [BitVec.ofNat 64 (getNat s (sliceKey t off) (n / 8))] 0) := by
  simp only [effectAt, readSlice_of_closed h]

/-- LDF of a full word. -/
theorem effectAt_ldf (he : s.isEmpty t off = false) (n : Nat) (q : Asker) :
    effectAt s t off (.ldf n) q = (s, .data [BitVec.ofNat 64 (getNat s (sliceKey t off) n)] 0) := by
  simp only [effectAt, he, readSlice_of_closed h, Bool.false_eq_true, if_false]

/-- LDFE of a full word. -/
theorem effectAt_ldfe (he : s.isEmpty t off = false) (n : Nat) (q : Asker) : effectAt s t off (.ldfe n) q =
    ((s.setEmpty t off true).retestAt t (off / 8 * 8) (off / 8 * 8 + 8), .data [BitVec.ofNat 64 (getNat s (sliceKey t off) n)] 0) := by
  simp only [effectAt, he, readSlice_of_closed h, Bool.false_eq_true, if_false]

end Effects

/-- STEF of an empty word. -/
theorem effectAt_stef {s : State} {t off : Nat} (he : s.isEmpty t off = true) (n : Nat) (v : Word) (q : Asker) :
    effectAt s t off (.stef n v) q =
      (((s.putSlice t off (bytesOf v.toNat n)).setEmpty t off false).retestAt t (off / 8 * 8) (off / 8 * 8 + 8), .done) :=
  if_pos he

/-! ### The values of the atomics -/

section Atomics
variable {n : Nat} (o v c : BitVec n)

/-- The signed number that a pattern of `n` bits stands for. -/
theorem sgn_toNat (hn : 0 < n) : sgn n v.toNat = v.toInt := by
  obtain ⟨k, rfl⟩ := Nat.exists_eq_add_of_le' hn
  rw [sgn, BitVec.toInt_eq_toNat_cond, Nat.mod_eq_of_lt v.isLt, Nat.add_sub_cancel]
  refine if_congr ?_ rfl rfl
  rw [Nat.pow_succ]
  omega

/-- An operand of `n` bits is taken as it is. -/
theorem toNat_mod_self : v.toNat % 2 ^ n = v.toNat := Nat.mod_eq_of_lt v.isLt

theorem amoNew_min (hn : 0 < n) : amoNew .min n o.toNat v.toNat c.toNat = (if o.toInt ≤ v.toInt then o else v).toNat := by
  rw [amoNew, sgn_toNat o hn, sgn_toNat v hn, toNat_mod_self, apply_ite BitVec.toNat]

theorem amoNew_max (hn : 0 < n) : amoNew .max n o.toNat v.toNat c.toNat = (if v.toInt ≤ o.toInt then o else v).toNat := by
  rw [amoNew, sgn_toNat o hn, sgn_toNat v hn, toNat_mod_self, apply_ite BitVec.toNat]

theorem amoNew_cas : amoNew .cas n o.toNat v.toNat c.toNat = (if o = c then v else o).toNat := by
  rw [amoNew, toNat_mod_self, toNat_mod_self, apply_ite BitVec.toNat]
  exact if_congr (BitVec.toNat_inj) rfl rfl

/-- The bitwise results, and the others that the operand alone or its order decides. -/
theorem amoNew_unsigned : amoNew .minn n o.toNat v.toNat c.toNat = min o.toNat v.toNat
    ∧ amoNew .maxn n o.toNat v.toNat c.toNat = max o.toNat v.toNat
    ∧ amoNew .and n o.toNat v.toNat c.toNat = (o &&& v).toNat ∧ amoNew .or n o.toNat v.toNat c.toNat = (o ||| v).toNat
    ∧ amoNew .xor n o.toNat v.toNat c.toNat = (o ^^^ v).toNat ∧ amoNew .swap n o.toNat v.toNat c.toNat = v.toNat := by
  have hv := toNat_mod_self v
  exact ⟨congrArg (min _) hv, congrArg (max _) hv, (congrArg (Nat.land _) hv).trans (BitVec.toNat_and ..).symm,
    (congrArg (Nat.lor _) hv).trans (BitVec.toNat_or ..).symm, (congrArg (Nat.xor _) hv).trans (BitVec.toNat_xor ..).symm, hv⟩

end Atomics

/-- Settles O18: the effects operation by operation, then the values of Table 11. -/
theorem effectsAndAtomicsAtHome : Obligations.EffectsAndAtomicsAtHome := by
  unfold Obligations.EffectsAndAtomicsAtHome
  refine ⟨fun s t off n v c op q h => ?effects, fun n o v c hn => ?values⟩
  case effects =>
    exact ⟨effectAt_load h n q, rfl, effectAt_amo h op n v c q, fun he => ⟨effectAt_ldf h he n q, effectAt_ldfe h he n q⟩,
      fun he => effectAt_stef he n v q, rfl, rfl, rfl⟩
  case values =>
    obtain ⟨hminn, hmaxn, hand, hor, hxor, hswap⟩ := amoNew_unsigned o v c
    exact ⟨(BitVec.toNat_add o v).symm, amoNew_min o v c hn, amoNew_max o v c hn, hminn, hmaxn, hand, hor, hxor, hswap, amoNew_cas o v c⟩

end Sys2Proof.Machine
end

section
/-!
SUPPORT. Answers and fault reports that reach a core: the operation that they are for, and how it ends (spec/06 R101 to R103, spec/04 R66,
R67).
-/

namespace Sys2Proof.Machine

open Sys2Proof

/-! ### The numbers of the outstanding operations -/

/-- The numbers of the operations that are outstanding. -/
def Tile.tags (u : Tile) : List Nat := u.out.map (·.tag)

/-- Operations that are changed and keep their numbers. -/
theorem map_tag_map {g : Outst → Outst} (hg : ∀ o, (g o).tag = o.tag) (l : List Outst) : (l.map g).map (·.tag) = l.map (·.tag) := by
  rw [List.map_map]
  exact List.map_congr_left fun o _ => hg o

@[simp] theorem Tile.apply_tags (u : Tile) (w : Who) (tag : Nat) (g : Task → Task) : (u.apply w tag g).tags = u.tags := by
  simp only [Tile.tags, Tile.apply, Tile.modTask_out]
  exact map_tag_map (fun o => by split <;> rfl) _

@[simp] theorem Tile.passFlags_tags (u : Tile) (w : Who) (tag fl : Nat) : (u.passFlags w tag fl).tags = u.tags := by
  rw [Tile.passFlags]
  split
  · rfl
  · exact map_tag_map (fun o => by split <;> rfl) _

@[simp] theorem Tile.portWrites_out (ws : List (Nat × Word)) : ∀ u : Tile, (u.portWrites ws).out = u.out := by
  induction ws with
  | nil => exact fun _ => rfl
  | cons e ws ih =>
    intro u
    rw [Tile.portWrites, ih]
    split <;> rfl

@[simp] theorem Tile.foldAll_out (ws : List (Nat × Word)) : ∀ u : Tile, (u.foldAll ws).out = u.out := by
  induction ws with
  | nil => exact fun _ => rfl
  | cons e ws ih => exact fun u => (ih _).trans rfl

@[simp] theorem Tile.portDone_out (u : Tile) (n : Option Nat) : (u.portDone n).out = u.out := by
  cases n <;> rfl

/-- A result that is delivered ends no operation. -/
theorem Tile.deliver_tags (u : Tile) (w : Who) (tag : Nat) (ws : List (Nat × Word)) (fl lower : Nat) :
    (u.deliver w tag ws fl lower).tags = u.tags := by
  rw [Tile.deliver, Tile.tags, Tile.foldAll_out, Tile.portWrites_out, ← Tile.tags, Tile.passFlags_tags, Tile.apply_tags]

/-- Nor does the end of other waits. -/
theorem wakeWaiting_out (s : State) (t : Nat) : ((wakeWaiting s t).tile t).out = (s.tile t).out := by
  refine foldl_keeps (P := fun a : State => (a.tile t).out = (s.tile t).out) _ _ (fun a i _ ha => ?_) s rfl
  dsimp only
  split
  · split
    · rw [State.modTile_tile_same]
      exact ha
    · exact ha
  · exact ha

theorem releaseBehind_tile (s : State) (t i : Nat) (o : Outst) : (releaseBehind s t o).tile i = s.tile i := by
  rw [releaseBehind]
  split <;> rfl

/-- An operation that is over is outstanding no more. -/
theorem finishOut_gone (s : State) (t : Nat) (o : Outst) (ws : List (Nat × Word)) : o.tag ∉ ((finishOut s t o ws).tile t).tags := by
  rw [finishOut, Tile.tags, wakeWaiting_out, State.modTile_tile_same, Tile.portDone_out, ← Tile.tags, Tile.deliver_tags]
  simp [Tile.tags]

/-! ### One answer of an operation -/

section OneAnswer
variable {s : State} {t : Nat} {o : Outst} {ws : List (Nat × Word)} {away : Bool}

/-- An answer that others are to follow is counted. -/
theorem answerOut_counts (h : 1 < o.acks) : answerOut s t o ws away = s.modTile t fun u => { u with
    out := u.out.map fun x => if x.tag = o.tag then { x with acks := x.acks - 1, far := if away then x.far - 1 else x.far } else x } :=
  if_pos h

/-- The last one ends the operation. -/
theorem answerOut_ends (h : o.acks ≤ 1) : ∀ x ∈ ((answerOut s t o ws away).tile t).out, x.tag ≠ o.tag := by
  intro x hx htag
  rw [answerOut, if_neg (Nat.not_lt.mpr h), releaseBehind_tile] at hx
  exact finishOut_gone _ t o ws (List.mem_map.mpr ⟨x, hx, htag⟩)

/-- An answer without a fault is an answer, unless it is the last one after a fault under PX. -/
theorem doneOut_of_good (h : o.bad = none ∨ 1 < o.acks) : doneOut s t o away = answerOut s t o [] away := by
  rw [doneOut]
  split
  · next hb =>
    rcases h with h | h
    · rw [hb] at h
      cases h
    · exact if_pos h
  · rfl

theorem doneOut_of_bad {c : Cause} {a : Word} (hb : o.bad = some (c, a)) (h : o.acks ≤ 1) : doneOut s t o away = exactOut s t o c a false := by
  rw [doneOut, hb]
  exact if_neg (Nat.not_lt.mpr h)

end OneAnswer

/-! ### The events of an answer -/

section Answers
variable {s s1 : State} {r : Reply} {t tag : Nat} {a : Answer} {o : Outst}

/-- The deliveries of an STAM go out once its home has performed it (spec/05 R85); those of a delivery do not. -/
def sendDeliveries (s : State) (t : Nat) (o : Outst) : State :=
  match o.group, o.op with
  | some g, some (.sta line age) =>
    if o.kind == .delivery then s else deliverMirrors s t o g line age ((s.tile t).activeBoost o.who) false
  | _, _ => s

theorem sendDeliveries_of_none (h : o.group = none ∨ o.kind = .delivery) : sendDeliveries s t o = s := by
  rw [sendDeliveries]
  split
  · next hg _ =>
    rcases h with h | h
    · rw [hg] at h
      cases h
    · rw [h]
      rfl
  · rfl

theorem sendDeliveries_of_group {g : Nat} {line : Line} {age : BitVec 32} (hg : o.group = some g) (hop : o.op = some (.sta line age))
    (hk : o.kind ≠ .delivery) : sendDeliveries s t o = deliverMirrors s t o g line age ((s.tile t).activeBoost o.who) false := by
  rw [sendDeliveries, hg, hop]
  exact if_neg (by simpa using hk)

section Dropped
variable (ht : takeReply s r = some (s1, t, tag, a)) (ho : (s1.tile t).outFor r tag = none)
include ht ho

/-! An answer that finds no operation of its generation is dropped. -/

theorem exec_loadReply_dropped (ha : (∃ ws age, a = .data ws age) ∨ a = .parked) : exec (.loadReply r) s = .next s1 := by
  show execLoadReply r s = _
  obtain ⟨ws, age, rfl⟩ | rfl := ha <;> simp only [execLoadReply, ht, ho]

theorem exec_acknowledgementArrival_dropped (ha : (∃ ws age, a = .data ws age) ∨ a = .done) :
    exec (.acknowledgementArrival r) s = .next s1 := by
  show execAcknowledgementArrival r s = _
  cases r
  case copyIn => cases ht
  all_goals obtain ⟨ws, age, rfl⟩ | rfl := ha <;> simp only [execAcknowledgementArrival, ht, ho]

theorem exec_lateFaultReport_dropped (ha : (∃ c, a = .fault c) ∨ ∃ c x, a = .dropped c x) :
    exec (.lateFaultReport r) s = .next s1 := by
  show execLateFaultReport r s = _
  obtain ⟨c, rfl⟩ | ⟨c, x, rfl⟩ := ha <;> simp only [execLateFaultReport, ht, ho]

end Dropped

section Found
variable (ho : (s1.tile t).outFor r tag = some o)
include ho

theorem exec_loadReply_data {ws : List Word} {age : BitVec 32} (ht : takeReply s r = some (s1, t, tag, .data ws age))
    (hd : o.dst ≠ .none) : exec (.loadReply r) s = .next (answerOut s1 t o (o.dst.writes ws age)) := by
  show execLoadReply r s = _
  simp only [execLoadReply, ht, ho, beq_eq_false_iff_ne.mpr hd, Bool.false_eq_true, if_false]

theorem exec_loadReply_parked (ht : takeReply s r = some (s1, t, tag, .parked)) :
    exec (.loadReply r) s = .next (s1.modTile t fun u =>
      { u with out := u.out.map fun x => if x.tag = tag then { x with status := false, parked := true } else x }) := by
  show execLoadReply r s = _
  simp only [execLoadReply, ht, ho]

/-- Data acknowledge an operation without a destination, or tell a BDECL to abort. -/
theorem exec_acknowledgementArrival_data {ws : List Word} {age : BitVec 32} (ht : takeReply s r = some (s1, t, tag, .data ws age)) :
    exec (.acknowledgementArrival r) s =
      if o.pushes != [] then .next (answerOut (abortAnswer s1 t o (ws.headD 0)) t o [])
      else if o.dst == .none then .next (answerOut s1 t o []) else .refused .notPending := by
  show execAcknowledgementArrival r s = _
  cases r
  case copyIn => cases ht
  all_goals simp only [execAcknowledgementArrival, ht, ho]

theorem exec_acknowledgementArrival_done (ht : takeReply s r = some (s1, t, tag, .done)) : exec (.acknowledgementArrival r) s =
    if o.park then .next (parkAccepted s1 t o)
    else if o.pushes != [] then .next (answerOut (grantPush s1 t o) t o [])
    else .next (doneOut (sendDeliveries s1 t o) t o (replyAway r)) := by
  show execAcknowledgementArrival r s = _
  cases r
  case copyIn => cases ht
  all_goals
    simp only [execAcknowledgementArrival, ht, ho]
    rfl

theorem exec_lateFaultReport_fault {c : Cause} (ht : takeReply s r = some (s1, t, tag, .fault c)) (hready : (s1.tile t).reportReady o = true) :
    exec (.lateFaultReport r) s = .next (reportFault s1 t o c (replyAway r)) := by
  show execLateFaultReport r s = _
  simp only [execLateFaultReport, ht, ho, hready, if_true]

theorem exec_lateFaultReport_flag {c : Cause} {x : Word} (ht : takeReply s r = some (s1, t, tag, .dropped c x))
    (hready : (s1.tile t).reportReady o = true) : exec (.lateFaultReport r) s =
      if c == .btbl then .next (tableFault s1 t o x)
      else if o.park || o.px then .next (exactOut s1 t o c x true)
      else .next (lateOut s1 t o c x true (replyAway r)) := by
  show execLateFaultReport r s = _
  simp only [execLateFaultReport, ht, ho, hready, Bool.not_true, Bool.false_eq_true, if_false]

end Found
end Answers

/-! ### The fault that a report makes -/

section Reports
variable {s : State} {t : Nat} {o : Outst} {c : Cause} {a : Word} {away fdrop : Bool}

theorem reportFault_of_program (ht : numTiles ≤ t) : reportFault s t o c away = endProgram (answerOut s t o []) t c o.addr := if_pos ht

section Core
variable (ht : t < numTiles)
include ht

theorem reportFault_of_status (h : o.status = true ∨ o.park = true) : reportFault s t o c away = exactOut s t o c o.addr false := by
  rw [reportFault, if_neg (Nat.not_le.mpr ht)]
  exact if_pos (Bool.or_eq_true_iff.mpr h)

variable (hs : o.status = false) (hp : o.park = false)
include hs hp

/-- Under PX the fault is exact with the last answer of the operation, and is the first one reported. -/
theorem reportFault_of_px (hpx : o.px = true) : reportFault s t o c away =
    if 1 < o.acks then answerOut (s.modTile t fun u => { u with out := u.out.map fun x =>
      if x.tag = o.tag then { x with bad := some (x.bad.getD (c, o.addr)) } else x }) t o [] away
    else exactOut s t o (o.bad.getD (c, o.addr)).1 (o.bad.getD (c, o.addr)).2 false := by
  rw [reportFault, if_neg (Nat.not_le.mpr ht)]
  simp only [Outst.exact, hs, hp, hpx, Bool.or_self, Bool.false_or, Bool.false_eq_true, if_false, if_true]

/-- Else it stays pending. -/
theorem reportFault_late (hpx : o.px = false) : reportFault s t o c away = lateOut s t o c o.addr false away := by
  rw [reportFault, if_neg (Nat.not_le.mpr ht)]
  simp only [Outst.exact, hs, hp, hpx, Bool.or_self, Bool.false_eq_true, if_false]

end Core

/-! An exact fault is dropped, taken, or put off. -/

theorem exactOut_of_undoing (h : (s.tile t).undoing o.who = true) : exactOut s t o c a fdrop = answerOut s t { o with acks := 1 } [] :=
  if_pos h

theorem exactOut_taken (h : (s.tile t).undoing o.who = false) (hw : (s.tile t).active = some o.who) (hp : (s.tile t).pairOpen = false) :
    exactOut s t o c a fdrop = exactFault (answerOut s t { o with acks := 1 } []) t { o with addr := a } c fdrop := by
  simp only [exactOut, h, hw, hp, beq_self_eq_true, Bool.not_false, Bool.and_self, Bool.false_eq_true, if_false, if_true]

theorem exactOut_deferred (h : (s.tile t).undoing o.who = false) (hn : (s.tile t).active ≠ some o.who ∨ (s.tile t).pairOpen = true) :
    exactOut s t o c a fdrop = deferExact (answerOut s t { o with acks := 1 } []) t { o with addr := a } c fdrop := by
  have hnow : ((s.tile t).active == some o.who && !(s.tile t).pairOpen) = false := by
    rcases hn with hw | hp
    · rw [beq_eq_false_iff_ne.mpr hw, Bool.false_and]
    · rw [hp, Bool.not_true, Bool.and_false]
  simp only [exactOut, h, hnow, Bool.false_eq_true, if_false]

/-- BTBL sets BTRY of the task's image. -/
theorem tableFault_of_img {i : Nat} (h : o.who = .img i) : tableFault s t o a =
    exactOut (s.modTile t fun u => u.setCtx i { u.ctx i with boost := { (u.ctx i).boost with btry := true } }) t o .btbl a false := by
  rw [tableFault, h]

end Reports

/-- Settles O42: answer by answer, with the operation that it finds or without one; then report by report. -/
theorem answersAndFaultReportsCompleteTheirOperation : Obligations.AnswersAndFaultReportsCompleteTheirOperation := by
  unfold Obligations.AnswersAndFaultReportsCompleteTheirOperation
  refine ⟨⟨fun s s1 r t tag a ht => ⟨fun ho => ?dropped, fun o ho => ?found⟩, fun s t o ws away => ?answers, fun s s1 ch j a => ?copies⟩,
    fun s s1 r t tag a o ht ho hready => ?reports, fun s t o c a fdrop => ?exact⟩
  case dropped =>
    exact ⟨exec_loadReply_dropped ht ho, exec_acknowledgementArrival_dropped ht ho, exec_lateFaultReport_dropped ht ho⟩
  case found =>
    refine ⟨?data, ?parked, ?acknowledged, ?aborted, ?park, ?grant, ?done, ?deliveries⟩
    case data =>
      rintro ws age rfl hd
      exact exec_loadReply_data ho ht hd
    case parked =>
      rintro rfl
      exact exec_loadReply_parked ho ht
    case acknowledged =>
      rintro ws age rfl hd hp
      rw [exec_acknowledgementArrival_data ho ht, hd, hp]
      rfl
    case aborted =>
      rintro v ws age rfl hp
      rw [exec_acknowledgementArrival_data ho ht, if_pos (bne_iff_ne.mpr hp)]
      rfl
    case park =>
      rintro rfl hp
      rw [exec_acknowledgementArrival_done ho ht, if_pos hp]
    case grant =>
      rintro rfl hp hpush
      rw [exec_acknowledgementArrival_done ho ht, hp, if_pos (bne_iff_ne.mpr hpush)]
      rfl
    case done =>
      rintro rfl hp hpush hg
      rw [exec_acknowledgementArrival_done ho ht, hp, hpush, sendDeliveries_of_none hg]
      rfl
    case deliveries =>
      rintro g line age rfl hp hpush hg hop hk
      rw [exec_acknowledgementArrival_done ho ht, hp, hpush, sendDeliveries_of_group hg hop hk]
      rfl
  case answers => exact ⟨answerOut_counts, answerOut_ends, doneOut_of_good, fun c a => doneOut_of_bad⟩
  case copies =>
    show (_ → execAcknowledgementArrival (.copyIn ch j a) s = _) ∧ (_ → execAcknowledgementArrival (.copyIn ch j a) s = _)
    exact ⟨fun h => by simp only [execAcknowledgementArrival, h], fun h => by simp only [execAcknowledgementArrival, h]⟩
  case reports =>
    intro go
    refine ⟨?fault, ?flag⟩
    case fault =>
      rintro c rfl
      rw [show go = _ from exec_lateFaultReport_fault ho ht hready]
      refine ⟨fun hmc => ?_, fun hcore h => ?_, fun hcore hs hp hpx => ⟨fun hlast => ?_, fun hmore => ?_⟩, fun hcore hs hp hpx => ?_⟩
      · rw [reportFault_of_program hmc]
      · rw [reportFault_of_status hcore h]
      · rw [reportFault_of_px hcore hs hp hpx, if_neg (Nat.not_lt.mpr hlast)]
      · rw [reportFault_of_px hcore hs hp hpx, if_pos hmore]
      · rw [reportFault_late hcore hs hp hpx]
        rfl
    case flag =>
      rintro c x rfl
      rw [show go = _ from exec_lateFaultReport_flag ho ht hready]
      refine ⟨fun hc => ?_, fun hc h => ?_, fun hc hp hpx => ?_⟩
      · rw [if_pos (beq_iff_eq.mpr hc)]
      · rw [if_neg (by simpa using hc), if_pos (Bool.or_eq_true_iff.mpr h)]
      · rw [if_neg (by simpa using hc), hp, hpx]
        rfl
  case exact =>
    exact ⟨exactOut_of_undoing, fun h hw hp => exactOut_taken h hw hp, exactOut_deferred, fun i => tableFault_of_img⟩

end Sys2Proof.Machine
end

section
/-!
SUPPORT. Changes of the tiles alone, and what retirement leaves of a pair (spec/10 R175, spec/19 R358).
-/

namespace Sys2Proof.Machine

open Sys2Proof

/-- `s'` follows `s` with nothing but tiles changed. -/
def TilesOnly (s s' : State) : Prop := s' = { s with tiles := s'.tiles }

section TilesOnlySteps
variable {s s' s'' : State}

theorem TilesOnly.refl (s : State) : TilesOnly s s := rfl

theorem TilesOnly.trans (h : TilesOnly s s') (h' : TilesOnly s' s'') : TilesOnly s s'' := by
  rw [TilesOnly] at h'
  rw [h', h]
  rfl

theorem TilesOnly.mem (h : TilesOnly s s') : s'.mem = s.mem := by rw [h]
theorem TilesOnly.marked (h : TilesOnly s s') : s'.marked = s.marked := by rw [h]
theorem TilesOnly.net (h : TilesOnly s s') : s'.net = s.net := by rw [h]
theorem TilesOnly.sel (h : TilesOnly s s') : s'.sel = s.sel := by rw [h]
theorem TilesOnly.egress (h : TilesOnly s s') : s'.egress = s.egress := by rw [h]

theorem tilesOnly_modTile (s : State) (t : Nat) (g : Tile → Tile) : TilesOnly s (s.modTile t g) := rfl

theorem tilesOnly_foldl {α : Type} {f : State → α → State} (hf : ∀ s a, TilesOnly s (f s a)) (l : List α) (s : State) :
    TilesOnly s (l.foldl f s) :=
  foldl_keeps (P := TilesOnly s) f l (fun _ _ _ h => h.trans (hf _ _)) s (TilesOnly.refl s)

theorem tilesOnly_tellFollowers (s : State) (t : Nat) (w : Who) (slot : Nat) (guard : Bool) (a : After) :
    TilesOnly s (tellFollowers s t w slot guard a) := by
  unfold tellFollowers
  dsimp only
  split
  · split
    · exact tilesOnly_foldl (fun _ _ => tilesOnly_modTile ..) _ s
    · exact TilesOnly.refl s
  · exact TilesOnly.refl s

theorem tilesOnly_countRetired (s : State) (t : Nat) (w : Who) (wasOpen : Bool) : TilesOnly s (countRetired s t w wasOpen) := rfl

theorem tilesOnly_advance (s : State) (t : Nat) (w : Who) (f : Fields) (beats : Nat) (a : After) :
    TilesOnly s (advance s t w f beats a) := rfl

theorem tilesOnly_retire (s : State) (t : Nat) (w : Who) (f : Fields) (beats : Nat) (wasOpen guard : Bool) (a : After) :
    TilesOnly s (retire s t w f beats wasOpen guard a) := by
  unfold retire
  split
  · exact TilesOnly.refl s
  · exact ((tilesOnly_tellFollowers ..).trans (tilesOnly_countRetired ..)).trans (tilesOnly_advance ..)

theorem tilesOnly_recheck (s : State) (t : Nat) : TilesOnly s (recheck s t) := by
  unfold recheck
  dsimp only
  split
  · rfl
  · exact TilesOnly.refl s

end TilesOnlySteps

/-- A tile that its own change of one aspect leaves alone keeps that aspect, whichever tile is asked. -/
theorem modTile_aspect {α : Type} {p : Tile → α} {g : Tile → Tile} (hg : ∀ u, p (g u) = p u) (s : State) (t k : Nat) :
    p ((s.modTile t g).tile k) = p (s.tile k) := by
  by_cases hk : k = t
  · rw [hk, State.modTile_tile_same, hg]
  · rw [State.modTile_tile_other _ hk]

/-! ### The pair of a tile over retirement -/

/-- The tile leads a pair. -/
def Tile.coupled (u : Tile) : Bool := u.pairing.isSome

section Coupled
variable (s : State) (t k : Nat) (w : Who)

@[simp] theorem Tile.modTask_coupled (u : Tile) (g : Task → Task) : (u.modTask w g).coupled = u.coupled := by
  rw [Tile.coupled, Tile.modTask_pairing, Tile.coupled]

theorem Tile.leaveLine_coupled (u : Tile) : (u.leaveLine w).coupled = u.coupled := by
  unfold Tile.leaveLine Tile.leftFwd
  split
  · split <;> rfl
  · rfl

theorem tellFollowers_coupled (slot : Nat) (guard : Bool) (a : After) :
    ((tellFollowers s t w slot guard a).tile k).coupled = (s.tile k).coupled := by
  unfold tellFollowers
  dsimp only
  split
  · split
    · refine foldl_keeps (P := fun a : State => (a.tile k).coupled = (s.tile k).coupled) _ _ (fun a j _ h => ?_) s rfl
      refine (modTile_aspect (p := Tile.coupled) (fun u => ?_) a _ k).trans h
      rfl
    · rfl
  · rfl

theorem countRetired_coupled (wasOpen : Bool) : ((countRetired s t w wasOpen).tile k).coupled = (s.tile k).coupled := by
  refine modTile_aspect (p := Tile.coupled) (fun u => ?_) s t k
  extract_lets u1 u2 det u3
  have h1 : u1.pairing = u.pairing := by
    unfold u1
    split
    · split <;> rfl
    · rfl
  have h2 : u2.pairing = u1.pairing := by
    unfold u2
    split
    · exact Tile.modTask_pairing ..
    · rfl
  have h3 : u3.pairing = u2.pairing := (apply_ite Tile.pairing ..).trans (ite_self _)
  rw [Tile.coupled, Option.isSome_map, h3, h2, h1, Tile.coupled]

theorem advance_coupled (f : Fields) (beats : Nat) (a : After) : ((advance s t w f beats a).tile k).coupled = (s.tile k).coupled := by
  refine modTile_aspect (p := Tile.coupled) (fun u => ?_) s t k
  extract_lets pc slot first b u1 u2 u3 left
  have h1 : u1.coupled = u.coupled := by
    unfold u1
    split <;> rfl
  have h2 : u2.coupled = u1.coupled := rfl
  rw [← h1, ← h2]
  cases a with
  | gone => rfl
  | next =>
    have h3 : u3.coupled = u2.coupled := Tile.modTask_coupled ..
    rw [← h3]
    exact (apply_ite Tile.coupled (slot = 4) _ _).trans ((if_congr Iff.rfl (Tile.leaveLine_coupled w u3) rfl).trans (ite_self _))
  | jump tgt lb => exact (Tile.leaveLine_coupled w _).trans (Tile.modTask_coupled ..)

theorem retire_coupled (f : Fields) (beats : Nat) (wasOpen guard : Bool) (a : After) :
    ((retire s t w f beats wasOpen guard a).tile k).coupled = (s.tile k).coupled := by
  unfold retire
  split
  · rfl
  · exact (advance_coupled ..).trans ((countRetired_coupled ..).trans (tellFollowers_coupled ..))

end Coupled
end Sys2Proof.Machine
end

section
/-!
SUPPORT. PAIR, UNPAIR and DIGEST.clr (spec/19 R364 to R366).
-/

namespace Sys2Proof.Machine

open Sys2Proof

/-! ### PAIR -/

/-- The core cannot become a follower: it is in a pair, or a context of it is in use (spec/19 R365). -/
def Tile.busyForPair (v : Tile) : Bool :=
  v.pairing.isSome || v.follows.isSome || !v.ready.isEmpty || (List.range 8).any fun j => (v.ctx j).st != .free

/-- What PAIR answers (spec/19 R365). -/
def pairAnswer (s : State) (t : Nat) : Nat :=
  if (s.tile t).pairing.isSome then 2 else if (s.tile (t + 1)).busyForPair then 1 else 0

/-- The state in which the answer `v` of an instruction is on its way to its destination. -/
def answeredLater (x : In) (s : State) (v : Word) : State :=
  (addOut s x { tag := 0, who := x.w, kind := .other, dst := .word x.f.dest.toNat }).send
    (mkPacket x.t x.t x.seq none (.reply (.data [v] 0)))

theorem resultLater_eq (x : In) (s : State) (v : Word) : resultLater x s v = .ok (answeredLater x s v, .next) := rfl

/-- The answer is under way. -/
theorem answeredLater_net (x : In) (s : State) (v : Word) :
    ∃ q ∈ (answeredLater x s v).net, q.tag = x.seq ∧ q.dst = x.t ∧ q.body = .reply (.data [v] 0) :=
  ⟨_, List.mem_append_right _ (List.mem_singleton_self _), rfl, rfl, rfl⟩

theorem answeredLater_coupled (x : In) (s : State) (v : Word) : ((answeredLater x s v).tile x.t).coupled = (s.tile x.t).coupled := by
  rw [answeredLater, State.send_tile, Tile.coupled, addOut_pairing, Tile.coupled]

/-- The pair is made: the leader keeps its checkpoint, and the follower takes a copy of its context. -/
def makePair (s : State) (x : In) (u : Tile) (i : Nat) : State :=
  let k := { (s.tile x.t).task x.w with pc := nextPc x.pc, mid := x.pc.toNat % 8 != 4 }
  (s.modTile x.t fun u => { u with
    pairing := some { mate := x.t + 1, img := i, k := x.f.imm.toNat, at_ := x.w, check := k, base := u.seq } }).modTile (x.t + 1) fun v =>
      { v.setCtx 0 { u.ctx i with task := k } with follows := some x.t }

theorem makePair_coupled (s : State) (x : In) (u : Tile) (i : Nat) : ((makePair s x u i).tile x.t).coupled = true := by
  rw [makePair, State.modTile_tile_other _ (by omega), State.modTile_tile_same]
  rfl

theorem tilesOnly_makePair (s : State) (x : In) (u : Tile) (i : Nat) : TilesOnly s (makePair s x u i) := rfl

section Pair
variable {s s1 : State} {w : Who} {m : Form} {f : Fields} {x : In} {i n : Nat} {h : Husk}

/-- PAIR of a task that may pair: it retires with its answer, or the pair is made and the stream goes on at its checkpoint. -/
theorem exec_pair (hi : Issues s w (.pair f) m f s1 x) (himg : x.w = .img i) (hh : s1.huskOfTile x.t = some (n, h))
    (hfwd : ((s1.tile x.t).task x.w).fwd = false) (hboost : ((s1.tile x.t).ctx i).boost.active = false)
    (heven : (tileX x.t - h.col0) % 2 = 0) (hroom : tileX x.t - h.col0 + 1 < h.width) :
    exec (.pair f) s = .next (
      let answer := answeredLater x s1 (BitVec.ofNat 64 (pairAnswer s1 x.t))
      if pairAnswer s1 x.t = 0 then
        advance (makePair (countRetired answer x.t x.w ((s1.tile x.t).task x.w).mwo) x (s1.tile x.t) i) x.t x.w x.f 1 .next
      else retired s1 x m answer .next) := by
  cases hi.form
  have hctx : x.img = some i := by rw [In.img, himg]
  have hmay : (!((s1.tile x.t).task x.w).fwd && !((s1.tile x.t).ctx i).boost.active && (tileX x.t - h.col0) % 2 == 0) = true := by
    rw [hfwd, hboost, heven]
    rfl
  by_cases hlead : (s1.tile x.t).pairing.isSome = true
  case pos =>
    rw [show pairAnswer s1 x.t = 2 from if_pos hlead, if_neg (by decide)]
    refine issue_of_issues hi ?_
    simp only [hctx, hh, need_eq, hmay, hroom, hlead, decide_true, if_true, ok_bind]
    rfl
  case neg =>
    by_cases hbusy : (s1.tile (x.t + 1)).busyForPair = true
    case pos =>
      rw [show pairAnswer s1 x.t = 1 from (if_neg hlead).trans (if_pos hbusy), if_neg (by decide)]
      refine issue_of_issues hi ?_
      rw [Tile.busyForPair] at hbusy
      simp only [hctx, hh, need_eq, hmay, hroom, hlead, hbusy, decide_true, if_true, ok_bind, Bool.false_eq_true, if_false]
      rfl
    case neg =>
      rw [show pairAnswer s1 x.t = 0 from (if_neg hlead).trans (if_neg hbusy), if_pos rfl]
      refine issue_of_issues (a := .gone) hi ?_
      rw [Tile.busyForPair] at hbusy
      simp only [hctx, hh, need_eq, hmay, hroom, hlead, hbusy, decide_true, if_true, ok_bind, Bool.false_eq_true, if_false]
      rfl

end Pair

/-! ### UNPAIR and DIGEST.clr -/

theorem exec_unpair : Gives .unpair (fun _ _ => True) fun x s =>
    (emit (if (s.tile x.t).pairing.any (fun p => x.w = .img p.img) then endPair s x.t else s) x 1 [] 0, .next) :=
  gives_of (fun _ => formUnpair) _ (fun _ => rfl) (fun _ => rfl) (fun _ _ => rfl) fun _ _ _ => rfl

theorem exec_digestClr (h : Husk) : Gives .digestClr
    (fun x s => (s.tile x.t).owes x.w true true = false ∧ ∃ n, s.huskOfTile x.t = some (n, h))
    fun x s => (emit { s with marked := s.marked.filter fun e => !(h.tiles.contains (e.1 / 2 ^ 15)) } x 1 [] 0, .next) := by
  refine gives_of (fun _ => formDigestClr) _ (fun _ => rfl) (fun _ => rfl) (fun _ _ => rfl) ?_
  rintro x s ⟨howes, n, hh⟩
  simp only [ackHold, howes, hh]
  rfl

end Sys2Proof.Machine
end

section
/-!
SUPPORT. The four steps of an eviction and a restore (spec/18 R343, R344).
-/

namespace Sys2Proof.Machine

open Sys2Proof

/-! ### What a restore and the records of launches leave of the husks -/

@[simp] theorem State.replaceWord_husks (s : State) (t off : Nat) : (s.replaceWord t off).husks = s.husks := by
  rw [State.replaceWord]
  split <;> rfl

@[simp] theorem State.markLine_husks (s : State) (t off : Nat) : (s.markLine t off).husks = s.husks := by
  rw [State.markLine]
  split <;> rfl

/-- Steps that each leave the husks leave them together. -/
theorem foldl_husks {α : Type} {g : State → α → State} (hg : ∀ s a, (g s a).husks = s.husks) (l : List α) (s : State) :
    (l.foldl g s).husks = s.husks :=
  foldl_keeps (P := fun a : State => a.husks = s.husks) g l (fun _ _ _ h => (hg _ _).trans h) s rfl

@[simp] theorem State.putSlice_husks (s : State) (t off : Nat) (bs : List Byte) : (s.putSlice t off bs).husks = s.husks := by
  rw [State.putSlice, State.markLines, foldl_husks fun s i => State.markLine_husks s _ _, State.putData, setBytes_husks]
  refine foldl_husks (fun s i => ?_) _ s
  dsimp only
  split
  · exact State.replaceWord_husks ..
  · rfl

@[simp] theorem refreshAll_husks (s : State) (n : Nat) : (refreshAll s n).husks = s.husks := by
  refine foldl_husks (fun s q => ?_) _ s
  rw [refresh]
  split
  · exact foldl_husks (fun s l => by rw [updateRec, writeRec, writeRec, State.putSlice_husks, State.putSlice_husks]) _ s
  · rfl

@[simp] theorem rejoin_husks (s : State) (p : Packet) : (rejoin s p).husks = s.husks := by
  rw [rejoin]
  split <;> rfl

@[simp] theorem rejoinParked_husks (s : State) (t : Nat) : (rejoinParked s t).husks = s.husks := by
  show ((s.tile t).det.parked.foldl _ (s, [])).1.husks = s.husks
  refine foldl_keeps (P := fun r : State × List Msg => r.1.husks = s.husks) _ _ (fun r m _ h => ?_) (s, []) rfl
  exact h

@[simp] theorem reissue_husks (s : State) (t : Nat) (h : Husk) (o : Outst) : (reissue s t h o).husks = s.husks := by
  rw [reissue]
  split
  · rfl
  · dsimp only
    split
    · rfl
    · rw [State.send_husks]
      split <;> rfl

@[simp] theorem reissueAll_husks (s : State) (t : Nat) (h : Husk) : (reissueAll s t h).husks = s.husks :=
  foldl_husks (fun s o => reissue_husks s t h o) _ s

/-! ### The steps -/

/-- The husk that runs again after the restore of `x`: its launches lie at the tiles' new places. -/
def Husk.backFrom (h : Husk) (x : Saved) : Husk := { h with
  st := .running, digest := none, job := none
  queues := h.queues.map fun e => (e.1, e.2.map fun l => { l with tile := moved ((x.tiles.map (·.old)).zip h.tiles) l.tile }) }

section Steps
variable {s : State} {h : Husk} (hh : s.husk s.sel = some h)
include hh

/-- Once every core has stopped the husk drains. -/
theorem exec_evictStopped_ends (hst : h.st = .stopping) (hall : (h.tiles.all fun t => (s.tile t).atStop) = true) :
    ∃ t, exec .evictStopped s = .next t ∧ t.husk s.sel = some { h with st := .draining } := by
  show ∃ t, execEvictStopped s = .next t ∧ _
  simp only [execEvictStopped, hh, hst, hall, bne_self_eq_false, Bool.false_eq_true, if_false, if_true]
  exact ⟨_, rfl, State.setHusk_husk_same ..⟩

/-- Once it has drained it is saved. -/
theorem exec_evictDrained_ends (hst : h.st = .draining) (hdr : huskDrained s s.sel h = true) :
    ∃ t, exec .evictDrained s = .next t ∧ t.husk s.sel = some { h with st := .saving } := by
  show ∃ t, execEvictDrained s = .next t ∧ _
  simp only [execEvictDrained, hh, hst, hdr, bne_self_eq_false, Bool.not_true, Bool.or_self, Bool.false_eq_true, if_false]
  refine ⟨_, rfl, ?_⟩
  rw [(tilesOnly_foldl (fun _ _ => tilesOnly_modTile ..) h.tiles s).sel, State.setHusk_husk_same]

/-- Once its record is written it is evicted. -/
theorem exec_evictSaved_ends (hst : h.st = .saving) (hjob : h.job.isSome = true) :
    ∃ t g, exec .evictSaved s = .next t ∧ t.husk s.sel = some g ∧ g.st = .evicted ∧ g.job = none := by
  obtain ⟨j, hj⟩ := Option.isSome_iff_exists.mp hjob
  show ∃ t g, execEvictSaved s = .next t ∧ _
  simp only [execEvictSaved, hh, hj, hst, bne_self_eq_false, Bool.false_eq_true, if_false]
  refine ⟨_, { h with st := .evicted, digest := some (sm3 (recordBytes (writeRecord s j.keys) j.keys)), job := none }, rfl, ?_, rfl, rfl⟩
  rw [State.send_husk, State.setHusk_husk_same]

/-- Once its record stands in its slices again it runs. -/
theorem exec_restoreComplete_ends (hst : h.st = .restoring) (hjob : h.job.isSome = true)
    (hsaved : (s.saved.any fun x => x.tenant = s.sel) = true) :
    ∃ t g, exec .restoreComplete s = .next t ∧ t.husk s.sel = some g ∧ g.st = .running := by
  obtain ⟨j, hj⟩ := Option.isSome_iff_exists.mp hjob
  obtain ⟨x, hx⟩ := Option.isSome_iff_exists.mp (List.find?_isSome.mpr (List.any_eq_true.mp hsaved))
  show ∃ t g, execRestoreComplete s = .next t ∧ _
  simp only [execRestoreComplete, hh, hx, hj, hst, bne_self_eq_false, Bool.false_eq_true, if_false]
  refine ⟨_, h.backFrom x, rfl, ?_, rfl⟩
  rw [State.send_husk, State.husk, refreshAll_husks, foldl_husks fun s t => reissueAll_husks s t _,
    foldl_husks rejoinParked_husks, foldl_husks fun s p => rejoin_husks s _]
  exact State.setHusk_husk_same ..

end Steps
end Sys2Proof.Machine
end

section
/-!
SUPPORT. The close of a pair's interval (spec/19 R358 to R360).
-/

namespace Sys2Proof.Machine

open Sys2Proof

@[simp] theorem State.choose_mem (s : State) : s.choose.2.mem = s.mem := by
  rw [State.choose]
  split <;> rfl

@[simp] theorem State.choose_egress (s : State) : s.choose.2.egress = s.egress := by
  rw [State.choose]
  split <;> rfl

@[simp] theorem State.choose_tile (s : State) (k : Nat) : s.choose.2.tile k = s.tile k := by
  rw [State.choose]
  split <;> rfl

/-- A follower that has computed the same gives its own fingerprint. -/
theorem mateFingerprint_of_same {s : State} (h : s.choose.1 % 2 = 0) (p : Pairing) : mateFingerprint s p = (s.choose.2, p.mateFp) :=
  if_pos h

/-- A new checkpoint is all that a pair which stays led by its tile gets at an agreed point. -/
theorem recheck_pairing {s : State} {t : Nat} {p : Pairing} (hp : (s.tile t).pairing = some p) (hm : p.mate ≠ t) :
    ∃ w k b n, ((recheck s t).tile t).pairing = some { p with at_ := w, check := k, checkBoost := b, base := n } := by
  rw [recheck]
  dsimp only
  split
  · next q w hq _ =>
    cases hp.symm.trans hq
    rw [State.modTile_tile_other _ hm.symm, State.setTile_tile_same]
    exact ⟨_, _, _, _, rfl⟩
  · exact ⟨p.at_, p.check, p.checkBoost, p.base, hp⟩

section Interval
variable {s : State} {t : Nat} {p : Pairing}

/-- The pair at the start of an interval. -/
def Pairing.restart (p : Pairing) (rerun : Bool) : Pairing :=
  { p with count := 0, fp := 0, mateFp := 0, log := [], buf := [], rerun := rerun, closing := false }

/-- The remote buffer of an agreed interval goes out, and its log is cleared. -/
theorem agreePair_clears (hp : (s.tile t).pairing = some p) (hm : p.mate ≠ t) :
    ∃ q, ((agreePair s t).tile t).pairing = some q ∧ q.count = 0 ∧ q.log = [] ∧ q.buf = [] ∧ q.closing = false := by
  have hnew : ((s.modTile t fun u => { u with pairing := u.pairing.map (·.restart false) }).tile t).pairing = some (p.restart false) := by
    rw [State.modTile_tile_same, hp]
    rfl
  obtain ⟨w, k, b, n, hq⟩ := recheck_pairing (s := { s.modTile t fun u => { u with pairing := u.pairing.map (·.restart false) } with
    egress := s.egress.map fun e => if e.src = t then { e with held := false } else e }) hnew hm
  exact ⟨_, hq, rfl, rfl, rfl, rfl⟩

theorem agreePair_mem (s : State) (t : Nat) : (agreePair s t).mem = s.mem := (tilesOnly_recheck _ t).mem

theorem agreePair_egress (s : State) (t : Nat) : ∀ e ∈ (agreePair s t).egress, e.src = t → e.held = false := by
  rw [show (agreePair s t).egress = s.egress.map fun e => if e.src = t then { e with held := false } else e from
    (tilesOnly_recheck _ t).egress]
  intro e he hsrc
  obtain ⟨e', _, rfl⟩ := List.mem_map.mp he
  by_cases h : e'.src = t
  · rw [if_pos h]
  · rw [if_neg h] at hsrc
    contradiction

/-- The logged words are put back in reverse order. -/
theorem rollBack_mem (s : State) (t : Nat) (p : Pairing) : (rollBack s t p).mem =
    p.log.reverse.foldl (fun m e => setBytesMem m (sliceKey t e.1) (bytesOf e.2.toNat 8)) s.mem := by
  show (p.log.reverse.foldl (fun s e => s.putSlice t e.1 (bytesOf e.2.toNat 8)) s).mem = _
  exact (List.foldl_hom State.mem fun s e => (putSlice_mem s t e.1 _).symm).symm

/-- The pair starts its interval again. -/
theorem rollBack_pairing (s : State) (t : Nat) (p : Pairing) : ((rollBack s t p).tile t).pairing =
    some (p.restart true) := by
  rw [rollBack, State.modTile_tile_same]
  rfl

/-- The stream stands at its checkpoint. -/
theorem rollBack_task (s : State) (t : Nat) {p : Pairing} {i : Nat} (h : p.at_ = .img i) :
    (((rollBack s t p).tile t).task (.img i)).pc = p.check.pc ∧ (((rollBack s t p).tile t).task (.img i)).g = p.check.g := by
  rw [rollBack, State.modTile_tile_same]
  generalize (forgetInterval _ _ _).tile t = u
  simp only [h, Tile.task, Tile.modTask, Tile.ctx, Tile.setCtx, Sparse.get_set_same, and_self]

variable (hc : (s.tile s.cur).canClose = true) (hp : ((s.modTile s.cur Tile.flush).tile s.cur).pairing = some p)
  (hs : (s.modTile s.cur Tile.flush).choose.1 % 2 = 0)
include hc hp hs

/-- The close by the fingerprints, where the follower computed what its leader did. -/
theorem exec_pairIntervalClose_same : exec .pairIntervalClose s =
    let s1 := (s.modTile s.cur Tile.flush).choose.2
    if p.fp = p.mateFp then .next (agreePair s1 s.cur)
    else if p.rerun then .next (takeTrap (endPair (rollBack s1 s.cur p) s.cur) s.cur .pairfail p.check.pc 0 false false false false)
    else .next (rollBack s1 s.cur p) := by
  show execPairIntervalClose s = _
  simp only [execPairIntervalClose, hc, hp, mateFingerprint_of_same hs, Bool.not_true, Bool.false_eq_true, if_false]

theorem pairIntervalClose_agrees (hm : p.mate ≠ s.cur) (hfp : p.fp = p.mateFp) :
    ∃ t q, exec .pairIntervalClose s = .next t ∧ t.mem = s.mem ∧ (t.tile s.cur).pairing = some q
      ∧ q.count = 0 ∧ q.log = [] ∧ q.buf = [] ∧ q.closing = false ∧ ∀ e ∈ t.egress, e.src = s.cur → e.held = false := by
  obtain ⟨q, hq, hcount, hlog, hbuf, hclosing⟩ :=
    agreePair_clears (s := (s.modTile s.cur Tile.flush).choose.2) ((congrArg Tile.pairing (State.choose_tile ..)).trans hp) hm
  refine ⟨_, q, (exec_pairIntervalClose_same hc hp hs).trans (if_pos hfp), ?_, hq, hcount, hlog, hbuf, hclosing, agreePair_egress _ _⟩
  rw [agreePair_mem, State.choose_mem, State.modTile_mem]

theorem pairIntervalClose_differs (hfp : p.fp ≠ p.mateFp) (hr : p.rerun = false) :
    ∃ t q, exec .pairIntervalClose s = .next t
      ∧ t.mem = p.log.reverse.foldl (fun m e => setBytesMem m (sliceKey s.cur e.1) (bytesOf e.2.toNat 8)) s.mem
      ∧ (t.tile s.cur).pairing = some q ∧ q.rerun = true ∧ q.log = [] ∧ q.buf = []
      ∧ ∀ i, p.at_ = .img i → ((t.tile s.cur).task (.img i)).pc = p.check.pc ∧ ((t.tile s.cur).task (.img i)).g = p.check.g := by
  refine ⟨_, _, (exec_pairIntervalClose_same hc hp hs).trans ((if_neg hfp).trans (if_neg (by rw [hr]; decide))), ?_,
    rollBack_pairing _ _ p, rfl, rfl, rfl, fun i => rollBack_task _ _⟩
  rw [rollBack_mem, State.choose_mem, State.modTile_mem]

end Interval
end Sys2Proof.Machine
end

section
/-!
SUPPORT. Completion, form by form: PAIR and its fellows after retirement, and the events of homes and messages (spec/06 R102, spec/15 R280,
spec/04 R68).
-/

namespace Sys2Proof.Machine

open Sys2Proof

section Forms
variable {s s1 : State} {w : Who} {m : Form} {f : Fields} {x : In} {i n : Nat} {h : Husk}

/-- Retirement keeps an answer that is under way. -/
theorem answer_retired {t t' : State} {ans : Answer} (ht : TilesOnly t t')
    (hq : ∃ q ∈ t.net, q.tag = x.seq ∧ q.dst = x.t ∧ q.body = .reply ans) :
    ∃ q ∈ t'.net, q.tag = x.seq ∧ q.dst = x.t ∧ q.body = .reply ans := by
  rwa [ht.net]

/-- A PAIR that may pair answers, and its core leads a pair afterwards where it did or where its neighbour was free. -/
theorem exec_pair_completes (hi : Issues s w (.pair f) m f s1 x) (himg : x.w = .img i) (hh : s1.huskOfTile x.t = some (n, h))
    (hfwd : ((s1.tile x.t).task x.w).fwd = false) (hboost : ((s1.tile x.t).ctx i).boost.active = false)
    (heven : (tileX x.t - h.col0) % 2 = 0) (hroom : tileX x.t - h.col0 + 1 < h.width) :
    ∃ t, exec (.pair f) s = .next t
      ∧ (∃ q ∈ t.net, q.tag = x.seq ∧ q.dst = x.t ∧ q.body = .reply (.data [BitVec.ofNat 64 (pairAnswer s1 x.t)] 0))
      ∧ (t.tile x.t).coupled = ((s1.tile x.t).coupled || !(s1.tile (x.t + 1)).busyForPair) := by
  have hnet := answeredLater_net x s1 (BitVec.ofNat 64 (pairAnswer s1 x.t))
  have hlead := answeredLater_coupled x s1 (BitVec.ofNat 64 (pairAnswer s1 x.t))
  refine ⟨_, exec_pair hi himg hh hfwd hboost heven hroom, ?_⟩
  by_cases hmade : pairAnswer s1 x.t = 0
  case pos =>
    have hfree : (s1.tile (x.t + 1)).busyForPair = false := by
      unfold pairAnswer at hmade
      split at hmade
      · cases hmade
      · split at hmade
        · cases hmade
        · next hb => exact Bool.not_eq_true _ ▸ hb
    simp only [if_pos hmade]
    refine ⟨answer_retired ((tilesOnly_countRetired ..).trans ((tilesOnly_makePair ..).trans (tilesOnly_advance ..))) hnet, ?_⟩
    rw [advance_coupled, makePair_coupled, hfree, Bool.not_false, Bool.or_true]
  case neg =>
    have hkept : ((s1.tile x.t).coupled || !(s1.tile (x.t + 1)).busyForPair) = (s1.tile x.t).coupled := by
      unfold pairAnswer at hmade
      split at hmade
      · next hl => rw [Tile.coupled, hl, Bool.true_or]
      · split at hmade
        · next hb => rw [hb, Bool.not_true, Bool.or_false]
        · exact absurd rfl hmade
    simp only [if_neg hmade]
    refine ⟨answer_retired (tilesOnly_retire ..) hnet, ?_⟩
    rw [retired, retire_coupled, hlead, hkept]

/-- DIGEST.clr clears the marks of the husk's lines, and no byte. -/
theorem exec_digestClr_completes (hi : Issues s w (.digestClr f) m f s1 x) (howes : (s1.tile x.t).owes x.w true true = false)
    (hh : s1.huskOfTile x.t = some (n, h)) :
    ∃ t, exec (.digestClr f) s = .next t ∧ t.mem = s1.mem ∧ ∀ e ∈ t.marked, e.1 / 2 ^ 15 ∉ h.tiles := by
  refine ⟨_, exec_digestClr h s w m f s1 x hi ⟨howes, n, hh⟩, (tilesOnly_retire ..).mem, ?_⟩
  rw [retired, (tilesOnly_retire ..).marked]
  intro e he hin
  have hout : h.tiles.contains (e.1 / 2 ^ 15) = false := (Bool.not_eq_true' _).mp (List.mem_filter.mp he).2
  exact Bool.false_ne_true (hout.symm.trans (List.contains_iff_mem.mpr hin))

end Forms

/-- A message outside a DET window is deposited at its core, and answered. -/
theorem exec_messageArrival_deposits {s s2 : State} {p : Packet} {m : Msg} {ans : Answer} (ha : arrived s s.sel = some p)
    (hb : p.body = .message m) (hf : (s.tile p.dst).follows = none) (hdet : (m.det && (s.cohortOf p.dst).any (·.det)) = false)
    (hdep : deposit (occupy (s.drop s.sel) p.dst m.units) p.dst m = some (s2, ans)) :
    exec .messageArrival s = .next (s2.send (mkPacket p.dst p.src p.tag none (.reply ans))) := by
  show execMessageArrival s = _
  simp only [execMessageArrival, ha, hb, hf, hdet, hdep, Option.isSome_none, Bool.false_eq_true, if_false]

/-- Settles O60: the forms by their issue, the events by what arrives, the eviction step by step, the close by its fingerprints. -/
theorem fencesPairsDigestsEvictionsAndEventsComplete : Obligations.FencesPairsDigestsEvictionsAndEventsComplete := by
  unfold Obligations.FencesPairsDigestsEvictionsAndEventsComplete
  refine ⟨fun s w m f s1 x => ⟨?fence, ?fenceAck, ?pair, ?unpair, ?digestClr⟩, ?access, fun s p ha => ⟨?message, ?flag⟩,
    fun s h hh => ⟨exec_evictStopped_ends hh, exec_evictDrained_ends hh, exec_evictSaved_ends hh, exec_restoreComplete_ends hh⟩,
    ?close⟩
  case fence =>
    intro hi howes
    obtain ⟨_, _, rfl⟩ := hi.operands
    exact fence_completes s w m x.f s1 x hi howes
  case fenceAck => exact fun hi howes => fenceAck_completes s w m f s1 x hi howes
  case pair =>
    intro i n h hi himg hh hfwd hboost heven hroom busy
    obtain ⟨t, ht, ⟨q, hq, htag, hdst, hbody⟩, hlead⟩ := exec_pair_completes hi himg hh hfwd hboost heven hroom
    refine ⟨t, ht, q, hq, htag, hdst, hbody.trans ?_, hlead⟩
    simp only [pairAnswer, apply_ite (BitVec.ofNat 64)]
    rfl
  case unpair => exact fun hi => exec_unpair s w m f s1 x hi trivial
  case digestClr => exact fun n h => exec_digestClr_completes
  case access =>
    intro s p off op user boost ha hown hb r hfull heccu hparked
    obtain ⟨_, _, _, hgo⟩ := (accessesArePerformedAtTheirHome.1 s p off op user boost (id_of_arrived ha) ha hb).1 hown
    have hdone := hgo hfull heccu hparked
    refine ⟨?_, ?_, ?_, ?_, ?_⟩
    · rintro ⟨a, n, v, c, rfl⟩
      exact hdone
    · rintro (⟨n, rfl⟩ | ⟨n, rfl⟩ | ⟨n, v, rfl⟩ | ⟨n, v, rfl⟩ | rfl | rfl) <;> exact hdone
    · rintro ⟨l, a, rfl⟩
      exact hdone
    · rintro ⟨k, a, n, rfl⟩
      exact hdone
    · rintro rfl
      exact hdone
  case message => exact fun m s2 ans hb hf hdet hdep => exec_messageArrival_deposits ha hb hf hdet hdep
  case flag =>
    intro off n v counts user boost hb hown hgood hr
    exact exec_ofStoreArrival_applied ha hb (.inl (outsideState_of_own hown)) (.inr hgood) hr
  case close =>
    intro s p hc s1 hp hm hs
    exact ⟨pairIntervalClose_agrees hc hp hs hm, pairIntervalClose_differs hc hp hs⟩

end Sys2Proof.Machine
end

section
/-!
SUPPORT. Copy requests and far requests as they leave their core (spec/07 R133, R137).
-/

namespace Sys2Proof.Machine

open Sys2Proof

/-- A condition that holds lets what follows it go on. -/
theorem need_passes {α : Type} {b : Bool} (h : b = true) (c : Cause) (a : Word) (next : Unit → Except Stop α) :
    (need b c a >>= next) = next () := by
  rw [need_eq, if_pos h, ok_bind]

/-- A task that owes no acknowledgement passes its release wait. -/
theorem ackHold_passes {α : Type} {x : In} {s : State} {sys parked : Bool} (h : (s.tile x.t).owes x.w sys parked = false)
    (next : Unit → Except Stop α) : (ackHold s x sys parked >>= next) = next () := by
  rw [ackHold, h]
  rfl

/-- A store to an aperture sends its channel the template that its data word names, in the task's own slice. -/
theorem apertureStore_sends {x : In} {s : State} {a v : Word} {wide : Bool} {ch n : Nat} {h : Husk} {tm : Template}
    (hg : checkAddr s x.t (.store wide) a true = .ok (.aperture ch)) (howes : (s.tile x.t).owes x.w true false = false)
    (hh : s.huskOf x.t = some (n, h)) (hhigh : field v 63 44 = 0) (hmid : field v 35 15 = 0)
    (hctx : (((s.tile x.t).task x.w).sup || !(s.tile x.t).inCtx (64 * field v 14 0) 64) = true)
    (hecc : s.consumesBad x.t (64 * field v 14 0) 64 = false)
    (htm : readTemplate (s.correct x.t (64 * field v 14 0) 8) h (sliceKey x.t (64 * field v 14 0)) n x.t (field v 43 36) a = .ok tm) :
    apertureStore x s a wide v = .ok ((addOut (s.correct x.t (64 * field v 14 0) 8) x
        { tag := 0, who := x.w, kind := .store, addr := a, slow := true }).send
      (mkPacket x.t (chDst ch) x.seq none (.aperture ch tm)), .next) := by
  have hreserved : (field v 63 44 == 0 && field v 35 15 == 0) = true := by rw [hhigh, hmid]; rfl
  simp only [apertureStore, hg, ok_bind, ackHold_passes howes, hh, need_passes hreserved, need_passes hctx, hecc, htm,
    Bool.false_eq_true, if_false]

/-- Settles O23: the store's checks pass one after the other, and FARREQ's two. -/
theorem copyAndFarRequestsGoOut : Obligations.CopyAndFarRequestsGoOut := by
  unfold Obligations.CopyAndFarRequestsGoOut
  refine ⟨fun ch n h tm => ?store, fun va => ?farreq⟩
  case store =>
    refine gives_of (fun _ => formSt 0) _ (fun _ => rfl) (fun _ => rfl) (fun _ _ => rfl) fun x s hc => ?_
    obtain ⟨hr, ht, howes, hh, hg, hhigh, hmid, hctx, hecc, htm⟩ := hc
    have hap : (regionOf x.addr == 0x03 && decide (x.t < numTiles)) = true := by rw [hr, decide_eq_true ht]; rfl
    exact (if_pos hap).trans (apertureStore_sends hg howes hh hhigh hmid hctx hecc htm)
  case farreq =>
    refine gives_of (fun _ => formFarreq) _ (fun _ => rfl) (fun _ => rfl) (fun _ _ => rfl) fun x s hc => ?_
    obtain ⟨hg, howes⟩ := hc
    rw [hg, ok_bind]
    exact ackHold_passes howes _

end Sys2Proof.Machine
end

section
/-!
SUPPORT. Copies at their channel: requests, movements of words, group descriptors and the end (spec/07 R137 to R142).
-/

namespace Sys2Proof.Machine

open Sys2Proof

@[simp] theorem State.choose_sel (s : State) : s.choose.2.sel = s.sel := by
  rw [State.choose]
  split <;> rfl

@[simp] theorem State.setChan_chan_same (s : State) (ch : Nat) (c : Channel) : (s.setChan ch c).chan ch = c := Sparse.get_set_same _ _ _ _

@[simp] theorem State.setChan_tile (s : State) (ch : Nat) (c : Channel) (k : Nat) : (s.setChan ch c).tile k = s.tile k := rfl

section Requests
variable {s : State} {p : Packet} {ch : Nat} {t : Template} (hp : s.packet s.sel = some p) (hb : p.body = .aperture ch t)
  (hr : p.refused = false)
include hp hb hr

/-- A channel whose shadow place is taken refuses a request with a hint. -/
theorem exec_apertureRequestArrival_full (h : (s.chan ch).shadow.isSome = true) :
    exec .apertureRequestArrival s = .next (s.choose.2.refuse s.sel (s.choose.1 % 11)) := by
  show execApertureRequestArrival s = _
  cases p
  cases hb
  cases hr
  simp only [execApertureRequestArrival, hp, h, if_true, State.choose_sel]

/-- One whose shadow place is empty takes it, in its active place where that is empty too. -/
theorem exec_apertureRequestArrival_taken (h : (s.chan ch).shadow = none) :
    exec .apertureRequestArrival s = .next (((s.drop s.sel).setChan ch
      (if (s.chan ch).active.isNone then { s.chan ch with active := some t } else { s.chan ch with shadow := some t })).send
      (mkPacket (chDst ch) p.src p.tag none (.reply .done))) := by
  show execApertureRequestArrival s = _
  cases p
  cases hb
  cases hr
  simp only [execApertureRequestArrival, hp, h, Option.isSome_none, Bool.false_eq_true, if_false]

end Requests

section Words
variable {s s1 : State} {ch j h : Nat} {t : Template} {v : Word}

theorem exec_copyWord_home (hmove : copyMove s ch j false = some s1) : exec (.remoteAccessArrival (.copy ch j)) s = .next s1 := by
  show execRemoteAccessArrival (.copy ch j) s = _
  simp only [execRemoteAccessArrival, hmove]

theorem exec_copyWord_far (hmove : copyMove s ch j true = some s1) : exec (.farStoreArrival (.copy ch j)) s = .next s1 := by
  show execFarStoreArrival (.copy ch j) s = _
  simp only [execFarStoreArrival, hmove]

/-- Word j of a copy without a fault waits for its next movement: it is neither written nor under way. -/
def Channel.moves (x : Channel) (t : Template) (j : Nat) : Prop :=
  (x.fault.isSome || t.words ≤ j || x.done.contains j || x.sentIn.contains j) = false

theorem Channel.moves_of {x : Channel} (hfault : x.fault = none) (hj : j < t.words) (hdone : x.done.contains j = false)
    (hsent : x.sentIn.contains j = false) : x.moves t j := by
  rw [Channel.moves, hfault, decide_eq_false (Nat.not_le.mpr hj), hdone, hsent]
  rfl

variable (hact : (s.chan ch).active = some t) (hmoves : (s.chan ch).moves t j)
include hact hmoves

/-- A word that has not been read is read from its source's slice. -/
theorem copyMove_reads {age : BitVec 32} (hread : (s.chan ch).read.find? (fun e => e.1 = j) = none) (hreg : regionOf (t.srcOf j) = 0x00)
    (htile : tileOf s t.tenant (t.srcOf j) = some h)
    (hperf : performAt s h (field (t.srcOf j) 20 0) (.load 8) (.channel ch j) true false none = (s1, .data [v] age)) :
    copyMove s ch j false = some (chanRead s1 ch j v) := by
  rw [Channel.moves] at hmoves
  simp only [copyMove, hact, hmoves, hread, hreg, htile, hperf, Bool.false_eq_true, if_false, List.headD_cons]

variable (hread : (s.chan ch).read.find? (fun e => e.1 = j) = some (j, v)) (hside : (t.side && (s.chan ch).desc ≤ t.row j) = false)
include hread hside

/-- A word that has been read is written to its destination's slice. -/
theorem copyMove_writes (hreg : regionOf (t.dstOf j) = 0x00) (htile : tileOf s t.tenant (t.dstOf j) = some h)
    (hperf : performAt s h (field (t.dstOf j) 20 0) (.engine [v]) (.channel ch j) true false none = (s1, .done)) :
    copyMove s ch j false = some (chanDone s1 ch j) := by
  rw [Channel.moves] at hmoves
  simp only [copyMove, hact, hmoves, hread, hside, hreg, htile, hperf, Bool.false_eq_true, if_false]

/-- Or to a page of far memory that its tenant may write. -/
theorem copyMove_writesFar {l : Leaf} (hreg : regionOf (t.dstOf j) = 0x10)
    (htrans : translate s t.tenant (field (t.dstOf j) 47 0) = (s1, some l)) (hwr : l.wr = true) :
    copyMove s ch j true = some (chanDone (s1.putFar (l.key + (t.dstOf j).toNat % 4096) (bytesOf v.toNat 8)) ch j) := by
  rw [Channel.moves] at hmoves
  simp only [copyMove, hact, hmoves, hread, hside, hreg, htrans, hwr, Bool.not_true, Bool.false_eq_true, if_false, if_true]

end Words

section Ends
variable {s : State} {ch : Nat} {t : Template}

/-- The end of a copy makes the shadow template active and decrements the requester's counter. -/
theorem endCopy_active (hact : (s.chan ch).active = some t) (note : Option (Cause × Word)) : endCopy s ch note =
    (s.setChan ch { active := (s.chan ch).shadow, no := (s.chan ch).no + 1 }).send
      (mkPacket (chDst ch) t.agent 0 none (.wkdec t.wk 0 note false)) := by
  simp only [endCopy, hact]

variable (hact : (s.chan s.sel).active = some t)
include hact

theorem exec_copyCompletion (hfault : (s.chan s.sel).fault = none) (hdone : (s.chan s.sel).done.length = t.words) :
    exec .copyCompletion s = .next (endCopy s s.sel none) := by
  show execCopyCompletion s = _
  simp only [execCopyCompletion, hact, hfault, hdone, Option.isNone_none, decide_true, Bool.and_self, if_true]

theorem exec_copyFault {x : Cause × Word} (hfault : (s.chan s.sel).fault = some x) (hsent : (s.chan s.sel).sentIn = []) :
    exec .copyFault s = .next (endCopy s s.sel (some x)) := by
  show execCopyFault s = _
  simp only [execCopyFault, hact, hfault, hsent, List.isEmpty_nil, if_true]

end Ends

section Descriptors
variable {s s1 : State} {t : Template} {h to_ : Nat} {a v : Word} {age : BitVec 32} (hact : (s.chan s.sel).active = some t)
  (hside : t.side = true) (hfault : (s.chan s.sel).fault = none) (hdesc : (s.chan s.sel).desc < t.rows)
  (ha : a = t.scale + BitVec.ofNat 64 (4 * (s.chan s.sel).desc)) (hreg : regionOf a = 0x00) (htile : tileOf s t.tenant a = some h)
  (hperf : performAt s h (field a 20 0) (.load 4) (.channel s.sel 0) true false none = (s1, .data [v] age))
include hact hside hfault hdesc ha hreg htile hperf

/-- A descriptor out of sequence is a fault of its copy, with the descriptor's own address. -/
theorem exec_scaleDescriptorDelivery_outOfSequence (hseq : field (v.setWidth 32) 31 28 ≠ (t.seq0 + (s.chan s.sel).desc) % 16) :
    exec .scaleDescriptorDelivery s = .next (chanFault s1 s.sel .scaleseq a) := by
  subst ha
  show execScaleDescriptorDelivery s = _
  simp only [execScaleDescriptorDelivery, hact, hside, hfault, Nat.not_le.mpr hdesc, hreg, htile, hperf, List.headD_cons,
    bne_iff_ne.mpr hseq, Bool.not_true, Option.isSome_none, decide_false, Bool.or_self, Bool.false_eq_true, beq_self_eq_true,
    if_true, if_false]

/-- One in sequence joins the scale queue of the tile that gets its row. -/
theorem exec_scaleDescriptorDelivery_inSequence (hto : tileOf s t.tenant (rowAddr t.dst t.dstr (s.chan s.sel).desc) = some to_)
    (hseq : field (v.setWidth 32) 31 28 = (t.seq0 + (s.chan s.sel).desc) % 16) (hroom : (s1.tile to_).matrix.sq.length < 16) :
    exec .scaleDescriptorDelivery s = .next ((s1.modTile to_ fun u =>
      { u with matrix := { u.matrix with sq := u.matrix.sq ++ [v.setWidth 32] } }).setChan s.sel
        { s1.chan s.sel with desc := (s.chan s.sel).desc + 1 }) := by
  subst ha
  show execScaleDescriptorDelivery s = _
  simp only [execScaleDescriptorDelivery, hact, hside, hfault, Nat.not_le.mpr hdesc, hreg, htile, hperf, hto, List.headD_cons,
    hseq, bne_self_eq_false, Nat.not_le.mpr hroom, Bool.not_true, Option.isSome_none, decide_false, Bool.or_self, Bool.false_eq_true,
    beq_self_eq_true, if_true, if_false]

end Descriptors

end Sys2Proof.Machine
end

section
/-!
SUPPORT. Far requests at their memory core, and the request programs (spec/07 R133, R134).
-/

namespace Sys2Proof.Machine

open Sys2Proof

/-- The state with another binding at a memory-core context. -/
def State.setMc (s : State) (a : Nat) (m : McCtx) : State := { s with mcs := Sparse.set none s.mcs a (some m) }

@[simp] theorem State.setMc_mc_same (s : State) (a : Nat) (m : McCtx) : (s.setMc a m).mc a = some m :=
  Sparse.get_set_same none s.mcs a (some m)

@[simp] theorem State.modTile_mc (s : State) (t : Nat) (g : Tile → Tile) (a : Nat) : (s.modTile t g).mc a = s.mc a := rfl
@[simp] theorem State.send_mc (s : State) (p : Packet) (a : Nat) : (s.send p).mc a = s.mc a := rfl

section FarRequests
variable {s : State} {p : Packet} {r : FarReq} {n a : Nat} {m : McCtx} (hp : s.packet s.sel = some p) (hb : p.body = .farreq r)
  (hr : p.refused = false) (hn : s.tenantOf r.agent = some n)
include hp hb hr hn

/-- A request whose tenant has no context at its memory core faults. -/
theorem exec_farreqArrival_noContext (ha : s.mcFor (mcOf p.dst) n = none) :
    exec .farreqArrival s = .next ((s.drop s.sel).send (mkPacket p.dst p.src p.tag none (.reply (.fault .farpage)))) := by
  show execFarreqArrival s = _
  cases p
  cases hb
  cases hr
  simp only [execFarreqArrival, hp, hn, ha]

variable (ha : s.mcFor (mcOf p.dst) n = some a) (hm : s.mc a = some m)
include ha hm

/-- A context where 32 wait refuses it with a hint. -/
theorem exec_farreqArrival_full (hfull : 32 ≤ m.queue.length) :
    exec .farreqArrival s = .next (s.choose.2.refuse s.sel (s.choose.1 % 11)) := by
  show execFarreqArrival s = _
  cases p
  cases hb
  cases hr
  simp only [execFarreqArrival, hp, hn, ha, hm, hfull, if_true, State.choose_sel]

variable (hroom : m.queue.length < 32)
include hroom

/-- One without the loader entry that it names faults. -/
theorem exec_farreqArrival_noEntry (hentry : Sparse.get none m.loader r.entry = none) :
    exec .farreqArrival s = .next ((s.drop s.sel).send (mkPacket p.dst p.src p.tag none (.reply (.fault .window)))) := by
  show execFarreqArrival s = _
  cases p
  cases hb
  cases hr
  simp only [execFarreqArrival, hp, hn, ha, hm, Nat.not_le.mpr hroom, hentry, Option.isNone_none, if_true, if_false]

/-- Any other is queued and answered. -/
theorem exec_farreqArrival_queued (hentry : (Sparse.get none m.loader r.entry).isSome = true) :
    exec .farreqArrival s = .next (((s.setMc a { m with queue := m.queue ++ [r] }).drop s.sel).send
      (mkPacket p.dst p.src p.tag none (.reply .done))) := by
  have hsome : (Sparse.get none m.loader r.entry).isNone = false := by rw [← Option.not_isSome, hentry]; rfl
  show execFarreqArrival s = _
  cases p
  cases hb
  cases hr
  simp only [execFarreqArrival, hp, hn, ha, hm, Nat.not_le.mpr hroom, hsome, Bool.false_eq_true, if_false, State.setMc]

end FarRequests

/-- The registers that a request program finds. -/
theorem requestTask_regs (s : State) (entry : Nat) (r : FarReq) :
    let k := requestTask s entry r
    k.getG 1 = r.va ∧ k.getG 2 = r.param ∧ k.getG 3 = BitVec.ofNat 64 (s.cidOf r.agent) ∧ k.getG 4 = BitVec.ofNat 64 r.wk := by
  simp [requestTask, Task.getG, Task.setG, Sparse.get_set]

/-- A context's tile as its program starts on these registers. -/
def Tile.startProgram (u : Tile) (k : Task) : Tile :=
  { u.setCtx 0 { task := k, st := .running } with
    cur0 := some 0, line := none, atLine := true, checkTo := false, pairNext := false, out := [], pend := [] }

@[simp] theorem Tile.startProgram_task (u : Tile) (k : Task) : (u.startProgram k).task (.img 0) = k :=
  congrArg Ctx.task (Tile.setCtx_ctx_same u 0 { task := k, st := .running })

/-- Its stream is the program's, unless the context runs at level 1 or in a trap handler. -/
theorem Tile.startProgram_active (u : Tile) (k : Task) : (u.startProgram k).active =
    if u.hnd.isSome then some .hnd else if u.l1.isSome then some .lvl1 else some (.img 0) := rfl

section Programs
variable {s : State} {m : McCtx} {r : FarReq} {q : List FarReq} (hm : s.mc s.cur = some m)
include hm

/-- The oldest request of an idle context starts its program. -/
theorem exec_requestProgramStart (hrun : m.run = none) (hq : m.queue = r :: q) :
    exec .requestProgramStart s = .next ((s.setMc s.cur { m with run := some r, queue := q }).modTile s.cur
      (·.startProgram (requestTask s ((Sparse.get none m.loader r.entry).getD 0) r))) := by
  show execRequestProgramStart s = _
  cases m
  cases hrun
  cases hq
  simp only [execRequestProgramStart, hm]
  rfl

/-- A program that has ended gives its context back and decrements the requester's counter. -/
theorem exec_requestProgramEnd (hrun : m.run = some r) (hcur : (s.tile s.cur).cur0 = none) (hst : ((s.tile s.cur).ctx 0).st = .ready) :
    exec .requestProgramEnd s = .next (((s.setMc s.cur { m with run := none }).modTile s.cur fun u =>
       ({ seq := u.seq, cyc := u.cyc, stale := u.stale } : Tile)).send (mkPacket s.cur r.agent 0 none (.wkdec r.wk 0
        (((s.tile s.cur).ctx 0).task.late.head?.map fun l => (l.cause, l.addr)) false))) := by
  show execRequestProgramEnd s = _
  simp only [execRequestProgramEnd, hm, hrun, hcur, hst, Option.isSome_none, bne_self_eq_false, Bool.or_self, Bool.false_eq_true, if_false,
    State.setMc]

end Programs

/-- Settles O43: a channel takes, moves, delivers and ends; a memory core queues, starts and ends. -/
theorem copiesAndFarRequestsRun : Obligations.CopiesAndFarRequestsRun := by
  unfold Obligations.CopiesAndFarRequestsRun
  refine ⟨⟨fun s p ch t hp hb hr => ?request, fun s s1 ch j => ⟨exec_copyWord_home, exec_copyWord_far⟩,
    fun s ch j h t hact hfault hj hdone hsent => ?words, fun s t hact => ?ends,
    fun s s1 t h to_ v age hact hside hfault hdesc => ?descriptors⟩,
    fun s p r n hp hb hr hn => ?farRequest, fun s m r q hm hrun hq => ?starts, fun s m r hm hrun hcur hst => ?programEnds⟩
  case request => exact ⟨exec_apertureRequestArrival_full hp hb hr, exec_apertureRequestArrival_taken hp hb hr⟩
  case words =>
    have hmoves := Channel.moves_of hfault hj hdone hsent
    refine ⟨fun hread hreg htile s1 v age => copyMove_reads hact hmoves hread hreg htile, fun v hread hside => ⟨?slice, ?far⟩⟩
    case slice => exact fun hreg htile s1 => copyMove_writes hact hmoves hread hside hreg htile
    case far => exact fun hreg s1 l => copyMove_writesFar hact hmoves hread hside hreg
  case ends =>
    refine ⟨fun hfault hdone => ?completed, fun x hfault hsent => ?faulted⟩
    case completed => rw [exec_copyCompletion hact hfault hdone, endCopy_active hact]
    case faulted => rw [exec_copyFault hact hfault hsent, endCopy_active hact]
  case descriptors =>
    intro a hreg htile hto hperf
    refine ⟨exec_scaleDescriptorDelivery_outOfSequence hact hside hfault hdesc rfl hreg htile hperf, fun hseq hroom => ⟨_,
      exec_scaleDescriptorDelivery_inSequence hact hside hfault hdesc rfl hreg htile hperf hto hseq hroom, ?queue, ?next⟩⟩
    case queue => rw [State.setChan_tile, State.modTile_tile_same]
    case next => rw [State.setChan_chan_same]
  case farRequest =>
    exact ⟨exec_farreqArrival_noContext hp hb hr hn, fun a m ha hm => ⟨exec_farreqArrival_full hp hb hr hn ha hm, fun hroom =>
      ⟨exec_farreqArrival_noEntry hp hb hr hn ha hm hroom, exec_farreqArrival_queued hp hb hr hn ha hm hroom⟩⟩⟩
  case starts =>
    refine ⟨_, exec_requestProgramStart hm hrun hq, ?_⟩
    rw [State.modTile_mc, State.setMc_mc_same, State.modTile_tile_same, Tile.startProgram_task]
    exact ⟨rfl, Tile.startProgram_active .., rfl, requestTask_regs ..⟩
  case programEnds =>
    refine ⟨_, exec_requestProgramEnd hm hrun hcur hst, ?_, _, rfl, rfl, rfl⟩
    rw [State.send_mc, State.modTile_mc, State.setMc_mc_same]

end Sys2Proof.Machine
end

section
/-!
SUPPORT. START, spawned pods and continuations at their core (spec/09 R144, R156, R399, spec/15 R282, R283).
-/

namespace Sys2Proof.Machine

open Sys2Proof

/-- The initial task that START of a cohort gives one of its tiles. -/
def initialTask (s : State) (h : Husk) (c : Cohort) (t : Nat) : Task :=
  { pc := c.entry, tstat := c.tstat ||| (if supOf s t then BitVec.ofNat 64 (2 ^ 47) else 0), gid := BitVec.ofNat 32 c.gid
    lid := initialLid h c t, g := (({} : Task).setG 1 c.arg).g }

theorem initialTask_arg (s : State) (h : Husk) (c : Cohort) (t : Nat) : (initialTask s h c t).getG 1 = c.arg :=
  Sparse.get_set_same 0 [] 1 c.arg

@[simp] theorem Tile.dropBuffered_freeImage (u : Tile) : u.dropBuffered.freeImage = u.freeImage := rfl

/-- A core takes an initial task into a free image, or keeps it at the head of its ready list. -/
def Tile.takeInitial (u : Tile) (k : Task) : Tile :=
  match u.freeImage with
  | some i => { u.setCtx i { task := k, st := .ready, check := true } with ready := u.ready ++ [Ready.bound i] }
  | none => { u with ready := Ready.free { task := k, checked := true, initial := true } :: u.ready }

theorem Tile.takeInitial_of_image {u : Tile} {i : Nat} (h : u.freeImage = some i) (k : Task) : u.takeInitial k =
    { u.setCtx i { task := k, st := .ready, check := true } with ready := u.ready ++ [Ready.bound i] } := by
  rw [takeInitial, h]

theorem Tile.takeInitial_of_none {u : Tile} (h : u.freeImage = none) (k : Task) : u.takeInitial k =
    { u with ready := Ready.free { task := k, checked := true, initial := true } :: u.ready } := by
  rw [takeInitial, h]

/-- Cohort `id` counts the task of tile `t` as running. -/
def State.countStarted (s : State) (id t : Nat) : State :=
  { s with cohorts := s.cohorts.map fun (d : Cohort) =>
      if d.id = id then { d with toStart := d.toStart.filter (· != t), running := d.running ++ [t] } else d }

@[simp] theorem State.countStarted_tile (s : State) (id t k : Nat) : (s.countStarted id t).tile k = s.tile k := rfl

/-- The answer to a packet, sent back to its core. -/
def State.replied (s : State) (p : Packet) (a : Answer) : State := s.send (mkPacket p.dst p.src p.tag none (.reply a))

/-- The state in which a spawned pod has been taken in: from another core it has come as START (spec/08 R144, log 85). -/
def State.tookSpawn (s : State) (p : Packet) : State :=
  if p.src = p.dst then s.drop s.sel else (s.drop s.sel).modTile p.dst Tile.dropBuffered

section Pods
variable {s : State} {p : Packet} {pod : Pod} {n : Nat} (ha : arrived s s.sel = some p)
include ha

/-- START of a cohort that is placed, at a core that follows none. -/
theorem exec_startArrival {id : Nat} {c : Cohort} {h : Husk} (hb : p.body = .start id) (hf : (s.tile p.dst).follows = none)
    (hc : s.cohorts.find? (fun c => c.id = id) = some c) (hh : s.husk c.tenant = some h) :
    exec .startArrival s = .next ((((s.drop s.sel).modTile p.dst Tile.dropBuffered).countStarted id p.dst).modTile p.dst
      (·.takeInitial (initialTask s h c p.dst))) := by
  have hc' : ((s.drop s.sel).modTile p.dst Tile.dropBuffered).cohorts.find? (fun c => c.id = id) = some c := hc
  have hh' : ((s.drop s.sel).modTile p.dst Tile.dropBuffered).husk c.tenant = some h := hh
  show execStartArrival s = _
  simp only [execStartArrival, ha, hb, hf, hc', hh', Option.isSome_none, Bool.false_eq_true, if_false]
  rfl

section Spawned

/-- A follower, and a core without a pod record to spare, refuse a spawned pod. -/
theorem exec_spawnPodArrival_refused {wk : Option Nat} (hb : p.body = .spawn pod wk)
    (hfull : ((s.tile p.dst).follows.isSome || decide (64 ≤ (s.tile p.dst).poolUsed)) = true) :
    exec .spawnPodArrival s = .next (s.refuse s.sel 0) := by
  show execSpawnPodArrival s = _
  simp only [execSpawnPodArrival, ha, hb, hfull, if_true]

variable (hroom : ((s.tile p.dst).follows.isSome || decide (64 ≤ (s.tile p.dst).poolUsed)) = false)
include hroom

/-- One for no counter joins the tail of the ready list. -/
theorem exec_spawnPodArrival_ready (hb : p.body = .spawn pod none) : exec .spawnPodArrival s =
    .next (((s.tookSpawn p).modTile p.dst fun u =>
      { u with ready := u.ready ++ [.free { pod with started := p.src != p.dst }] }).replied p .done) := by
  show execSpawnPodArrival s = _
  simp only [execSpawnPodArrival, ha, hb, hroom, Bool.false_eq_true, if_false]
  rfl

/-- One for a counter that has a pod faults. -/
theorem exec_spawnPodArrival_occupied (hb : p.body = .spawn pod (some n)) (hpod : ((s.tile p.dst).wakeOf n).pod ≠ .none) :
    exec .spawnPodArrival s = .next ((s.tookSpawn p).replied p (.fault .illeg)) := by
  show execSpawnPodArrival s = _
  simp only [execSpawnPodArrival, ha, hb, hroom, bne_iff_ne.mpr hpod, Bool.false_eq_true, if_true, if_false]
  rfl

/-- One for a counter without a pod is attached there. -/
theorem exec_spawnPodArrival_attached (hb : p.body = .spawn pod (some n)) (hpod : ((s.tile p.dst).wakeOf n).pod = .none) :
    exec .spawnPodArrival s = .next
      (((s.tookSpawn p).modTile p.dst fun u => attach u n (.free { pod with started := p.src != p.dst })).replied p .done) := by
  show execSpawnPodArrival s = _
  simp only [execSpawnPodArrival, ha, hb, hroom, hpod, bne_self_eq_false, Bool.false_eq_true, if_false]
  rfl

end Spawned

section Parked
variable (hb : p.body = .park pod n)
include hb

/-- A continuation for a counter that has a pod faults. -/
theorem exec_parkContinuationArrival_occupied (hpod : ((s.tile p.dst).wakeOf n).pod ≠ .none) :
    exec .parkContinuationArrival s = .next ((s.drop s.sel).replied p (.fault .illeg)) := by
  show execParkContinuationArrival s = _
  simp only [execParkContinuationArrival, ha, hb, bne_iff_ne.mpr hpod, if_true]
  rfl

variable (hpod : ((s.tile p.dst).wakeOf n).pod = .none)
include hpod

/-- A full pool refuses it. -/
theorem exec_parkContinuationArrival_refused (hfull : 64 ≤ (s.tile p.dst).poolUsed) :
    exec .parkContinuationArrival s = .next (s.refuse s.sel 0) := by
  show execParkContinuationArrival s = _
  simp only [execParkContinuationArrival, ha, hb, hpod, hfull, bne_self_eq_false, Bool.false_eq_true, if_true, if_false]

/-- Any other is attached to its counter. -/
theorem exec_parkContinuationArrival_attached (hroom : (s.tile p.dst).poolUsed < 64) : exec .parkContinuationArrival s =
    .next (((s.drop s.sel).modTile p.dst fun u => attach u n (.free pod)).replied p .done) := by
  show execParkContinuationArrival s = _
  simp only [execParkContinuationArrival, ha, hb, hpod, Nat.not_le.mpr hroom, bne_self_eq_false, Bool.false_eq_true, if_false]
  rfl

end Parked
end Pods

end Sys2Proof.Machine
end

section
/-!
SUPPORT. Decrements of wake counters (spec/15 R277).
-/

namespace Sys2Proof.Machine

open Sys2Proof

/-- A decrement is made as it arrives, and answered where an answer is wanted. -/
theorem exec_wakeCounterDecrement {s : State} {p : Packet} {n : Nat} {v : Word} {note : Option (Cause × Word)} {ans : Bool}
    (ha : arrived s s.sel = some p) (hb : p.body = .wkdec n v note ans) :
    exec .wakeCounterDecrement s =
      let s1 := (s.drop s.sel).modTile p.dst fun u => decrement u n v note
      .next (if ans then s1.replied p .done else s1) := by
  show execWakeCounterDecrement s = _
  simp only [execWakeCounterDecrement, ha, hb]
  rfl

@[simp] theorem Tile.setWake_wakeOf_same (u : Tile) (n : Nat) (x : Wake) : (u.setWake n x).wakeOf n = x := Sparse.get_set_same _ _ _ _

section Counters
variable {u : Tile} {n : Nat}

/-- A counter above zero readies nothing. -/
theorem readyWake_of_count (h : (u.wakeOf n).count ≠ 0) : readyWake u n = u := if_pos h

/-- One at zero readies its free pod with WORD in `ret`. -/
theorem readyWake_of_free {pod : Pod} (h : (u.wakeOf n).count = 0) (hpod : (u.wakeOf n).pod = .free pod) : readyWake u n =
    { u.setWake n { u.wakeOf n with pod := .none, notes := [] } with ready := u.ready ++
      [.free { pod with task := { pod.task with ret := (u.wakeOf n).word, late := noteLates (u.wakeOf n).notes } }] } := by
  simp only [readyWake, h, hpod, ne_eq, not_true_eq_false, if_false]

/-- Readying a pod takes the pod and the notes of the counter, and leaves COUNT and WORD. -/
theorem readyWake_keeps (u : Tile) (n : Nat) :
    ∃ pod notes, (readyWake u n).wakeOf n = { u.wakeOf n with pod := pod, notes := notes } := by
  rw [readyWake]
  dsimp only
  split
  · exact ⟨_, _, rfl⟩
  · split
    · exact ⟨_, _, rfl⟩
    · exact ⟨_, _, Sparse.get_set_same ..⟩
    · split <;> exact ⟨_, _, Sparse.get_set_same ..⟩

/-- What a counter keeps of a decrement beside COUNT: its word, and the fault note that it may bring. -/
def Wake.told (x : Wake) (v : Word) (note : Option (Cause × Word)) : Wake := { x with word := v, notes := x.notes ++ note.toList }

variable {v : Word} {note : Option (Cause × Word)}

theorem decrement_of_zero (h : (u.wakeOf n).count = 0) : decrement u n v note = u.setWake n ((u.wakeOf n).told v note) := if_pos h

theorem decrement_of_pos (h : (u.wakeOf n).count ≠ 0) : decrement u n v note =
    readyWake (u.setWake n { (u.wakeOf n).told v note with count := (u.wakeOf n).count - 1 }) n := if_neg h

/-- A decrement lowers COUNT, down to zero, and leaves its word. -/
theorem decrement_counts (u : Tile) (n : Nat) (v : Word) (note : Option (Cause × Word)) :
    ((decrement u n v note).wakeOf n).count = (u.wakeOf n).count - 1 ∧ ((decrement u n v note).wakeOf n).word = v := by
  by_cases h : (u.wakeOf n).count = 0
  · rw [decrement_of_zero h, Tile.setWake_wakeOf_same, h]
    exact ⟨h, rfl⟩
  · obtain ⟨pod, notes, hkept⟩ := readyWake_keeps (u.setWake n { (u.wakeOf n).told v note with count := (u.wakeOf n).count - 1 }) n
    rw [decrement_of_pos h, hkept, Tile.setWake_wakeOf_same]
    exact ⟨rfl, rfl⟩

/-- One that leaves the counter above zero readies nothing. -/
theorem decrement_of_many (h : 2 ≤ (u.wakeOf n).count) : decrement u n v note =
    u.setWake n { (u.wakeOf n).told v note with count := (u.wakeOf n).count - 1 } := by
  have hleft : (u.wakeOf n).count - 1 ≠ 0 := by omega
  rw [decrement_of_pos (by omega), readyWake_of_count (by rwa [Tile.setWake_wakeOf_same])]

/-- One that brings the counter to zero readies its free pod. -/
theorem decrement_readies {pod : Pod} (h : (u.wakeOf n).count = 1) (hpod : (u.wakeOf n).pod = .free pod) :
    ((decrement u n v note).wakeOf n).pod = .none
    ∧ ∃ pod', (decrement u n v note).ready = u.ready ++ [.free pod'] ∧ pod'.task.ret = v ∧ pod'.task.pc = pod.task.pc := by
  have hx := Tile.setWake_wakeOf_same u n { (u.wakeOf n).told v note with count := (u.wakeOf n).count - 1 }
  rw [decrement_of_pos (by omega), readyWake_of_free (pod := pod) (by rw [hx, h]) (by rw [hx]; exact hpod)]
  exact ⟨congrArg Wake.pod (Tile.setWake_wakeOf_same ..), _, rfl, congrArg Wake.word hx, rfl⟩

end Counters

end Sys2Proof.Machine
end

section
/-!
SUPPORT. Records of hardware queues: their arrival and their place (spec/15 R287, R290, spec/19 R352).
-/

namespace Sys2Proof.Machine

open Sys2Proof

@[simp] theorem Tile.setHq_hqueue_same (u : Tile) (q : Nat) (x : HQueue) : (u.setHq q x).hqueue q = x := Sparse.get_set_same _ _ _ _

theorem Tile.setHq_setHq (u : Tile) (q : Nat) (x y : HQueue) : (u.setHq q x).setHq q y = u.setHq q y := by
  simp only [setHq, Sparse.set_set]

@[simp] theorem State.putData_tile (s : State) (t off : Nat) (bs : List Byte) (k : Nat) : (s.putData t off bs).tile k = s.tile k := by
  refine foldl_keeps (P := fun a : State => a.tile k = s.tile k) _ _ (fun a i _ h => ?_) s rfl
  dsimp only
  split
  · rw [← h, State.replaceWord]
    split <;> rfl
  · exact h

/-- A slot with records in its ring, or with 32 of its own, does not take one straight. -/
theorem HQueue.takesNone {q : HQueue} (hnot : q.stored ≠ 0 ∨ 32 ≤ q.slot.length) :
    (decide (q.stored = 0) && decide (q.slot.length < 32)) = false := by
  rw [Bool.and_eq_false_iff, decide_eq_false_iff_not, decide_eq_false_iff_not]
  omega

section Places
variable {s : State} {t slot : Nat} {q : HQueue} (hq : (s.tile t).hqueue slot = q) (ws : List Word)
include hq

/-- While the ring is empty and the slot has room, a record goes to the slot. -/
theorem placeRec_slot (hring : q.stored = 0) (hroom : q.slot.length < 32) :
    placeRec s t slot ws = some (s.modTile t fun u => u.setHq slot { q with slot := q.slot ++ [ws] }) := by
  subst hq
  simp only [placeRec, hring, hroom, decide_true, Bool.and_self, if_true]

variable (hnot : q.stored ≠ 0 ∨ 32 ≤ q.slot.length)
include hnot

/-- Else it goes to the tail of the ring in the slice. -/
theorem placeRec_ring (hroom : q.stored < q.ringSize) : placeRec s t slot ws = some
    ((s.putData t (q.recOff q.stored) (wordsBytes ws)).modTile t fun u => u.setHq slot { q with stored := q.stored + 1 }) := by
  subst hq
  simp only [placeRec, HQueue.takesNone hnot, hroom, Bool.false_eq_true, if_true, if_false]

/-- A full ring has no place for it. -/
theorem placeRec_full (hfull : q.ringSize ≤ q.stored) : placeRec s t slot ws = none := by
  subst hq
  simp only [placeRec, HQueue.takesNone hnot, Nat.not_lt.mpr hfull, Bool.false_eq_true, if_false]

end Places

section Records
variable {s : State} {p : Packet} {slot port : Nat} {ws : List Word} {index : Option (Nat × Nat)} {q : HQueue}
  (ha : arrived s s.sel = some p) (hq : (s.tile p.dst).hqueue slot = q)
include ha hq

/-- A slot that is not enabled answers WINDOW. -/
theorem exec_queueRecordArrival_disabled (hb : p.body = .record slot port ws index) (hen : q.en = false) :
    exec .queueRecordArrival s = .next ((s.drop s.sel).replied p (.fault .window)) := by
  subst hq
  show execQueueRecordArrival s = _
  simp only [execQueueRecordArrival, ha, hb, hen, Bool.not_false, if_true]
  rfl

variable (hen : q.en = true)
include hen

/-- A record of no window is refused while others wait behind the ring. -/
theorem exec_queueRecordArrival_behind (hb : p.body = .record slot port ws none) (hextra : q.extra ≠ []) :
    exec .queueRecordArrival s = .next (s.refuse s.sel 0) := by
  subst hq
  show execQueueRecordArrival s = _
  simp only [execQueueRecordArrival, ha, hb, hen, List.isEmpty_eq_false_iff.mpr hextra, Bool.not_true, Bool.not_false, Bool.false_eq_true,
    if_true, if_false]

/-- It is refused where it finds no place. -/
theorem exec_queueRecordArrival_unplaced (hb : p.body = .record slot port ws none) (hextra : q.extra = [])
    (hplace : placeRec (s.drop s.sel) p.dst slot ws = none) : exec .queueRecordArrival s = .next (s.refuse s.sel 0) := by
  subst hq
  show execQueueRecordArrival s = _
  simp only [execQueueRecordArrival, ha, hb, hen, hextra, hplace, List.isEmpty_nil, Bool.not_true, Bool.false_eq_true, if_false]

/-- Else it is placed, and wakes a task that waits for it. -/
theorem exec_queueRecordArrival_placed {s' : State} (hb : p.body = .record slot port ws none) (hextra : q.extra = [])
    (hplace : placeRec (s.drop s.sel) p.dst slot ws = some s') :
    exec .queueRecordArrival s = .next ((wakeWaiting s' p.dst).replied p .done) := by
  subst hq
  show execQueueRecordArrival s = _
  simp only [execQueueRecordArrival, ha, hb, hen, hextra, hplace, List.isEmpty_nil, Bool.not_true, Bool.false_eq_true, if_false]
  rfl

section Collected
variable {i w : Nat} (hb : p.body = .record slot port ws (some (i, w)))
include hb

/-- A record of a window is refused where slot and ring have no room left for it. -/
theorem exec_queueRecordArrival_full (hfull : 32 + q.ringSize ≤ q.slot.length + q.stored + q.extra.length + q.parked.length) :
    exec .queueRecordArrival s = .next (s.refuse s.sel 0) := by
  subst hq
  show execQueueRecordArrival s = _
  simp only [execQueueRecordArrival, ha, hb, hen, hfull, Bool.not_true, Bool.false_eq_true, if_true, if_false]

/-- Else it is collected until its window ends. -/
theorem exec_queueRecordArrival_collected (hroom : q.slot.length + q.stored + q.extra.length + q.parked.length < 32 + q.ringSize) :
    exec .queueRecordArrival s = .next (((s.drop s.sel).modTile p.dst fun u =>
      u.setHq slot { q with parked := q.parked ++ [(i, w, ws)] }).replied p .done) := by
  subst hq
  show execQueueRecordArrival s = _
  simp only [execQueueRecordArrival, ha, hb, hen, Nat.not_le.mpr hroom, Bool.not_true, Bool.false_eq_true, if_false]
  rfl

end Collected
end Records

end Sys2Proof.Machine
end

section
/-!
SUPPORT. The two events of the queue ports (spec/15 R288, R289).
-/

namespace Sys2Proof.Machine

open Sys2Proof

@[simp] theorem Tile.setPort_port_same (u : Tile) (n : Nat) (y : Option Port) : (u.setPort n y).port n = y := Sparse.get_set_same _ _ _ _

/-- The port has sent its record off, as the operation that comes next. -/
def Tile.sentRecord (u : Tile) (port core slot : Nat) (y : Port) : Tile :=
  { u.setPort port (some { y with kind := .push core slot [] true }) with
    seq := u.seq + 1
    out := u.out ++ [{ tag := u.seq, who := y.who, kind := .request, late := true, slow := true, port := some port, pc := y.pc
                       px := y.px }] }

@[simp] theorem Tile.sentRecord_port (u : Tile) (port core slot : Nat) (y : Port) :
    (u.sentRecord port core slot y).port port = some { y with kind := .push core slot [] true } :=
  Tile.setPort_port_same u port (some { y with kind := .push core slot [] true })

/-- A full record leaves its push port on the ordered channel. -/
theorem exec_queuePortPush {s : State} {port core slot : Nat} {st : List Word} {y : Port} (hy : (s.tile s.cur).port port = some y)
    (hk : y.kind = .push core slot st false) (hlen : 8 ≤ st.length) : exec (.queuePortPush port) s =
    .next ((s.setTile s.cur ((s.tile s.cur).sentRecord port core slot y)).send (mkPacket s.cur core (s.tile s.cur).seq orderedChan
      (.record slot port st ((detTag s s.cur core).map fun e => (e.1, e.2.1))))) := by
  show execQueuePortPush port s = _
  simp only [execQueuePortPush, hy, hk, Nat.not_lt.mpr hlen, if_false]
  rfl

/-- The tile as a port has taken word `cur` of the head record. -/
def Tile.poppedWord (u : Tile) (port q cur : Nat) (y : Port) (v : Word) : Tile :=
  { u with popped := v }.setPort port (some { y with kind := .pop q ((cur + 1) % 8) })

@[simp] theorem Tile.poppedWord_port (u : Tile) (port q cur : Nat) (y : Port) (v : Word) :
    (u.poppedWord port q cur y v).port port = some { y with kind := .pop q ((cur + 1) % 8) } := Tile.setPort_port_same ..

/-- The head record leaves a slot that holds eight more, with nothing waiting behind the ring. -/
theorem dropHead_of_full {s : State} {t q : Nat} {r : List Word} {rest : List (List Word)} (hslot : ((s.tile t).hqueue q).slot = r :: rest)
    (hrest : 8 ≤ rest.length) (hextra : ((s.tile t).hqueue q).extra = []) :
    dropHead s t q = some (s.modTile t fun u => u.setHq q { (s.tile t).hqueue q with slot := rest }) := by
  simp only [dropHead, refillSlot, State.modTile_tile_same, Tile.setHq_hqueue_same, hslot, List.drop_one, List.tail_cons,
    Nat.not_lt.mpr hrest, if_false, hextra, drainExtra, Option.map_some]
  simp only [State.modTile, State.setTile_tile_same, State.setTile_setTile, Tile.setHq_hqueue_same, Tile.setHq_setHq, hslot,
    List.tail_cons]

section Pops
variable {s : State} {port q cur : Nat} {y : Port} {r : List Word} {rest : List (List Word)}
  (hw : (s.tile s.cur).active = some y.who) (hy : (s.tile s.cur).port port = some y) (hk : y.kind = .pop q cur)
  (hslot : ((s.tile s.cur).hqueue q).slot = r :: rest)
include hw hy hk hslot

/-- A word before the last of the head record is taken, and the record stays. -/
theorem exec_queuePortPop_word (hcur : cur ≠ 7) : exec (.queuePortPop port) s =
    .next (s.setTile s.cur ((s.tile s.cur).poppedWord port q cur y (r.getD cur 0))) := by
  show execQueuePortPop port s = _
  simp only [execQueuePortPop, popPort, hw, hy, hk, hslot, bne_self_eq_false, hcur, Bool.false_eq_true, if_false]
  rfl

/-- The last word takes its record with it. -/
theorem exec_queuePortPop_last {s' : State} (hcur : cur = 7)
    (hdrop : dropHead (s.setTile s.cur ((s.tile s.cur).poppedWord port q cur y (r.getD cur 0))) s.cur q = some s') :
    exec (.queuePortPop port) s = .next s' := by
  subst hcur
  rw [Tile.poppedWord] at hdrop
  show execQueuePortPop port s = _
  simp only [execQueuePortPop, popPort, hw, hy, hk, hslot, bne_self_eq_false, Bool.false_eq_true, if_true, if_false]
  simp only [hdrop]

end Pops

/-- Settles O45: each packet by what its core finds, a decrement by its count, a record by its place, a port by its word. -/
theorem podsAndRecordsArrive : Obligations.PodsAndRecordsArrive := by
  unfold Obligations.PodsAndRecordsArrive
  refine ⟨fun s p id c h ha hb hf hc hh => ?start, fun s p pod wk ha hb => ?spawn, fun s p pod n ha hb => ?park,
    fun s p n v note ans ha hb => exec_wakeCounterDecrement ha hb, fun u n v note => ?decrement,
    fun s p slot port ws index ha hb => ?record, fun s t slot ws => ?place, fun s port core slot st y hy hk hlen => ?push,
    fun s port q cur y r rest hw hy hk hslot hlast => ?pop⟩
  case start =>
    refine ⟨_, initialTask s h c p.dst, exec_startArrival ha hb hf hc hh, rfl, initialTask_arg .., rfl, rfl, rfl, ?_⟩
    rw [State.modTile_tile_same, State.countStarted_tile, State.modTile_tile_same, State.drop_tile]
    refine ⟨fun i hi => ?_, fun hi => ?_⟩
    · rw [← Tile.dropBuffered_freeImage] at hi
      rw [Tile.takeInitial_of_image hi]
      exact ⟨Tile.setCtx_ctx_same .., rfl⟩
    · rw [← Tile.dropBuffered_freeImage] at hi
      rw [Tile.takeInitial_of_none hi]
      rfl
  case spawn =>
    refine ⟨exec_spawnPodArrival_refused ha hb, fun hroom => ⟨?_, ?_⟩⟩
    · rintro rfl
      exact exec_spawnPodArrival_ready ha hroom hb
    · rintro n rfl
      exact ⟨exec_spawnPodArrival_occupied ha hroom hb, exec_spawnPodArrival_attached ha hroom hb⟩
  case park =>
    exact ⟨exec_parkContinuationArrival_occupied ha hb, exec_parkContinuationArrival_refused ha hb,
      exec_parkContinuationArrival_attached ha hb⟩
  case decrement =>
    obtain ⟨hcount, hword⟩ := decrement_counts u n v note
    refine ⟨hcount, hword, fun hmany => ?_, fun pod => decrement_readies⟩
    rw [decrement_of_many hmany, Tile.setWake_wakeOf_same]
    exact ⟨rfl, rfl⟩
  case record =>
    refine ⟨exec_queueRecordArrival_disabled ha rfl hb, fun hen => ?_, fun i w hen => ?_⟩
    · rintro rfl
      exact ⟨exec_queueRecordArrival_behind ha rfl hen hb, fun hextra => ⟨exec_queueRecordArrival_unplaced ha rfl hen hb hextra,
        fun s' => exec_queueRecordArrival_placed ha rfl hen hb hextra⟩⟩
    · rintro rfl
      exact ⟨exec_queueRecordArrival_full ha rfl hen hb, exec_queueRecordArrival_collected ha rfl hen hb⟩
  case place =>
    refine ⟨placeRec_slot rfl ws, fun hnot => ⟨fun hroom => ⟨_, placeRec_ring rfl ws hnot hroom, ?_, ?_⟩,
      placeRec_full rfl ws hnot⟩⟩
    · rw [State.modTile_tile_same, Tile.setHq_hqueue_same]
    · exact putData_mem ..
  case push =>
    refine ⟨_, exec_queuePortPush hy hk hlen, ?_, _, _, rfl, rfl, rfl, rfl⟩
    rw [State.send_tile, State.setTile_tile_same, Tile.sentRecord_port]
  case pop =>
    by_cases hcur : cur = 7
    case neg =>
      refine ⟨_, exec_queuePortPop_word hw hy hk hslot hcur, ?_⟩
      rw [State.setTile_tile_same]
      exact ⟨rfl, Tile.poppedWord_port .., fun _ => rfl, fun h => absurd h hcur⟩
    case pos =>
      obtain ⟨hrest, hextra⟩ := hlast hcur
      have hdrop := dropHead_of_full (t := s.cur) (q := q) (s := s.setTile s.cur ((s.tile s.cur).poppedWord port q cur y (r.getD cur 0)))
        (by rw [State.setTile_tile_same]; exact hslot) hrest (by rw [State.setTile_tile_same]; exact hextra)
      refine ⟨_, exec_queuePortPop_last hw hy hk hslot hcur hdrop, ?_⟩
      rw [State.modTile_tile_same, State.setTile_tile_same]
      exact ⟨rfl, Tile.poppedWord_port .., fun h => absurd hcur h, fun _ => congrArg HQueue.slot (Tile.setHq_hqueue_same ..)⟩

end Sys2Proof.Machine
end

section
/-!
SUPPORT. Decoding and encoding undo each other (spec/10 R161, R167, R168, R181): the fields of a word, then the decoder's table.
-/

namespace Sys2Proof

open Laws

/-! ### The fields of a word -/

theorem Ty.code_lt (t : Ty) : t.code < 16 := by cases t <;> decide

@[simp] theorem Ty.ofCode_code (t : Ty) : Ty.ofCode t.code = t := by cases t <;> rfl

/-- Every code of four bits is the code of the type that it stands for. -/
theorem Ty.ofNat_code_ofCode (n : BitVec 4) : BitVec.ofNat 4 (Ty.ofCode n.toNat).code = n := by decide +revert

theorem majorOf_lt (w : InstrWord) : majorOf w < 256 := BitVec.isLt _

theorem majorOf_wordOf {n : Nat} (h : n < 256) (f : Fields) : majorOf (wordOf n f) = n := by
  rw [majorOf, wordOf, BitVec.extractLsb'_append_eq_right, BitVec.toNat_ofNat, Nat.mod_eq_of_lt h]

theorem getLsbD_wordOf_neg (n : Nat) (f : Fields) : (wordOf n f).getLsbD 19 = f.neg := by
  simp only [wordOf, BitVec.getLsbD_append, Nat.reduceLT, if_false, if_true, Nat.reduceSub, BitVec.getLsbD_ofBool, decide_true,
    Bool.true_and]

/-- Each field is read back from its own bits: those below it are passed over, those above it cut off. -/
theorem fieldsOf_wordOf (n : Nat) (f : Fields) : fieldsOf (wordOf n f) = f := by
  rw [fieldsOf, getLsbD_wordOf_neg]
  simp (disch := omega) only [wordOf, BitVec.extractLsb'_append_eq_of_le, BitVec.extractLsb'_append_eq_of_add_le,
    BitVec.extractLsb'_eq_self, Nat.reduceSub, BitVec.toNat_ofNat, Nat.mod_eq_of_lt (Ty.code_lt f.ty), Nat.reducePow, Ty.ofCode_code]

theorem ofBool_getLsbD_eq_extractLsb' {n : Nat} (w : BitVec n) (i : Nat) : BitVec.ofBool (w.getLsbD i) = w.extractLsb' i 1 := by
  ext j hj
  obtain rfl : j = 0 := by omega
  simp

/-- The fields with the major are the whole word, so that no bit of it is dropped. -/
theorem wordOf_fieldsOf (w : InstrWord) : wordOf (majorOf w) (fieldsOf w) = w := by
  simp only [wordOf, majorOf, fieldsOf, Ty.ofNat_code_ofCode, ofBool_getLsbD_eq_extractLsb', BitVec.ofNat_toNat, BitVec.setWidth_eq]
  iterate 13 rw [BitVec.extractLsb'_append_extractLsb'_eq_extractLsb']
  · exact BitVec.extractLsb'_eq_self
  all_goals rfl

/-! ### The decoder's table -/

/-- What the table gives for a major and fields has that major and those fields, major by major. -/
theorem Instr.word?_of_instrOf {n : Nat} {f : Fields} {i : Instr} (hn : n < 256) (h : instrOf n f = some i) : i.word? = some (n, f) := by
  interval_cases n
  all_goals cases h <;> (repeat' split) <;> rfl

/-- The table gives every well-formed instruction back: by its minor or control number where it shares its major. -/
theorem Words.statement (i : Instr) : Words.Statement i := by
  cases i with
  | movh f => exact Words.movh f
  | movhTop f => exact Words.movhTop f
  | rand f => exact Words.rand f
  | randInc f => exact Words.randInc f
  | vrand f => exact Words.vrand f
  | vrandInc f => exact Words.vrandInc f
  | mrbuf f => exact Words.mrbuf f
  | mrbufBc f => exact Words.mrbufBc f
  | mzeroAcc f => exact Words.mzeroAcc f
  | mzeroZp f => exact Words.mzeroZp f
  | msave f => exact Words.msave f
  | msaveFree f => exact Words.msaveFree f
  | mstat f => exact Words.mstat f
  | mstatClr f => exact Words.mstatClr f
  | st f => exact Words.st f
  | stOf f => exact Words.stOf f
  | ldaW f => exact Words.ldaW f
  | ldaT f => exact Words.ldaT f
  | ldaN f => exact Words.ldaN f
  | endw f => exact Words.endw f
  | endwGroup f => exact Words.endwGroup f
  | stfar f => exact Words.stfar f
  | stfarB f => exact Words.stfarB f
  | fence f => exact Words.fence f
  | fenceAck f => exact Words.fenceAck f
  | qbindPop f => exact Words.qbindPop f
  | qbindPush f => exact Words.qbindPush f
  | qbindNone f => exact Words.qbindNone f
  | albind f => exact Words.albind f
  | albindNone f => exact Words.albindNone f
  | quant f => exact Words.quant f
  | quantW f => exact Words.quantW f
  | trap f => exact Words.trap f
  | trapS f => exact Words.trapS f
  | sets f => exact Words.sets f
  | setsTvec f => exact Words.setsTvec f
  | setsSvec f => exact Words.setsSvec f
  | setsSlice f => exact Words.setsSlice f
  | setsCtxbase f => exact Words.setsCtxbase f
  | setsEstat f => exact Words.setsEstat f
  | digest f => exact Words.digest f
  | digestClr f => exact Words.digestClr f
  | huskcfgDef f => exact Words.huskcfgDef f
  | huskcfgKill f => exact Words.huskcfgKill f
  | huskcfgFlush f => exact Words.huskcfgFlush f
  | huskcfgTab f => exact Words.huskcfgTab f
  | huskcfgUndef f => exact Words.huskcfgUndef f
  | evict f => exact Words.evict f
  | evictRestore f => exact Words.evictRestore f
  | nop _ | add _ | addi _ | sub _ | mul _ | mulh _ | mulhn _ | div _ | divn _ | rem _ | remn _ | and _ | or _ | xor _ | andn _ | shl _
    | shr _ | sar _ | rol _ | clz _ | ctz _ | popc _ | min _ | max _ | minn _ | maxn _ | sext _ | zext _ | bfx _ | bfxn _ | bfi _ | sel _
    | mov _ | movi _ | cmp _ | cmpi _ | pset _ | plog _ | fadd _ | fsub _ | fmul _ | ffma _ | fdiv _ | fsqrt _ | fmin _ | fmax _ | fabs _
    | fneg _ | fcmp _ | fcvt _ | ftoi _ | itof _ | fclass _ | br _ | bri _ | call _ | calli _ | ret _ | loop _ | bru _ | done _ | ifence _
    | vadd _ | vsub _ | vmul _ | vfma _ | vfms _ | vmin _ | vmax _ | vabs _ | vneg _ | vand _ | vor _ | vxor _ | vnot _ | vshl _ | vshr _
    | vsar _ | vcmp _ | vsel _ | vmov _ | vbcast _ | vget _ | vput _ | vperm _ | vtrn _ | vredr _ | vredc _ | vscan _ | vrcp _ | vrsq _
    | vexp2 _ | vlog2 _ | vtanh _ | vcvt _ | vrnd _ | vqblk _ | vdq _ | msca _ | mcfg _ | mloadb _ | mloadz _ | mgang _ | mmul _
    | mdrain _ | mdrainp _ | mchkcfg _ | mrestore _ | ld _ | ldb _ | stb _ | ldacq _ | strel _ | ldf _ | ldfe _ | stf _ | stef _ | setf _
    | sete _ | sta _ | stam _ | setit _ | advit _ | ageq _ | farreq _ | aadd _ | amin _ | amax _ | aminn _ | amaxn _ | aand _ | aor _
    | axor _ | aswap _ | acas _ | send _ | sendb _ | spawn _ | park _ | wait _ | yield _ | wkset _ | wkdec _ | hqcfg _ | balw _ | mask1 _
    | unmask1 _ | launch _ | lstat _ | barw _ | bara _ | bbegin _ | bdecl _ | bcommit _ | babort _ | btload _ | bstat _ | tret _
    | tfence _ | gets _ | seta _ | pair _ | unpair _ | brkpt _ =>
    exact Words.of_some rfl rfl rfl
  | boot _ | linkFailure _ _ | backgroundScrub _ | ownerCertificate _ | ownershipHandover _ | leaseRenewal _ | tenantSessionBind _ _
    | hostRead _ | hostWrite _ | hostAtomic _ | hostLaunchSubmit _ | objectLoad _ | attestationReport _ _ | farStoreArrival _
    | queuePortPush _ | queuePortPop _ | lateFaultReport _ | remoteAccessArrival _ | routerAtomicMerge _ _ | loadReply _
    | acknowledgementArrival _ | gatewayAccess _ | tstatWrite _ | stickyWrite _ | packageReset | freeze | freezeRestart | railThermalAlarm
    | leaseLapse | farreqArrival | requestProgramStart | requestProgramEnd | apertureRequestArrival | bteBackoffRetry | copyCompletion
    | copyFault | scaleDescriptorDelivery | wakeCounterDecrement | messageArrival | startArrival | spawnPodArrival
    | parkContinuationArrival | queueRecordArrival | allowanceGrantArrival | grantWithheldRelease | congestionHalving | niUnaidedRetry
    | podStart | podTake | level1Entry | timeSliceExpiry | trapEntry | atomicAtHome | mergedReplySplit | feAccessAtHome
    | stampedStoreAtHome | mirrorDelivery | ldaAtHome | ageqAtHome | stopNoticeArrival | ofStoreArrival | ofFlagApply | multicastDelivery
    | launchAcceptance | slotMapping | slotRotation | groupPlacement | groupRetirement | barrierPhaseComplete | quantumCountExpiry
    | deliveryWindowEnd | declarationAtHome | abortNoticeArrival | boostedAbort | undoTaskStart | undoFinish | lockReleaseAtHome
    | matrixQueuePerform | matrixInstructionCompletion | peerAddArrival | gangBarrierComplete | pairIntervalClose | evictStopped
    | evictDrained | evictSaved | restoreComplete | setaDrainComplete | dividerCompletion | reductionCompletion | fixedLatencyResultWrite
    | quantumMarkerArrival =>
    exact Words.of_none rfl

theorem decodeWord_eq_ok {w : InstrWord} {i : Instr} : decodeWord w = .ok i ↔ instrOf (majorOf w) (fieldsOf w) = some i := by
  unfold decodeWord
  split <;> simp [*]

/-- Settles O54: a word and its fields with the major determine each other, and so do a well-formed instruction and its table entry. -/
theorem decodeOfEncodeIsTheInstruction : Obligations.DecodeOfEncodeIsTheInstruction := by
  unfold Obligations.DecodeOfEncodeIsTheInstruction
  refine ⟨fun i w hi he => ?_, fun i w hd => ?_⟩
  · obtain ⟨⟨n, f⟩, hword, rfl⟩ := Option.map_eq_some_iff.mp he
    obtain ⟨hn, hi⟩ := Words.statement i hi _ hword
    rw [decodeWord_eq_ok, majorOf_wordOf hn, fieldsOf_wordOf, hi]
  · rw [encode, Instr.word?_of_instrOf (majorOf_lt w) (decodeWord_eq_ok.mp hd), Option.map_some, wordOf_fieldsOf]

/-- Settles O53: the decoder evaluates on each of the words. -/
theorem wordsDecodeToTheirInstructions : Obligations.WordsDecodeToTheirInstructions := by
  unfold Obligations.WordsDecodeToTheirInstructions
  exact ⟨rfl, rfl, rfl, rfl, rfl, rfl⟩

end Sys2Proof
end

section
/-!
SUPPORT. Transfers: where the stream itself goes, and where a follower of a forwarded gang goes with its leader (spec/10 R166,
spec/12 R216 to R219, spec/15 R296, spec/09 R153).
-/

namespace Sys2Proof.Machine

open Sys2Proof

/-- A checked transfer to `tgt` goes through: the PC has its format, and the line there does not forbid the entry (spec/10 R166). -/
def Lands (tgt : Word) (x : In) (s : State) : Prop :=
  pcOk tgt = true ∧
    ((fetchLine s x.t (tgt.toNat / 8)).2.parityOk && (fetchLine s x.t (tgt.toNat / 8)).2.shapeOk
      && !(fetchLine s x.t (tgt.toNat / 8)).2.tgt (tgt.toNat % 8)) = false

/-- A checked transfer that goes through: its target, with the line fetched for it. -/
def jumpTo (tgt : Word) (x : In) (s : State) : State × After :=
  ((fetchLine s x.t (tgt.toNat / 8)).1,
    .jump tgt (some { no := tgt.toNat / 8, line := (fetchLine s x.t (tgt.toNat / 8)).2, entered := false }))

/-- What a follower does at a transfer: it goes where its leader went. -/
def ledBy (x : In) (s : State) : State × After :=
  match leaderTook s x with
  | some tgt => (s, .jump tgt none)
  | none => (s, .next)

/-- The guard with which the leader came to the slot that a follower has come to; the follower's own where no line stands forwarded. -/
def leaderGuard (x : In) (s : State) : Bool :=
  match (s.tile x.t).fwd with
  | y :: _ => y.guards.any fun g => g.1 = x.pc.toNat % 8 && g.2
  | [] => guardOf ((s.tile x.t).task x.w) x.f

section Bodies
variable {x : In} {s : State} {tgt : Word} {own : Body.Out} {p : State × After}

theorem checkedJump_of_lands (h : Lands tgt x s) : checkedJump x s tgt = .ok (jumpTo tgt x s) := by
  obtain ⟨hpc, hline⟩ := h
  simp only [checkedJump, hpc, hline, Bool.not_true, Bool.false_eq_true, if_false, jumpTo]

theorem plainJump_of_pcOk (h : pcOk tgt = true) : plainJump s tgt = .ok (s, .jump tgt none) := by
  simp only [plainJump, h, Bool.not_true, Bool.false_eq_true, if_false]

theorem transfer_of_own (h : (s.tile x.t).following x.w = false) (ho : own = .ok p) : transfer x s own = .ok p := by
  rw [transfer, h, ho]
  rfl

theorem transfer_of_following (h : (s.tile x.t).following x.w = true) : transfer x s own = .ok (ledBy x s) := by
  rw [transfer, h, ledBy, if_pos rfl]
  cases leaderTook s x <;> rfl

/-- A write that goes with a transfer is made on the way. -/
theorem withWrite_of_ok {r : Nat} {v : Word} (h : own = .ok p) : withWrite x r v own = .ok (emit p.1 x 1 [(r, v)] 0, p.2) := by
  rw [h]
  rfl

end Bodies

/-! ### Instruction by instruction -/

section Given
variable {cond : In → State → Prop} {out : In → State → State × After}

theorem br_gives (h : ∀ x s, cond x s → transfer x s (checkedJump x s x.pcImm) = .ok (out x s)) : Gives .br cond out :=
  gives_of (fun _ => formBr) _ (fun _ => rfl) (fun _ => rfl) (fun _ _ => rfl) h

theorem bri_gives (h : ∀ x s, cond x s → transfer x s (checkedJump x s x.a) = .ok (out x s)) : Gives .bri cond out :=
  gives_of (fun _ => formBri) _ (fun _ => rfl) (fun _ => rfl) (fun _ _ => rfl) h

theorem ret_gives (h : ∀ x s, cond x s → transfer x s (plainJump s x.a) = .ok (out x s)) : Gives .ret cond out :=
  gives_of (fun _ => formBri) _ (fun _ => rfl) (fun _ => rfl) (fun _ _ => rfl) h

theorem call_gives (h : ∀ x s, cond x s → transfer x s (checkedJump x s x.pcImm) = .ok (out x s)) :
    Gives .call cond fun x s => (emit (out x s).1 x 1 [(0x3E, nextPc x.pc)] 0, (out x s).2) :=
  gives_of (fun _ => formCall) _ (fun _ => rfl) (fun _ => rfl) (fun _ _ => rfl) fun x s hc => withWrite_of_ok (h x s hc)

theorem calli_gives (h : ∀ x s, cond x s → transfer x s (checkedJump x s x.a) = .ok (out x s)) :
    Gives .calli cond fun x s => (emit (out x s).1 x 1 [(0x3E, nextPc x.pc)] 0, (out x s).2) :=
  gives_of (fun _ => formCalli) _ (fun _ => rfl) (fun _ => rfl) (fun _ _ => rfl) fun x s hc => withWrite_of_ok (h x s hc)

/-- The counter of a LOOP, once it has counted. -/
def loopCount (x : In) (s : State) : Word := readReg s x.t x.w x.f.dest.toNat - 1

theorem loop_gives (h : ∀ x s, cond x s → transfer x s (if loopCount x s = 0 then goOn s else checkedJump x s x.pcImm) = .ok (out x s)) :
    Gives .loop cond fun x s => (emit (out x s).1 x 1 [(x.f.dest.toNat, loopCount x s)] 0, (out x s).2) :=
  gives_of (fun _ => formLoop) _ (fun _ => rfl) (fun _ => rfl) (fun _ _ => rfl) fun x s hc => withWrite_of_ok (h x s hc)

theorem balw_gives (h : ∀ x s, cond x s →
      transfer x s (if x.f.b.toNat ≤ (s.tile x.t).allow (x.f.a.toNat - 0x50) then checkedJump x s x.pcImm else goOn s) = .ok (out x s)) :
    Gives .balw cond out :=
  gives_of (fun _ => formBalw) _ (fun _ => rfl) (fun _ => rfl) (fun _ _ => rfl) h

end Given

theorem ifence_led : Gives .ifence (fun x s => (s.tile x.t).following x.w = true) ledBy :=
  gives_of (fun _ => formIfence) _ (fun _ => rfl) (fun _ => rfl) (fun _ _ => rfl) fun _ _ hf => (if_pos hf).trans (transfer_of_following hf)

/-! ### BRU -/

theorem bru_own : Gives .bru (fun x s => (s.tile x.t).following x.w = false ∧ Lands x.pcImm x s) fun x s => jumpTo x.pcImm x s :=
  gives_of (fun _ => formBr) _ (fun _ => rfl) (fun _ => rfl) (fun _ _ => rfl) fun _ _ ⟨hf, hl⟩ =>
    (if_neg (Bool.eq_false_iff.mp hf)).trans (checkedJump_of_lands hl)

theorem bru_led : Gives .bru (fun x s => (s.tile x.t).following x.w = true ∧ guardOf ((s.tile x.t).task x.w) x.f = leaderGuard x s) ledBy :=
  gives_of (fun _ => formBr) _ (fun _ => rfl) (fun _ => rfl) (fun _ _ => rfl) fun _ _ ⟨hf, hg⟩ =>
    (if_pos hf).trans ((if_pos hg).trans (transfer_of_following hf))

theorem exec_bru_diverging {s s1 : State} {w : Who} {m : Form} {f : Fields} {x : In} (hi : Issues s w (.bru f) m f s1 x)
    (hf : (s1.tile x.t).following x.w = true) (hg : guardOf ((s1.tile x.t).task x.w) x.f ≠ leaderGuard x s1) :
    exec (.bru f) s = .next (trapNow s s.cur w .fwddiv 0 ((leaderTook s1 x).getD (nextPc x.pc)) false false false false) := by
  cases hi.form
  refine issue_of_stops (e := .trap .fwddiv 0 (some ((leaderTook s1 x).getD (nextPc x.pc))) false) hi ?_
  exact (if_pos hf).trans (if_neg hg)

/-- Settles O10: each body is a transfer, which goes the leader's way for a follower and its own way for every other stream. -/
theorem transfersReachTheirTarget : Obligations.TransfersReachTheirTarget := by
  unfold Obligations.TransfersReachTheirTarget
  refine ⟨⟨?br, ?bri, ?call, ?calli, bru_own, ?ret, ?taken, ?through, ?enough, ?short⟩,
    ⟨?br', ?bri', ?ret', ?balw', ?call', ?calli', ?loop', ifence_led, bru_led, fun s w m f s1 x hi hf hg => exec_bru_diverging hi hf hg⟩⟩
  case br => exact br_gives fun _ _ ⟨ho, hl⟩ => transfer_of_own ho (checkedJump_of_lands hl)
  case bri => exact bri_gives fun _ _ ⟨ho, hl⟩ => transfer_of_own ho (checkedJump_of_lands hl)
  case call => exact call_gives fun _ _ ⟨ho, hl⟩ => transfer_of_own ho (checkedJump_of_lands hl)
  case calli => exact calli_gives fun _ _ ⟨ho, hl⟩ => transfer_of_own ho (checkedJump_of_lands hl)
  case ret => exact ret_gives fun _ _ ⟨ho, hp⟩ => transfer_of_own ho (plainJump_of_pcOk hp)
  case taken => exact loop_gives fun _ _ ⟨ho, hc, hl⟩ => transfer_of_own ho ((if_neg hc).trans (checkedJump_of_lands hl))
  case through => exact loop_gives (out := fun _ s => (s, .next)) fun _ _ ⟨ho, hc⟩ => transfer_of_own ho (if_pos hc)
  case enough => exact balw_gives fun _ _ ⟨ho, hb, hl⟩ => transfer_of_own ho ((if_pos hb).trans (checkedJump_of_lands hl))
  case short => exact balw_gives fun _ _ ⟨ho, hb⟩ => transfer_of_own ho (if_neg (Nat.not_le.mpr hb))
  case br' => exact br_gives fun _ _ => transfer_of_following
  case bri' => exact bri_gives fun _ _ => transfer_of_following
  case ret' => exact ret_gives fun _ _ => transfer_of_following
  case balw' => exact balw_gives fun _ _ => transfer_of_following
  case call' => exact call_gives fun _ _ => transfer_of_following
  case calli' => exact calli_gives fun _ _ => transfer_of_following
  case loop' => exact loop_gives fun _ _ => transfer_of_following

end Sys2Proof.Machine
end

section
/-!
SUPPORT. What retirement changes of its own core, and the registers of a task after a write (spec/10 R171, R175, R176).
-/

namespace Sys2Proof.Machine

open Sys2Proof

/-! ### Retirement -/

/-- The registers of a task whose masked window has counted one more instruction (spec/15 R285). -/
def Task.counted (k : Task) (wasOpen : Bool) : Task :=
  if wasOpen && k.mwo then { k with tstat := setField k.tstat 40 32 (k.mcnt + 1) } else k

theorem Task.counted_false (k : Task) : k.counted false = k := rfl

/-- Counting changes tstat alone. -/
theorem Task.counted_eq (k : Task) (wasOpen : Bool) : ∃ v, k.counted wasOpen = { k with tstat := v } := by
  unfold Task.counted
  split
  · exact ⟨_, rfl⟩
  · exact ⟨k.tstat, rfl⟩

/-- The core `v` runs stream `w` as `u` did, its registers being `k`, and the same results are to become readable. -/
structure Tile.Kept (u v : Tile) (w : Who) (k : Task) : Prop where
  active : v.active = u.active
  task   : v.task w = k
  pend   : v.pend = u.pend

theorem Tile.Kept.trans {u v v' : Tile} {w : Who} {k k' : Task} (h : u.Kept v w k) (h' : v.Kept v' w k') : u.Kept v' w k' :=
  ⟨h'.active.trans h.active, h'.task, h'.pend.trans h.pend⟩

theorem Tile.kept_refl (u : Tile) (w : Who) : u.Kept u w (u.task w) := ⟨rfl, rfl, rfl⟩

theorem Tile.kept_modTask {u : Tile} {w : Who} (hw : u.active = some w) (g : Task → Task) : u.Kept (u.modTask w g) w (g (u.task w)) :=
  ⟨Tile.modTask_active .., Tile.modTask_task _ _ _ hw, Tile.modTask_pend ..⟩

theorem Tile.kept_leaveLine (u : Tile) (w w' : Who) : u.Kept (u.leaveLine w') w (u.task w) := by
  unfold Tile.leaveLine Tile.leftFwd
  repeat' split
  all_goals exact ⟨rfl, rfl, rfl⟩

section Retirement
variable {s : State} {t : Nat} {w : Who}

theorem tellFollowers_of_not_fwd (hf : ((s.tile t).task w).fwd = false) (slot : Nat) (guard : Bool) (a : After) :
    tellFollowers s t w slot guard a = s := by
  unfold tellFollowers
  simp only [hf, Bool.false_and, Bool.false_eq_true, if_false]
  split <;> rfl

theorem countRetired_kept (hw : (s.tile t).active = some w) (wasOpen : Bool) :
    (s.tile t).Kept ((countRetired s t w wasOpen).tile t) w (((s.tile t).task w).counted wasOpen) := by
  unfold countRetired
  rw [State.modTile_tile_same]
  extract_lets u1 u2 det u3
  have h1 : (s.tile t).Kept u1 w ((s.tile t).task w) := by
    unfold u1
    repeat' split
    all_goals exact ⟨rfl, rfl, rfl⟩
  have h2 : u1.Kept u2 w (((s.tile t).task w).counted wasOpen) := by
    rw [← h1.task]
    cases wasOpen with
    | false => exact u1.kept_refl w
    | true => exact Tile.kept_modTask (h1.active.trans hw) (Task.counted · true)
  have h3 : u2.Kept u3 w (u2.task w) := by
    unfold u3
    repeat' split
    all_goals exact ⟨rfl, rfl, rfl⟩
  rw [h2.task] at h3
  exact h1.trans (h2.trans ⟨h3.active, h3.task, h3.pend⟩)

theorem advance_next_kept (hw : (s.tile t).active = some w) (f : Fields) (beats : Nat) :
    (s.tile t).Kept ((advance s t w f beats .next).tile t) w
      { (s.tile t).task w with pc := nextPc ((s.tile t).task w).pc, waitNo := none } := by
  unfold advance
  rw [State.modTile_tile_same]
  extract_lets pc slot first b u1 u2 u3
  have h2 : (s.tile t).Kept u2 w ((s.tile t).task w) := by
    unfold u2 u1
    split <;> exact ⟨rfl, rfl, rfl⟩
  have h3 : u2.Kept u3 w { (s.tile t).task w with pc := nextPc ((s.tile t).task w).pc, waitNo := none } := by
    rw [← h2.task]
    exact Tile.kept_modTask (h2.active.trans hw) _
  have h4 := u3.kept_leaveLine w w
  rw [h3.task] at h4
  refine h2.trans (h3.trans ?_)
  change u3.Kept (if slot = 4 then _ else _) w _
  split
  · exact ⟨h4.active, h4.task, h4.pend⟩
  · exact ⟨rfl, h3.task, rfl⟩

theorem retire_next_of_not_fwd (hf : ((s.tile t).task w).fwd = false) (f : Fields) (beats : Nat) (wasOpen guard : Bool) :
    retire s t w f beats wasOpen guard .next = advance (countRetired s t w wasOpen) t w f beats .next :=
  congrArg (fun s' => advance (countRetired s' t w wasOpen) t w f beats .next)
    (tellFollowers_of_not_fwd hf (((s.tile t).task w).pc.toNat % 8) guard .next)

/-- An instruction that retires to the next slot moves its PC on, and counts where its masked window is open. -/
theorem retire_next_kept (hw : (s.tile t).active = some w) (hf : ((s.tile t).task w).fwd = false) (f : Fields) (beats : Nat)
    (wasOpen guard : Bool) :
    (s.tile t).Kept ((retire s t w f beats wasOpen guard .next).tile t) w
      { ((s.tile t).task w).counted wasOpen with pc := nextPc ((s.tile t).task w).pc, waitNo := none } := by
  have hc := countRetired_kept hw wasOpen
  have ha := advance_next_kept (hc.active.trans hw) f beats
  obtain ⟨v, hv⟩ := Task.counted_eq ((s.tile t).task w) wasOpen
  rw [hc.task, hv] at ha
  rw [retire_next_of_not_fwd hf, hv]
  exact hc.trans ha

theorem retire_tile_other (hf : ((s.tile t).task w).fwd = false) (f : Fields) (beats : Nat) (wasOpen guard : Bool) {k : Nat} (hk : k ≠ t) :
    (retire s t w f beats wasOpen guard .next).tile k = s.tile k := by
  rw [retire_next_of_not_fwd hf]
  exact (State.modTile_tile_other _ hk _).trans (State.modTile_tile_other _ hk _)

end Retirement

theorem TilesOnly.empt {s s' : State} (h : TilesOnly s s') : s'.empt = s.empt := by rw [h]
theorem TilesOnly.ecc {s s' : State} (h : TilesOnly s s') : s'.ecc = s.ecc := by rw [h]
theorem TilesOnly.side {s s' : State} (h : TilesOnly s s') : s'.side = s.side := by rw [h]
theorem TilesOnly.husks {s s' : State} (h : TilesOnly s s') : s'.husks = s.husks := by rw [h]

/-! ### Results -/

section Results
variable (s : State) (x : In) (l : Nat) (ws : List (Nat × Word)) (fl : Nat)

theorem emit_task (hw : (s.tile x.t).active = some x.w) :
    ((emit s x l ws fl).tile x.t).task x.w = ((s.tile x.t).task x.w).raise x.f.setc.toNat := by
  rw [emit, State.modTile_tile_same]
  exact Tile.modTask_task _ _ _ hw

theorem emit_active : ((emit s x l ws fl).tile x.t).active = (s.tile x.t).active := by
  rw [emit, State.modTile_tile_same]
  exact Tile.modTask_active ..

theorem emit_pend : ((emit s x l ws fl).tile x.t).pend = (s.tile x.t).pend
    ++ [{ due := (s.tile x.t).cyc + l, seq := x.seq, writes := realWrites ws, flags := fl, lower := x.f.setc.toNat }] := by
  rw [emit, State.modTile_tile_same]

theorem emit_tile_other {k : Nat} (hk : k ≠ x.t) : (emit s x l ws fl).tile k = s.tile k := State.modTile_tile_other _ hk _

end Results

section Commits
variable (u : Tile) (w : Who)

theorem Tile.apply_task (h : u.active = some w) (tag : Nat) (g : Task → Task) : (u.apply w tag g).task w = g (u.task w) :=
  Tile.modTask_task _ _ _ h

theorem Tile.passFlags_task (w' : Who) (tag fl : Nat) : (u.passFlags w' tag fl).task w = u.task w := by
  unfold Tile.passFlags
  split <;> rfl

theorem Tile.portWrites_task (ws : List (Nat × Word)) : ∀ u : Tile, (u.portWrites ws).task w = u.task w := by
  induction ws with
  | nil => exact fun _ => rfl
  | cons e ws ih =>
    intro u
    refine (ih _).trans ?_
    split <;> rfl

theorem Tile.foldAll_task (ws : List (Nat × Word)) : ∀ u : Tile, (u.foldAll ws).task w = u.task w := by
  induction ws with
  | nil => exact fun _ => rfl
  | cons e ws ih => exact fun u => ih (u.foldFp e.1 e.2)

theorem Tile.foldMate_task (fp : Word) (ws : List (Nat × Word)) : (u.foldMate fp ws).task w = u.task w := by
  unfold Tile.foldMate
  split <;> rfl

/-- A result that becomes readable makes its writes, merges its flags and lowers its counter. -/
theorem Tile.commit_task (h : u.active = some w) (p : Pend) : (u.commit w p).task w = (u.task w).result p.writes p.flags p.lower := by
  rw [Tile.commit, Tile.foldMate_task, Tile.deliver, Tile.foldAll_task, Tile.portWrites_task, Tile.passFlags_task, Tile.apply_task u w h]

end Commits

/-! ### A register after a write -/

section Registers
variable (k : Task) (v : Word)

theorem writeTask_g {r : Nat} (h : r < 64) : writeTask k r v = k.setG r v := if_pos (by omega)

theorem writeTask_w (r : Nat) : writeTask k (0x100 + r) v = k.setW r v := by
  unfold writeTask
  rw [if_neg (by omega), if_neg (by simp only [Bool.and_eq_true, decide_eq_true_eq]; omega)]
  iterate 4 rw [if_neg (by omega)]
  rw [if_pos (by omega), Nat.add_sub_cancel_left]

theorem writeTask_p {r : Nat} (h : r ≤ 7) : writeTask k (0x60 + r) v = k.setP r (bit v 0) := by
  unfold writeTask
  rw [if_neg (by omega), if_pos (by simp only [Bool.and_eq_true, decide_eq_true_eq]; omega), Nat.add_sub_cancel_left]

theorem Task.setG_getG_same {r : Nat} (h : r ≠ 0) : (k.setG r v).getG r = v := by
  rw [Task.setG, if_neg h, Task.getG, if_neg h]
  exact Sparse.get_set_same (0 : Word) k.g r v

theorem Task.setG_getG_other {r j : Nat} (h : j ≠ r) : (k.setG r v).getG j = k.getG j := by
  rw [Task.setG]
  split
  · rfl
  · exact congrArg (if j = 0 then 0 else ·) (Sparse.get_set_other (0 : Word) k.g h v)

theorem Task.setW_getW_same (r : Nat) : (k.setW r v).getW r = v := Sparse.get_set_same (0 : Word) k.w r v

theorem Task.setW_getW_other {r j : Nat} (h : j ≠ r) : (k.setW r v).getW j = k.getW j :=
  Sparse.get_set_other (0 : Word) k.w h v

theorem Task.setP_getP {r j : Nat} (hr : r < 7) (hj : j < 7) (b : Bool) : (k.setP r b).getP j = if j = r then b else k.getP j := by
  have hr' : ¬ r ≥ 7 := by omega
  have hj' : j ≠ 7 := by omega
  have hmask : (1#7 <<< r).getLsbD j = decide (j = r) := by
    rw [BitVec.getLsbD_shiftLeft, BitVec.getLsbD_one, Bool.eq_iff_iff]
    simp only [hj, decide_true, Bool.true_and, Bool.and_eq_true, Bool.not_eq_true', decide_eq_true_eq, decide_eq_false_iff_not]
    omega
  simp only [Task.setP, Task.getP, hr', hj', if_false]
  cases b
  all_goals
    simp only [Bool.false_eq_true, if_true, if_false, BitVec.getLsbD_or, BitVec.getLsbD_and, BitVec.getLsbD_not, hmask, hj]
    split <;> simp [*]

/-- A write of tstat replaces its low four bits. -/
theorem writeTask_tstat_toNat : (writeTask k 0x6E v).tstat.toNat = k.tstat.toNat / 16 * 16 + v.toNat % 16 := by
  have hk := k.tstat.isLt
  change (setField k.tstat 3 0 (field v 3 0)).toNat = _
  simp only [setField, field, BitVec.toNat_ofNat]
  omega

theorem writeTask_tstat_rm : (writeTask k 0x6E v).rm = field v 1 0 := by
  simp only [Task.rm, field, writeTask_tstat_toNat]
  omega

theorem writeTask_tstat_mcnt : (writeTask k 0x6E v).mcnt = k.mcnt := by
  simp only [Task.mcnt, field, writeTask_tstat_toNat]
  omega

theorem writeTask_tstat_bit (i : Nat) :
    bit (writeTask k 0x6E v).tstat i = if i < 4 then bit v i else bit k.tstat i := by
  have hsum : (writeTask k 0x6E v).tstat.toNat = 2 ^ 4 * (k.tstat.toNat / 2 ^ 4) + v.toNat % 2 ^ 4 := by
    rw [writeTask_tstat_toNat]
    omega
  rw [bit, BitVec.getLsbD, hsum, Nat.testBit_two_pow_mul_add _ (Nat.mod_lt _ (by decide)), Nat.testBit_mod_two_pow]
  split
  next h => simp [h, bit, BitVec.getLsbD]
  next h =>
    rw [Nat.testBit_div_two_pow, Nat.sub_add_cancel (Nat.le_of_not_lt h)]
    rfl

end Registers

section Events
variable {s : State} {w : Who}

theorem exec_fixedLatencyResultWrite {p : Pend} (hw : (s.tile s.cur).active = some w) (hp : (s.tile s.cur).duePend = some p) :
    exec .fixedLatencyResultWrite s = .next (s.setTile s.cur (({ s.tile s.cur with
      pend := eraseFirst (· == p) (s.tile s.cur).pend } : Tile).commit w p)) := by
  change execFixedLatencyResultWrite s = _
  simp only [execFixedLatencyResultWrite, hw, hp]

theorem exec_tstatWrite (hw : (s.tile s.cur).active = some w) (v : Word) :
    exec (.tstatWrite v) s = .next (s.modTile s.cur fun u => u.modTask w fun k => writeTask k 0x6E v) := by
  change execTstatWrite v s = _
  simp only [execTstatWrite, hw]

theorem exec_stickyWrite (hw : (s.tile s.cur).active = some w) (v : Word) (hp : (s.tile s.cur).pend.all (fun p => p.flags = 0) = true)
    (hfl : (s.tile s.cur).flagsOpen w = false) :
    exec (.stickyWrite v) s = .next (s.modTile s.cur fun u => u.modTask w fun k => writeTask k 0x6F v) := by
  have hnone : ((s.tile s.cur).pend.any fun p => decide (p.flags ≠ 0)) = false := by
    simpa [List.all_eq_true] using hp
  change execStickyWrite v s = _
  simp only [execStickyWrite, hw, hnone, hfl, Bool.or_self, Bool.false_eq_true, if_false]

end Events

/-- Settles O59: retirement moves the PC and keeps the list of results, of which each is written as it becomes readable. -/
theorem resultsAreWrittenAndNothingElse : Obligations.ResultsAreWrittenAndNothingElse := by
  unfold Obligations.ResultsAreWrittenAndNothingElse
  refine ⟨fun s x m l ws fl hw hf hm _ => ?frame, fun s w p hw hp => ?due, fun u w p hw => Tile.commit_task u w hw p,
    fun s w v hw => ⟨?tstat, fun hp hfl => ?sticky⟩, fun k v => ?registers⟩
  case frame =>
    have htask := emit_task s x l ws fl hw
    have hw' : ((emit s x l ws fl).tile x.t).active = some x.w := (emit_active s x l ws fl).trans hw
    have hf' : (((emit s x l ws fl).tile x.t).task x.w).fwd = false := by
      rw [htask, Task.fwd, Task.raise_lid]
      exact hf
    have ho : TilesOnly s (retired s x m (emit s x l ws fl) .next) := (tilesOnly_modTile ..).trans (tilesOnly_retire ..)
    have hk := retire_next_kept hw' hf' x.f (m.beats x.f) ((s.tile x.t).task x.w).mwo true
    rw [hm, htask, Task.counted_false] at hk
    refine ⟨ho.mem, ho.empt, ho.ecc, ho.side, ho.net, ho.husks,
      fun k hne => (retire_tile_other hf' _ _ _ _ hne).trans (emit_tile_other s x l ws fl hne), ?_⟩
    rw [retired, hm, hk.task, hk.pend, emit_pend]
    simp
  case due => exact exec_fixedLatencyResultWrite hw hp
  case tstat => exact exec_tstatWrite hw v
  case sticky => exact exec_stickyWrite hw v hp hfl
  case registers =>
    refine ⟨fun r h1 h2 => ?_, fun r => ?_, fun r hr => ?_, rfl, rfl, rfl, rfl, ?_, rfl, fun _ => rfl⟩
    · rw [writeTask_g k v h2]
      exact ⟨k.setG_getG_same v (by omega), fun j hj => k.setG_getG_other v hj, Task.setG_w .., Task.setG_p ..⟩
    · rw [writeTask_w]
      exact ⟨k.setW_getW_same v r, fun j hj => k.setW_getW_other v hj, rfl⟩
    · rw [writeTask_p k v (Nat.le_of_lt hr)]
      refine ⟨?_, fun j hne hj => ?_⟩
      · rw [k.setP_getP hr hr, if_pos rfl]
      · rw [k.setP_getP hr hj, if_neg hne]
    · exact ⟨writeTask_tstat_rm k v, writeTask_tstat_bit k v 2, writeTask_tstat_bit k v 3,
        writeTask_tstat_bit k v 47, writeTask_tstat_bit k v 46, writeTask_tstat_bit k v 48,
        writeTask_tstat_bit k v 41, writeTask_tstat_mcnt k v⟩

end Sys2Proof.Machine
end

section
/-!
SUPPORT. What comes before the effect of an instruction: holds under PX, its wait mask, its guard, and the checks of its fields, ports,
level and mode in their order (spec/04 R67, spec/10 R169 to R171, R178, R179, spec/15 R286).
-/

namespace Sys2Proof.Machine

open Sys2Proof

/-- Every instruction with a form and fields is issued. -/
theorem exec_eq_issue {i : Instr} {m : Form} {f : Fields} (hm : i.form? = some m) (hf : i.word?.map (·.2) = some f) :
    ∃ body, ∀ s, exec i s = issue i m f body s := by
  obtain ⟨body, hbody, _⟩ := exec_request hm hf
  exact ⟨body, hbody⟩

section Issue
variable {s : State} {w : Who} {i : Instr} {m : Form} {f : Fields} {body : In → State → Except Stop (State × After)}
variable (hw : (s.tile s.cur).active = some w)
include hw

theorem issue_of_pxHolds (hpx : (s.tile s.cur).pxHolds w = true) : issue i m f body s = .next (holdTask s s.cur w none) := by
  simp only [issue, hw, hpx, if_true]

section Guard
variable {g : Bool} (hpx : (s.tile s.cur).pxHolds w = false) (hg : guardOfStream (s.tile s.cur) w i f = some g)
  (hlate : lateAtIssue s s.cur w i m f g = none) (harray : arrayAtIssue s s.cur w i f g = none)
include hpx hg hlate harray

/-- An instruction whose wait mask names a counter that is not zero does not issue, whatever its guard (spec/10 R178). -/
theorem issue_of_masked (hmask : ((s.tile s.cur).task w).maskClear (waitMaskOf (s.tile s.cur) w f) = false) :
    issue i m f body s = .next (holdTask s s.cur w (some (.counters (waitMaskOf (s.tile s.cur) w f)))) := by
  simp only [issue, hw, hpx, hg, Option.getD_some, hlate, harray, hmask, Bool.false_eq_true, if_false, Bool.not_false, if_true]

variable (hmask : ((s.tile s.cur).task w).maskClear (waitMaskOf (s.tile s.cur) w f) = true)
  (hwindow : (((s.tile s.cur).task w).mwo && decide (256 ≤ ((s.tile s.cur).task w).mcnt)) = false)
  (hleaves : (leavesGangLine ((s.tile s.cur).task w) w i && (s.tile s.cur).out.any fun o => o.who = w && o.status) = false)
include hmask hwindow hleaves

/-- A guard-false instruction retires with one beat and nothing else (spec/10 R170). -/
theorem issue_of_guard_false (hf : g = false) :
    issue i m f body s = .next (retire s s.cur w f 1 ((s.tile s.cur).task w).mwo false .next) := by
  subst hf
  simp only [issue, hw, hpx, hg, Option.getD_some, hlate, harray, hmask, Bool.false_eq_true, if_false, Bool.not_true, hwindow,
    Option.isNone_some, hleaves, Bool.or_self, Bool.false_and, Bool.not_false, if_true]

variable (hinterval : (pairCloses i (readReg s s.cur w f.a.toNat) && (s.tile s.cur).pairOpen) = false)
include hinterval

/-- A guard-true instruction that fails a check settles as the check says, without its body. -/
theorem issue_of_check_fails {e : Stop} (ht : g = true) (hcheck : decodeChecks s s.cur w i m f = .error e) :
    issue i m f body s = settle s s.cur w ((s.tile s.cur).task w).pc e := by
  subst ht
  simp only [issue, hw, hpx, hg, Option.getD_some, hlate, harray, hmask, Bool.false_eq_true, if_false, Bool.not_true, hwindow,
    Option.isNone_some, hleaves, Bool.or_self, Bool.true_and, hinterval, bind, Except.bind, hcheck]

/-- Under PX a read of a pending result raises STALL at the instruction that reads (spec/10 R179). -/
theorem issue_of_stall (ht : g = true) (hcheck : decodeChecks s s.cur w i m f = .ok ()) (hfree : issueHolds s s.cur w i m f = .ok ())
    (hstall : (s.tile s.cur).stalls w i m f = true) (hk : ((s.tile s.cur).task w).px = true) :
    issue i m f body s = settle s s.cur w ((s.tile s.cur).task w).pc (.trap .stall ((s.tile s.cur).task w).pc none false) := by
  subst ht
  simp only [issue, hw, hpx, hg, Option.getD_some, hlate, harray, hmask, Bool.false_eq_true, if_false, Bool.not_true, hwindow,
    Option.isNone_some, hleaves, Bool.or_self, Bool.true_and, hinterval, bind, Except.bind, hcheck, hfree, hstall, hk, if_true, trapAt]

end Guard
end Issue

/-! ### The checks -/

/-- The queue ports that the sources name are bound for popping (spec/15 R286). -/
def popsBound (u : Tile) (w : Who) (m : Form) (f : Fields) : Bool :=
  (m.sources f).all fun r => r < 0x40 || 0x4F < r || u.popBound w (r - 0x40)

/-- The queue port that the destination names is bound for pushing (spec/15 R286). -/
def pushesBound (u : Tile) (w : Who) (m : Form) (f : Fields) : Bool :=
  match m.dest with
  | .wr => f.dest.toNat < 0x40 || 0x4F < f.dest.toNat || u.pushBound w (f.dest.toNat - 0x40)
  | _ => true

/-- Steps 4 and 5 of R169: the level, what an undo task and a handler may not use, and the mode, judged last. -/
def levelChecks (s : State) (t : Nat) (w : Who) (m : Form) (f : Fields) : Except Stop Unit := do
  match w with
  | .img _ => .ok ()
  | _ => need (!m.level0Only f && !m.lvl0) .illeg 0
  need (!(m.noUndo && (match w, (s.tile t).l1 with
    | .lvl1, some x => x.undo
    | _, _ => false))) .illeg 0
  need (!(m.noHnd && ((s.tile t).task w).hnd)) .illeg 0
  need (!m.priv || ((s.tile t).task w).sup) .priv ((s.tile t).openAddr t)

section Checks
variable {s : State} {t : Nat} {w : Who} {i : Instr} {m : Form} {f : Fields}

/-- The checks of a tile's instruction in their order. -/
theorem decodeChecks_eq (ht : t < numTiles) : decodeChecks s t w i m f = (do
    need (i.setsOk && m.fieldsOk f) .illeg 0
    need (popsBound (s.tile t) w m f) .illeg 0
    need (pushesBound (s.tile t) w m f) .illeg 0
    levelChecks s t w m f) := by
  simp only [decodeChecks, Nat.not_le.mpr ht, if_false]
  rfl

variable (ht : t < numTiles)
include ht

theorem decodeChecks_of_fields (h : (i.setsOk && m.fieldsOk f) = false) :
    decodeChecks s t w i m f = .error (.trap .illeg 0 none false) := by
  rw [decodeChecks_eq ht, h]
  rfl

variable (hfields : (i.setsOk && m.fieldsOk f) = true)
include hfields

theorem decodeChecks_of_ports (h : (popsBound (s.tile t) w m f && pushesBound (s.tile t) w m f) = false) :
    decodeChecks s t w i m f = .error (.trap .illeg 0 none false) := by
  rw [decodeChecks_eq ht, hfields]
  rcases Bool.and_eq_false_iff.mp h with hpop | hpush
  · rw [hpop]
    rfl
  · rw [hpush]
    cases popsBound (s.tile t) w m f <;> rfl

theorem decodeChecks_of_mode {j : Nat} (hports : (popsBound (s.tile t) w m f && pushesBound (s.tile t) w m f) = true) (hj : w = .img j)
    (hhnd : (m.noHnd && ((s.tile t).task w).hnd) = false) (hpriv : m.priv = true) (hsup : ((s.tile t).task w).sup = false) :
    decodeChecks s t w i m f = .error (.trap .priv ((s.tile t).openAddr t) none false) := by
  obtain ⟨hpop, hpush⟩ := (Bool.and_eq_true ..).mp hports
  have hlevel : levelChecks s t w m f = .error (.trap .priv ((s.tile t).openAddr t) none false) := by
    subst hj
    simp only [levelChecks, need_eq, ok_bind, Bool.and_false, Bool.not_false, if_true, hhnd, hpriv, hsup, Bool.not_true, Bool.or_self,
      Bool.false_eq_true, if_false]
  rw [decodeChecks_eq ht, hfields, hpop, hpush, hlevel]
  rfl

/-- Level 1 and a handler have neither the upper registers nor the instructions of level 0, wherever their ports are bound. -/
theorem decodeChecks_of_level (hw : ∀ j, w ≠ .img j) (hlevel : (m.level0Only f || m.lvl0) = true) :
    decodeChecks s t w i m f = .error (.trap .illeg 0 none false) := by
  have h : levelChecks s t w m f = .error (.trap .illeg 0 none false) := by
    have hfails : (!m.level0Only f && !m.lvl0) = false := by rw [← Bool.not_or, hlevel]; rfl
    cases w with
    | img j => exact absurd rfl (hw j)
    | lvl1 | hnd =>
      simp only [levelChecks, need_eq, hfails, Bool.false_eq_true, if_false]
      rfl
  rw [decodeChecks_eq ht, hfields, h]
  cases popsBound (s.tile t) w m f
  · rfl
  · cases pushesBound (s.tile t) w m f <;> rfl

end Checks

/-- Settles O57: what is tested before the guard, the guard that is false, and the checks of an instruction whose guard is true. -/
theorem guardsWaitsAndChecksComeFirst : Obligations.GuardsWaitsAndChecksComeFirst := by
  unfold Obligations.GuardsWaitsAndChecksComeFirst
  refine ⟨fun s w i m f hm hf hw => ?early, fun s w i m f hm hf hw ht hg hlate harray hpx => ?true⟩
  all_goals obtain ⟨body, hbody⟩ := exec_eq_issue hm hf
  all_goals rw [hbody]
  case early =>
    refine ⟨issue_of_pxHolds hw, fun hpx hg hlate harray => ⟨issue_of_masked hw hpx hg hlate harray, fun hmask hwindow hleaves => ?_⟩⟩
    have hretire := issue_of_guard_false (body := body) hw hpx hg hlate harray hmask hwindow hleaves rfl
    refine ⟨hretire, fun hfwd => ⟨_, hretire, ?_⟩⟩
    have ho := tilesOnly_retire s s.cur w f 1 ((s.tile s.cur).task w).mwo false .next
    refine ⟨ho.mem, ho.empt, ho.side, ho.net, fun k hk => retire_tile_other hfwd _ _ _ _ hk, ?_⟩
    obtain ⟨v, hv⟩ := Task.counted_eq ((s.tile s.cur).task w) ((s.tile s.cur).task w).mwo
    rw [(retire_next_kept hw hfwd f 1 ((s.tile s.cur).task w).mwo false).task, hv]
    exact ⟨rfl, rfl, rfl, rfl, rfl, rfl, rfl, rfl⟩
  case true =>
    refine ⟨issue_of_masked hw hpx hg hlate harray, fun hmask hwindow hleaves hinterval => ?_⟩
    have hfails {e : Stop} := issue_of_check_fails (e := e) (body := body) hw hpx hg hlate harray hmask hwindow hleaves hinterval rfl
    exact ⟨issue_of_stall hw hpx hg hlate harray hmask hwindow hleaves hinterval rfl,
      fun hfields => hfails (decodeChecks_of_fields ht hfields),
      fun hfields hports => hfails (decodeChecks_of_ports ht hfields hports),
      fun hfields hports j hj hhnd hpriv hsup => hfails (decodeChecks_of_mode ht hfields hports hj hhnd hpriv hsup),
      fun hfields hl hlevel => hfails (decodeChecks_of_level ht hfields (by simp [hl]) hlevel),
      fun hfields hh hlevel => hfails (decodeChecks_of_level ht hfields (by simp [hh]) hlevel)⟩

end Sys2Proof.Machine
end

section
/-!
SUPPORT. A step: the move that there is, the line that it enters, and the instruction that it decodes there (spec/10 R161 to R164, R169,
R182).
-/

namespace Sys2Proof.Machine

open Sys2Proof

/-! ### The move -/

section Moves
variable {s : State}

theorem step_of_one {m : Move} (hm : moves exec s = [m]) (hi : s.inputs = []) : step s = take exec m s := by
  rw [step, stepWith, hm, hi]

theorem step_of_none (hm : moves exec s = []) (hi : s.inputs = []) : step s = .next s := by
  rw [step, stepWith, hm, hi]

/-- Among several moves the choice picks one. -/
theorem step_of_many {m : Move} {r : List Move} (hm : moves exec s = m :: r) (hr : r ≠ []) (hi : s.inputs = []) :
    ∃ n ∈ m :: r, step s = take exec n s.choose.2 := by
  obtain ⟨m', r', rfl⟩ := List.exists_cons_of_ne_nil hr
  have hlt : s.choose.1 % (m :: m' :: r').length < (m :: m' :: r').length := Nat.mod_lt _ (Nat.succ_pos _)
  refine ⟨_, List.getElem_mem hlt, ?_⟩
  have hget := List.getElem?_eq_getElem hlt
  rw [step, stepWith, hm, hi]
  change (match (m :: m' :: r')[s.choose.1 % (m :: m' :: r').length]? with
    | some n => take exec n s.choose.2
    | none => takeInput exec s.choose.2) = _
  rw [hget]

theorem moves_of_halted (h : s.frozen = true ∨ s.powered = false) : moves exec s = [] := by
  refine if_pos ?_
  rcases h with h | h <;> simp [h]

end Moves

/-! ### The line -/

section Entering
variable {s : State} {t : Nat} {w : Who} {l : Line}

theorem enterLine_of_open {lb : LineBuf} (hl : (s.tile t).line = some lb) (he : lb.entered = true)
    (hn : lb.no = ((s.tile t).task w).pc.toNat / 8) : enterLine s t w = .ready s := by
  have hopen : (s.tile t).lineOpen ((s.tile t).task w).pc = true := by simp [Tile.lineOpen, hl, he, hn]
  exact if_pos hopen

/-- A plain stream without an open line enters the line at its PC once its statuses are in and nothing holds it under PX. -/
theorem enterLine_of_plain (hl : (s.tile t).line = none) (hs : (s.tile t).noStatus w = true) (hpx : (s.tile t).pxHolds w = false)
    (hf : (s.tile t).following w = false) (hlead : ∀ j, w = .img j → ((s.tile t).task w).fwd = false) :
    enterLine s t w = enterFetched s t w ((s.tile t).task w).pc := by
  have hopen : (s.tile t).lineOpen ((s.tile t).task w).pc = false := by rw [Tile.lineOpen, hl]
  simp only [enterLine, hopen, hs, hpx, hf, Bool.not_true, Bool.and_false, Bool.or_self, Bool.false_eq_true, if_false]
  cases w with
  | img j => exact if_neg (by simp [hlead j rfl])
  | lvl1 => rfl
  | hnd => rfl

/-- With no older version buffered, the line is the store's. -/
theorem lineAt_of_none (hl : (s.tile t).line = none) (hs : (s.tile t).stale = []) (pc : Word) :
    lineAt s t pc = (s, istoreLine s t (pc.toNat / 8)) := by
  rw [lineAt, hl]
  simp only [fetchLine, hs, List.filter_nil, List.map_nil]

theorem enterFetched_of_fault {pc : Word} {c : Cause} (hl : lineAt s t pc = (s, l))
    (hc : l.entryFault (pc.toNat % 8) (s.tile t).checkTo = some c) :
    enterFetched s t w pc = .faulted (trapNow s t w c (if c == .badtgt then pc else 0) pc false false false false) := by
  simp only [enterFetched, hl, hc]

theorem enterFetched_of_ready {pc : Word} (hl : lineAt s t pc = (s, l)) (hc : l.entryFault (pc.toNat % 8) (s.tile t).checkTo = none) :
    enterFetched s t w pc = .ready (s.modTile t fun u =>
      { u with line := some { no := pc.toNat / 8, line := l, entered := true }, checkTo := false }) := by
  simp only [enterFetched, hl, hc]

end Entering

/-! ### The instruction there -/

section Running
variable {run : Instr → State → Host.Outcome State Fault Refusal} {s s' : State} {t : Nat} {w : Who} {lb : LineBuf}

theorem issueNext_of_ready (hw : (s.tile s.cur).active = some w) (he : enterLine s s.cur w = .ready s')
    (hl : (s'.tile s.cur).line = some lb) : issueNext run s = runSlot run s' s.cur w lb := by
  simp only [issueNext, hw, he, hl]

theorem issueNext_of_faulted (hw : (s.tile s.cur).active = some w) (he : enterLine s s.cur w = .faulted s') :
    issueNext run s = .next s' := by
  simp only [issueNext, hw, he]

/-- What comes of the outcome of a slot: a pair that it begins waits where its second member has to (spec/10 R164). -/
def pairOutcome (run : Instr → State → Host.Outcome State Fault Refusal) (second : Bool) (s : State) (t : Nat) (w : Who) (lb : LineBuf)
    (o : Host.Outcome State Fault Refusal) : Host.Outcome State Fault Refusal :=
  match o with
  | .next s' =>
    if second || !(s'.tile t).pairNext then .next s'
    else if pairTakes run s s' t w lb then .next (s.modTile t fun u => { u with cyc := u.cyc + 1, held := true })
    else .next ((pairWait run s t w lb).getD s')
  | o => o

variable {pc : Word} {second : Bool} (hpc : ((s.tile t).task w).pc = pc) (hs : (s.tile t).pairNext = second)
include hpc hs

theorem runSlot_of_ok {i : Instr} (hd : decodeWord (lb.line.slot (pc.toNat % 8)) = .ok i) :
    runSlot run s t w lb = pairOutcome run second s t w lb (run i s) := by
  subst hpc hs
  rw [runSlot, runHere, hd]
  rfl

theorem runSlot_of_error {e : DecodeError} (hd : decodeWord (lb.line.slot (pc.toNat % 8)) = .error e) :
    runSlot run s t w lb = pairOutcome run second s t w lb (.next (unassigned s t w)) := by
  subst hpc hs
  rw [runSlot, runHere, hd]
  rfl

end Running

/-! ### The step of a core's next instruction -/

/-- The state in which the step of core `t`'s next instruction begins. -/
def turnOf (s : State) (t : Nat) : State := { noteTurn s t with cur := t, sel := 0 }

section Step
variable {s : State} {t : Nat} {w : Who} {lb : LineBuf}
variable (hm : moves exec s = [{ cur := t, i := none }]) (hi : s.inputs = []) (hw : ((turnOf s t).tile t).active = some w)
include hm hi

theorem step_eq_issueNext : step s = issueNext exec (turnOf s t) := step_of_one hm hi

include hw

theorem step_of_open (hl : ((turnOf s t).tile t).line = some lb) (he : lb.entered = true)
    (hn : lb.no = (((turnOf s t).tile t).task w).pc.toNat / 8) : step s = runSlot exec (turnOf s t) t w lb :=
  (step_eq_issueNext hm hi).trans (issueNext_of_ready hw (enterLine_of_open hl he hn) hl)

section Plain
variable (hl : ((turnOf s t).tile t).line = none) (hstale : ((turnOf s t).tile t).stale = [])
  (hstatus : ((turnOf s t).tile t).noStatus w = true) (hpx : ((turnOf s t).tile t).pxHolds w = false)
  (hf : ((turnOf s t).tile t).following w = false) (hlead : ∀ j, w = .img j → (((turnOf s t).tile t).task w).fwd = false)
include hl hstale hstatus hpx hf hlead

/-- A failing check of the line is the step's fault (spec/10 R163). -/
theorem step_of_lineFault {pc : Word} {c : Cause} (hpc : (((turnOf s t).tile t).task w).pc = pc)
    (hc : (istoreLine (turnOf s t) t (pc.toNat / 8)).entryFault (pc.toNat % 8) ((turnOf s t).tile t).checkTo = some c) :
    step s = .next (trapNow (turnOf s t) t w c (if c == .badtgt then pc else 0) pc false false false false) := by
  subst hpc
  exact (step_eq_issueNext hm hi).trans (issueNext_of_faulted hw
    ((enterLine_of_plain hl hstatus hpx hf hlead).trans (enterFetched_of_fault (lineAt_of_none hl hstale _) hc)))

/-- The line whose checks pass stands open, and its instruction runs. -/
theorem step_of_entered {pc : Word} (hpc : (((turnOf s t).tile t).task w).pc = pc)
    (hc : (istoreLine (turnOf s t) t (pc.toNat / 8)).entryFault (pc.toNat % 8) ((turnOf s t).tile t).checkTo = none)
    (hlb : lb = { no := pc.toNat / 8, line := istoreLine (turnOf s t) t (pc.toNat / 8), entered := true }) :
    step s = runSlot exec ((turnOf s t).modTile t fun u => { u with line := some lb, checkTo := false }) t w lb := by
  subst hpc hlb
  refine (step_eq_issueNext hm hi).trans (issueNext_of_ready hw
    ((enterLine_of_plain hl hstatus hpx hf hlead).trans (enterFetched_of_ready (lineAt_of_none hl hstale _) hc)) ?_)
  exact congrArg Tile.line (State.modTile_tile_same ..)

end Plain
end Step

section EntryFault
variable {l : Line} {slot : Nat} {checked : Bool}

theorem entryFault_parity (hp : l.parityOk = false) : l.entryFault slot checked = some .ipar := by
  simp [Line.entryFault, hp]

theorem entryFault_shape (hp : l.parityOk = true) (hs : l.shapeOk = false) : l.entryFault slot checked = some .illeg := by
  simp [Line.entryFault, hp, hs]

theorem entryFault_target (hp : l.parityOk = true) (hs : l.shapeOk = true) (hc : checked = true) (ht : l.tgt slot = false) :
    l.entryFault slot checked = some .badtgt := by
  simp [Line.entryFault, hp, hs, hc, ht]

theorem entryFault_none (hp : l.parityOk = true) (hs : l.shapeOk = true) (h : checked = false ∨ l.tgt slot = true) :
    l.entryFault slot checked = none := by
  rcases h with h | h <;> simp [Line.entryFault, hp, hs, h]

end EntryFault

/-! ### A word of an unassigned major -/

section Unassigned
variable {s : State} {t : Nat} {w : Who}

theorem unassigned_of_pxHolds (h : (s.tile t).pxHolds w = true) : unassigned s t w = holdTask s t w none := if_pos h

theorem unassigned_of_late (h : (s.tile t).pxHolds w = false) {l : Late}
    (hl : lateHere ((s.tile t).task w) ((s.tile t).task w).late (s.tile t).atLine 0 [] false false = some l) :
    unassigned s t w = takeLate s t w l := by
  simp only [unassigned, h, hl, Bool.false_eq_true, if_false]

theorem unassigned_of_none (h : (s.tile t).pxHolds w = false)
    (hl : lateHere ((s.tile t).task w) ((s.tile t).task w).late (s.tile t).atLine 0 [] false false = none) :
    unassigned s t w = trapNow s t w .illeg 0 ((s.tile t).task w).pc false false false false := by
  simp only [unassigned, h, hl, Bool.false_eq_true, if_false]

end Unassigned

/-- Settles O52: the one move of the state is the core's instruction, whose line stands open or is entered with its checks. -/
theorem stepRunsTheDecodedInstruction : Obligations.StepRunsTheDecodedInstruction := by
  unfold Obligations.StepRunsTheDecodedInstruction
  refine ⟨fun s t w hm hi hw => ⟨fun lb hl he hn => ?opened, fun hl hstale hstatus hpx hf hlead => ?entering⟩,
    fun s t w => ⟨unassigned_of_pxHolds, fun h => ⟨fun _ => unassigned_of_late h, unassigned_of_none h⟩⟩,
    fun s m r => step_of_many, fun s n => step_of_one, fun s => step_of_none, fun s => moves_of_halted⟩
  case opened =>
    have hstep := step_of_open hm hi hw hl he hn
    exact ⟨fun i hd => hstep.trans (runSlot_of_ok rfl rfl hd), fun e hd => hstep.trans (runSlot_of_error rfl rfl hd)⟩
  case entering =>
    have hfault {c : Cause} := step_of_lineFault (c := c) hm hi hw hl hstale hstatus hpx hf hlead rfl
    refine ⟨fun hp => hfault (entryFault_parity hp), fun hp hs => hfault (entryFault_shape hp hs),
      fun hp hs hc ht => hfault (entryFault_target hp hs hc ht), fun hp hs h => ?_⟩
    have hstep := step_of_entered hm hi hw hl hstale hstatus hpx hf hlead rfl (entryFault_none hp hs h) rfl
    have hopen := State.modTile_tile_same (turnOf s t) t fun u =>
      { u with line := some { no := (u.task w).pc.toNat / 8, line := istoreLine (turnOf s t) t ((u.task w).pc.toNat / 8), entered := true }
               checkTo := false }
    have hpc := congrArg (fun u => (u.task w).pc) hopen
    have hnext := congrArg Tile.pairNext hopen
    exact ⟨fun i hd => hstep.trans (runSlot_of_ok hpc hnext hd), fun e hd => hstep.trans (runSlot_of_error hpc hnext hd)⟩

end Sys2Proof.Machine
end

section
/-!
SUPPORT. The scalar instructions of fixed latency: what the body of each leaves, and the arithmetic of Table 2 and of the bit fields
(spec/12 R201 to R213).
-/

namespace Sys2Proof

/-! ### The n-bit pattern of an integer -/

theorem wrap_natCast (n m : Nat) : wrap n m = m % 2 ^ n := by
  rw [wrap, ← Int.natCast_mod, Int.toNat_natCast]

/-- A difference of patterns is taken by adding the complement of its second term (spec/12 Table 2). -/
theorem wrap_natCast_sub {n b : Nat} (a : Nat) (hb : b ≤ 2 ^ n) : wrap n ((a : Int) - b) = (a + (2 ^ n - b)) % 2 ^ n := by
  have h : ((a + (2 ^ n - b) : Nat) : Int) = a - b + (2 ^ n : Nat) := by omega
  rw [← wrap_natCast, h, wrap, wrap, Int.add_emod_right]

/-- A pattern whose highest bit is set stands for a negative number. -/
theorem sgn_of_high {n v : Nat} (hl : 2 ^ (n - 1) ≤ v) (hu : v < 2 ^ n) : sgn n v = (v : Int) - (2 ^ n : Nat) := by
  rw [sgn, Nat.mod_eq_of_lt hu, if_neg (Nat.not_lt.mpr hl)]

/-! ### The fields of a word -/

/-- A number with a field replaced: the bits above the field, its new value `f` and the bits below it. -/
theorem sub_field_add (x lo n f : Nat) : x - x / 2 ^ lo % 2 ^ n * 2 ^ lo + f * 2 ^ lo
    = 2 ^ lo * (2 ^ n * (x / 2 ^ lo / 2 ^ n) + f) + x % 2 ^ lo := by
  have hx := Nat.div_add_mod x (2 ^ lo)
  have hf := congrArg (2 ^ lo * ·) (Nat.div_add_mod (x / 2 ^ lo) (2 ^ n))
  simp only [Nat.mul_add] at hf ⊢
  rw [Nat.mul_comm (x / 2 ^ lo % 2 ^ n), Nat.mul_comm f]
  omega

/-- A replaced field holds the new value, and every other bit is as before (spec/12 R203). -/
theorem getLsbD_setField (x : Word) {hi lo i : Nat} (v : Nat) (hi64 : i < 64) (hlo : lo ≤ hi) :
    (setField x hi lo v).getLsbD i = if lo ≤ i ∧ i ≤ hi then v.testBit (i - lo) else x.getLsbD i := by
  simp only [setField, sub_field_add, BitVec.getLsbD_ofNat, hi64, decide_true, Bool.true_and]
  rw [Nat.testBit_two_pow_mul_add _ (Nat.mod_lt _ (Nat.two_pow_pos lo)),
    Nat.testBit_two_pow_mul_add _ (Nat.mod_lt v (Nat.two_pow_pos (hi + 1 - lo)))]
  rcases Nat.lt_or_ge i lo with hbelow | hfrom
  · rw [if_pos hbelow, if_neg (by omega), Nat.testBit_mod_two_pow, decide_eq_true hbelow, Bool.true_and]
    rfl
  rw [if_neg (Nat.not_lt.mpr hfrom)]
  rcases Nat.lt_or_ge hi i with habove | hto
  · rw [if_neg (by omega), if_neg (by omega), Nat.testBit_div_two_pow, Nat.testBit_div_two_pow]
    exact congrArg x.toNat.testBit (by omega)
  · rw [if_pos (by omega), if_pos ⟨hfrom, hto⟩, Nat.testBit_mod_two_pow, decide_eq_true (by omega), Bool.true_and]

end Sys2Proof

namespace Sys2Proof.Machine

open Sys2Proof

/-! ### From the body of an instruction to its outcome -/

/-- The instructions `i f` are issued with one form, and `body` is their effect. -/
def Performs (i : Fields → Instr) (body : In → State → Body.Out) : Prop :=
  ∃ m : Form, ∀ f, (i f).word?.map (·.2) = some f ∧ (i f).form? = some m ∧ ∀ s, exec (i f) s = issue (i f) m f body s

section Performs
variable {i : Fields → Instr} {body : In → State → Body.Out} (hp : Performs i body)
include hp

theorem Performs.gives {cond : In → State → Prop} {out : In → State → State × After} (hb : ∀ x s, cond x s → body x s = .ok (out x s)) :
    Gives i cond out := by
  obtain ⟨k, h⟩ := hp
  exact gives_of (fun _ => k) (fun _ => body) (fun f => (h f).1) (fun f => (h f).2.1) (fun f => (h f).2.2) hb

theorem Performs.results {out : In → State → State} (hb : ∀ x s, body x s = goOn (out x s)) : Results i out :=
  hp.gives fun x s _ => hb x s

/-- An instruction that issues and whose body holds waits where it stands. -/
theorem Performs.holds {s : State} {w : Who} {m : Form} {f : Fields} {s1 : State} {x : In} {on : Option WaitOn}
    (hi : Issues s w (i f) m f s1 x) (hb : body x s1 = .error (.hold on)) : exec (i f) s = .next (holdTask s s.cur w on) := by
  obtain ⟨k, h⟩ := hp
  obtain ⟨-, hform, hexec⟩ := h f
  cases hform.symm.trans hi.form
  exact (hexec s).trans (issue_of_stops hi hb)

end Performs

/-! ### Integer instructions -/

theorem In.av_lt (x : In) : x.av < 2 ^ x.f.ty.bits := Nat.mod_lt _ (Nat.two_pow_pos _)

theorem In.bv_lt (x : In) : x.bv < 2 ^ x.f.ty.bits := Nat.mod_lt _ (Nat.two_pow_pos _)

/-- ANDN keeps the bits of A that are clear in B (spec/12 Table 2). -/
theorem land_complement {n a b : Nat} (ha : a < 2 ^ n) (hb : b < 2 ^ n) :
    Nat.land a (2 ^ n - 1 - b) = (BitVec.ofNat n a &&& ~~~BitVec.ofNat n b).toNat := by
  rw [BitVec.toNat_and, BitVec.toNat_not, BitVec.toNat_ofNat, BitVec.toNat_ofNat, Nat.mod_eq_of_lt ha, Nat.mod_eq_of_lt hb]
  rfl

/-- Settles O1: the body of each instruction is its result; SUB and ANDN need the arithmetic of their formula. -/
theorem integerInstructionsGiveTheirValue : Obligations.IntegerInstructionsGiveTheirValue := by
  unfold Obligations.IntegerInstructionsGiveTheirValue
  refine ⟨?add, ?addi, ?sub, ?mul, ?mulh, ?mulhn, ?and, ?or, ?xor, ?andn, ?shl, ?shr, ?sar, ?rol, ?clz, ?ctz, ?popc, ?min, ?max, ?minn,
    ?maxn, ?mov, ?movi, ?sel, ?nop, ?zeroWord⟩
  case sub =>
    refine Performs.results ⟨_, fun _ => ⟨rfl, rfl, fun _ => rfl⟩⟩ fun x s => ?_
    rw [wrap_natCast_sub x.av x.bv_lt.le]
    rfl
  case andn =>
    refine Performs.results ⟨_, fun _ => ⟨rfl, rfl, fun _ => rfl⟩⟩ fun x s => ?_
    rw [← land_complement x.av_lt x.bv_lt]
    rfl
  case zeroWord => exact ⟨_, rfl, rfl, rfl, rfl⟩
  all_goals exact Performs.results ⟨_, fun _ => ⟨rfl, rfl, fun _ => rfl⟩⟩ fun _ _ => rfl

/-- Settles O2: the body of each instruction is its result; then the bits of a replaced field. -/
theorem fieldAndMoveInstructionsGiveTheirValue : Obligations.FieldAndMoveInstructionsGiveTheirValue := by
  unfold Obligations.FieldAndMoveInstructionsGiveTheirValue
  refine ⟨⟨?sext, ?zext, ?bfx, ?bfxn, ?bfi, ?movh, ?movhTop⟩, fun x hi lo v i hlo _ hi64 => getLsbD_setField x v hi64 hlo⟩
  all_goals exact Performs.results ⟨_, fun _ => ⟨rfl, rfl, fun _ => rfl⟩⟩ fun _ _ => rfl

/-! ### Compares -/

section Compares
variable (x : In) (s : State) (c : Bool)

/-- What a compare writes to predicate `r`: its value for minor 0 to 3, combined with the old one by AND for 4 to 7, by OR above
(spec/12 R205). -/
theorem compareWrites_plain (h : x.f.minor.toNat < 4) :
    compareWrites x s c = [(x.f.dest.toNat, ofB c), (x.f.c.toNat, ofB !c)] := by
  simp only [compareWrites, Nat.div_eq_of_lt h]

theorem compareWrites_and (h4 : 4 ≤ x.f.minor.toNat) (h8 : x.f.minor.toNat < 8) :
    compareWrites x s c = [(x.f.dest.toNat, ofB ((readReg s x.t x.w x.f.dest.toNat).getLsbD 0 && c)),
      (x.f.c.toNat, ofB ((readReg s x.t x.w x.f.c.toNat).getLsbD 0 && !c))] := by
  have hk : x.f.minor.toNat / 4 = 1 := by omega
  simp only [compareWrites, hk, bit]

theorem compareWrites_or (h8 : 8 ≤ x.f.minor.toNat) :
    compareWrites x s c = [(x.f.dest.toNat, ofB ((readReg s x.t x.w x.f.dest.toNat).getLsbD 0 || c)),
      (x.f.c.toNat, ofB ((readReg s x.t x.w x.f.c.toNat).getLsbD 0 || !c))] := by
  obtain ⟨k, hk⟩ : ∃ k, x.f.minor.toNat / 4 = k + 2 := ⟨x.f.minor.toNat / 4 - 2, by omega⟩
  simp only [compareWrites, hk, bit]

end Compares

/-- Settles O3: the body of each instruction is its writes; then the writes of a compare by its minor. -/
theorem comparesAndPredicatesWriteTheirPredicates : Obligations.ComparesAndPredicatesWriteTheirPredicates := by
  unfold Obligations.ComparesAndPredicatesWriteTheirPredicates
  refine ⟨?cmp, ?cmpi, ?fcmp, ?pset, ?plog,
    fun x s c => ⟨compareWrites_plain x s c, compareWrites_and x s c, compareWrites_or x s c⟩⟩
  all_goals exact Performs.results ⟨_, fun _ => ⟨rfl, rfl, fun _ => rfl⟩⟩ fun _ _ => rfl

/-- Settles O4: the body of each instruction is its result and flags. -/
theorem floatInstructionsGiveTheirValue : Obligations.FloatInstructionsGiveTheirValue := by
  unfold Obligations.FloatInstructionsGiveTheirValue
  refine ⟨?fadd, ?fsub, ?fmul, ?ffma, ?fmin, ?fmax, ?fabs, ?fneg, ?fcvt, ?ftoi, ?itof, ?fclass⟩
  all_goals exact Performs.results ⟨_, fun _ => ⟨rfl, rfl, fun _ => rfl⟩⟩ fun _ _ => rfl

end Sys2Proof.Machine
end

section
/-!
SUPPORT. The divider: what enters it and waits for it, what it delivers, and the quotient and remainder of Table 3 (spec/12 R202).
-/

namespace Sys2Proof.Machine

open Sys2Proof

section Divider
variable (x : In) (s : State) (v : Word) (fl : Nat)

theorem startDivider_of_free (h : (s.tile x.t).divider = none) :
    startDivider x s v fl = goOn (s.modTile x.t fun u =>
      { u.modTask x.w (·.raise x.f.setc.toNat) with
        divider := some { who := x.w, tag := x.seq, writes := realWrites [(x.f.dest.toNat, v)], flags := fl, lower := x.f.setc.toNat } }) := by
  rw [startDivider, h]
  rfl

theorem startDivider_of_busy (h : (s.tile x.t).divider.isSome = true) : startDivider x s v fl = .error (.hold none) := if_pos h

end Divider

/-- The instructions `i f` hand the divider their value and flags (spec/12 R202, R209). -/
def Divides (i : Fields → Instr) (r : In → Word × Nat) : Prop := Performs i fun x s => startDivider x s (r x).1 (r x).2

theorem div_divides : Divides .div fun x =>
    (extendLoad x.f.ty (divide true x.f.ty.bits x.av x.bv).1, (divide true x.f.ty.bits x.av x.bv).2.2) :=
  ⟨_, fun _ => ⟨rfl, rfl, fun _ => rfl⟩⟩

theorem divn_divides : Divides .divn fun x =>
    (extendLoad x.f.ty (divide false x.f.ty.bits x.av x.bv).1, (divide false x.f.ty.bits x.av x.bv).2.2) :=
  ⟨_, fun _ => ⟨rfl, rfl, fun _ => rfl⟩⟩

theorem rem_divides : Divides .rem fun x =>
    (extendLoad x.f.ty (divide true x.f.ty.bits x.av x.bv).2.1, (divide true x.f.ty.bits x.av x.bv).2.2) :=
  ⟨_, fun _ => ⟨rfl, rfl, fun _ => rfl⟩⟩

theorem remn_divides : Divides .remn fun x =>
    (extendLoad x.f.ty (divide false x.f.ty.bits x.av x.bv).2.1, (divide false x.f.ty.bits x.av x.bv).2.2) :=
  ⟨_, fun _ => ⟨rfl, rfl, fun _ => rfl⟩⟩

theorem fdiv_divides : Divides .fdiv fun x =>
    (extendLoad x.f.ty (fdivV (fmtOf x.f.ty) x.rm x.fa x.fb).1, (fdivV (fmtOf x.f.ty) x.rm x.fa x.fb).2) :=
  ⟨_, fun _ => ⟨rfl, rfl, fun _ => rfl⟩⟩

theorem fsqrt_divides : Divides .fsqrt fun x =>
    (extendLoad x.f.ty (fsqrtV (fmtOf x.f.ty) x.rm x.fa).1, (fsqrtV (fmtOf x.f.ty) x.rm x.fa).2) :=
  ⟨_, fun _ => ⟨rfl, rfl, fun _ => rfl⟩⟩

/-- The instructions that the one divider serves. -/
theorem divides_of_mem {i : Fields → Instr} (hi : i ∈ [Instr.div, .divn, .rem, .remn, .fdiv, .fsqrt]) : ∃ r, Divides i r := by
  simp only [List.mem_cons, List.not_mem_nil, or_false] at hi
  rcases hi with rfl | rfl | rfl | rfl | rfl | rfl
  exacts [⟨_, div_divides⟩, ⟨_, divn_divides⟩, ⟨_, rem_divides⟩, ⟨_, remn_divides⟩, ⟨_, fdiv_divides⟩, ⟨_, fsqrt_divides⟩]

section Divides
variable {i : Fields → Instr} {r : In → Word × Nat} (hd : Divides i r)
include hd

theorem Divides.starts : Gives i (fun x s => (s.tile x.t).divider = none) fun x s =>
    (s.modTile x.t fun u =>
      { u.modTask x.w (·.raise x.f.setc.toNat) with
        divider := some { who := x.w, tag := x.seq, writes := realWrites [(x.f.dest.toNat, (r x).1)], flags := (r x).2,
                          lower := x.f.setc.toNat } }, .next) :=
  Performs.gives hd fun x s => startDivider_of_free x s (r x).1 (r x).2

theorem Divides.waits {s : State} {w : Who} {m : Form} {f : Fields} {s1 : State} {x : In} (hi : Issues s w (i f) m f s1 x)
    (hbusy : (s1.tile x.t).divider.isSome = true) : exec (i f) s = .next (holdTask s s.cur w none) :=
  Performs.holds hd hi (startDivider_of_busy x s1 (r x).1 (r x).2 hbusy)

end Divides

/-- A divider that holds a job delivers its result (spec/12 R202). -/
theorem exec_dividerCompletion {s : State} {j : Job} (h : (s.tile s.cur).divider = some j) :
    exec .dividerCompletion s = .next (wakeWaiting (s.modTile s.cur fun u =>
      { u with divider := none }.deliver j.who j.tag j.writes j.flags j.lower) s.cur) := by
  change execDividerCompletion s = _
  rw [execDividerCompletion, h]
  rfl

/-! ### Quotient and remainder (spec/12 Table 3) -/

theorem divide_zero (signed : Bool) (n a : Nat) : divide signed n a 0 = (2 ^ n - 1, a, flIDZ) := rfl

theorem divide_unsigned {n a b : Nat} (hb : b ≠ 0) : divide false n a b = (a / b, a - a / b * b, 0) := by
  rw [divide, if_neg hb, Nat.mod_eq_sub_div_mul]
  rfl

theorem divide_signed {n a b : Nat} (hb : b ≠ 0) :
    divide true n a b = (wrap n (Int.tdiv (sgn n a) (sgn n b)), wrap n (sgn n a - Int.tdiv (sgn n a) (sgn n b) * sgn n b), 0) := by
  rw [divide, if_neg hb]
  rfl

/-- The one quotient out of range: the most negative number by −1 wraps to itself. -/
theorem divide_min_neg_one {n : Nat} (hn : 1 ≤ n) : divide true n (2 ^ (n - 1)) (2 ^ n - 1) = (2 ^ (n - 1), 0, 0) := by
  have hp := Nat.two_pow_pred_add_two_pow_pred hn
  have h0 : 0 < 2 ^ (n - 1) := Nat.two_pow_pos (n - 1)
  have hmin : sgn n (2 ^ (n - 1)) = -(2 ^ (n - 1) : Nat) := by rw [sgn_of_high (by omega) (by omega)]; omega
  have hone : sgn n (2 ^ n - 1) = -1 := by rw [sgn_of_high (by omega) (by omega)]; omega
  have hwrap : wrap n (2 ^ (n - 1) : Nat) = 2 ^ (n - 1) := by rw [wrap_natCast, Nat.mod_eq_of_lt (by omega)]
  have hrem : -((2 ^ (n - 1) : Nat) : Int) - (2 ^ (n - 1) : Nat) * -1 = (0 : Nat) := by omega
  rw [divide_signed (by omega), hmin, hone, Int.tdiv_neg, Int.tdiv_one, Int.neg_neg, hrem, hwrap, wrap_natCast, Nat.zero_mod]

/-- Settles O5: each instruction hands the divider its value, or waits for it; then the completion and the arithmetic of Table 3. -/
theorem divisionsRunInTheDivider : Obligations.DivisionsRunInTheDivider := by
  unfold Obligations.DivisionsRunInTheDivider
  refine ⟨⟨?div, ?divn, ?rem, ?remn, ?fdiv, ?fsqrt⟩, ?busy, divide_zero, fun n => divide_min_neg_one,
    fun n a b hb => ⟨divide_unsigned hb, divide_signed hb⟩, fun s j => exec_dividerCompletion⟩
  case div => exact div_divides.starts
  case divn => exact divn_divides.starts
  case rem => exact rem_divides.starts
  case remn => exact remn_divides.starts
  case fdiv => exact fdiv_divides.starts
  case fsqrt => exact fsqrt_divides.starts
  case busy =>
    intro i hi s w m f s1 x hissues
    obtain ⟨r, hd⟩ := divides_of_mem hi
    exact hd.waits hissues

end Sys2Proof.Machine
end

section
/-!
SUPPORT. The block instructions of fixed latency: what the body of each leaves (spec/13 R225 to R242).
-/

namespace Sys2Proof.Machine

open Sys2Proof

/-! ### From the body of a block instruction to its outcome -/

/-- As `Performs`, of instructions whose form and effect depend on their fields: the type and the extent of a block instruction decide
its beats and its latency (spec/10 R180). -/
def PerformsBy (i : Fields → Instr) (k : Fields → Form) (body : Fields → In → State → Body.Out) : Prop :=
  ∀ f, (i f).word?.map (·.2) = some f ∧ (i f).form? = some (k f) ∧ ∀ s, exec (i f) s = issue (i f) (k f) f (body f) s

theorem PerformsBy.results {i : Fields → Instr} {k : Fields → Form} {body : Fields → In → State → Body.Out} {out : In → State → State}
    (hp : PerformsBy i k body) (hb : ∀ x s, body x.f x s = goOn (out x s)) : Results i out :=
  gives_of k body (fun f => (hp f).1) (fun f => (hp f).2.1) (fun f => (hp f).2.2) fun x s _ => hb x s

/-! ### Shifts -/

/-- A block shift takes its amount from its immediate for minor 1, and else from the elements of source b (spec/13 R226). -/
theorem blockShift_eq (g : Nat → Nat → Nat → Nat) (x : In) (s : State) :
    blockShift g x s = goOn (if x.f.minor = 1
      then blockMap s x (beats4 x.f) 1 [x.f.a.toNat] fun k => map1 x.f.ty.bits (fun a => (g x.f.ty.bits a (x.f.imm20 % 64), 0))
        (blockWord s x x.f.a.toNat (beats4 x.f) k)
      else blockMap s x (beats4 x.f) 1 [x.f.a.toNat, x.f.b.toNat] fun k =>
        map2 x.f.ty.bits (fun a b => (g x.f.ty.bits a (b % x.f.ty.bits), 0))
          (blockWord s x x.f.a.toNat (beats4 x.f) k) (blockWord s x x.f.b.toNat (beats4 x.f) k)) :=
  (apply_ite goOn _ _ _).symm

/-! ### The statements -/

/-- Settles O6: the body of each instruction is the block of its elements; a shift's goes by its minor. -/
theorem blockArithmeticGivesItsElements : Obligations.BlockArithmeticGivesItsElements := by
  unfold Obligations.BlockArithmeticGivesItsElements
  refine ⟨?vadd, ?vsub, ?vmul, ?vfma, ?vfms, ?vmin, ?vmax, ?vabs, ?vneg, ?vand, ?vor, ?vxor, ?vnot, ?vshl, ?vshr, ?vsar⟩
  case vshl => exact PerformsBy.results (fun _ => ⟨rfl, rfl, fun _ => rfl⟩) (blockShift_eq fun n a k => a * 2 ^ k % 2 ^ n)
  case vshr => exact PerformsBy.results (fun _ => ⟨rfl, rfl, fun _ => rfl⟩) (blockShift_eq fun _ a k => a / 2 ^ k)
  case vsar => exact PerformsBy.results (fun _ => ⟨rfl, rfl, fun _ => rfl⟩) (blockShift_eq sarN)
  all_goals exact PerformsBy.results (fun _ => ⟨rfl, rfl, fun _ => rfl⟩) fun _ _ => rfl

/-- Settles O7: the body of each instruction is its block of words, or the one element of VGET and VPUT. -/
theorem blockMovesGiveTheirWords : Obligations.BlockMovesGiveTheirWords := by
  unfold Obligations.BlockMovesGiveTheirWords
  refine ⟨?vcmp, ?vsel, ?vmov, ?vbcast, ?vget, ?vput, ?vperm, ?vtrn⟩
  all_goals exact PerformsBy.results (fun _ => ⟨rfl, rfl, fun _ => rfl⟩) fun _ _ => rfl

/-- Settles O9: the body of each function, conversion and quantisation is its block or its run, and of each random instruction its
values, the counter's new value written with them by an `.inc` form. -/
theorem blockFunctionsRunsAndConversionsGiveTheirValues : Obligations.BlockFunctionsRunsAndConversionsGiveTheirValues := by
  unfold Obligations.BlockFunctionsRunsAndConversionsGiveTheirValues
  refine ⟨⟨⟨?vrcp, ?vrsq, ?vexp2, ?vlog2, ?vtanh⟩, ?vcvt, ?vrnd⟩, ⟨?vdq, ?vqblk, ?msca, ?rand, ?randInc, ?vrand, ?vrandInc⟩⟩
  all_goals exact PerformsBy.results (fun _ => ⟨rfl, rfl, fun _ => rfl⟩) fun _ _ => rfl

end Sys2Proof.Machine
end

section
/-!
SUPPORT. The reduction unit: what enters it, and what it delivers (spec/13 R231, R232).
-/

namespace Sys2Proof.Machine

open Sys2Proof

theorem startReduction_of_free {x : In} {s : State} (h : (s.tile x.t).reduction = none) (ws : List (Nat × Word)) (fl : Nat) :
    startReduction x s ws fl = goOn (s.modTile x.t fun u =>
      { u.modTask x.w (·.raise x.f.setc.toNat) with
        reduction := some { who := x.w, tag := x.seq, writes := ws, reads := (blockRegs x.f.a.toNat x.f.h x.f.wd).map wId, flags := fl,
                            lower := x.f.setc.toNat } }) := by
  rw [startReduction, h]
  rfl

/-- A reduction unit that holds an operation delivers its results (spec/13 R232). -/
theorem exec_reductionCompletion {s : State} (h : (s.tile s.cur).reduction.isSome) :
    exec .reductionCompletion s = .next (wakeWaiting (s.modTile s.cur fun u => u.finishReduction) s.cur) :=
  if_neg (mt Option.isNone_iff_eq_none.mp (Option.isSome_iff_ne_none.mp h))

/-- Settles O8: each instruction hands the unit the results of its chains; then the two equations of a chain and the unit's completion. -/
theorem reductionsFollowTheirChain : Obligations.ReductionsFollowTheirChain := by
  unfold Obligations.ReductionsFollowTheirChain
  refine ⟨⟨?vredr, ?vredc, ?vscan⟩, fun _ _ _ _ => ⟨rfl, rfl⟩, fun _ => exec_reductionCompletion⟩
  all_goals exact Performs.gives ⟨_, fun _ => ⟨rfl, rfl, fun _ => rfl⟩⟩ fun _ _ hfree => startReduction_of_free hfree _ _

end Sys2Proof.Machine
end

section
/-!
SUPPORT. The matrix array at work: its accumulators, what the end of a queued instruction leaves, and its events (spec/14 R246 to R255).
-/

namespace Sys2Proof.Machine

open Sys2Proof

/-! ### Accumulators and the row pass -/

section Accumulators
variable (m : Matrix) (mac i : Nat) (v : BitVec 48)

@[simp] theorem Matrix.setAcc_accAt_same : (m.setAcc mac i v).accAt mac i = v := Sparse.get_set_same ..

theorem Matrix.setAcc_accAt_other {mac' i' : Nat} (h : (mac', i' % 8192) ≠ (mac, i % 8192)) :
    (m.setAcc mac i v).accAt mac' i' = m.accAt mac' i' := by
  refine Sparse.get_set_other _ _ (fun hkey => h ?_) v
  rw [Prod.mk.injEq]
  omega

end Accumulators

section RowPass
variable {x : Nat} {g : BitVec 48 → Nat → BitVec 48}

/-- One write to each of `n` consecutive accumulators: one at which none of them goes keeps its value. -/
theorem foldl_setAcc_outside (mac j : Nat) : ∀ (n : Nat) (m : Matrix), (∀ q < n, (x + q) % 8192 ≠ j % 8192) →
    ((List.range n).foldl (fun a q => a.setAcc mac (x + q) (g (a.accAt mac (x + q)) q)) m).accAt mac j = m.accAt mac j
  | 0, _, _ => rfl
  | n + 1, m, h => by
    rw [List.range_succ, List.foldl_append, List.foldl_cons, List.foldl_nil, Matrix.setAcc_accAt_other]
    · exact foldl_setAcc_outside mac j n m fun q hq => h q (by omega)
    · exact fun he => h n (by omega) (Prod.mk.inj he).2.symm

/-- Of at most as many as there are, each is written from its own value before. -/
theorem foldl_setAcc_inside (mac : Nat) {q : Nat} : ∀ (n : Nat) (m : Matrix), q < n → n ≤ 8192 →
    ((List.range n).foldl (fun a q => a.setAcc mac (x + q) (g (a.accAt mac (x + q)) q)) m).accAt mac (x + q)
      = g (m.accAt mac (x + q)) q
  | n + 1, m, hq, hn => by
    rw [List.range_succ, List.foldl_append, List.foldl_cons, List.foldl_nil]
    by_cases hlast : q = n
    · subst hlast
      rw [Matrix.setAcc_accAt_same, foldl_setAcc_outside mac (x + q) q m fun j hj => by omega]
    · rw [Matrix.setAcc_accAt_other _ _ _ _ fun he => by have := (Prod.mk.inj he).2; omega]
      exact foldl_setAcc_inside mac n m (by omega) (by omega)

end RowPass

/-- A row pass writes, or adds, the partial sum of its place (spec/14 R246). -/
theorem Matrix.rowPass_accAt (m : Matrix) (mac e x : Nat) {q : Nat} (add : Bool) (hq : q < columnsOf (m.tyOfB mac) * m.groupsK)
    (hn : columnsOf (m.tyOfB mac) * m.groupsK ≤ 8192) :
    (m.rowPass mac e x add).accAt mac (x + q) =
      let n := columnsOf (m.tyOfB mac)
      let p := BitVec.ofInt 48 (m.partial_ mac e (q / n) (q % n))
      if add then m.accAt mac (x + q) + p else p :=
  foldl_setAcc_inside (g := fun old q =>
    let n := columnsOf (m.tyOfB mac)
    let p := BitVec.ofInt 48 (m.partial_ mac e (q / n) (q % n))
    if add then old + p else p) mac _ m hq hn

/-! ### The end of waits -/

/-- Image i of a tile is ready and stands in the ready list. -/
def Tile.readied (u : Tile) (i : Nat) : Tile := { u.setCtx i { u.ctx i with st := .ready } with ready := u.ready ++ [.bound i] }

theorem Tile.readied_task (u : Tile) (i : Nat) (w : Who) : (u.readied i).task w = u.task w := by
  cases w with
  | img j =>
    by_cases h : j = i
    · subst h
      have hctx : (u.readied j).ctx j = { u.ctx j with st := .ready } := Tile.setCtx_ctx_same ..
      rw [Tile.task, hctx]
      rfl
    · exact congrArg Ctx.task (Tile.setCtx_ctx_other u h _)
  | lvl1 => rfl
  | hnd => rfl

/-- What every readying of an image of tile t keeps is kept as its waits end. -/
theorem wakeWaiting_keeps {P : State → Prop} {t : Nat} (hP : ∀ a i, P a → P (a.modTile t (·.readied i))) {s : State} (hs : P s) :
    P (wakeWaiting s t) := by
  refine foldl_keeps _ _ (fun a i _ ha => ?_) s hs
  dsimp only
  split
  · split
    · exact hP a i ha
    · exact ha
  · exact ha

section Waits
variable (s : State) (t : Nat)

theorem wakeWaiting_tile_other {k : Nat} (hk : k ≠ t) : (wakeWaiting s t).tile k = s.tile k :=
  wakeWaiting_keeps (P := fun a => a.tile k = s.tile k) (fun _ _ ha => (State.modTile_tile_other _ hk _).trans ha) rfl

theorem wakeWaiting_matrix : ((wakeWaiting s t).tile t).matrix = (s.tile t).matrix :=
  wakeWaiting_keeps (P := fun a => (a.tile t).matrix = (s.tile t).matrix) (fun a i ha => by
    rw [State.modTile_tile_same]
    exact ha) rfl

theorem wakeWaiting_task (w : Who) : ((wakeWaiting s t).tile t).task w = (s.tile t).task w :=
  wakeWaiting_keeps (P := fun a => (a.tile t).task w = (s.tile t).task w) (fun a i ha => by
    rw [State.modTile_tile_same, Tile.readied_task, ha]) rfl

end Waits

/-! ### The end of an instruction of the queue -/

/-- The instruction q is over: the array of tile t is `m`, the counter of q is lowered, and what waited for it is ready. -/
def endOfInstr (s : State) (t : Nat) (q : MQ) (m : Matrix) : State :=
  wakeWaiting (s.setTile t ({ s.tile t with matrix := m }.apply q.who q.tag (·.lower q.lower))) t

section EndOfInstr
variable (s : State) (t : Nat) (q : MQ) (m : Matrix)

theorem endOfInstr_tile_other {k : Nat} (hk : k ≠ t) : (endOfInstr s t q m).tile k = s.tile k :=
  (wakeWaiting_tile_other _ t hk).trans (State.setTile_tile_other s hk _)

theorem endOfInstr_matrix : ((endOfInstr s t q m).tile t).matrix = m := by
  rw [endOfInstr, wakeWaiting_matrix, State.setTile_tile_same]
  exact Tile.modTask_matrix ..

/-- The task of a level-0 instruction has its counter lowered. -/
theorem endOfInstr_task {i : Nat} (hq : q.who = .img i) :
    ((endOfInstr s t q m).tile t).task (.img i) = ((s.tile t).task (.img i)).lower q.lower := by
  rw [endOfInstr, wakeWaiting_task, State.setTile_tile_same, hq]
  exact congrArg Ctx.task (Tile.setCtx_ctx_same ..)

end EndOfInstr

/-- The head of the queue that the array has performed leaves it once nothing that it sent is outstanding (spec/14 R249). -/
theorem exec_matrixInstructionCompletion {s : State} {q : MQ} {r : List MQ} (hqueue : (s.tile s.cur).matrix.queue = q :: r)
    (hbusy : (s.tile s.cur).matrix.busy = true) (hout : ((s.tile s.cur).out.any fun o => o.tag = q.tag) = false) :
    exec .matrixInstructionCompletion s =
      .next (endOfInstr s s.cur q { (s.tile s.cur).matrix with queue := r, busy := false }) := by
  change execMatrixInstructionCompletion s = _
  simp only [execMatrixInstructionCompletion, hqueue, hbusy, hout]
  rfl

/-! ### Gangs -/

/-- The start of a gang leaves an MGANG at its barrier (spec/14 R254). -/
theorem gangStart_of_isGang {s : State} {m : Nat} {q : MQ} {r : List MQ} (lead : Option (Fields × List (List Byte)))
    (hqueue : (s.tile m).matrix.queue = q :: r) (hgang : q.isGang = true) : gangStart s m lead = clearGang s m := by
  have hhead : ((clearGang s m).tile m).matrix.queue = { q with gang := false } :: r := by
    rw [clearGang, modMatrix, State.modTile_tile_same, hqueue]
  obtain ⟨f, hi⟩ : ∃ f, q.i = .mgang f := by
    unfold MQ.isGang at hgang
    split at hgang
    · exact ⟨_, ‹_›⟩
    · cases hgang
  simp only [gangStart, hhead, hi]

/-- The MGANG at the head of the queue of m is over. -/
def passBarrier (s : State) (m : Nat) : State :=
  match (s.tile m).matrix.queue with
  | q :: r => endOfInstr s m q ({ (s.tile m).matrix with queue := r }.gangOver q.who r)
  | [] => s

theorem passBarrier_of_head {s : State} {m : Nat} {q : MQ} {r : List MQ} (h : (s.tile m).matrix.queue = q :: r) :
    passBarrier s m = endOfInstr s m q ({ (s.tile m).matrix with queue := r }.gangOver q.who r) := by
  rw [passBarrier, h]

theorem passBarrier_tile_other (s : State) {m k : Nat} (hk : k ≠ m) : (passBarrier s m).tile k = s.tile k := by
  unfold passBarrier
  split
  · exact endOfInstr_tile_other _ _ _ _ hk
  · rfl

/-- A barrier at which every member stands is over for each of them (spec/14 R254). -/
theorem exec_gangBarrierComplete {s : State} (hat : (s.tile s.cur).atBarrier = true) (hfirst : (gangTiles s s.cur).head? = some s.cur)
    (hall : ∀ m ∈ gangTiles s s.cur, (s.tile m).atBarrier = true ∧ sameGang s s.cur m = true) :
    exec .gangBarrierComplete s = .next ((gangTiles s s.cur).foldl passBarrier s) :=
  if_pos (by simpa [hat, hfirst] using hall)

/-- Where each step changes its own tile alone, the tile of a member holds, once all have had their steps, what its own step made of it. -/
theorem foldl_tile_of_mem {g : State → Nat → State} (hg : ∀ s m k, k ≠ m → (g s m).tile k = s.tile k) {k : Nat} :
    ∀ {l : List Nat} (s : State), l.Nodup → k ∈ l → ∃ s1, s1.tile k = s.tile k ∧ (l.foldl g s).tile k = (g s1 k).tile k
  | m :: l, s, hl, hk => by
    obtain ⟨hm, hl⟩ := List.nodup_cons.mp hl
    rcases List.mem_cons.mp hk with rfl | hk
    · exact ⟨s, rfl, foldl_keeps (P := fun a => a.tile k = (g s k).tile k) g l
        (fun a b hb ha => (hg a b k fun h => hm (h ▸ hb)).trans ha) _ rfl⟩
    · obtain ⟨s1, hbefore, hafter⟩ := foldl_tile_of_mem hg (g s m) hl hk
      exact ⟨s1, hbefore.trans (hg s m k fun h => hm (h ▸ hk)), hafter⟩

section GangOver
variable (m : Matrix) (i : Nat) (r : List MQ)

theorem Matrix.gangOver_queue (w : Who) : (m.gangOver w r).queue = m.queue := by
  unfold Matrix.gangOver
  split
  · split <;> rfl
  · rfl

/-- The next instruction of the stream is gang-issued where none of it stands in the rest of the queue. -/
theorem Matrix.gangOver_gangNext (hi : i < 8) :
    (m.gangOver (.img i) r).gangNext.getLsbD i = (m.gangNext.getLsbD i || !(r.any fun q => q.who = .img i)) := by
  unfold Matrix.gangOver
  cases r.any fun q => q.who = .img i <;> simp [hi]

end GangOver

/-- What the end of the barrier makes of the record of a member. -/
theorem foldl_passBarrier_member {s : State} {l : List Nat} (hl : l.Nodup) {m : Nat} (hm : m ∈ l) {q : MQ} {r : List MQ} {i : Nat}
    (hqueue : (s.tile m).matrix.queue = q :: r) (hwho : q.who = .img i) (hi : i < 8) :
    let u := (l.foldl passBarrier s).tile m
    u.matrix.queue = r ∧ u.matrix.gangNext.getLsbD i = ((s.tile m).matrix.gangNext.getLsbD i || !(r.any fun x => x.who = q.who))
      ∧ (u.task (.img i)).d = (((s.tile m).task (.img i)).lower q.lower).d := by
  obtain ⟨s1, hbefore, hafter⟩ := foldl_tile_of_mem (fun s _ _ hk => passBarrier_tile_other s hk) s hl hm
  rw [← hbefore] at hqueue
  rw [hafter, passBarrier_of_head hqueue, ← hbefore]
  refine ⟨?_, ?_, congrArg Task.d (endOfInstr_task _ _ _ _ hwho)⟩
  · rw [endOfInstr_matrix, Matrix.gangOver_queue]
  · rw [endOfInstr_matrix, hwho, Matrix.gangOver_gangNext _ _ _ hi]

/-! ### The statement -/

/-- Settles O50: event by event; then the accumulators. -/
theorem theMatrixArrayPerformsItsQueue : Obligations.TheMatrixArrayPerformsItsQueue := by
  unfold Obligations.TheMatrixArrayPerformsItsQueue
  refine ⟨?alone, ?gang, fun _ _ _ _ lead => gangStart_of_isGang lead, ?completion, ?peerAdd, ?barrier, ?accumulators, ?rowPass⟩
  case alone =>
    intro s hready hgang
    exact (if_neg (ne_true_of_eq_false hgang)).trans (if_pos hready)
  case gang =>
    intro s hgang hfirst hall
    exact (if_pos hgang).trans (if_pos (by simpa [hfirst] using hall))
  case completion =>
    intro s q r hqueue hbusy hout
    refine ⟨_, exec_matrixInstructionCompletion hqueue hbusy hout, ?_, ?_, fun i hwho => congrArg Task.d (endOfInstr_task _ _ _ _ hwho)⟩
    · rw [endOfInstr_matrix]
    · rw [endOfInstr_matrix]
  case peerAdd =>
    intro s p mac i v ha hb
    change execPeerAddArrival s = _
    simp only [execPeerAddArrival, ha, hb]
  case barrier =>
    intro s hat hfirst hall
    exact ⟨_, exec_gangBarrierComplete hat hfirst hall, fun hdup m hm q r i hqueue hwho hi =>
      foldl_passBarrier_member hdup hm hqueue hwho hi⟩
  case accumulators =>
    exact fun m mac i v => ⟨m.setAcc_accAt_same mac i v, fun _ _ h _ _ => m.setAcc_accAt_other mac i v h⟩
  case rowPass => exact fun m mac e x q add => m.rowPass_accAt mac e x add

end Sys2Proof.Machine
end

section
/-!
SUPPORT. Messages, pods and decrements as they leave their core (spec/15 R277, R280 to R283, R292).
-/

namespace Sys2Proof.Machine

open Sys2Proof

/-! ### SEND, SENDB -/

/-- A payload goes out once its home and the task's matrix instructions let it and its units are there (spec/15 R292, spec/04 R63). -/
theorem sendOut_leaves {x : In} {s : State} {h off k : Nat} {u : Tile} {ws : List Word} (hfull : homesFull s x.t (homesOf s x.t x.a) = false)
    (hmatrix : matrixMeets s x.t x.w h off (8 * ws.length) true = false)
    (hunits : takeUnits (s.tile x.t) h (unitsOf (8 * ws.length)) = .ok (k, u)) :
    sendOut x s h off ws =
      let s1 := s.setTile x.t u
      let tag := detTag s1 x.t h
      let m : Msg :=
        { off := off, words := ws, handler := BitVec.ofNat 64 x.f.imm.toNat, level := x.f.minor.toNat % 2, it := (u.task x.w).it
          gid := (u.task x.w).gid, tstat := inheritStat (u.task x.w).tstat (x.f.minor.toNat % 2 == 1) (supOf s1 h), cid := s1.cidOf x.t
          al := k, units := unitsOf (8 * ws.length), path := pathOf h (off / 64), epoch := u.epochTo h, det := tag.isSome
          index := (tag.map (·.1)).getD 0, window := (tag.map (·.2.1)).getD 0, seqno := (tag.map (·.2.2)).getD 0, agent := x.t, tag := x.seq }
      let s2 := if tag.isSome then s1.modTile x.t fun u => u.countTagged h else s1
      .ok ((addOut (s2.modTile x.t fun u => u.countSent h (pathOf h (off / 64))) x
          { tag := 0, who := x.w, kind := .request, addr := x.a, late := true, slow := true, payload := true }).send
        (mkPacket x.t h x.seq none (.message m)), .next) := by
  simp only [sendOut, hfull, hmatrix, hunits, Bool.or_self, Bool.false_eq_true, if_false, ok_bind]
  rfl

/-- Settles O24: both instructions pass their checks one after the other; then the payload goes out. -/
theorem sendsPutTheirMessageOut : Obligations.SendsPutTheirMessageOut := by
  unfold Obligations.SendsPutTheirMessageOut
  intro tagOf msg sent room h off k u
  refine ⟨?send, fun ws s2 n hk => ?sendb⟩
  case send =>
    refine Performs.gives ⟨_, fun _ => ⟨rfl, rfl, fun _ => rfl⟩⟩ fun x s hc => ?_
    obtain ⟨htarget, ⟨hfull, hmatrix⟩, hunits⟩ := hc
    rw [htarget]
    exact sendOut_leaves hfull hmatrix hunits
  case sendb =>
    refine Performs.gives ⟨_, fun _ => ⟨rfl, rfl, fun _ => rfl⟩⟩ fun x s hc => ?_
    obtain ⟨htarget, hh, hregion, hzero, hx, hy, hown, halign, hend, hctx, horder, hecc, hread, ⟨hfull, hmatrix⟩, hunits⟩ := hc
    simp only [htarget, hh, ok_bind, horder, hecc, hread, need_passes hctx, Bool.false_eq_true, if_false]
    rw [need_passes (by simp [hregion, hzero, hown, hx, hy]), need_passes (by simp only [halign, hend, beq_self_eq_true, decide_true, Bool.and_self])]
    exact sendOut_leaves hfull hmatrix hunits

/-! ### SPAWN, PARK, WKDEC -/

/-- Settles O25: each instruction passes its checks and waits, one after the other. -/
theorem podsAndDecrementsGoOut : Obligations.PodsAndDecrementsGoOut := by
  unfold Obligations.PodsAndDecrementsGoOut
  refine ⟨fun h => ?spawn, fun h => ?park, fun h => ?wkdec⟩
  case spawn =>
    refine Performs.gives ⟨_, fun _ => ⟨rfl, rfl, fun _ => rfl⟩⟩ fun x s hc => ?_
    obtain ⟨hcore, hmask⟩ := hc
    simp only [hcore, ok_bind, need_passes hmask]
    rfl
  case park =>
    refine Performs.gives ⟨_, fun _ => ⟨rfl, rfl, fun _ => rfl⟩⟩ fun x s hc => ?_
    obtain ⟨hcore, hmask, hparked, hfwd, hboost, hclear, howes, hbusy⟩ := hc
    simp only [hparked, hfwd, hboost, hcore, hclear, hbusy, need_passes hmask, ackHold_passes howes, ok_bind, Bool.not_true,
      Bool.false_eq_true, if_false]
    rfl
  case wkdec =>
    refine Performs.gives ⟨_, fun _ => ⟨rfl, rfl, fun _ => rfl⟩⟩ fun x s hc => ?_
    obtain ⟨hcore, howes⟩ := hc
    simp only [hcore, ok_bind, ackHold_passes howes]
    rfl

/-! ### Ports, queues, allowances -/

/-- Settles O27: each instruction passes its checks one after the other. -/
theorem portsQueuesAndAllowancesAreConfigured : Obligations.PortsQueuesAndAllowancesAreConfigured := by
  unfold Obligations.PortsQueuesAndAllowancesAreConfigured
  refine ⟨fun v => ⟨?pop, fun h => ?push, ?none⟩, ?hqcfg, fun d => ?albind, ?albindNone⟩
  case pop =>
    refine Performs.gives ⟨_, fun _ => ⟨rfl, rfl, fun _ => rfl⟩⟩ fun x s hc => ?_
    obtain ⟨hen, hclaim⟩ := hc
    simp only [need_passes hen, hclaim, ok_bind]
    rfl
  case push =>
    refine Performs.gives ⟨_, fun _ => ⟨rfl, rfl, fun _ => rfl⟩⟩ fun x s hc => ?_
    obtain ⟨hcore, hclaim⟩ := hc
    simp only [hcore, hclaim, ok_bind]
    rfl
  case none =>
    refine Performs.gives ⟨_, fun _ => ⟨rfl, rfl, fun _ => rfl⟩⟩ fun x s hclaim => ?_
    simp only [hclaim, ok_bind]
    rfl
  case hqcfg =>
    refine Performs.gives ⟨_, fun _ => ⟨rfl, rfl, fun _ => rfl⟩⟩ fun x s hc => ?_
    obtain ⟨hslot, hstored, hhigh, hmid, hlow, hsize, hend, hctx⟩ := hc
    simp only [hctx, hslot, hstored, hhigh, hmid, hlow, hsize, hend, need_eq]
    rfl
  case albind =>
    refine Performs.gives ⟨_, fun _ => ⟨rfl, rfl, fun _ => rfl⟩⟩ fun x s hc => ?_
    obtain ⟨htarget, hother, hunits⟩ := hc
    simp only [htarget, hother, Nat.not_lt.mpr hunits, ok_bind, if_false, need_eq]
    rfl
  case albindNone =>
    refine Performs.gives ⟨_, fun _ => ⟨rfl, rfl, fun _ => rfl⟩⟩ fun x s hunits => ?_
    simp only [Nat.not_lt.mpr hunits, if_false]
    rfl

end Sys2Proof.Machine
end

section
/-!
SUPPORT. Waits and windows of a task (spec/15 R277, R278, R284, R285).
-/

namespace Sys2Proof.Machine

open Sys2Proof

theorem In.img_of_who {x : In} {i : Nat} (h : x.w = .img i) : x.img = some i := by rw [In.img, h]

/-- A task that has to be set aside may be: its accesses have their statuses, and no interval is open. -/
theorem setsAside_now {aside settled open_ : Bool} (h : (!aside || (settled && !open_)) = true) :
    (aside && !settled) = false ∧ (aside && open_) = false := by
  revert h
  cases aside <;> cases settled <;> cases open_ <;> decide

/-- Settles O26: WAIT by its image and its counter, each of the others by its one condition. -/
theorem waitYieldAndWindowsComplete : Obligations.WaitYieldAndWindowsComplete := by
  unfold Obligations.WaitYieldAndWindowsComplete
  refine ⟨?wkset, fun i => ?wait, ?yieldOn, ?yieldAside, ?mask1, ?unmask1⟩
  case wkset =>
    refine Performs.gives ⟨_, fun _ => ⟨rfl, rfl, fun _ => rfl⟩⟩ fun x s hpod => ?_
    simp only [hpod, beq_self_eq_true, need_eq, if_true, ok_bind]
    rfl
  case wait =>
    refine ⟨?zero, ?attachAside, ?attachHere, ?bound, ?done⟩
    all_goals refine Performs.gives ⟨_, fun _ => ⟨rfl, rfl, fun _ => rfl⟩⟩ fun x s hc => ?_
    case zero =>
      obtain ⟨⟨hw, hdone⟩, hpod, htakes, hcount⟩ := hc
      obtain ⟨hsettled, hopen⟩ := setsAside_now htakes
      simp only [In.img_of_who hw, hdone, hpod, hcount, hsettled, hopen, need_eq, beq_self_eq_true, reduceCtorEq, Bool.false_eq_true,
        if_true, if_false, ok_bind]
      rfl
    case attachAside =>
      obtain ⟨⟨hw, hdone⟩, hpod, htakes, haside, hcount⟩ := hc
      obtain ⟨hsettled, hopen⟩ := setsAside_now htakes
      simp only [In.img_of_who hw, hdone, hpod, hcount, hsettled, hopen, need_eq, beq_self_eq_true, reduceCtorEq, Bool.false_eq_true,
        if_true, if_false, ok_bind]
      exact if_pos haside
    case attachHere =>
      obtain ⟨⟨hw, hdone⟩, hpod, haside, hcount⟩ := hc
      dsimp only at haside
      simp only [In.img_of_who hw, hdone, hpod, hcount, haside, Bool.false_and, need_eq, beq_self_eq_true, reduceCtorEq,
        Bool.false_eq_true, if_true, if_false, ok_bind]
      rfl
    case bound =>
      obtain ⟨⟨hw, hdone⟩, htakes, haside, hpod⟩ := hc
      obtain ⟨hsettled, hopen⟩ := setsAside_now htakes
      simp only [In.img_of_who hw, hdone, hpod, hsettled, hopen, Bool.false_eq_true, if_true, if_false]
      exact if_pos haside
    case done =>
      obtain ⟨hw, hdone⟩ := hc
      simp only [In.img_of_who hw, hdone, if_true]
      rfl
  case yieldOn =>
    refine Performs.gives ⟨_, fun _ => ⟨rfl, rfl, fun _ => rfl⟩⟩ fun x s hstay => ?_
    simp only [hstay, Bool.not_false, if_true]
    rfl
  case yieldAside =>
    refine Performs.gives ⟨_, fun _ => ⟨rfl, rfl, fun _ => rfl⟩⟩ fun x s hc => ?_
    obtain ⟨hready, hfwd, hsettled, hopen⟩ := hc
    simp only [hready, hfwd, hsettled, hopen, Bool.not_false, Bool.not_true, Bool.and_self, Bool.false_eq_true, if_false]
  case mask1 =>
    refine Performs.gives ⟨_, fun _ => ⟨rfl, rfl, fun _ => rfl⟩⟩ fun x s hclosed => ?_
    simp only [hclosed, Bool.not_false, need_eq, if_true, ok_bind]
    rfl
  case unmask1 => exact Performs.gives ⟨_, fun _ => ⟨rfl, rfl, fun _ => rfl⟩⟩ fun _ _ _ => rfl

end Sys2Proof.Machine
end

section
/-!
SUPPORT. Corrected words: what the correction of single-bit errors leaves (spec/03 R39).
-/

namespace Sys2Proof.Machine

open Sys2Proof

/-- `s'` follows `s` with nothing but the SECDED conditions of words changed. -/
def EccOnly (s s' : State) : Prop := s' = { s with ecc := s'.ecc }

theorem eccOnly_correct (t off : Nat) : ∀ (n : Nat) (s : State), EccOnly s (s.correct t off n)
  | 0, _ => rfl
  | n + 1, s => by
    rw [State.correct]
    have h := eccOnly_correct t off n (if s.eccOf t (off + 8 * n) = .single then s.setEcc t (off + 8 * n) .good else s)
    rw [EccOnly] at h ⊢
    rw [h]
    split <;> rfl

@[simp] theorem State.correct_tile (s : State) (t off n k : Nat) : (s.correct t off n).tile k = s.tile k := by
  rw [State.tile, eccOnly_correct t off n s]
  rfl

theorem EccOnly.recPlace {s s' : State} (h : EccOnly s s') (x : In) : recPlace s' x = recPlace s x := by
  rw [h]
  rfl

end Sys2Proof.Machine
end

section
/-!
SUPPORT. Launches, barriers and quanta at their core (spec/16 R307 to R313, spec/19 R351, R352).
-/

namespace Sys2Proof.Machine

open Sys2Proof

/-- The phase of a cohort in which every core has arrived is over. -/
theorem exec_barrierPhaseComplete {s : State} {c : Cohort} (hc : s.cohorts.find? (fun (c : Cohort) => c.id = s.sel) = some c)
    (hmembers : s.membersOf c ≠ []) (hall : ∀ t ∈ s.membersOf c, c.phase < (s.tile t).phase) :
    exec .barrierPhaseComplete s = .next (completePhase s c) := by
  have hready : (!(s.membersOf c).isEmpty && (s.membersOf c).all fun t => c.phase < (s.tile t).phase) = true := by
    simpa [hmembers] using hall
  show execBarrierPhaseComplete s = _
  simp only [execBarrierPhaseComplete, hc, hready, if_true]

/-- Settles O28: the checks and waits of each instruction pass one after the other; then the event of the phase. -/
theorem launchesAndBarriersComplete : Obligations.LaunchesAndBarriersComplete := by
  unfold Obligations.LaunchesAndBarriersComplete
  refine ⟨⟨fun t off => ?launch, ?lstat⟩, fun c => ⟨?bara, ?barw⟩, fun s c hc => exec_barrierPhaseComplete hc⟩
  case launch =>
    refine Performs.gives ⟨_, fun _ => ⟨rfl, rfl, fun _ => rfl⟩⟩ fun x s hc => ?_
    obtain ⟨hg, hecc, ⟨hend, hctx⟩, howes⟩ := hc
    have howes' : ((s.correct t ((off + 0x10) / 8 * 8) 2).tile x.t).owes x.w true true = false := by rwa [State.correct_tile]
    simp only [hg, ok_bind, hecc, Bool.false_eq_true, if_false, State.correct_tile, need_passes (decide_eq_true hend), need_passes hctx]
    exact ackHold_passes howes' _
  case lstat =>
    refine Performs.gives ⟨_, fun _ => ⟨rfl, rfl, fun _ => rfl⟩⟩ fun x s hc => ?_
    obtain ⟨hhigh, hlow, hecc⟩ := hc
    simp only [need_passes (show (field x.a 47 33 == 0 && field x.a 5 0 == 0) = true by rw [hhigh, hlow]; rfl)]
    cases hplace : recPlace s x with
    | none =>
      simp only [hplace]
      rfl
    | some e =>
      simp only [hplace, hecc e hplace, (eccOnly_correct ..).recPlace x, Option.any_some]
      rfl
  case bara =>
    refine Performs.gives ⟨_, fun _ => ⟨rfl, rfl, fun _ => rfl⟩⟩ fun x s hc => ?_
    obtain ⟨hcohort, howes, hphase⟩ := hc
    simp only [hcohort, ok_bind, ackHold_passes howes, Nat.not_lt.mpr hphase, if_false]
    rfl
  case barw =>
    refine Performs.gives ⟨_, fun _ => ⟨rfl, rfl, fun _ => rfl⟩⟩ fun x s hc => ?_
    obtain ⟨hcohort, hphase⟩ := hc
    simp only [hcohort, ok_bind, Nat.not_lt.mpr hphase, if_false]
    rfl

end Sys2Proof.Machine
end

section
/-!
SUPPORT. Quanta and delivery windows (spec/16 R308, R313, spec/19 R351, R352).
-/

namespace Sys2Proof.Machine

open Sys2Proof

/-! ### A packet to each of several destinations -/

/-- One packet to each of a list of destinations. -/
def sendEach (p : Nat → Packet) (l : List Nat) (s : State) : State := l.foldl (fun s m => s.send (p m)) s

section SendEach
variable (p : Nat → Packet)

/-- `s'` follows `s` with nothing but packets sent. -/
def SendsOnly (s s' : State) : Prop := s' = { s with net := s'.net, nextId := s'.nextId }

theorem sendsOnly_sendEach : ∀ (l : List Nat) (s : State), SendsOnly s (sendEach p l s)
  | [], _ => rfl
  | m :: l, s => by
    have h := sendsOnly_sendEach l (s.send (p m))
    rw [SendsOnly] at h ⊢
    rw [sendEach, List.foldl_cons, ← sendEach, h]
    rfl

theorem sendEach_net_length : ∀ (l : List Nat) (s : State), (sendEach p l s).net.length = s.net.length + l.length
  | [], _ => rfl
  | m :: l, s => by
    rw [sendEach, List.foldl_cons, ← sendEach, sendEach_net_length l, State.send, List.length_append, List.length_cons, List.length_nil,
      List.length_cons]
    omega

/-- What has been in the network stays there. -/
theorem mem_sendEach_of_mem {q : Packet} : ∀ (l : List Nat) {s : State}, q ∈ s.net → q ∈ (sendEach p l s).net
  | [], _, h => h
  | _ :: l, _, h => mem_sendEach_of_mem l (List.mem_append_left _ h)

/-- Each destination has its packet, under a number of its own. -/
theorem exists_mem_sendEach {m : Nat} : ∀ (l : List Nat) (s : State), m ∈ l → ∃ n, { p m with id := n } ∈ (sendEach p l s).net
  | k :: l, s, h => by
    rcases List.mem_cons.mp h with rfl | h
    · exact ⟨s.nextId, mem_sendEach_of_mem p l (List.mem_append_right _ (List.mem_singleton_self _))⟩
    · exact exists_mem_sendEach l (s.send (p k)) h

end SendEach

/-! ### Markers -/

/-- Marker of the window that has been open at tile t, to member m of its cohort. -/
def markerTo (s : State) (t : Nat) (c : Cohort) (m : Nat) : Packet :=
  mkPacket t m 0 orderedChan (.marker c.id (s.tile t).det.sent (Sparse.get 0 (s.tile t).det.inWindow m) (s.indexIn c t))

theorem sendMarkers_eq (s : State) (t : Nat) (c : Cohort) :
    sendMarkers s t c = (sendEach (markerTo s t c) (s.membersOf c) s).modTile t fun u => { u with
      det := { u.det with count := 0, sent := (s.tile t).det.sent + 1, inWindow := [] }
      out := u.out.map fun o => { o with snap := o.snap.map fun y => { y with count := 0 } } } := rfl

/-- An expired count sends the marker once nothing can take back what it counts. -/
theorem exec_quantumCountExpiry {s : State} {c : Cohort} (hc : s.cohortOf s.cur = some c) (hdet : c.det = true)
    (hunfinished : (s.tile s.cur).det.finished = false) (hcount : 2 ^ c.qlog ≤ (s.tile s.cur).det.count)
    (hopen : countOpen (s.tile s.cur) = false) : exec .quantumCountExpiry s = .next (sendMarkers s s.cur c) := by
  have hdue : quantumDue s s.cur = some c := by
    rw [quantumDue, hc, Option.filter_some, if_pos (by simp [hdet, hunfinished, hcount])]
  show execQuantumCountExpiry s = _
  simp only [execQuantumCountExpiry, hdue, hopen, Bool.false_eq_true, if_false]

section MarkerArrival
variable {s : State} {p : Packet} {id n count i : Nat} (ha : arrived s s.sel = some p) (hb : p.body = .marker id n count i)
include ha hb

theorem exec_quantumMarkerArrival_kept {c : Cohort} (hc : s.cohortOf p.dst = some c) (hid : c.id = id) :
    exec .quantumMarkerArrival s = .next ((s.drop s.sel).modTile p.dst fun u =>
      { u with det := { u.det with marks := u.det.marks ++ [(n, i, count)] } }) := by
  show execQuantumMarkerArrival s = _
  simp only [execQuantumMarkerArrival, ha, hb, hc, hid, Option.any_some, decide_true, if_true]

theorem exec_quantumMarkerArrival_dropped (hnot : ∀ c, s.cohortOf p.dst = some c → c.id ≠ id) :
    exec .quantumMarkerArrival s = .next (s.drop s.sel) := by
  have hnone : ((s.cohortOf p.dst).any fun c => c.id = id) = false := by
    cases hc : s.cohortOf p.dst with
    | none => rfl
    | some c => exact decide_eq_false (hnot c hc)
  show execQuantumMarkerArrival s = _
  simp only [execQuantumMarkerArrival, ha, hb, hnone, Bool.false_eq_true, if_false]

end MarkerArrival

/-- Settles O29: each instruction by its group, each event by what it finds, and the markers one by one. -/
theorem quantaAndDeliveryWindowsEnd : Obligations.QuantaAndDeliveryWindowsEnd := by
  unfold Obligations.QuantaAndDeliveryWindowsEnd
  refine ⟨⟨?none, fun c => ⟨?marker, ?begin⟩, ?noneW, fun n => ?handled, fun s c hc => exec_quantumCountExpiry hc,
    fun s p id n count i ha hb => ⟨fun c hc => exec_quantumMarkerArrival_kept ha hb hc, exec_quantumMarkerArrival_dropped ha hb⟩,
    fun s t c => ?markers⟩, fun s c hc hdet hover hroom => ?window⟩
  case none =>
    refine Performs.gives ⟨_, fun _ => ⟨rfl, rfl, fun _ => rfl⟩⟩ fun x s hnone => ?_
    rw [hnone]
    rfl
  case marker =>
    refine Performs.gives ⟨_, fun _ => ⟨rfl, rfl, fun _ => rfl⟩⟩ fun x s hsome => ?_
    rw [hsome]
    rfl
  case begin =>
    refine Performs.gives ⟨_, fun _ => ⟨rfl, rfl, fun _ => rfl⟩⟩ fun x s hc => ?_
    simp only [hc.1, hc.2]
  case noneW =>
    refine Performs.gives ⟨_, fun _ => ⟨rfl, rfl, fun _ => rfl⟩⟩ fun x s hc => ?_
    simp only [hc.1, hc.2]
    rfl
  case handled =>
    refine Performs.gives ⟨_, fun _ => ⟨rfl, rfl, fun _ => rfl⟩⟩ fun x s hc => ?_
    simp only [hc.1, hc.2, if_true]
    rfl
  case markers =>
    rw [sendMarkers_eq, State.modTile_tile_same]
    refine ⟨rfl, rfl, sendEach_net_length _ _ s, fun o ho y hy => ?_, fun m hm => ?_⟩
    · obtain ⟨o', -, rfl⟩ := List.mem_map.mp ho
      obtain ⟨y', -, rfl⟩ := Option.map_eq_some_iff.mp hy
      rfl
    · obtain ⟨k, hk⟩ := exists_mem_sendEach (markerTo s t c) (s.membersOf c) s hm
      exact ⟨_, hk, rfl, rfl⟩
  case window =>
    show execDeliveryWindowEnd s = _
    simp only [execDeliveryWindowEnd, hc, hdet, hover, decide_eq_false (Nat.not_lt.mpr hroom), Bool.not_true, Bool.or_self,
      Bool.false_eq_true, if_false]

end Sys2Proof.Machine
end

section
/-!
SUPPORT. The instructions of boosted tasks (spec/17 R324 to R329).
-/

namespace Sys2Proof.Machine

open Sys2Proof

/-! ### A pending abort (R320) -/

section AskAbort
variable {u : Tile} {reason ticket k j : Nat}

theorem Tile.askAbort_of_undo (hundo : u.undo.isSome = true) : u.askAbort reason ticket = u := if_pos hundo

variable (hundo : u.undo = none)
include hundo

theorem Tile.askAbort_of_none (habort : u.abort = none) : u.askAbort reason ticket = { u with abort := some (reason, ticket) } := by
  simp only [askAbort, hundo, habort, Option.isSome_none, Bool.false_eq_true, if_false]

/-- A notice that is pending gives way to an abort of another kind; every other one stays. -/
theorem Tile.askAbort_of_some (habort : u.abort = some (k, j)) : u.askAbort reason ticket =
    if isNotice k && !isNotice reason then { u with abort := some (reason, ticket) } else u := by
  simp only [askAbort, hundo, habort, Option.isSome_none, Bool.false_eq_true, if_false]

end AskAbort

/-! ### The statement -/

/-- Settles O30: each instruction passes its checks and waits, one after the other; then the abort of a task's own. -/
theorem boostedInstructionsComplete : Obligations.BoostedInstructionsComplete := by
  unfold Obligations.BoostedInstructionsComplete
  refine ⟨⟨fun i off => ⟨?bbegin, ?babort, fun u ticket hundo habort => ?own, ?bcommit⟩, fun n h => ?btload,
    fun i => ?bstat, fun i => ?bstatHeld, ?bstatNone⟩, fun i h off => ?bdecl⟩
  case bbegin =>
    refine Performs.gives ⟨_, fun _ => ⟨rfl, rfl, fun _ => rfl⟩⟩ fun x s hc => ?_
    obtain ⟨hw, hchecks, hfree, hundo⟩ := hc
    simp only [In.img_of_who hw, hchecks, hfree, hundo, ok_bind, Option.isSome_none, Bool.or_self, Bool.false_eq_true, if_false]
    cases launchCohort s x.t ((s.tile x.t).task x.w).gid <;> rfl
  case babort =>
    refine Performs.gives ⟨_, fun _ => ⟨rfl, rfl, fun _ => rfl⟩⟩ fun x s hlive => ?_
    simp only [hlive, ok_bind]
    rfl
  case own =>
    rcases habort with habort | ⟨k, j, habort, rfl | rfl⟩
    · exact Tile.askAbort_of_none hundo habort
    · exact Tile.askAbort_of_some hundo habort
    · exact Tile.askAbort_of_some hundo habort
  case bcommit =>
    refine Performs.gives ⟨_, fun _ => ⟨rfl, rfl, fun _ => rfl⟩⟩ fun x s hc => ?_
    obtain ⟨hlive, howes, hacquire⟩ := hc
    simp only [hlive, ok_bind, hacquire, ackHold_passes howes, Bool.false_eq_true, if_false, List.isEmpty_iff]
    rfl
  case btload =>
    refine Performs.gives ⟨_, fun _ => ⟨rfl, rfl, fun _ => rfl⟩⟩ fun x s hh => ?_
    simp only [hh]
    rfl
  case bstat =>
    refine Performs.gives ⟨_, fun _ => ⟨rfl, rfl, fun _ => rfl⟩⟩ fun x s hw => ?_
    simp only [hw, resultLater]
    rfl
  case bstatHeld =>
    refine Performs.gives ⟨_, fun _ => ⟨rfl, rfl, fun _ => rfl⟩⟩ fun x s hc => ?_
    obtain ⟨hw, hheld⟩ := hc
    cases hx : x.w with
    | img j => exact absurd hx (hw j)
    | lvl1 =>
      simp only [hx, hheld, resultLater]
      rfl
    | hnd =>
      simp only [hx, hheld, resultLater]
      rfl
  case bstatNone =>
    refine Performs.gives ⟨_, fun _ => ⟨rfl, rfl, fun _ => rfl⟩⟩ fun x s hc => ?_
    obtain ⟨hw, hnone⟩ := hc
    cases hx : x.w with
    | img j => exact absurd hx (hw j)
    | lvl1 =>
      simp only [hx, hnone, resultLater]
      rfl
    | hnd =>
      simp only [hx, hnone, resultLater]
      rfl
  case bdecl =>
    refine Performs.gives ⟨_, fun _ => ⟨rfl, rfl, fun _ => rfl⟩⟩ fun x s hc => ?_
    obtain ⟨hlive, hg, halign, hroom, hctx, hlog⟩ := hc
    have hmay : (h != x.t || ((s.tile x.t).task x.w).sup || !(s.tile x.t).inCtx off 8) = true := by
      by_cases hown : h = x.t
      · rcases hctx hown with h' | h' <;> simp [h']
      · simp [hown]
    simp only [hlive, ok_bind, hg, need_passes (beq_iff_eq.mpr halign), need_passes hmay, need_passes (decide_eq_true hroom), hlog,
      Bool.false_eq_true, if_false]
    rfl

end Sys2Proof.Machine
end

section
/-!
SUPPORT. Software traps and the return from a trap (spec/18 R346 to R348).
-/

namespace Sys2Proof.Machine

open Sys2Proof

/-! ### An instruction that traps -/

/-- A trap is taken at once where the statuses are in and no interval is open; FWDDIV leaves its line first. -/
theorem trapNow_at_once {s : State} {t : Nat} {w : Who} {c : Cause} (hc : c ≠ .fwddiv) (ht : t < numTiles)
    (hsettled : (s.tile t).settled w = true) (hopen : (s.tile t).pairOpen = false) (addr epc : Word) (late fdrop note sup : Bool) :
    trapNow s t w c addr epc late fdrop note sup = takeTrap s t c epc addr late fdrop note sup := by
  simp only [trapNow, hsettled, hopen, Nat.not_le.mpr ht, beq_eq_false_iff_ne.mpr hc, Bool.not_true, Bool.false_eq_true, if_false]

section Traps
variable {i : Fields → Instr} {body : In → State → Body.Out} (hp : Performs i body) {s : State} {w : Who} {m : Form} {f : Fields}
  {s1 : State} {x : In} (hi : Issues s w (i f) m f s1 x)
include hp hi

/-- An instruction that issues and whose body stops settles as the body says. -/
theorem Performs.stops {e : Stop} (hb : body x s1 = .error e) : exec (i f) s = settle s s.cur w ((s.tile s.cur).task w).pc e := by
  obtain ⟨k, h⟩ := hp
  obtain ⟨-, hform, hexec⟩ := h f
  cases hform.symm.trans hi.form
  exact (hexec s).trans (issue_of_stops hi hb)

/-- One whose body traps takes its trap at itself, where nothing makes it wait. -/
theorem Performs.traps {c : Cause} {a : Word} (hb : body x s1 = .error (.trap c a none false)) (hc : c ≠ .fwddiv) (ht : s.cur < numTiles)
    (hsettled : (s.tile s.cur).settled w = true) (hopen : (s.tile s.cur).pairOpen = false) :
    exec (i f) s = .next (takeTrap s s.cur c ((s.tile s.cur).task w).pc a false false false false) := by
  rw [hp.stops hi hb]
  exact congrArg Host.Outcome.next (trapNow_at_once hc ht hsettled hopen ..)

end Traps

theorem trap_body_enters {sup : Bool} {x : In} {s : State} (hsettled : (s.tile x.t).settled x.w = true)
    (hopen : (s.tile x.t).pairOpen = false) : trapBody sup x s =
      .ok (takeTrap (retire s x.t x.w x.f 1 ((s.tile x.t).task x.w).mwo true .next)
        x.t (.trap (BitVec.ofNat 8 x.f.imm.toNat)) (nextPc x.pc) x.a false false false sup, .gone) := by
  simp only [trapBody, hsettled, hopen, Bool.not_true, Bool.false_eq_true, if_false]

/-- Settles O31: TRAP retires and enters, BRKPT and a flagged TFENCE stop with their cause. -/
theorem softwareTrapsEnterTheirHandler : Obligations.SoftwareTrapsEnterTheirHandler := by
  unfold Obligations.SoftwareTrapsEnterTheirHandler
  refine ⟨⟨?trap, ?trapS⟩, fun s w m f s1 x hi ht hsettled hopen => ?brkpt, ?tfence, fun s w m f s1 x hi ht hsettled hopen hv => ?arith⟩
  case trap => exact Performs.gives ⟨_, fun _ => ⟨rfl, rfl, fun _ => rfl⟩⟩ fun _ _ hc => trap_body_enters hc.1 hc.2
  case trapS => exact Performs.gives ⟨_, fun _ => ⟨rfl, rfl, fun _ => rfl⟩⟩ fun _ _ hc => trap_body_enters hc.1 hc.2
  case brkpt =>
    obtain ⟨-, -, rfl⟩ := hi.operands
    exact Performs.traps ⟨_, fun _ => ⟨rfl, rfl, fun _ => rfl⟩⟩ hi rfl (by decide) ht hsettled hopen
  case tfence => exact Performs.gives ⟨_, fun _ => ⟨rfl, rfl, fun _ => rfl⟩⟩ fun _ _ hnone => if_pos hnone
  case arith =>
    obtain ⟨hcore, rfl, rfl⟩ := hi.operands
    refine Performs.traps ⟨_, fun _ => ⟨rfl, rfl, fun _ => rfl⟩⟩ hi ?_ (by decide) ht hsettled hopen
    rw [← hcore] at hv ⊢
    exact if_neg hv

end Sys2Proof.Machine
end

section
/-!
SUPPORT. What writing a stream's results leaves of its core, and the checkpoint of a pair (spec/10 R176, spec/19 R359).
-/

namespace Sys2Proof.Machine

open Sys2Proof

/-- The core `v` runs the streams that `u` runs, and leads the same pair. -/
structure Tile.RunsAs (u v : Tile) : Prop where
  hnd  : v.hnd.isSome = u.hnd.isSome
  l1   : v.l1.isSome = u.l1.isSome
  cur0 : v.cur0 = u.cur0
  mate : v.pairing.map (·.mate) = u.pairing.map (·.mate)

namespace Tile.RunsAs
variable {u v v' : Tile}

theorem refl (u : Tile) : u.RunsAs u := ⟨rfl, rfl, rfl, rfl⟩

theorem trans (h : u.RunsAs v) (h' : v.RunsAs v') : u.RunsAs v' :=
  ⟨h'.hnd.trans h.hnd, h'.l1.trans h.l1, h'.cur0.trans h.cur0, h'.mate.trans h.mate⟩

theorem active (h : u.RunsAs v) : v.active = u.active := by
  simp only [Tile.active, h.hnd, h.l1, h.cur0]

theorem pairing_none (h : u.RunsAs v) (hu : u.pairing = none) : v.pairing = none := by
  have hm := h.mate
  rw [hu] at hm
  exact Option.map_eq_none_iff.mp hm

/-- A pair that its tile does not lead against itself stays so. -/
theorem mate_ne (h : u.RunsAs v) {t : Nat} (hu : ∀ p, u.pairing = some p → p.mate ≠ t) : ∀ p, v.pairing = some p → p.mate ≠ t := by
  intro p hp
  have hm := h.mate
  rw [hp] at hm
  obtain ⟨q, hq, he⟩ := Option.map_eq_some_iff.mp hm.symm
  exact fun ht => hu q hq (he.trans ht)

end Tile.RunsAs

section Written
variable (u : Tile) (w : Who)

theorem Tile.runsAs_modTask (g : Task → Task) : u.RunsAs (u.modTask w g) :=
  ⟨Tile.modTask_hnd_isSome .., Tile.modTask_l1_isSome .., Tile.modTask_cur0 .., congrArg _ (Tile.modTask_pairing ..)⟩

theorem Tile.runsAs_apply (tag : Nat) (g : Task → Task) : u.RunsAs (u.apply w tag g) := by
  refine (u.runsAs_modTask w g).trans ⟨rfl, rfl, rfl, ?_⟩
  simp only [Tile.apply, Option.map_map]
  refine congrArg (Option.map · _) (funext fun p => ?_)
  simp only [Function.comp]
  split <;> rfl

theorem Tile.runsAs_passFlags (tag fl : Nat) : u.RunsAs (u.passFlags w tag fl) := by
  unfold Tile.passFlags
  split <;> exact ⟨rfl, rfl, rfl, rfl⟩

theorem Tile.runsAs_portWrites (ws : List (Nat × Word)) : ∀ u : Tile, u.RunsAs (u.portWrites ws) := by
  induction ws with
  | nil => exact RunsAs.refl
  | cons e ws ih =>
    refine fun u => RunsAs.trans ?_ (ih _)
    split <;> exact ⟨rfl, rfl, rfl, rfl⟩

theorem Tile.runsAs_foldAll (ws : List (Nat × Word)) : ∀ u : Tile, u.RunsAs (u.foldAll ws) := by
  induction ws with
  | nil => exact RunsAs.refl
  | cons e ws ih => exact fun u => RunsAs.trans (v := u.foldFp e.1 e.2) ⟨rfl, rfl, rfl, by simp [Tile.foldFp, Function.comp_def]⟩ (ih _)

theorem Tile.runsAs_foldMate (fp : Word) (ws : List (Nat × Word)) : u.RunsAs (u.foldMate fp ws) := by
  unfold Tile.foldMate
  split
  · exact RunsAs.refl u
  · exact ⟨rfl, rfl, rfl, by simp [Function.comp_def]⟩

theorem Tile.runsAs_deliver (tag : Nat) (ws : List (Nat × Word)) (fl lower : Nat) : u.RunsAs (u.deliver w tag ws fl lower) :=
  (((u.runsAs_apply w tag _).trans (runsAs_passFlags _ w tag fl)).trans (runsAs_portWrites ws _)).trans (runsAs_foldAll ws _)

theorem Tile.runsAs_commitAll (ps : List Pend) : ∀ u : Tile, u.RunsAs (u.commitAll w ps) := by
  induction ps with
  | nil => exact RunsAs.refl
  | cons p ps ih =>
    exact fun u => ((u.runsAs_deliver w p.seq p.writes p.flags p.lower).trans (runsAs_foldMate _ _ _)).trans (ih _)

theorem Tile.runsAs_finishReduction : u.RunsAs u.finishReduction := by
  unfold Tile.finishReduction
  split
  · next j _ => exact RunsAs.trans (v := { u with reduction := none }) ⟨rfl, rfl, rfl, rfl⟩ (runsAs_deliver ..)
  · exact RunsAs.refl u

/-- Writing every result of the running stream leaves the core what it runs. -/
theorem Tile.runsAs_flush : u.RunsAs u.flush := by
  unfold Tile.flush
  split
  · next w _ =>
    exact (RunsAs.trans (u := u) (v := { u with pend := [] }) ⟨rfl, rfl, rfl, rfl⟩ (runsAs_commitAll w u.pend _)).trans (runsAs_finishReduction _)
  · exact RunsAs.refl u

/-- Where nothing is still to be written, nothing changes. -/
theorem Tile.flush_of_nothing (hp : u.pend = []) (hr : u.reduction = none) : u.flush = u := by
  unfold Tile.flush
  split
  · have hu : { u with pend := [] } = u := hp ▸ rfl
    rw [hp, hu, Tile.commitAll, Tile.finishReduction, hr]
  · rfl

theorem Tile.runsAs_payPair : u.RunsAs u.payPair := ⟨rfl, rfl, rfl, rfl⟩

end Written

/-- A core leads no pair against itself: the checkpoint then changes nothing of it but its pair's. -/
theorem recheck_tile {s : State} {t : Nat} (hm : ∀ p, (s.tile t).pairing = some p → p.mate ≠ t) :
    ∃ pr, (recheck s t).tile t = { s.tile t with pairing := pr } := by
  rw [recheck]
  dsimp only
  split
  · next p w hp _ =>
    rw [State.modTile_tile_other _ (hm p hp).symm, State.setTile_tile_same]
    exact ⟨_, rfl⟩
  · exact ⟨_, rfl⟩

/-- What holds of a new tile whatever its pair's checkpoint is holds after the checkpoint. -/
theorem recheck_setTile {P : Tile → Prop} {s : State} {t : Nat} {v : Tile} (hm : ∀ p, v.pairing = some p → p.mate ≠ t)
    (hP : ∀ pr, P { v with pairing := pr }) : P ((recheck (s.setTile t v) t).tile t) := by
  have hv := State.setTile_tile_same s t v
  obtain ⟨pr, h⟩ := recheck_tile (s := s.setTile t v) (t := t) (by rw [hv]; exact hm)
  rw [h, hv]
  exact hP pr

theorem recheck_of_unpaired {s : State} {t : Nat} (hp : (s.tile t).pairing = none) : recheck s t = s := by
  rw [recheck]
  dsimp only
  split
  · next p w h _ => exact absurd (hp.symm.trans h) (by simp)
  · rfl

/-! ### The return from a trap -/

/-- With no result to write and no pair, a return gives the interrupted task its PC and tstat and ends the handler. -/
theorem returnTrap_tile {s : State} {t i : Nat} {hd : Handler} (hh : (s.tile t).hnd = some hd) (ho : hd.of_ = .img i)
    (hp : (s.tile t).pend = []) (hr : (s.tile t).reduction = none) (hpair : (s.tile t).pairing = none) :
    ((returnTrap s t).tile t).hnd = none
      ∧ ((returnTrap s t).tile t).task (.img i) = { (s.tile t).task (.img i) with pc := hd.epc, tstat := hd.estat } := by
  simp only [returnTrap, hh, ho, Tile.flush_of_nothing _ hp hr, Tile.modTask]
  rw [recheck_of_unpaired (by rw [State.setTile_tile_same]; exact hpair), State.setTile_tile_same]
  exact ⟨rfl, congrArg Ctx.task (Tile.setCtx_ctx_same ..)⟩

/-- Settles O32: the branches of TRET, and what a return leaves. -/
theorem returnFromTrapResumes : Obligations.ReturnFromTrapResumes := by
  unfold Obligations.ReturnFromTrapResumes
  refine ⟨fun hd => ⟨?resumes, ?goesOn⟩, fun s t hd i hh ho hp hr hpair => ?left,
    fun s w m f s1 x hi ht hsettled hopen => ⟨fun hw => ?outside, fun hd hw hh hfirst => ⟨fun hres => ?badstat, fun hres hpc => ?badtgt⟩⟩⟩
  case resumes =>
    refine Performs.gives ⟨_, fun _ => ⟨rfl, rfl, fun _ => rfl⟩⟩ fun x s hc => ?_
    obtain ⟨hw, hh, hfirst, hres, hpc, hopen⟩ := hc
    simp only [tretBody, hw, hh, hfirst, hres, hpc, hopen, Bool.not_true, Bool.false_eq_true, if_false]
  case goesOn =>
    refine Performs.gives ⟨_, fun _ => ⟨rfl, rfl, fun _ => rfl⟩⟩ fun x s hc => ?_
    obtain ⟨hw, hh, hnested, hpc⟩ := hc
    simp only [tretBody, hw, hh, hnested, hpc, if_true]
  case left =>
    obtain ⟨hnone, htask⟩ := returnTrap_tile hh ho hp hr hpair
    exact ⟨hnone, by rw [htask], by rw [htask], by rw [htask]⟩
  case outside =>
    obtain ⟨-, rfl, -⟩ := hi.operands
    refine Performs.traps ⟨_, fun _ => ⟨rfl, rfl, fun _ => rfl⟩⟩ hi ?_ (by decide) ht hsettled hopen
    simp only [tretBody]
    split
    · next hx _ => exact absurd hx hw
    · rfl
  case badstat =>
    obtain ⟨hcore, rfl, -⟩ := hi.operands
    refine Performs.traps ⟨_, fun _ => ⟨rfl, rfl, fun _ => rfl⟩⟩ hi ?_ (by decide) ht hsettled hopen
    rw [← hcore] at hh
    simp only [tretBody, hw, hh, hfirst, hres, Bool.false_eq_true, if_false, if_true]
    rfl
  case badtgt =>
    obtain ⟨hcore, rfl, -⟩ := hi.operands
    refine Performs.traps ⟨_, fun _ => ⟨rfl, rfl, fun _ => rfl⟩⟩ hi ?_ (by decide) ht hsettled hopen
    rw [← hcore] at hh
    simp only [tretBody, hw, hh, hfirst, hres, hpc, Bool.not_false, Bool.false_eq_true, if_false, if_true]
    rfl

end Sys2Proof.Machine
end

section
/-!
SUPPORT. The control registers (spec/18 R340, R349).
-/

namespace Sys2Proof.Machine

open Sys2Proof

section Control
variable {s : State} {x : In} {h : Handler}

theorem handlerOf_inside (hw : x.w = .hnd) (hh : (s.tile x.t).hnd = some h) : handlerOf s x = .ok h := by
  simp only [handlerOf, hw, hh]

theorem handlerOf_outside (hw : x.w ≠ .hnd) : handlerOf s x = trapAt .illeg 0 := by
  simp only [handlerOf]
  split
  · next hx _ => exact absurd hx hw
  · rfl

theorem needTg_img {i n : Nat} (ho : h.of_ = .img i) : needTg h n = .ok () := by
  simp only [needTg, ho, need_eq, if_true]

theorem stickyHold_passes (hf : (s.tile x.t).flagsOpen h.of_ = false) : stickyHold s x h = .ok () := by
  simp only [stickyHold, hf, Bool.false_eq_true, if_false]

theorem needSup_passes (hs : ((s.tile x.t).task x.w).sup = true) : needSup s x = .ok () := by
  simp only [needSup, need_eq, hs, if_true]

theorem needSup_traps (hs : ((s.tile x.t).task x.w).sup = false) :
    needSup s x = .error (.trap .priv ((s.tile x.t).openAddr x.t) none false) := by
  simp only [needSup, need_eq, hs, Bool.false_eq_true, if_false]

/-- The numbers of the interrupted context's general registers. -/
theorem getControl_tg {n : Nat} (hn : n < 64) : getControl s x (0x100 + n) = (do
    let h ← handlerOf s x
    needTg h n
    return ((s.tile x.t).task h.of_).getG n) := by
  simp only [getControl]
  split
  case h_15 =>
    rw [need_passes (by simp only [Bool.and_eq_true, decide_eq_true_eq]; omega), Nat.add_sub_cancel_left]
  all_goals omega

/-- A write of a general register of the interrupted context. -/
theorem setControl_tg {n i : Nat} (hlo : 0x100 ≤ n) (hhi : n ≤ 0x13F) (hh : handlerOf s x = .ok h) (ho : h.of_ = .img i) :
    setControl s x n = .ok (s.modTile x.t fun u => u.modTask h.of_ fun k => k.setG (n - 0x100) x.a) := by
  simp only [setControl, hh, ok_bind]
  split
  case h_7 =>
    rw [need_passes (by simp only [Bool.and_eq_true, decide_eq_true_eq]; omega), needTg_img ho]
    rfl
  all_goals omega

/-- Outside a handler the registers of the handler and of the interrupted context are not there. -/
theorem getControl_outside (hw : x.w ≠ .hnd) {n : Nat} (hn : (0x002 ≤ n ∧ n ≤ 0x006) ∨ (0x100 ≤ n ∧ n ≤ 0x143)) :
    getControl s x n = .error (.trap .illeg 0 none false) := by
  have hout := handlerOf_outside (s := s) hw
  obtain ⟨hlo, hhi⟩ | ⟨hlo, hhi⟩ := hn
  · interval_cases n <;> simp only [getControl, hout] <;> rfl
  obtain htg | hother := Nat.lt_or_ge n 0x140
  · obtain ⟨m, rfl⟩ := Nat.exists_eq_add_of_le hlo
    rw [getControl_tg (by omega), hout]
    rfl
  · interval_cases n <;> simp only [getControl, hout] <;> rfl

end Control

/-- Settles O33: GETS number by number, SETS constructor by constructor. -/
theorem controlRegistersAreReadAndWritten : Obligations.ControlRegistersAreReadAndWritten := by
  unfold Obligations.ControlRegistersAreReadAndWritten
  refine ⟨⟨fun v => ?gets, fun s x g hp => ?mate, fun s x => ⟨rfl, rfl, fun hs => ?sup, fun hs n hn => ?priv, fun h hw hh => ?inside,
      fun hw n hn => getControl_outside hw hn⟩⟩,
    ?tvec, ?svec, ?slice, fun s x g => ⟨fun hp => ?alone, fun p hp hw => ?paired⟩, ?ctxbase,
    fun h => ⟨?estat, ?epc, ?hepc, ?p, ?it, ?ret, ?sticky, ?tg⟩⟩
  case gets =>
    refine Performs.gives ⟨_, fun _ => ⟨rfl, rfl, fun _ => rfl⟩⟩ fun x s hv => ?_
    simp only [hv, ok_bind]
    rfl
  case mate => simp only [mateReads, hp]
  case sup =>
    simp only [getControl, needSup_passes hs]
    exact ⟨rfl, rfl, rfl⟩
  case priv => obtain rfl | rfl | rfl := hn <;> simp only [getControl, needSup_traps hs] <;> rfl
  case inside =>
    have hin := handlerOf_inside hw hh
    refine ⟨?_, ?_, ?_, ?_, ?_, ?_, ?_, ?_, fun hf => ?_, fun n i hn ho => ?_⟩
    case refine_9 =>
      simp only [getControl, hin, ok_bind, stickyHold_passes hf]
      rfl
    case refine_10 =>
      rw [getControl_tg hn, hin, ok_bind, needTg_img ho]
      rfl
    all_goals
      simp only [getControl, hin]
      rfl
  case tvec =>
    refine Performs.gives ⟨_, fun _ => ⟨rfl, rfl, fun _ => rfl⟩⟩ fun x s hok => ?_
    simp only [need_passes hok]
    rfl
  case svec =>
    refine Performs.gives ⟨_, fun _ => ⟨rfl, rfl, fun _ => rfl⟩⟩ fun x s hc => ?_
    simp only [needSup_passes hc.1, need_passes hc.2]
    rfl
  case slice =>
    refine Performs.gives ⟨_, fun _ => ⟨rfl, rfl, fun _ => rfl⟩⟩ fun x s hc => ?_
    simp only [needSup_passes hc.1, need_passes (beq_iff_eq.mpr hc.2)]
    rfl
  case alone => simp only [setCore, onMate, hp]
  case paired =>
    have hpaired : ((s.modTile x.t g).tile x.t).paired x.w = true := by
      simp only [Tile.paired, hp, hw, Option.any_some, BEq.rfl, Bool.true_or]
    simp only [setCore, onMate, hp, hpaired, if_true]
  case ctxbase =>
    refine Performs.gives ⟨_, fun _ => ⟨rfl, rfl, fun _ => rfl⟩⟩ fun x s hc => ?_
    obtain ⟨hs, hhigh, hlow, hfits, hclear, hfree⟩ := hc
    simp only [needSup_passes hs, ok_bind, need_passes (show (field x.a 63 21 == 0 && field x.a 9 0 == 0) = true by simp [hhigh, hlow]),
      need_passes (decide_eq_true hfits), need_passes (show (!(s.tile x.t).touches (fun _ => true) x.a.toNat 24576) = true by rw [hclear]; rfl),
      need_passes hfree]
    rfl
  case estat =>
    refine Performs.gives ⟨_, fun _ => ⟨rfl, rfl, fun _ => rfl⟩⟩ fun x s hc => ?_
    simp only [handlerOf_inside hc.1 hc.2, ok_bind]
    rfl
  case sticky =>
    refine Performs.gives ⟨_, fun _ => ⟨rfl, rfl, fun _ => rfl⟩⟩ fun x s hc => ?_
    obtain ⟨hin, himm, hf⟩ := hc
    simp only [setControl, himm, handlerOf_inside hin.1 hin.2, ok_bind, stickyHold_passes hf]
    rfl
  case tg =>
    refine Performs.gives ⟨_, fun _ => ⟨rfl, rfl, fun _ => rfl⟩⟩ fun x s hc => ?_
    obtain ⟨hin, ⟨i, ho⟩, hlo, hhi⟩ := hc
    simp only [setControl_tg hlo hhi (handlerOf_inside hin.1 hin.2) ho, ok_bind]
    rfl
  all_goals
    refine Performs.gives ⟨_, fun _ => ⟨rfl, rfl, fun _ => rfl⟩⟩ fun x s hc => ?_
    obtain ⟨hin, himm⟩ := hc
    simp only [himm, setControl, handlerOf_inside hin.1 hin.2, ok_bind]
    rfl

end Sys2Proof.Machine
end

section
/-!
SUPPORT. Entering a trap's handler (spec/18 R333 to R338).
-/

namespace Sys2Proof.Machine

open Sys2Proof

/-- The tstat of a handler (spec/18 R338). -/
def handlerTstat (sup det bst : Bool) : Word :=
  BitVec.ofNat 64 (2 ^ 48 + (if sup then 2 ^ 47 else 0) + 2 ^ 46 + (if det then 2 ^ 45 else 0) + if bst then 2 ^ 44 else 0)

theorem handlerTstat_bits : ∀ sup det bst : Bool,
    bit (handlerTstat sup det bst) 48 = true ∧ bit (handlerTstat sup det bst) 47 = sup ∧ bit (handlerTstat sup det bst) 46 = true
    ∧ bit (handlerTstat sup det bst) 45 = det ∧ bit (handlerTstat sup det bst) 44 = bst ∧ bit (handlerTstat sup det bst) 41 = false
    ∧ bit (handlerTstat sup det bst) 3 = false ∧ bit (handlerTstat sup det bst) 2 = false ∧ field (handlerTstat sup det bst) 1 0 = 0 := by
  decide

/-- Closing a window touches bits 41 to 32 alone. -/
theorem bit_closeWindow (x : Word) {i : Nat} (hi : i < 64) (hout : i < 32 ∨ 41 < i) : bit (closeWindow x) i = bit x i :=
  (getLsbD_setField x 0 hi (by omega)).trans (if_neg (by omega))

/-- The registers of a handler that is entered: zero but for g1 and g2. -/
def handlerTask (k : Task) (supr : Bool) (vec ec eaddr : Word) : Task :=
  { pc := vec &&& 0x1FFF, it := k.it, gid := k.gid, lid := 0, tstat := handlerTstat supr k.det k.bst
    g := (({} : Task).setG 1 ec |>.setG 2 eaddr).g }

section HandlerTask
variable (k : Task) (supr : Bool) (vec ec eaddr : Word)

theorem handlerTask_getG_cause : (handlerTask k supr vec ec eaddr).getG 1 = ec := by
  change (((({} : Task).setG 1 ec).setG 2 eaddr)).getG 1 = ec
  rw [Task.setG_getG_other _ _ (by decide), Task.setG_getG_same _ _ (by decide)]

theorem handlerTask_getG_addr : (handlerTask k supr vec ec eaddr).getG 2 = eaddr := Task.setG_getG_same _ _ (by decide)

theorem handlerTask_getG_other {r : Nat} (h1 : r ≠ 1) (h2 : r ≠ 2) : (handlerTask k supr vec ec eaddr).getG r = 0 := by
  change (((({} : Task).setG 1 ec).setG 2 eaddr)).getG r = 0
  rw [Task.setG_getG_other _ _ h2, Task.setG_getG_other _ _ h1]
  unfold Task.getG
  split <;> rfl

end HandlerTask

/-- A task whose trap is taken at `epc`: its masked window is closed. -/
def Task.trapped (k : Task) (epc : Word) (inside : Bool) : Task := { k with pc := epc, tstat := closeWindow k.tstat, mid := inside }

theorem Task.trapped_def (k : Task) (epc : Word) (inside : Bool) :
    { k with pc := epc, tstat := closeWindow k.tstat, mid := inside } = k.trapped epc inside := rfl

theorem Task.trapped_modes (k : Task) (epc : Word) (inside : Bool) :
    (k.trapped epc inside).det = k.det ∧ (k.trapped epc inside).bst = k.bst :=
  ⟨bit_closeWindow _ (by decide) (by decide), bit_closeWindow _ (by decide) (by decide)⟩

/-- What a stream that is no handler reads does not depend on the handler's frame. -/
theorem Tile.task_of_frame {u v : Tile} {w : Who} (hw : w ≠ .hnd) (hi : v.images = u.images) (hl : v.l1 = u.l1) : v.task w = u.task w := by
  cases w with
  | img i => exact congrArg (fun m => (Sparse.get ({} : Ctx) m i).task) hi
  | lvl1 => simp only [Tile.task, hl]
  | hnd => exact absurd rfl hw

theorem Tile.payPair_task (u : Tile) (w : Who) : u.payPair.task w = u.task w := by
  cases w <;> rfl

theorem testBit_field (x : Word) (hi lo i : Nat) : (field x hi lo).testBit i = (decide (i < hi + 1 - lo) && x.getLsbD (lo + i)) := by
  rw [field, Nat.testBit_mod_two_pow, Nat.testBit_div_two_pow, BitVec.getLsbD, Nat.add_comm lo]

theorem causeCode_lt (c : Cause) : causeCode c < 256 := by
  cases c with
  | trap c => exact c.isLt
  | _ => decide

/-- ECAUSE of a nested entry: the code of the new cause, and NEST (spec/18 R337). -/
def nestedCause (old : Word) (c : Cause) : Word := setField (setField old 7 0 (causeCode c)) 8 8 1

theorem bit_nestedCause (old : Word) (c : Cause) : bit (nestedCause old c) 8 = true :=
  (getLsbD_setField _ 1 (by decide) (by decide)).trans (if_pos (by decide))

theorem field_nestedCause (old : Word) (c : Cause) : field (nestedCause old c) 7 0 = causeCode c := by
  refine Nat.eq_of_testBit_eq fun i => ?_
  rw [testBit_field]
  rcases Nat.lt_or_ge i 8 with hi | hi
  · rw [decide_eq_true hi, Bool.true_and, nestedCause, getLsbD_setField _ _ (by omega) (by decide), if_neg (by omega),
      getLsbD_setField _ _ (by omega) (by decide), if_pos (by omega), Nat.zero_add, Nat.sub_zero]
  · rw [decide_eq_false (by omega), Bool.false_and, Nat.testBit_lt_two_pow]
    exact Nat.lt_of_lt_of_le (causeCode_lt c) (Nat.pow_le_pow_right (n := 2) (by decide) hi)

section Entry
variable {s : State} {t : Nat} {w : Who} {c : Cause} {epc addr : Word} {late fdrop note sup : Bool}

/-- A trap of a task whose chosen vector is enabled enters the handler: the task and the handler's frame. -/
theorem takeTrap_enters (hne : w ≠ .hnd) (hw : (s.tile t).active = some w) (hm : ∀ p, (s.tile t).pairing = some p → p.mate ≠ t)
    {supr : Bool} (hs : (causeRouteS c || sup || ((s.tile t).task w).sup || !bit (s.tile t).tvec 63) = supr)
    (hv : bit (if supr then (s.tile t).svec else (s.tile t).tvec) 63 = true) :
    ∃ inside, ((takeTrap s t c epc addr late fdrop note sup).tile t).task w = ((s.tile t).flush.task w).trapped epc inside
      ∧ ((takeTrap s t c epc addr late fdrop note sup).tile t).hnd = some
        { task := handlerTask ((s.tile t).flush.task w) supr (if supr then (s.tile t).svec else (s.tile t).tvec)
            (ecauseWord c late fdrop note supr false) (if causeOpen c then (s.tile t).openAddr t else addr)
          epc := epc, estat := closeWindow ((s.tile t).flush.task w).tstat, ecause := ecauseWord c late fdrop note supr false
          eaddr := if causeOpen c then (s.tile t).openAddr t else addr, of_ := w } := by
  have hruns := (s.tile t).runsAs_flush.trans (Tile.runsAs_payPair _)
  obtain ⟨inside, hin⟩ : ∃ b, (s.tile t).leavesLine ((s.tile t).task w).pc epc = b := ⟨_, rfl⟩
  obtain ⟨hdet, hbst⟩ := Task.trapped_modes ((s.tile t).flush.task w) epc inside
  have htask : ((s.tile t).flush.payPair.modTask w (Task.trapped · epc inside)).task w = _ :=
    Tile.modTask_task _ _ _ (hruns.active.trans hw)
  rw [Tile.payPair_task] at htask
  have hmate := (hruns.trans (Tile.runsAs_modTask _ w (Task.trapped · epc inside))).mate_ne hm
  refine ⟨inside, ?_⟩
  unfold takeTrap
  simp only [hw, hs, hv, hin, Bool.not_true, Bool.false_eq_true, if_false, Task.trapped_def]
  generalize ((s.tile t).flush.payPair.modTask w fun k => k.trapped epc inside) = u at *
  refine recheck_setTile (P := fun v => v.task w = _ ∧ v.hnd = _) hmate fun pr => ⟨?_, ?_⟩
  · rw [← htask]
    exact Tile.task_of_frame hne rfl rfl
  · simp only [htask, hdet, hbst]
    rfl

/-- A handler's own trap, its frame still free for it: the frame of the nested entry. -/
theorem takeTrap_nested {h : Handler} (hh : (s.tile t).hnd = some h) (hp : (s.tile t).pend = []) (hr : (s.tile t).reduction = none)
    (hpair : (s.tile t).pairing = none) (hfirst : bit h.ecause 8 = false)
    (hv : bit (if bit h.ecause 12 then (s.tile t).svec else (s.tile t).tvec) 63 = true) :
    ∃ inside, ((takeTrap s t c epc addr late fdrop note sup).tile t).hnd = some
      { h with
        ecause := nestedCause h.ecause c, eaddr := if causeOpen c then (s.tile t).openAddr t else addr, hepc := epc
        task := { ((h.task.setG 1 (nestedCause h.ecause c)).setG 2 (if causeOpen c then (s.tile t).openAddr t else addr)) with
          pc := (if bit h.ecause 12 then (s.tile t).svec else (s.tile t).tvec) &&& 0x1FFF, mid := inside } } := by
  have hactive : (s.tile t).active = some .hnd := by simp only [Tile.active, hh, Option.isSome_some, if_true]
  have hh' : (s.tile t).payPair.hnd = some h := hh
  refine ⟨(s.tile t).leavesLine h.task.pc epc, ?_⟩
  unfold takeTrap
  simp only [hactive, hh, hfirst, hv, Tile.flush_of_nothing _ hp hr, hh', Bool.not_true, Bool.or_self, Bool.false_eq_true, if_false]
  rw [recheck_of_unpaired (by rw [State.setTile_tile_same]; exact hpair), State.setTile_tile_same]
  rfl

/-- A nested trap with NEST set, or whose vector has no EN, kills the husk. -/
theorem takeTrap_nested_kills {h : Handler} (hh : (s.tile t).hnd = some h)
    (hbad : bit h.ecause 8 = true ∨ bit (if bit h.ecause 12 then (s.tile t).svec else (s.tile t).tvec) 63 = false) :
    takeTrap s t c epc addr late fdrop note sup = eccuKill s t := by
  have hactive : (s.tile t).active = some .hnd := by simp only [Tile.active, hh, Option.isSome_some, if_true]
  have hkill : (bit h.ecause 8 || !bit (if bit h.ecause 12 then (s.tile t).svec else (s.tile t).tvec) 63) = true := by
    obtain hb | hb := hbad <;> simp only [hb, Bool.true_or, Bool.not_false, Bool.or_true]
  unfold takeTrap
  simp only [hactive, hh, hkill, if_true]

/-- A trap of a task whose chosen vector has no EN kills the husk. -/
theorem takeTrap_kills (hne : w ≠ .hnd) (hw : (s.tile t).active = some w)
    (hv : bit (if causeRouteS c || sup || ((s.tile t).task w).sup || !bit (s.tile t).tvec 63 then (s.tile t).svec
      else (s.tile t).tvec) 63 = false) : takeTrap s t c epc addr late fdrop note sup = eccuKill s t := by
  unfold takeTrap
  simp only [hw, hv, Bool.not_false, if_true]

end Entry

/-- Settles O58: the entry of a task's trap and of a handler's own. -/
theorem trapsEnterTheirHandler : Obligations.TrapsEnterTheirHandler := by
  unfold Obligations.TrapsEnterTheirHandler
  refine ⟨fun s t w c epc addr late fdrop note sup hne hw hm => ⟨fun hv => takeTrap_kills hne hw hv, fun hv => ?enters⟩,
    fun s t h c epc addr late fdrop note sup hh hp hr hpair => ⟨fun hbad => takeTrap_nested_kills hh hbad, fun hfirst hv => ?nested⟩⟩
  case enters =>
    obtain ⟨inside, htask, hhnd⟩ := takeTrap_enters (epc := epc) (addr := addr) (late := late) (fdrop := fdrop) (note := note) hne hw hm rfl hv
    obtain ⟨bhnd, bsup, blvl, bdet, bbst, bmwo, bschk, bpx, brm⟩ := handlerTstat_bits
      (causeRouteS c || sup || ((s.tile t).task w).sup || !bit (s.tile t).tvec 63) ((s.tile t).flush.task w).det ((s.tile t).flush.task w).bst
    refine ⟨by simp only [Tile.active, hhnd, Option.isSome_some, if_true], by rw [htask]; rfl, by rw [htask]; rfl, by rw [htask]; rfl,
      by rw [htask]; rfl, by rw [htask]; rfl, _, hhnd, rfl, rfl, rfl, rfl, fun ho => ?_, rfl, handlerTask_getG_cause .., handlerTask_getG_addr ..,
      fun r h1 h2 => handlerTask_getG_other _ _ _ _ _ h1 h2, rfl, rfl, rfl, rfl, rfl, rfl, bhnd, blvl, bsup, bdet, bbst, brm, bpx, bschk, bmwo⟩
    rw [ho]
    rfl
  case nested =>
    obtain ⟨inside, hhnd⟩ := takeTrap_nested (c := c) (epc := epc) (addr := addr) (late := late) (fdrop := fdrop) (note := note) (sup := sup)
      hh hp hr hpair hfirst hv
    refine ⟨_, hhnd, rfl, rfl, rfl, rfl, field_nestedCause .., bit_nestedCause .., fun ho => ?_, rfl,
      (Task.setG_getG_other _ _ (by decide)).trans (Task.setG_getG_same _ _ (by decide)), Task.setG_getG_same _ _ (by decide),
      fun r h1 h2 => (Task.setG_getG_other _ _ h2).trans (Task.setG_getG_other _ _ h1), rfl, rfl, rfl⟩
    rw [ho]
    rfl

end Sys2Proof.Machine
end

section
/-!
SUPPORT. The locks that a commit releases (spec/17 R326).
-/

namespace Sys2Proof.Machine

open Sys2Proof

/-- What a table reads as at a key, where it is not the default, is listed there. -/
theorem Sparse.mem_of_get {α : Type} {d : α} {k : Nat} : ∀ {m : Sparse α}, Sparse.get d m k ≠ d → (k, Sparse.get d m k) ∈ m
  | [], h => absurd rfl h
  | (j, v) :: r, h => by
    rw [Sparse.get] at h ⊢
    split at h
    · next hj => rw [if_pos hj, ← hj]; exact List.mem_cons_self
    · next hj => rw [if_neg hj]; exact List.mem_cons_of_mem _ (Sparse.mem_of_get h)

/-- A canonical table reads at each of its keys as what it lists there. -/
theorem Sparse.get_of_mem {α : Type} [DecidableEq α] {d : α} {k : Nat} {v : α} : ∀ {m : Sparse α} {a : Nat}, Sparse.wfFrom d a m = true →
    (k, v) ∈ m → a ≤ k ∧ Sparse.get d m k = v
  | (j, u) :: r, a, hm, h => by
    simp only [Sparse.wfFrom, Bool.and_eq_true, decide_eq_true_eq] at hm
    rcases List.mem_cons.mp h with heq | hr
    · cases heq
      exact ⟨hm.1.1, if_pos rfl⟩
    · obtain ⟨hlt, hget⟩ := Sparse.get_of_mem hm.2 hr
      exact ⟨by omega, (if_neg (by omega)).trans hget⟩

/-- A tile at which a core holds a lock is one of its homes. -/
theorem mem_lockHomes {s : State} {t k : Nat} (h : ((s.tile k).locks.any fun l => l.agent = t) = true) : k ∈ lockHomes s t :=
  List.mem_map_of_mem (f := Prod.fst) (List.mem_filter.mpr ⟨Sparse.mem_of_get fun hd => by
    rw [State.tile, hd] at h
    exact Bool.noConfusion h, h⟩)

/-- In a canonical state a core's homes are the tiles at which it holds a lock. -/
theorem locks_of_mem_lockHomes {s : State} {t k : Nat} (hs : Sparse.wf {} s.tiles = true) (h : k ∈ lockHomes s t) :
    ((s.tile k).locks.any fun l => l.agent = t) = true := by
  obtain ⟨⟨j, u⟩, he, rfl⟩ := List.mem_map.mp h
  obtain ⟨hmem, hlock⟩ := List.mem_filter.mp he
  rw [State.tile, (Sparse.get_of_mem hs hmem).2]
  exact hlock

/-- The release of a core's locks to home k. -/
def unlockTo (t tag k : Nat) : Packet := mkPacket t k tag orderedChan (.unlock t)

theorem sendUnlocks_eq (s : State) (t tag : Nat) : sendUnlocks s t tag = sendEach (unlockTo t tag) (lockHomes s t) s := rfl

/-- In a canonical state a commit sends each home of the core's locks their release, under the operation of the commit. -/
theorem commitBoost_unlocks {s : State} {x : In} {i k : Nat} (hs : Sparse.wf {} s.tiles = true) (hk : k ∈ lockHomes s x.t) :
    ∃ p ∈ (commitBoost s x i).net, p.dst = k ∧ p.tag = x.seq ∧ p.body = .unlock x.t := by
  obtain ⟨o, ho⟩ : ∃ o : Outst, o = { tag := 0, who := x.w, kind := .delivery, acks := (lockHomes s x.t).length, slow := true } := ⟨_, rfl⟩
  have hlocks : ((addOut s x o).tile k).locks = (s.tile k).locks := by
    refine modTile_aspect (p := Tile.locks) (fun u => ?_) s x.t k
    exact Tile.modTask_locks ..
  have hstill : k ∈ lockHomes (addOut s x o) x.t := mem_lockHomes (by rw [hlocks]; exact locks_of_mem_lockHomes hs hk)
  obtain ⟨n, hsent⟩ := exists_mem_sendEach (unlockTo x.t x.seq) _ (addOut s x o) hstill
  refine ⟨{ unlockTo x.t x.seq k with id := n }, ?_, rfl, rfl, rfl⟩
  unfold commitBoost
  refine wakeWaiting_keeps (P := fun a => _ ∈ a.net) (fun a j ha => ha) ?_
  rw [if_neg (by rw [List.length_eq_zero_iff]; exact List.ne_nil_of_mem hk), ← ho]
  exact hsent

/-- A lock of core 0's boosted task. -/
def shadowedLock : Lock := { obj := 0, kind := 0, key := 0, agent := 0, life := 0, age := { tag := 0, ticket := 0, cid := 0 }, tag := 0, granted := true }

/-- A state whose table of tiles lists core 0 twice: reads see the first entry, and the second one, which alone has a lock, goes with the
first write to core 0. -/
def shadowedLocks : State := { State.reset with tiles := [(0, {}), (0, { locks := [shadowedLock] })] }

/-- Core 0's operands of a DONE. -/
def doneOfCore0 : In := { t := 0, w := .img 0, f := fieldsOf 0, a := 0, b := 0, c := 0, seq := 0, pc := 0, rm := 0 }

/-- The commit counts core 0 among the homes, and then finds no lock there. -/
theorem shadowedLocks_homes : lockHomes shadowedLocks 0 = [0] := rfl

theorem shadowedLocks_sends_nothing : (commitBoost shadowedLocks doneOfCore0 0).net = [] := rfl

/-- Refutes O11: the clause on the release of the locks is about every state, one with a table of tiles that is not canonical among them.
In `shadowedLocks` core 0 is listed twice: the homes are counted with the shadowed entry, its lock is gone once the operation of the
release is recorded in the tile, and no release is sent. With a canonical table the clause holds (`commitBoost_unlocks`). -/
theorem not_doneAndIfenceComplete : ¬ Obligations.DoneAndIfenceComplete := by
  unfold Obligations.DoneAndIfenceComplete
  rintro ⟨-, -, hcommit, -⟩
  obtain ⟨-, -, -, -, -, hsent⟩ := (hcommit 0).2 doneOfCore0 shadowedLocks
  obtain ⟨p, hp, -⟩ := hsent 0 (shadowedLocks_homes ▸ List.mem_singleton_self 0)
  rw [shadowedLocks_sends_nothing] at hp
  exact List.not_mem_nil hp

end Sys2Proof.Machine
end

section
/-!
SUPPORT. Declarations, releases and abort notices at their home (spec/17 R316 to R322).
-/

namespace Sys2Proof.Machine

open Sys2Proof

/-- Picking from a list that begins with `o`, by a number reduced to its length, gives one of it. -/
theorem getD_mod_mem {α : Type} (o : α) (os : List α) (c : Nat) : (o :: os).getD (c % (os.length + 1)) o ∈ o :: os := by
  have hlt : c % (os.length + 1) < (o :: os).length := Nat.mod_lt _ (Nat.succ_pos _)
  rw [List.getD_eq_getElem _ _ hlt]
  exact List.getElem_mem hlt

/-- Settles O48: the rows of R318, the release, the notice. -/
theorem declarationsAreJudgedAtTheirHome : Obligations.DeclarationsAreJudgedAtTheirHome := by
  unfold Obligations.DeclarationsAreJudgedAtTheirHome
  refine ⟨fun s p d ha hb => ⟨fun hpriv => ?priv, fun hmay => ⟨fun l hblank => ?blank, fun hnone =>
      ⟨fun holder => ?older, fun hold hyoung => ⟨fun hroom => ?waits, fun hfull => ?fullYounger⟩,
        fun hold hyoung => ⟨fun hroom => ?granted, fun hfull => ?fullNone⟩⟩⟩⟩,
    fun s p agent ha hb => ?release, fun s p life reason ticket ha hb => ⟨fun i hi hlife => ?notice, fun hnot => ?ignored⟩,
    fun u reason ticket => ⟨fun hu => ?undone, fun hu hn => Tile.askAbort_of_none hu hn, fun k j hu hk => ⟨fun hgo => ?gives, fun hgo => ?keeps⟩⟩⟩
  case priv =>
    show execDeclarationAtHome s = _
    simp only [execDeclarationAtHome, ha, hb, hpriv, if_true]
  case blank =>
    show execDeclarationAtHome s = _
    simp only [execDeclarationAtHome, ha, hb, hmay, hblank, Bool.false_eq_true, if_false]
  case older =>
    obtain ⟨o, os, ho⟩ := List.exists_cons_of_ne_nil holder
    refine ⟨(o :: os).getD ((s.drop s.sel).choose.1 % (os.length + 1)) o, ho ▸ getD_mod_mem o os _, ?_⟩
    show execDeclarationAtHome s = _
    simp only [execDeclarationAtHome, ha, hb, hmay, hnone, ho, Bool.false_eq_true, if_false]
  case waits =>
    show execDeclarationAtHome s = _
    simp only [execDeclarationAtHome, ha, hb, hmay, hnone, hold, List.isEmpty_eq_false_iff.mpr hyoung, Nat.not_le.mpr hroom,
      Bool.not_false, Bool.false_eq_true, if_false, if_true]
  case fullYounger =>
    show execDeclarationAtHome s = _
    simp only [execDeclarationAtHome, ha, hb, hmay, hnone, hold, List.isEmpty_eq_false_iff.mpr hyoung, hfull, Bool.not_false,
      Bool.false_eq_true, if_false, if_true]
    rfl
  case granted =>
    show execDeclarationAtHome s = _
    simp only [execDeclarationAtHome, ha, hb, hmay, hnone, hold, hyoung, Nat.not_le.mpr hroom, List.isEmpty_nil, Bool.not_true,
      Bool.false_eq_true, if_false]
  case fullNone =>
    show execDeclarationAtHome s = _
    simp only [execDeclarationAtHome, ha, hb, hmay, hnone, hold, hyoung, hfull, List.isEmpty_nil, Bool.not_true, Bool.false_eq_true,
      if_false, if_true]
    rfl
  case release =>
    show execLockReleaseAtHome s = _
    simp only [execLockReleaseAtHome, ha, hb]
  case notice =>
    show execAbortNoticeArrival s = _
    simp only [execAbortNoticeArrival, ha, hb, State.drop_tile, hi, hlife, if_true]
  case ignored =>
    show execAbortNoticeArrival s = _
    simp only [execAbortNoticeArrival, ha, hb, State.drop_tile]
    split
    · next i hi => exact if_neg (hnot i hi)
    · rfl
  case undone => exact Tile.askAbort_of_undo hu
  case gives => exact (Tile.askAbort_of_some hu hk).trans (if_pos hgo)
  case keeps => exact (Tile.askAbort_of_some hu hk).trans (if_neg (Bool.not_eq_true _ ▸ hgo))

end Sys2Proof.Machine
end

section
/-!
SUPPORT. Messages and grants at the core that they reach (spec/15 R280, R281, R292, R293).
-/

namespace Sys2Proof.Machine

open Sys2Proof

/-! ### The words of a payload -/

theorem setBytesMem_append : ∀ (a b : List Byte) (m : List Host.Cell) (k : Nat),
    setBytesMem m k (a ++ b) = setBytesMem (setBytesMem m k a) (k + a.length) b
  | [], _, _, _ => rfl
  | x :: a, b, m, k => by
    rw [List.cons_append, setBytesMem, setBytesMem_append a b, setBytesMem, List.length_cons, Nat.add_comm a.length 1, ← Nat.add_assoc]

@[simp] theorem State.putSlice_tile (s : State) (t off : Nat) (bs : List Byte) (k : Nat) : (s.putSlice t off bs).tile k = s.tile k := by
  refine foldl_keeps (P := fun a : State => a.tile k = s.tile k) _ _ (fun a i _ h => ?_) (s.putData t off bs) (State.putData_tile ..)
  rw [State.markLine]
  split
  · exact h
  · exact h

theorem State.isEmpty_setEmpty_false (s : State) (t off k o : Nat) (h : s.isEmpty k o = false) :
    (s.setEmpty t off false).isEmpty k o = false := by
  rw [State.isEmpty, State.setEmpty, Sparse.get_set]
  split
  · rfl
  · exact h

/-- A write of data leaves a full word full. -/
theorem State.putSlice_full {s : State} {k o : Nat} (h : s.isEmpty k o = false) (t off : Nat) (bs : List Byte) :
    (s.putSlice t off bs).isEmpty k o = false := by
  refine foldl_keeps (P := fun a : State => a.isEmpty k o = false) _ _ (fun a i _ ha => ?_) (s.putData t off bs)
    (foldl_keeps (P := fun a : State => a.isEmpty k o = false) _ _ (fun a i _ ha => ?_) s h)
  · rw [State.markLine]
    split
    · exact ha
    · exact ha
  · dsimp only
    split
    · rw [State.replaceWord]
      split
      · exact State.isEmpty_setEmpty_false _ _ _ _ _ ha
      · exact ha
    · exact ha

section Payload
variable {t : Nat}

/-- One word of a payload is written and full, where no access waits at the tile. -/
theorem putPayload_cons {s : State} (hw : (s.tile t).waiters = []) (off : Nat) (w : Word) (ws : List Word) :
    putPayload s t off (w :: ws) = putPayload ((s.putSlice t off (bytesOf w.toNat 8)).setEmpty t off false) t (off + 8) ws := by
  rw [putPayload, State.retestAt_of_none (by rw [State.setEmpty_tile, State.putSlice_tile]; exact hw)]

/-- What the writing of a word and its becoming full keep is kept by a payload. -/
theorem putPayload_keeps {P : State → Prop}
    (hP : ∀ a off bs, P a → P ((a.putSlice t off bs).setEmpty t off false)) :
    ∀ (ws : List Word) {s : State} (off : Nat), (s.tile t).waiters = [] → P s → P (putPayload s t off ws)
  | [], _, _, _, h => h
  | w :: ws, s, off, hw, h => by
    rw [putPayload_cons hw]
    exact putPayload_keeps hP ws _ (by rw [State.setEmpty_tile, State.putSlice_tile]; exact hw) (hP s off _ h)

theorem putPayload_tile {s : State} (hw : (s.tile t).waiters = []) (off : Nat) (ws : List Word) (k : Nat) :
    (putPayload s t off ws).tile k = s.tile k :=
  putPayload_keeps (P := fun a => a.tile k = s.tile k) (fun a o bs h => by rw [State.setEmpty_tile, State.putSlice_tile, h]) ws off hw rfl

theorem putPayload_mem : ∀ (ws : List Word) {s : State} (off : Nat), (s.tile t).waiters = [] →
    (putPayload s t off ws).mem = setBytesMem s.mem (sliceKey t off) (wordsBytes ws)
  | [], _, _, _ => rfl
  | w :: ws, s, off, hw => by
    have hcons : wordsBytes (w :: ws) = bytesOf w.toNat 8 ++ wordsBytes ws := rfl
    rw [putPayload_cons hw, putPayload_mem ws (off + 8) (by rw [State.setEmpty_tile, State.putSlice_tile]; exact hw), State.setEmpty_mem,
      putSlice_mem, hcons, setBytesMem_append, length_bytesOf, sliceKey, sliceKey, Nat.add_assoc]

/-- Each word of a payload is full. -/
theorem putPayload_full : ∀ (ws : List Word) {s : State} (off : Nat) {j : Nat}, (s.tile t).waiters = [] → j < ws.length →
    (putPayload s t off ws).isEmpty t (off + 8 * j) = false
  | w :: ws, s, off, j, hw, hj => by
    have hnone : (((s.putSlice t off (bytesOf w.toNat 8)).setEmpty t off false).tile t).waiters = [] := by
      rw [State.setEmpty_tile, State.putSlice_tile]
      exact hw
    rw [putPayload_cons hw]
    cases j with
    | zero =>
      exact putPayload_keeps (P := fun a => a.isEmpty t off = false)
        (fun a o bs h => State.isEmpty_setEmpty_false _ _ _ _ _ (State.putSlice_full h ..)) ws _ hnone
        (Sparse.get_set_same false _ (wordKey t off) false)
    | succ j =>
      have hat : off + 8 * (j + 1) = off + 8 + 8 * j := by omega
      rw [hat]
      exact putPayload_full ws _ hnone (Nat.lt_of_succ_lt_succ hj)

end Payload

/-! ### Where a message goes -/

section Deposit
variable {s : State} {t : Nat} {m : Msg}

theorem deposit_stamped (hs : (s.tile t).touches (·.stamped) m.off (8 * m.words.length) = true) :
    deposit s t m = some (refuseMsg s t m .stawr) := by
  simp only [deposit, hs, if_true]

variable (hs : (s.tile t).touches (·.stamped) m.off (8 * m.words.length) = false)
include hs

theorem deposit_boosted (hb : (s.tile t).touches (·.boost) m.off (8 * m.words.length) = true) :
    deposit s t m = some (refuseMsg s t m .boostwr) := by
  simp only [deposit, hs, hb, Bool.false_eq_true, if_false, if_true]

variable (hb : (s.tile t).touches (·.boost) m.off (8 * m.words.length) = false)
include hb

theorem deposit_full (hfull : 64 ≤ (s.tile t).poolUsed) : deposit s t m = none := by
  simp only [deposit, hs, hb, hfull, Bool.false_eq_true, if_false, if_true]

/-- A message that finds room writes its words, counts as arrived, and its sprout is queued at its level. -/
theorem deposit_queues (hroom : (s.tile t).poolUsed < 64) : deposit s t m =
    let s1 := (putPayload s t m.off m.words).countArrival m.agent t m.path m.epoch none
    some (s1.modTile t fun u =>
      if m.level = 1 then { u with l1q := u.l1q ++ [{ task := sproutTask s1 t m, live := 0b1110, grant := some (m.grant t) }] }
      else { u with ready := u.ready ++
        [.free { task := sproutTask s1 t m, live := 0b1110, checked := true, sprout := true, grant := some (m.grant t) }] }, .done) := by
  simp only [deposit, hs, hb, Nat.not_le.mpr hroom, Bool.false_eq_true, if_false]

end Deposit

/-- The registers of a sprout: its length in bytes and its sender. -/
theorem sproutTask_getG (s : State) (t : Nat) (m : Msg) :
    (sproutTask s t m).getG 2 = BitVec.ofNat 64 (8 * m.words.length) ∧ (sproutTask s t m).getG 3 = BitVec.ofNat 64 m.cid :=
  ⟨(Task.setG_getG_other _ _ (by decide)).trans (Task.setG_getG_same _ _ (by decide)), Task.setG_getG_same _ _ (by decide)⟩

/-- Settles O44: the message case by case, the deposit by its ranges, grants and the halving. -/
theorem messagesAndGrantsArrive : Obligations.MessagesAndGrantsArrive := by
  unfold Obligations.MessagesAndGrantsArrive
  refine ⟨fun s p m ha hb => ⟨fun hf => ?follower, fun hf => ⟨fun hdet => ⟨fun hfull => ?windowFull, fun hroom => ?parked⟩,
        fun hdet => ⟨fun hnone => ?refused, fun s2 a hd => exec_messageArrival_deposits ha hb hf hdet hd⟩⟩⟩,
    fun s t m => ⟨deposit_stamped, deposit_boosted⟩, fun s t m hs hb => ⟨deposit_full hs hb, fun hroom hw => ?deposited⟩,
    fun s p k n ha hb => ?grant, fun s g r hg hocc => ⟨?withheld, fun hin => if_pos hin, fun hout => ?outside⟩, fun s hc hh => ?halving⟩
  case follower =>
    show execMessageArrival s = _
    simp only [execMessageArrival, ha, hb, hf, if_true]
  case windowFull =>
    show execMessageArrival s = _
    simp only [execMessageArrival, ha, hb, hf, hdet, hfull, Option.isSome_none, Bool.false_eq_true, if_false, if_true]
  case parked =>
    show execMessageArrival s = _
    simp only [execMessageArrival, ha, hb, hf, hdet, Nat.not_le.mpr hroom, Option.isSome_none, Bool.false_eq_true, if_false, if_true]
  case refused =>
    show execMessageArrival s = _
    simp only [execMessageArrival, ha, hb, hf, hdet, hnone, Option.isSome_none, Bool.false_eq_true, if_false]
  case deposited =>
    refine ⟨_, deposit_queues hs hb hroom, fun hl => ?_, fun hl => ?_, putPayload_mem m.words m.off hw, fun j hj => putPayload_full m.words m.off hw hj⟩
    · rw [State.modTile_tile_same, if_pos hl, ← putPayload_tile hw m.off m.words t]
      exact List.map_append
    · rw [State.modTile_tile_same, if_neg hl, ← putPayload_tile hw m.off m.words t]
      exact ⟨_, rfl, rfl, rfl, rfl, rfl, sproutTask_getG ..⟩
  case grant =>
    show execAllowanceGrantArrival s = _
    simp only [execAllowanceGrantArrival, ha, hb]
  case withheld =>
    show execGrantWithheldRelease s = _
    simp only [execGrantWithheldRelease, hg, hocc, if_true]
  case outside =>
    rw [sendGrant, if_neg (Nat.not_lt.mpr hout)]
    exact ⟨rfl, _, rfl, rfl, rfl, rfl, rfl⟩
  case halving =>
    show execCongestionHalving s = _
    simp only [execCongestionHalving, hc, hh, ne_eq, not_false_eq_true, decide_true, Bool.and_self, if_true]

end Sys2Proof.Machine
end

section
/-!
SUPPORT. Pods that start, level-1 entry, the end of a slice (spec/15 R269, R273, spec/09 R150, spec/18 R341).
-/

namespace Sys2Proof.Machine

open Sys2Proof

/-- A core that enters a level-1 task, before the task: the results of the stream below are written, and its place is kept. -/
def Tile.below (u : Tile) : Tile :=
  match u.flush.payPair.cur0 with
  | some i => u.flush.payPair.setCtx i { u.flush.payPair.ctx i with
      check := u.flush.payPair.checkTo, task := { (u.flush.payPair.ctx i).task with mid := !u.flush.payPair.atLine } }
  | none => u.flush.payPair

theorem Tile.runsAs_below (u : Tile) : u.RunsAs u.below := by
  refine (u.runsAs_flush.trans (runsAs_payPair _)).trans ?_
  unfold Tile.below
  split
  · exact ⟨rfl, rfl, rfl, rfl⟩
  · exact RunsAs.refl _

/-- A ready level-1 task is one of a core without a handler. -/
theorem Tile.hnd_of_level1Ready {u : Tile} (h : u.level1Ready = true) : u.hnd.isSome = false := by
  simp only [level1Ready, Bool.and_eq_true, Option.isNone_iff_eq_none] at h
  obtain ⟨⟨⟨-, hh⟩, -⟩, -⟩ := h
  rw [hh]
  rfl

section Starts
variable {s : State} {n i : Nat} (hidle : (s.tile s.cur).idle = true) (hm : ∀ p, (s.tile s.cur).pairing = some p → p.mate ≠ s.cur)
include hidle hm

/-- A bound pod starts in its image, with a slice of its own. -/
theorem exec_podStart_bound (hs : (s.tile s.cur).startable = some (n, .bound i)) :
    ∃ t, exec .podStart s = .next t ∧ (t.tile s.cur).cur0 = some i ∧ ((t.tile s.cur).ctx i).st = .running
      ∧ ((t.tile s.cur).ctx i).task = ((s.tile s.cur).ctx i).task ∧ (t.tile s.cur).ready = (s.tile s.cur).ready.eraseIdx n
      ∧ (t.tile s.cur).used = 0 ∧ (t.tile s.cur).lim = max 4096 (s.tile s.cur).slice := by
  show ∃ t, execPodStart s = _ ∧ _
  simp only [execPodStart, hidle, hs, Bool.not_true, Bool.false_eq_true, if_false]
  refine ⟨_, rfl, recheck_setTile (P := fun v => v.cur0 = _ ∧ (v.ctx i).st = _ ∧ (v.ctx i).task = _ ∧ v.ready = _ ∧ v.used = _ ∧ v.lim = _) hm
    fun pr => ⟨rfl, ?_, ?_, rfl, rfl, rfl⟩⟩
  all_goals simp only [Tile.ctx, Tile.setCtx, Sparse.get_set_same]

/-- A free pod without a grant starts in the first free image. -/
theorem exec_podStart_free {p : Pod} (hs : (s.tile s.cur).startable = some (n, .free p)) (hi : (s.tile s.cur).freeImage = some i)
    (hg : p.grant = none) :
    ∃ t, exec .podStart s = .next t ∧ (t.tile s.cur).cur0 = some i ∧ ((t.tile s.cur).ctx i).st = .running
      ∧ ((t.tile s.cur).ctx i).task = (if p.initial then p.task
        else { p.task with lid := lidOf s s.cur p.task.gid, g := liveRegs p.task p.live })
      ∧ (t.tile s.cur).ready = (s.tile s.cur).ready.eraseIdx n := by
  have hfree (r : List Ready) (b : Bool) : ({ s.tile s.cur with
      ready := r, used := 0, lim := (s.tile s.cur).sliceLen, line := none, pairNext := false, atLine := b
      held := false } : Tile).freeImage = some i := hi
  show ∃ t, execPodStart s = _ ∧ _
  simp only [execPodStart, hidle, hs, hfree, hg, Bool.not_true, Bool.false_eq_true, if_false]
  refine ⟨_, rfl, recheck_setTile (P := fun v => v.cur0 = _ ∧ (v.ctx i).st = _ ∧ (v.ctx i).task = _ ∧ v.ready = _) hm
    fun pr => ⟨rfl, ?_, ?_, rfl⟩⟩
  all_goals simp only [Tile.ctx, Tile.setCtx, Sparse.get_set_same]

end Starts

/-- Settles O46: each event in its cases. -/
theorem coresStartEnterAndSwitchTasks : Obligations.CoresStartEnterAndSwitchTasks := by
  unfold Obligations.CoresStartEnterAndSwitchTasks
  refine ⟨fun s n i hidle hs hm => exec_podStart_bound hidle hm hs, fun s n i p hidle hs hi hg hm => exec_podStart_free hidle hm hs hi hg,
    fun s c m n p hc hdet hcur hfol hready himg hpair hpool hfind => ?take, fun u => ⟨rfl, fun l hl => ?buffered⟩,
    fun s x r hready hq hg => ⟨fun hp => ?enters, fun p hp hclosing hcount => ?closes⟩,
    fun s i hw hdue hline hnext hset => ⟨fun hopen => ?wants, fun hopen hf => ?single, fun hopen hf hlead hall => ?gang⟩,
    fun s w l hw hnext hpx hl => ?late⟩
  case take =>
    show execPodTake s = _
    simp only [execPodTake, hc, hdet, hcur, hfol, hready, hpair, Nat.not_le.mpr hpool, hfind, Option.isSome_none, List.isEmpty_nil,
      Option.isNone_eq_false_iff.mpr himg, Bool.not_true, Bool.or_self, decide_false, Bool.false_eq_true, if_false]
    cases p.started <;> rfl
  case buffered =>
    obtain ⟨h, hin⟩ := Option.filter_eq_some_iff.mp hl
    exact ⟨h, hin⟩
  case enters =>
    have hnone := (s.tile s.cur).runsAs_below.pairing_none hp
    have hhnd := (s.tile s.cur).runsAs_below.hnd.trans (Tile.hnd_of_level1Ready hready)
    show ∃ t, execLevel1Entry s = _ ∧ _
    simp only [execLevel1Entry, hready, hp, hq, hg, Option.any_none, Bool.not_true, Bool.or_self, Bool.false_eq_true, if_false]
    refine ⟨_, rfl, ?_⟩
    rw [recheck_of_unpaired (by rw [State.setTile_tile_same]; exact hnone), State.setTile_tile_same]
    exact ⟨rfl, rfl, (if_neg (Bool.eq_false_iff.mp hhnd)).trans (if_pos rfl)⟩
  case closes =>
    show execLevel1Entry s = _
    simp only [execLevel1Entry, hready, hp, hclosing, Option.any_some, bne_iff_ne.mpr hcount, Bool.not_true, Bool.or_self,
      Bool.false_eq_true, if_false, if_true]
  case wants =>
    show execTimeSliceExpiry s = _
    simp only [execTimeSliceExpiry, hw, hdue, hline, hnext, hset, hopen, Bool.not_true, Bool.or_self, Bool.false_eq_true, if_false, if_true]
  case single =>
    show execTimeSliceExpiry s = _
    simp only [execTimeSliceExpiry, hw, hdue, hline, hnext, hset, hopen, hf, Bool.not_true, Bool.or_self, Bool.false_eq_true, if_false]
  case gang =>
    show execTimeSliceExpiry s = _
    simp only [execTimeSliceExpiry, hw, hdue, hline, hnext, hset, hopen, hf, hlead, hall, Bool.not_true, Bool.or_self, Bool.false_eq_true,
      if_false, if_true, decide_true, Bool.and_self]
  case late =>
    show execTrapEntry s = _
    simp only [execTrapEntry, hw, hnext, hpx, hl, Bool.or_self, Bool.false_eq_true, if_false]

end Sys2Proof.Machine
end

section
/-!
SUPPORT. Pairs as they are made and as their intervals close, and digests (spec/19 R356 to R366).
-/

namespace Sys2Proof.Machine

open Sys2Proof

/-! ### PAIR -/

/-- Changing the registers of an image, whether or not it runs. -/
theorem Tile.modTask_img (u : Tile) (i : Nat) (g : Task → Task) : (u.modTask (.img i) g).task (.img i) = g (u.task (.img i)) :=
  congrArg Ctx.task (Tile.setCtx_ctx_same ..)

theorem Task.raise_eq (k : Task) (n : Nat) : ∃ d, k.raise n = { k with d := d } := by
  rw [Task.raise]
  split
  · exact ⟨_, rfl⟩
  · exact ⟨k.d, rfl⟩

theorem countRetired_img (s : State) (t i : Nat) (wasOpen : Bool) :
    ((countRetired s t (.img i) wasOpen).tile t).task (.img i) = ((s.tile t).task (.img i)).counted wasOpen := by
  unfold countRetired
  rw [State.modTile_tile_same]
  extract_lets u1 u2 det u3
  have h1 : u1.task (.img i) = (s.tile t).task (.img i) := by
    unfold u1
    dsimp only
    split <;> rfl
  have h2 : u2.task (.img i) = (u1.task (.img i)).counted wasOpen := by
    cases wasOpen with
    | false => rfl
    | true => exact Tile.modTask_img u1 i (Task.counted · true)
  have h3 : u3.task (.img i) = u2.task (.img i) := by
    unfold u3
    repeat' split
    all_goals rfl
  exact h3.trans (h2.trans (congrArg (Task.counted · wasOpen) h1))

/-- Going on to the next slot leaves the pair as it is. -/
theorem advance_next_pairing (s : State) (t k : Nat) (w : Who) (f : Fields) (beats : Nat) :
    ((advance s t w f beats .next).tile k).pairing = (s.tile k).pairing := by
  refine modTile_aspect (p := Tile.pairing) (fun u => ?_) s t k
  extract_lets pc slot first b u1 u2 u3
  have h1 : u1.pairing = u.pairing := by
    unfold u1
    split <;> rfl
  have h3 : u3.pairing = u.pairing := (Tile.modTask_pairing ..).trans h1
  have h4 : (u3.leaveLine w).pairing = u3.pairing := by
    unfold Tile.leaveLine Tile.leftFwd
    split
    · split <;> rfl
    · rfl
  rw [← h3]
  change Tile.pairing (if slot = 4 then _ else _) = _
  split
  · exact h4
  · rfl

/-- The registers with which a task leaves its PAIR are those with which it came, but for its counters and its count of the window. -/
theorem pairing_registers (s : State) (x : In) (v : Word) {i : Nat} (hw : x.w = .img i) (wasOpen : Bool) :
    ∃ d ts, ((countRetired (answeredLater x s v) x.t x.w wasOpen).tile x.t).task x.w = { (s.tile x.t).task x.w with d := d, tstat := ts } := by
  have hraised : ((answeredLater x s v).tile x.t).task x.w = ((s.tile x.t).task x.w).raise x.f.setc.toNat := by
    rw [answeredLater, State.send_tile, addOut, State.modTile_tile_same, hw]
    exact Tile.modTask_img ..
  rw [hw] at hraised ⊢
  rw [countRetired_img, hraised]
  obtain ⟨d, hd⟩ := Task.raise_eq ((s.tile x.t).task (.img i)) x.f.setc.toNat
  obtain ⟨ts, hts⟩ := Task.counted_eq { (s.tile x.t).task (.img i) with d := d } wasOpen
  exact ⟨d, ts, by rw [hd, hts]⟩

section Pairs
variable {s s1 : State} {w : Who} {m : Form} {f : Fields} {x : In} {i n : Nat} {h : Husk}

/-- A PAIR whose neighbour is idle makes the pair. -/
theorem exec_pair_makes (hi : Issues s w (.pair f) m f s1 x) (himg : x.w = .img i) (hh : s1.huskOfTile x.t = some (n, h))
    (hfwd : ((s1.tile x.t).task x.w).fwd = false) (hboost : ((s1.tile x.t).ctx i).boost.active = false)
    (heven : (tileX x.t - h.col0) % 2 = 0) (hroom : tileX x.t - h.col0 + 1 < h.width) (hlead : (s1.tile x.t).pairing = none)
    (hidle : (s1.tile (x.t + 1)).busyForPair = false) :
    exec (.pair f) s = .next (advance (makePair (countRetired (answeredLater x s1 0) x.t x.w ((s1.tile x.t).task x.w).mwo) x
      (s1.tile x.t) i) x.t x.w x.f 1 .next) := by
  have hzero : pairAnswer s1 x.t = 0 := by
    rw [pairAnswer, hlead, hidle]
    rfl
  rw [exec_pair hi himg hh hfwd hboost heven hroom, hzero]
  rfl

end Pairs

section Made
variable (s : State) (x : In) (u : Tile) (i : Nat) (f : Fields)

theorem makePair_leader : ∃ k n, ((advance (makePair s x u i) x.t x.w f 1 .next).tile x.t).pairing =
    some { mate := x.t + 1, img := i, k := x.f.imm.toNat, at_ := x.w, check := k, base := n } := by
  rw [advance_next_pairing, makePair, State.modTile_tile_other _ (by omega), State.modTile_tile_same]
  exact ⟨_, _, rfl⟩

theorem makePair_follower : (advance (makePair s x u i) x.t x.w f 1 .next).tile (x.t + 1) =
    { ((s.tile (x.t + 1)).setCtx 0 { u.ctx i with
        task := { (s.tile x.t).task x.w with pc := nextPc x.pc, mid := x.pc.toNat % 8 != 4 } }) with follows := some x.t } := by
  rw [advance, State.modTile_tile_other _ (by omega), makePair, State.modTile_tile_same, State.modTile_tile_other _ (by omega)]

theorem makePair_follower_task : (((advance (makePair s x u i) x.t x.w f 1 .next).tile (x.t + 1)).ctx 0).task =
    { (s.tile x.t).task x.w with pc := nextPc x.pc, mid := x.pc.toNat % 8 != 4 } := by
  rw [makePair_follower]
  exact congrArg Ctx.task (Tile.setCtx_ctx_same ..)

end Made

/-! ### The close of an interval -/

section Close
variable {s : State} {t : Nat} {p : Pairing}

theorem exec_pairIntervalClose (hc : (s.tile s.cur).canClose = true) (hp : ((s.modTile s.cur Tile.flush).tile s.cur).pairing = some p) :
    exec .pairIntervalClose s =
      let r := mateFingerprint (s.modTile s.cur Tile.flush) p
      if p.fp = r.2 then .next (agreePair r.1 s.cur)
      else if p.rerun then .next (takeTrap (endPair (rollBack r.1 s.cur p) s.cur) s.cur .pairfail p.check.pc 0 false false false false)
      else .next (rollBack r.1 s.cur p) := by
  show execPairIntervalClose s = _
  simp only [execPairIntervalClose, hc, hp, Bool.not_true, Bool.false_eq_true, if_false]

/-- An agreed point makes the follower's copy the context as it stands. -/
theorem recheck_mate {w : Who} (hp : (s.tile t).pairing = some p) (hw : (s.tile t).active = some w) :
    ((recheck s t).tile p.mate).ctx 0 = (s.tile t).ctx p.img := by
  simp only [recheck, hp, hw, State.modTile_tile_same, Tile.setCtx_ctx_same]

/-- Tile t's pair starts a new interval, and what its NI held goes out. -/
def nextInterval (s : State) (t : Nat) : State :=
  { s.modTile t fun u => { u with pairing := u.pairing.map (·.restart false) } with
    egress := s.egress.map fun e => if e.src = t then { e with held := false } else e }

theorem nextInterval_tile (hp : (s.tile t).pairing = some p) :
    (nextInterval s t).tile t = { s.tile t with pairing := some (p.restart false) } := by
  refine (State.modTile_tile_same s t fun u => { u with pairing := u.pairing.map (·.restart false) }).trans ?_
  rw [hp]
  rfl

theorem agreePair_pairing (hp : (s.tile t).pairing = some p) (hm : p.mate ≠ t) :
    ∃ w k b n, ((agreePair s t).tile t).pairing = some { p.restart false with at_ := w, check := k, checkBoost := b, base := n } :=
  recheck_pairing (p := p.restart false) (congrArg Tile.pairing (nextInterval_tile hp)) hm

theorem agreePair_net (s : State) (t : Nat) : (agreePair s t).net = s.net := (tilesOnly_recheck _ t).net

theorem agreePair_mate (hp : (s.tile t).pairing = some p) (hw : (s.tile t).active.isSome = true) :
    ((agreePair s t).tile p.mate).ctx 0 = (s.tile t).ctx p.img := by
  obtain ⟨w, hw⟩ := Option.isSome_iff_exists.mp hw
  have htile := nextInterval_tile hp
  have hmate := recheck_mate (congrArg Tile.pairing htile) ((congrArg Tile.active htile).trans hw)
  rw [htile] at hmate
  exact hmate

end Close

/-- Settles O34: PAIR in its three answers, UNPAIR, DIGEST, and the close with what it leaves. -/
theorem pairsAndDigestsCompleteAndIntervalsClose : Obligations.PairsAndDigestsCompleteAndIntervalsClose := by
  unfold Obligations.PairsAndDigestsCompleteAndIntervalsClose
  refine ⟨⟨⟨fun i n h => ⟨?paired, ?busy, ?made⟩, ?ends, ?none⟩, fun n h => ⟨?digest, ?clears⟩⟩,
    fun s p hc hp => ⟨fun hs => congrArg Prod.snd (mateFingerprint_of_same hs p), fun hfp => ?agrees, fun hfp => ⟨fun hr => ?differs, fun hr => ?fails⟩⟩,
    fun s t p hp hm => ?cleared, fun s t p => ⟨rfl, rfl, fun i => rollBack_task s t⟩⟩
  case paired =>
    rintro s w m f s1 x hi ⟨⟨himg, hh, hfwd, hboost, heven, hroom⟩, hlead⟩
    have htwo : pairAnswer s1 x.t = 2 := if_pos hlead
    rw [exec_pair hi himg hh hfwd hboost heven hroom, htwo]
    rfl
  case busy =>
    rintro s w m f s1 x hi ⟨⟨himg, hh, hfwd, hboost, heven, hroom⟩, hlead, hbusy⟩
    have hone : pairAnswer s1 x.t = 1 := by
      rw [pairAnswer, hlead]
      exact if_pos hbusy
    rw [exec_pair hi himg hh hfwd hboost heven hroom, hone]
    rfl
  case made =>
    rintro s w m f s1 x hi ⟨himg, hh, hfwd, hboost, heven, hroom⟩ hlead hidle
    obtain ⟨k, b, hleader⟩ := makePair_leader (countRetired (answeredLater x s1 0) x.t x.w ((s1.tile x.t).task x.w).mwo) x (s1.tile x.t) i x.f
    obtain ⟨d, ts, hregs⟩ := pairing_registers s1 x 0 himg ((s1.tile x.t).task x.w).mwo
    obtain ⟨-, -, rfl⟩ := hi.operands
    refine ⟨_, exec_pair_makes hi himg hh hfwd hboost heven hroom hlead hidle, ⟨_, hleader, rfl, rfl, rfl, rfl, rfl, rfl⟩, ?_, ?_, ?_⟩
    · rw [makePair_follower]
    · rw [makePair_follower_task, hregs]
      exact ⟨rfl, rfl, rfl, rfl, rfl, rfl, rfl, rfl, rfl⟩
    · exact answer_retired ((tilesOnly_countRetired ..).trans ((tilesOnly_makePair ..).trans (tilesOnly_advance ..))) (answeredLater_net x s1 0)
  case ends =>
    exact Performs.gives ⟨_, fun _ => ⟨rfl, rfl, fun _ => rfl⟩⟩ fun x s hc => congrArg (fun v => goOn (emit v x 1 [] 0)) (if_pos hc)
  case none =>
    exact Performs.gives ⟨_, fun _ => ⟨rfl, rfl, fun _ => rfl⟩⟩ fun x s hc =>
      congrArg (fun v => goOn (emit v x 1 [] 0)) (if_neg (Bool.eq_false_iff.mp hc))
  case digest =>
    refine Performs.gives ⟨_, fun _ => ⟨rfl, rfl, fun _ => rfl⟩⟩ fun x s hc => ?_
    obtain ⟨⟨howes, hh⟩, hgood⟩ := hc
    have hnone : ((markedLines s h).find? fun e => s.consumesBad e.1 e.2 64) = none :=
      List.find?_eq_none.mpr fun e he => Bool.eq_false_iff.mp (hgood e he)
    simp only [ackHold_passes howes, hh, hnone]
    rfl
  case clears =>
    exact fun s w m f s1 x hi hc => exec_digestClr h s w m f s1 x hi ⟨hc.1, n, hc.2⟩
  case agrees => exact (exec_pairIntervalClose hc hp).trans (if_pos hfp)
  case differs => exact (exec_pairIntervalClose hc hp).trans ((if_neg hfp).trans (if_neg (Bool.eq_false_iff.mp hr)))
  case fails => exact (exec_pairIntervalClose hc hp).trans ((if_neg hfp).trans (if_pos hr))
  case cleared =>
    obtain ⟨w, k, b, n, hq⟩ := agreePair_pairing hp hm
    exact ⟨_, hq, rfl, rfl, rfl, rfl, rfl, rfl, rfl, agreePair_mem s t, agreePair_net s t, agreePair_mate hp, agreePair_egress s t⟩

end Sys2Proof.Machine
end

section
/-!
SUPPORT. Aborted tasks: what is withdrawn, undone and released (spec/17 R320, R321).
-/

namespace Sys2Proof.Machine

open Sys2Proof

/-! ### What is withdrawn -/

/-- The context images of a core and the undo that it runs. -/
def Tile.contexts (u : Tile) : Sparse Ctx × Option Undo := (u.images, u.undo)

/-- Every tile has the contexts in `s'` that it has in `s`. -/
def SameContexts (s s' : State) : Prop := ∀ k, (s'.tile k).contexts = (s.tile k).contexts

section Withdrawn
variable {s s' s'' : State}

theorem SameContexts.trans (h : SameContexts s s') (h' : SameContexts s' s'') : SameContexts s s'' := fun k => (h' k).trans (h k)

theorem SameContexts.send (h : SameContexts s s') (p : Packet) : SameContexts s (s'.send p) := h

theorem SameContexts.setNet (h : SameContexts s s') (l : List Packet) : SameContexts s { s' with net := l } := h

theorem SameContexts.countArrival (h : SameContexts s s') (a b c d : Nat) : SameContexts s (s'.countArrival a b c d none) := h

theorem SameContexts.modTile (h : SameContexts s s') {g : Tile → Tile} (hg : ∀ u, (g u).contexts = u.contexts) (t : Nat) :
    SameContexts s (s'.modTile t g) := fun k => (modTile_aspect hg s' t k).trans (h k)

variable (s) (t : Nat)

theorem sameContexts_regrant : SameContexts s (regrant s t) := by
  refine foldl_keeps (P := SameContexts s) _ _ (fun a w _ h => ?_) s fun _ => rfl
  split
  · exact h
  · refine SameContexts.send (SameContexts.modTile h (fun _ => ?_) t) _
    rfl

/-- Withdrawing declarations changes locks, operations and packets, and no context. -/
theorem sameContexts_withdrawDecls : SameContexts s (withdrawDecls s t) := by
  unfold withdrawDecls
  refine foldl_keeps (P := SameContexts s) _ _ (fun a h _ ha => ?_) _ ?_
  · refine SameContexts.trans ?_ (sameContexts_regrant _ h)
    refine SameContexts.modTile ha (fun _ => ?_) h
    rfl
  · refine SameContexts.setNet (SameContexts.modTile (fun _ => rfl) (fun _ => ?_) t) _
    rfl

/-- Withdrawing parked accesses changes waiters, operations and counts, and no context. -/
theorem sameContexts_withdrawParked (i : Nat) : SameContexts s (withdrawParked s t i) := by
  unfold withdrawParked
  refine SameContexts.modTile ?_ (fun _ => by rfl) t
  refine foldl_keeps (P := SameContexts s) _ _ (fun a e _ ha => ?_) s fun _ => rfl
  refine foldl_keeps (P := SameContexts s) _ _ (fun b w _ hb => ?_) a ha
  dsimp only
  split
  · refine SameContexts.countArrival (SameContexts.modTile hb (fun _ => ?_) e.1) _ _ _ _
    rfl
  · refine SameContexts.modTile hb (fun _ => ?_) e.1
    rfl

end Withdrawn

/-- A withdrawal leaves a core its images and its undo. -/
theorem Tile.ctx_of_contexts {u v : Tile} (h : v.contexts = u.contexts) (i : Nat) : v.ctx i = u.ctx i ∧ v.undo = u.undo := by
  obtain ⟨himg, hundo⟩ := Prod.mk.inj h
  exact ⟨congrArg (fun m => Sparse.get ({} : Ctx) m i) himg, hundo⟩

/-! ### The abort taken -/

/-- The image of an aborted task. -/
def Ctx.aborted (c : Ctx) (reason : Nat) : Ctx :=
  { c with
    waitDone := false, st := .waiting .undo
    task := { c.task with tstat := closeWindow c.task.tstat, waitNo := none, late := c.task.late.filter (!·.exact) }
    boost := { c.boost with aborts := min 4095 (c.boost.aborts + 1), reason := reason } }

theorem takeAbort_tile {s : State} {t i : Nat} (reason ticket : Nat) (hcur : (s.tile t).cur0 ≠ some i) :
    ((takeAbort s t i reason ticket).tile t).ctx i = ((s.tile t).ctx i).aborted reason
      ∧ ((takeAbort s t i reason ticket).tile t).undo =
        some { img := i, word := BitVec.ofNat 64 (ticket * 2 ^ 32 + reason), left := ((s.tile t).ctx i).boost.depth } := by
  have hcur' : ((s.modTile t fun u => u.unlist i).tile t).cur0 ≠ some i := by
    rw [State.modTile_tile_same]
    exact hcur
  have hlisted : ((s.tile t).unlist i).ctx i = { (s.tile t).ctx i with waitDone := false } := Tile.setCtx_ctx_same (s.tile t) i _
  obtain ⟨hctx, hundo⟩ := Tile.ctx_of_contexts (((sameContexts_withdrawDecls _ t).trans (sameContexts_withdrawParked _ t i)) t) i
  unfold takeAbort
  dsimp only
  rw [if_neg hcur', hctx, hundo, State.modTile_tile_same, State.modTile_tile_same, hlisted]
  exact ⟨Tile.setCtx_ctx_same .., rfl⟩

/-! ### The end of the undo -/

/-- Readying an image leaves every image that is ready. -/
theorem Tile.readied_ctx {u : Tile} {i : Nat} (h : (u.ctx i).st = .ready) (j : Nat) : (u.readied j).ctx i = u.ctx i := by
  by_cases hj : i = j
  · subst hj
    refine (Tile.setCtx_ctx_same u i _).trans ?_
    rw [← h]
  · exact Tile.setCtx_ctx_other u hj _

theorem wakeWaiting_ready {s : State} {t i : Nat} (h : ((s.tile t).ctx i).st = .ready) :
    ((wakeWaiting s t).tile t).ctx i = (s.tile t).ctx i :=
  wakeWaiting_keeps (P := fun a => (a.tile t).ctx i = (s.tile t).ctx i) (fun a j ha => by
    rw [State.modTile_tile_same, Tile.readied_ctx (by rw [ha, h]), ha]) rfl

theorem wakeWaiting_undo (s : State) (t : Nat) : ((wakeWaiting s t).tile t).undo = (s.tile t).undo :=
  wakeWaiting_keeps (P := fun a => (a.tile t).undo = (s.tile t).undo) (fun a j ha => by
    rw [State.modTile_tile_same]
    exact ha) rfl

theorem wakeWaiting_net (s : State) (t : Nat) : (wakeWaiting s t).net = s.net :=
  wakeWaiting_keeps (P := fun a => a.net = s.net) (fun _ _ ha => ha) rfl

/-- The locks of core t are released under one operation of image i, where it holds any. -/
def releaseLocks (s : State) (t i : Nat) : State :=
  if (lockHomes s t).length = 0 then s
  else (sendUnlocks s t (s.tile t).seq).modTile t fun u => { u with
    seq := (s.tile t).seq + 1
    out := u.out ++ [{ tag := (s.tile t).seq, who := .img i, kind := .delivery, acks := (lockHomes s t).length, slow := true }] }

/-- The image of a task whose abort is over: it stands at its restart PC. -/
def Ctx.restarted (c : Ctx) (word : Word) : Ctx :=
  { c with st := .ready, check := true, task := { c.task with pc := c.boost.restart, d := [], ret := word }
           boost := { c.boost with active := false, depth := 0 } }

/-- The core whose undo `y` is over: the image is in the ready list. -/
def Tile.requeued (u : Tile) (y : Undo) : Tile :=
  { u.setCtx y.img ((u.ctx y.img).restarted y.word) with ready := u.ready ++ [.bound y.img], undo := none }

theorem Tile.requeued_out (u : Tile) (y : Undo) : (u.requeued y).out = u.out := rfl

theorem Tile.requeued_ctx (u : Tile) (y : Undo) : (u.requeued y).ctx y.img = (u.ctx y.img).restarted y.word := Tile.setCtx_ctx_same ..

theorem sendUnlocks_tile (s : State) (t tag k : Nat) : (sendUnlocks s t tag).tile k = s.tile k := by
  have h := sendsOnly_sendEach (unlockTo t tag) (lockHomes s t) s
  rw [SendsOnly, ← sendUnlocks_eq] at h
  rw [h]
  rfl

theorem releaseLocks_contexts (s : State) (t i : Nat) : ((releaseLocks s t i).tile t).contexts = (s.tile t).contexts := by
  unfold releaseLocks
  split
  · rfl
  · rw [State.modTile_tile_same, sendUnlocks_tile]
    rfl

/-- The locks' homes each have the release, and its operation waits for all of them. -/
theorem releaseLocks_sends {s : State} {t i : Nat} (h : lockHomes s t ≠ []) :
    (∃ o ∈ ((releaseLocks s t i).tile t).out, o.tag = (s.tile t).seq ∧ o.who = .img i ∧ o.acks = (lockHomes s t).length)
      ∧ ∀ k ∈ lockHomes s t, ∃ p ∈ (releaseLocks s t i).net, p.dst = k ∧ p.tag = (s.tile t).seq ∧ p.body = .unlock t := by
  rw [releaseLocks, if_neg (by rw [List.length_eq_zero_iff]; exact h)]
  refine ⟨?_, fun k hk => ?_⟩
  · rw [State.modTile_tile_same]
    exact ⟨_, List.mem_append_right _ (List.mem_singleton_self _), rfl, rfl, rfl⟩
  · obtain ⟨n, hsent⟩ := exists_mem_sendEach (unlockTo t (s.tile t).seq) _ s hk
    exact ⟨_, hsent, rfl, rfl, rfl⟩

/-- The undo task of an entry of the words `ws`, of the aborted task in image `c`. -/
def undoTask (s : State) (t : Nat) (c : Ctx) (ws : List Word) : Task :=
  { pc := ws.headD 0 &&& 0x1FFF, tstat := setField c.task.tstat 46 46 1, it := c.task.it, gid := c.task.gid, lid := lidOf s t c.task.gid
    g := ((((({} : Task).setG 1 (ws.getD 1 0)).setG 2 (ws.getD 2 0)).setG 3 (ws.getD 3 0)).setG 4
      (BitVec.ofNat 64 (field (ws.headD 0) 18 13))).g }

/-- The registers of an undo task: its entry's words and the kind of the lock. -/
theorem undoTask_getG (s : State) (t : Nat) (c : Ctx) (ws : List Word) :
    (undoTask s t c ws).getG 1 = ws.getD 1 0 ∧ (undoTask s t c ws).getG 2 = ws.getD 2 0 ∧ (undoTask s t c ws).getG 3 = ws.getD 3 0
      ∧ (undoTask s t c ws).getG 4 = BitVec.ofNat 64 (field (ws.headD 0) 18 13) := by
  have hget (i : Nat) : (undoTask s t c ws).getG i = ((((({} : Task).setG 1 (ws.getD 1 0)).setG 2 (ws.getD 2 0)).setG 3 (ws.getD 3 0)).setG 4
      (BitVec.ofNat 64 (field (ws.headD 0) 18 13))).getG i := rfl
  simp only [hget]
  refine ⟨?_, ?_, ?_, Task.setG_getG_same _ _ (by decide)⟩
  · rw [Task.setG_getG_other _ _ (by decide), Task.setG_getG_other _ _ (by decide), Task.setG_getG_other _ _ (by decide),
      Task.setG_getG_same _ _ (by decide)]
  · rw [Task.setG_getG_other _ _ (by decide), Task.setG_getG_other _ _ (by decide), Task.setG_getG_same _ _ (by decide)]
  · rw [Task.setG_getG_other _ _ (by decide), Task.setG_getG_same _ _ (by decide)]

section UndoEnds
variable {s : State} {y : Undo} (hy : (s.tile s.cur).undo = some y) (hidle : y.active = false)
  (hquiet : undoQuiet s s.cur y.img = true)
include hy hidle hquiet

/-- The undo task of the newest entry goes ahead of the queued level-1 tasks. -/
theorem exec_undoTaskStart (hleft : y.left ≠ 0)
    (hgood : (withdrawParked s s.cur y.img).consumesBad s.cur
      ((((withdrawParked s s.cur y.img).tile s.cur).ctx y.img).boost.undo + 32 * (y.left - 1)) 32 = false) : exec .undoTaskStart s =
    let s1 := withdrawParked s s.cur y.img
    let c := (s1.tile s.cur).ctx y.img
    let r := readWords (s1.correct s.cur (c.boost.undo + 32 * (y.left - 1)) 4) s.cur (c.boost.undo + 32 * (y.left - 1)) 4
    .next (r.1.modTile s.cur fun u => { u with
      l1q := { task := undoTask r.1 s.cur c r.2, undo := true } :: u.l1q, undo := some { y with left := y.left - 1, active := true } }) := by
  show execUndoTaskStart s = _
  simp only [execUndoTaskStart, hy, hidle, hleft, hquiet, hgood, decide_false, Bool.not_true, Bool.or_self, Bool.false_eq_true, if_false]
  rfl

theorem exec_undoFinish (hleft : y.left = 0) : exec .undoFinish s =
    .next (wakeWaiting ((releaseLocks (withdrawParked s s.cur y.img) s.cur y.img).modTile s.cur (·.requeued y)) s.cur) := by
  show execUndoFinish s = _
  simp only [execUndoFinish, hy, hidle, hleft, hquiet, ne_eq, not_true_eq_false, decide_false, Bool.not_true, Bool.or_self,
    Bool.false_eq_true, if_false]
  rfl

end UndoEnds

/-- Settles O49: the abort taken, the undo task that starts, and the end of the undo. -/
theorem abortedTasksAreUndone : Obligations.AbortedTasksAreUndone := by
  unfold Obligations.AbortedTasksAreUndone
  refine ⟨fun s r k i ha hi hready hp => ?taken, fun s t i reason ticket hcur => ?recorded, fun s y hy hidle hleft hquiet hgood => ?starts,
    fun s y hy hidle hleft hquiet => ?finishes⟩
  case taken =>
    show execBoostedAbort s = _
    simp only [execBoostedAbort, ha, hi, hready, hp, Option.any_none, Bool.not_true, Bool.or_self, Bool.and_false, Bool.false_eq_true, if_false]
  case recorded =>
    obtain ⟨hctx, hundo⟩ := takeAbort_tile reason ticket hcur
    rw [hctx, hundo]
    exact ⟨rfl, rfl, rfl, rfl, rfl⟩
  case starts =>
    refine ⟨_, ?task, exec_undoTaskStart hy hidle hquiet hleft hgood, ?first, ?undo, ?registers⟩
    case first =>
      rw [State.modTile_tile_same]
      rfl
    case undo => rw [State.modTile_tile_same]
    case registers =>
      obtain ⟨h1, h2, h3, h4⟩ := undoTask_getG _ s.cur _ _
      exact ⟨rfl, h1, h2, h3, h4, rfl, rfl⟩
  case finishes =>
    obtain ⟨hctx, -⟩ := Tile.ctx_of_contexts (releaseLocks_contexts (withdrawParked s s.cur y.img) s.cur y.img) y.img
    refine ⟨_, exec_undoFinish hy hidle hquiet hleft, ?_, fun hnone => ?_, fun hsome => ?_, ?_⟩
    · rw [wakeWaiting_undo, State.modTile_tile_same]
      rfl
    · rw [wakeWaiting_net, State.modTile_net, releaseLocks, if_pos (by rw [hnone]; rfl)]
    · rw [wakeWaiting_out, wakeWaiting_net, State.modTile_tile_same, State.modTile_net, Tile.requeued_out]
      exact releaseLocks_sends (s := withdrawParked s s.cur y.img) hsome
    · have hnew := (congrArg (Tile.ctx · y.img) (State.modTile_tile_same (releaseLocks (withdrawParked s s.cur y.img) s.cur y.img) s.cur
        (·.requeued y))).trans ((Tile.requeued_ctx _ y).trans (congrArg (Ctx.restarted · y.word) hctx))
      have hkept := (wakeWaiting_ready (congrArg Ctx.st hnew)).trans hnew
      refine ⟨?_, ?_, ?_, ?_, ?_, ?_, ?_⟩
      all_goals
        rw [hkept]
        rfl

end Sys2Proof.Machine
end

section
/-!
SUPPORT. The group scheduler: records, slots, placement and retirement (spec/16 R297 to R310).
-/

namespace Sys2Proof.Machine

open Sys2Proof

/-! ### Records and queues -/

/-- `s'` follows `s` with nothing but slices and the husks changed: what the scheduler writes of records and queues. -/
def RecordsOnly (s s' : State) : Prop :=
  s' = { s with mem := s'.mem, empt := s'.empt, ecc := s'.ecc, marked := s'.marked, husks := s'.husks }

namespace RecordsOnly
variable {s s' s'' : State}

theorem refl (s : State) : RecordsOnly s s := rfl

theorem trans (h : RecordsOnly s s') (h' : RecordsOnly s' s'') : RecordsOnly s s'' := by
  unfold RecordsOnly at *
  rw [h', h]

theorem slots (h : RecordsOnly s s') : s'.slots = s.slots := by rw [h]
theorem cohorts (h : RecordsOnly s s') : s'.cohorts = s.cohorts := by rw [h]
theorem net (h : RecordsOnly s s') : s'.net = s.net := by rw [h]
theorem lastMapped (h : RecordsOnly s s') : s'.lastMapped = s.lastMapped := by rw [h]
theorem lastDrained (h : RecordsOnly s s') : s'.lastDrained = s.lastDrained := by rw [h]
theorem lastPlaced (h : RecordsOnly s s') : s'.lastPlaced = s.lastPlaced := by rw [h]
theorem placements (h : RecordsOnly s s') : s'.placements = s.placements := by rw [h]

theorem foldl {α : Type} {g : State → α → State} (hg : ∀ s a, RecordsOnly s (g s a)) (l : List α) (s : State) :
    RecordsOnly s (l.foldl g s) :=
  foldl_keeps (P := RecordsOnly s) g l (fun a b _ h => h.trans (hg a b)) s (refl s)

end RecordsOnly

section Records
variable (s : State) (n q : Nat)

theorem recordsOnly_putSlice (t off : Nat) (bs : List Byte) : RecordsOnly s (s.putSlice t off bs) := by
  have hword : ∀ (a : State) (o : Nat), RecordsOnly a (a.replaceWord t o) := fun a o => by
    rw [State.replaceWord]
    split <;> rfl
  have hmark : ∀ (a : State) (o : Nat), RecordsOnly a (a.markLine t o) := fun a o => by
    rw [State.markLine]
    split <;> rfl
  have hdata : RecordsOnly s (s.putData t off bs) := by
    refine RecordsOnly.trans (RecordsOnly.foldl (fun a i => ?_) (List.range ((off % 8 + bs.length + 7) / 8)) s) rfl
    dsimp only
    split
    · exact hword a _
    · rfl
  exact hdata.trans (RecordsOnly.foldl (fun a i => hmark a _) _ _)

theorem recordsOnly_correct (t off n : Nat) : RecordsOnly s (s.correct t off n) := by
  have h := eccOnly_correct t off n s
  rw [EccOnly] at h
  rw [h]
  rfl

theorem recordsOnly_updateRec (l : Launch) (v : Word) : RecordsOnly s (updateRec s l v) :=
  (recordsOnly_putSlice ..).trans (recordsOnly_putSlice ..)

theorem recordsOnly_refresh : RecordsOnly s (refresh s n q) := by
  unfold refresh
  split
  · exact RecordsOnly.foldl (fun a l => recordsOnly_updateRec a l _) _ s
  · rfl

theorem recordsOnly_modHead (g : Launch → Launch) : RecordsOnly s (modHead s n q g) := by
  rw [modHead, State.modHusk]
  split <;> rfl

@[simp] theorem refresh_husks : (refresh s n q).husks = s.husks := by
  unfold refresh
  split
  · exact foldl_husks (fun s l => by rw [updateRec, writeRec, writeRec, State.putSlice_husks, State.putSlice_husks]) _ s
  · rfl

end Records

/-! ### The head of a queue -/

section Heads
variable {s s' : State} {n q : Nat} {l : Launch}

theorem headOf_of_husks (h : s'.husks = s.husks) : headOf s' n q = headOf s n q := by
  rw [headOf, State.husk, h, headOf, State.husk]

/-- Changing the head of a queue that has one. -/
theorem headOf_modHead (hl : headOf s n q = some l) (g : Launch → Launch) : headOf (modHead s n q g) n q = some (g l) := by
  rw [headOf] at hl
  split at hl
  · next h hh =>
    obtain ⟨r, hr⟩ := List.head?_eq_some_iff.mp hl
    have hnew : modHead s n q g = s.setHusk n (some (h.setQueue q (g l :: r))) := by simp only [modHead, State.modHusk, hh, hr]
    simp only [hnew, headOf, State.husk, State.setHusk, Husk.queue, Husk.setQueue, Sparse.get_set_same, List.head?_cons]
  · cases hl

/-- An evaluation whose scoreboard words can be read changes the head alone. -/
theorem evalHead_of_readable (hl : headOf s n q = some l) (which : Launch → List Nat)
    (hr : ∀ k ∈ l.reads ((which l).filter fun i => !l.released.contains i), s.unreadable l.tile k = false) :
    evalHead s n q which = modHead ((l.reads ((which l).filter fun i => !l.released.contains i)).foldl (fun s k => s.correct l.tile k 1) s) n q
      fun l' => l'.evaluate s ((which l).filter fun i => !l.released.contains i) := by
  have hnone : (l.reads ((which l).filter fun i => !l.released.contains i)).any (s.unreadable l.tile) = false :=
    List.any_eq_false.mpr fun k hk => Bool.eq_false_iff.mp (hr k hk)
  simp only [evalHead, hl, hnone, Bool.false_eq_true, if_false]

theorem recordsOnly_evalHead (which : Launch → List Nat)
    (hr : ∀ l, headOf s n q = some l → ∀ k ∈ l.reads ((which l).filter fun i => !l.released.contains i), s.unreadable l.tile k = false) :
    RecordsOnly s (evalHead s n q which) := by
  cases hl : headOf s n q with
  | none =>
    rw [evalHead, hl]
    rfl
  | some l =>
    rw [evalHead_of_readable hl which (hr l hl)]
    exact (RecordsOnly.foldl (fun a k => recordsOnly_correct a l.tile k 1) _ s).trans (recordsOnly_modHead ..)

theorem headOf_evalHead (hl : headOf s n q = some l) (which : Launch → List Nat)
    (hr : ∀ k ∈ l.reads ((which l).filter fun i => !l.released.contains i), s.unreadable l.tile k = false) :
    headOf (evalHead s n q which) n q = some (l.evaluate s ((which l).filter fun i => !l.released.contains i)) := by
  rw [evalHead_of_readable hl which hr]
  refine headOf_modHead ((headOf_of_husks ?_).trans hl) _
  exact foldl_husks (fun a k => by rw [eccOnly_correct l.tile k 1 a]) _ s

end Heads

end Sys2Proof.Machine
end

section
/-!
SUPPORT. Launches from their acceptance to the retirement of their groups (spec/16 R299 to R310).
-/

namespace Sys2Proof.Machine

open Sys2Proof

/-! ### Acceptance -/

section Acceptance
variable {s : State} {n t off : Nat} {ra : Word} {h : Husk} (hh : s.husk n = some h)
include hh

/-- A record that is queued or running is not accepted. -/
theorem acceptLaunch_live (hst : recField s t off 0x40 8 / 2 ^ 60 = 1 ∨ recField s t off 0x40 8 / 2 ^ 60 = 2) :
    acceptLaunch s n t off ra = some (s, handleOf ra 0) := by
  simp only [acceptLaunch, hh, Bool.or_eq_true, decide_eq_true_eq, if_pos hst]

variable {reason : Nat} (h1 : recField s t off 0x40 8 / 2 ^ 60 ≠ 1) (h2 : recField s t off 0x40 8 / 2 ^ 60 ≠ 2)
  (hreason : (if badRecord s h t off then 1 else if (readLaunch s t off (nextSerial h.serial)).deps.any (!depLegal ·) then 2
    else if !gangFit h (readLaunch s t off (nextSerial h.serial)) then 3 else 0) = reason)
include h1 h2 hreason

/-- A well-formed record waits for a full queue. -/
theorem acceptLaunch_full (hzero : reason = 0) (hfull : 64 ≤ (h.queue (recField s t off 0x26 1)).length) :
    acceptLaunch s n t off ra = none := by
  simp only [acceptLaunch, hh, h1, h2, hreason, hzero, hfull, decide_true, decide_false, Bool.or_self, Bool.and_self, Bool.false_eq_true,
    if_false, if_true]

/-- A malformed record is answered with its handle, and its status is kept. -/
theorem acceptLaunch_rejects (hbad : reason ≠ 0) : ∃ s', acceptLaunch s n t off ra = some (s', handleOf ra (nextSerial h.serial))
    ∧ s'.husk n = some ({ h with serial := nextSerial h.serial }.keep (nextSerial h.serial) (statusWord 4 reason 0)) := by
  simp only [acceptLaunch, hh, h1, h2, hreason, hbad, decide_false, Bool.or_self, Bool.false_and, Bool.false_eq_true, if_false, ne_eq,
    not_false_eq_true, if_true]
  exact ⟨_, rfl, State.setHusk_husk_same ..⟩

/-- A well-formed one is queued under the husk's next serial. -/
theorem acceptLaunch_queues (hzero : reason = 0) (hroom : (h.queue (recField s t off 0x26 1)).length < 64) :
    ∃ s', acceptLaunch s n t off ra = some (s', handleOf ra (nextSerial h.serial))
      ∧ s'.husk n = some ({ h with serial := nextSerial h.serial }.setQueue (recField s t off 0x26 1)
        (h.queue (recField s t off 0x26 1) ++ [readLaunch s t off (nextSerial h.serial)])) := by
  simp only [acceptLaunch, hh, h1, h2, hreason, hzero, Nat.not_le.mpr hroom, decide_true, decide_false, Bool.or_self, Bool.and_false,
    Bool.false_eq_true, if_false, ne_eq, not_true_eq_false]
  refine ⟨_, rfl, ?_⟩
  rw [State.husk, refresh_husks]
  exact State.setHusk_husk_same ..

end Acceptance

/-! ### Slots -/

/-- The choice of one of the free slots `k0 :: ks` (log 20). -/
def slotChoice (s : State) (ks : List Nat) : Nat × State := if ks.isEmpty then (0, s) else s.choose

theorem slotChoice_state (s : State) (ks : List Nat) :
    ∃ sch tk, (slotChoice s ks).2 = { s with schedule := sch, ticks := tk } := by
  unfold slotChoice
  split
  · exact ⟨_, _, rfl⟩
  · rw [State.choose]
    split
    · exact ⟨_, _, rfl⟩
    · exact ⟨_, _, rfl⟩

/-- Slot k is mapped to queue q of husk n. -/
def mapSlot (s : State) (k n q : Nat) : State :=
  { s with slots := Sparse.set none s.slots k (some { tenant := n, queue := q }), lastMapped := some (n, q) }

/-- A free slot is mapped to the next unmapped queue, whose head's scoreboard can be read. -/
theorem exec_slotMapping {s : State} {n q k0 : Nat} {ks : List Nat} (hnext : nextUnmapped s = some (n, q)) (hfree : freeSlots s = k0 :: ks)
    (hr : ∀ l, headOf s n q = some l → ∀ k ∈ l.reads ((List.range l.total).filter fun i => !l.released.contains i),
      s.unreadable l.tile k = false) :
    ∃ t k, exec .slotMapping s = .next t ∧ k ∈ k0 :: ks ∧ t.slots = Sparse.set none s.slots k (some { tenant := n, queue := q })
      ∧ t.lastMapped = some (n, q) := by
  obtain ⟨k, hk⟩ : ∃ k, (k0 :: ks).getD ((slotChoice s ks).1 % (ks.length + 1)) k0 = k := ⟨_, rfl⟩
  obtain ⟨sch, tk, hs⟩ := slotChoice_state s ks
  have hexec : exec .slotMapping s = .next (refresh (evalAll (mapSlot (slotChoice s ks).2 k n q) n q) n q) := by
    show execSlotMapping s = _
    rw [← hk]
    simp only [execSlotMapping, hnext, hfree]
    rfl
  have hrecords : RecordsOnly (mapSlot (slotChoice s ks).2 k n q) (refresh (evalAll (mapSlot (slotChoice s ks).2 k n q) n q) n q) :=
    (recordsOnly_evalHead (fun l => List.range l.total) (by rw [hs]; exact hr)).trans (recordsOnly_refresh ..)
  refine ⟨_, k, hexec, hk ▸ getD_mod_mem k0 ks _, ?_, hrecords.lastMapped⟩
  rw [hrecords.slots, hs]
  rfl

/-- A rotation that sets slot k draining. -/
def drainSlot (s : State) (k : Nat) (x : LSlot) : State :=
  { s with rotations := s.rotations + 1, slots := Sparse.set none s.slots k (some { x with draining := true }), lastDrained := k }

/-- A draining slot of which a group is left stays. -/
theorem freeDrained_of_any {s : State} {k : Nat} {x : LSlot} (hx : Sparse.get none s.slots k = some x)
    (hany : (s.cohorts.any fun (c : Cohort) => c.slot = k && c.tenant = x.tenant && c.queue = x.queue) = true) : freeDrained s k = s := by
  simp only [freeDrained, hx, hany, Bool.not_true, Bool.and_false, Bool.false_eq_true, if_false]

/-- A rotation sets the next mapped slot draining while a queue with work is unmapped. -/
theorem exec_slotRotation_drains {s : State} {k : Nat} {x : LSlot} (hdue : s.rotations < s.placements / 4096) (hmap : canMap s = false)
    (hsome : unmapped s ≠ []) (hafter : mappedAfter s s.lastDrained = some k) (hx : Sparse.get none s.slots k = some x)
    (hany : (s.cohorts.any fun (c : Cohort) => c.slot = k && c.tenant = x.tenant && c.queue = x.queue) = true) :
    ∃ t, exec .slotRotation s = .next t ∧ Sparse.get none t.slots k = some { x with draining := true } ∧ t.lastDrained = k := by
  have hsome' : (unmapped { s with rotations := s.rotations + 1 }).isEmpty = false := List.isEmpty_eq_false_iff.mpr hsome
  have hafter' : mappedAfter { s with rotations := s.rotations + 1 } s.lastDrained = some k := hafter
  have hexec : exec .slotRotation s = .next (freeDrained (refresh (drainSlot s k x) x.tenant x.queue) k) := by
    show execSlotRotation s = _
    simp only [execSlotRotation, rotationDue, hdue, hmap, hsome', hafter', hx, decide_true, Bool.not_true, Bool.or_self,
      Bool.false_eq_true, if_false]
    rfl
  have hrecords := recordsOnly_refresh (drainSlot s k x) x.tenant x.queue
  have hslot : Sparse.get none (refresh (drainSlot s k x) x.tenant x.queue).slots k = some { x with draining := true } := by
    rw [hrecords.slots]
    exact Sparse.get_set_same none s.slots k (some { x with draining := true })
  rw [freeDrained_of_any hslot (by rw [hrecords.cohorts]; exact hany)] at hexec
  exact ⟨_, hexec, hslot, hrecords.lastDrained⟩

/-! ### Placement -/

/-- The members of a placed group get its START. -/
def startEach (id : Nat) (ts : List Nat) (s : State) : State :=
  ts.foldl (fun s t => (s.modTile t fun u => { u with phase := 0, det := {} }).send (mkPacket schedDst t 0 orderedChan (.start id))) s

/-- `s'` follows `s` with nothing but tiles changed and packets sent. -/
def StartsOnly (s s' : State) : Prop := s' = { s with tiles := s'.tiles, net := s'.net, nextId := s'.nextId }

theorem startsOnly_startEach (id : Nat) : ∀ (ts : List Nat) (s : State), StartsOnly s (startEach id ts s)
  | [], _ => rfl
  | t :: ts, s => by
    have h := startsOnly_startEach id ts ((s.modTile t fun u => { u with phase := 0, det := {} }).send
      (mkPacket schedDst t 0 orderedChan (.start id)))
    rw [StartsOnly] at h ⊢
    rw [startEach, List.foldl_cons, ← startEach, h]
    rfl

theorem mem_startEach_of_mem (id : Nat) {p : Packet} : ∀ (ts : List Nat) {s : State}, p ∈ s.net → p ∈ (startEach id ts s).net
  | [], _, h => h
  | _ :: ts, _, h => mem_startEach_of_mem id ts (List.mem_append_left _ h)

theorem exists_mem_startEach (id : Nat) {m : Nat} : ∀ (ts : List Nat) (s : State), m ∈ ts →
    ∃ p ∈ (startEach id ts s).net, p.dst = m ∧ p.body = .start id
  | t :: ts, s, h => by
    rcases List.mem_cons.mp h with rfl | h
    · exact ⟨_, mem_startEach_of_mem id ts (List.mem_append_right _ (List.mem_singleton_self _)), rfl, rfl⟩
    · exact exists_mem_startEach id ts _ h

/-- The cohort of group i of launch `l`, placed at (cx, cy) of its husk. -/
def placedCohort (s : State) (k n q i cx cy : Nat) (l : Launch) (h : Husk) : Cohort :=
  { id := s.nextId, tenant := n, slot := k, queue := q, index := i, x := cx, y := cy, w := l.w, h := l.h, gwl := l.gwl
    fwd := l.fwd, det := l.flags % 2 = 1, boost := l.flags / 8 % 2 = 1, qlog := l.qlog, tag := l.tag
    entry := l.entry, arg := l.arg, tstat := launchStat l.flags, toStart := rectOf h cx cy l.w l.h }

/-- The state in which a group has been placed and its STARTs are out, before the records follow. -/
def placed (s : State) (k n q i cx cy : Nat) (l : Launch) (h : Husk) : State :=
  startEach s.nextId (rectOf h cx cy l.w l.h) (modHead { s with
    nextId := s.nextId + 1, cohorts := s.cohorts ++ [placedCohort s k n q i cx cy l h], placements := s.placements + 1, lastPlaced := k } n q
      fun l => { l with started := l.started ++ [i], runningN := l.runningN + 1 })

section Placement
variable (s : State) (k n q i cx cy : Nat) (l : Launch) (h : Husk)

theorem placed_facts : (placed s k n q i cx cy l h).cohorts = s.cohorts ++ [placedCohort s k n q i cx cy l h]
    ∧ (placed s k n q i cx cy l h).lastPlaced = k ∧ (placed s k n q i cx cy l h).placements = s.placements + 1 := by
  have hstarts := startsOnly_startEach s.nextId (rectOf h cx cy l.w l.h) (modHead { s with
    nextId := s.nextId + 1, cohorts := s.cohorts ++ [placedCohort s k n q i cx cy l h], placements := s.placements + 1, lastPlaced := k } n q
      fun l => { l with started := l.started ++ [i], runningN := l.runningN + 1 })
  have hhead := recordsOnly_modHead { s with
    nextId := s.nextId + 1, cohorts := s.cohorts ++ [placedCohort s k n q i cx cy l h], placements := s.placements + 1, lastPlaced := k } n q
      fun l => { l with started := l.started ++ [i], runningN := l.runningN + 1 }
  rw [StartsOnly, ← placed] at hstarts
  rw [hstarts]
  exact ⟨hhead.cohorts, hhead.lastPlaced, hhead.placements⟩

end Placement

theorem exec_groupPlacement {s : State} {k n q i cx cy : Nat} {l : Launch} {h : Husk} (hdue : rotationDue s = false) (hmap : canMap s = false)
    (hturn : slotTurn s = some k) (hplace : placeable s k = some (n, q, l, i, cx, cy)) (hh : s.husk n = some h) :
    exec .groupPlacement s = .next (refresh (placed s k n q i cx cy l h) n q) := by
  show execGroupPlacement s = _
  simp only [execGroupPlacement, hturn, hdue, hmap, hplace, hh, Bool.or_self, Bool.false_eq_true, if_false]
  rfl

/-- Settles O47: the judgement, the slots, the placement, the retirement and the evaluation of the head. -/
theorem launchesArePlacedAndRetired : Obligations.LaunchesArePlacedAndRetired := by
  unfold Obligations.LaunchesArePlacedAndRetired
  refine ⟨fun s p t off hint n h ha hb hh hgood => ⟨fun hnone => ?waits, fun s' v hsome => ?answered⟩,
    fun s n t off ra h hh => ⟨acceptLaunch_live hh, fun h1 h2 => ⟨fun hz hfull => acceptLaunch_full hh h1 h2 rfl hz hfull,
      fun hbad => ?rejected, fun hz hroom => ?queued⟩⟩,
    fun s n q k0 ks hnext hfree hr => ?mapped, fun s hdue hmap => ⟨fun hnone => ?even, fun k x hsome hafter hx hany => ?drains⟩,
    fun s k n q i cx cy l h hdue hmap hturn hplace hh => ?placed,
    fun s c h hc hh hdone hst => ⟨fun d hd => ?gone, fun hnone => ?last, fun l hl hgood => ?retires⟩,
    fun s n q l which hl hr => headOf_evalHead hl which hr⟩
  case waits =>
    show execLaunchAcceptance s = _
    simp only [execLaunchAcceptance, ha, hb, hh, hgood, hnone, Bool.false_eq_true, if_false]
  case answered =>
    show execLaunchAcceptance s = _
    simp only [execLaunchAcceptance, ha, hb, hh, hgood, hsome, Bool.false_eq_true, if_false]
  case rejected =>
    obtain ⟨s', hs', hg⟩ := acceptLaunch_rejects (ra := ra) hh h1 h2 rfl hbad
    exact ⟨s', hs', _, hg, rfl, rfl, List.mem_cons_self⟩
  case queued =>
    obtain ⟨s', hs', hg⟩ := acceptLaunch_queues (ra := ra) hh h1 h2 rfl hz hroom
    exact ⟨s', hs', _, hg, rfl, Sparse.get_set_same ..⟩
  case mapped =>
    obtain ⟨t, k, hexec, hk, hslots, hlast⟩ := exec_slotMapping hnext hfree hr
    refine ⟨t, k, hexec, hk, ?_, hlast, fun j hj => ?_⟩
    · rw [hslots, Sparse.get_set_same]
    · rw [hslots, Sparse.get_set_other _ _ hj]
  case even =>
    have hnone' : unmapped { s with rotations := s.rotations + 1 } = [] := hnone
    show execSlotRotation s = _
    simp only [execSlotRotation, rotationDue, hdue, hmap, hnone', decide_true, Bool.not_true, Bool.or_self, List.isEmpty_nil,
      Bool.false_eq_true, if_false, if_true]
  case drains => exact exec_slotRotation_drains hdue hmap hsome hafter hx hany
  case placed =>
    obtain ⟨hcohorts, hlast, hcount⟩ := placed_facts s k n q i cx cy l h
    have hrecords := recordsOnly_refresh (placed s k n q i cx cy l h) n q
    refine ⟨_, _, exec_groupPlacement hdue hmap hturn hplace hh, hrecords.cohorts.trans hcohorts, hrecords.lastPlaced.trans hlast,
      hrecords.placements.trans hcount, rfl, rfl, rfl, rfl, rfl, rfl, rfl, rfl, rfl, rfl, rfl, fun m hm => ?_⟩
    rw [hrecords.net]
    exact exists_mem_startEach s.nextId _ _ hm
  case gone => exact bne_iff_ne.mp (List.mem_filter.mp hd).2
  case last =>
    show execGroupRetirement s = _
    simp only [execGroupRetirement, hc, hh, hdone, hst, hnone]
    rfl
  case retires =>
    show execGroupRetirement s = _
    simp only [execGroupRetirement, hc, hh, hdone, hst, hl, hgood]
    rfl

end Sys2Proof.Machine
end

section
/-!
SUPPORT. What HUSKCFG does to a husk (spec/20 R378, R379).
-/

namespace Sys2Proof.Machine

open Sys2Proof

/-! ### The place that a husk is to take -/

/-- A place that leaves the mesh or overlaps a husk, or that holds a fenced tile, is refused. -/
theorem badPlace_some {out fenced : Bool} (h : (if out then 3 else if fenced then 4 else 0) ≠ 0) :
    (if out then some 3 else if fenced then some 4 else none) = some (if out then 3 else if fenced then 4 else 0) := by
  cases out
  · cases fenced
    · exact absurd rfl h
    · rfl
  · rfl

/-- Any other is taken. -/
theorem badPlace_none {out fenced : Bool} (h : (if out then 3 else if fenced then 4 else 0) = 0) :
    (if out then some 3 else if fenced then some 4 else none : Option Nat) = none := by
  cases out
  · cases fenced
    · rfl
    · cases h
  · cases h

/-- HUSKCFG of a task that owes nothing goes on with the tenant identifier of its operand. -/
theorem cfgStart_passes {x : In} {s : State} (hid : field x.a 63 8 = 0) (howes : (s.tile x.t).owes x.w true true = false) :
    cfgStart s x = .ok x.a.toNat := by
  simp only [cfgStart, need_passes (beq_iff_eq.mpr hid), ackHold_passes howes]
  rfl

/-- A tenant identifier has eight bits. -/
theorem tenant_lt {a : Word} (h : field a 63 8 = 0) : a.toNat < 256 := by
  have := a.isLt
  simp only [field] at h
  omega

/-! ### What `.undef` removes -/

/-- The memory-core contexts that a tenant has bound. -/
def boundMcs (s : State) (n : Nat) : List Nat := (s.mcs.filter fun e => e.2.any fun m => m.tenant = n).map (·.1)

/-- A context with the tenant's record is one of them. -/
theorem mem_boundMcs {s : State} {n c : Nat} {m : McCtx} (h : s.mc c = some m) (hm : m.tenant = n) : c ∈ boundMcs s n := by
  have hin : (c, s.mc c) ∈ s.mcs := Sparse.mem_of_get fun hd => by rw [State.mc, hd] at h; cases h
  exact List.mem_map_of_mem (f := Prod.fst) (List.mem_filter.mpr ⟨hin, by rw [h]; exact decide_eq_true hm⟩)

/-- Unbinding a context takes its record away and no other's. -/
theorem bindMc_none_mc (s : State) (a c : Nat) : (bindMc s a none).mc c = if c = a then none else s.mc c := by
  have hset : ∀ s : State, ({ s with mcs := Sparse.set none s.mcs a none } : State).mc c = if c = a then none else s.mc c :=
    fun s => Sparse.get_set none s.mcs a c none
  rw [bindMc]
  cases h : s.mc a <;> exact hset _

/-- Unbinding contexts one by one takes the record of each away and no other's. -/
theorem foldl_bindMc_none_mc (c : Nat) : ∀ (ms : List Nat) (s : State),
    (ms.foldl (fun s a => bindMc s a none) s).mc c = if c ∈ ms then none else s.mc c
  | [], s => by simp
  | a :: ms, s => by
    rw [List.foldl_cons, foldl_bindMc_none_mc c ms, bindMc_none_mc]
    by_cases hc : c ∈ ms <;> by_cases ha : c = a <;> simp [hc, ha]

/-- The state without a tenant's entries in the tables. -/
def withoutEntries (s : State) (n : Nat) : State :=
  { s with
    groups := s.groups.filter fun e => e.1 % 256 != n
    peers := s.peers.filter fun e => !(e.2.any fun (p : Peer) => p.husk = n)
    hostWins := s.hostWins.filter fun e => e.1 / 16 != n }

/-- The state in which a tenant is undefined. -/
def undefined (s : State) (n : Nat) : State :=
  (withoutEntries ((boundMcs s n).foldl (fun s a => bindMc s a none) s) n).setHusk n none

theorem undefined_husk (s : State) (n : Nat) : (undefined s n).husk n = none := State.setHusk_husk_same ..

theorem withoutEntries_groupEntry (s : State) {n : Nat} (hn : n < 256) (k : Nat) : (withoutEntries s n).groupEntry n k = none := by
  have hkey : ((k * 256 + n) % 256 != n) = false := bne_eq_false_iff_eq.mpr (by omega)
  exact (Sparse.get_filter none s.groups (fun i => i % 256 != n) _).trans (if_neg (Bool.eq_false_iff.mp hkey))

theorem withoutEntries_hostWins (s : State) (n : Nat) {k : Nat} (hk : k < 16) :
    Sparse.get none (withoutEntries s n).hostWins (winKey n k) = none := by
  have hkey : (winKey n k / 16 != n) = false := bne_eq_false_iff_eq.mpr (by rw [winKey]; omega)
  exact (Sparse.get_filter none s.hostWins (fun i => i / 16 != n) _).trans (if_neg (Bool.eq_false_iff.mp hkey))

theorem withoutEntries_peers (s : State) {n k : Nat} {p : Peer} (h : Sparse.get none (withoutEntries s n).peers k = some p) :
    p.husk ≠ n := by
  have hin : (k, some p) ∈ (withoutEntries s n).peers := h ▸ Sparse.mem_of_get (by rw [h]; exact Option.some_ne_none p)
  have hkeep := (List.mem_filter.mp hin).2
  simpa using hkeep

theorem undefined_mc (s : State) {n c : Nat} {m : McCtx} (h : (undefined s n).mc c = some m) : m.tenant ≠ n := by
  have hget : (if c ∈ boundMcs s n then none else s.mc c) = some m := (foldl_bindMc_none_mc c _ s).symm.trans h
  intro hm
  split at hget
  · cases hget
  · next hout => exact hout (mem_boundMcs hget hm)

/-! ### HUSKCFG -/

/-- A shape word that is plain and has the extent of the husk passes the test of an evicted one. -/
theorem sameShape {b : Word} {g : Husk} (hplain : field b 63 24 = 0) (hwidth : (shapeHusk b).width = g.width)
    (hheight : (shapeHusk b).height = g.height) :
    (field b 63 24 != 0 || (shapeHusk b).width != g.width || (shapeHusk b).height != g.height) = false := by
  rw [hplain, hwidth, hheight, bne_self_eq_false, bne_self_eq_false, bne_self_eq_false]
  rfl

/-- `.undef` of a killed husk that is not the issuer's own. -/
theorem exec_huskcfgUndef (g : Husk) : Gives .huskcfgUndef
    (fun x s => (field x.a 63 8 = 0 ∧ (s.tile x.t).owes x.w true true = false ∧ s.husk x.a.toNat = some g)
      ∧ s.tenantOf x.t ≠ some x.a.toNat ∧ g.st = .killed)
    (fun x s => (answeredLater x (undefined s x.a.toNat) 0, .next)) := by
  refine Performs.gives ⟨_, fun _ => ⟨rfl, rfl, fun _ => rfl⟩⟩ fun x s hc => ?_
  obtain ⟨⟨hid, howes, hhusk⟩, hown, hst⟩ := hc
  simp only [cfgStart_passes hid howes, ok_bind, hhusk, hst, beq_eq_false_iff_ne.mpr hown, bne_self_eq_false, Bool.or_self,
    Bool.false_eq_true, if_false]
  rfl

/-- Settles O36: each instruction passes its checks one after the other, state of the husk by state of the husk. -/
theorem huskConfigurationGivesItsResult : Obligations.HuskConfigurationGivesItsResult := by
  unfold Obligations.HuskConfigurationGivesItsResult
  refine ⟨?newBad, ?new, ?killNone, ?flushNone, ?undefNone, fun g => ⟨?busy, ?killedBad, ?killed, ⟨?evictedBad, ?evicted⟩, ?killOwn,
    ?kill, ?flush, ?undefNot, ?undef, fun s2 s3 ws => ⟨?tab, ?tabBad⟩⟩⟩
  case newBad =>
    refine Performs.gives ⟨_, fun _ => ⟨rfl, rfl, fun _ => rfl⟩⟩ fun x s hc => ?_
    obtain ⟨⟨hid, howes, hhusk⟩, hplain, hbad⟩ := hc
    simp only [cfgStart_passes hid howes, ok_bind, hhusk, badPlace_some hbad, bne_eq_false_iff_eq.mpr hplain, Bool.false_eq_true, if_false]
    rfl
  case new =>
    refine Performs.gives ⟨_, fun _ => ⟨rfl, rfl, fun _ => rfl⟩⟩ fun x s hc => ?_
    obtain ⟨⟨hid, howes, hhusk⟩, hplain, hgood⟩ := hc
    simp only [cfgStart_passes hid howes, ok_bind, hhusk, badPlace_none hgood, bne_eq_false_iff_eq.mpr hplain, Bool.false_eq_true, if_false]
    rfl
  case killNone =>
    refine Performs.gives ⟨_, fun _ => ⟨rfl, rfl, fun _ => rfl⟩⟩ fun x s hc => ?_
    obtain ⟨hid, howes, hhusk⟩ := hc
    simp only [cfgStart_passes hid howes, ok_bind, hhusk]
    rfl
  case flushNone =>
    refine Performs.gives ⟨_, fun _ => ⟨rfl, rfl, fun _ => rfl⟩⟩ fun x s hc => ?_
    obtain ⟨hid, howes, hhusk⟩ := hc
    simp only [cfgStart_passes hid howes, ok_bind, hhusk, Option.isNone_none, if_true]
    rfl
  case undefNone =>
    refine Performs.gives ⟨_, fun _ => ⟨rfl, rfl, fun _ => rfl⟩⟩ fun x s hc => ?_
    obtain ⟨hid, howes, hhusk⟩ := hc
    simp only [cfgStart_passes hid howes, ok_bind, hhusk]
    rfl
  case busy =>
    refine Performs.gives ⟨_, fun _ => ⟨rfl, rfl, fun _ => rfl⟩⟩ fun x s hc => ?_
    obtain ⟨⟨hid, howes, hhusk⟩, hst⟩ := hc
    simp only [List.mem_cons, List.not_mem_nil, or_false] at hst
    rcases hst with hst | hst | hst | hst | hst
    all_goals
      simp only [cfgStart_passes hid howes, ok_bind, hhusk, hst]
      rfl
  case killedBad =>
    refine Performs.gives ⟨_, fun _ => ⟨rfl, rfl, fun _ => rfl⟩⟩ fun x s hc => ?_
    obtain ⟨⟨hid, howes, hhusk⟩, hst, hplain, hbad⟩ := hc
    simp only [cfgStart_passes hid howes, ok_bind, hhusk, hst, badPlace_some hbad, bne_eq_false_iff_eq.mpr hplain, Bool.false_eq_true, if_false]
    rfl
  case killed =>
    refine Performs.gives ⟨_, fun _ => ⟨rfl, rfl, fun _ => rfl⟩⟩ fun x s hc => ?_
    obtain ⟨⟨hid, howes, hhusk⟩, hst, hplain, hgood⟩ := hc
    simp only [cfgStart_passes hid howes, ok_bind, hhusk, hst, badPlace_none hgood, bne_eq_false_iff_eq.mpr hplain, Bool.false_eq_true, if_false]
    rfl
  case evictedBad =>
    refine Performs.gives ⟨_, fun _ => ⟨rfl, rfl, fun _ => rfl⟩⟩ fun x s hc => ?_
    obtain ⟨⟨hid, howes, hhusk⟩, hst, ⟨hplain, hwidth, hheight⟩, hbad⟩ := hc
    simp only [cfgStart_passes hid howes, ok_bind, hhusk, hst, badPlace_some hbad, sameShape hplain hwidth hheight, Bool.false_eq_true,
      if_false]
    rfl
  case evicted =>
    refine Performs.gives ⟨_, fun _ => ⟨rfl, rfl, fun _ => rfl⟩⟩ fun x s hc => ?_
    obtain ⟨⟨hid, howes, hhusk⟩, hst, ⟨hplain, hwidth, hheight⟩, hgood⟩ := hc
    simp only [cfgStart_passes hid howes, ok_bind, hhusk, hst, badPlace_none hgood, sameShape hplain hwidth hheight, Bool.false_eq_true,
      if_false]
    rfl
  case killOwn =>
    refine Performs.gives ⟨_, fun _ => ⟨rfl, rfl, fun _ => rfl⟩⟩ fun x s hc => ?_
    obtain ⟨⟨hid, howes, hhusk⟩, hown⟩ := hc
    simp only [cfgStart_passes hid howes, ok_bind, hhusk, hown, beq_self_eq_true, if_true]
    rfl
  case kill =>
    refine Performs.gives ⟨_, fun _ => ⟨rfl, rfl, fun _ => rfl⟩⟩ fun x s hc => ?_
    obtain ⟨⟨hid, howes, hhusk⟩, hown⟩ := hc
    simp only [cfgStart_passes hid howes, ok_bind, hhusk, beq_eq_false_iff_ne.mpr hown, Bool.false_eq_true, if_false]
    rfl
  case flush =>
    refine Performs.gives ⟨_, fun _ => ⟨rfl, rfl, fun _ => rfl⟩⟩ fun x s hc => ?_
    obtain ⟨hid, howes, hhusk⟩ := hc
    simp only [cfgStart_passes hid howes, ok_bind, hhusk, Option.isNone_some, Bool.false_eq_true, if_false]
    rfl
  case undefNot =>
    refine Performs.gives ⟨_, fun _ => ⟨rfl, rfl, fun _ => rfl⟩⟩ fun x s hc => ?_
    obtain ⟨⟨hid, howes, hhusk⟩, hnot⟩ := hc
    have hrefused : (s.tenantOf x.t == some x.a.toNat || g.st != .killed) = true := by
      rw [Bool.or_eq_true, beq_iff_eq, bne_iff_ne]
      exact hnot
    simp only [cfgStart_passes hid howes, ok_bind, hhusk, hrefused, if_true]
    rfl
  case undef =>
    intro s w m f s1 x hi his hown hst
    have htables := tilesOnly_retire (answeredLater x (undefined s1 x.a.toNat) 0) x.t x.w x.f (m.beats x.f) ((s1.tile x.t).task x.w).mwo true .next
    have hn := tenant_lt his.1
    refine ⟨_, exec_huskcfgUndef g s w m f s1 x hi ⟨his, hown, hst⟩, ?_, answer_retired htables (answeredLater_net x _ 0), ?_, ?_, ?_, ?_⟩
    · rw [State.husk, retired, htables.husks]
      exact undefined_husk s1 _
    · intro k
      rw [State.groupEntry, retired, htables]
      exact withoutEntries_groupEntry _ hn k
    · intro k hk
      rw [retired, htables]
      exact withoutEntries_hostWins _ _ hk
    · intro k p hp
      rw [retired, htables] at hp
      exact withoutEntries_peers _ hp
    · intro c r hr
      rw [State.mc, retired, htables] at hr
      exact undefined_mc s1 hr
  case tab =>
    refine Performs.gives ⟨_, fun _ => ⟨rfl, rfl, fun _ => rfl⟩⟩ fun x s hc => ?_
    obtain ⟨⟨⟨hid, howes, hhusk⟩, hown, halign, hecc, hread⟩, hmade, hgood⟩ := hc
    simp only [cfgStart_passes hid howes, ok_bind, need_passes hown, need_passes (beq_iff_eq.mpr halign), hhusk, hecc, hread, hmade, hgood,
      Bool.false_eq_true, if_false]
    rfl
  case tabBad =>
    refine Performs.gives ⟨_, fun _ => ⟨rfl, rfl, fun _ => rfl⟩⟩ fun x s hc => ?_
    obtain ⟨⟨⟨hid, howes, hhusk⟩, hown, halign, hecc, hread⟩, hmade⟩ := hc
    simp only [cfgStart_passes hid howes, ok_bind, need_passes hown, need_passes (beq_iff_eq.mpr halign), hhusk, hecc, hread, hmade,
      Bool.false_eq_true, if_false]
    rfl

end Sys2Proof.Machine
end
